-- ==== Sys2Proof/Word.lean ====
section
/-! DEFINITION. The byte the station links carry, the numbers that name positions and banks, and the plain
container for four like things: the part has four banks and four fuelling positions. -/

namespace Sys2Proof

/-- One byte of a station-link frame (R167). -/
abbrev Byte := BitVec 8

/-- A fuelling position, 0 to 3 (R1). -/
abbrev PosId := Fin 4

/-- A cascade bank, 0 to 3 (R50). -/
abbrev BankId := Fin 4

/-- Four like things, one for each bank or each position. -/
structure Quad (α : Type) where
  at0 : α
  at1 : α
  at2 : α
  at3 : α
deriving DecidableEq, Repr

namespace Quad

variable {α : Type}

/-- The same value four times. -/
def fill (x : α) : Quad α := ⟨x, x, x, x⟩

/-- The entry of one number. -/
def get (q : Quad α) (i : Fin 4) : α :=
  match i with
  | 0 => q.at0
  | 1 => q.at1
  | 2 => q.at2
  | 3 => q.at3

/-- Replace the entry of one number. -/
def set (q : Quad α) (i : Fin 4) (x : α) : Quad α :=
  match i with
  | 0 => { q with at0 := x }
  | 1 => { q with at1 := x }
  | 2 => { q with at2 := x }
  | 3 => { q with at3 := x }

/-- The four entries, lowest number first. -/
def toList (q : Quad α) : List α := [q.at0, q.at1, q.at2, q.at3]

/-- Apply a function to each entry. -/
def map {β : Type} (f : α → β) (q : Quad α) : Quad β := ⟨f q.at0, f q.at1, f q.at2, f q.at3⟩

end Quad

/-- The four numbers in increasing order. -/
def fourIds : List (Fin 4) := [0, 1, 2, 3]

/-- Do one thing for each of the four numbers, in increasing order. -/
def inOrder {σ : Type} (f : Fin 4 → σ → σ) (s : σ) : σ := f 3 (f 2 (f 1 (f 0 s)))

end Sys2Proof
end

