-- ==== Sys2Proof/Syntax.lean ====
section
/-! DEFINITION. The commands of the part: one constructor for each row of spec/opcode_table.json.

A request row carries the request as its frame carries it: the port where it may arrive on more than one, the tag,
and the fields of its body in the widths of R168, R170 and R172. An event row carries the position or bank whose
timer or phase it is. -/

namespace Sys2Proof

/-- The seven station-link ports (R1). -/
inductive PortId where
  | dispenser (n : PosId)
  | plant
  | terminal
  | supervisor
deriving DecidableEq, Repr

/-- The pressure and the temperature of one bank in a BANK STATUS body (R170). -/
structure BankReading where
  pressure : BitVec 16
  temperature : BitVec 16
deriving DecidableEq, Repr

/-- The steps of the part (spec/opcode_table.json), in the table's order. -/
inductive Instr where
  /-- POWER_ON (R14). -/
  | powerOn
  /-- FRAME_DISCARDED (R167): bytes that arrive on a port and make no intact frame. -/
  | frameDiscarded (port : PortId) (bytes : List Byte)
  /-- BYTE_GAP_EXCEEDED (R167): bytes that arrive on a port, and then silence longer than the byte gap. -/
  | byteGapExceeded (port : PortId) (bytes : List Byte)
  /-- LINK_SCREEN_ANSWER (R3): an intact frame that the screening answers. -/
  | linkScreenAnswer (port : PortId) (tag kind : Byte) (body : List Byte)
  /-- REPEATED_REQUEST (R7): an intact frame equal to the port's last-answer record. -/
  | repeatedRequest (port : PortId) (tag kind : Byte) (body : List Byte)
  /-- ANSWER_SENT (R2): the last byte of the answer has left the port. -/
  | answerSent (port : PortId)
  /-- READ_NOTICES (R12). -/
  | readNotices (port : PortId) (tag : Byte)
  /-- NOZZLE (R103). -/
  | nozzle (pos : PosId) (tag : Byte) (state : Byte)
  /-- START (R119). -/
  | start (pos : PosId) (tag : Byte)
  /-- STOP (R140). -/
  | stop (pos : PosId) (tag : Byte)
  /-- PAUSE (R140). -/
  | pause (pos : PosId) (tag : Byte)
  /-- CONTINUE (R140). -/
  | continueFill (pos : PosId) (tag : Byte)
  /-- PROGRESS (R105). -/
  | progress (pos : PosId) (tag : Byte) (pressure temperature : BitVec 16) (mass : BitVec 24)
  /-- FINAL_METER (R108). -/
  | finalMeter (pos : PosId) (tag : Byte) (mass : BitVec 24)
  /-- VEHICLE_FRAME (R109). -/
  | vehicleFrame (pos : PosId) (tag : Byte) (check cls : Byte) (volume pressure temperature : BitVec 16)
      (command : Byte)
  /-- READ_POSITION (R115): no body from a dispenser port, a position from the supervisor port. -/
  | readPosition (port : PortId) (tag : Byte) (position : Option Byte)
  /-- BANK_STATUS (R52). -/
  | bankStatus (tag : Byte) (banks : Quad BankReading) (ambient : BitVec 16)
  /-- COOLING_CAPACITY (R88). -/
  | coolingCapacity (tag : Byte) (capacity : BitVec 16)
  /-- REFILL_NEXT (R70). -/
  | refillNext (tag : Byte)
  /-- REFILL_END (R72). -/
  | refillEnd (tag : Byte) (bank : Byte)
  /-- EMERGENCY_STOP (R22). -/
  | emergencyStop (port : PortId) (tag : Byte)
  /-- READ_BANKS (R66). -/
  | readBanks (port : PortId) (tag : Byte)
  /-- AUTHORIZE (R153). -/
  | authorize (tag : Byte) (position : Byte) (reference : BitVec 32) (kind : Byte) (amount : BitVec 32)
      (lifetime : BitVec 16)
  /-- CANCEL_AUTHORIZATION (R154). -/
  | cancelAuthorization (tag : Byte) (position : Byte) (reference : BitVec 32)
  /-- READ_RECORD (R163). -/
  | readRecord (port : PortId) (tag : Byte) (selector : Byte) (number : BitVec 32)
  /-- SETTLE (R164). -/
  | settle (tag : Byte) (number : BitVec 32)
  /-- LOAD_TABLE (R26): the entry is bytes 2 to 33 of the body (R168). -/
  | loadTable (tag : Byte) (table index : Byte) (entry : List Byte)
  /-- COMMISSION (R17). -/
  | commission (tag : Byte)
  /-- ENTER_SERVICE (R19). -/
  | enterService (tag : Byte)
  /-- LEAVE_SERVICE (R20). -/
  | leaveService (tag : Byte)
  /-- SET_BAND (R34). -/
  | setBand (tag : Byte) (band : Byte)
  /-- SET_TARIFF (R156). -/
  | setTariff (tag : Byte) (index : Byte) (price : BitVec 32)
  /-- SET_SITE_TIME (R33). -/
  | setSiteTime (tag : Byte) (time : BitVec 32)
  /-- SITE_RESET (R24). -/
  | siteReset (tag : Byte)
  /-- RESUME_SITE (R23). -/
  | resumeSite (tag : Byte)
  /-- CLEAR_SUSPECT (R83). -/
  | clearSuspect (tag : Byte) (bank : Byte)
  /-- READ_SITE (R35). -/
  | readSite (tag : Byte) (selector table index copy : Byte)
  /-- READ_COOLING (R98). -/
  | readCooling (tag : Byte)
  /-- SITE_TIME_TICK (R33). -/
  | siteTimeTick
  /-- FRESHNESS_TIMER_EXPIRY (R54). -/
  | freshnessTimerExpiry
  /-- YIELD_TIMER_EXPIRY (R75). -/
  | yieldTimerExpiry
  /-- PROOF_TIMER_EXPIRY (R81). -/
  | proofTimerExpiry (bank : BankId)
  /-- COOLING_WAIT_EXPIRY (R95). -/
  | coolingWaitExpiry (pos : PosId)
  /-- PROGRESS_TIMER_EXPIRY (R107). -/
  | progressTimerExpiry (pos : PosId)
  /-- AGE_TIMER_EXPIRY (R112). -/
  | ageTimerExpiry (pos : PosId)
  /-- CONNECT_PHASE_END (R128). -/
  | connectPhaseEnd (pos : PosId)
  /-- LEAK_CHECK_END (R129). -/
  | leakCheckEnd (pos : PosId)
  /-- SETTLE_PHASE_END (R131). -/
  | settlePhaseEnd (pos : PosId)
  /-- BANK_WAIT_EXPIRY (R126). -/
  | bankWaitExpiry (pos : PosId)
  /-- SEGMENT_BOUNDARY (R135). -/
  | segmentBoundary (pos : PosId)
  /-- WARM_TIMER_EXPIRY (R137). -/
  | warmTimerExpiry (pos : PosId)
  /-- RESUME_TIMER_EXPIRY (R142). -/
  | resumeTimerExpiry (pos : PosId)
  /-- KEEP_TIMER_EXPIRY (R144). -/
  | keepTimerExpiry (pos : PosId)
  /-- HOLD_LIMIT_EXPIRY (R143). -/
  | holdLimitExpiry (pos : PosId)
  /-- AUTHORIZATION_EXPIRY (R154). -/
  | authorizationExpiry (pos : PosId)
  /-- CLOSING_TIMEOUT (R160). -/
  | closingTimeout
deriving DecidableEq, Repr

end Sys2Proof
end

