-- ==== Sys2Proof/Decode.lean ====
section
/-! DEFINITION. The commands that a word of bits spells. -/

namespace Sys2Proof

/-- spec/opcode_table.json gives no row any bits, so no word spells a command. The bytes by which a master spells a
request on a station link are read in Machine/Frames.lean (R167, R168). -/
def decodeTableWord (_nbits _w : Nat) : Option Instr := none

end Sys2Proof
end

