-- ==== Sys2Proof/Config.lean ====
section
/-! DEFINITION. What the manual leaves open and a run of the part fixes. -/

namespace Sys2Proof

/-- FREE VALUE (log entry 3). When several of the part's timers have run out at one moment the manual says that
either may be taken first, and gives no rule. This picks one of them, from a counter that State holds. It has no
body, so nothing can be proved about which one it picks. -/
opaque Config.expiryChoice : Nat → Nat

/-- The greatest site time (R33), and the greatest sequence number (R152). -/
def Config.maxWord : Nat := 4294967295

/-- The greatest active time, in 0.1 s (R45). -/
def Config.maxActive : Nat := 1000000

end Sys2Proof
end

