-- ==== Sys2Proof/Machine/State.lean ====
section
/-! DEFINITION. Everything the manual gives the part to hold, block by block, as plain data, and its value at power-on.

Quantities are numbers in the manual's units (00_scope, Units and number conventions); a timer is `none` while it is
stopped and `some n` while it runs with n tenths of a second remaining (the authorization lifetime too, log entry 20). -/

namespace Sys2Proof.Machine

/-- A timer: stopped, or running with so many tenths of a second remaining (R115). -/
abbrev Timer := Option Nat

/-- Fuel class (00_scope; codes R172). -/
inductive FuelClass where
  | h70 | h35
deriving DecidableEq, Repr

/-- Precool class (00_scope; codes R172). -/
inductive PrecoolClass where
  | t40 | t30 | t20 | t0
deriving DecidableEq, Repr

/-- Price band (R34). -/
inductive PriceBand where
  | normal | offPeak
deriving DecidableEq, Repr

/-- Site mode (R16). -/
inductive SiteMode where
  | unconfigured | serving | service | halted
deriving DecidableEq, Repr

/-- Halt cause (R16). -/
inductive HaltCause where
  | plant | supervisor
deriving DecidableEq, Repr

/-- Outcome code of an answer (R6). -/
inductive Code where
  | ok | wrongState | busy | notOnThisPort | unknownKind | badLength | outOfRange | noAuthorization | notPermitted
  | recordsFull | duplicate | notFound | notYet | none | invalidTable
deriving DecidableEq, Repr

/-- Nozzle state (R101). -/
inductive NozzleState where
  | holstered | lifted | connected
deriving DecidableEq, Repr

/-- Vehicle record state NONE, VALID or LOST (R101). -/
inductive RecordState where
  | empty | valid | lost
deriving DecidableEq, Repr

/-- Fuelling command of a vehicle frame (R109). -/
inductive FuelCommand where
  | run | halt | abort
deriving DecidableEq, Repr

/-- Cause of a VEHICLE DATA LOST (R9). -/
inductive LossCause where
  | errors | age
deriving DecidableEq, Repr

/-- Freshness of the bank data (R50). -/
inductive Freshness where
  | stale | fresh
deriving DecidableEq, Repr

/-- Claim holder of a bank (R58). -/
inductive Holder where
  | free
  | position (p : PosId)
  | refill
  | proof
deriving DecidableEq, Repr

/-- Proof state of a bank (R50). -/
inductive ProofState where
  | unproven | proving | proven | suspect
deriving DecidableEq, Repr

/-- Proof kind (R76). -/
inductive ProofKind where
  | opportunistic | forced
deriving DecidableEq, Repr

/-- Why a refill ended (R73). -/
inductive RefillReason where
  | complete | yield | aborted
deriving DecidableEq, Repr

/-- Session state (R117). -/
inductive SessionState where
  | idle | opening | connecting | delivering | held | ended | closing
deriving DecidableEq, Repr

/-- Phase of a connection (R117). -/
inductive Phase where
  | claim | connect | leakCheck | settle
deriving DecidableEq, Repr

/-- Connection kind (R117). -/
inductive ConnKind where
  | first | switch | reconnect
deriving DecidableEq, Repr

/-- Attempt of a FIRST or RECONNECT connection (R117). -/
inductive Attempt where
  | first | recheck
deriving DecidableEq, Repr

/-- Comm flag (R117). -/
inductive CommFlag where
  | comm | nonComm
deriving DecidableEq, Repr

/-- How a session regards its cooling: NONE, WAITING or GRANTED (R87, R117). -/
inductive CoolingView where
  | noCooling | waiting | granted
deriving DecidableEq, Repr

/-- End reason (R147; codes R169). -/
inductive EndReason where
  | socReached | pressureReached | massLimit | customerStop | vehicleAbort | vehicleDataLost | leak | banksExhausted
  | bankTimeout | holdLimit | coolingUnavailable | overPressure | dispenserSilent | disconnected | emergencyStop
  | siteReset
deriving DecidableEq, Repr

/-- A hold factor (R139). -/
inductive Factor where
  | cooling | bank | vehicleHalt | overRamp | gasWarm | pause
deriving DecidableEq, Repr

/-- The hold factor set of a session (R139). -/
structure Factors where
  cooling : Bool
  bank : Bool
  vehicleHalt : Bool
  overRamp : Bool
  gasWarm : Bool
  pause : Bool
deriving DecidableEq, Repr

/-- The empty hold factor set (R118). -/
def Factors.none : Factors := ⟨false, false, false, false, false, false⟩

/-- The flags of a session record (R117). -/
structure SessionFlags where
  degradedCooling : Bool
  nonComm : Bool
  estimated : Bool
  interrupted : Bool
  unchecked : Bool
deriving DecidableEq, Repr

/-- Every flag clear (R118). -/
def SessionFlags.none : SessionFlags := ⟨false, false, false, false, false⟩

/-- Kind of an authorization, with its amount or its mass cap (R152). -/
inductive AuthKind where
  | prepaid (amount : Nat)
  | fleet (cap : Nat)
deriving DecidableEq, Repr

/-- An authorization: its reference and its kind (R152). -/
structure Authorization where
  reference : Nat
  kind : AuthKind
deriving DecidableEq, Repr

/-- What an armed authorization slot holds (R152). -/
structure ArmedAuthorization where
  auth : Authorization
  lifetime : Nat
deriving DecidableEq, Repr

/-! ### Site Control -/

/-- One entry of the profile table (R28). -/
structure Profile where
  permitted : Bool
  rampRate : Nat
  endPressure : Nat
  nonCommEndPressure : Nat
  socTarget : Nat
  segmentLength : Nat
  settleInterval : Nat
  leakCheckHold : Nat
  leakDropLimit : Nat
  overshoot : Nat
  switchMargin : Nat
  warmGrace : Nat
  resumeDelay : Nat
  holdLimit : Nat
  coolingDemand : Nat
  coolingWaitLimit : Nat
  closingAnticipation : Nat
  vehicleDataMandatory : Bool
  degradeTo : Option Nat
deriving DecidableEq, Repr

/-- Entry 0 to 3 of the bank configuration (R29). -/
structure BankEntry where
  volume : Nat
  ratedPressure : Nat
  refillStart : Nat
  refillStop : Nat
deriving DecidableEq, Repr

/-- One entry of the position configuration (R30). -/
structure PositionEntry where
  enabled : Bool
  fuelClass : FuelClass
deriving DecidableEq, Repr

/-- A site configuration: its five tables (R18). An entry never loaded is `none`. -/
structure SiteConfig where
  density : List (Option (List Nat))
  profiles : List (Option Profile)
  banks : Quad (Option BankEntry)
  cascadeH70 : Option (List BankId)
  cascadeH35 : Option (List BankId)
  positions : Quad (Option PositionEntry)
  params : Option (List Nat)
deriving DecidableEq, Repr

/-- Every entry never loaded (R27 to R31). -/
def SiteConfig.neverLoaded : SiteConfig where
  density := List.replicate 25 none
  profiles := List.replicate 48 none
  banks := Quad.fill none
  cascadeH70 := none
  cascadeH35 := none
  positions := Quad.fill none
  params := none

/-- What Site Control holds (R16, R19, R32, R33, R34). -/
structure SiteControl where
  mode : SiteMode
  haltCause : Option HaltCause
  commissionedAt : Option Nat
  config : SiteConfig
  working : Option SiteConfig
  siteTime : Nat
  priceBand : PriceBand
  ambientBand : Nat
deriving DecidableEq, Repr

/-! ### Bank Manager -/

/-- The proof fields of a bank, present while it is PROVING (R76). -/
structure ProofFields where
  kind : ProofKind
  massAtStart : Nat
  before : ProofState
  timer : Nat
deriving DecidableEq, Repr

/-- One bank record (R50, R76). -/
structure Bank where
  pressure : Option Nat
  temperature : Option Nat
  mass : Option Nat
  holder : Holder
  queue : List PosId
  proofState : ProofState
  provenAt : Option Nat
  proof : Option ProofFields
  overdue : Bool
deriving DecidableEq, Repr

/-- A bank record at power-on (R50, R76). -/
def Bank.powerOn : Bank where
  pressure := none
  temperature := none
  mass := none
  holder := .free
  queue := []
  proofState := .unproven
  provenAt := none
  proof := none
  overdue := false

/-- What the Bank Manager holds (R50, R51, R69, R74). The four banks share one freshness (R52). -/
structure BankManager where
  banks : Quad Bank
  freshness : Freshness
  freshnessTimer : Timer
  ambient : Option Nat
  refillInFlight : Option BankId
  designation : Option BankId
  refillList : List BankId
  yieldTimer : Timer
deriving DecidableEq, Repr

/-! ### Cooling Budget Unit -/

/-- A grant list entry (R86). -/
structure Grant where
  pos : PosId
  demand : Nat
  limit : Nat
deriving DecidableEq, Repr

/-- A cooling wait queue entry with its cooling wait timer (R86, R94). -/
structure Waiter where
  pos : PosId
  demand : Nat
  limit : Nat
  timer : Nat
deriving DecidableEq, Repr

/-- What the Cooling Budget Unit holds (R86). -/
structure CoolingUnit where
  capacity : Nat
  grants : List Grant
  queue : List Waiter
deriving DecidableEq, Repr

/-! ### Position Monitor -/

/-- The fields of a VALID vehicle record (R101). -/
structure VehicleData where
  fuelClass : FuelClass
  volume : Nat
  pressure : Nat
  temperature : Nat
  command : FuelCommand
  soc : Nat
  tankMass : Nat
deriving DecidableEq, Repr

/-- What a Position Monitor holds (R101), and whether the running out of its progress timer has ended a session with no
PROGRESS taken since (R107): the model's own field, log entry 30. -/
structure Monitor where
  nozzle : NozzleState
  pressure : Option Nat
  temperature : Option Nat
  mass : Option Nat
  progressTimer : Timer
  record : RecordState
  vehicle : Option VehicleData
  errors : Nat
  ageTimer : Timer
  silenced : Bool
deriving DecidableEq, Repr

/-- A Position Monitor at power-on (R101). -/
def Monitor.powerOn : Monitor where
  nozzle := .holstered
  pressure := none
  temperature := none
  mass := none
  progressTimer := none
  record := .empty
  vehicle := none
  errors := 0
  ageTimer := none
  silenced := false

/-! ### Fill Engine -/

/-- A session record (R117), with the ceiling of its FLOW command in force (R48, R134), and the held time that it had at its
last entry into HELD: the model's own field, log entry 14. -/
structure Session where
  state : SessionState
  phase : Option Phase
  kind : Option ConnKind
  attempt : Option Attempt
  resumePoint : Option Phase
  auth : Option Authorization
  fuelClass : Option FuelClass
  refDensity : Option Nat
  siteMaxMass : Option Nat
  cascade : List BankId
  profileAtStart : Option Nat
  profile : Option Nat
  precoolAtStart : Option PrecoolClass
  comm : Option CommFlag
  startTime : Option Nat
  rampBase : Option Nat
  activeTime : Nat
  startPressure : Option Nat
  pulseCeiling : Option Nat
  flowCeiling : Option Nat
  leakStart : Option Nat
  bank : Option BankId
  awaited : Option BankId
  cascadePos : Option Nat
  cooling : CoolingView
  factors : Factors
  heldTime : Nat
  heldBefore : Nat
  phaseTimer : Timer
  bankWaitTimer : Timer
  segmentTimer : Timer
  resumeTimer : Timer
  warmTimer : Timer
  keepTimer : Timer
  awaitingFresh : Bool
  lastNozzle : Option Nat
  endTime : Option Nat
  endNozzle : Option Nat
  lastMass : Nat
  finalMass : Option Nat
  massAtClaim : Option Nat
  bankSum : Int
  staleMark : Bool
  banksUsed : List BankId
  unitPrice : Option Nat
  massCeiling : Option Nat
  endReason : Option EndReason
  flags : SessionFlags
deriving DecidableEq, Repr

/-- The record of a position with no session (R118). -/
def Session.idle : Session where
  state := .idle
  phase := none
  kind := none
  attempt := none
  resumePoint := none
  auth := none
  fuelClass := none
  refDensity := none
  siteMaxMass := none
  cascade := []
  profileAtStart := none
  profile := none
  precoolAtStart := none
  comm := none
  startTime := none
  rampBase := none
  activeTime := 0
  startPressure := none
  pulseCeiling := none
  flowCeiling := none
  leakStart := none
  bank := none
  awaited := none
  cascadePos := none
  cooling := .noCooling
  factors := Factors.none
  heldTime := 0
  heldBefore := 0
  phaseTimer := none
  bankWaitTimer := none
  segmentTimer := none
  resumeTimer := none
  warmTimer := none
  keepTimer := none
  awaitingFresh := false
  lastNozzle := none
  endTime := none
  endNozzle := none
  lastMass := 0
  finalMass := none
  massAtClaim := none
  bankSum := 0
  staleMark := false
  banksUsed := []
  unitPrice := none
  massCeiling := none
  endReason := none
  flags := SessionFlags.none

/-! ### Sales Unit -/

/-- The flags of a sale record (R162). -/
structure SaleFlags where
  degradedCooling : Bool
  nonComm : Bool
  estimated : Bool
  interrupted : Bool
  unchecked : Bool
  mismatch : Bool
deriving DecidableEq, Repr

/-- A sale record (R162). -/
structure SaleRecord where
  sequence : Nat
  position : PosId
  auth : Authorization
  fuelClass : FuelClass
  precoolAtStart : PrecoolClass
  precoolAtEnd : PrecoolClass
  profileAtStart : Nat
  profileAtEnd : Nat
  startTime : Nat
  endTime : Nat
  startPressure : Option Nat
  endNozzle : Nat
  metered : Nat
  billed : Nat
  overrun : Nat
  bankSide : Option Int
  unitPrice : Nat
  amount : Nat
  endReason : Option EndReason
  flags : SaleFlags
  activeTime : Nat
  heldTime : Nat
  banksUsed : List BankId
deriving DecidableEq, Repr

/-- What the Sales Unit holds (R152). -/
structure SalesUnit where
  slots : Quad (Option ArmedAuthorization)
  tariff : List Nat
  closeQueue : List PosId
  register : Option PosId
  closingTimer : Timer
  records : List SaleRecord
  counter : Nat
deriving DecidableEq, Repr

/-! ### Link Interface -/

/-- A notice, with its subject and its content (R9). -/
inductive Notice where
  | sessionState (pos : PosId) (state : SessionState) (reason : Option EndReason) (reference : Nat)
  | vehicleDataLost (pos : PosId) (cause : LossCause)
  | refillStop (bank : BankId) (reason : RefillReason)
  | coolingDemand (demand : Nat)
  | authorizationExpired (pos : PosId) (reference : Nat)
  | authorizationConsumed (pos : PosId) (reference : Nat)
  | recordReady (count : Nat)
  | bankSuspect (bank : BankId) (decay : Nat)
  | proofOverdue (bank : BankId) (provenAt : Option Nat)
  | massMismatch (sequence : Nat)
  | siteHalted (cause : HaltCause)
  | bankDataStale
deriving DecidableEq, Repr

/-- A last-answer record (R7). -/
structure LastAnswer where
  tag : Byte
  kind : Byte
  body : List Byte
  answer : List Byte
deriving DecidableEq, Repr

/-- The state of a port's exchange (R2). -/
inductive Exchange where
  | listening | taking | answering
deriving DecidableEq, Repr

/-- What the Link Interface holds for one port (R2, R7, R9, R14). -/
structure Port where
  exchange : Exchange
  /-- the frame in collection, from its sync byte on (R167) -/
  collection : List Byte
  /-- the answer frame being sent -/
  answer : Option (List Byte)
  /-- the record the port takes when that answer has been sent (R7, R8) -/
  toRecord : Option LastAnswer
  last : Option LastAnswer
  queue : List Notice
deriving DecidableEq, Repr

/-- A port at power-on (R14). -/
def Port.powerOn : Port where
  exchange := .listening
  collection := []
  answer := none
  toRecord := none
  last := none
  queue := []

/-- The seven ports (R1). -/
structure Ports where
  dispensers : Quad Port
  plant : Port
  terminal : Port
  supervisor : Port
deriving DecidableEq, Repr

/-! ### The part -/

/-- The whole state. `outbox`, `tenths`, `choices` and `pending` are the model's own (INVENTORY.md, State). -/
structure State where
  pending : List Instr
  outbox : List Notice
  tenths : Nat
  choices : Nat
  ports : Ports
  site : SiteControl
  bm : BankManager
  cbu : CoolingUnit
  monitors : Quad Monitor
  sessions : Quad Session
  sales : SalesUnit
deriving DecidableEq, Repr

/-- The reasons the machine stops with a fault: there is none. The manual gives every event an outcome, and no rule
stops the part (log entry 24). -/
inductive Fault where
deriving DecidableEq, Repr

/-- The reasons a command is refused. -/
inductive Refusal where
  /-- Raised by an arm of `exec` for a command that has no meaning yet; no arm raises it. Safe. -/
  | notModelled (mnemonic : String)
deriving DecidableEq, Repr

/-- The part right after power-on (R14, R16, R27 to R34, R50, R51, R69, R74, R76, R86, R101, R118, R152). -/
def State.reset : State where
  pending := []
  outbox := []
  tenths := 0
  choices := 0
  ports :=
    { dispensers := Quad.fill Port.powerOn
      plant := Port.powerOn
      terminal := Port.powerOn
      supervisor := Port.powerOn }
  site :=
    { mode := .unconfigured
      haltCause := none
      commissionedAt := none
      config := SiteConfig.neverLoaded
      working := none
      siteTime := 0
      priceBand := .normal
      ambientBand := 5 }
  bm :=
    { banks := Quad.fill Bank.powerOn
      freshness := .stale
      freshnessTimer := none
      ambient := none
      refillInFlight := none
      designation := none
      refillList := []
      yieldTimer := none }
  cbu := { capacity := 0, grants := [], queue := [] }
  monitors := Quad.fill Monitor.powerOn
  sessions := Quad.fill Session.idle
  sales :=
    { slots := Quad.fill none
      tariff := List.replicate 16 0
      closeQueue := []
      register := none
      closingTimer := none
      records := []
      counter := 1 }

end Sys2Proof.Machine
end

