-- ==== Sys2Proof/Machine/Wire.lean ====
section
/-! DEFINITION. Bytes and fields of frames (R167): most significant byte first, the check, and the codes of named
values (R169, R170, R172). -/

namespace Sys2Proof.Machine

/-! ### Numbers and bytes -/

/-- The low byte of a number. -/
def byteOf (n : Nat) : Byte := BitVec.ofNat 8 n

/-- A number in `w` bytes, most significant byte first (R167). -/
def be : Nat → Nat → List Byte
  | 0, _ => []
  | w + 1, n => byteOf (n / 256 ^ w) :: be w n

/-- The number that bytes give, most significant byte first (R167). -/
def unbe (l : List Byte) : Nat := l.foldl (fun a b => a * 256 + b.toNat) 0

/-- The field of `size` bytes at an offset of a body. -/
def field (body : List Byte) (off size : Nat) : Nat := unbe ((body.drop off).take size)

/-- A presence byte and a field of `w` bytes, all zeros when absent (R169). -/
def optField (w : Nat) : Option Nat → List Byte
  | none => be (w + 1) 0
  | some n => 1 :: be w n

/-- A one-byte code with 255 for absent (R169). -/
def optCode : Option Nat → Byte
  | none => 255
  | some n => byteOf n

/-- `w` places of one byte each, unused places 255 (R171, R173). -/
def places (w : Nat) (l : List (Fin 4)) : List Byte :=
  (l.map fun b => byteOf b.val) ++ List.replicate (w - l.length) 255

/-- yes or no (R172). -/
def boolCode (b : Bool) : Nat := if b then 1 else 0

/-- A yes or no byte (R172); any other value is out of range (R168). -/
def boolOf? : Nat → Option Bool
  | 0 => some false
  | 1 => some true
  | _ => none

/-- A position or a bank named by a byte, 0 to 3 (R172). -/
def fourOf? (n : Nat) : Option (Fin 4) := if h : n < 4 then some ⟨n, h⟩ else none

/-! ### The check -/

/-- One bit into the check register, generator 1021h (R167). -/
def crcBit (r : BitVec 16) (bit : Bool) : BitVec 16 :=
  if r.msb != bit then (r <<< 1) ^^^ 0x1021#16 else r <<< 1

/-- One byte into the check register, most significant bit first (R167). -/
def crcByte (r : BitVec 16) (b : Byte) : BitVec 16 :=
  [7, 6, 5, 4, 3, 2, 1, 0].foldl (fun r i => crcBit r (b.getLsbD i)) r

/-- The check over a frame's tag, kind, length and body bytes (R167). -/
def crc (bytes : List Byte) : BitVec 16 := bytes.foldl crcByte 0xFFFF#16

/-- The sync byte (R167). -/
def syncByte : Byte := 0xC3

/-- A whole frame: sync, tag, kind, length, body, check high byte first (R167). -/
def frameBytes (tag kind : Byte) (body : List Byte) : List Byte :=
  let head := [tag, kind, byteOf body.length]
  syncByte :: (head ++ body ++ be 2 (crc (head ++ body)).toNat)

/-! ### Codes -/

/-- Outcome codes (R169). -/
def Code.code : Code → Nat
  | .ok => 0
  | .wrongState => 1
  | .busy => 2
  | .notOnThisPort => 3
  | .unknownKind => 4
  | .badLength => 5
  | .outOfRange => 6
  | .noAuthorization => 7
  | .notPermitted => 8
  | .recordsFull => 9
  | .duplicate => 10
  | .notFound => 11
  | .notYet => 12
  | .none => 13
  | .invalidTable => 14

def FuelClass.code : FuelClass → Nat
  | .h70 => 0
  | .h35 => 1

def fuelClassOf? : Nat → Option FuelClass
  | 0 => some .h70
  | 1 => some .h35
  | _ => none

def PrecoolClass.code : PrecoolClass → Nat
  | .t40 => 0
  | .t30 => 1
  | .t20 => 2
  | .t0 => 3

/-- The precool class of an index modulo 4 (00_scope: T40, T30, T20, T0 with indexes 0 to 3). -/
def precoolOf (n : Nat) : PrecoolClass :=
  match n % 4 with
  | 0 => .t40
  | 1 => .t30
  | 2 => .t20
  | _ => .t0

def PriceBand.code : PriceBand → Nat
  | .normal => 0
  | .offPeak => 1

def priceBandOf? : Nat → Option PriceBand
  | 0 => some .normal
  | 1 => some .offPeak
  | _ => none

def SiteMode.code : SiteMode → Nat
  | .unconfigured => 0
  | .serving => 1
  | .service => 2
  | .halted => 3

def HaltCause.code : HaltCause → Nat
  | .plant => 0
  | .supervisor => 1

def NozzleState.code : NozzleState → Nat
  | .holstered => 0
  | .lifted => 1
  | .connected => 2

def nozzleOf? : Nat → Option NozzleState
  | 0 => some .holstered
  | 1 => some .lifted
  | 2 => some .connected
  | _ => none

def RecordState.code : RecordState → Nat
  | .empty => 0
  | .valid => 1
  | .lost => 2

def FuelCommand.code : FuelCommand → Nat
  | .run => 0
  | .halt => 1
  | .abort => 2

def fuelCommandOf? : Nat → Option FuelCommand
  | 0 => some .run
  | 1 => some .halt
  | 2 => some .abort
  | _ => none

def LossCause.code : LossCause → Nat
  | .errors => 0
  | .age => 1

def Freshness.code : Freshness → Nat
  | .stale => 0
  | .fresh => 1

def Holder.code : Holder → Nat
  | .free => 255
  | .position p => p.val
  | .refill => 4
  | .proof => 5

def ProofState.code : ProofState → Nat
  | .unproven => 0
  | .proving => 1
  | .proven => 2
  | .suspect => 3

def RefillReason.code : RefillReason → Nat
  | .complete => 0
  | .yield => 1
  | .aborted => 2

def SessionState.code : SessionState → Nat
  | .idle => 0
  | .opening => 1
  | .connecting => 2
  | .delivering => 3
  | .held => 4
  | .ended => 5
  | .closing => 6

def Phase.code : Phase → Nat
  | .claim => 0
  | .connect => 1
  | .leakCheck => 2
  | .settle => 3

def ConnKind.code : ConnKind → Nat
  | .first => 0
  | .switch => 1
  | .reconnect => 2

def Attempt.code : Attempt → Nat
  | .first => 0
  | .recheck => 1

def CommFlag.code : CommFlag → Nat
  | .comm => 0
  | .nonComm => 1

def CoolingView.code : CoolingView → Nat
  | .noCooling => 0
  | .waiting => 1
  | .granted => 2

/-- End reasons are coded from 1 (R169). -/
def EndReason.code : EndReason → Nat
  | .socReached => 1
  | .pressureReached => 2
  | .massLimit => 3
  | .customerStop => 4
  | .vehicleAbort => 5
  | .vehicleDataLost => 6
  | .leak => 7
  | .banksExhausted => 8
  | .bankTimeout => 9
  | .holdLimit => 10
  | .coolingUnavailable => 11
  | .overPressure => 12
  | .dispenserSilent => 13
  | .disconnected => 14
  | .emergencyStop => 15
  | .siteReset => 16

/-- End reason, 0 for absent (R169). -/
def endReasonByte : Option EndReason → Byte
  | none => 0
  | some r => byteOf r.code

end Sys2Proof.Machine
end

