-- ==== Sys2Proof/Machine/Flags.lean ====
section
/-! DEFINITION. The hold factor set (R139), the flags of a session record (R117) and of a sale record (R162), and the
bytes that carry them (R171, R172). -/

namespace Sys2Proof.Machine

namespace Factors

/-- Whether a factor is in the set. -/
def has (x : Factors) : Factor → Bool
  | .cooling => x.cooling
  | .bank => x.bank
  | .vehicleHalt => x.vehicleHalt
  | .overRamp => x.overRamp
  | .gasWarm => x.gasWarm
  | .pause => x.pause

/-- Put a factor into the set, or take it out. -/
def put (x : Factors) (f : Factor) (v : Bool) : Factors :=
  match f with
  | .cooling => { x with cooling := v }
  | .bank => { x with bank := v }
  | .vehicleHalt => { x with vehicleHalt := v }
  | .overRamp => { x with overRamp := v }
  | .gasWarm => { x with gasWarm := v }
  | .pause => { x with pause := v }

/-- Whether the set is empty. -/
def isEmpty (x : Factors) : Bool :=
  !(x.cooling || x.bank || x.vehicleHalt || x.overRamp || x.gasWarm || x.pause)

/-- The set as one byte (R172). -/
def code (x : Factors) : Nat :=
  boolCode x.cooling + 2 * boolCode x.bank + 4 * boolCode x.vehicleHalt + 8 * boolCode x.overRamp
    + 16 * boolCode x.gasWarm + 32 * boolCode x.pause

end Factors

/-- The flags of a session record as one byte (R172). -/
def SessionFlags.code (x : SessionFlags) : Nat :=
  boolCode x.degradedCooling + 2 * boolCode x.nonComm + 4 * boolCode x.estimated + 8 * boolCode x.interrupted
    + 16 * boolCode x.unchecked

/-- The flags of a sale record as one byte (R171). -/
def SaleFlags.code (x : SaleFlags) : Nat :=
  boolCode x.degradedCooling + 2 * boolCode x.nonComm + 4 * boolCode x.estimated + 8 * boolCode x.interrupted
    + 16 * boolCode x.unchecked + 32 * boolCode x.mismatch

end Sys2Proof.Machine
end

