-- ==== Sys2Proof/Machine/Ops.lean ====
section
/-! DEFINITION. The named operations over the state: one accessor and one update for each kind of record, the posting
of notices (R9, R10), the site parameters and the profile a session reads. -/

namespace Sys2Proof.Machine

/-! ### Accessors and updates -/

namespace Ports

/-- The record of one port (R1). -/
def get (x : Ports) : PortId → Port
  | .dispenser n => x.dispensers.get n
  | .plant => x.plant
  | .terminal => x.terminal
  | .supervisor => x.supervisor

/-- Replace the record of one port. -/
def set (x : Ports) (p : PortId) (y : Port) : Ports :=
  match p with
  | .dispenser n => { x with dispensers := x.dispensers.set n y }
  | .plant => { x with plant := y }
  | .terminal => { x with terminal := y }
  | .supervisor => { x with supervisor := y }

/-- Apply a function to the record of each port, told which port it is. -/
def map (x : Ports) (f : PortId → Port → Port) : Ports where
  dispensers :=
    ⟨f (.dispenser 0) x.dispensers.at0, f (.dispenser 1) x.dispensers.at1, f (.dispenser 2) x.dispensers.at2,
      f (.dispenser 3) x.dispensers.at3⟩
  plant := f .plant x.plant
  terminal := f .terminal x.terminal
  supervisor := f .supervisor x.supervisor

end Ports

namespace State

def port (s : State) (p : PortId) : Port := s.ports.get p

def modPort (s : State) (p : PortId) (f : Port → Port) : State := { s with ports := s.ports.set p (f (s.ports.get p)) }

def bank (s : State) (b : BankId) : Bank := s.bm.banks.get b

def modBank (s : State) (b : BankId) (f : Bank → Bank) : State :=
  { s with bm := { s.bm with banks := s.bm.banks.set b (f (s.bm.banks.get b)) } }

/-- Change what the Bank Manager holds beside the four records. -/
def modBm (s : State) (f : BankManager → BankManager) : State := { s with bm := f s.bm }

def monitor (s : State) (p : PosId) : Monitor := s.monitors.get p

def modMonitor (s : State) (p : PosId) (f : Monitor → Monitor) : State :=
  { s with monitors := s.monitors.set p (f (s.monitors.get p)) }

def session (s : State) (p : PosId) : Session := s.sessions.get p

def modSession (s : State) (p : PosId) (f : Session → Session) : State :=
  { s with sessions := s.sessions.set p (f (s.sessions.get p)) }

def modSite (s : State) (f : SiteControl → SiteControl) : State := { s with site := f s.site }

def modCbu (s : State) (f : CoolingUnit → CoolingUnit) : State := { s with cbu := f s.cbu }

def modSales (s : State) (f : SalesUnit → SalesUnit) : State := { s with sales := f s.sales }

/-- A block posts a notice within the event being taken (R10). -/
def post (s : State) (n : Notice) : State := { s with outbox := s.outbox ++ [n] }

/-- The attention line of a port is active exactly while its queue holds a notice (R11). -/
def attention (s : State) (p : PortId) : Bool := !(s.port p).queue.isEmpty

end State

/-! ### Notices -/

namespace Notice

/-- Notice kind code (R169). -/
def code : Notice → Nat
  | .sessionState .. => 1
  | .vehicleDataLost .. => 2
  | .refillStop .. => 3
  | .coolingDemand .. => 4
  | .authorizationExpired .. => 5
  | .authorizationConsumed .. => 6
  | .recordReady .. => 7
  | .bankSuspect .. => 8
  | .proofOverdue .. => 9
  | .massMismatch .. => 10
  | .siteHalted .. => 11
  | .bankDataStale => 12

/-- Subject, 255 for none (R169). -/
def subject : Notice → Nat
  | .sessionState p .. => p.val
  | .vehicleDataLost p _ => p.val
  | .refillStop b _ => b.val
  | .coolingDemand _ => 255
  | .authorizationExpired p _ => p.val
  | .authorizationConsumed p _ => p.val
  | .recordReady _ => 255
  | .bankSuspect b _ => b.val
  | .proofOverdue b _ => b.val
  | .massMismatch _ => 255
  | .siteHalted _ => 255
  | .bankDataStale => 255

/-- The pair of kind and subject, as one number in the order of R10: by kind code, then by subject. -/
def key (n : Notice) : Nat := n.code * 256 + n.subject

/-- The port a notice is posted to (R9). -/
def port : Notice → PortId
  | .sessionState p .. => .dispenser p
  | .vehicleDataLost p _ => .dispenser p
  | .refillStop .. => .plant
  | .coolingDemand _ => .plant
  | .authorizationExpired .. => .terminal
  | .authorizationConsumed .. => .terminal
  | .recordReady _ => .terminal
  | .bankSuspect .. => .supervisor
  | .proofOverdue .. => .supervisor
  | .massMismatch _ => .supervisor
  | .siteHalted _ => .supervisor
  | .bankDataStale => .supervisor

/-- The content bytes that are used, from the first on (R169). -/
def content : Notice → List Byte
  | .sessionState _ st r ref => [byteOf st.code, endReasonByte r] ++ be 4 ref
  | .vehicleDataLost _ c => [byteOf c.code]
  | .refillStop _ r => [byteOf r.code]
  | .coolingDemand d => be 4 d
  | .authorizationExpired _ ref => be 4 ref
  | .authorizationConsumed _ ref => be 4 ref
  | .recordReady n => [byteOf n]
  | .bankSuspect _ d => be 4 d
  | .proofOverdue _ t => optField 4 t
  | .massMismatch n => be 4 n
  | .siteHalted c => [byteOf c.code]
  | .bankDataStale => []

/-- One 8-byte entry of a READ NOTICES body (R169). -/
def entry (n : Notice) : List Byte :=
  [byteOf n.code, byteOf n.subject] ++ n.content ++ List.replicate (6 - n.content.length) 0

end Notice

/-- A post that concerns a pair already queued: its content is replaced in place (R10). -/
def updateNotice (q : List Notice) (n : Notice) : List Notice :=
  q.map fun m => if m.key = n.key then n else m

/-- A post of a pair that is new in this event, among the new pairs of the event: in increasing order of kind code and
subject, the last post of a pair standing (R10). -/
def insertNotice : List Notice → Notice → List Notice
  | [], n => [n]
  | m :: rest, n =>
    if n.key < m.key then n :: m :: rest
    else if n.key = m.key then n :: rest
    else m :: insertNotice rest n

/-- Whether a queue holds a notice of the pair. -/
def holdsPair (q : List Notice) (n : Notice) : Bool := q.any fun m => m.key == n.key

/-- A queue once the posts of one event have been taken into it (R10). -/
def mergeNotices (q posts : List Notice) : List Notice :=
  posts.foldl updateNotice q ++ (posts.filter fun n => !holdsPair q n).foldl insertNotice []

/-- The end of an event: its posts are taken into the queues of their ports (R10). -/
def State.flush (s : State) : State :=
  { s with
    ports := s.ports.map fun p x =>
      { x with queue := mergeNotices x.queue (s.outbox.filter fun n => n.port = p) }
    outbox := [] }

/-! ### Site parameters and profiles -/

/-- The defaults of the 24 site parameters, by index (R31). -/
def paramDefaults : List Nat :=
  [40200, 24000, 0, 2, 10000, 60000, 10, 5, 20, 50, 30, 300, 1200, 200, 6000, 28800, 50, 50, 50, 50, 30, 50, 200, 120]

namespace SiteConfig

/-- A site parameter; its default before the table has been loaded (R44, R51, R101, R153). -/
def param (c : SiteConfig) (i : Nat) : Nat := (c.params.getD paramDefaults).getD i 0

/-- Reference density of a fuel class (parameters 0 and 1). -/
def refDensity (c : SiteConfig) : FuelClass → Nat
  | .h70 => c.param 0
  | .h35 => c.param 1

/-- Preferred precool class of a fuel class, as its index (parameters 2 and 3). -/
def preferredClass (c : SiteConfig) : FuelClass → Nat
  | .h70 => c.param 2
  | .h35 => c.param 3

/-- Site maximum session mass of a fuel class (parameters 4 and 5). -/
def siteMaxMass (c : SiteConfig) : FuelClass → Nat
  | .h70 => c.param 4
  | .h35 => c.param 5

def vehicleTimeout (c : SiteConfig) : Nat := c.param 6
def vehicleErrorLimit (c : SiteConfig) : Nat := c.param 7
def progressTimeout (c : SiteConfig) : Nat := c.param 8
def closingTimeout (c : SiteConfig) : Nat := c.param 9
def bankReportTimeout (c : SiteConfig) : Nat := c.param 10
def bankKeepInterval (c : SiteConfig) : Nat := c.param 11
def bankWaitLimit (c : SiteConfig) : Nat := c.param 12
def refillYield (c : SiteConfig) : Nat := c.param 13
def proofInterval (c : SiteConfig) : Nat := c.param 14
def proofPeriod (c : SiteConfig) : Nat := c.param 15
def decayLimit (c : SiteConfig) (b : BankId) : Nat := c.param (16 + b.val)
def mismatchPerMille (c : SiteConfig) : Nat := c.param 20
def mismatchFixed (c : SiteConfig) : Nat := c.param 21
def pulseStep (c : SiteConfig) : Nat := c.param 22
def authorizationLifetime (c : SiteConfig) : Nat := c.param 23

/-- The cascade list of a fuel class; empty while never loaded (R29). -/
def cascade (c : SiteConfig) : FuelClass → List BankId
  | .h70 => c.cascadeH70.getD []
  | .h35 => c.cascadeH35.getD []

/-- The profile that stands for an entry never loaded: not permitted, every number 0 (log entry 23). -/
def blankProfile : Profile where
  permitted := false
  rampRate := 0
  endPressure := 0
  nonCommEndPressure := 0
  socTarget := 0
  segmentLength := 0
  settleInterval := 0
  leakCheckHold := 0
  leakDropLimit := 0
  overshoot := 0
  switchMargin := 0
  warmGrace := 0
  resumeDelay := 0
  holdLimit := 0
  coolingDemand := 0
  coolingWaitLimit := 0
  closingAnticipation := 0
  vehicleDataMandatory := false
  degradeTo := none

/-- The profile at an index (R28). -/
def profile (c : SiteConfig) (i : Nat) : Profile := (c.profiles.getD i none).getD blankProfile

/-- Volume of a bank, 0 while its entry has never been loaded (R42). -/
def volume (c : SiteConfig) (b : BankId) : Nat :=
  match c.banks.get b with
  | some e => e.volume
  | none => 0

/-- Whether a position is enabled; a position never loaded is not (11_worked, 11.1). -/
def enabled (c : SiteConfig) (p : PosId) : Bool :=
  match c.positions.get p with
  | some e => e.enabled
  | none => false

/-- The fuel class of a position, if its entry has been loaded (R30, R109). -/
def positionClass (c : SiteConfig) (p : PosId) : Option FuelClass := (c.positions.get p).map (·.fuelClass)

end SiteConfig

/-- The precool class of a profile index: index = fuel class × 24 + precool class × 6 + ambient band (R28). -/
def precoolOfProfile (i : Nat) : PrecoolClass := precoolOf (i % 24 / 6)

/-- Maximum working pressure of a fuel class (00_scope). -/
def FuelClass.mawp : FuelClass → Nat
  | .h70 => 8750
  | .h35 => 4375

namespace Session

/-- OPENING, CONNECTING, DELIVERING or HELD: the states in which a session may be ended (R147). -/
def running (x : Session) : Bool :=
  match x.state with
  | .opening => true
  | .connecting => true
  | .delivering => true
  | .held => true
  | .idle => false
  | .ended => false
  | .closing => false

/-- A session is open from its START to its commit (R118). -/
def isOpen (x : Session) : Bool := x.state != .idle

/-- The fuel class the session copied at START; H70 stands for the absent field of a session that is not open. -/
def cls (x : Session) : FuelClass := x.fuelClass.getD .h70

/-- Maximum working pressure of the session's fuel class (R46). -/
def mawp (x : Session) : Nat := x.cls.mawp

/-- The profile index, 0 for the absent field of a session that is not open. -/
def profileIndex (x : Session) : Nat := x.profile.getD 0

/-- The precool class of the current profile (R117). -/
def precool (x : Session) : PrecoolClass := precoolOfProfile x.profileIndex

/-- The authorization reference, 0 for the absent field of a session that is not open. -/
def reference (x : Session) : Nat := (x.auth.map (·.reference)).getD 0

end Session

namespace State

/-- The site configuration in force (R16). -/
def config (s : State) : SiteConfig := s.site.config

/-- The current profile of a position's session, read from the table in force (R117). -/
def profileOf (s : State) (p : PosId) : Profile := s.config.profile (s.session p).profileIndex

/-- The latest nozzle pressure, 0 where the Position Monitor holds none (R57). -/
def nozzlePressure (s : State) (p : PosId) : Nat := (s.monitor p).pressure.getD 0

/-- The positions whose session is not IDLE, lowest number first. -/
def openPositions (s : State) : List PosId := fourIds.filter fun p => (s.session p).isOpen

/-- Sum of the demands in the grant list, Σ of R86. -/
def granted (s : State) : Nat := (s.cbu.grants.map (·.demand)).sum

/-- Sum of the demands in the wait queue (R86). -/
def waitingDemand (s : State) : Nat := (s.cbu.queue.map (·.demand)).sum

/-- The Fill Engine posts SESSION STATE from its record (R118). -/
def postSession (s : State) (p : PosId) : State :=
  let x := s.session p
  s.post (.sessionState p x.state x.endReason x.reference)

end State

end Sys2Proof.Machine
end

