-- ==== Sys2Proof/Machine/Gas.lean ====
section
/-! DEFINITION. The Gas State Unit: a computation service without state of its own (R36 to R49). -/

namespace Sys2Proof.Machine

/-- A pressure brought into the table's range (R38). -/
def clampPressure (p : Nat) : Nat := min p 12000

/-- A temperature brought into the table's range (R38). -/
def clampTemperature (t : Nat) : Nat := min (max t 2200) 3700

/-- D[i][j], 0 where the row has never been loaded (R40). -/
def SiteConfig.densityAt (c : SiteConfig) (i j : Nat) : Nat :=
  match c.density.getD i none with
  | some row => row.getD j 0
  | none => 0

/-- The pressure row of a clamped pressure (R39, step 1). -/
def pressureRow (p : Nat) : Nat := min (p / 500) 23

/-- The temperature column of a clamped temperature (R39, step 2). -/
def temperatureColumn (t : Nat) : Nat := min ((t - 2200) / 100) 14

/-- Density in g/m³ from a reported pressure and temperature (R38 to R40). -/
def density (c : SiteConfig) (pressure temperature : Nat) : Nat :=
  let p := clampPressure pressure
  let t := clampTemperature temperature
  let i := pressureRow p
  let j := temperatureColumn t
  let fp := p - 500 * i
  let ft := t - 2200 - 100 * j
  let a := c.densityAt i j * (500 - fp) + c.densityAt (i + 1) j * fp
  let b := c.densityAt i (j + 1) * (500 - fp) + c.densityAt (i + 1) (j + 1) * fp
  let num := a * (100 - ft) + b * ft
  (num + 25000) / 50000

/-- Bank mass in grams from a volume in litres (R42). -/
def bankMass (c : SiteConfig) (b : BankId) (pressure temperature : Nat) : Nat :=
  (density c pressure temperature * c.volume b + 500) / 1000

/-- Tank mass in grams from a volume in 0.1 L (R43). -/
def tankMass (c : SiteConfig) (pressure temperature volume : Nat) : Nat :=
  (density c pressure temperature * volume + 5000) / 10000

/-- State of charge in 0.1 % against a reference density (R44). -/
def stateOfCharge (rho reference : Nat) : Nat := min 1500 ((rho * 1000 + reference / 2) / reference)

/-- The ramp ceiling of R46 from its numbers. -/
def rampCeilingOf (base rate active endPressure mawp : Nat) : Nat :=
  min (min (base + (rate * active + 50) / 100) endPressure) mawp

/-- The ramp ceiling of a position's session, defined while it has a ramp base (R46). -/
def State.rampCeiling (s : State) (p : PosId) : Option Nat :=
  let x := s.session p
  let f := s.profileOf p
  x.rampBase.map fun base => rampCeilingOf base f.rampRate x.activeTime f.endPressure x.mawp

/-- The pulse ceiling at the start of a CONNECT phase (R49). -/
def State.pulseCeiling (s : State) (p : PosId) : Nat :=
  let x := s.session p
  let r := (s.rampCeiling p).getD x.mawp
  min (min (min (clampPressure (s.nozzlePressure p) + s.config.pulseStep) r) (s.profileOf p).endPressure) x.mawp

end Sys2Proof.Machine
end

