-- ==== Sys2Proof/Machine/Sales.lean ====
section
/-! DEFINITION. The Sales Unit's work inside an event: price capture and mass ceiling (R157, R158), the close queue and
the closing register (R159), billing, reconciliation and the commit of a sale record (R160 to R162), and which numbers
the pending sessions will receive (R163). -/

namespace Sys2Proof.Machine

/-! ### Price and mass ceiling -/

/-- Tariff index = fuel class × 8 + precool class × 2 + price band (R157). -/
def tariffIndex (f : FuelClass) (c : PrecoolClass) (b : PriceBand) : Nat := f.code * 8 + c.code * 2 + b.code

/-- The tariff price of a session's fuel class, its current precool class and the price band held (R157). -/
def State.tariffPrice (s : State) (p : PosId) : Nat :=
  let x := s.session p
  s.sales.tariff.getD (tariffIndex x.cls x.precool s.site.priceBand) 0

/-- The mass ceiling of an authorization at a unit price (R157). -/
def massCeilingOf (siteMax price : Nat) : AuthKind → Nat
  | .prepaid amount => if price = 0 then siteMax else min siteMax (amount * 1000 / price)
  | .fleet cap => min siteMax cap

/-- The mass ceiling of a session at a unit price; 0 without an authorization, which no open session is (R157). -/
def Session.ceilingAt (x : Session) (price : Nat) : Nat :=
  match x.auth with
  | some a => massCeilingOf (x.siteMaxMass.getD 0) price a.kind
  | none => 0

/-- The unit price becomes a price, and the mass ceiling the one it gives (R157, R158). -/
def Session.priced (x : Session) (price : Nat) : Session :=
  { x with unitPrice := some price, massCeiling := some (x.ceilingAt price) }

/-- Capture at the first entry into DELIVERING; a session that has a unit price keeps it (R134, R157). -/
def State.capture (s : State) (p : PosId) : State :=
  match (s.session p).unitPrice with
  | some _ => s
  | none => s.modSession p fun x => x.priced (s.tariffPrice p)

/-- Recapture at a degrade: the smaller of the price held and the tariff price (R158). -/
def State.recapture (s : State) (p : PosId) : State :=
  match (s.session p).unitPrice with
  | none => s
  | some held => s.modSession p fun x => x.priced (min held (s.tariffPrice p))

/-! ### Building a sale record -/

/-- The metered mass of a sale: the final mass, or the last metered mass where there is none (R160, R166). -/
def Session.metered (x : Session) : Nat := x.finalMass.getD x.lastMass

/-- The unit price and the mass ceiling a sale is billed with; 0 and 0 when never captured (R160, step 1). -/
def Session.billing (x : Session) : Nat × Nat :=
  match x.unitPrice, x.massCeiling with
  | some price, some ceiling => (price, ceiling)
  | _, _ => (0, 0)

/-- The tolerance of reconciliation (R161). -/
def tolerance (c : SiteConfig) (metered : Nat) : Nat := (metered * c.mismatchPerMille + 500) / 1000 + c.mismatchFixed

/-- Whether the metered mass and the bank-side mass differ by more than the tolerance (R161). -/
def mismatched (c : SiteConfig) (metered : Nat) (bankSide : Int) : Bool :=
  ((metered : Int) - bankSide).natAbs > tolerance c metered

/-- The sale record of a session (R160 steps 1 to 4, R161, R162). -/
def State.saleRecord (s : State) (p : PosId) : SaleRecord :=
  let x := s.session p
  let metered := x.metered
  let (price, ceiling) := x.billing
  let billed := min metered ceiling
  let claimed := !x.banksUsed.isEmpty
  { sequence := s.sales.counter
    position := p
    auth := x.auth.getD ⟨0, .fleet 0⟩
    fuelClass := x.cls
    precoolAtStart := x.precoolAtStart.getD .t40
    precoolAtEnd := x.precool
    profileAtStart := x.profileAtStart.getD 0
    profileAtEnd := x.profileIndex
    startTime := x.startTime.getD 0
    endTime := x.endTime.getD 0
    startPressure := x.startPressure
    endNozzle := x.endNozzle.getD 0
    metered := metered
    billed := billed
    overrun := metered - billed
    bankSide := if claimed then some x.bankSum else none
    unitPrice := price
    amount := (billed * price + 500) / 1000
    endReason := x.endReason
    flags :=
      { degradedCooling := x.flags.degradedCooling
        nonComm := x.flags.nonComm
        estimated := x.flags.estimated || x.finalMass.isNone
        interrupted := x.flags.interrupted
        unchecked := x.flags.unchecked || (claimed && x.staleMark)
        mismatch := claimed && !x.staleMark && mismatched s.config metered x.bankSum }
    activeTime := x.activeTime
    heldTime := x.heldTime
    banksUsed := x.banksUsed }

/-- The counter after a number has been given: 0 once the greatest has been given, and then it stays 0 (R160,
step 3). -/
def nextCounter (n : Nat) : Nat := if n = 0 ∨ n = Config.maxWord then 0 else n + 1

/-- MASS MISMATCH is posted for a record that carries MISMATCH (R160, step 5). -/
def State.postMismatch (s : State) (r : SaleRecord) : State :=
  if r.flags.mismatch then s.post (.massMismatch r.sequence) else s

/-- Commit (R160 steps 1 to 6; R149 for the notice): the record is appended, the counter advances, the notices are
posted and the session's record returns to IDLE. The register is freed by the caller. -/
def State.commit (s : State) (p : PosId) : State :=
  let x := s.session p
  let r := s.saleRecord p
  let s := s.modSales fun u => { u with records := u.records ++ [r], counter := nextCounter u.counter }
  let s := s.postMismatch r
  let s := s.post (.recordReady s.sales.records.length)
  let s := s.modSession p fun _ => Session.idle
  s.post (.sessionState p .idle x.endReason x.reference)

/-! ### Close queue and closing register -/

/-- The head of the close queue takes the free register (R159): it leaves the queue and its session becomes CLOSING. -/
def State.takeRegister (s : State) (p : PosId) (rest : List PosId) : State :=
  let s := s.modSales fun u => { u with closeQueue := rest, register := some p }
  let s := s.modSession p fun x => { x with state := .closing }
  s.postSession p

/-- The closing timer is started for the session in the register (R159, step 4). -/
def State.startClosing (s : State) : State :=
  s.modSales fun u => { u with closingTimer := some s.config.closingTimeout }

/-- The closing of the session in the register completes (R160). -/
def State.completeClosing (s : State) (p : PosId) : State :=
  let s := s.commit p
  s.modSales fun u => { u with register := none, closingTimer := none }

/-- While the register is free and the close queue is not empty, the head of the queue takes the register; one that
holds a final mass completes at once (R159). The number bounds how many may take it: the length of the queue. -/
def serveRegister : Nat → State → State
  | 0, s => s
  | n + 1, s =>
    match s.sales.register, s.sales.closeQueue with
    | none, p :: rest =>
      let s := s.takeRegister p rest
      if (s.session p).finalMass.isSome then serveRegister n (s.completeClosing p) else s.startClosing
    | _, _ => s

/-- The register is served from the close queue (R159, R160 step 7). -/
def State.serveCloseQueue (s : State) : State := serveRegister s.sales.closeQueue.length s

/-- A session that has entered ENDED joins the close queue, and the register is served (R148 step 7, R159). Where the
register is free the session leaves the event CLOSING, and a later PROGRESS is answered so (R106). Only the report that
ends the session, or comes together with the end, is answered with ENDED (R106, R107, log entry 30). -/
def State.joinCloseQueue (s : State) (p : PosId) : State :=
  (s.modSales fun u => { u with closeQueue := u.closeQueue ++ [p] }).serveCloseQueue

/-- The pending sessions, in the order of the numbers they will receive (R163). -/
def SalesUnit.pendingSessions (u : SalesUnit) : List PosId := u.register.toList ++ u.closeQueue

/-- Whether a number is one that the pending sessions will receive (R163). -/
def SalesUnit.foreseen (u : SalesUnit) (n : Nat) : Bool :=
  u.counter ≤ n && n < u.counter + u.pendingSessions.length && u.counter != 0

end Sys2Proof.Machine
end

