-- ==== Sys2Proof/Machine/Fill.lean ====
section
/-! DEFINITION. A Fill Engine's own transitions that reach no other session: the usable test (R57), hold factors set
(R139), the phases of a connection (R123, R127 to R131), entering DELIVERING (R134) and HELD (R141), and the mass
snapshots it keeps (R65). -/

namespace Sys2Proof.Machine

/-! ### The usable test and the switch test -/

/-- The pressure a bank must show for a session: its nozzle pressure plus the switch margin, as reported (R57). -/
def State.neededPressure (s : State) (p : PosId) : Nat := s.nozzlePressure p + (s.profileOf p).switchMargin

/-- Condition 3 of the usable test (R57). -/
def State.pressureServes (s : State) (b : BankId) (p : PosId) : Bool :=
  decide (s.neededPressure p ≤ (s.bank b).pressure.getD 0)

/-- Whether a bank is usable for a position's session (R57). -/
def State.usable (s : State) (b : BankId) (p : PosId) : Bool :=
  decide (s.bm.freshness = .fresh) && decide ((s.bank b).proofState ≠ .suspect) && s.pressureServes b p

/-! ### Mass snapshots -/

/-- The bank is appended to the banks used if it is not the one last appended (R65). -/
def appendBank (l : List BankId) (b : BankId) : List BankId := if l.getLast? = some b then l else l ++ [b]

/-- The session keeps a snapshot at claim (R65). -/
def State.snapshotClaim (s : State) (b : BankId) (p : PosId) : State :=
  let mass := (s.bank b).mass.getD 0
  s.modSession p fun x =>
    { x with
      massAtClaim := some mass
      banksUsed := appendBank x.banksUsed b
      staleMark := x.staleMark || decide (s.bm.freshness = .stale) }

/-- The session keeps a snapshot at release (R65): the signed sum grows by the mass at claim less the mass now. -/
def State.snapshotRelease (s : State) (b : BankId) (p : PosId) : State :=
  let mass := (s.bank b).mass.getD 0
  s.modSession p fun x =>
    { x with
      massAtClaim := none
      bankSum := x.bankSum + ((x.massAtClaim.getD 0 : Nat) : Int) - (mass : Int)
      staleMark := x.staleMark || decide (s.bm.freshness = .stale) }

/-! ### Hold factors -/

/-- A hold factor is set; a resume timer that runs is cancelled (R139, R142). A factor already set is not set again. -/
def State.setFactor (s : State) (p : PosId) (f : Factor) : State :=
  s.modSession p fun x => { x with factors := x.factors.put f true, resumeTimer := none }

/-! ### Entering HELD and DELIVERING -/

/-- The fields that belong to a phase or a segment in progress, stopped and absent. -/
def Session.quiet (x : Session) : Session :=
  { x with
    phase := none
    phaseTimer := none
    segmentTimer := none
    warmTimer := none
    pulseCeiling := none
    flowCeiling := none
    leakStart := none }

/-- A session enters HELD (R141), with the resume point of an unfinished connection (R123); the held time of its earlier
holds is noted (log entry 14). -/
def State.enterHeld (s : State) (p : PosId) (resume : Option Phase) : State :=
  let keep := s.config.bankKeepInterval
  let s := s.modSession p fun x =>
    { x.quiet with
      state := .held
      resumePoint := resume
      heldBefore := x.heldTime
      keepTimer := if x.bank.isSome then some keep else none }
  s.postSession p

/-- A session enters DELIVERING (R134): FLOW with the ceiling of R46, a segment, and the price at the first entry. -/
def State.enterDelivering (s : State) (p : PosId) : State :=
  let ceiling := s.rampCeiling p
  let segment := (s.profileOf p).segmentLength
  let s := s.modSession p fun x =>
    { x.quiet with state := .delivering, flowCeiling := ceiling, segmentTimer := some segment }
  (s.postSession p).capture p

/-- Whatever the connection kind, a finished connection has no kind, attempt or resume point (R123). -/
def State.finishConnection (s : State) (p : PosId) : State :=
  s.modSession p fun x => { x with kind := none, attempt := none, resumePoint := none }

/-- After the last phase of a connection: HELD when a factor is set, otherwise DELIVERING (R123). -/
def State.connected (s : State) (p : PosId) : State :=
  let s := s.finishConnection p
  if (s.session p).factors.isEmpty then s.enterDelivering p else s.enterHeld p none

/-! ### Phases -/

/-- The LEAK CHECK phase begins (R129). -/
def State.beginLeakCheck (s : State) (p : PosId) : State :=
  let reading := s.nozzlePressure p
  let hold := (s.profileOf p).leakCheckHold
  s.modSession p fun x =>
    { x.quiet with state := .connecting, phase := some .leakCheck, leakStart := some reading, phaseTimer := some hold }

/-- The CONNECT phase ends (R128); the step that follows is LEAK CHECK (R123). -/
def State.endConnect (s : State) (p : PosId) : State :=
  if (s.session p).factors.isEmpty then s.beginLeakCheck p else s.enterHeld p (some .leakCheck)

/-- The CONNECT phase begins with its pulse ceiling (R128, R49); a settle interval of 0 ends it at once. -/
def State.beginConnect (s : State) (p : PosId) : State :=
  let ceiling := s.pulseCeiling p
  let settle := (s.profileOf p).settleInterval
  let s := s.modSession p fun x =>
    { x.quiet with
      state := .connecting, phase := some .connect, pulseCeiling := some ceiling, phaseTimer := some settle }
  if settle = 0 then s.endConnect p else s

/-- The SETTLE phase of a switch begins (R131); a settle interval of 0 ends it at once. -/
def State.beginSettle (s : State) (p : PosId) : State :=
  let settle := (s.profileOf p).settleInterval
  let s := s.modSession p fun x =>
    { x.quiet with state := .connecting, phase := some .settle, phaseTimer := some settle }
  if settle = 0 then s.connected p else s

/-- The session is in CONNECTING, phase CLAIM. -/
def State.enterClaim (s : State) (p : PosId) : State :=
  s.modSession p fun x => { x.quiet with state := .connecting, phase := some .claim }

/-- The phase that follows CLAIM (R127). -/
def phaseAfterClaim : Option ConnKind → Phase
  | some .switch => .settle
  | _ => .connect

/-- The CLAIM phase ends (R127 step 5, R123). -/
def State.endClaim (s : State) (p : PosId) : State :=
  let next := phaseAfterClaim (s.session p).kind
  if (s.session p).factors.isEmpty then
    if next = .settle then s.beginSettle p else s.beginConnect p
  else s.enterHeld p (some next)

/-- What a claim granted sets in the session record (R127 steps 1 and 2, R126). -/
def Session.holdBank (x : Session) (b : BankId) : Session :=
  { x with
    bank := some b
    awaited := none
    bankWaitTimer := none
    awaitingFresh := false
    cascadePos := some (x.cascade.idxOf b) }

/-- A claim is granted to a session, at its own request or by a hand-off (R127): the snapshot (R65), the BANK factor of
a claim handed over while STALE (R55), and the end of the CLAIM phase. -/
def State.claimGranted (s : State) (b : BankId) (p : PosId) : State :=
  let s := s.snapshotClaim b p
  let s := s.modSession p fun x => x.holdBank b
  let s := if s.bm.freshness = .stale then s.setFactor p .bank else s
  s.endClaim p

end Sys2Proof.Machine
end

