-- ==== Sys2Proof/Machine/Proofs.lean ====
section
/-! DEFINITION. The Bank Manager's proofs of banks: proof age and the overdue test (R77), the examinations (R78, R79),
abandonment (R80). -/

namespace Sys2Proof.Machine

/-- The base time of a bank's proof age (R77). -/
def State.proofBase (s : State) (b : BankId) : Option Nat :=
  let x := s.bank b
  match x.proofState with
  | .proven => x.provenAt
  | .unproven => s.site.commissionedAt
  | .suspect => none
  | .proving =>
    match x.proof with
    | some f => if f.before = .proven then x.provenAt else s.site.commissionedAt
    | none => none

/-- Whether the base of a bank's proof age is its proven-at time (R77). -/
def Bank.baseIsProven (x : Bank) : Bool :=
  match x.proofState, x.proof with
  | .proven, _ => true
  | .proving, some f => f.before == .proven
  | _, _ => false

/-- The proof age of a bank, in seconds; a SUSPECT bank has none (R77). -/
def State.proofAge (s : State) (b : BankId) : Option Nat := (s.proofBase b).map fun base => s.site.siteTime - base

/-- Whether a bank is overdue: it has a proof age, and that age is greater than the proof period (R77). -/
def State.isOverdue (s : State) (b : BankId) : Bool :=
  match s.proofAge b with
  | some age => s.config.proofPeriod < age
  | none => false

/-- The overdue bank with the greatest proof age, the lowest-numbered on a tie (R78). -/
def State.longestOverdue (s : State) : Option BankId :=
  (fourIds.filter s.isOverdue).foldl
    (fun best b =>
      match best with
      | none => some b
      | some a => if (s.proofAge a).getD 0 < (s.proofAge b).getD 0 then some b else some a)
    none

/-- A proof begins on a bank with its computed mass and a full proof interval (R78, R79). -/
def State.beginProof (s : State) (b : BankId) (kind : ProofKind) : State :=
  s.modBank b fun x =>
    { x with
      proofState := .proving
      proof := some
        { kind := kind
          massAtStart := x.mass.getD 0
          before := x.proofState
          timer := s.config.proofInterval } }

/-- A bank is held for a forced proof: the holder is PROOF and the designation names it (R78). -/
def State.designate (s : State) (b : BankId) : State :=
  (s.modBank b fun x => { x with holder := .proof }).modBm fun m => { m with designation := some b }

/-- The opportunistic proof of a bank becomes forced, keeping its start and its timer (R78). -/
def State.forceProof (s : State) (b : BankId) : State :=
  s.modBank b fun x => { x with proof := x.proof.map fun f => { f with kind := .forced } }

/-- The forced proof examination (R78). -/
def State.forcedExamination (s : State) : State :=
  if s.site.mode ≠ .unconfigured ∧ s.bm.freshness = .fresh ∧ s.bm.designation = none then
    match s.longestOverdue with
    | none => s
    | some b =>
      if (s.bank b).holder = .free then
        if (s.bank b).proofState = .proving then (s.forceProof b).designate b else (s.beginProof b .forced).designate b
      else s
  else s

/-- Whether the last proof of a bank leaves room for an opportunistic one (R79, condition 4). -/
def State.dueForProof (s : State) (b : BankId) : Bool :=
  match (s.bank b).proofState with
  | .unproven => true
  | .proven => decide (s.config.proofPeriod / 2 < (s.proofAge b).getD 0)
  | .proving => false
  | .suspect => false

/-- The opportunistic proof examination of one bank (R79). -/
def State.opportunisticExamination (s : State) (b : BankId) : State :=
  if s.site.mode ≠ .unconfigured ∧ s.bm.freshness = .fresh ∧ (s.bank b).holder = .free ∧ b ∉ s.bm.refillList
      ∧ s.dueForProof b = true then
    s.beginProof b .opportunistic
  else s

/-- The examinations made for a bank that has become FREE (R78, R79). -/
def State.becameFree (s : State) (b : BankId) : State := s.forcedExamination.opportunisticExamination b

/-- The proof examinations of a report: the forced one, then each bank's in increasing number (R69). -/
def State.proofExaminations (s : State) : State :=
  inOrder (fun b s => s.opportunisticExamination b) s.forcedExamination

/-- A bank's proof fields are cleared and it takes a proof state (R80, R81). -/
def State.endProof (s : State) (b : BankId) (after : ProofState) : State :=
  s.modBank b fun x => { x with proofState := after, proof := none }

/-- The designation names no bank any more, when it named this one (R80, R81). -/
def State.undesignate (s : State) (b : BankId) : State :=
  s.modBm fun m => { m with designation := if m.designation = some b then none else m.designation }

/-- A proof in progress on a bank is abandoned: the proof state it had before stands again (R80). The claim holder is
the caller's. -/
def State.abandonProof (s : State) (b : BankId) : State :=
  match (s.bank b).proof with
  | none => s
  | some f => (s.endProof b f.before).undesignate b

/-- Abandonment that leaves a bank FREE when a forced proof held it (R80, R84, R85). -/
def State.abandonAndFree (s : State) (b : BankId) : State :=
  let s := s.abandonProof b
  if (s.bank b).holder = .proof then s.modBank b fun x => { x with holder := .free } else s

/-- The overdue test of one bank (R77). -/
def State.overdueTestOf (s : State) (b : BankId) : State :=
  if s.isOverdue b then
    if (s.bank b).overdue then s.forcedExamination
    else
      let x := s.bank b
      let s := s.modBank b fun x => { x with overdue := true }
      (s.post (.proofOverdue b (if x.baseIsProven then x.provenAt else none))).forcedExamination
  else s.modBank b fun x => { x with overdue := false }

/-- The overdue test of every bank in increasing number, while the site mode is not UNCONFIGURED (R77). -/
def State.overdueTest (s : State) : State :=
  if s.site.mode = .unconfigured then s else inOrder (fun b s => s.overdueTestOf b) s

end Sys2Proof.Machine
end

