-- ==== Sys2Proof/Machine/Claims.lean ====
section
/-! DEFINITION. The Bank Manager's claim table: hand-off (R62), release (R62, R65), withdrawal (R64), the end of a
refill (R73), the refill list (R69) and the claim request (R59). -/

namespace Sys2Proof.Machine

/-! ### Hand-off and release -/

/-- The yield timer is cancelled when the queue of the bank in flight has become empty (R74). -/
def State.settleYield (s : State) : State :=
  match s.bm.refillInFlight with
  | some b => if (s.bank b).queue.isEmpty then s.modBm fun m => { m with yieldTimer := none } else s
  | none => s

/-- A released bank is handed to the head of its wait queue, or becomes FREE (R62). -/
def State.handOff (s : State) (b : BankId) : State :=
  match (s.bank b).queue with
  | [] => s.modBank b fun x => { x with holder := .free }
  | p :: rest => (s.modBank b fun x => { x with holder := .position p, queue := rest }).claimGranted b p

/-- A hand-off, and the proof examinations when it has made the bank FREE (R62, R78, R79). -/
def State.handOn (s : State) (b : BankId) : State :=
  let s := s.handOff b
  if (s.bank b).holder = .free then s.becameFree b else s

/-- A position's session has no current bank. -/
def State.forgetBank (s : State) (p : PosId) : State := s.modSession p fun x => { x with bank := none }

/-- A Fill Engine releases the claim of its position: the snapshot at release, then the hand-off (R62, R65). With no
claim held it has no effect. -/
def State.releaseClaim (s : State) (p : PosId) : State :=
  match (s.session p).bank with
  | none => s
  | some b =>
    if (s.bank b).holder = .position p then ((s.snapshotRelease b p).forgetBank p).handOn b else s.forgetBank p

/-- A position leaves the wait queue it stands in; the positions behind it move up (R61). -/
def State.leaveQueue (s : State) (p : PosId) : State :=
  match (s.session p).awaited with
  | none => s
  | some b =>
    let s := s.modBank b fun x => { x with queue := x.queue.filter fun q => q != p }
    (s.modSession p fun x => { x with awaited := none, bankWaitTimer := none }).settleYield

/-! ### Refills -/

/-- Whether a bank's reported pressure is below its refill start threshold (R69). -/
def State.belowStart (s : State) (b : BankId) : Bool :=
  match s.config.banks.get b, (s.bank b).pressure with
  | some e, some p => decide (p < e.refillStart)
  | _, _ => false

/-- A bank enters the refill list at its tail, once (R69). -/
def State.enterRefillList (s : State) (b : BankId) : State :=
  if b ∈ s.bm.refillList then s else s.modBm fun m => { m with refillList := m.refillList ++ [b] }

/-- A bank leaves the refill list (R69). -/
def State.leaveRefillList (s : State) (b : BankId) : State :=
  s.modBm fun m => { m with refillList := m.refillList.filter fun x => x != b }

/-- A bank whose refill has ended returns to the list when it is still low and not SUSPECT (R73, step 4). -/
def State.relist (s : State) (b : BankId) : State :=
  if s.belowStart b = true ∧ (s.bank b).proofState ≠ .suspect then s.enterRefillList b else s

/-- A refill of a bank ends (R73 steps 1 to 4). -/
def State.refillEnds (s : State) (b : BankId) (reason : RefillReason) : State :=
  let s := s.modBm fun m => { m with refillInFlight := none, yieldTimer := none }
  ((s.handOff b).post (.refillStop b reason)).relist b

/-- A refill ends otherwise than within an emergency stop or a site reset: with the proof examinations for a bank that
has become FREE (R73, step 5). -/
def State.endRefill (s : State) (b : BankId) (reason : RefillReason) : State :=
  let s := s.refillEnds b reason
  if (s.bank b).holder = .free then s.becameFree b else s

/-! ### The claim request -/

/-- What a Fill Engine learns of its claim request (R59). -/
inductive ClaimAnswer where
  | refused | granted | waits
deriving DecidableEq, Repr

/-- Whether a position holds a bank or stands in a wait queue (R59, condition 1). -/
def State.holdsOrWaits (s : State) (p : PosId) : Bool :=
  fourIds.any fun b => decide ((s.bank b).holder = .position p) || (s.bank b).queue.contains p

/-- A position becomes the claim holder of a bank that was FREE or under a proof, which is abandoned (R59). -/
def State.takeBank (s : State) (b : BankId) (p : PosId) : State :=
  (s.abandonProof b).modBank b fun x => { x with holder := .position p }

/-- A position joins the tail of a bank's wait queue; on a bank held by REFILL the yield timer runs from the first
waiter's arrival (R59 step 5, R74). -/
def State.joinQueue (s : State) (b : BankId) (p : PosId) : State :=
  let s := s.modBank b fun x => { x with queue := x.queue ++ [p] }
  if (s.bank b).holder = .refill then
    s.modBm fun m => { m with yieldTimer := some (m.yieldTimer.getD s.config.refillYield) }
  else s

/-- The claim request of a position for a bank (R59), up to what its Fill Engine does with the answer. -/
def State.claimRequest (s : State) (b : BankId) (p : PosId) : State × ClaimAnswer :=
  if s.holdsOrWaits p then (s, .refused)
  else if !s.usable b p then (s, .refused)
  else
    match (s.bank b).holder with
    | .free => (s.takeBank b p, .granted)
    | .proof => (s.takeBank b p, .granted)
    | .position _ => (s.joinQueue b p, .waits)
    | .refill => (s.joinQueue b p, .waits)

/-- A position has joined a wait queue: the bank it awaits, and its bank wait timer (R124, R126). -/
def State.awaitBank (s : State) (b : BankId) (p : PosId) : State :=
  let limit := s.config.bankWaitLimit
  s.modSession p fun x => { x with awaited := some b, bankWaitTimer := some limit }

/-- A yield interval of 0 ends the refill within the claim event in which the first position joins (R74). -/
def State.yieldAtOnce (s : State) (b : BankId) (firstWaiter : Bool) : State :=
  if firstWaiter = true ∧ (s.bank b).holder = .refill ∧ s.bm.yieldTimer = some 0 then s.endRefill b .yield else s

/-- A claim request for a chosen bank with everything that follows in the event (R124). -/
def State.claim (s : State) (b : BankId) (p : PosId) : State :=
  let firstWaiter := (s.bank b).queue.isEmpty
  match s.claimRequest b p with
  | (s, .refused) => s
  | (s, .granted) => s.claimGranted b p
  | (s, .waits) => (s.awaitBank b p).yieldAtOnce b firstWaiter

end Sys2Proof.Machine
end

