-- ==== Sys2Proof/Machine/Selection.lean ====
section
/-! DEFINITION. The transitions of a Fill Engine that may end its session: bank selection (R124, R125), leaving OPENING
(R122) and HELD (R142), a factor cleared (R139), cooling granted (R90), and the granting of waiters from the head of the
cooling wait queue (R90).

Ending a session releases cooling, which may grant the next waiter, whose session may find no bank and end in its turn,
within one event. So these functions take the ending of a session as an argument, an `Ender`; Machine/Ending.lean ties
the knot. -/

namespace Sys2Proof.Machine

/-- How a session is ended with an end reason. -/
abbrev Ender := PosId → EndReason → State → State

/-! ### Selecting a bank -/

/-- The candidates of a selection, in list order (R124). -/
def Session.candidates (x : Session) : List BankId :=
  match x.cascadePos with
  | none => x.cascade
  | some i => if x.kind = some .switch then x.cascade.drop (i + 1) else x.cascade.drop i

/-- The bank chosen: the first usable candidate not held by PROOF, otherwise the first usable one (R124). -/
def State.chooseBank (s : State) (p : PosId) : Option BankId :=
  let usable := (s.session p).candidates.filter fun b => s.usable b p
  match usable.find? fun b => (s.bank b).holder != .proof with
  | some b => some b
  | none => usable.head?

/-- A selection due while the banks are STALE is not made: the session awaits fresh data (R125). -/
def State.awaitFresh (s : State) (p : PosId) : State :=
  let limit := s.config.bankWaitLimit
  s.modSession p fun x => { x with awaitingFresh := true, bankWaitTimer := some limit }

/-- Bank selection of a session in phase CLAIM (R124, R125). -/
def State.selectBank (s : State) (endK : Ender) (p : PosId) : State :=
  if s.bm.freshness = .stale then s.awaitFresh p
  else
    match s.chooseBank p with
    | some b => s.claim b p
    | none => endK p .banksExhausted s

/-! ### Leaving OPENING -/

/-- The progress timer is started or restarted with the progress timeout in force (R107). -/
def State.restartProgress (s : State) (p : PosId) : State :=
  s.modMonitor p fun x => { x with progressTimer := some s.config.progressTimeout }

/-- A connection begins, of a kind and an attempt (R122, R132). -/
def State.newConnection (s : State) (p : PosId) (kind : ConnKind) (attempt : Option Attempt) : State :=
  s.modSession p fun x => { x with kind := some kind, attempt := attempt, resumePoint := none }

/-- A session leaves OPENING on its cooling grant: for CONNECTING, or for HELD when a factor is set (R122). -/
def State.leaveOpening (s : State) (endK : Ender) (p : PosId) : State :=
  let s := (s.newConnection p .first (some .first)).restartProgress p
  if (s.session p).factors.isEmpty then ((s.enterClaim p).postSession p).selectBank endK p
  else s.enterHeld p (some .claim)

/-! ### Leaving HELD -/

/-- The timers of a hold stop, and the held time stays (R141, R144); an interval of this hold that has carried it past the
hold limit at the instant of the resume is not counted (R143, log entry 14). -/
def Session.leaveHold (x : Session) (holdLimit : Nat) : Session :=
  { x with
    resumeTimer := none
    keepTimer := none
    heldTime := if x.heldTime = holdLimit + 1 ∧ x.heldBefore ≤ holdLimit then holdLimit else x.heldTime }

/-- A session without a claim and with a finished connection reconnects (R132). -/
def State.reconnect (s : State) (endK : Ender) (p : PosId) : State :=
  let kind := if (s.session p).rampBase.isSome then ConnKind.reconnect else ConnKind.first
  let s := s.newConnection p kind (some .first)
  ((s.enterClaim p).postSession p).selectBank endK p

/-- An unfinished connection is resumed at its resume point (R123). -/
def State.resumeConnection (s : State) (endK : Ender) (p : PosId) (point : Phase) : State :=
  let s := s.modSession p fun x => { x with resumePoint := none }
  let s := (s.enterClaim p).postSession p
  match point with
  | .claim => s.selectBank endK p
  | .connect => s.beginConnect p
  | .leakCheck => s.beginLeakCheck p
  | .settle => s.beginSettle p

/-- The resume delay has run out and the session leaves HELD (R123, R142). -/
def State.resume (s : State) (endK : Ender) (p : PosId) : State :=
  let limit := (s.profileOf p).holdLimit
  let s := s.modSession p fun x => x.leaveHold limit
  match (s.session p).resumePoint with
  | some point => s.resumeConnection endK p point
  | none => if (s.session p).bank.isSome then s.enterDelivering p else s.reconnect endK p

/-- The hold factor set of a held session has become empty: the resume timer starts; a resume delay of 0 makes the
session leave HELD at once (R142). -/
def State.startResume (s : State) (endK : Ender) (p : PosId) : State :=
  let delay := (s.profileOf p).resumeDelay
  if delay = 0 then s.resume endK p else s.modSession p fun x => { x with resumeTimer := some delay }

/-- A hold factor is cleared (R139); clearing one that is not set has no effect. -/
def State.clearFactor (s : State) (endK : Ender) (p : PosId) (f : Factor) : State :=
  if (s.session p).factors.has f then
    let s := s.modSession p fun x => { x with factors := x.factors.put f false }
    let x := s.session p
    if x.state = .held ∧ x.factors.isEmpty = true then s.startResume endK p else s
  else s

/-! ### Cooling -/

/-- The Fill Engine is told that its cooling is granted (R90, R122, R139). -/
def State.coolingGranted (s : State) (endK : Ender) (p : PosId) : State :=
  let s := s.modSession p fun x => { x with cooling := .granted }
  if (s.session p).state = .opening then s.leaveOpening endK p else s.clearFactor endK p .cooling

/-- The wait queue changes, and COOLING DEMAND is posted with the waiting demand that results (R97). -/
def State.setCoolingQueue (s : State) (q : List Waiter) : State :=
  let s := s.modCbu fun c => { c with queue := q }
  s.post (.coolingDemand s.waitingDemand)

/-- The head of the wait queue becomes the newest grant (R90, step 3). -/
def State.grantHead (s : State) (w : Waiter) (rest : List Waiter) : State :=
  let s := s.modCbu fun c => { c with grants := c.grants ++ [⟨w.pos, w.demand, w.limit⟩] }
  s.setCoolingQueue rest

/-- Granting from the head (R90). The number bounds how many waiters may be granted: the length of the queue. -/
def grantFromHead (endK : Ender) : Nat → State → State
  | 0, s => s
  | n + 1, s =>
    match s.cbu.queue with
    | [] => s
    | w :: rest =>
      if s.cbu.capacity < s.granted + w.demand then s
      else grantFromHead endK n ((s.grantHead w rest).coolingGranted endK w.pos)

/-- Granting from the head of the whole wait queue (R90). -/
def State.grantWaiters (s : State) (endK : Ender) : State := grantFromHead endK s.cbu.queue.length s

/-- A Fill Engine releases its grant or withdraws from the wait queue (R93); with no entry nothing changes. -/
def State.leaveCooling (s : State) (endK : Ender) (p : PosId) : State :=
  if s.cbu.grants.any fun g => g.pos == p then
    (s.modCbu fun c => { c with grants := c.grants.filter fun g => g.pos != p }).grantWaiters endK
  else if s.cbu.queue.any fun w => w.pos == p then
    (s.setCoolingQueue (s.cbu.queue.filter fun w => w.pos != p)).grantWaiters endK
  else s

end Sys2Proof.Machine
end

