-- ==== Sys2Proof/Machine/Ending.lean ====
section
/-! DEFINITION. How a session ends (R147, R148), and what may follow within the same event. -/

namespace Sys2Proof.Machine

/-- Steps 1 to 3 of R148: the end reason, time and nozzle pressure; the state ENDED; every timer stopped, any awaiting
of fresh data over, an unfinished connection abandoned. -/
def Session.markEnded (x : Session) (reason : EndReason) (time nozzle : Nat) : Session :=
  { x.quiet with
    endReason := some reason
    endTime := some time
    endNozzle := some nozzle
    state := .ended
    bankWaitTimer := none
    resumeTimer := none
    keepTimer := none
    awaitingFresh := false
    kind := none
    attempt := none
    resumePoint := none }

/-- The end nozzle pressure: the latest one held, or that of the last PROGRESS taken for the session, or 0 (R148). -/
def State.endingNozzle (s : State) (p : PosId) : Nat :=
  match (s.monitor p).pressure with
  | some n => n
  | none => (s.session p).lastNozzle.getD 0

/-- Steps 1 to 6 of R148, without the close queue. -/
def State.endSteps (s : State) (endK : Ender) (p : PosId) (reason : EndReason) : State :=
  let nozzle := s.endingNozzle p
  let s := s.modSession p fun x => x.markEnded reason s.site.siteTime nozzle
  let s := (s.releaseClaim p).leaveQueue p
  let s := s.leaveCooling endK p
  let s := s.modSession p fun x => { x with cooling := .noCooling }
  s.postSession p

/-- A session from OPENING through HELD ends; any other session is not ended again (R147, R148). The number bounds how
many sessions may end in one event, one within another: there are four. -/
def endSession : Nat → Ender
  | 0, _, _, s => s
  | n + 1, p, reason, s =>
    if (s.session p).running then (s.endSteps (endSession n) p reason).joinCloseQueue p else s

/-- The ending of a session, with all that may follow in its event. -/
def endNow : Ender := endSession 4

/-- A session ends, or is left as it is when it is not running. -/
def State.endWith (s : State) (p : PosId) (reason : EndReason) : State := endNow p reason s

end Sys2Proof.Machine
end

