-- ==== Sys2Proof/Machine/Cooling.lean ====
section
/-! DEFINITION. The Cooling Budget Unit: cooling requests (R91), the running out of a cooling wait timer with the degrade
it hands to the Fill Engine (R94, R95, R145, R47), and revocation (R89). -/

namespace Sys2Proof.Machine

/-! ### Degrade -/

/-- The profile a session may degrade to: its degrade-to entry, when that is permitted (R145, step 1). -/
def State.degradeTarget (s : State) (p : PosId) : Option Nat :=
  match (s.profileOf p).degradeTo with
  | some k => if (s.config.profile k).permitted then some k else none
  | none => none

/-- The profile becomes the degrade-to entry and the ramp is rebased at the ceiling in force (R47; R145 steps 2, 3). -/
def State.rebase (s : State) (p : PosId) (k : Nat) : State :=
  let ceiling := s.rampCeiling p
  s.modSession p fun x =>
    { x with
      profile := some k
      rampBase := ceiling
      activeTime := if x.rampBase.isSome then 0 else x.activeTime
      flags := { x.flags with degradedCooling := true }
      warmTimer := none }

/-- The degrade of a session up to its price (R145 steps 2, 3 and 5). -/
def State.degrade (s : State) (p : PosId) (k : Nat) : State := (s.rebase p k).recapture p

/-- Whether a session in HELD has been held for longer than its current profile's hold limit (R143). -/
def State.heldTooLong (s : State) (p : PosId) : Bool :=
  decide ((s.session p).state = .held ∧ (s.profileOf p).holdLimit < (s.session p).heldTime)

/-! ### The running out of a cooling wait timer -/

/-- Whether a position stands in the cooling wait queue. -/
def State.waitsForCooling (s : State) (p : PosId) : Bool := s.cbu.queue.any fun w => w.pos == p

/-- A waiter keeps its place with a new demand and wait limit, and its timer restarts (R94, R95). -/
def State.replaceDemand (s : State) (p : PosId) (demand limit : Nat) : State :=
  s.setCoolingQueue (s.cbu.queue.map fun w => if w.pos = p then ⟨p, demand, limit, limit⟩ else w)

/-- A waiter leaves the queue at a degrade to demand 0, and its cooling is granted without an entry (R95). -/
def State.grantWithoutEntry (s : State) (p : PosId) : State :=
  (s.setCoolingQueue (s.cbu.queue.filter fun w => w.pos != p)).coolingGranted endNow p

/-- The cooling wait timer of a waiter runs out (R95, R145). A new wait limit of 0 runs out within the same event (R94);
a degrade chain has at most three steps, which the number bounds. -/
def expireCooling : Nat → PosId → State → State
  | 0, _, s => s
  | n + 1, p, s =>
    if s.waitsForCooling p then
      match s.degradeTarget p with
      | none => (s.endWith p .coolingUnavailable).grantWaiters endNow
      | some k =>
        let s := s.degrade p k
        if s.heldTooLong p then (s.endWith p .holdLimit).grantWaiters endNow
        else if (s.profileOf p).coolingDemand = 0 then (s.grantWithoutEntry p).grantWaiters endNow
        else
          let limit := (s.profileOf p).coolingWaitLimit
          let s := s.replaceDemand p (s.profileOf p).coolingDemand limit
          if limit = 0 then expireCooling n p s else s.grantWaiters endNow
    else s

/-- The running out of a cooling wait timer, with the rest of a degrade chain (R95). -/
def State.coolingWaitRunsOut (s : State) (p : PosId) : State := expireCooling 4 p s

/-! ### Requests -/

/-- A position takes the newest place in the grant list (R91, step 2). -/
def State.addGrant (s : State) (p : PosId) (demand limit : Nat) : State :=
  s.modCbu fun c => { c with grants := c.grants ++ [⟨p, demand, limit⟩] }

/-- A position joins the tail of the cooling wait queue (R91, step 3). -/
def State.joinCooling (s : State) (p : PosId) (demand limit : Nat) : State :=
  let s := s.modSession p fun x => { x with cooling := .waiting }
  let s := (s.setCoolingQueue (s.cbu.queue ++ [⟨p, demand, limit, limit⟩])).grantWaiters endNow
  if limit = 0 then s.coolingWaitRunsOut p else s

/-- The cooling request of a position (R91). -/
def State.requestCooling (s : State) (p : PosId) (demand limit : Nat) : State :=
  if demand = 0 then s.coolingGranted endNow p
  else if s.cbu.queue.isEmpty = true ∧ s.granted + demand ≤ s.cbu.capacity then
    (s.addGrant p demand limit).coolingGranted endNow p
  else s.joinCooling p demand limit

/-! ### Capacity reports -/

/-- The grants kept and those revoked when grants are taken from the newest end until the rest fit (R89 steps 1, 2).
The list is newest first; the revoked ones come out oldest first. -/
def popNewest (capacity : Nat) : List Grant → List Grant → List Grant × List Grant
  | [], revoked => ([], revoked)
  | g :: rest, revoked =>
    if ((g :: rest).map (·.demand)).sum ≤ capacity then (g :: rest, revoked) else popNewest capacity rest (g :: revoked)

/-- A Fill Engine is told that its grant is revoked (R89, step 4). -/
def State.coolingRevoked (s : State) (p : PosId) : State :=
  (s.modSession p fun x => { x with cooling := .waiting }).setFactor p .cooling

/-- Grants are revoked until Σ is within the capacity; the revoked stand at the head of the wait queue in the order in
which they were granted, their timers started (R89). A wait limit of 0 then runs out within the report (R94): the fill
degrades, and where its new demand is 0 or fits it is granted again within this same report (R95, R90 steps 1 to 3),
although R90 closes with the words that a fill is never revoked and granted in one report. The model's choice: log
entry 34. -/
def State.revoke (s : State) : State :=
  match popNewest s.cbu.capacity s.cbu.grants.reverse [] with
  | (_, []) => s
  | (kept, g :: more) =>
    let revoked := g :: more
    let s := s.modCbu fun c => { c with grants := kept.reverse }
    let s := s.setCoolingQueue (revoked.map (fun g => ⟨g.pos, g.demand, g.limit, g.limit⟩) ++ s.cbu.queue)
    let s := revoked.foldl (fun s g => s.coolingRevoked g.pos) s
    revoked.foldl (fun s g => if g.limit = 0 then s.coolingWaitRunsOut g.pos else s) s

/-- A capacity report within its range (R88 steps 1 to 3; step 4 is in the changes of the queue). -/
def State.takeCapacity (s : State) (capacity : Nat) : State :=
  ((s.modCbu fun c => { c with capacity := capacity }).revoke).grantWaiters endNow

end Sys2Proof.Machine
end

