-- ==== Sys2Proof/Machine/Delivery.lean ====
section
/-! DEFINITION. What a Fill Engine does with the reports of its Position Monitor (R133, R136 to R141, R114, R146), at a
segment boundary (R135) and at a bank switch (R131), and its command (R106). -/

namespace Sys2Proof.Machine

/-! ### The command -/

/-- The command of a Fill Engine to its dispenser (R106). -/
inductive Command where
  | closed
  | pulse (bank : BankId) (ceiling : Nat)
  | flow (bank : BankId) (ceiling : Nat)
deriving DecidableEq, Repr

/-- The command of a session (R106, R128, R134): PULSE in CONNECT, FLOW in DELIVERING, otherwise CLOSED. -/
def Session.command (x : Session) : Command :=
  match x.state, x.phase with
  | .connecting, some .connect => .pulse (x.bank.getD 0) (x.pulseCeiling.getD 0)
  | .delivering, _ => .flow (x.bank.getD 0) (x.flowCeiling.getD 0)
  | _, _ => .closed

/-- The four bytes of a command: code, bank, ceiling (R170). -/
def Command.bytes : Command → List Byte
  | .closed => [0, 255] ++ be 2 0
  | .pulse b c => [1, byteOf b.val] ++ be 2 c
  | .flow b c => [2, byteOf b.val] ++ be 2 c

/-! ### End criteria -/

/-- Whether the state of charge ends the fill (R138). -/
def State.socReached (s : State) (p : PosId) : Bool :=
  match (s.session p).comm, (s.monitor p).vehicle with
  | some .comm, some v => decide ((s.profileOf p).socTarget ≤ v.soc)
  | _, _ => false

/-- Whether the nozzle pressure ends the fill (R138). -/
def State.pressureReached (s : State) (p : PosId) : Bool :=
  match (s.session p).comm with
  | some .comm => decide ((s.profileOf p).endPressure ≤ s.nozzlePressure p)
  | _ => decide ((s.profileOf p).nonCommEndPressure ≤ s.nozzlePressure p)

/-- Whether the mass ends the fill (R138). -/
def State.massReached (s : State) (p : PosId) : Bool :=
  let ceiling := (s.session p).massCeiling.getD 0
  let anticipation := (s.profileOf p).closingAnticipation
  decide (ceiling ≤ anticipation) || decide (ceiling - anticipation ≤ (s.session p).lastMass)

/-- The first end criterion that holds (R138). -/
def State.endCriterion (s : State) (p : PosId) : Option EndReason :=
  if s.socReached p then some .socReached
  else if s.pressureReached p then some .pressureReached
  else if s.massReached p then some .massLimit
  else none

/-! ### Reports -/

/-- The warm limit of a precool class (R137). -/
def warmLimit : PrecoolClass → Option Nat
  | .t40 => some 2401
  | .t30 => some 2471
  | .t20 => some 2556
  | .t0 => none

/-- Whether a line temperature is above the warm limit of a session's current class (R137). -/
def Session.isWarm (x : Session) (temperature : Nat) : Bool :=
  match warmLimit x.precool with
  | some limit => decide (limit < temperature)
  | none => false

/-- The session keeps the metered mass and the nozzle pressure of a report (R105, R148). -/
def State.noteReport (s : State) (p : PosId) (pressure mass : Nat) : State :=
  s.modSession p fun x => { x with lastMass := mass, lastNozzle := some pressure }

/-- Whether a reported nozzle pressure is above the class MAWP (R136, step 2). -/
def State.overPressure (s : State) (p : PosId) (pressure : Nat) : Bool := decide ((s.session p).mawp < pressure)

/-- OVER-RAMP is cleared by a report that is not above the ramp ceiling in force (R139). -/
def State.clearOverRamp (s : State) (p : PosId) (pressure : Nat) : State :=
  match s.rampCeiling p with
  | some ceiling => if clampPressure pressure ≤ ceiling then s.clearFactor endNow p .overRamp else s
  | none => s

/-- GAS WARM is cleared by a report that is not above the warm limit (R139). -/
def State.clearGasWarm (s : State) (p : PosId) (temperature : Nat) : State :=
  if (s.session p).isWarm temperature then s else s.clearFactor endNow p .gasWarm

/-- OVER-RAMP is set by a report above the ceiling plus the overshoot tolerance, and cleared by one not above the
ceiling (R136, step 5). -/
def State.overRampCheck (s : State) (p : PosId) (pressure ceiling : Nat) : State :=
  if ceiling + (s.profileOf p).overshoot < clampPressure pressure then s.setFactor p .overRamp
  else s.clearOverRamp p pressure

/-- The gas-warm test of a report in DELIVERING (R137). -/
def State.gasWarmTest (s : State) (p : PosId) (temperature : Nat) : State :=
  let grace := (s.profileOf p).warmGrace
  if (s.session p).isWarm temperature then
    if (s.session p).warmTimer.isSome then s
    else if grace = 0 then s.setFactor p .gasWarm
    else s.modSession p fun x => { x with warmTimer := some grace }
  else (s.modSession p fun x => { x with warmTimer := none }).clearGasWarm p temperature

/-- A report taken in DELIVERING, from step 3 of R136 on. -/
def State.deliveryReport (s : State) (p : PosId) (pressure temperature : Nat) : State :=
  let ceiling := s.rampCeiling p
  let s := s.modSession p fun x => { x with flowCeiling := ceiling }
  match s.endCriterion p with
  | some reason => s.endWith p reason
  | none => (s.overRampCheck p pressure (ceiling.getD (s.session p).mawp)).gasWarmTest p temperature

/-- The Fill Engine takes a PROGRESS report, according to the state of its session (R122, R133, R136, R141, R149). -/
def State.takeReport (s : State) (p : PosId) (pressure temperature mass : Nat) : State :=
  match (s.session p).state with
  | .idle => s
  | .ended => s.noteReport p pressure mass
  | .closing => s.noteReport p pressure mass
  | .opening =>
    let s := s.noteReport p pressure mass
    if s.overPressure p pressure then s.endWith p .overPressure else s
  | .connecting =>
    let s := s.noteReport p pressure mass
    if s.overPressure p pressure then s.endWith p .overPressure
    else (s.clearOverRamp p pressure).clearGasWarm p temperature
  | .held =>
    let s := s.noteReport p pressure mass
    if s.overPressure p pressure then s.endWith p .overPressure
    else (s.clearOverRamp p pressure).clearGasWarm p temperature
  | .delivering =>
    let s := s.noteReport p pressure mass
    if s.overPressure p pressure then s.endWith p .overPressure else s.deliveryReport p pressure temperature

/-! ### Vehicle data -/

/-- The fuelling command of a valid frame acts on a running session (R114). -/
def State.obeyVehicle (s : State) (p : PosId) (c : FuelCommand) : State :=
  if (s.session p).running then
    match c with
    | .run => s.clearFactor endNow p .vehicleHalt
    | .halt => s.setFactor p .vehicleHalt
    | .abort => s.endWith p .vehicleAbort
  else s

/-- A valid frame taken while the session is in DELIVERING is examined against the end criteria (R138), as is one that
has itself brought the session from HELD to DELIVERING (log entry 31). -/
def State.frameCriteria (s : State) (p : PosId) : State :=
  if (s.session p).state = .delivering then
    match s.endCriterion p with
    | some reason => s.endWith p reason
    | none => s
  else s

/-- The loss of vehicle data: a COMM session ends, or is NON-COMM for its rest (R146). -/
def State.loseVehicle (s : State) (p : PosId) : State :=
  if (s.session p).running = true ∧ (s.session p).comm = some .comm then
    if (s.profileOf p).vehicleDataMandatory then s.endWith p .vehicleDataLost
    else s.modSession p fun x => { x with comm := some .nonComm, flags := { x.flags with nonComm := true } }
  else s

/-! ### Segments -/

/-- The session switches banks (R131): it releases its bank, enters phase CLAIM and selects a later bank. -/
def State.switchBanks (s : State) (p : PosId) : State :=
  let s := s.releaseClaim p
  let s := s.newConnection p .switch none
  ((s.enterClaim p).postSession p).selectBank endNow p

/-- Whether the current bank's pressure has fallen within the switch margin (R135, step 2). -/
def State.switchNeeded (s : State) (p : PosId) : Bool :=
  match (s.session p).bank with
  | some b => !s.pressureServes b p
  | none => true

/-- A segment ends at a boundary (R135). -/
def State.boundary (s : State) (p : PosId) : State :=
  if !(s.session p).factors.isEmpty then s.enterHeld p none
  else if s.switchNeeded p then s.switchBanks p
  else
    let segment := (s.profileOf p).segmentLength
    s.modSession p fun x => { x with segmentTimer := some segment }

/-! ### A failed leak check -/

/-- A LEAK CHECK fails: RECHECK on the first attempt, otherwise the session ends with LEAK (R130). -/
def State.leakFailed (s : State) (p : PosId) : State :=
  if (s.session p).attempt = some .recheck then s.endWith p .leak
  else
    let s := s.modSession p fun x => { x with attempt := some .recheck }
    if (s.session p).factors.isEmpty then s.beginConnect p else s.enterHeld p (some .connect)

/-- A LEAK CHECK passes: a session without a ramp base takes its start pressure and its ramp base from the end reading
(R129, R45). -/
def State.leakPassed (s : State) (p : PosId) (reading : Nat) : State :=
  let s := s.modSession p fun x =>
    match x.rampBase with
    | some _ => x
    | none => { x with startPressure := some reading, rampBase := some (clampPressure reading), activeTime := 0 }
  s.connected p

/-- The LEAK CHECK phase ends (R129). -/
def State.endLeakCheck (s : State) (p : PosId) : State :=
  let reading := s.nozzlePressure p
  let drop := ((s.session p).leakStart.getD 0) - reading
  let s := s.modSession p fun x => { x with leakStart := none, phaseTimer := none }
  if drop ≤ (s.profileOf p).leakDropLimit then s.leakPassed p reading else s.leakFailed p

/-! ### The keep release -/

/-- An unfinished connection that has lost its bank at the keep interval starts again from CLAIM (R123). -/
def Session.keepReleased (x : Session) : Session :=
  match x.kind with
  | none => x
  | some _ =>
    { x with
      resumePoint := some .claim
      kind := some (if x.rampBase.isSome then .reconnect else .first)
      attempt := some (x.attempt.getD .first) }

/-- The keep timer runs out (R144). -/
def State.keepRelease (s : State) (p : PosId) : State :=
  let s := s.modSession p fun x => { x with keepTimer := none }
  (s.releaseClaim p).modSession p Session.keepReleased

end Sys2Proof.Machine
end

