-- ==== Sys2Proof/Machine/Link.lean ====
section
/-! DEFINITION. The Link Interface: the collection of a frame (R167), the screening (R3, R168), repeats (R7), answers
(R5, R169), the end of an answer (R2, R8) and what a site reset does to the ports (R15). -/

namespace Sys2Proof.Machine

/-- What an owning block answers to a request: the outcome code and the answer body (R5, R6). -/
structure Reply where
  code : Code
  body : List Byte
deriving DecidableEq, Repr

/-- What the owning block does with a request: the state it leaves and its answer. -/
abbrev Handler := State → State × Reply

/-- A refusal leaves the state as it was and has no body (R5). -/
def refuse (c : Code) (s : State) : State × Reply := (s, ⟨c, []⟩)

/-- OK without a body. -/
def done (s : State) : State × Reply := (s, ⟨.ok, []⟩)

/-- OK with a body. -/
def doneWith (body : List Byte) (s : State) : State × Reply := (s, ⟨.ok, body⟩)

/-! ### Requests and their frames -/

/-- An intact frame on a port: tag, kind and body (R167). -/
structure Frame where
  port : PortId
  tag : Byte
  kind : Byte
  body : List Byte
deriving DecidableEq, Repr

/-- Whether a port is a dispenser port. -/
def isDispenserPort : PortId → Bool
  | .dispenser _ => true
  | .plant => false
  | .terminal => false
  | .supervisor => false

/-- The body length a kind requires; none for a kind that is not a request kind (R168). READ POSITION's is the length
for the port it arrives on. -/
def bodyLength (p : PortId) (kind : Nat) : Option Nat :=
  match kind with
  | 0x01 => some 0
  | 0x10 => some 1
  | 0x11 => some 0
  | 0x12 => some 0
  | 0x13 => some 0
  | 0x14 => some 0
  | 0x15 => some 7
  | 0x16 => some 3
  | 0x17 => some 9
  | 0x18 => some (if p = .supervisor then 1 else 0)
  | 0x20 => some 18
  | 0x21 => some 2
  | 0x22 => some 0
  | 0x23 => some 1
  | 0x24 => some 0
  | 0x25 => some 0
  | 0x30 => some 12
  | 0x31 => some 5
  | 0x32 => some 5
  | 0x33 => some 4
  | 0x40 => some 34
  | 0x41 => some 0
  | 0x42 => some 0
  | 0x43 => some 0
  | 0x44 => some 1
  | 0x45 => some 5
  | 0x46 => some 4
  | 0x47 => some 0
  | 0x48 => some 0
  | 0x49 => some 1
  | 0x4A => some 4
  | 0x4B => some 0
  | _ => none

/-- Whether a request kind is taken on a port (R4, R168). -/
def takenOn (p : PortId) (kind : Nat) : Bool :=
  if kind = 0x01 then true
  else if kind ≤ 0x17 then isDispenserPort p
  else if kind = 0x18 then isDispenserPort p || p == .supervisor
  else if kind ≤ 0x23 then p == .plant
  else if kind ≤ 0x25 then p == .plant || p == .supervisor
  else if kind ≤ 0x31 then p == .terminal
  else if kind = 0x32 then p == .terminal || p == .supervisor
  else if kind = 0x33 then p == .terminal
  else p == .supervisor

/-- The kind of READ POSITION, whose length depends on its port (R168). -/
def readPositionKind : Nat := 0x18

/-- The screening of an intact frame: the link code it is answered with, or none for a request (R3, R168). -/
def screen (p : PortId) (kind length : Nat) : Option Code :=
  match bodyLength p kind with
  | none => some .unknownKind
  | some n =>
    if kind = readPositionKind ∧ takenOn p kind = false then some .notOnThisPort
    else if length ≠ n then some .badLength
    else if takenOn p kind = false then some .notOnThisPort
    else none

/-! ### Answers -/

/-- An answer frame: outcome code and count of notices waiting, then the answer body (R5, R169). -/
def answerBytes (tag kind : Byte) (r : Reply) (waiting : Nat) : List Byte :=
  frameBytes tag kind ([byteOf r.code.code, byteOf waiting] ++ r.body)

/-- The port begins to send an answer; the record it will take when the answer has been sent stands beside it (R2, R7). -/
def Port.send (x : Port) (answer : List Byte) (record : Option LastAnswer) : Port :=
  { x with exchange := .answering, answer := some answer, toRecord := record }

/-- The Link Interface answers a frame itself; its last-answer record is not changed (R3). -/
def State.answerLink (s : State) (f : Frame) (c : Code) : State :=
  s.modPort f.port fun x => x.send (answerBytes f.tag f.kind ⟨c, []⟩ x.queue.length) none

/-- The record of a request and the answer sent for it (R7). -/
def Frame.record (f : Frame) (answer : List Byte) : LastAnswer := ⟨f.tag, f.kind, f.body, answer⟩

/-- Whether a last-answer record is of a request of the same tag, kind and body (R7). -/
def LastAnswer.isRepeat (l : LastAnswer) (f : Frame) : Bool :=
  l.tag == f.tag && l.kind == f.kind && l.body == f.body

/-- The owning block forms its answer once it has taken the request; the event's notices are in the queues (R5). -/
def State.answerOwner (s : State) (f : Frame) (r : Reply) : State :=
  s.modPort f.port fun x =>
    let answer := answerBytes f.tag f.kind r x.queue.length
    x.send answer (some (f.record answer))

/-- A request is passed to its owning block, which takes it and answers (R2). -/
def State.serve (s : State) (f : Frame) (h : Handler) : State :=
  let s := s.modPort f.port fun x => { x with exchange := .taking }
  let (s, r) := h s
  s.flush.answerOwner f r

/-- An intact frame is taken by a LISTENING port (R2, R3, R7): answered by the screening, answered again as a repeat, or
passed on. -/
def State.takeFrame (s : State) (f : Frame) (h : Handler) : State :=
  match screen f.port f.kind.toNat f.body.length with
  | some c => s.answerLink f c
  | none =>
    match (s.port f.port).last with
    | some l => if l.isRepeat f then s.modPort f.port fun x => x.send l.answer none else s.serve f h
    | none => s.serve f h

/-- The last byte of the answer has been sent (R2, R7, R8): the record is filled and the port listens. -/
def Port.sent (x : Port) : Port :=
  match x.exchange with
  | .answering =>
    { x with
      exchange := .listening
      answer := none
      toRecord := none
      last := match x.toRecord with
        | some r => some r
        | none => x.last }
  | .listening => x
  | .taking => x

/-! ### Collecting a frame -/

/-- What a port makes of the bytes it has collected (R167). -/
inductive Collected where
  /-- no frame has ended: these bytes stand in collection -/
  | more (bytes : List Byte)
  /-- the collection is abandoned or its check fails: the port goes back to hunting for a sync byte -/
  | discard
  /-- an intact frame has ended -/
  | frame (tag kind : Byte) (body : List Byte)
deriving DecidableEq, Repr

/-- One more byte for a port with these bytes in collection (R167). -/
def collect (held : List Byte) (b : Byte) : Collected :=
  let bytes := held ++ [b]
  match bytes with
  | [] => .discard
  | [sync] => if sync = syncByte then .more bytes else .discard
  | [_, _] => .more bytes
  | [_, _, _] => .more bytes
  | _ :: tag :: kind :: len :: rest =>
    if 240 < len.toNat then .discard
    else if rest.length < len.toNat + 2 then .more bytes
    else
      let body := rest.take len.toNat
      if unbe (rest.drop len.toNat) = (crc (tag :: kind :: len :: body)).toNat then .frame tag kind body else .discard

/-! ### Site reset -/

/-- What a site reset does to a port (R8, R15): its notices go, and every last-answer record but the supervisor's. -/
def Port.atReset (p : PortId) (x : Port) : Port :=
  if p = .supervisor then { x with queue := [] } else { x with queue := [], last := none, toRecord := none }

/-- The Link Interface's site-reset actions (R15). -/
def State.resetPorts (s : State) : State := { s with ports := s.ports.map Port.atReset }

/-! ### READ NOTICES -/

/-- READ NOTICES on a port (R12, R169): up to 8 of the oldest notices, removed from the queue. -/
def readNoticesRequest (p : PortId) : Handler := fun s =>
  let q := (s.port p).queue
  match q with
  | [] => refuse .none s
  | _ :: _ =>
    let given := q.take 8
    doneWith (byteOf given.length :: given.flatMap Notice.entry) (s.modPort p fun x => { x with queue := x.queue.drop 8 })

end Sys2Proof.Machine
end

