-- ==== Sys2Proof/Machine/Monitor.lean ====
section
/-! DEFINITION. The Position Monitor and the dispenser port's requests: NOZZLE (R103), PROGRESS (R105), FINAL METER
(R108), VEHICLE FRAME (R109 to R112), START (R119 to R121), STOP, PAUSE and CONTINUE (R140). -/

namespace Sys2Proof.Machine

/-! ### NOZZLE -/

/-- The latest progress values become absent and the progress timer stops (R103, step 1). -/
def Monitor.forgetProgress (x : Monitor) : Monitor :=
  { x with pressure := none, temperature := none, mass := none, progressTimer := none, silenced := false }

/-- The vehicle record is cleared to NONE (R103, step 2). -/
def Monitor.clearRecord (x : Monitor) : Monitor :=
  { x with record := .empty, vehicle := none, errors := 0, ageTimer := none }

/-- The nozzle leaves CONNECTED (R103 step 1, R104). -/
def State.nozzleLeaves (s : State) (p : PosId) : State :=
  (s.modMonitor p Monitor.forgetProgress).endWith p .disconnected

/-- A nozzle state different from the one held (R103). -/
def State.nozzleChange (s : State) (p : PosId) (n : NozzleState) : State :=
  let former := (s.monitor p).nozzle
  let s := s.modMonitor p fun x => { x with nozzle := n }
  let s := if former = .connected then s.nozzleLeaves p else s
  let s := if n = .holstered then s.modMonitor p Monitor.clearRecord else s
  if n = .connected then s.restartProgress p else s

/-- NOZZLE (R103). -/
def nozzleRequest (p : PosId) (value : Nat) : Handler := fun s =>
  match nozzleOf? value with
  | none => refuse .outOfRange s
  | some n => if n = (s.monitor p).nozzle then done s else done (s.nozzleChange p n)

/-! ### PROGRESS -/

/-- Whether a report comes together with the running out of the progress timer that has ended its session: no time has
passed since, and no report has been taken. The manual has such a report answered with ENDED (R107, log entry 30). -/
def State.metSilent (s : State) (p : PosId) : Bool :=
  let x := s.session p
  (s.monitor p).silenced && x.endReason == some .dispenserSilent && (x.state == .ended || x.state == .closing)

/-- Whether the answer to a PROGRESS names ENDED once the report has been taken, should the session not run then: it runs
until the report, or the report comes together with the running out of the progress timer (R106, R107). -/
def State.namesEnded (s : State) (p : PosId) : Bool := (s.session p).running || s.metSilent p

/-- The session state that the answer to a PROGRESS carries, told whether it names ENDED: ENDED for a session that does not
run, although it is CLOSING already where it has taken the free closing register within the event that ended it (R159, log
entry 30); otherwise the state that stands, CLOSING among them (R106). -/
def State.shownState (s : State) (p : PosId) (named : Bool) : SessionState :=
  if named && !(s.session p).running then .ended else (s.session p).state

/-- The answer body of a PROGRESS taken, told whether it names ENDED: command, session state, phase, end reason (R106,
R170). The command is the one that stands once the report has been taken: a report in HELD that ends the hold at once is
answered with FLOW or PULSE, although R141 has the answer to a report in HELD carry CLOSED (log entry 33). -/
def State.progressBody (s : State) (p : PosId) (named : Bool) : List Byte :=
  let x := s.session p
  x.command.bytes ++ [byteOf (s.shownState p named).code, optCode (x.phase.map (·.code)), endReasonByte x.endReason]

/-- The Position Monitor keeps a report (R105, step 1), and the dispenser is no longer silent. -/
def Monitor.keepReport (x : Monitor) (pressure temperature mass : Nat) : Monitor :=
  { x with pressure := some pressure, temperature := some temperature, mass := some mass, silenced := false }

/-- The effect of a PROGRESS taken while the nozzle is CONNECTED (R105 steps 1 to 3). -/
def State.takeProgress (s : State) (p : PosId) (pressure temperature mass : Nat) : State :=
  let s := s.modMonitor p fun x => x.keepReport pressure temperature mass
  (s.restartProgress p).takeReport p pressure temperature mass

/-- PROGRESS (R105). -/
def progressRequest (p : PosId) (pressure temperature mass : Nat) : Handler := fun s =>
  if 99999 < mass then refuse .outOfRange s
  else if (s.monitor p).nozzle ≠ .connected then refuse .wrongState s
  else
    let named := s.namesEnded p
    let s := s.takeProgress p pressure temperature mass
    doneWith (s.progressBody p named) s

/-! ### FINAL METER -/

/-- FINAL METER (R108, R160). -/
def finalMeterRequest (p : PosId) (mass : Nat) : Handler := fun s =>
  if 99999 < mass then refuse .outOfRange s
  else
    match (s.session p).state with
    | .ended => done (s.modSession p fun x => { x with finalMass := some mass })
    | .closing =>
      let s := s.modSession p fun x => { x with finalMass := some mass }
      done (s.completeClosing p).serveCloseQueue
    | .idle => refuse .wrongState s
    | .opening => refuse .wrongState s
    | .connecting => refuse .wrongState s
    | .delivering => refuse .wrongState s
    | .held => refuse .wrongState s

/-! ### Vehicle data -/

/-- The content of a relayed vehicle frame (R109). -/
structure VehicleReport where
  checkPassed : Bool
  fuelClass : FuelClass
  volume : Nat
  pressure : Nat
  temperature : Nat
  command : FuelCommand
deriving DecidableEq, Repr

/-- The fuel class a frame must carry: the session's while one is open, otherwise the configuration's (R109). -/
def State.frameClass (s : State) (p : PosId) : Option FuelClass :=
  if (s.session p).isOpen then (s.session p).fuelClass else s.config.positionClass p

/-- Whether a frame is valid (R109). -/
def State.frameValid (s : State) (p : PosId) (f : VehicleReport) : Bool :=
  f.checkPassed && (s.frameClass p == some f.fuelClass) && f.volume != 0 && decide (f.pressure ≤ 12000)
    && decide (2000 ≤ f.temperature) && decide (f.temperature ≤ 3800)

/-- The reference density for a frame's state of charge (R44). -/
def State.frameReference (s : State) (p : PosId) (f : VehicleReport) : Nat :=
  if (s.session p).isOpen then (s.session p).refDensity.getD 0 else s.config.refDensity f.fuelClass

/-- A valid frame enters the vehicle record (R110 steps 1 to 4). -/
def State.recordFrame (s : State) (p : PosId) (f : VehicleReport) : State :=
  let soc := stateOfCharge (density s.config f.pressure f.temperature) (s.frameReference p f)
  let mass := tankMass s.config f.pressure f.temperature f.volume
  s.modMonitor p fun x =>
    { x with
      record := .valid
      vehicle := some ⟨f.fuelClass, f.volume, f.pressure, f.temperature, f.command, soc, mass⟩
      errors := 0
      ageTimer := some s.config.vehicleTimeout }

/-- A valid frame is taken (R110). Step 5 comes after its command has acted: a RUN frame that ends a hold with a resume
delay of 0 finds its session in DELIVERING (log entry 31). -/
def State.takeValidFrame (s : State) (p : PosId) (f : VehicleReport) : State :=
  ((s.recordFrame p f).obeyVehicle p f.command).frameCriteria p

/-- The vehicle record becomes LOST (R112). -/
def State.vehicleLost (s : State) (p : PosId) (cause : LossCause) : State :=
  let s := s.modMonitor p fun x => { x with record := .lost, vehicle := none, ageTimer := none }
  (s.post (.vehicleDataLost p cause)).loseVehicle p

/-- The error count after an invalid frame: one more, but not beyond the limit in force, and at the limit set to it
(R111 steps 2 and 3). -/
def errorsAfter (errors limit : Nat) : Nat := if errors < limit then errors + 1 else limit

/-- An invalid frame is taken (R111). -/
def State.takeInvalidFrame (s : State) (p : PosId) : State :=
  let limit := s.config.vehicleErrorLimit
  let s := s.modMonitor p fun x => { x with errors := errorsAfter x.errors limit }
  if limit ≤ (s.monitor p).errors ∧ (s.monitor p).record ≠ .lost then s.vehicleLost p .errors else s

/-- VEHICLE FRAME with named values of its own (R109). -/
def State.takeVehicleFrame (s : State) (p : PosId) (f : VehicleReport) : State × Reply :=
  if (s.monitor p).nozzle = .holstered then refuse .wrongState s
  else
    let valid := s.frameValid p f
    let s := if valid then s.takeValidFrame p f else s.takeInvalidFrame p
    let x := s.monitor p
    doneWith [byteOf (boolCode valid), byteOf x.record.code, byteOf x.errors] s

/-- VEHICLE FRAME (R109): a class or command outside its codes is out of range (R168). -/
def vehicleFrameRequest (p : PosId) (check cls volume pressure temperature command : Nat) : Handler := fun s =>
  match fuelClassOf? cls, fuelCommandOf? command with
  | some c, some k => s.takeVehicleFrame p ⟨check == 1, c, volume, pressure, temperature, k⟩
  | _, _ => refuse .outOfRange s

/-! ### START -/

/-- The first permitted entry along a degrade chain (R120). A chain has at most four entries, which the number bounds. -/
def findPermitted (c : SiteConfig) : Nat → Nat → Option Nat
  | 0, _ => none
  | n + 1, i =>
    if (c.profile i).permitted then some i
    else
      match (c.profile i).degradeTo with
      | some k => findPermitted c n k
      | none => none

/-- The profile a new session of a fuel class would run under (R120). -/
def State.selectProfile (s : State) (f : FuelClass) : Option Nat :=
  findPermitted s.config 4 (f.code * 24 + s.config.preferredClass f * 6 + s.site.ambientBand)

/-- Room for one more record and one more sequence number (R119, condition 6). -/
def State.recordRoom (s : State) : Bool :=
  let n := s.openPositions.length
  decide (s.sales.records.length + n < 64) && s.sales.counter != 0 && decide (s.sales.counter ≤ Config.maxWord - n)

/-- The outcome of a START before the profile is looked for (R119 conditions 1 to 6). -/
def State.startRefusal (s : State) (p : PosId) : Option Code :=
  if s.site.mode ≠ .serving then some .wrongState
  else if (s.session p).state = .ended ∨ (s.session p).state = .closing then some .busy
  else if (s.session p).state ≠ .idle then some .wrongState
  else if !s.config.enabled p then some .notPermitted
  else if (s.monitor p).nozzle ≠ .connected then some .wrongState
  else if (s.sales.slots.get p).isNone then some .noAuthorization
  else if !s.recordRoom then some .recordsFull
  else none

/-- The starting values of a session record (R121 steps 1 and 2, R45, R117). -/
def State.opened (s : State) (p : PosId) (a : Authorization) (f : FuelClass) (k : Nat) : Session :=
  let flag := if (s.monitor p).record = .valid then CommFlag.comm else CommFlag.nonComm
  { Session.idle with
    state := .opening
    auth := some a
    fuelClass := some f
    refDensity := some (s.config.refDensity f)
    siteMaxMass := some (s.config.siteMaxMass f)
    cascade := s.config.cascade f
    profileAtStart := some k
    profile := some k
    precoolAtStart := some (precoolOfProfile k)
    comm := some flag
    startTime := some s.site.siteTime
    flags := { SessionFlags.none with nonComm := flag == .nonComm } }

/-- The armed authorization of a position is consumed (R121 step 1, R154). -/
def State.consume (s : State) (p : PosId) (a : Authorization) : State :=
  (s.modSales fun u => { u with slots := u.slots.set p none }).post (.authorizationConsumed p a.reference)

/-- An accepted START (R121 steps 1 to 4). -/
def State.openSession (s : State) (p : PosId) (a : Authorization) (f : FuelClass) (k : Nat) : State :=
  let x := s.opened p a f k
  let s := (s.consume p a).modSession p fun _ => x
  let s := s.postSession p
  s.requestCooling p (s.config.profile k).coolingDemand (s.config.profile k).coolingWaitLimit

/-- The answer body of START (R121 step 5, R173). -/
def State.startBody (s : State) (p : PosId) (reference k : Nat) : List Byte :=
  let x := s.session p
  be 4 reference ++ [byteOf k, optCode (x.comm.map (·.code)), byteOf x.state.code, optCode (x.phase.map (·.code))]

/-- START (R119, R121). -/
def startRequest (p : PosId) : Handler := fun s =>
  match s.startRefusal p with
  | some c => refuse c s
  | none =>
    match s.config.positionClass p, s.sales.slots.get p with
    | some f, some armed =>
      match s.selectProfile f with
      | none => refuse .notPermitted s
      | some k =>
        if (s.config.profile k).vehicleDataMandatory = true ∧ (s.monitor p).record ≠ .valid then refuse .notPermitted s
        else
          let s := s.openSession p armed.auth f k
          doneWith (s.startBody p armed.auth.reference k) s
    | _, _ => refuse .notPermitted s

/-! ### STOP, PAUSE, CONTINUE -/

/-- STOP (R140). -/
def stopRequest (p : PosId) : Handler := fun s =>
  if (s.session p).running then done (s.endWith p .customerStop) else refuse .wrongState s

/-- PAUSE (R140). -/
def pauseRequest (p : PosId) : Handler := fun s =>
  if (s.session p).running then done (s.setFactor p .pause) else refuse .wrongState s

/-- CONTINUE (R140). -/
def continueRequest (p : PosId) : Handler := fun s =>
  if (s.session p).running then done (s.clearFactor endNow p .pause) else refuse .wrongState s

end Sys2Proof.Machine
end

