-- ==== Sys2Proof/Machine/Operands.lean ====
section
/-! DEFINITION. The entries of LOAD TABLE: read from the bytes of a request with every check made at load (R26 to R31,
R156, R172), and laid out again for READ SITE (R173). Offsets are those of the 34-byte LOAD TABLE body less 2: an entry
is bytes 2 to 33 of that body. -/

namespace Sys2Proof.Machine

/-- A value of a field's range, or none when it lies outside. -/
def inRange (lo hi n : Nat) : Option Nat := if lo ≤ n ∧ n ≤ hi then some n else none

/-- Bytes laid out in the 32 bytes of an entry, the rest 0 (R173). -/
def padEntry (l : List Byte) : List Byte := l ++ List.replicate (32 - l.length) 0

/-- A density row: 16 densities of two bytes, each 0 to 65535 (R27). -/
def readDensityRow (e : List Byte) : List Nat := (List.range 16).map fun j => field e (2 * j) 2

def densityRowBytes (row : List Nat) : List Byte := padEntry (row.flatMap (be 2))

/-- Whether a degrade-to index is accepted for an entry (R28): greater, the same ambient band, the same fuel class. -/
def degradeAccepted (x k : Nat) : Bool := x < k && (k - x) % 6 == 0 && (k / 24 == x / 24) && k < 48

/-- The degrade-to byte of an entry: 255 none, or an accepted index (R28, R172). -/
def readDegrade (x n : Nat) : Option (Option Nat) :=
  if n = 255 then some none else if degradeAccepted x n then some (some n) else none

/-- The MAWP of the fuel class of a profile index (R28). -/
def profileMawp (i : Nat) : Nat := if i < 24 then 8750 else 4375

/-- The greatest cooling demand of a profile index: 0 for precool class T0 (R28). -/
def demandLimit (i : Nat) : Nat := if precoolOfProfile i = .t0 then 0 else 50000

/-- A profile entry with every field checked against its range (R28, R172). -/
def readProfile (i : Nat) (e : List Byte) : Option Profile := do
  let permitted ← boolOf? (field e 0 1)
  let rampRate ← inRange 1 1000 (field e 1 2)
  let endPressure ← inRange 1 (profileMawp i) (field e 3 2)
  let nonCommEndPressure ← inRange 1 endPressure (field e 5 2)
  let socTarget ← inRange 800 1000 (field e 7 2)
  let segmentLength ← inRange 10 50 (field e 9 1)
  let settleInterval ← inRange 0 50 (field e 10 1)
  let leakCheckHold ← inRange 10 100 (field e 11 1)
  let leakDropLimit ← inRange 1 500 (field e 12 2)
  let overshoot ← inRange 0 700 (field e 14 2)
  let switchMargin ← inRange 10 1000 (field e 16 2)
  let warmGrace ← inRange 0 600 (field e 18 2)
  let resumeDelay ← inRange 0 300 (field e 20 2)
  let holdLimit ← inRange 100 6000 (field e 22 2)
  let coolingDemand ← inRange 0 (demandLimit i) (field e 24 2)
  let coolingWaitLimit ← inRange 0 3000 (field e 26 2)
  let closingAnticipation ← inRange 0 500 (field e 28 2)
  let vehicleDataMandatory ← boolOf? (field e 30 1)
  let degradeTo ← readDegrade i (field e 31 1)
  pure {
    permitted, rampRate, endPressure, nonCommEndPressure, socTarget, segmentLength, settleInterval, leakCheckHold,
    leakDropLimit, overshoot, switchMargin, warmGrace, resumeDelay, holdLimit, coolingDemand, coolingWaitLimit,
    closingAnticipation, vehicleDataMandatory, degradeTo }

def profileBytes (f : Profile) : List Byte :=
  padEntry (be 1 (boolCode f.permitted) ++ be 2 f.rampRate ++ be 2 f.endPressure ++ be 2 f.nonCommEndPressure
    ++ be 2 f.socTarget ++ be 1 f.segmentLength ++ be 1 f.settleInterval ++ be 1 f.leakCheckHold
    ++ be 2 f.leakDropLimit ++ be 2 f.overshoot ++ be 2 f.switchMargin ++ be 2 f.warmGrace ++ be 2 f.resumeDelay
    ++ be 2 f.holdLimit ++ be 2 f.coolingDemand ++ be 2 f.coolingWaitLimit ++ be 2 f.closingAnticipation
    ++ be 1 (boolCode f.vehicleDataMandatory) ++ [optCode f.degradeTo])

/-- A bank entry (R29, R172). -/
def readBankEntry (e : List Byte) : Option BankEntry := do
  let volume ← inRange 1 20000 (field e 0 2)
  let ratedPressure ← inRange 1 12000 (field e 2 2)
  let refillStop ← inRange 1 ratedPressure (field e 6 2)
  let refillStart ← inRange 0 (refillStop - 1) (field e 4 2)
  pure { volume, ratedPressure, refillStart, refillStop }

def bankEntryBytes (x : BankEntry) : List Byte :=
  padEntry (be 2 x.volume ++ be 2 x.ratedPressure ++ be 2 x.refillStart ++ be 2 x.refillStop)

/-- A cascade list: 1 to 4 banks, none named twice; the places beyond the number are not examined (R29, R172). -/
def readCascade (e : List Byte) : Option (List BankId) := do
  let n ← inRange 1 4 (field e 0 1)
  let l ← ((e.drop 1).take n).mapM fun b => fourOf? b.toNat
  if l.Nodup then some l else none

def cascadeBytes (l : List BankId) : List Byte :=
  padEntry (byteOf l.length :: l.map fun b => byteOf b.val)

/-- A position entry (R30, R172). -/
def readPositionEntry (e : List Byte) : Option PositionEntry := do
  let enabled ← boolOf? (field e 0 1)
  let fuelClass ← fuelClassOf? (field e 1 1)
  pure { enabled, fuelClass }

def positionEntryBytes (x : PositionEntry) : List Byte :=
  padEntry (be 1 (boolCode x.enabled) ++ be 1 x.fuelClass.code)

/-- The range of each site parameter, by index (R31); parameters 2 and 3 hold a precool class code (R172). -/
def paramRanges : List (Nat × Nat) :=
  [(1, 65535), (1, 65535), (0, 3), (0, 3), (1, 99999), (1, 99999), (5, 600), (1, 20), (5, 600), (10, 3000), (5, 600),
    (10, 6000), (10, 6000), (0, 3000), (50, 36000), (3600, 604800), (1, 10000), (1, 10000), (1, 10000), (1, 10000),
    (0, 1000), (0, 10000), (10, 2000), (1, 3600)]

/-- The value of the site parameter of an index (R31). -/
def readParam (i : Nat) (e : List Byte) : Option Nat :=
  match paramRanges[i]? with
  | some (lo, hi) => inRange lo hi (field e 0 4)
  | none => none

/-- A tariff price (R156). -/
def readPrice (n : Nat) : Option Nat := inRange 0 999999 n

end Sys2Proof.Machine
end

