-- ==== Sys2Proof/Machine/Site.lean ====
section
/-! DEFINITION. Site Control's tables: validation (R17, R18), the loading of one entry (R26), the ambient band (R32),
and what of the site a request reads (R35). -/

namespace Sys2Proof.Machine

/-! ### Validation -/

/-- Whether every density of a row is at least the one in the same column of the row before it (R18). -/
def notBelow (row before : List Nat) : Bool := (List.range 16).all fun j => before.getD j 0 ≤ row.getD j 0

/-- Whether no density of a row is greater than the one in the column before it (R18). -/
def notRising (row : List Nat) : Bool := (List.range 15).all fun j => row.getD (j + 1) 0 ≤ row.getD j 0

/-- Whether a density row fails validation (R18). -/
def densityRowFails (c : SiteConfig) (i : Nat) : Bool :=
  match c.density.getD i none with
  | none => true
  | some row =>
    if i = 0 then !((List.range 16).all fun j => row.getD j 0 == 0)
    else !(notBelow row ((c.density.getD (i - 1) none).getD []) && notRising row)

/-- Whether an entry of the bank configuration fails validation (R18). -/
def bankEntryFails (c : SiteConfig) : Nat → Bool
  | 0 => (c.banks.get 0).isNone
  | 1 => (c.banks.get 1).isNone
  | 2 => (c.banks.get 2).isNone
  | 3 => (c.banks.get 3).isNone
  | 4 => c.cascadeH70.isNone
  | _ => c.cascadeH35.isNone

/-- Whether an entry of the position configuration fails validation (R18). -/
def positionEntryFails (c : SiteConfig) : Nat → Bool
  | 0 => (c.positions.get 0).isNone
  | 1 => (c.positions.get 1).isNone
  | 2 => (c.positions.get 2).isNone
  | _ => (c.positions.get 3).isNone

/-- The entries of every table with whether each fails, in the order R18 examines them: table kind code, index. -/
def entryChecks (c : SiteConfig) : List (Nat × Nat × Bool) :=
  ((List.range 25).map fun i => (0, i, densityRowFails c i))
    ++ ((List.range 48).map fun i => (1, i, (c.profiles.getD i none).isNone))
    ++ ((List.range 6).map fun i => (2, i, bankEntryFails c i))
    ++ ((List.range 4).map fun i => (3, i, positionEntryFails c i))
    ++ [(4, 0, c.params.isNone)]

/-- The first entry that fails, by table kind code and index; none when the configuration is valid (R18). -/
def validate (c : SiteConfig) : Option (Nat × Nat) :=
  ((entryChecks c).find? fun x => x.2.2).map fun x => (x.1, x.2.1)

/-! ### Loading one entry -/

/-- How many indexes a table kind has (R26). -/
def tableSize : Nat → Option Nat
  | 0 => some 25
  | 1 => some 48
  | 2 => some 6
  | 3 => some 4
  | 4 => some 24
  | 5 => some 16
  | _ => none

/-- A configuration with one entry loaded, or none when the entry fails a check made at load (R26 to R31). -/
def SiteConfig.load (c : SiteConfig) (table index : Nat) (e : List Byte) : Option SiteConfig :=
  match table with
  | 0 => some { c with density := c.density.set index (some (readDensityRow e)) }
  | 1 => (readProfile index e).map fun x => { c with profiles := c.profiles.set index (some x) }
  | 2 =>
    match fourOf? index with
    | some b => (readBankEntry e).map fun x => { c with banks := c.banks.set b (some x) }
    | none =>
      (readCascade e).map fun l => if index = 4 then { c with cascadeH70 := some l } else { c with cascadeH35 := some l }
  | 3 =>
    match fourOf? index with
    | some p => (readPositionEntry e).map fun x => { c with positions := c.positions.set p (some x) }
    | none => none
  | 4 => (readParam index e).map fun v => { c with params := some ((c.params.getD paramDefaults).set index v) }
  | _ => none

/-! ### Reading one entry -/

/-- The 32 bytes of one entry, or none while it has never been loaded (R35, R173). -/
def SiteConfig.entryBytes (c : SiteConfig) (table index : Nat) : Option (List Byte) :=
  match table with
  | 0 => (c.density.getD index none).map densityRowBytes
  | 1 => (c.profiles.getD index none).map profileBytes
  | 2 =>
    match fourOf? index with
    | some b => (c.banks.get b).map bankEntryBytes
    | none => (if index = 4 then c.cascadeH70 else c.cascadeH35).map cascadeBytes
  | 3 =>
    match fourOf? index with
    | some p => (c.positions.get p).map positionEntryBytes
    | none => none
  | 4 => c.params.map fun l => padEntry (be 4 (l.getD index 0))
  | _ => none

/-- The five counts of loaded entries, the site-parameter table counted as 0 or 24 (R35, R173). -/
def SiteConfig.loadedCounts (c : SiteConfig) : List Nat :=
  [c.density.countP (·.isSome), c.profiles.countP (·.isSome),
    c.banks.toList.countP (·.isSome) + boolCode c.cascadeH70.isSome + boolCode c.cascadeH35.isSome,
    c.positions.toList.countP (·.isSome), if c.params.isSome then 24 else 0]

/-! ### Ambient band -/

/-- The ambient band of an ambient temperature, compared as reported (R32). -/
def ambientBandOf (t : Nat) : Nat :=
  if t < 2631 then 0 else if t < 2781 then 1 else if t < 2931 then 2 else if t < 3031 then 3 else if t < 3131 then 4
  else 5

/-- The working configuration is discarded when the site leaves SERVICE otherwise than by LEAVE SERVICE (R21). -/
def State.discardWorking (s : State) : State := s.modSite fun x => { x with working := none }

end Sys2Proof.Machine
end

