-- ==== Sys2Proof/Machine/Storage.lean ====
section
/-! DEFINITION. The Bank Manager's events: BANK STATUS (R52, R63, R69, R71), the running out of the freshness, yield and
proof timers (R54, R75, R81), COOLING CAPACITY (R88), REFILL NEXT and REFILL END (R70, R72), CLEAR SUSPECT (R83), and what it does at an
emergency stop and a site reset (R67, R68, R84, R85). -/

namespace Sys2Proof.Machine

/-! ### BANK STATUS -/

/-- A reported pressure and temperature. -/
structure Reading where
  pressure : Nat
  temperature : Nat
deriving DecidableEq, Repr

/-- A bank record takes a report; its mass is computed (R52 step 1, R53). -/
def State.reportBank (s : State) (b : BankId) (r : Reading) : State :=
  let mass := bankMass s.config b r.pressure r.temperature
  s.modBank b fun x =>
    { x with pressure := some r.pressure, temperature := some r.temperature, mass := some mass }

/-- The ambient temperature and the band it gives (R52 step 2, R32). -/
def State.reportAmbient (s : State) (t : Nat) : State :=
  (s.modBm fun m => { m with ambient := some t }).modSite fun x => { x with ambientBand := ambientBandOf t }

/-- A session that awaits fresh data makes its selection (R125). -/
def State.selectOnFresh (s : State) (p : PosId) : State :=
  if (s.session p).awaitingFresh then
    (s.modSession p fun x => { x with awaitingFresh := false, bankWaitTimer := none }).selectBank endNow p
  else s

/-- A Fill Engine is told that bank data are fresh (R52 step 3, R139, R125). -/
def State.toldFresh (s : State) (p : PosId) : State :=
  if (s.session p).running then (s.clearFactor endNow p .bank).selectOnFresh p else s

/-- The banks become FRESH if they were STALE, and the Fill Engines are told in increasing position number (R52). -/
def State.becomeFresh (s : State) : State :=
  match s.bm.freshness with
  | .fresh => s
  | .stale => inOrder (fun p s => s.toldFresh p) (s.modBm fun m => { m with freshness := .fresh })

/-- A waiter is removed from its wait queue and selects again (R63, R126). -/
def State.removeWaiter (s : State) (p : PosId) : State := (s.leaveQueue p).selectBank endNow p

/-- A waiter is tested against its awaited bank (R63). -/
def State.testWaiter (b : BankId) (s : State) (p : PosId) : State :=
  if decide ((s.session p).awaited = some b) && !s.usable b p then s.removeWaiter p else s

/-- The wait queue of a bank is tested from its head (R63). -/
def State.testQueue (s : State) (b : BankId) : State := (s.bank b).queue.foldl (State.testWaiter b) s

/-- The refill in flight ends COMPLETE when its stop threshold is reached (R71). -/
def State.completeRefill (s : State) : State :=
  match s.bm.refillInFlight with
  | none => s
  | some b =>
    match s.config.banks.get b with
    | none => s
    | some e => if e.refillStop ≤ (s.bank b).pressure.getD 0 then s.endRefill b .complete else s

/-- A bank is examined for entry to the refill list (R69). -/
def State.listIfLow (s : State) (b : BankId) : State :=
  if s.belowStart b = true ∧ (s.bank b).proofState ≠ .suspect ∧ s.bm.refillInFlight ≠ some b then s.enterRefillList b
  else s

/-- The refill and proof consequences of a report, in the order of R69. -/
def State.reportConsequences (s : State) : State :=
  (inOrder (fun b s => s.listIfLow b) s.completeRefill).proofExaminations

/-- A bank status report is taken (R52). -/
def State.takeBankStatus (s : State) (r : Quad Reading) (ambient : Nat) : State :=
  let s := inOrder (fun b s => s.reportBank b (r.get b)) s
  let s := (s.reportAmbient ambient).becomeFresh
  let s := s.modBm fun m => { m with freshnessTimer := some s.config.bankReportTimeout }
  (inOrder (fun b s => s.testQueue b) s).reportConsequences

/-- BANK STATUS (R52). -/
def bankStatusRequest (r : Quad Reading) (ambient : Nat) : Handler := fun s => done (s.takeBankStatus r ambient)

/-! ### COOLING CAPACITY -/

/-- COOLING CAPACITY (R88). -/
def coolingCapacityRequest (capacity : Nat) : Handler := fun s =>
  if 50000 < capacity then refuse .outOfRange s else done (s.takeCapacity capacity)

/-! ### Timers -/

/-- The position that holds a bank, if one does. -/
def Holder.position? : Holder → Option PosId
  | .position p => some p
  | .free => none
  | .refill => none
  | .proof => none

/-- The Fill Engine of a bank's claim holder is told to set its BANK hold factor (R54). -/
def State.tellStale (s : State) (b : BankId) : State :=
  match (s.bank b).holder.position? with
  | some p => s.setFactor p .bank
  | none => s

/-- The freshness timer runs out (R54). -/
def State.freshnessRunsOut (s : State) : State :=
  let s := s.modBm fun m => { m with freshness := .stale, freshnessTimer := none }
  let s := inOrder (fun b s => s.tellStale b) (s.post .bankDataStale)
  inOrder (fun b s => s.abandonAndFree b) s

/-- The yield timer runs out (R75). -/
def State.yieldRunsOut (s : State) : State :=
  match s.bm.refillInFlight with
  | some b => s.endRefill b .yield
  | none => s.modBm fun m => { m with yieldTimer := none }

/-- The decay a proof has measured (R81). -/
def Bank.decay (x : Bank) (f : ProofFields) : Nat := f.massAtStart - x.mass.getD 0

/-- PROOF releases a bank after a verdict on a forced proof (R81 step 4 or 2, R62). -/
def State.releaseProof (s : State) (b : BankId) (kind : ProofKind) : State :=
  match kind with
  | .opportunistic => s
  | .forced => (s.undesignate b).handOn b

/-- A proof has failed (R81). -/
def State.failProof (s : State) (b : BankId) (decay : Nat) (kind : ProofKind) : State :=
  let s := (s.endProof b .suspect).modBank b fun x => { x with overdue := false }
  ((s.post (.bankSuspect b decay)).leaveRefillList b).releaseProof b kind

/-- A proof has passed (R81). -/
def State.passProof (s : State) (b : BankId) (kind : ProofKind) : State :=
  let now := s.site.siteTime
  ((s.endProof b .proven).modBank b fun x => { x with overdue := false, provenAt := some now }).releaseProof b kind

/-- A proof timer runs out: the verdict (R81). -/
def State.proofRunsOut (s : State) (b : BankId) (f : ProofFields) : State :=
  let decay := (s.bank b).decay f
  if s.config.decayLimit b < decay then s.failProof b decay f.kind else s.passProof b f.kind

/-! ### Refill requests -/

/-- The first bank of the refill list whose claim holder is FREE (R70). -/
def State.refillCandidate (s : State) : Option BankId := s.bm.refillList.find? fun b => (s.bank b).holder == .free

/-- A bank is given to the compressor (R70, step 4). -/
def State.beginRefill (s : State) (b : BankId) : State :=
  let s := (s.abandonProof b).modBank b fun x => { x with holder := .refill }
  (s.leaveRefillList b).modBm fun m => { m with refillInFlight := some b, yieldTimer := none }

/-- REFILL NEXT (R70). -/
def refillNextRequest : Handler := fun s =>
  if s.bm.refillInFlight.isSome then refuse .busy s
  else if s.bm.freshness = .stale then refuse .none s
  else
    match s.refillCandidate with
    | none => refuse .none s
    | some b => doneWith [byteOf b.val] (s.beginRefill b)

/-- REFILL END (R72). -/
def refillEndRequest (bank : Nat) : Handler := fun s =>
  match fourOf? bank with
  | none => refuse .outOfRange s
  | some b => if s.bm.refillInFlight = some b then done (s.endRefill b .aborted) else refuse .wrongState s

/-- CLEAR SUSPECT (R83). -/
def clearSuspectRequest (bank : Nat) : Handler := fun s =>
  match fourOf? bank with
  | none => refuse .outOfRange s
  | some b =>
    if (s.bank b).proofState = .suspect then
      done (s.modBank b fun x => { x with proofState := .unproven, provenAt := none, overdue := false })
    else refuse .wrongState s

/-! ### Emergency stop and site reset -/

/-- A claim held by a position is cleared with its snapshot at release, without hand-off (R67 step 1, R68 step 1). -/
def State.clearClaim (s : State) (b : BankId) : State :=
  match (s.bank b).holder.position? with
  | some p => ((s.snapshotRelease b p).forgetBank p).modBank b fun x => { x with holder := .free }
  | none => s

/-- A position stands in no wait queue any more; its Fill Engine is not told (R67 step 2, R68 step 2). -/
def State.forgetAwaited (s : State) (p : PosId) : State := s.modSession p fun x => { x with awaited := none }

/-- Every claim of a position and every wait queue is cleared (R67, R68 steps 1 and 2; R74 for the yield timer). -/
def State.clearClaims (s : State) : State :=
  let s := inOrder (fun b s => s.clearClaim b) s
  let s := inOrder (fun b s => s.modBank b fun x => { x with queue := [] }) s
  (inOrder (fun p s => s.forgetAwaited p) s).settleYield

/-- A refill in flight ends ABORTED, without proof examinations (R84 step 1, R85 step 1, R73 step 5). -/
def State.abortRefill (s : State) : State :=
  match s.bm.refillInFlight with
  | some b => s.refillEnds b .aborted
  | none => s

/-- The Bank Manager's emergency-stop actions (R67, R84). -/
def State.stopBanks (s : State) : State := inOrder (fun b s => s.abandonAndFree b) s.clearClaims.abortRefill

/-- The Bank Manager's site-reset actions (R68, R85). -/
def State.resetBanks (s : State) : State :=
  inOrder (fun b s => s.modBank b fun x => { x with overdue := false }) s.stopBanks

end Sys2Proof.Machine
end

