-- ==== Sys2Proof/Machine/Reading.lean ====
section
/-! DEFINITION. The reading requests, which change no state: READ POSITION (R115), READ BANKS (R66), READ COOLING (R98),
READ SITE (R35), READ RECORD (R163), with their layouts (R171, R173). -/

namespace Sys2Proof.Machine

/-! ### READ POSITION -/

/-- A code of an optional named value, 255 for absent. -/
def optOf {α : Type} (f : α → Nat) (x : Option α) : Byte := optCode (x.map f)

/-- The Position Monitor's part of a READ POSITION body, offsets 0 to 37 (R173). -/
def Monitor.bytes (x : Monitor) : List Byte :=
  be 1 x.nozzle.code ++ optField 2 x.pressure ++ optField 2 x.temperature ++ optField 3 x.mass
    ++ optField 2 x.progressTimer ++ be 1 x.record.code ++ [optOf (·.fuelClass.code) x.vehicle]
    ++ optField 2 (x.vehicle.map (·.volume)) ++ optField 2 (x.vehicle.map (·.pressure))
    ++ optField 2 (x.vehicle.map (·.temperature)) ++ [optOf (·.command.code) x.vehicle]
    ++ optField 2 (x.vehicle.map (·.soc)) ++ optField 4 (x.vehicle.map (·.tankMass)) ++ be 1 x.errors
    ++ optField 2 x.ageTimer

/-- The session record's part of a READ POSITION body, offsets 38 to 81 (R173). -/
def Session.bytes (x : Session) : List Byte :=
  be 1 x.state.code ++ [optOf Phase.code x.phase] ++ x.command.bytes ++ be 1 x.factors.code
    ++ [optOf CommFlag.code x.comm, optCode x.profileAtStart, optCode x.profile, endReasonByte x.endReason]
    ++ be 1 x.cooling.code ++ [optOf ConnKind.code x.kind, optOf Attempt.code x.attempt, optOf Phase.code x.resumePoint]
    ++ [optOf Fin.val x.bank, optOf Fin.val x.awaited, optCode x.cascadePos]
    ++ optField 4 (x.auth.map (·.reference)) ++ be 1 x.flags.code ++ be 4 x.activeTime ++ be 4 x.heldTime
    ++ optField 4 x.unitPrice ++ optField 3 x.massCeiling ++ be 3 x.lastMass

/-- The 82 bytes of a READ POSITION answer (R115, R173). -/
def State.positionBytes (s : State) (p : PosId) : List Byte := (s.monitor p).bytes ++ (s.session p).bytes

/-- READ POSITION from the supervisor port, naming a position (R115). -/
def readPositionNamed (position : Nat) : Handler := fun s =>
  match fourOf? position with
  | none => refuse .outOfRange s
  | some p => doneWith (s.positionBytes p) s

/-- READ POSITION from a dispenser port (R115). -/
def readPositionOwn (p : PosId) : Handler := fun s => doneWith (s.positionBytes p) s

/-! ### READ BANKS -/

/-- One bank's 26 bytes (R173). -/
def State.bankBytes (s : State) (b : BankId) : List Byte :=
  let x := s.bank b
  be 1 b.val ++ optField 2 x.pressure ++ optField 2 x.temperature ++ optField 4 x.mass
    ++ be 1 s.bm.freshness.code ++ be 1 x.holder.code ++ be 1 x.queue.length ++ places 4 x.queue
    ++ be 1 x.proofState.code ++ optField 4 x.provenAt ++ be 1 (boolCode (decide (b ∈ s.bm.refillList)))

/-- The 114 bytes of a READ BANKS answer (R66, R173). -/
def State.banksBytes (s : State) : List Byte :=
  fourIds.flatMap s.bankBytes ++ optField 2 s.bm.ambient
    ++ [optOf Fin.val s.bm.refillInFlight, optOf Fin.val s.bm.designation]
    ++ be 1 s.bm.refillList.length ++ places 4 s.bm.refillList

/-- READ BANKS (R66). -/
def readBanksRequest : Handler := fun s => doneWith s.banksBytes s

/-! ### READ COOLING -/

/-- One grant entry of 5 bytes (R173). -/
def Grant.bytes (g : Grant) : List Byte := be 1 g.pos.val ++ be 2 g.demand ++ be 2 g.limit

/-- One queue entry of 7 bytes (R173). -/
def Waiter.bytes (w : Waiter) : List Byte := be 1 w.pos.val ++ be 2 w.demand ++ be 2 w.limit ++ be 2 w.timer

/-- Four entries, the unused ones with position 255 and the other bytes 0 (R173). -/
def fourEntries (size : Nat) (l : List (List Byte)) : List Byte :=
  (l ++ List.replicate (4 - l.length) (255 :: List.replicate (size - 1) 0)).flatten

/-- The 58 bytes of a READ COOLING answer (R98, R173). -/
def State.coolingBytes (s : State) : List Byte :=
  be 2 s.cbu.capacity ++ be 2 s.granted ++ be 4 s.waitingDemand
    ++ be 1 s.cbu.grants.length ++ fourEntries 5 (s.cbu.grants.map Grant.bytes)
    ++ be 1 s.cbu.queue.length ++ fourEntries 7 (s.cbu.queue.map Waiter.bytes)

/-- READ COOLING (R98). -/
def readCoolingRequest : Handler := fun s => doneWith s.coolingBytes s

/-! ### READ SITE -/

/-- The five counts as bytes, 255 each where there is no such configuration (R173). -/
def countBytes : Option SiteConfig → List Byte
  | some c => c.loadedCounts.map byteOf
  | none => List.replicate 5 255

/-- The summary of the site (R35, R173). -/
def State.summaryBytes (s : State) : List Byte :=
  be 1 s.site.mode.code ++ [optOf HaltCause.code s.site.haltCause] ++ countBytes (some s.site.config)
    ++ countBytes s.site.working ++ optField 4 s.site.commissionedAt ++ be 4 s.site.siteTime
    ++ be 1 s.site.priceBand.code ++ be 1 s.site.ambientBand ++ optField 2 s.bm.ambient

/-- Whether a table kind of READ SITE has an index (R35 step 1, R26). -/
def readableEntry (table index : Nat) : Bool :=
  match tableSize table with
  | some n => decide (table ≤ 4) && decide (index < n)
  | none => false

/-- One entry of a copy (R35 steps 3 and 4). -/
def readEntry (c : SiteConfig) (table index : Nat) (s : State) : State × Reply :=
  match c.entryBytes table index with
  | some e => doneWith e s
  | none => refuse .notFound s

/-- READ SITE (R35); a selector or a copy outside its codes is out of range (R168). -/
def readSiteRequest (selector table index copy : Nat) : Handler := fun s =>
  if selector = 0 then doneWith s.summaryBytes s
  else if 1 < selector then refuse .outOfRange s
  else if !readableEntry table index || decide (1 < copy) then refuse .outOfRange s
  else if copy = 0 then readEntry s.site.config table index s
  else
    match s.site.mode, s.site.working with
    | .service, some c => readEntry c table index s
    | _, _ => refuse .wrongState s

/-! ### READ RECORD -/

/-- The authorization's kind and number as they stand in a record (R171). -/
def AuthKind.bytes : AuthKind → List Byte
  | .prepaid amount => 0 :: be 4 amount
  | .fleet cap => 1 :: be 4 cap

/-- A signed number in four bytes, two's complement (R171). -/
def signedBytes (n : Int) : List Byte := be 4 (n % 4294967296).toNat

/-- The 68 bytes of a sale record as read (R171). -/
def SaleRecord.bytes (r : SaleRecord) : List Byte :=
  be 4 r.sequence ++ be 1 r.position.val ++ be 4 r.auth.reference ++ r.auth.kind.bytes ++ be 1 r.fuelClass.code
    ++ be 1 r.precoolAtStart.code ++ be 1 r.precoolAtEnd.code ++ be 1 r.profileAtStart ++ be 1 r.profileAtEnd
    ++ be 4 r.startTime ++ be 4 r.endTime
    ++ be 1 (boolCode r.startPressure.isSome + 2 * boolCode r.bankSide.isSome)
    ++ be 2 (r.startPressure.getD 0) ++ be 2 r.endNozzle ++ be 3 r.metered ++ be 3 r.billed ++ be 3 r.overrun
    ++ signedBytes (r.bankSide.getD 0) ++ be 4 r.unitPrice ++ be 4 r.amount ++ [endReasonByte r.endReason]
    ++ be 1 r.flags.code ++ be 4 r.activeTime ++ be 4 r.heldTime ++ be 1 r.banksUsed.length ++ places 4 r.banksUsed

/-- What READ RECORD and SETTLE answer for a number that no held record has (R163, R164). -/
def SalesUnit.missing (u : SalesUnit) (n : Nat) : Code := if u.foreseen n then .notYet else .notFound

/-- The record of a number (R163). -/
def SalesUnit.record? (u : SalesUnit) (n : Nat) : Option SaleRecord := u.records.find? fun r => r.sequence == n

/-- READ RECORD (R163); a selector above 1 is out of range (R168). -/
def readRecordRequest (selector number : Nat) : Handler := fun s =>
  if 1 < selector then refuse .outOfRange s
  else if selector = 1 then
    match s.sales.records with
    | r :: _ => doneWith r.bytes s
    | [] => refuse .notFound s
  else if number = 0 then refuse .outOfRange s
  else
    match s.sales.record? number with
    | some r => doneWith r.bytes s
    | none => refuse (s.sales.missing number) s

end Sys2Proof.Machine
end

