-- ==== Sys2Proof/Machine/Authorizing.lean ====
section
/-! DEFINITION. The Sales Unit's requests that change state: AUTHORIZE (R153), CANCEL AUTHORIZATION (R154), SETTLE
(R164), the tariff loads (R156), and what empties every slot (R165, R166). -/

namespace Sys2Proof.Machine

/-! ### Authorizations -/

/-- The kind of an authorization with its amount or mass cap, each within its range (R152, R153, R170). -/
def authKindOf? (kind amount : Nat) : Option AuthKind :=
  match kind with
  | 0 => if 1 ≤ amount ∧ amount ≤ 9999999 then some (.prepaid amount) else none
  | 1 => if 1 ≤ amount ∧ amount ≤ 60000 then some (.fleet amount) else none
  | _ => none

/-- The reference armed in a slot (R152). -/
def SalesUnit.armedReference (u : SalesUnit) (p : PosId) : Option Nat := (u.slots.get p).map (·.auth.reference)

/-- Whether a position other than the one named keeps a reference armed, or any open session holds it (R153,
condition 3). -/
def State.referenceInUse (s : State) (p : PosId) (reference : Nat) : Bool :=
  fourIds.any fun q =>
    (q != p && s.sales.armedReference q == some reference)
      || ((s.session q).isOpen && (s.session q).auth.map (·.reference) == some reference)

/-- A lifetime in seconds as the 0.1 s its timer runs; 0 stands for the default of the site parameters (R153, log
entry 20). -/
def lifetimeTenths (c : SiteConfig) (lifetime : Nat) : Nat :=
  10 * (if lifetime = 0 then c.authorizationLifetime else lifetime)

/-- An authorization is placed in the slot of a position (R153, actions 1 and 2). -/
def State.arm (s : State) (p : PosId) (a : Authorization) (lifetime : Nat) : State :=
  let armed : ArmedAuthorization := ⟨a, lifetimeTenths s.config lifetime⟩
  s.modSales fun u => { u with slots := u.slots.set p (some armed) }

/-- The slot of a position is emptied and its timer cancelled (R154). -/
def State.disarm (s : State) (p : PosId) : State := s.modSales fun u => { u with slots := u.slots.set p none }

/-- Every slot is emptied without a notice (R165 step 1, R166 step 1). -/
def State.disarmAll (s : State) : State := s.modSales fun u => { u with slots := Quad.fill none }

/-- Whether the site mode keeps AUTHORIZE from being taken (R153, condition 2). -/
def SiteMode.closesSlots : SiteMode → Bool
  | .unconfigured => true
  | .halted => true
  | .serving => false
  | .service => false

/-- AUTHORIZE (R153). -/
def authorizeRequest (position reference kind amount lifetime : Nat) : Handler := fun s =>
  match fourOf? position, authKindOf? kind amount with
  | some p, some k =>
    if reference = 0 ∨ 3600 < lifetime then refuse .outOfRange s
    else if s.site.mode.closesSlots then refuse .wrongState s
    else if s.referenceInUse p reference then refuse .duplicate s
    else if !s.config.enabled p then refuse .notPermitted s
    else doneWith (optField 4 (s.sales.armedReference p)) (s.arm p ⟨reference, k⟩ lifetime)
  | _, _ => refuse .outOfRange s

/-- CANCEL AUTHORIZATION (R154). -/
def cancelRequest (position reference : Nat) : Handler := fun s =>
  match fourOf? position with
  | none => refuse .outOfRange s
  | some p =>
    if reference = 0 then refuse .outOfRange s
    else if s.sales.armedReference p = some reference then done (s.disarm p)
    else refuse .notFound s

/-- The lifetime timer of a slot runs out (R154). -/
def State.lifetimeRunsOut (s : State) (p : PosId) (a : Authorization) : State :=
  (s.disarm p).post (.authorizationExpired p a.reference)

/-! ### SETTLE -/

/-- A record leaves the list from wherever it stands (R164). -/
def State.removeRecord (s : State) (number : Nat) : State :=
  s.modSales fun u => { u with records := u.records.filter fun r => r.sequence != number }

/-- SETTLE (R164). -/
def settleRequest (number : Nat) : Handler := fun s =>
  if number = 0 then refuse .outOfRange s
  else
    match s.sales.record? number with
    | none => refuse (s.sales.missing number) s
    | some _ =>
      let s := s.removeRecord number
      doneWith [byteOf s.sales.records.length] s

/-! ### The tariff -/

/-- A price is replaced (R156). -/
def State.setPrice (s : State) (index price : Nat) : State :=
  s.modSales fun u => { u with tariff := u.tariff.set index price }

/-- SET TARIFF (R156); a field out of range is examined before the site mode (R6, log entry 28). -/
def setTariffRequest (index price : Nat) : Handler := fun s =>
  if 15 < index then refuse .outOfRange s
  else
    match readPrice price with
    | none => refuse .outOfRange s
    | some v => if s.site.mode = .unconfigured then refuse .wrongState s else done (s.setPrice index v)

end Sys2Proof.Machine
end

