-- ==== Sys2Proof/Machine/Control.lean ====
section
/-! DEFINITION. Site Control's requests: LOAD TABLE (R26), COMMISSION (R17), ENTER SERVICE and LEAVE SERVICE (R19, R20),
RESUME SITE (R23), SET BAND (R34), SET SITE TIME (R33), EMERGENCY STOP (R22) and SITE RESET (R24), the last two with the
actions of every block. -/

namespace Sys2Proof.Machine

/-! ### LOAD TABLE -/

/-- Whether every position's session is IDLE (R26). -/
def State.allIdle (s : State) : Bool := s.openPositions.isEmpty

/-- The configuration a load of a configuration table is written into, while it is accepted (R26). -/
def State.loadTarget (s : State) : Option SiteConfig :=
  match s.site.mode with
  | .unconfigured => some s.site.config
  | .service => if s.allIdle then s.site.working else none
  | .serving => none
  | .halted => none

/-- A configuration with an entry loaded takes the place of the one it was written into (R26). -/
def State.storeLoaded (s : State) (c : SiteConfig) : State :=
  s.modSite fun x => if x.mode = .unconfigured then { x with config := c } else { x with working := some c }

/-- An index within the range of its table kind (R26, step 1). -/
def indexInTable (table index : Nat) : Bool :=
  match tableSize table with
  | some n => decide (index < n)
  | none => false

/-- A load of one of the five configuration tables (R26, steps 2 and 3). -/
def loadConfigTable (table index : Nat) (entry : List Byte) : Handler := fun s =>
  match s.loadTarget with
  | none => refuse .wrongState s
  | some c =>
    match c.load table index entry with
    | none => refuse .outOfRange s
    | some c => done (s.storeLoaded c)

/-- A load of the tariff table (R26 steps 2 and 3, R156). -/
def loadTariff (index : Nat) (entry : List Byte) : Handler := fun s =>
  if s.site.mode = .unconfigured then refuse .wrongState s
  else
    match readPrice (field entry 0 4) with
    | none => refuse .outOfRange s
    | some price => done (s.setPrice index price)

/-- The table kind code of the tariff (R168). -/
def tariffTable : Nat := 5

/-- LOAD TABLE (R26). -/
def loadTableRequest (table index : Nat) (entry : List Byte) : Handler := fun s =>
  if !indexInTable table index then refuse .outOfRange s
  else if table = tariffTable then loadTariff index entry s
  else loadConfigTable table index entry s

/-! ### Modes -/

/-- The body of an INVALID TABLE answer (R169). -/
def invalidTable (at_ : Nat × Nat) (s : State) : State × Reply := (s, ⟨.invalidTable, [byteOf at_.1, byteOf at_.2]⟩)

/-- The site mode becomes another. -/
def State.setMode (s : State) (m : SiteMode) : State := s.modSite fun x => { x with mode := m }

/-- COMMISSION (R17). -/
def commissionRequest : Handler := fun s =>
  if s.site.mode ≠ .unconfigured then refuse .wrongState s
  else
    match validate s.site.config with
    | some at_ => invalidTable at_ s
    | none => done ((s.modSite fun x => { x with commissionedAt := some x.siteTime }).setMode .serving)

/-- ENTER SERVICE (R19). -/
def enterServiceRequest : Handler := fun s =>
  if s.site.mode = .serving then done ((s.modSite fun x => { x with working := some x.config }).setMode .service)
  else refuse .wrongState s

/-- LEAVE SERVICE (R20). -/
def leaveServiceRequest : Handler := fun s =>
  match s.site.mode, s.site.working with
  | .service, some c =>
    match validate c with
    | some at_ => invalidTable at_ s
    | none => done ((s.modSite fun x => { x with config := c, working := none }).setMode .serving)
  | _, _ => refuse .wrongState s

/-- The site is SERVING and has no halt cause (R23, R24 step 2). -/
def State.serveAgain (s : State) : State := (s.modSite fun x => { x with haltCause := none }).setMode .serving

/-- RESUME SITE (R23). -/
def resumeSiteRequest : Handler := fun s =>
  if s.site.mode = .halted then done s.serveAgain else refuse .wrongState s

/-! ### Price band and site time -/

/-- SET BAND (R34); a band outside its codes is examined first (R6, R172). -/
def setBandRequest (band : Nat) : Handler := fun s =>
  match priceBandOf? band with
  | none => refuse .outOfRange s
  | some b =>
    if s.site.mode = .unconfigured then refuse .wrongState s
    else done (s.modSite fun x => { x with priceBand := b })

/-- SET SITE TIME (R33), with the overdue test of every bank (R77). -/
def setSiteTimeRequest (time : Nat) : Handler := fun s =>
  done (s.modSite fun x => { x with siteTime := time }).overdueTest

/-- Site time advances by one second, and the overdue test is made (R33, R77). -/
def State.secondPasses (s : State) : State :=
  (s.modSite fun x => { x with siteTime := if x.siteTime = Config.maxWord then 0 else x.siteTime + 1 }).overdueTest

/-! ### EMERGENCY STOP -/

/-- The halt cause that a port gives: PLANT from the plant port, SUPERVISOR otherwise (R16, R22). -/
def haltCauseOf (p : PortId) : HaltCause := if p = .plant then .plant else .supervisor

/-- Site Control's own part of a stop (R22, steps 1 to 3). -/
def State.haltSite (s : State) (cause : HaltCause) : State :=
  ((s.discardWorking.modSite fun x => { x with mode := .halted, haltCause := some cause })).post (.siteHalted cause)

/-- Every grant and every waiter is removed (R99, R100 steps 1 and 2). -/
def CoolingUnit.cleared (c : CoolingUnit) : CoolingUnit := { c with grants := [], queue := [] }

/-- The Cooling Budget Unit's emergency-stop actions (R99). -/
def State.stopCooling (s : State) : State :=
  let waited := !s.cbu.queue.isEmpty
  let s := s.modCbu CoolingUnit.cleared
  if waited then s.post (.coolingDemand 0) else s

/-- The sessions from OPENING through HELD end with EMERGENCY STOP, in increasing position number (R150, R165). -/
def State.stopSessions (s : State) : State := inOrder (fun p s => s.endWith p .emergencyStop) s

/-- The actions of an emergency stop that halts the site (R22). -/
def State.emergencyStop (s : State) (cause : HaltCause) : State :=
  ((s.haltSite cause).stopBanks.stopCooling.disarmAll).stopSessions

/-- EMERGENCY STOP (R22). -/
def emergencyStopRequest (p : PortId) : Handler := fun s =>
  match s.site.mode with
  | .unconfigured => done s
  | .halted => done s
  | .serving => done (s.emergencyStop (haltCauseOf p))
  | .service => done (s.emergencyStop (haltCauseOf p))

/-! ### SITE RESET -/

/-- The Cooling Budget Unit's site-reset actions (R100). -/
def State.resetCooling (s : State) : State := (s.modCbu CoolingUnit.cleared).post (.coolingDemand 0)

/-- A session ended within a reset gives nothing back that would end another: its claim, its queue place and its cooling
have been cleared (R151). -/
def noFurtherEnd : Ender := fun _ _ s => s

/-- A session from OPENING through HELD ends with SITE RESET, without a place in the close queue (R151). -/
def State.resetSession (s : State) (p : PosId) : State :=
  if (s.session p).running then s.endSteps noFurtherEnd p .siteReset else s

/-- Every open session has its INTERRUPTED flag set (R151). -/
def State.interrupt (s : State) (p : PosId) : State :=
  if (s.session p).isOpen then s.modSession p fun x => { x with flags := { x.flags with interrupted := true } } else s

/-- The sessions to be committed by a reset, in its order (R166, step 3). -/
def State.resetOrder (s : State) : List PosId :=
  s.sales.pendingSessions ++ fourIds.filter fun p => (s.session p).running

/-- Site Control's own part of a reset (R24, steps 1 and 2). -/
def State.resetSite (s : State) : State := s.discardWorking.serveAgain

/-- The Fill Engines' part of a reset (R151). -/
def State.resetSessions (s : State) : State :=
  inOrder (fun p s => s.interrupt p) (inOrder (fun p s => s.resetSession p) s)

/-- The close queue is empty, the register free and the closing timer cancelled (R166). -/
def SalesUnit.closed (u : SalesUnit) : SalesUnit := { u with closeQueue := [], register := none, closingTimer := none }

/-- RECORD READY is posted when records are held (R166, step 4). -/
def State.postHeld (s : State) : State :=
  if s.sales.records.isEmpty then s else s.post (.recordReady s.sales.records.length)

/-- The Sales Unit's site-reset actions, for the sessions to be committed in their order (R166). -/
def State.resetSales (s : State) (order : List PosId) : State :=
  ((order.foldl State.commit s.disarmAll).modSales SalesUnit.closed).postHeld

/-- The actions of a site reset (R24). -/
def State.siteReset (s : State) : State :=
  let order := s.resetOrder
  ((s.resetSite.resetPorts.resetBanks.resetCooling).resetSessions).resetSales order

/-- SITE RESET (R24). -/
def siteResetRequest : Handler := fun s =>
  if s.site.mode = .unconfigured then refuse .wrongState s else done s.siteReset

end Sys2Proof.Machine
end

