-- ==== Sys2Proof/Machine/Clock.lean ====
section
/-! DEFINITION. The part's own time, in steps of 0.1 s: what advances, and which timers have run out (log entry 1). -/

namespace Sys2Proof.Machine

/-- A timer that runs has 0.1 s less remaining. -/
def Timer.tick (t : Timer) : Timer := t.map (· - 1)

/-- Whether a timer has run out: it runs, and nothing remains. -/
def Timer.out (t : Timer) : Bool := t == some 0

/-- A proof timer runs (R76). -/
def Bank.tick (x : Bank) : Bank := { x with proof := x.proof.map fun f => { f with timer := f.timer - 1 } }

/-- The freshness and yield timers and the proof timers run (R51, R74, R76). -/
def BankManager.tick (m : BankManager) : BankManager :=
  { m with
    banks := m.banks.map Bank.tick
    freshnessTimer := m.freshnessTimer.tick
    yieldTimer := m.yieldTimer.tick }

/-- The cooling wait timers run (R94). -/
def CoolingUnit.tick (c : CoolingUnit) : CoolingUnit :=
  { c with queue := c.queue.map fun w => { w with timer := w.timer - 1 } }

/-- The progress and age timers run (R101). A report that comes later than this no longer comes together with a silent end
(R107, log entry 30). -/
def Monitor.tick (x : Monitor) : Monitor :=
  { x with progressTimer := x.progressTimer.tick, ageTimer := x.ageTimer.tick, silenced := false }

/-- 0.1 s of a session: active time in DELIVERING up to its greatest value (R45), held time in HELD (R141), its
timers. -/
def Session.tick (x : Session) : Session :=
  { x with
    activeTime := if x.state = .delivering ∧ x.activeTime < Config.maxActive then x.activeTime + 1 else x.activeTime
    heldTime := if x.state = .held then x.heldTime + 1 else x.heldTime
    phaseTimer := x.phaseTimer.tick
    bankWaitTimer := x.bankWaitTimer.tick
    segmentTimer := x.segmentTimer.tick
    resumeTimer := x.resumeTimer.tick
    warmTimer := x.warmTimer.tick
    keepTimer := x.keepTimer.tick }

/-- The closing timer and the lifetimes of armed authorizations run (R152, R159). -/
def SalesUnit.tick (u : SalesUnit) : SalesUnit :=
  { u with
    slots := u.slots.map fun a => a.map fun x => { x with lifetime := x.lifetime - 1 }
    closingTimer := u.closingTimer.tick }

/-- 0.1 s passes. -/
def State.tick (s : State) : State :=
  { s with
    tenths := s.tenths + 1
    bm := s.bm.tick
    cbu := s.cbu.tick
    monitors := s.monitors.map Monitor.tick
    sessions := s.sessions.map Session.tick
    sales := s.sales.tick }

/-- One event when a condition holds. -/
def eventIf (c : Bool) (i : Instr) : List Instr := if c then [i] else []

/-- The expiry of the phase timer of a session, whichever phase it is in (R123). -/
def phaseEnd (p : PosId) : Option Phase → List Instr
  | some .connect => [.connectPhaseEnd p]
  | some .leakCheck => [.leakCheckEnd p]
  | some .settle => [.settlePhaseEnd p]
  | some .claim => []
  | none => []

/-- What has run out at one position. The hold limit has run out for a session in HELD whose held time is above it, a
session among them that enters HELD so (R143, log entry 32). -/
def State.dueAt (s : State) (p : PosId) : List Instr :=
  let x := s.session p
  let m := s.monitor p
  (if x.phaseTimer.out then phaseEnd p x.phase else [])
    ++ eventIf (s.cbu.queue.any fun w => w.pos == p && w.timer == 0) (.coolingWaitExpiry p)
    ++ eventIf m.progressTimer.out (.progressTimerExpiry p)
    ++ eventIf m.ageTimer.out (.ageTimerExpiry p)
    ++ eventIf x.bankWaitTimer.out (.bankWaitExpiry p)
    ++ eventIf x.segmentTimer.out (.segmentBoundary p)
    ++ eventIf x.warmTimer.out (.warmTimerExpiry p)
    ++ eventIf x.resumeTimer.out (.resumeTimerExpiry p)
    ++ eventIf x.keepTimer.out (.keepTimerExpiry p)
    ++ eventIf (x.state == .held && decide ((s.profileOf p).holdLimit < x.heldTime)) (.holdLimitExpiry p)
    ++ eventIf ((s.sales.slots.get p).any fun a => a.lifetime == 0) (.authorizationExpiry p)

/-- What has run out at one bank. -/
def State.dueOn (s : State) (b : BankId) : List Instr :=
  eventIf ((s.bank b).proof.any fun f => f.timer == 0) (.proofTimerExpiry b)

/-- Everything that has run out and has not been taken. -/
def State.due (s : State) : List Instr :=
  eventIf (decide (10 ≤ s.tenths)) .siteTimeTick
    ++ eventIf s.bm.freshnessTimer.out .freshnessTimerExpiry
    ++ eventIf s.bm.yieldTimer.out .yieldTimerExpiry
    ++ eventIf s.sales.closingTimer.out .closingTimeout
    ++ fourIds.flatMap s.dueOn
    ++ fourIds.flatMap s.dueAt

end Sys2Proof.Machine
end

