-- ==== Sys2Proof/Machine/Frames.lean ====
section
/-! DEFINITION. The frame that each request command stands for (R168, R170, R172), the request that a frame's bytes
spell (R4, R168), and how a port takes bytes and frames (R2, R167). -/

namespace Sys2Proof.Machine

/-! ### The frame of each request -/

def readNoticesFrame (port : PortId) (tag : Byte) : Frame := ⟨port, tag, 0x01, []⟩

def nozzleFrame (pos : PosId) (tag state : Byte) : Frame := ⟨.dispenser pos, tag, 0x10, [state]⟩

def startFrame (pos : PosId) (tag : Byte) : Frame := ⟨.dispenser pos, tag, 0x11, []⟩

def stopFrame (pos : PosId) (tag : Byte) : Frame := ⟨.dispenser pos, tag, 0x12, []⟩

def pauseFrame (pos : PosId) (tag : Byte) : Frame := ⟨.dispenser pos, tag, 0x13, []⟩

def continueFrame (pos : PosId) (tag : Byte) : Frame := ⟨.dispenser pos, tag, 0x14, []⟩

def progressFrame (pos : PosId) (tag : Byte) (pressure temperature : BitVec 16) (mass : BitVec 24) : Frame :=
  ⟨.dispenser pos, tag, 0x15, be 2 pressure.toNat ++ be 2 temperature.toNat ++ be 3 mass.toNat⟩

def finalMeterFrame (pos : PosId) (tag : Byte) (mass : BitVec 24) : Frame :=
  ⟨.dispenser pos, tag, 0x16, be 3 mass.toNat⟩

def vehicleFrameFrame (pos : PosId) (tag check cls : Byte) (volume pressure temperature : BitVec 16) (command : Byte) :
    Frame :=
  ⟨.dispenser pos, tag, 0x17,
    [check, cls] ++ be 2 volume.toNat ++ be 2 pressure.toNat ++ be 2 temperature.toNat ++ [command]⟩

def readPositionFrame (port : PortId) (tag : Byte) (position : Option Byte) : Frame :=
  ⟨port, tag, 0x18, position.toList⟩

/-- The four bytes of one bank in a BANK STATUS body (R170). -/
def bankReadingBytes (r : BankReading) : List Byte := be 2 r.pressure.toNat ++ be 2 r.temperature.toNat

def bankStatusFrame (tag : Byte) (banks : Quad BankReading) (ambient : BitVec 16) : Frame :=
  ⟨.plant, tag, 0x20, banks.toList.flatMap bankReadingBytes ++ be 2 ambient.toNat⟩

def coolingCapacityFrame (tag : Byte) (capacity : BitVec 16) : Frame := ⟨.plant, tag, 0x21, be 2 capacity.toNat⟩

def refillNextFrame (tag : Byte) : Frame := ⟨.plant, tag, 0x22, []⟩

def refillEndFrame (tag bank : Byte) : Frame := ⟨.plant, tag, 0x23, [bank]⟩

def emergencyStopFrame (port : PortId) (tag : Byte) : Frame := ⟨port, tag, 0x24, []⟩

def readBanksFrame (port : PortId) (tag : Byte) : Frame := ⟨port, tag, 0x25, []⟩

def authorizeFrame (tag position : Byte) (reference : BitVec 32) (kind : Byte) (amount : BitVec 32)
    (lifetime : BitVec 16) : Frame :=
  ⟨.terminal, tag, 0x30,
    [position] ++ be 4 reference.toNat ++ [kind] ++ be 4 amount.toNat ++ be 2 lifetime.toNat⟩

def cancelFrame (tag position : Byte) (reference : BitVec 32) : Frame :=
  ⟨.terminal, tag, 0x31, [position] ++ be 4 reference.toNat⟩

def readRecordFrame (port : PortId) (tag selector : Byte) (number : BitVec 32) : Frame :=
  ⟨port, tag, 0x32, [selector] ++ be 4 number.toNat⟩

def settleFrame (tag : Byte) (number : BitVec 32) : Frame := ⟨.terminal, tag, 0x33, be 4 number.toNat⟩

def loadTableFrame (tag table index : Byte) (entry : List Byte) : Frame :=
  ⟨.supervisor, tag, 0x40, [table, index] ++ entry⟩

def commissionFrame (tag : Byte) : Frame := ⟨.supervisor, tag, 0x41, []⟩

def enterServiceFrame (tag : Byte) : Frame := ⟨.supervisor, tag, 0x42, []⟩

def leaveServiceFrame (tag : Byte) : Frame := ⟨.supervisor, tag, 0x43, []⟩

def setBandFrame (tag band : Byte) : Frame := ⟨.supervisor, tag, 0x44, [band]⟩

def setTariffFrame (tag index : Byte) (price : BitVec 32) : Frame :=
  ⟨.supervisor, tag, 0x45, [index] ++ be 4 price.toNat⟩

def setSiteTimeFrame (tag : Byte) (time : BitVec 32) : Frame := ⟨.supervisor, tag, 0x46, be 4 time.toNat⟩

def siteResetFrame (tag : Byte) : Frame := ⟨.supervisor, tag, 0x47, []⟩

def resumeSiteFrame (tag : Byte) : Frame := ⟨.supervisor, tag, 0x48, []⟩

def clearSuspectFrame (tag bank : Byte) : Frame := ⟨.supervisor, tag, 0x49, [bank]⟩

def readSiteFrame (tag selector table index copy : Byte) : Frame :=
  ⟨.supervisor, tag, 0x4A, [selector, table, index, copy]⟩

def readCoolingFrame (tag : Byte) : Frame := ⟨.supervisor, tag, 0x4B, []⟩

/-! ### The request of a frame -/

/-- No request: the screening lets no frame come here (R3). -/
def notARequest : Handler := refuse .unknownKind

/-- The readings of a BANK STATUS body (R170). -/
def bankReadings (body : List Byte) : Quad Reading :=
  ⟨⟨field body 0 2, field body 2 2⟩, ⟨field body 4 2, field body 6 2⟩, ⟨field body 8 2, field body 10 2⟩,
    ⟨field body 12 2, field body 14 2⟩⟩

/-- The request that a body on dispenser port n spells (R4, R168, R170, R172). -/
def dispenserHandler (n : PosId) (kind : Nat) (body : List Byte) : Handler :=
  match kind with
  | 0x01 => readNoticesRequest (.dispenser n)
  | 0x10 => nozzleRequest n (field body 0 1)
  | 0x11 => startRequest n
  | 0x12 => stopRequest n
  | 0x13 => pauseRequest n
  | 0x14 => continueRequest n
  | 0x15 => progressRequest n (field body 0 2) (field body 2 2) (field body 4 3)
  | 0x16 => finalMeterRequest n (field body 0 3)
  | 0x17 =>
    vehicleFrameRequest n (field body 0 1) (field body 1 1) (field body 2 2) (field body 4 2) (field body 6 2)
      (field body 8 1)
  | 0x18 => readPositionOwn n
  | _ => notARequest

/-- The request that a body on the plant port spells (R4, R168, R170, R172). -/
def plantHandler (kind : Nat) (body : List Byte) : Handler :=
  match kind with
  | 0x01 => readNoticesRequest .plant
  | 0x20 => bankStatusRequest (bankReadings body) (field body 16 2)
  | 0x21 => coolingCapacityRequest (field body 0 2)
  | 0x22 => refillNextRequest
  | 0x23 => refillEndRequest (field body 0 1)
  | 0x24 => emergencyStopRequest .plant
  | 0x25 => readBanksRequest
  | _ => notARequest

/-- The request that a body on the terminal port spells (R4, R168, R170, R172). -/
def terminalHandler (kind : Nat) (body : List Byte) : Handler :=
  match kind with
  | 0x01 => readNoticesRequest .terminal
  | 0x30 => authorizeRequest (field body 0 1) (field body 1 4) (field body 5 1) (field body 6 4) (field body 10 2)
  | 0x31 => cancelRequest (field body 0 1) (field body 1 4)
  | 0x32 => readRecordRequest (field body 0 1) (field body 1 4)
  | 0x33 => settleRequest (field body 0 4)
  | _ => notARequest

/-- The request that a body on the supervisor port spells (R4, R168, R172). -/
def supervisorHandler (kind : Nat) (body : List Byte) : Handler :=
  match kind with
  | 0x01 => readNoticesRequest .supervisor
  | 0x18 => readPositionNamed (field body 0 1)
  | 0x24 => emergencyStopRequest .supervisor
  | 0x25 => readBanksRequest
  | 0x32 => readRecordRequest (field body 0 1) (field body 1 4)
  | 0x40 => loadTableRequest (field body 0 1) (field body 1 1) (body.drop 2)
  | 0x41 => commissionRequest
  | 0x42 => enterServiceRequest
  | 0x43 => leaveServiceRequest
  | 0x44 => setBandRequest (field body 0 1)
  | 0x45 => setTariffRequest (field body 0 1) (field body 1 4)
  | 0x46 => setSiteTimeRequest (field body 0 4)
  | 0x47 => siteResetRequest
  | 0x48 => resumeSiteRequest
  | 0x49 => clearSuspectRequest (field body 0 1)
  | 0x4A => readSiteRequest (field body 0 1) (field body 1 1) (field body 2 1) (field body 3 1)
  | 0x4B => readCoolingRequest
  | _ => notARequest

/-- The request that a frame's kind and body spell on a port (R4). -/
def handlerOf (p : PortId) (kind : Nat) (body : List Byte) : Handler :=
  match p with
  | .dispenser n => dispenserHandler n kind body
  | .plant => plantHandler kind body
  | .terminal => terminalHandler kind body
  | .supervisor => supervisorHandler kind body

/-- The request that a frame spells (R4). -/
def Frame.handler (f : Frame) : Handler := handlerOf f.port f.kind.toNat f.body

/-! ### Bytes and frames at a port -/

/-- The bytes a port has in collection (R14, R167). -/
def State.setCollection (s : State) (p : PortId) (bytes : List Byte) : State :=
  s.modPort p fun x => { x with collection := bytes }

/-- A port receives one byte (R2, R167). A byte received while it is not LISTENING is discarded. -/
def State.receiveByte (s : State) (p : PortId) (b : Byte) : State :=
  match (s.port p).exchange with
  | .taking => s
  | .answering => s
  | .listening =>
    match collect (s.port p).collection b with
    | .more bytes => s.setCollection p bytes
    | .discard => s.setCollection p []
    | .frame tag kind body =>
      let f : Frame := ⟨p, tag, kind, body⟩
      (s.setCollection p []).takeFrame f f.handler

/-- A port receives bytes, the first first. -/
def State.receiveBytes (s : State) (p : PortId) (bytes : List Byte) : State :=
  bytes.foldl (fun s b => s.receiveByte p b) s

/-- The greatest body length of a frame (R167). -/
def maxBody : Nat := 240

/-- A master sends a whole frame, whose request is the one given (R2, R3). A port that is not LISTENING discards its
bytes. A port that is in the middle of a collection takes the frame's bytes into it (log entry 25). -/
def State.request (s : State) (f : Frame) (h : Handler) : State :=
  match (s.port f.port).exchange with
  | .taking => s
  | .answering => s
  | .listening =>
    if (s.port f.port).collection = [] ∧ f.body.length ≤ maxBody then s.takeFrame f h
    else s.receiveBytes f.port (frameBytes f.tag f.kind f.body)

end Sys2Proof.Machine
end

