-- ==== Sys2Proof/Machine/DispenserCommands.lean ====
section
/-! DEFINITION. The meanings of the dispenser ports' commands: NOZZLE, START, STOP, PAUSE, CONTINUE, PROGRESS,
FINAL_METER, VEHICLE_FRAME and READ_POSITION. -/

namespace Sys2Proof.Machine

/-- NOZZLE (R103, R104). -/
def execNozzle (pos : PosId) (tag state : Byte) (s : State) : Host.Outcome State Fault Refusal :=
  .next (s.request (nozzleFrame pos tag state) (nozzleRequest pos state.toNat))

/-- START (R119 to R122). -/
def execStart (pos : PosId) (tag : Byte) (s : State) : Host.Outcome State Fault Refusal :=
  .next (s.request (startFrame pos tag) (startRequest pos))

/-- STOP (R140). -/
def execStop (pos : PosId) (tag : Byte) (s : State) : Host.Outcome State Fault Refusal :=
  .next (s.request (stopFrame pos tag) (stopRequest pos))

/-- PAUSE (R140). -/
def execPause (pos : PosId) (tag : Byte) (s : State) : Host.Outcome State Fault Refusal :=
  .next (s.request (pauseFrame pos tag) (pauseRequest pos))

/-- CONTINUE (R140). -/
def execContinue (pos : PosId) (tag : Byte) (s : State) : Host.Outcome State Fault Refusal :=
  .next (s.request (continueFrame pos tag) (continueRequest pos))

/-- PROGRESS (R105, R106, R136). -/
def execProgress (pos : PosId) (tag : Byte) (pressure temperature : BitVec 16) (mass : BitVec 24) (s : State) :
    Host.Outcome State Fault Refusal :=
  .next
    (s.request (progressFrame pos tag pressure temperature mass)
      (progressRequest pos pressure.toNat temperature.toNat mass.toNat))

/-- FINAL_METER (R108, R160). -/
def execFinalMeter (pos : PosId) (tag : Byte) (mass : BitVec 24) (s : State) : Host.Outcome State Fault Refusal :=
  .next (s.request (finalMeterFrame pos tag mass) (finalMeterRequest pos mass.toNat))

/-- VEHICLE_FRAME (R109 to R112, R114). -/
def execVehicleFrame (pos : PosId) (tag check cls : Byte) (volume pressure temperature : BitVec 16) (command : Byte)
    (s : State) : Host.Outcome State Fault Refusal :=
  .next
    (s.request (vehicleFrameFrame pos tag check cls volume pressure temperature command)
      (vehicleFrameRequest pos check.toNat cls.toNat volume.toNat pressure.toNat temperature.toNat command.toNat))

/-- READ POSITION as its port and its body spell it (R115): a position named, or the position of the port. -/
def readPositionRequest (port : PortId) (position : Option Byte) : Handler :=
  match port, position with
  | .dispenser n, _ => readPositionOwn n
  | _, some p => readPositionNamed p.toNat
  | _, none => notARequest

/-- READ_POSITION (R115). -/
def execReadPosition (port : PortId) (tag : Byte) (position : Option Byte) (s : State) :
    Host.Outcome State Fault Refusal :=
  .next (s.request (readPositionFrame port tag position) (readPositionRequest port position))

end Sys2Proof.Machine
end

