-- ==== Sys2Proof/Machine/LinkCommands.lean ====
section
/-! DEFINITION. The meanings of the power and link commands: POWER_ON, FRAME_DISCARDED, BYTE_GAP_EXCEEDED,
LINK_SCREEN_ANSWER, REPEATED_REQUEST, ANSWER_SENT and READ_NOTICES. -/

namespace Sys2Proof.Machine

/-- Power is applied: every block holds its power-on values (R14 and the rules State.reset names). The commands waiting
are the outside's, not the part's, and stay (log entry 17). -/
def State.poweredOn (s : State) : State := { State.reset with pending := s.pending, choices := s.choices }

/-- POWER_ON (R14). -/
def execPowerOn (s : State) : Host.Outcome State Fault Refusal := .next s.poweredOn

/-- FRAME_DISCARDED (R167, R3): bytes arrive on a port; where they make no intact frame they leave nothing behind but a
collection not yet ended. -/
def execFrameDiscarded (port : PortId) (bytes : List Byte) (s : State) : Host.Outcome State Fault Refusal :=
  .next (s.receiveBytes port bytes)

/-- BYTE_GAP_EXCEEDED (R167): bytes arrive on a port, and then the byte gap is exceeded, so a collection in progress is
abandoned. -/
def execByteGapExceeded (port : PortId) (bytes : List Byte) (s : State) : Host.Outcome State Fault Refusal :=
  .next ((s.receiveBytes port bytes).setCollection port [])

/-- LINK_SCREEN_ANSWER (R3): an intact frame of any kind, screened as R3 states. -/
def execLinkScreenAnswer (port : PortId) (tag kind : Byte) (body : List Byte) (s : State) :
    Host.Outcome State Fault Refusal :=
  let f : Frame := ⟨port, tag, kind, body⟩
  .next (s.request f f.handler)

/-- REPEATED_REQUEST (R7): an intact frame compared with the port's last-answer record. -/
def execRepeatedRequest (port : PortId) (tag kind : Byte) (body : List Byte) (s : State) :
    Host.Outcome State Fault Refusal :=
  let f : Frame := ⟨port, tag, kind, body⟩
  .next (s.request f f.handler)

/-- ANSWER_SENT (R2, R7, R8). -/
def execAnswerSent (port : PortId) (s : State) : Host.Outcome State Fault Refusal := .next (s.modPort port Port.sent)

/-- READ_NOTICES (R12). -/
def execReadNotices (port : PortId) (tag : Byte) (s : State) : Host.Outcome State Fault Refusal :=
  .next (s.request (readNoticesFrame port tag) (readNoticesRequest port))

end Sys2Proof.Machine
end

