-- ==== Sys2Proof/Machine/PlantCommands.lean ====
section
/-! DEFINITION. The meanings of the plant port's commands: BANK_STATUS, COOLING_CAPACITY, REFILL_NEXT, REFILL_END,
EMERGENCY_STOP and READ_BANKS, the last two of which the supervisor sends too. -/

namespace Sys2Proof.Machine

/-- A bank's reading as numbers. -/
def BankReading.reading (r : BankReading) : Reading := ⟨r.pressure.toNat, r.temperature.toNat⟩

/-- BANK_STATUS (R52). -/
def execBankStatus (tag : Byte) (banks : Quad BankReading) (ambient : BitVec 16) (s : State) :
    Host.Outcome State Fault Refusal :=
  .next
    (s.request (bankStatusFrame tag banks ambient) (bankStatusRequest (banks.map BankReading.reading) ambient.toNat))

/-- COOLING_CAPACITY (R88). -/
def execCoolingCapacity (tag : Byte) (capacity : BitVec 16) (s : State) : Host.Outcome State Fault Refusal :=
  .next (s.request (coolingCapacityFrame tag capacity) (coolingCapacityRequest capacity.toNat))

/-- REFILL_NEXT (R70). -/
def execRefillNext (tag : Byte) (s : State) : Host.Outcome State Fault Refusal :=
  .next (s.request (refillNextFrame tag) refillNextRequest)

/-- REFILL_END (R72). -/
def execRefillEnd (tag bank : Byte) (s : State) : Host.Outcome State Fault Refusal :=
  .next (s.request (refillEndFrame tag bank) (refillEndRequest bank.toNat))

/-- EMERGENCY_STOP (R22). -/
def execEmergencyStop (port : PortId) (tag : Byte) (s : State) : Host.Outcome State Fault Refusal :=
  .next (s.request (emergencyStopFrame port tag) (emergencyStopRequest port))

/-- READ_BANKS (R66). -/
def execReadBanks (port : PortId) (tag : Byte) (s : State) : Host.Outcome State Fault Refusal :=
  .next (s.request (readBanksFrame port tag) readBanksRequest)

end Sys2Proof.Machine
end

