-- ==== Sys2Proof/Machine/SupervisorCommands.lean ====
section
/-! DEFINITION. The meanings of the supervisor port's commands: LOAD_TABLE, COMMISSION, ENTER_SERVICE, LEAVE_SERVICE,
SET_BAND, SET_TARIFF, SET_SITE_TIME, SITE_RESET, RESUME_SITE, CLEAR_SUSPECT, READ_SITE and READ_COOLING. -/

namespace Sys2Proof.Machine

/-- LOAD_TABLE (R26 to R31, R156). -/
def execLoadTable (tag table index : Byte) (entry : List Byte) (s : State) : Host.Outcome State Fault Refusal :=
  .next (s.request (loadTableFrame tag table index entry) (loadTableRequest table.toNat index.toNat entry))

/-- COMMISSION (R17, R18). -/
def execCommission (tag : Byte) (s : State) : Host.Outcome State Fault Refusal :=
  .next (s.request (commissionFrame tag) commissionRequest)

/-- ENTER_SERVICE (R19). -/
def execEnterService (tag : Byte) (s : State) : Host.Outcome State Fault Refusal :=
  .next (s.request (enterServiceFrame tag) enterServiceRequest)

/-- LEAVE_SERVICE (R20). -/
def execLeaveService (tag : Byte) (s : State) : Host.Outcome State Fault Refusal :=
  .next (s.request (leaveServiceFrame tag) leaveServiceRequest)

/-- SET_BAND (R34). -/
def execSetBand (tag band : Byte) (s : State) : Host.Outcome State Fault Refusal :=
  .next (s.request (setBandFrame tag band) (setBandRequest band.toNat))

/-- SET_TARIFF (R156). -/
def execSetTariff (tag index : Byte) (price : BitVec 32) (s : State) : Host.Outcome State Fault Refusal :=
  .next (s.request (setTariffFrame tag index price) (setTariffRequest index.toNat price.toNat))

/-- SET_SITE_TIME (R33). -/
def execSetSiteTime (tag : Byte) (time : BitVec 32) (s : State) : Host.Outcome State Fault Refusal :=
  .next (s.request (setSiteTimeFrame tag time) (setSiteTimeRequest time.toNat))

/-- SITE_RESET (R24). -/
def execSiteReset (tag : Byte) (s : State) : Host.Outcome State Fault Refusal :=
  .next (s.request (siteResetFrame tag) siteResetRequest)

/-- RESUME_SITE (R23). -/
def execResumeSite (tag : Byte) (s : State) : Host.Outcome State Fault Refusal :=
  .next (s.request (resumeSiteFrame tag) resumeSiteRequest)

/-- CLEAR_SUSPECT (R83). -/
def execClearSuspect (tag bank : Byte) (s : State) : Host.Outcome State Fault Refusal :=
  .next (s.request (clearSuspectFrame tag bank) (clearSuspectRequest bank.toNat))

/-- READ_SITE (R35). -/
def execReadSite (tag selector table index copy : Byte) (s : State) : Host.Outcome State Fault Refusal :=
  .next
    (s.request (readSiteFrame tag selector table index copy)
      (readSiteRequest selector.toNat table.toNat index.toNat copy.toNat))

/-- READ_COOLING (R98). -/
def execReadCooling (tag : Byte) (s : State) : Host.Outcome State Fault Refusal :=
  .next (s.request (readCoolingFrame tag) readCoolingRequest)

end Sys2Proof.Machine
end

