-- ==== Sys2Proof/Machine/TerminalCommands.lean ====
section
/-! DEFINITION. The meanings of the terminal port's commands: AUTHORIZE, CANCEL_AUTHORIZATION, READ_RECORD (which the
supervisor sends too) and SETTLE. -/

namespace Sys2Proof.Machine

/-- AUTHORIZE (R153). -/
def execAuthorize (tag position : Byte) (reference : BitVec 32) (kind : Byte) (amount : BitVec 32)
    (lifetime : BitVec 16) (s : State) : Host.Outcome State Fault Refusal :=
  .next
    (s.request (authorizeFrame tag position reference kind amount lifetime)
      (authorizeRequest position.toNat reference.toNat kind.toNat amount.toNat lifetime.toNat))

/-- CANCEL_AUTHORIZATION (R154). -/
def execCancelAuthorization (tag position : Byte) (reference : BitVec 32) (s : State) :
    Host.Outcome State Fault Refusal :=
  .next (s.request (cancelFrame tag position reference) (cancelRequest position.toNat reference.toNat))

/-- READ_RECORD (R163). -/
def execReadRecord (port : PortId) (tag selector : Byte) (number : BitVec 32) (s : State) :
    Host.Outcome State Fault Refusal :=
  .next (s.request (readRecordFrame port tag selector number) (readRecordRequest selector.toNat number.toNat))

/-- SETTLE (R164). -/
def execSettle (tag : Byte) (number : BitVec 32) (s : State) : Host.Outcome State Fault Refusal :=
  .next (s.request (settleFrame tag number) (settleRequest number.toNat))

end Sys2Proof.Machine
end

