-- ==== Sys2Proof/Machine/Expiries.lean ====
section
/-! DEFINITION. What the running out of each timer does to the blocks. An expiry of a timer that is stopped, of a phase
that is not in progress or of a wait that is over changes nothing (log entry 5). -/

namespace Sys2Proof.Machine

namespace State

/-- Site time advances by one second; the 0.1 s counted towards it are used up (R33). -/
def tickExpires (s : State) : State := ({ s with tenths := s.tenths - 10 }).secondPasses

/-- R54. -/
def freshnessExpires (s : State) : State := if s.bm.freshnessTimer.isSome then s.freshnessRunsOut else s

/-- R75. -/
def yieldExpires (s : State) : State := if s.bm.yieldTimer.isSome then s.yieldRunsOut else s

/-- R81. -/
def proofExpires (s : State) (b : BankId) : State :=
  match (s.bank b).proof with
  | some f => s.proofRunsOut b f
  | none => s

/-- Whether the running out of the progress timer ends a session in this state (R107). -/
def endsSilent (x : Session) : Bool :=
  match x.state with
  | .connecting => true
  | .delivering => true
  | .held => true
  | .idle => false
  | .opening => false
  | .ended => false
  | .closing => false

/-- R107. A session that ends so is noted for the answer to a PROGRESS that comes together with the end (log entry 30). -/
def progressExpires (s : State) (p : PosId) : State :=
  if (s.monitor p).progressTimer.isSome then
    let ends := endsSilent (s.session p)
    let s := s.modMonitor p fun x => { x with progressTimer := none, silenced := x.silenced || ends }
    if ends then s.endWith p .dispenserSilent else s
  else s

/-- R112. -/
def ageExpires (s : State) (p : PosId) : State :=
  if (s.monitor p).ageTimer.isSome then s.vehicleLost p .age else s

/-- Whether a phase of a position's connection is in progress with its timer running (R123). -/
def phaseRuns (s : State) (p : PosId) (f : Phase) : Bool :=
  decide ((s.session p).state = .connecting) && decide ((s.session p).phase = some f)
    && (s.session p).phaseTimer.isSome

/-- R128. -/
def connectExpires (s : State) (p : PosId) : State := if s.phaseRuns p .connect then s.endConnect p else s

/-- R129. -/
def leakCheckExpires (s : State) (p : PosId) : State := if s.phaseRuns p .leakCheck then s.endLeakCheck p else s

/-- R131. -/
def settleExpires (s : State) (p : PosId) : State := if s.phaseRuns p .settle then s.connected p else s

/-- R126, R125. -/
def bankWaitExpires (s : State) (p : PosId) : State :=
  if (s.session p).bankWaitTimer.isSome then s.endWith p .bankTimeout else s

/-- R135. -/
def segmentExpires (s : State) (p : PosId) : State :=
  if (s.session p).state = .delivering ∧ (s.session p).segmentTimer.isSome = true then s.boundary p else s

/-- R137. -/
def warmExpires (s : State) (p : PosId) : State :=
  if (s.session p).warmTimer.isSome then (s.modSession p fun x => { x with warmTimer := none }).setFactor p .gasWarm
  else s

/-- R142. -/
def resumeExpires (s : State) (p : PosId) : State :=
  if (s.session p).state = .held ∧ (s.session p).resumeTimer.isSome = true then s.resume endNow p else s

/-- R144. -/
def keepExpires (s : State) (p : PosId) : State :=
  if (s.session p).state = .held ∧ (s.session p).keepTimer.isSome = true then s.keepRelease p else s

/-- R143: the held time has become greater than the hold limit. -/
def holdLimitExpires (s : State) (p : PosId) : State :=
  if (s.session p).state = .held then
    let beyond := (s.profileOf p).holdLimit + 1
    (s.modSession p fun x => { x with heldTime := max x.heldTime beyond }).endWith p .holdLimit
  else s

/-- R154. -/
def authorizationExpires (s : State) (p : PosId) : State :=
  match s.sales.slots.get p with
  | some armed => s.lifetimeRunsOut p armed.auth
  | none => s

/-- R160. -/
def closingExpires (s : State) : State :=
  match s.sales.register, s.sales.closingTimer with
  | some p, some _ => (s.completeClosing p).serveCloseQueue
  | _, _ => s

end State

end Sys2Proof.Machine
end

