-- ==== Sys2Proof/Machine/TimerCommands.lean ====
section
/-! DEFINITION. The meanings of the timer and clock commands. Each is one event: what the expiry does, and then the
notices it has posted are taken into the queues (R10). -/

namespace Sys2Proof.Machine

/-- SITE_TIME_TICK (R33, R77). -/
def execSiteTimeTick (s : State) : Host.Outcome State Fault Refusal := .next s.tickExpires.flush

/-- FRESHNESS_TIMER_EXPIRY (R54). -/
def execFreshnessTimerExpiry (s : State) : Host.Outcome State Fault Refusal := .next s.freshnessExpires.flush

/-- YIELD_TIMER_EXPIRY (R75). -/
def execYieldTimerExpiry (s : State) : Host.Outcome State Fault Refusal := .next s.yieldExpires.flush

/-- PROOF_TIMER_EXPIRY (R81). -/
def execProofTimerExpiry (bank : BankId) (s : State) : Host.Outcome State Fault Refusal :=
  .next (s.proofExpires bank).flush

/-- COOLING_WAIT_EXPIRY (R95, R145). -/
def execCoolingWaitExpiry (pos : PosId) (s : State) : Host.Outcome State Fault Refusal :=
  .next (s.coolingWaitRunsOut pos).flush

/-- PROGRESS_TIMER_EXPIRY (R107). -/
def execProgressTimerExpiry (pos : PosId) (s : State) : Host.Outcome State Fault Refusal :=
  .next (s.progressExpires pos).flush

/-- AGE_TIMER_EXPIRY (R112). -/
def execAgeTimerExpiry (pos : PosId) (s : State) : Host.Outcome State Fault Refusal := .next (s.ageExpires pos).flush

/-- CONNECT_PHASE_END (R128). -/
def execConnectPhaseEnd (pos : PosId) (s : State) : Host.Outcome State Fault Refusal :=
  .next (s.connectExpires pos).flush

/-- LEAK_CHECK_END (R129, R130). -/
def execLeakCheckEnd (pos : PosId) (s : State) : Host.Outcome State Fault Refusal :=
  .next (s.leakCheckExpires pos).flush

/-- SETTLE_PHASE_END (R131). -/
def execSettlePhaseEnd (pos : PosId) (s : State) : Host.Outcome State Fault Refusal :=
  .next (s.settleExpires pos).flush

/-- BANK_WAIT_EXPIRY (R126). -/
def execBankWaitExpiry (pos : PosId) (s : State) : Host.Outcome State Fault Refusal :=
  .next (s.bankWaitExpires pos).flush

/-- SEGMENT_BOUNDARY (R135). -/
def execSegmentBoundary (pos : PosId) (s : State) : Host.Outcome State Fault Refusal :=
  .next (s.segmentExpires pos).flush

/-- WARM_TIMER_EXPIRY (R137). -/
def execWarmTimerExpiry (pos : PosId) (s : State) : Host.Outcome State Fault Refusal := .next (s.warmExpires pos).flush

/-- RESUME_TIMER_EXPIRY (R142). -/
def execResumeTimerExpiry (pos : PosId) (s : State) : Host.Outcome State Fault Refusal :=
  .next (s.resumeExpires pos).flush

/-- KEEP_TIMER_EXPIRY (R144). -/
def execKeepTimerExpiry (pos : PosId) (s : State) : Host.Outcome State Fault Refusal := .next (s.keepExpires pos).flush

/-- HOLD_LIMIT_EXPIRY (R143). -/
def execHoldLimitExpiry (pos : PosId) (s : State) : Host.Outcome State Fault Refusal :=
  .next (s.holdLimitExpires pos).flush

/-- AUTHORIZATION_EXPIRY (R154). -/
def execAuthorizationExpiry (pos : PosId) (s : State) : Host.Outcome State Fault Refusal :=
  .next (s.authorizationExpires pos).flush

/-- CLOSING_TIMEOUT (R160). -/
def execClosingTimeout (s : State) : Host.Outcome State Fault Refusal := .next s.closingExpires.flush

end Sys2Proof.Machine
end

