-- ==== Sys2Proof/Machine/Dispatch.lean ====
section
/-! DEFINITION. One arm for each command of the part, each a direct call of its meaning. -/

namespace Sys2Proof.Machine

def exec (i : Instr) (s : State) : Host.Outcome State Fault Refusal :=
  match i with
  | .powerOn => Sys2Proof.Machine.execPowerOn s
  | .frameDiscarded port bytes => Sys2Proof.Machine.execFrameDiscarded port bytes s
  | .byteGapExceeded port bytes => Sys2Proof.Machine.execByteGapExceeded port bytes s
  | .linkScreenAnswer port tag kind body => Sys2Proof.Machine.execLinkScreenAnswer port tag kind body s
  | .repeatedRequest port tag kind body => Sys2Proof.Machine.execRepeatedRequest port tag kind body s
  | .answerSent port => Sys2Proof.Machine.execAnswerSent port s
  | .readNotices port tag => Sys2Proof.Machine.execReadNotices port tag s
  | .nozzle pos tag state => Sys2Proof.Machine.execNozzle pos tag state s
  | .start pos tag => Sys2Proof.Machine.execStart pos tag s
  | .stop pos tag => Sys2Proof.Machine.execStop pos tag s
  | .pause pos tag => Sys2Proof.Machine.execPause pos tag s
  | .continueFill pos tag => Sys2Proof.Machine.execContinue pos tag s
  | .progress pos tag pressure temperature mass => Sys2Proof.Machine.execProgress pos tag pressure temperature mass s
  | .finalMeter pos tag mass => Sys2Proof.Machine.execFinalMeter pos tag mass s
  | .vehicleFrame pos tag check cls volume pressure temperature command => Sys2Proof.Machine.execVehicleFrame pos tag check cls volume pressure temperature command s
  | .readPosition port tag position => Sys2Proof.Machine.execReadPosition port tag position s
  | .bankStatus tag banks ambient => Sys2Proof.Machine.execBankStatus tag banks ambient s
  | .coolingCapacity tag capacity => Sys2Proof.Machine.execCoolingCapacity tag capacity s
  | .refillNext tag => Sys2Proof.Machine.execRefillNext tag s
  | .refillEnd tag bank => Sys2Proof.Machine.execRefillEnd tag bank s
  | .emergencyStop port tag => Sys2Proof.Machine.execEmergencyStop port tag s
  | .readBanks port tag => Sys2Proof.Machine.execReadBanks port tag s
  | .authorize tag position reference kind amount lifetime => Sys2Proof.Machine.execAuthorize tag position reference kind amount lifetime s
  | .cancelAuthorization tag position reference => Sys2Proof.Machine.execCancelAuthorization tag position reference s
  | .readRecord port tag selector number => Sys2Proof.Machine.execReadRecord port tag selector number s
  | .settle tag number => Sys2Proof.Machine.execSettle tag number s
  | .loadTable tag table index entry => Sys2Proof.Machine.execLoadTable tag table index entry s
  | .commission tag => Sys2Proof.Machine.execCommission tag s
  | .enterService tag => Sys2Proof.Machine.execEnterService tag s
  | .leaveService tag => Sys2Proof.Machine.execLeaveService tag s
  | .setBand tag band => Sys2Proof.Machine.execSetBand tag band s
  | .setTariff tag index price => Sys2Proof.Machine.execSetTariff tag index price s
  | .setSiteTime tag time => Sys2Proof.Machine.execSetSiteTime tag time s
  | .siteReset tag => Sys2Proof.Machine.execSiteReset tag s
  | .resumeSite tag => Sys2Proof.Machine.execResumeSite tag s
  | .clearSuspect tag bank => Sys2Proof.Machine.execClearSuspect tag bank s
  | .readSite tag selector table index copy => Sys2Proof.Machine.execReadSite tag selector table index copy s
  | .readCooling tag => Sys2Proof.Machine.execReadCooling tag s
  | .siteTimeTick => Sys2Proof.Machine.execSiteTimeTick s
  | .freshnessTimerExpiry => Sys2Proof.Machine.execFreshnessTimerExpiry s
  | .yieldTimerExpiry => Sys2Proof.Machine.execYieldTimerExpiry s
  | .proofTimerExpiry bank => Sys2Proof.Machine.execProofTimerExpiry bank s
  | .coolingWaitExpiry pos => Sys2Proof.Machine.execCoolingWaitExpiry pos s
  | .progressTimerExpiry pos => Sys2Proof.Machine.execProgressTimerExpiry pos s
  | .ageTimerExpiry pos => Sys2Proof.Machine.execAgeTimerExpiry pos s
  | .connectPhaseEnd pos => Sys2Proof.Machine.execConnectPhaseEnd pos s
  | .leakCheckEnd pos => Sys2Proof.Machine.execLeakCheckEnd pos s
  | .settlePhaseEnd pos => Sys2Proof.Machine.execSettlePhaseEnd pos s
  | .bankWaitExpiry pos => Sys2Proof.Machine.execBankWaitExpiry pos s
  | .segmentBoundary pos => Sys2Proof.Machine.execSegmentBoundary pos s
  | .warmTimerExpiry pos => Sys2Proof.Machine.execWarmTimerExpiry pos s
  | .resumeTimerExpiry pos => Sys2Proof.Machine.execResumeTimerExpiry pos s
  | .keepTimerExpiry pos => Sys2Proof.Machine.execKeepTimerExpiry pos s
  | .holdLimitExpiry pos => Sys2Proof.Machine.execHoldLimitExpiry pos s
  | .authorizationExpiry pos => Sys2Proof.Machine.execAuthorizationExpiry pos s
  | .closingTimeout => Sys2Proof.Machine.execClosingTimeout s

end Sys2Proof.Machine
end

