-- ==== Sys2Proof/Machine/Step.lean ====
section
/-! DEFINITION. One step: the command at the front of the queue, or, when none waits, the part's own time (log entry 1).
-/

namespace Sys2Proof.Machine

/-- The command taken where several timers have run out: which of them is a free choice (log entry 3). The counter is
advanced so that the next choice is another. -/
def State.chosen (s : State) (first : Instr) (all : List Instr) : Instr :=
  all.getD (Config.expiryChoice s.choices % all.length) first

/-- What the part does when no command waits: 0.1 s passes, or the running out of one timer is taken. -/
def idle (s : State) : Host.Outcome State Fault Refusal :=
  match s.due with
  | [] => .next s.tick
  | [i] => exec i s
  | i :: j :: more => exec (s.chosen i (i :: j :: more)) { s with choices := s.choices + 1 }

/-- One step of the part. -/
def step (s : State) : Host.Outcome State Fault Refusal :=
  match s.pending with
  | i :: rest => exec i { s with pending := rest }
  | [] => idle s

/-- The state with the command that a word spells at the front of its queue; unchanged where the word spells none. -/
def State.withFetchWord (s : State) (nbits w : Nat) : State :=
  match Sys2Proof.decodeTableWord nbits w with
  | some i => { s with pending := i :: s.pending }
  | none => s

end Sys2Proof.Machine
end

