-- ==== Sys2Proof/WellFormed.lean ====
section
/-! DEFINITION. Which commands say what they claim to say. A command that is not well formed still has its meaning: the
part takes whatever bytes a master sends. -/

namespace Sys2Proof

open Machine

/-- A body that a frame can carry (R167). -/
def bodyFits (body : List Byte) : Bool := decide (body.length ≤ maxBody)

/-- Whether a port takes a request kind (R4). -/
def sentOn (port : PortId) (kind : Nat) : Bool := takenOn port kind

/-- Whether a READ POSITION has the body its port requires (R168). -/
def positionBodyFits (port : PortId) (position : Option Byte) : Bool :=
  match port, position with
  | .dispenser _, none => true
  | .supervisor, some _ => true
  | _, _ => false

/-- Whether a frame is one that the screening answers (R3). -/
def screened (port : PortId) (kind : Byte) (body : List Byte) : Bool :=
  (screen port kind.toNat body.length).isSome

/-- Whether a command is well formed: a request that may be sent on more than one port is on one of its ports, a LOAD
TABLE carries the 32 bytes of an entry, a LINK_SCREEN_ANSWER is of a frame that the screening answers and a
REPEATED_REQUEST of one that it lets pass. -/
def Instr.wellFormed : Instr → Bool
  | .linkScreenAnswer port _ kind body => bodyFits body && screened port kind body
  | .repeatedRequest port _ kind body => bodyFits body && !screened port kind body
  | .readPosition port _ position => positionBodyFits port position
  | .emergencyStop port _ => sentOn port 0x24
  | .readBanks port _ => sentOn port 0x25
  | .readRecord port _ _ _ => sentOn port 0x32
  | .loadTable _ _ _ entry => decide (entry.length = 32)
  | _ => true

end Sys2Proof
end

