-- ==== Sys2Proof/Safety.lean ====
section
/-! DEFINITION. The conditions and the invariants that the statements about the part speak of. -/

namespace Sys2Proof

open Machine

/-- The frame of a request command and the request it is; none for a command that is no request of R4. -/
def Instr.request? : Instr → Option (Frame × Handler)
  | .powerOn => none
  | .frameDiscarded _ _ => none
  | .byteGapExceeded _ _ => none
  | .linkScreenAnswer _ _ _ _ => none
  | .repeatedRequest _ _ _ _ => none
  | .answerSent _ => none
  | .readNotices port tag => some (readNoticesFrame port tag, readNoticesRequest port)
  | .nozzle p tag x => some (nozzleFrame p tag x, nozzleRequest p x.toNat)
  | .start p tag => some (startFrame p tag, startRequest p)
  | .stop p tag => some (stopFrame p tag, stopRequest p)
  | .pause p tag => some (pauseFrame p tag, pauseRequest p)
  | .continueFill p tag => some (continueFrame p tag, continueRequest p)
  | .progress p tag x t m => some (progressFrame p tag x t m, progressRequest p x.toNat t.toNat m.toNat)
  | .finalMeter p tag m => some (finalMeterFrame p tag m, finalMeterRequest p m.toNat)
  | .vehicleFrame p tag check cls v x t c =>
    some (vehicleFrameFrame p tag check cls v x t c,
      vehicleFrameRequest p check.toNat cls.toNat v.toNat x.toNat t.toNat c.toNat)
  | .readPosition port tag x => some (readPositionFrame port tag x, readPositionRequest port x)
  | .bankStatus tag banks t =>
    some (bankStatusFrame tag banks t, bankStatusRequest (banks.map BankReading.reading) t.toNat)
  | .coolingCapacity tag c => some (coolingCapacityFrame tag c, coolingCapacityRequest c.toNat)
  | .refillNext tag => some (refillNextFrame tag, refillNextRequest)
  | .refillEnd tag b => some (refillEndFrame tag b, refillEndRequest b.toNat)
  | .emergencyStop port tag => some (emergencyStopFrame port tag, emergencyStopRequest port)
  | .readBanks port tag => some (readBanksFrame port tag, readBanksRequest)
  | .authorize tag p ref k a l =>
    some (authorizeFrame tag p ref k a l, authorizeRequest p.toNat ref.toNat k.toNat a.toNat l.toNat)
  | .cancelAuthorization tag p ref => some (cancelFrame tag p ref, cancelRequest p.toNat ref.toNat)
  | .readRecord port tag sel n => some (readRecordFrame port tag sel n, readRecordRequest sel.toNat n.toNat)
  | .settle tag n => some (settleFrame tag n, settleRequest n.toNat)
  | .loadTable tag t i e => some (loadTableFrame tag t i e, loadTableRequest t.toNat i.toNat e)
  | .commission tag => some (commissionFrame tag, commissionRequest)
  | .enterService tag => some (enterServiceFrame tag, enterServiceRequest)
  | .leaveService tag => some (leaveServiceFrame tag, leaveServiceRequest)
  | .setBand tag b => some (setBandFrame tag b, setBandRequest b.toNat)
  | .setTariff tag i p => some (setTariffFrame tag i p, setTariffRequest i.toNat p.toNat)
  | .setSiteTime tag t => some (setSiteTimeFrame tag t, setSiteTimeRequest t.toNat)
  | .siteReset tag => some (siteResetFrame tag, siteResetRequest)
  | .resumeSite tag => some (resumeSiteFrame tag, resumeSiteRequest)
  | .clearSuspect tag b => some (clearSuspectFrame tag b, clearSuspectRequest b.toNat)
  | .readSite tag sel t i c => some (readSiteFrame tag sel t i c, readSiteRequest sel.toNat t.toNat i.toNat c.toNat)
  | .readCooling tag => some (readCoolingFrame tag, readCoolingRequest)
  | .siteTimeTick => none
  | .freshnessTimerExpiry => none
  | .yieldTimerExpiry => none
  | .proofTimerExpiry _ => none
  | .coolingWaitExpiry _ => none
  | .progressTimerExpiry _ => none
  | .ageTimerExpiry _ => none
  | .connectPhaseEnd _ => none
  | .leakCheckEnd _ => none
  | .settlePhaseEnd _ => none
  | .bankWaitExpiry _ => none
  | .segmentBoundary _ => none
  | .warmTimerExpiry _ => none
  | .resumeTimerExpiry _ => none
  | .keepTimerExpiry _ => none
  | .holdLimitExpiry _ => none
  | .authorizationExpiry _ => none
  | .closingTimeout => none

namespace Machine

/-! ### When a request is taken -/

/-- A port takes a whole frame as a new request: it is LISTENING with no frame in collection (R2, R14), the frame is no
repeat of the request it answered last (R7), and no event is under way. -/
structure Takes (s : State) (f : Frame) : Prop where
  listening : (s.port f.port).exchange = .listening
  collection : (s.port f.port).collection = []
  fresh : ∀ l, (s.port f.port).last = some l → l.isRepeat f = false
  quiet : s.outbox = []

/-! ### Where a position stands -/

/-- A position that stands in no wait queue, no cooling wait queue, no close queue and not in the closing register. -/
structure Aside (p : PosId) (s : State) : Prop where
  bankQueues : ∀ b, p ∉ (s.bank b).queue
  coolingQueue : ∀ w ∈ s.cbu.queue, w.pos ≠ p
  closeQueue : p ∉ s.sales.closeQueue
  register : s.sales.register ≠ some p

/-! ### What an event leaves alone -/

/-- What a session keeps from START to its commit unless a report, a degrade, a loss of vehicle data or a leak check
changes it. -/
def Session.fixed (x : Session) :=
  ((x.auth, x.fuelClass, x.refDensity, x.siteMaxMass, x.cascade, x.profileAtStart, x.profile, x.precoolAtStart),
    (x.comm, x.startTime, x.rampBase, x.startPressure, x.flags, x.lastNozzle, x.lastMass),
    x.finalMass, x.activeTime)

/-- What the plant has reported of a bank (R50). -/
def Bank.report (x : Bank) := (x.pressure, x.temperature, x.mass)

/-- What a Position Monitor holds beside its progress timer (R101). -/
def Monitor.held (x : Monitor) :=
  (x.nozzle, x.pressure, x.temperature, x.mass, x.record, x.vehicle, x.errors, x.ageTimer)

/-- What the Fill Engines, the Bank Manager and the Cooling Budget Unit leave alone, however many claims, grants, holds
and ends follow within one event: the commands that wait, the ports, Site Control, the capacity, the armed
authorizations and the tariff, the plant's reports, the Position Monitors but for their progress timers, and of every
session without a final mass what it was opened with. Sale records, and the notices of the event, are only added. -/
structure Undisturbed (s t : State) : Prop where
  pending : t.pending = s.pending
  tenths : t.tenths = s.tenths
  ports : t.ports = s.ports
  site : t.site = s.site
  capacity : t.cbu.capacity = s.cbu.capacity
  slots : t.sales.slots = s.sales.slots
  tariff : t.sales.tariff = s.sales.tariff
  freshness : t.bm.freshness = s.bm.freshness ∧ t.bm.freshnessTimer = s.bm.freshnessTimer
  ambient : t.bm.ambient = s.bm.ambient
  reports : ∀ b, (t.bank b).report = (s.bank b).report
  monitors : ∀ p, (t.monitor p).held = (s.monitor p).held
  sessions : ∀ p, (s.session p).finalMass = none → (t.session p).fixed = (s.session p).fixed
  posts : ∃ l, t.outbox = s.outbox ++ l
  records : ∃ l, t.sales.records = s.sales.records ++ l

/-- A request taken and answered: the notices posted are in their queues, and the port sends the answer (R2, R5). -/
def State.answered (s : State) (f : Frame) (c : Code) (body : List Byte) : State := s.flush.answerOwner f ⟨c, body⟩

/-! ### What a session becomes -/

/-- The state with another session record for one position. -/
def State.becomes (s : State) (p : PosId) (x : Session) : State := { s with sessions := s.sessions.set p x }

/-- The state with another session record for one position, and SESSION STATE posted from it (R118). -/
def State.shows (s : State) (p : PosId) (x : Session) : State :=
  { s with
    sessions := s.sessions.set p x
    outbox := s.outbox ++ [.sessionState p x.state x.endReason x.reference] }

/-- A session in HELD: CLOSED, nothing of a phase or a segment left, the resume point of an unfinished connection, the
keep timer running when it holds a bank (R123, R141, R144), and the held time of its earlier holds noted (log entry 14). -/
def State.heldAs (s : State) (x : Session) (resume : Option Phase) : Session :=
  { x.quiet with
    state := .held
    resumePoint := resume
    heldBefore := x.heldTime
    keepTimer := if x.bank.isSome then some (s.config.param 11) else none }

/-- The ramp ceiling of a session under a profile (R46). -/
def Session.ramp (x : Session) (f : Profile) : Option Nat :=
  x.rampBase.map fun base => min (min (base + (f.rampRate * x.activeTime + 50) / 100) f.endPressure) x.mawp

/-- The tariff price of a session: of its fuel class, the precool class of its profile, and the price band (R157). -/
def State.priceFor (s : State) (x : Session) : Nat :=
  s.sales.tariff.getD (x.cls.code * 8 + x.precool.code * 2 + s.site.priceBand.code) 0

/-- A session in DELIVERING: its connection finished, FLOW with the ramp ceiling, a segment begun, and the price with
its mass ceiling captured where none was (R123, R134, R157). -/
def State.deliversAs (s : State) (x : Session) : Session :=
  { x.quiet with
    state := .delivering
    kind := none
    attempt := none
    resumePoint := none
    flowCeiling := x.ramp (s.config.profile x.profileIndex)
    segmentTimer := some (s.config.profile x.profileIndex).segmentLength
    unitPrice := some (x.unitPrice.getD (s.priceFor x))
    massCeiling := if x.unitPrice.isSome then x.massCeiling else some (x.ceilingAt (s.priceFor x)) }

/-- A session in phase CLAIM (R123, R124). -/
def Session.claims (x : Session) : Session := { x.quiet with state := .connecting, phase := some .claim }

/-- A session that awaits fresh data, the bank wait timer running (R125, R126). -/
def State.awaitsAs (s : State) (x : Session) : Session :=
  { x with awaitingFresh := true, bankWaitTimer := some (s.config.param 12) }

/-- A position's session in phase CONNECT: PULSE with its pulse ceiling, for the settle interval (R128, R49). -/
def State.connectsAs (s : State) (p : PosId) (x : Session) : Session :=
  { x.quiet with
    state := .connecting
    phase := some .connect
    pulseCeiling := some (s.pulseCeiling p)
    phaseTimer := some (s.profileOf p).settleInterval }

/-- A position's session in phase LEAK CHECK, from the nozzle pressure held (R129). -/
def State.checksAs (s : State) (p : PosId) (x : Session) : Session :=
  { x.quiet with
    state := .connecting
    phase := some .leakCheck
    leakStart := some (s.nozzlePressure p)
    phaseTimer := some (s.profileOf p).leakCheckHold }

/-- A position's session in phase SETTLE (R131). -/
def State.settlesAs (s : State) (p : PosId) (x : Session) : Session :=
  { x.quiet with state := .connecting, phase := some .settle, phaseTimer := some (s.profileOf p).settleInterval }

/-- A session whose connection has ended: DELIVERING with no hold factor, HELD with one (R123). -/
def State.connectedAs (s : State) (x : Session) : Session :=
  if x.factors = Factors.none then s.deliversAs x
  else s.heldAs { x with kind := none, attempt := none } none

/-- A session whose hold factors have become others, none of them set anew: where that has emptied the set of a session
in HELD, its resume timer starts with the resume delay (R139, R142). -/
def State.afterClear (s : State) (x : Session) (y : Factors) : Session :=
  { x with
    factors := y
    resumeTimer :=
      if x.state = .held ∧ y = Factors.none ∧ x.factors ≠ y then some (s.config.profile x.profileIndex).resumeDelay
      else x.resumeTimer }

/-- The clearing of hold factors does not make a session leave HELD in the same event: it leaves a factor set, or the
session is not in HELD, or its resume delay is not 0 (R142). -/
def State.ClearStays (s : State) (x : Session) (y : Factors) : Prop :=
  x.state = .held → y = Factors.none → x.factors ≠ y → (s.config.profile x.profileIndex).resumeDelay ≠ 0

/-- The sessions of every position but one, and of those that stand in no queue and list, are as they were. -/
def LeavesOthers (s t : State) (p : PosId) : Prop := ∀ q, q ≠ p → Aside q s → t.session q = s.session q

/-! ### Invariants -/

/-- A port between two events: it is not TAKING; it has an answer to send exactly while ANSWERING, and then no frame in
collection (R2). -/
def Port.rests (x : Port) : Prop :=
  x.exchange ≠ .taking ∧ (x.exchange = .listening → x.answer = none ∧ x.toRecord = none)
    ∧ (x.exchange = .answering → x.answer.isSome = true ∧ x.collection = [])

/-- No event is under way: no notice waits outside the queues, and every port rests. -/
def AtRest (s : State) : Prop := s.outbox = [] ∧ ∀ p, (s.port p).rests

/-- Every notice queue holds notices of its own port only, and at most one of each pair of kind and subject (R9). -/
def Queues (s : State) : Prop :=
  ∀ p, (∀ n ∈ (s.port p).queue, n.port = p) ∧ ((s.port p).queue.map Notice.key).Nodup

/-- The site mode agrees with the halt cause, the working configuration and the commissioned-at time (R16, R17, R19 to
R24). -/
def SiteControl.sound (x : SiteControl) : Prop :=
  (x.haltCause.isSome = true ↔ x.mode = .halted) ∧ (x.working.isSome = true ↔ x.mode = .service)
    ∧ (x.commissionedAt.isSome = true ↔ x.mode ≠ .unconfigured)

/-- The sum of the demands granted is within the capacity last reported (R89). -/
def WithinCapacity (s : State) : Prop := s.granted ≤ s.cbu.capacity

/-- A vehicle record holds its fields and runs its age timer exactly while it is VALID (R101, R112); the three latest
progress values are present together (R101). -/
def Monitor.sound (x : Monitor) : Prop :=
  (x.vehicle.isSome = true ↔ x.record = .valid) ∧ (x.ageTimer.isSome = true ↔ x.record = .valid)
    ∧ x.pressure.isSome = x.temperature.isSome ∧ x.temperature.isSome = x.mass.isSome

/-- How often a position stands at a bank: as its claim holder, and in its wait queue. -/
def Bank.standing (x : Bank) (p : PosId) : Nat := (if x.holder = .position p then 1 else 0) + x.queue.count p

/-- How often a position stands at the four banks. -/
def State.standing (s : State) (p : PosId) : Nat :=
  (s.bank 0).standing p + (s.bank 1).standing p + (s.bank 2).standing p + (s.bank 3).standing p

/-- No position holds two banks, stands in two wait queues or twice in one, or both holds and waits (R58, R61). -/
def OneClaim (s : State) : Prop := ∀ p, s.standing p ≤ 1

/-- The positions that the Cooling Budget Unit lists: those granted, then those that wait (R86). -/
def CoolingUnit.positions (c : CoolingUnit) : List PosId := c.grants.map (·.pos) ++ c.queue.map (·.pos)

/-- The queues, the lists and the registers agree with the session records: a position waits at a bank and holds a bank
exactly as its session record says (R58, R61, R117), not both; a bank given to the compressor or under a forced proof is
held by no position (R70, R78); a position is listed for cooling once, and while its session runs (R86, R148); a session
that does not run holds, awaits and expects no bank (R118, R148); the close queue and the closing register hold sessions
that have ended, each once, every session in ENDED stands in the close queue, and a session is CLOSING exactly while it is
the one in the register (R152, R159); the register is free only while the close queue is empty (R159); only a session that
has ended has a final mass (R108). -/
structure Consistent (s : State) : Prop where
  queued : ∀ b p, p ∈ (s.bank b).queue ↔ (s.session p).awaited = some b
  held : ∀ b p, (s.bank b).holder = .position p ↔ (s.session p).bank = some b
  sole : ∀ p, (s.session p).bank = none ∨ (s.session p).awaited = none
  once : ∀ b, (s.bank b).queue.Nodup
  refill : ∀ b, s.bm.refillInFlight = some b → (s.bank b).holder = .refill
  forced : ∀ b f, (s.bank b).proof = some f → f.kind = .forced → (s.bank b).holder = .free ∨ (s.bank b).holder = .proof
  listed : s.cbu.positions.Nodup
  cooled : ∀ p ∈ s.cbu.positions, (s.session p).running = true
  away : ∀ p, (s.session p).running = false →
    (s.session p).bank = none ∧ (s.session p).awaited = none ∧ (s.session p).awaitingFresh = false
  closing : ∀ p ∈ s.sales.pendingSessions, (s.session p).state = .ended ∨ (s.session p).state = .closing
  closingOnce : s.sales.pendingSessions.Nodup
  massed : ∀ p, (s.session p).finalMass.isSome = true → (s.session p).state = .ended ∨ (s.session p).state = .closing
  registered : ∀ p, (s.session p).state = .closing → s.sales.register = some p
  filed : ∀ p, (s.session p).state = .ended → p ∈ s.sales.closeQueue
  closes : ∀ p, s.sales.register = some p → (s.session p).state = .closing
  served : s.sales.register = none → s.sales.closeQueue = []

/-- A session's phase, claim and resume point agree with its state (R117): it has a phase exactly while CONNECTING (R123);
it awaits a bank or fresh data in phase CLAIM only (R124 to R126); it holds a bank in another phase, in DELIVERING or in
HELD, and then is not to resume at CLAIM (R127, R144); and a resume point belongs to HELD (R123). -/
structure Session.Coherent (x : Session) : Prop where
  phase : x.phase.isSome = true ↔ x.state = .connecting
  selects : x.awaited.isSome = true ∨ x.awaitingFresh = true → x.phase = some .claim
  holds : x.bank.isSome = true → x.phase ≠ some .claim ∧ x.resumePoint ≠ some .claim
    ∧ (x.state = .connecting ∨ x.state = .delivering ∨ x.state = .held)
  resumes : x.resumePoint.isSome = true → x.state = .held

/-- The Bank Manager's records agree: a bank has proof fields exactly while it is PROVING, and then it was PROVEN or
UNPROVEN before (R76); the forced proof, the holder PROOF and the designation are of one bank (R78); an opportunistic proof
is on a FREE bank (R79); REFILL holds the bank of the refill in flight (R70); no position waits for a bank that is FREE or
held by PROOF (R62, R81). -/
structure BanksAgree (s : State) : Prop where
  proving : ∀ b, (s.bank b).proof.isSome = true ↔ (s.bank b).proofState = .proving
  before : ∀ b f, (s.bank b).proof = some f → f.before = .proven ∨ f.before = .unproven
  forced : ∀ b, (∃ f, (s.bank b).proof = some f ∧ f.kind = .forced) ↔ s.bm.designation = some b
  held : ∀ b, (s.bank b).holder = .proof ↔ s.bm.designation = some b
  opportunistic : ∀ b f, (s.bank b).proof = some f → f.kind = .opportunistic → (s.bank b).holder = .free
  refill : ∀ b, (s.bank b).holder = .refill ↔ s.bm.refillInFlight = some b
  unawaited : ∀ b, (s.bank b).holder = .free ∨ (s.bank b).holder = .proof → (s.bank b).queue = []

/-- A session's mass ceiling is the one that its unit price gives (R157, R158). -/
def Session.priceAgrees (x : Session) : Prop := ∀ price, x.unitPrice = some price → x.massCeiling = some (x.ceilingAt price)

/-- What R160 says of every sale record: the metered mass is the billed mass and the overrun mass, a prepaid amount is
not exceeded, and nothing is billed beyond a fleet cap. -/
structure SaleRecord.Fair (r : SaleRecord) : Prop where
  metered : r.metered = r.billed + r.overrun
  prepaid : ∀ a, r.auth.kind = .prepaid a → r.amount ≤ a
  fleet : ∀ m, r.auth.kind = .fleet m → r.billed ≤ m

/-- Every record committed is fair, and every session's ceiling agrees with its price (R157, R160). -/
def FairSales (s : State) : Prop := (∀ p, (s.session p).priceAgrees) ∧ ∀ r ∈ s.sales.records, r.Fair

/-- How many sequence numbers are left to give: none once the greatest has been given (R160, step 3). -/
def State.numbersLeft (s : State) : Nat := if s.sales.counter = 0 then 0 else 4294967296 - s.sales.counter

/-- The records stand in increasing sequence number, below the counter until the last number has been given; a number and
a place in the list are left for the sale of every open session (R119, R160 step 3, R162). -/
structure Numbered (s : State) : Prop where
  increasing : s.sales.records.Pairwise fun a b => a.sequence < b.sequence
  below : s.sales.counter ≠ 0 → ∀ r ∈ s.sales.records, r.sequence < s.sales.counter
  numbers : s.openPositions.length ≤ s.numbersLeft
  places : s.sales.records.length + s.openPositions.length ≤ 64

/-- No session's active time passes its greatest value (R45). -/
def ActiveWithin (s : State) : Prop := ∀ p, (s.session p).activeTime ≤ Config.maxActive

/-- No ceiling issued to a dispenser, with FLOW or with PULSE, is above the maximum working pressure of the session's
fuel class (R48). -/
def CeilingsWithin (s : State) : Prop :=
  ∀ p c, (s.session p).flowCeiling = some c ∨ (s.session p).pulseCeiling = some c → c ≤ (s.session p).mawp

/-! ### Proofs of banks -/

/-- A bank is the one that a forced proof examination takes (R78): the longest overdue, the lowest-numbered on a tie, with
no other designated, FREE, and the data FRESH. -/
def State.TakesForced (s : State) (b : BankId) : Prop :=
  s.site.mode ≠ .unconfigured ∧ s.bm.freshness = .fresh ∧ s.bm.designation = none ∧ (s.bank b).holder = .free
    ∧ s.isOverdue b = true
    ∧ ∀ c, s.isOverdue c = true →
        (s.proofAge c).getD 0 < (s.proofAge b).getD 0 ∨ (s.proofAge c).getD 0 = (s.proofAge b).getD 0 ∧ b ≤ c

/-- An opportunistic proof examination begins a proof on a bank (R79): FREE, not in the refill list, UNPROVEN or PROVEN
more than half a proof period ago, and the data FRESH. -/
def State.TakesOpportunistic (s : State) (b : BankId) : Prop :=
  s.site.mode ≠ .unconfigured ∧ s.bm.freshness = .fresh ∧ (s.bank b).holder = .free ∧ b ∉ s.bm.refillList
    ∧ ((s.bank b).proofState = .unproven
      ∨ (s.bank b).proofState = .proven ∧ s.config.param 15 / 2 < (s.proofAge b).getD 0)

/-- A bank record on which a proof of a kind begins (R78, R79). -/
def State.provingBank (s : State) (b : BankId) (kind : ProofKind) : Bank :=
  { s.bank b with
    proofState := .proving
    proof := some
      { kind := kind
        massAtStart := (s.bank b).mass.getD 0
        before := (s.bank b).proofState
        timer := s.config.param 14 } }

/-- A bank record held for a forced proof: an opportunistic proof in progress becomes forced with its start and its timer
kept, and on any other bank a proof begins (R78). -/
def State.forcedBank (s : State) (b : BankId) : Bank :=
  if (s.bank b).proofState = .proving then
    { s.bank b with holder := .proof, proof := (s.bank b).proof.map fun f => { f with kind := .forced } }
  else { s.provingBank b .forced with holder := .proof }

/-- The proof examinations, from a first state to a second: the forced one, then the opportunistic ones of the banks of a
list (R69, R78, R79). -/
structure Examined (v u : State) (l : List BankId) : Prop where
  forced : ∀ b, v.TakesForced b → u.bank b = v.forcedBank b ∧ u.bm.designation = some b
  opportunistic : ∀ b, ¬v.TakesForced b → b ∈ l → v.TakesOpportunistic b → u.bank b = v.provingBank b .opportunistic
  others : ∀ b, ¬v.TakesForced b → ¬(b ∈ l ∧ v.TakesOpportunistic b) → u.bank b = v.bank b
  designation : (∀ b, ¬v.TakesForced b) → u.bm.designation = v.bm.designation
  rest : { u with bm := v.bm } = v
  manager : { u.bm with banks := v.bm.banks, designation := v.bm.designation } = v.bm

/-- What a change of site time leaves (R33, R77, R78): outside UNCONFIGURED every overdue flag is set as the overdue test
has it at the new time, PROOF OVERDUE is posted for each bank newly overdue, in increasing number, and the bank that the
forced proof examination takes is held for its proof. -/
structure TimeTested (s u : State) : Prop where
  unconfigured : s.site.mode = .unconfigured → u.bm = s.bm ∧ u.outbox = s.outbox
  notices : s.site.mode ≠ .unconfigured → u.outbox = s.outbox
    ++ (fourIds.filter fun b => ({ s with site := u.site }).isOverdue b && !(s.bank b).overdue).map fun b =>
        .proofOverdue b (if (s.bank b).baseIsProven then (s.bank b).provenAt else none)
  taken : s.site.mode ≠ .unconfigured → ∀ b, ({ s with site := u.site }).TakesForced b →
    u.bank b = { s.forcedBank b with overdue := true } ∧ u.bm.designation = some b
  flags : s.site.mode ≠ .unconfigured → ∀ b, ¬({ s with site := u.site }).TakesForced b →
    u.bank b = { s.bank b with overdue := ({ s with site := u.site }).isOverdue b }
  designation : (∀ b, ¬({ s with site := u.site }).TakesForced b) → u.bm.designation = s.bm.designation
  manager : { u.bm with banks := s.bm.banks, designation := s.bm.designation } = s.bm
  rest : u.pending = s.pending ∧ u.choices = s.choices ∧ u.ports = s.ports ∧ u.cbu = s.cbu ∧ u.monitors = s.monitors
    ∧ u.sessions = s.sessions ∧ u.sales = s.sales

/-! ### Claiming a bank -/

/-- A bank serves a position's session while the data are FRESH (R57): it is not SUSPECT, and its pressure is at least the
nozzle pressure and the switch margin. -/
def State.Serves (s : State) (p : PosId) (b : BankId) : Prop :=
  (s.bank b).proofState ≠ .suspect ∧ s.nozzlePressure p + (s.profileOf p).switchMargin ≤ (s.bank b).pressure.getD 0

/-- The candidates of a session's selection, in list order (R124). -/
def Session.selectable (x : Session) : List BankId :=
  match x.cascadePos with
  | none => x.cascade
  | some i => x.cascade.drop (if x.kind = some .switch then i + 1 else i)

/-- The bank that a selection chooses from its candidates (R124): the first that serves and is not held by PROOF, and where
PROOF holds every one that serves, the first of them. -/
def State.Chooses (s : State) (p : PosId) (l : List BankId) (b : BankId) : Prop :=
  ∃ before after, l = before ++ b :: after ∧ s.Serves p b
    ∧ ((s.bank b).holder ≠ .proof ∧ (∀ d ∈ before, s.Serves p d → (s.bank d).holder = .proof)
      ∨ (∀ d ∈ before, ¬s.Serves p d) ∧ ∀ d ∈ l, s.Serves p d → (s.bank d).holder = .proof)

/-- A session that has been granted a bank, its CLAIM phase not yet ended: the snapshot at claim, the cascade position at
the bank, and the BANK factor of a claim handed over while the data are STALE (R55, R65, R126, R127). -/
def State.grantedAs (s : State) (b : BankId) (x : Session) : Session :=
  { x with
    bank := some b
    awaited := none
    awaitingFresh := false
    bankWaitTimer := none
    cascadePos := some (x.cascade.idxOf b)
    massAtClaim := some ((s.bank b).mass.getD 0)
    banksUsed := if x.banksUsed.getLast? = some b then x.banksUsed else x.banksUsed ++ [b]
    staleMark := x.staleMark || decide (s.bm.freshness = .stale)
    factors := if s.bm.freshness = .stale then { x.factors with bank := true } else x.factors
    resumeTimer := if s.bm.freshness = .stale then none else x.resumeTimer }

/-- A session whose CLAIM phase has ended (R123, R127, R128, R131): SETTLE in a switch and CONNECT in any other
connection, or HELD with that phase as its resume point when a factor is set. -/
def State.afterClaim (s : State) (p : PosId) (x : Session) : Session :=
  if x.factors = Factors.none then if x.kind = some .switch then s.settlesAs p x else s.connectsAs p x
  else s.heldAs x (some (if x.kind = some .switch then .settle else .connect))

/-- A position has come to hold a bank, in an event that has come from a first state to a second (R62, R127). What a
settle interval of 0 ends at once is left to the statements of the phases. -/
structure HoldsBank (s u : State) (p : PosId) (b : BankId) : Prop where
  holder : (u.bank b).holder = .position p
  bank : (u.session p).bank = some b ∧ (u.session p).awaited = none
  session : (s.profileOf p).settleInterval ≠ 0 ∨ (s.grantedAs b (s.session p)).factors ≠ Factors.none →
    u.session p = s.afterClaim p (s.grantedAs b (s.session p))

/-- A position has joined the tail of a bank's wait queue (R59, R126). -/
structure WaitsForBank (s u : State) (p : PosId) (b : BankId) : Prop where
  holder : (u.bank b).holder = (s.bank b).holder
  queue : (u.bank b).queue = (s.bank b).queue ++ [p]
  session : u.session p = { s.session p with awaited := some b, bankWaitTimer := some (s.config.param 12) }

/-- What the claim request of a position for a bank comes to (R59, R74, R80): a bank FREE or held by PROOF is granted, a
proof on it abandoned; on one held by a position or by REFILL the position waits, on REFILL with the yield timer running;
a yield interval of 0 ends the refill at once for the first to wait. -/
structure ClaimsBank (s u : State) (p : PosId) (b : BankId) : Prop where
  granted : (s.bank b).holder = .free ∨ (s.bank b).holder = .proof → HoldsBank s u p b
    ∧ (u.bank b).proof = none ∧ (u.bank b).proofState = ((s.bank b).proof.map (·.before)).getD (s.bank b).proofState
    ∧ ((s.bank b).proof.isSome = true → u.bm.designation ≠ some b)
  busy : (∃ q, (s.bank b).holder = .position q) → WaitsForBank s u p b ∧ u.bm.yieldTimer = s.bm.yieldTimer
  refilled : (s.bank b).holder = .refill → (s.bank b).queue ≠ [] ∨ s.bm.yieldTimer.getD (s.config.param 13) ≠ 0 →
    WaitsForBank s u p b ∧ u.bm.yieldTimer = some (s.bm.yieldTimer.getD (s.config.param 13))
  yielded : (s.bank b).holder = .refill → (s.bank b).queue = [] → s.bm.yieldTimer.getD (s.config.param 13) = 0 →
    HoldsBank s u p b ∧ u.bm.refillInFlight = none ∧ u.bm.yieldTimer = none ∧ Notice.refillStop b .yield ∈ u.outbox

/-! ### Giving a bank back -/

/-- A session that has released a bank: the snapshot at release, and no bank (R62, R65). -/
def State.releasedAs (s : State) (b : BankId) (x : Session) : Session :=
  { x with
    bank := none
    massAtClaim := none
    bankSum := x.bankSum + (x.massAtClaim.getD 0 : Nat) - ((s.bank b).mass.getD 0 : Nat)
    staleMark := x.staleMark || decide (s.bm.freshness = .stale) }

/-- A position has released a bank, in an event that has come from a first state to a second (R62, R65, R78, R79): the bank
is handed to the head of its wait queue, or is FREE and the proof examinations follow. -/
structure Releases (s v : State) (p : PosId) (b : BankId) : Prop where
  free : (s.bank b).queue = [] →
    Examined
      { s.becomes p (s.releasedAs b (s.session p)) with
        bm := { s.bm with banks := s.bm.banks.set b { s.bank b with holder := .free } } }
      v [b]
  handed : ∀ q rest, (s.bank b).queue = q :: rest →
    HoldsBank s v q b ∧ (v.bank b).queue = rest ∧ v.session p = s.releasedAs b (s.session p)
      ∧ (∀ z, z ≠ p → z ≠ q → v.session z = s.session z) ∧ Undisturbed s v
      ∧ (∀ c, c ≠ b → v.bank c = s.bank c) ∧ { v.bm with banks := s.bm.banks } = s.bm ∧ v.cbu = s.cbu
      ∧ v.sales = s.sales

/-- The head of a cooling wait queue, if there is one, does not fit a capacity beside what is granted (R90). -/
def HeadWaits (capacity granted : Nat) (q : List Waiter) : Prop := ∀ w rest, q = w :: rest → capacity < granted + w.demand

/-! ### Ending a session -/

/-- A session that is being ended (R148 steps 1 to 3): the reason, the time and the nozzle pressure of its end, no command,
every timer stopped, and an unfinished connection abandoned. It has not yet given back what it holds. -/
def State.markedAs (s : State) (p : PosId) (r : EndReason) : Session :=
  { (s.session p).quiet with
    state := .ended
    endReason := some r
    endTime := some s.site.siteTime
    endNozzle := some ((s.monitor p).pressure.getD ((s.session p).lastNozzle.getD 0))
    bankWaitTimer := none
    resumeTimer := none
    keepTimer := none
    awaitingFresh := false
    kind := none
    attempt := none
    resumePoint := none }

/-- A session that has ended (R148): marked, its bank given back with the snapshot at release, no place in a queue, and no
cooling. Everything else of the session is kept. -/
def State.endedAs (s : State) (p : PosId) (r : EndReason) : Session :=
  { (match (s.session p).bank with
      | some b => s.releasedAs b (s.markedAs p r)
      | none => s.markedAs p r) with
    awaited := none
    cooling := .noCooling }

/-- How a position's session stands once an event has ended it with a reason (R148, R159): its record is the ended one; it
stands in the close queue, or it is CLOSING in the register with the closing timer started; and SESSION STATE is posted
with the reason. -/
structure EndsWith (s t : State) (p : PosId) (r : EndReason) : Prop where
  record : t.session p = { s.endedAs p r with state := (t.session p).state }
  filed :
    (t.session p).state = .ended ∧ p ∈ t.sales.closeQueue
      ∨ (t.session p).state = .closing ∧ t.sales.register = some p ∧ t.sales.closingTimer = some (s.config.param 9)
        ∧ Notice.sessionState p .closing (some r) (s.session p).reference ∈ t.outbox
  shown : Notice.sessionState p .ended (some r) (s.session p).reference ∈ t.outbox

/-- A session that is being ended has given back its bank or its place in a wait queue (R148 step 4, R61, R62, R64, R74). -/
structure GivesBack (s v : State) (p : PosId) (r : EndReason) : Prop where
  holds : ∀ b, (s.session p).bank = some b → Releases (s.becomes p (s.markedAs p r)) v p b
  waits : ∀ b, (s.session p).bank = none → (s.session p).awaited = some b →
    v = { s.becomes p { s.markedAs p r with awaited := none } with
        bm :=
          { s.bm with
            banks := s.bm.banks.set b { s.bank b with queue := (s.bank b).queue.filter (· ≠ p) }
            yieldTimer := v.bm.yieldTimer } }
      ∧ ((∃ c, s.bm.refillInFlight = some c ∧ (v.bank c).queue = []) → v.bm.yieldTimer = none)
      ∧ ((∀ c, s.bm.refillInFlight = some c → (v.bank c).queue ≠ []) → v.bm.yieldTimer = s.bm.yieldTimer)
  neither : (s.session p).bank = none → (s.session p).awaited = none → v = s.becomes p (s.markedAs p r)

/-- What a position's cooling gives back lets no waiter be granted (R90, R93): it is not listed, or the head that is left
does not fit beside the grants that are left. -/
def State.GrantsNone (s : State) (p : PosId) : Prop :=
  p ∉ s.cbu.positions
    ∨ HeadWaits s.cbu.capacity ((s.cbu.grants.filter (·.pos ≠ p)).map (·.demand)).sum (s.cbu.queue.filter (·.pos ≠ p))

/-- What the end of a position's session does to the lists of the Cooling Budget Unit and to the close queue. The waiters
of `taken` have been granted, those of `more` have ended in turn because no bank served them (R90, R93, R97, R124, R148
steps 5 and 7, R159). -/
structure ClearsPlaces (s t : State) (p : PosId) (taken rest : List Waiter) (more : List PosId) : Prop where
  queue : s.cbu.queue = taken ++ rest ∧ t.cbu.queue = rest.filter (·.pos ∉ more ++ [p])
  grants : t.cbu.grants =
    (s.cbu.grants ++ taken.map fun w => Grant.mk w.pos w.demand w.limit).filter (·.pos ∉ more ++ [p])
  unlisted : p ∉ s.cbu.positions → taken = []
  granting : p ∈ s.cbu.positions → HeadWaits t.cbu.capacity t.granted t.cbu.queue
  demand : t.cbu.queue ≠ s.cbu.queue → Notice.coolingDemand (t.cbu.queue.map (·.demand)).sum ∈ t.outbox
  told : ∀ w ∈ taken, w.pos ∉ more ++ [p] → (t.session w.pos).cooling = .granted
  also : ∀ q ∈ more, q ≠ p ∧ q ∈ taken.map (·.pos) ∧ (t.session q).endReason = some .banksExhausted
  joined : t.sales.pendingSessions = s.sales.pendingSessions ++ more ++ [p]
  free : s.sales.register = none →
    t.sales.register = (more ++ [p]).head? ∧ t.sales.closingTimer = some (s.config.param 9)
  busy : s.sales.register ≠ none → t.sales.register = s.sales.register ∧ t.sales.closingTimer = s.sales.closingTimer
  records : t.sales.records = s.sales.records ∧ t.sales.counter = s.sales.counter

/-- A session that ran has been ended in an event that has come from a first state to a second (R148): it stands as R148
says, it has given back its bank, its cooling and its place, the waiters are granted as far as they fit, and it has joined
the close queue. Other sessions change only as far as what it gave back reaches them, and nothing else changes. -/
structure Ends (s t : State) (p : PosId) (r : EndReason) : Prop where
  ended : EndsWith s t p r
  gives : ∃ v : State, GivesBack s v p r ∧ LeavesOthers v t p
    ∧ (s.GrantsNone p → t.bm = v.bm ∧ ∀ q, q ≠ p → t.session q = v.session q)
  places : ∃ taken rest more, ClearsPlaces s t p taken rest more
  others : LeavesOthers s t p
  rest : Undisturbed s t

/-- The loss of a position's vehicle data (R112, R114, R146): VEHICLE DATA LOST is posted; a running COMM session ends
where its profile makes vehicle data mandatory, and is NON-COMM for its rest where it does not; any other session is as
it was. -/
structure LosesVehicle (s u : State) (p : PosId) (cause : LossCause) (lost : Monitor) : Prop where
  mandatory :
    (s.session p).running = true → (s.session p).comm = some .comm → (s.profileOf p).vehicleDataMandatory = true →
      Ends { s with monitors := s.monitors.set p lost, outbox := s.outbox ++ [Notice.vehicleDataLost p cause] } u p
        .vehicleDataLost
  optional :
    (s.session p).running = true → (s.session p).comm = some .comm → (s.profileOf p).vehicleDataMandatory = false →
      u = ({ s with monitors := s.monitors.set p lost, outbox := s.outbox ++ [Notice.vehicleDataLost p cause] }).becomes p
        { s.session p with comm := some .nonComm, flags := { (s.session p).flags with nonComm := true } }
  other :
    ¬((s.session p).running = true ∧ (s.session p).comm = some .comm) →
      u = { s with monitors := s.monitors.set p lost, outbox := s.outbox ++ [Notice.vehicleDataLost p cause] }

/-! ### Selecting a bank -/

/-- A position's session has selected from its candidates while the data are FRESH (R57, R124): it ends with BANKS
EXHAUSTED when none serves, and claims the one chosen otherwise. -/
structure Selects (s u : State) (p : PosId) (l : List BankId) : Prop where
  exhausted : (∀ b ∈ l, ¬s.Serves p b) → Ends s u p .banksExhausted
  chosen : ∀ b, s.Chooses p l b → ClaimsBank s u p b ∧ (∀ q, q ≠ p → u.session q = s.session q) ∧ Undisturbed s u

/-! ### Leaving OPENING and HELD

`goes u` says that the event leaves the state u, its notices not yet in the queues. -/

/-- A session that selects in phase CLAIM (R124, R125): it awaits fresh data while they are STALE. It holds and awaits no
bank then, as every coherent session (Session.Coherent). -/
structure Claiming (s : State) (p : PosId) (y : Session) (goes : State → Prop) : Prop where
  stale : s.bm.freshness = .stale → goes ((s.shows p y.claims).becomes p (s.awaitsAs y.claims))
  fresh : s.bm.freshness = .fresh → Consistent s → y.bank = none → y.awaited = none →
    ∃ u : State, goes u ∧ Selects (s.shows p y.claims) u p y.selectable

/-- The session of a position that leaves OPENING at its cooling grant, of which its record tells already (R107, R122):
for a first connection, or for HELD when a factor is set. -/
structure LeavesOpening (s : State) (p : PosId) (goes : State → Prop) : Prop where
  connects : (s.session p).factors = Factors.none →
    Claiming { s with monitors := s.monitors.set p { s.monitor p with progressTimer := some (s.config.param 8) } } p
      { s.session p with kind := some .first, attempt := some .first, resumePoint := none } goes
  held : (s.session p).factors ≠ Factors.none →
    goes
      ({ s with monitors := s.monitors.set p { s.monitor p with progressTimer := some (s.config.param 8) } }.shows p
        (s.heldAs { s.session p with kind := some .first, attempt := some .first, resumePoint := none } (some .claim)))

/-- A session whose hold is over (R141, R142, R144). An interval of this hold that has carried its held time past the hold
limit at the instant of the resume is not counted: log entry 14. -/
def State.unheldAs (s : State) (p : PosId) : Session :=
  { s.session p with
    resumeTimer := none
    keepTimer := none
    heldTime :=
      if (s.session p).heldTime = (s.profileOf p).holdLimit + 1 ∧ (s.session p).heldBefore ≤ (s.profileOf p).holdLimit then
        (s.profileOf p).holdLimit
      else (s.session p).heldTime }

/-- A session that connects anew: FIRST before it has a ramp base and RECONNECT after (R132). -/
def Session.anew (x : Session) : Session :=
  { x with kind := some (if x.rampBase.isSome then .reconnect else .first), attempt := some .first, resumePoint := none }

/-- A session at the phase at which its connection resumes. -/
def Session.resumed (x : Session) : Session := { x with resumePoint := none }

/-- A position's session leaves HELD (R123, R132, R142): for DELIVERING with its bank and a finished connection, for the
phase at which its connection stood, or, with neither, for a connection anew. -/
structure LeavesHold (s : State) (p : PosId) (goes : State → Prop) : Prop where
  delivers : (s.session p).resumePoint = none → (s.session p).bank.isSome = true → (s.session p).kind = none →
    (s.session p).attempt = none → goes (s.shows p (s.deliversAs (s.unheldAs p)))
  anew : (s.session p).resumePoint = none → (s.session p).bank = none → Claiming s p (s.unheldAs p).anew goes
  claim : (s.session p).resumePoint = some .claim → Claiming s p (s.unheldAs p).resumed goes
  connect : (s.session p).resumePoint = some .connect → (s.profileOf p).settleInterval ≠ 0 →
    goes ((s.shows p (s.unheldAs p).resumed.claims).becomes p (s.connectsAs p (s.unheldAs p).resumed))
  connectAtOnce : (s.session p).resumePoint = some .connect → (s.profileOf p).settleInterval = 0 →
    (s.session p).factors = Factors.none →
    goes ((s.shows p (s.unheldAs p).resumed.claims).becomes p (s.checksAs p (s.unheldAs p).resumed))
  leakCheck : (s.session p).resumePoint = some .leakCheck →
    goes ((s.shows p (s.unheldAs p).resumed.claims).becomes p (s.checksAs p (s.unheldAs p).resumed))
  settle : (s.session p).resumePoint = some .settle → (s.profileOf p).settleInterval ≠ 0 →
    goes ((s.shows p (s.unheldAs p).resumed.claims).becomes p (s.settlesAs p (s.unheldAs p).resumed))
  settleAtOnce : (s.session p).resumePoint = some .settle → (s.profileOf p).settleInterval = 0 →
    (s.session p).factors = Factors.none →
    goes ((s.shows p (s.unheldAs p).resumed.claims).shows p (s.deliversAs (s.unheldAs p).resumed))
  any : ∃ u : State, goes u ∧ Undisturbed s u

/-- Some of a session's hold factors have been cleared, none set anew (R139, R142): it stands on with those that are left,
or leaves HELD at once where none is left and its resume delay is 0. -/
structure Clears (s : State) (p : PosId) (y : Factors) (goes : State → Prop) : Prop where
  stays : s.ClearStays (s.session p) y → goes (s.becomes p (s.afterClear (s.session p) y))
  leaves : ¬s.ClearStays (s.session p) y → LeavesHold (s.becomes p { s.session p with factors := y }) p goes

/-- A position's session is told that its cooling is granted (R90, R122, R139). -/
structure Cooled (s : State) (p : PosId) (goes : State → Prop) : Prop where
  opening : (s.session p).state = .opening →
    LeavesOpening (s.becomes p { s.session p with cooling := .granted }) p goes
  later : (s.session p).state ≠ .opening →
    Clears (s.becomes p { s.session p with cooling := .granted }) p { (s.session p).factors with cooling := false } goes

/-- The head of the cooling wait queue is granted (R90, R97): it takes the newest place in the grant list with its wait
timer gone, COOLING DEMAND is posted, and its session is told. -/
def GrantsHead (s : State) (w : Waiter) (rest : List Waiter) (goes : State → Prop) : Prop :=
  Cooled
    { s with
      cbu := { s.cbu with grants := s.cbu.grants ++ [⟨w.pos, w.demand, w.limit⟩], queue := rest }
      outbox := s.outbox ++ [Notice.coolingDemand (rest.map Waiter.demand).sum] }
    w.pos goes

/-! ### Committing sales -/

/-- The sequence number that a counter gives to a sale after a number of others: none, 0, once the greatest has been given
(R160, step 3). -/
def sequenceAfter (counter n : Nat) : Nat :=
  if counter = 0 ∨ counter ≤ 4294967295 ∧ 4294967295 < counter + n then 0 else counter + n

/-- A sale record is that of its position's session (R160 steps 1, 2 and 4, R161): billed by its ceiling and its price, and
reconciled with the banks. -/
structure SaleRecord.Sells (r : SaleRecord) (s : State) : Prop where
  auth : ∀ a, (s.session r.position).auth = some a → r.auth = a
  metered : r.metered = (s.session r.position).finalMass.getD (s.session r.position).lastMass
  price : ∀ price ceiling, (s.session r.position).unitPrice = some price →
    (s.session r.position).massCeiling = some ceiling → r.unitPrice = price ∧ r.billed = min r.metered ceiling
  unpriced : (s.session r.position).unitPrice = none → r.unitPrice = 0 ∧ r.billed = 0
  overrun : r.overrun = r.metered - r.billed
  amount : r.amount = (r.billed * r.unitPrice + 500) / 1000
  bankSide : r.bankSide =
    if (s.session r.position).banksUsed = [] then none else some (s.session r.position).bankSum
  profiles : (∀ k, (s.session r.position).profileAtStart = some k → r.profileAtStart = k)
    ∧ ∀ k, (s.session r.position).profile = some k → r.profileAtEnd = k ∧ r.precoolAtEnd = precoolOfProfile k
  opened : (∀ c, (s.session r.position).fuelClass = some c → r.fuelClass = c)
    ∧ (∀ c, (s.session r.position).precoolAtStart = some c → r.precoolAtStart = c)
    ∧ ∀ n, (s.session r.position).startTime = some n → r.startTime = n
  course : r.startPressure = (s.session r.position).startPressure ∧ r.banksUsed = (s.session r.position).banksUsed
    ∧ r.activeTime = (s.session r.position).activeTime ∧ r.heldTime = (s.session r.position).heldTime
  ended : r.endReason = (s.session r.position).endReason
    ∧ (∀ n, (s.session r.position).endTime = some n → r.endTime = n)
    ∧ ∀ n, (s.session r.position).endNozzle = some n → r.endNozzle = n
  marks : r.flags.degradedCooling = (s.session r.position).flags.degradedCooling
    ∧ r.flags.nonComm = (s.session r.position).flags.nonComm
    ∧ r.flags.interrupted = (s.session r.position).flags.interrupted
    ∧ r.flags.estimated = ((s.session r.position).flags.estimated || (s.session r.position).finalMass.isNone)
  unchecked : r.flags.unchecked = true ↔ (s.session r.position).flags.unchecked = true
    ∨ (s.session r.position).banksUsed ≠ [] ∧ (s.session r.position).staleMark = true
  mismatch : r.flags.mismatch = true ↔
    (s.session r.position).banksUsed ≠ [] ∧ (s.session r.position).staleMark = false
      ∧ (r.metered * s.config.param 20 + 500) / 1000 + s.config.param 21
        < ((r.metered : Int) - (s.session r.position).bankSum).natAbs

/-- The positions of a list have been committed in its order, in an event that has come from a first state to a second
(R149, R160): each record stands under the next number and the next place, with its notices, and each session is IDLE. -/
structure Sold (s u : State) (l : List PosId) (sold : List SaleRecord) : Prop where
  records : u.sales.records = s.sales.records ++ sold
  positions : sold.map (·.position) = l
  sells : ∀ r ∈ sold, r.Sells s
  sequences : ∀ i r, sold[i]? = some r → r.sequence = sequenceAfter s.sales.counter i
  counter : u.sales.counter = sequenceAfter s.sales.counter sold.length
  ready : ∀ i, i < sold.length → Notice.recordReady (s.sales.records.length + i + 1) ∈ u.outbox
  mismatches : ∀ r ∈ sold, r.flags.mismatch = true → Notice.massMismatch r.sequence ∈ u.outbox
  shown : ∀ p ∈ l,
    Notice.sessionState p .idle (s.session p).endReason (s.session p).reference ∈ u.outbox
  idle : ∀ p ∈ l, u.session p = Session.idle

/-- The closing of the session in the register is complete (R159, R160 step 7): it is committed, with it each next head of
the close queue that has its final mass, and the head that has none takes the register. -/
structure Closes (s u : State) (p : PosId) (finished waiting : List PosId) : Prop where
  sold : ∃ sold, Sold s u (p :: finished) sold
  free : waiting = [] → u.sales.register = none ∧ u.sales.closingTimer = none ∧ u.sales.closeQueue = []
    ∧ ∀ z, z ∉ p :: finished → u.session z = s.session z
  taken : ∀ q rest, waiting = q :: rest →
    u.sales.register = some q ∧ u.sales.closeQueue = rest ∧ u.sales.closingTimer = some (s.config.param 9)
      ∧ u.session q = { s.session q with state := .closing }
      ∧ Notice.sessionState q .closing (s.session q).endReason (s.session q).reference ∈ u.outbox
      ∧ ∀ z, z ∉ p :: finished → z ≠ q → u.session z = s.session z
  blocks : u.bm = s.bm ∧ u.cbu = s.cbu ∧ u.monitors = s.monitors ∧ u.site = s.site ∧ u.ports = s.ports
  sales : u.sales.slots = s.sales.slots ∧ u.sales.tariff = s.sales.tariff

/-! ### Layouts -/

/-- A number stands in a body at an offset, in so many bytes, most significant byte first (R167). -/
def StandsAt (body : List Byte) (off size n : Nat) : Prop := field body off size = n % 256 ^ size

/-- A presence byte stands in a body at an offset, and behind it a number, 0 when absent (R169). -/
def StandsIf (body : List Byte) (off size : Nat) (x : Option Nat) : Prop :=
  StandsAt body off 1 (if x.isSome = true then 1 else 0) ∧ StandsAt body (off + 1) size (x.getD 0)

/-- The numbers of the rows stand in a body, each row an offset, a size and a number. -/
def Stand (body : List Byte) (rows : List (Nat × Nat × Nat)) : Prop := ∀ r ∈ rows, StandsAt body r.1 r.2.1 r.2.2

/-- The optional numbers of the rows stand in a body. -/
def StandMarked (body : List Byte) (rows : List (Nat × Nat × Option Nat)) : Prop := ∀ r ∈ rows, StandsIf body r.1 r.2.1 r.2.2

/-- Four places of one byte stand in a body at an offset, with the members of a list in order and 255 beyond them. -/
def PlacesAt (body : List Byte) (off : Nat) (l : List (Fin 4)) : Prop :=
  ∀ i < 4, StandsAt body (off + i) 1 ((l[i]?.map Fin.val).getD 255)

/-- Bits as a number, the first of them bit 0. -/
def bitsOf (l : List Bool) : Nat := l.foldr (fun b n => (if b = true then 1 else 0) + 2 * n) 0

/-- The command of a session stands in four bytes of a body (R106, R170): PULSE in phase CONNECT and FLOW in DELIVERING,
each with its bank and its ceiling, CLOSED otherwise. -/
structure CommandAt (body : List Byte) (off : Nat) (x : Session) : Prop where
  pulse : ∀ (b : BankId) c, x.state = .connecting → x.phase = some .connect → x.bank = some b → x.pulseCeiling = some c →
    Stand body [(off, 1, 1), (off + 1, 1, b.val), (off + 2, 2, c)]
  flow : ∀ (b : BankId) c, x.state = .delivering → x.bank = some b → x.flowCeiling = some c →
    Stand body [(off, 1, 2), (off + 1, 1, b.val), (off + 2, 2, c)]
  closed : ¬(x.state = .connecting ∧ x.phase = some .connect) → x.state ≠ .delivering →
    Stand body [(off, 1, 0), (off + 1, 1, 255), (off + 2, 2, 0)]

/-- The body of READ POSITION, field by field (R173). -/
structure PositionLaid (body : List Byte) (m : Monitor) (x : Session) : Prop where
  length : body.length = 82
  numbers :
    Stand body
      [(0, 1, m.nozzle.code), (14, 1, m.record.code), (15, 1, (m.vehicle.map (·.fuelClass.code)).getD 255),
        (25, 1, (m.vehicle.map (·.command.code)).getD 255), (34, 1, m.errors), (38, 1, x.state.code),
        (39, 1, (x.phase.map Phase.code).getD 255),
        (44, 1, bitsOf [x.factors.cooling, x.factors.bank, x.factors.vehicleHalt, x.factors.overRamp, x.factors.gasWarm,
          x.factors.pause]),
        (45, 1, (x.comm.map CommFlag.code).getD 255), (46, 1, x.profileAtStart.getD 255), (47, 1, x.profile.getD 255),
        (48, 1, (x.endReason.map EndReason.code).getD 0), (49, 1, x.cooling.code),
        (50, 1, (x.kind.map ConnKind.code).getD 255), (51, 1, (x.attempt.map Attempt.code).getD 255),
        (52, 1, (x.resumePoint.map Phase.code).getD 255), (53, 1, (x.bank.map Fin.val).getD 255),
        (54, 1, (x.awaited.map Fin.val).getD 255), (55, 1, x.cascadePos.getD 255),
        (61, 1, bitsOf [x.flags.degradedCooling, x.flags.nonComm, x.flags.estimated, x.flags.interrupted,
          x.flags.unchecked]),
        (62, 4, x.activeTime), (66, 4, x.heldTime), (79, 3, x.lastMass)]
  marked :
    StandMarked body
      [(1, 2, m.pressure), (4, 2, m.temperature), (7, 3, m.mass), (11, 2, m.progressTimer),
        (16, 2, m.vehicle.map (·.volume)), (19, 2, m.vehicle.map (·.pressure)), (22, 2, m.vehicle.map (·.temperature)),
        (26, 2, m.vehicle.map (·.soc)), (29, 4, m.vehicle.map (·.tankMass)), (35, 2, m.ageTimer),
        (56, 4, x.auth.map (·.reference)), (70, 4, x.unitPrice), (75, 3, x.massCeiling)]
  command : CommandAt body 40 x

/-- The body of READ BANKS, field by field (R173). -/
structure BanksLaid (body : List Byte) (s : State) : Prop where
  length : body.length = 114
  numbers : ∀ b : BankId,
    Stand body
      [(26 * b.val, 1, b.val), (26 * b.val + 12, 1, s.bm.freshness.code), (26 * b.val + 13, 1, (s.bank b).holder.code),
        (26 * b.val + 14, 1, (s.bank b).queue.length), (26 * b.val + 19, 1, (s.bank b).proofState.code),
        (26 * b.val + 25, 1, if b ∈ s.bm.refillList then 1 else 0)]
  marked : ∀ b : BankId,
    StandMarked body
      [(26 * b.val + 1, 2, (s.bank b).pressure), (26 * b.val + 4, 2, (s.bank b).temperature),
        (26 * b.val + 7, 4, (s.bank b).mass), (26 * b.val + 20, 4, (s.bank b).provenAt)]
  waiters : ∀ b : BankId, PlacesAt body (26 * b.val + 15) (s.bank b).queue
  site :
    Stand body
      [(107, 1, (s.bm.refillInFlight.map Fin.val).getD 255), (108, 1, (s.bm.designation.map Fin.val).getD 255),
        (109, 1, s.bm.refillList.length)]
  ambient : StandsIf body 104 2 s.bm.ambient
  list : PlacesAt body 110 s.bm.refillList

/-- The body of READ COOLING, field by field (R173). -/
structure CoolingLaid (body : List Byte) (c : CoolingUnit) : Prop where
  length : body.length = 58
  numbers :
    Stand body
      [(0, 2, c.capacity), (2, 2, (c.grants.map (·.demand)).sum), (4, 4, (c.queue.map (·.demand)).sum),
        (8, 1, c.grants.length), (29, 1, c.queue.length)]
  grants : ∀ i < 4,
    match c.grants[i]? with
    | some g => Stand body [(9 + 5 * i, 1, g.pos.val), (10 + 5 * i, 2, g.demand), (12 + 5 * i, 2, g.limit)]
    | none => Stand body [(9 + 5 * i, 1, 255), (10 + 5 * i, 4, 0)]
  waiters : ∀ i < 4,
    match c.queue[i]? with
    | some w =>
      Stand body
        [(30 + 7 * i, 1, w.pos.val), (31 + 7 * i, 2, w.demand), (33 + 7 * i, 2, w.limit), (35 + 7 * i, 2, w.timer)]
    | none => Stand body [(30 + 7 * i, 1, 255), (31 + 7 * i, 6, 0)]

/-- How many entries of each table of a configuration are loaded, the site parameters counted as 0 or 24 (R35). -/
def SiteConfig.loaded (c : SiteConfig) : List Nat :=
  [(c.density.filter (·.isSome)).length, (c.profiles.filter (·.isSome)).length,
    (fourIds.filter fun b => (c.banks.get b).isSome).length
      + ([c.cascadeH70, c.cascadeH35].filter (·.isSome)).length,
    (fourIds.filter fun p => (c.positions.get p).isSome).length, if c.params.isSome = true then 24 else 0]

/-- The body of READ SITE with SUMMARY, field by field (R35, R173). -/
structure SummaryLaid (body : List Byte) (s : State) : Prop where
  length : body.length = 26
  numbers :
    Stand body
      [(0, 1, s.site.mode.code), (1, 1, (s.site.haltCause.map HaltCause.code).getD 255), (17, 4, s.site.siteTime),
        (21, 1, s.site.priceBand.code), (22, 1, s.site.ambientBand)]
  inForce : ∀ i < 5, StandsAt body (2 + i) 1 (s.site.config.loaded.getD i 0)
  working : ∀ i < 5, StandsAt body (7 + i) 1 ((s.site.working.map fun c => c.loaded.getD i 0).getD 255)
  marked : StandMarked body [(12, 4, s.site.commissionedAt), (23, 2, s.bm.ambient)]

/-- A sale record as read, field by field (R171). -/
structure SaleRecord.Laid (body : List Byte) (r : SaleRecord) : Prop where
  length : body.length = 68
  numbers :
    Stand body
      [(0, 4, r.sequence), (4, 1, r.position.val), (5, 4, r.auth.reference), (14, 1, r.fuelClass.code),
        (15, 1, r.precoolAtStart.code), (16, 1, r.precoolAtEnd.code), (17, 1, r.profileAtStart), (18, 1, r.profileAtEnd),
        (19, 4, r.startTime), (23, 4, r.endTime), (27, 1, bitsOf [r.startPressure.isSome, r.bankSide.isSome]),
        (28, 2, r.startPressure.getD 0), (30, 2, r.endNozzle), (32, 3, r.metered), (35, 3, r.billed), (38, 3, r.overrun),
        (45, 4, r.unitPrice), (49, 4, r.amount), (53, 1, (r.endReason.map EndReason.code).getD 0),
        (54, 1, bitsOf [r.flags.degradedCooling, r.flags.nonComm, r.flags.estimated, r.flags.interrupted,
          r.flags.unchecked, r.flags.mismatch]),
        (55, 4, r.activeTime), (59, 4, r.heldTime), (63, 1, r.banksUsed.length)]
  prepaid : ∀ n, r.auth.kind = .prepaid n → Stand body [(9, 1, 0), (10, 4, n)]
  fleet : ∀ n, r.auth.kind = .fleet n → Stand body [(9, 1, 1), (10, 4, n)]
  bankSide : (field body 41 4 : Int) = r.bankSide.getD 0 % 4294967296
  banks : PlacesAt body 64 r.banksUsed

/-- A notice as listed in 8 bytes: its kind, its subject, and the rows of its content (R169). -/
def Notice.Laid (n : Notice) (kind subject : Nat) (rows : List (Nat × Nat × Nat)) : Prop :=
  n.entry.length = 8 ∧ Stand n.entry ((0, 1, kind) :: (1, 1, subject) :: rows)

/-! ### Tables as loaded -/

/-- The fields of a profile entry of an index lie in their ranges (R28). -/
structure Profile.InRange (i : Nat) (f : Profile) : Prop where
  rampRate : 1 ≤ f.rampRate ∧ f.rampRate ≤ 1000
  endPressure : 1 ≤ f.endPressure ∧ f.endPressure ≤ profileMawp i
  nonCommEndPressure : 1 ≤ f.nonCommEndPressure ∧ f.nonCommEndPressure ≤ f.endPressure
  socTarget : 800 ≤ f.socTarget ∧ f.socTarget ≤ 1000
  segmentLength : 10 ≤ f.segmentLength ∧ f.segmentLength ≤ 50
  settleInterval : f.settleInterval ≤ 50
  leakCheckHold : 10 ≤ f.leakCheckHold ∧ f.leakCheckHold ≤ 100
  leakDropLimit : 1 ≤ f.leakDropLimit ∧ f.leakDropLimit ≤ 500
  overshoot : f.overshoot ≤ 700
  switchMargin : 10 ≤ f.switchMargin ∧ f.switchMargin ≤ 1000
  warmGrace : f.warmGrace ≤ 600
  resumeDelay : f.resumeDelay ≤ 300
  holdLimit : 100 ≤ f.holdLimit ∧ f.holdLimit ≤ 6000
  coolingDemand : f.coolingDemand ≤ 50000
  warmest : precoolOfProfile i = .t0 → f.coolingDemand = 0
  coolingWaitLimit : f.coolingWaitLimit ≤ 3000
  closingAnticipation : f.closingAnticipation ≤ 500
  degradeTo : ∀ k, f.degradeTo = some k → i < k ∧ k % 6 = i % 6 ∧ k / 24 = i / 24 ∧ k < 48

/-- The fields of a bank entry lie in their ranges (R29). -/
structure BankEntry.InRange (e : BankEntry) : Prop where
  volume : 1 ≤ e.volume ∧ e.volume ≤ 20000
  ratedPressure : 1 ≤ e.ratedPressure ∧ e.ratedPressure ≤ 12000
  thresholds : e.refillStart < e.refillStop ∧ e.refillStop ≤ e.ratedPressure

/-- A cascade list names 1 to 4 banks, none twice (R29). -/
def CascadeInRange (l : List BankId) : Prop := 1 ≤ l.length ∧ l.length ≤ 4 ∧ l.Nodup

/-- The values of the 24 site parameters lie in their ranges (R31). -/
def ParamsInRange (l : List Nat) : Prop :=
  l.length = 24 ∧ ∀ i, i < 24 → (paramRanges.getD i (0, 0)).1 ≤ l.getD i 0 ∧ l.getD i 0 ≤ (paramRanges.getD i (0, 0)).2

/-- Every entry loaded into a site configuration passes the checks made at load (R27 to R31). -/
structure SiteConfig.InRange (c : SiteConfig) : Prop where
  rows : c.density.length = 25 ∧ c.profiles.length = 48
  density : ∀ i row, c.density.getD i none = some row → row.length = 16 ∧ ∀ d ∈ row, d ≤ 65535
  profiles : ∀ i f, c.profiles.getD i none = some f → f.InRange i
  banks : ∀ b e, c.banks.get b = some e → e.InRange
  cascades : (∀ l, c.cascadeH70 = some l → CascadeInRange l) ∧ ∀ l, c.cascadeH35 = some l → CascadeInRange l
  params : ∀ l, c.params = some l → ParamsInRange l

/-- The tables the part holds, the working configuration and the tariff among them, pass the checks made at load (R26 to
R31, R156). -/
def TablesInRange (s : State) : Prop :=
  s.site.config.InRange ∧ (∀ c, s.site.working = some c → c.InRange)
    ∧ s.sales.tariff.length = 16 ∧ ∀ price ∈ s.sales.tariff, price ≤ 999999

end Machine

end Sys2Proof
end

