-- ==== Sys2Proof/Certificates/Slice0/Obligations.lean ====
section
/-! DEFINITION. The statements about the part: what each command does, and what every step keeps. -/

open Sys2Proof Sys2Proof.Machine

/-! ### Steps and power-on -/

/-- A step takes the command at the front of the queue. -/
def Obligations.StepRunsTheFrontCommand : Prop :=
  ∀ (c : Instr) (rest : List Instr) (s : State), step { s with pending := c :: rest } = exec c { s with pending := rest }

/-- With no command waiting, 0.1 s passes when no timer has run out, one running out is taken when there is one, and
any one of them when there are several. What has run out: the timers that run with nothing remaining, site time after ten
tenths, and the hold limit of a session in HELD whose held time is above it. The model's choice: log entries 1, 3 and
32. -/
def Obligations.IdleStepPassesTimeOrTakesOneExpiry : Prop :=
  (∀ s : State, s.pending = [] →
    (s.due = [] → step s = .next s.tick)
      ∧ (∀ i, s.due = [i] → step s = exec i s)
      ∧ (∀ i j more, s.due = i :: j :: more →
          ∃ k ∈ s.due, step s = exec k { s with choices := s.choices + 1 }))
    ∧ ∀ (s : State) (i : Instr), i ∈ s.due ↔
      (i = .siteTimeTick ∧ 10 ≤ s.tenths)
        ∨ (i = .freshnessTimerExpiry ∧ s.bm.freshnessTimer = some 0)
        ∨ (i = .yieldTimerExpiry ∧ s.bm.yieldTimer = some 0)
        ∨ (i = .closingTimeout ∧ s.sales.closingTimer = some 0)
        ∨ (∃ b f, i = .proofTimerExpiry b ∧ (s.bank b).proof = some f ∧ f.timer = 0)
        ∨ ∃ p,
          (i = .connectPhaseEnd p ∧ (s.session p).phase = some .connect ∧ (s.session p).phaseTimer = some 0)
          ∨ (i = .leakCheckEnd p ∧ (s.session p).phase = some .leakCheck ∧ (s.session p).phaseTimer = some 0)
          ∨ (i = .settlePhaseEnd p ∧ (s.session p).phase = some .settle ∧ (s.session p).phaseTimer = some 0)
          ∨ (i = .coolingWaitExpiry p ∧ ∃ w ∈ s.cbu.queue, w.pos = p ∧ w.timer = 0)
          ∨ (i = .progressTimerExpiry p ∧ (s.monitor p).progressTimer = some 0)
          ∨ (i = .ageTimerExpiry p ∧ (s.monitor p).ageTimer = some 0)
          ∨ (i = .bankWaitExpiry p ∧ (s.session p).bankWaitTimer = some 0)
          ∨ (i = .segmentBoundary p ∧ (s.session p).segmentTimer = some 0)
          ∨ (i = .warmTimerExpiry p ∧ (s.session p).warmTimer = some 0)
          ∨ (i = .resumeTimerExpiry p ∧ (s.session p).resumeTimer = some 0)
          ∨ (i = .keepTimerExpiry p ∧ (s.session p).keepTimer = some 0)
          ∨ (i = .holdLimitExpiry p ∧ (s.session p).state = .held
            ∧ (s.profileOf p).holdLimit < (s.session p).heldTime)
          ∨ (i = .authorizationExpiry p ∧ ∃ a, s.sales.slots.get p = some a ∧ a.lifetime = 0)

/-- 0.1 s: every timer that runs has 0.1 s less remaining, a session in DELIVERING gains active time and one in HELD held
time, and nothing else changes, but that a silent end is no longer noted for the answer to a PROGRESS (log entry 30). The
model's choice of a tick: log entry 1. -/
def Obligations.TickAdvancesTimersAndTimes : Prop :=
  ∀ s : State,
    s.tick.tenths = s.tenths + 1
      ∧ (∀ b, s.tick.bank b = { s.bank b with proof := (s.bank b).proof.map fun f => { f with timer := f.timer - 1 } })
      ∧ s.tick.bm =
        { s.bm with
          banks := s.tick.bm.banks
          freshnessTimer := s.bm.freshnessTimer.map (· - 1)
          yieldTimer := s.bm.yieldTimer.map (· - 1) }
      ∧ s.tick.cbu = { s.cbu with queue := s.cbu.queue.map fun w => { w with timer := w.timer - 1 } }
      ∧ (∀ p, s.tick.monitor p =
          { s.monitor p with
            progressTimer := (s.monitor p).progressTimer.map (· - 1)
            ageTimer := (s.monitor p).ageTimer.map (· - 1)
            silenced := false })
      ∧ (∀ p, s.tick.session p =
          { s.session p with
            activeTime :=
              if (s.session p).state = .delivering ∧ (s.session p).activeTime < 1000000 then (s.session p).activeTime + 1
              else (s.session p).activeTime
            heldTime := (s.session p).heldTime + if (s.session p).state = .held then 1 else 0
            phaseTimer := (s.session p).phaseTimer.map (· - 1)
            bankWaitTimer := (s.session p).bankWaitTimer.map (· - 1)
            segmentTimer := (s.session p).segmentTimer.map (· - 1)
            resumeTimer := (s.session p).resumeTimer.map (· - 1)
            warmTimer := (s.session p).warmTimer.map (· - 1)
            keepTimer := (s.session p).keepTimer.map (· - 1) })
      ∧ (∀ p, s.tick.sales.slots.get p = (s.sales.slots.get p).map fun a => { a with lifetime := a.lifetime - 1 })
      ∧ s.tick.sales =
        { s.sales with slots := s.tick.sales.slots, closingTimer := s.sales.closingTimer.map (· - 1) }
      ∧ { s.tick with
          tenths := s.tenths, bm := s.bm, cbu := s.cbu, monitors := s.monitors, sessions := s.sessions
          sales := s.sales } = s

/-- Every command answers a next state in every state: nothing stops the part (log entry 24), and a command takes no
other command from the queue and puts none into it, the queue being the outside's (log entry 19). -/
def Obligations.EveryCommandGoesOn : Prop :=
  ∀ (i : Instr) (s : State), ∃ t, exec i s = .next t ∧ t.pending = s.pending

/-- POWER_ON, and what the power-on values are. The commands that wait stay: log entry 17. Two values are
of fields of the model's own: log entries 14 and 30. -/
def Obligations.PowerOnSetsEveryBlock : Prop :=
  (∀ s, exec .powerOn s = .next { State.reset with pending := s.pending, choices := s.choices })
    ∧ (∀ q, State.reset.port q = ⟨.listening, [], none, none, none, []⟩ ∧ State.reset.attention q = false)
    ∧ State.reset.site.mode = .unconfigured ∧ State.reset.site.haltCause = none
    ∧ State.reset.site.commissionedAt = none ∧ State.reset.site.working = none
    ∧ State.reset.site.siteTime = 0 ∧ State.reset.site.priceBand = .normal ∧ State.reset.site.ambientBand = 5
    ∧ State.reset.site.config = SiteConfig.neverLoaded
    ∧ (∀ b, State.reset.bank b = ⟨none, none, none, .free, [], .unproven, none, none, false⟩)
    ∧ State.reset.bm.freshness = .stale ∧ State.reset.bm.freshnessTimer = none ∧ State.reset.bm.ambient = none
    ∧ State.reset.bm.refillInFlight = none ∧ State.reset.bm.designation = none ∧ State.reset.bm.refillList = []
    ∧ State.reset.bm.yieldTimer = none
    ∧ State.reset.cbu = ⟨0, [], []⟩
    ∧ (∀ p, State.reset.monitor p = ⟨.holstered, none, none, none, none, .empty, none, 0, none, false⟩)
    ∧ (∀ p, State.reset.session p = Session.idle)
    ∧ State.reset.sales = ⟨Quad.fill none, List.replicate 16 0, [], none, none, [], 1⟩

/-! ### Frames and answers -/

/-- FRAME_DISCARDED: bytes that make no intact frame reach no block (R2, R3, R167). A port that is not LISTENING takes no
byte; one that hunts passes over every byte but a sync byte; the bytes of an unfinished frame stand in collection, those
held before them included; and a frame too long or with a failed check leaves the collection empty. Nothing else
changes. -/
def Obligations.BytesThatMakeNoFrameReachNoBlock : Prop :=
  ∀ (q : PortId) (s : State),
    ((s.port q).exchange ≠ .listening → ∀ bytes, exec (.frameDiscarded q bytes) s = .next s)
      ∧ ((s.port q).exchange = .listening → (s.port q).collection = [] → ∀ bytes, (∀ b ∈ bytes, b ≠ 0xC3#8) →
          exec (.frameDiscarded q bytes) s = .next s)
      ∧ ((s.port q).exchange = .listening →
          ∀ (tag kind len hi lo : Byte) (body more : List Byte), body.length = len.toNat →
            let held := (s.port q).collection
            let frame := 0xC3#8 :: tag :: kind :: len :: (body ++ [hi, lo])
            let leaves := fun l =>
              exec (.frameDiscarded q more) s = .next (s.modPort q fun x => { x with collection := l })
            (more ≠ [] → 240 < len.toNat → held ++ more = [0xC3#8, tag, kind, len] → leaves [])
              ∧ (more ≠ [] → len.toNat ≤ 240 → hi ++ lo ≠ crc (tag :: kind :: len :: body) → held ++ more = frame →
                leaves [])
              ∧ ∀ n, len.toNat ≤ 240 → n < frame.length → held ++ more = frame.take n → leaves (frame.take n))

/-- The bytes of a request's frame, sent whole to a port that listens, are the request: no field of any request is
dropped or moved (R4, R167, R168, R170, R172). That a request command is the sending of its frame is the model's choice:
log entry 25. -/
def Obligations.FrameBytesSpellTheRequest : Prop :=
  ∀ (i : Instr) (f : Frame) (h : Handler), i.wellFormed = true → i.request? = some (f, h) →
    ∀ s : State, (s.port f.port).exchange = .listening → (s.port f.port).collection = [] →
      exec (.frameDiscarded f.port (frameBytes f.tag f.kind f.body)) s = exec i s

/-- BYTE_GAP_EXCEEDED: a frame begun and not ended when the gap is exceeded is abandoned (R167). -/
def Obligations.ByteGapAbandonsTheCollection : Prop :=
  ∀ (q : PortId) (s : State),
    exec (.byteGapExceeded q []) s = .next (s.modPort q fun x => { x with collection := [] })
      ∧ ∀ (tag kind : Byte) (body : List Byte) (n : Nat), body.length ≤ 240 → n < body.length + 6 →
          (s.port q).exchange = .listening → (s.port q).collection = [] →
          exec (.byteGapExceeded q ((frameBytes tag kind body).take n)) s = .next s

/-- LINK_SCREEN_ANSWER: an intact frame of an unknown kind, of a wrong length or on a wrong port is answered by the Link
Interface itself, which changes nothing else and leaves the last-answer record (R3). The kinds, with the length of each and
the ports it is taken on, are those of R4 and R168; READ POSITION has a length for the dispenser ports and one for the
supervisor's. -/
def Obligations.ScreeningAnswersItself : Prop :=
  ∀ (q : PortId) (tag kind : Byte) (body : List Byte) (s : State),
    (s.port q).exchange = .listening → (s.port q).collection = [] → body.length ≤ 240 →
    let answers := fun (c : Code) =>
      exec (.linkScreenAnswer q tag kind body) s = .next (s.modPort q fun x =>
        { x with
          exchange := .answering
          answer := some (frameBytes tag kind [byteOf c.code, byteOf x.queue.length])
          toRecord := none })
    let dispensers := [PortId.dispenser 0, .dispenser 1, .dispenser 2, .dispenser 3]
    let table : List (Nat × List PortId × Nat) :=
      [(0x01, dispensers ++ [.plant, .terminal, .supervisor], 0),
        (0x10, dispensers, 1), (0x11, dispensers, 0), (0x12, dispensers, 0), (0x13, dispensers, 0),
        (0x14, dispensers, 0), (0x15, dispensers, 7), (0x16, dispensers, 3), (0x17, dispensers, 9),
        (0x20, [.plant], 18), (0x21, [.plant], 2), (0x22, [.plant], 0), (0x23, [.plant], 1),
        (0x24, [.plant, .supervisor], 0), (0x25, [.plant, .supervisor], 0),
        (0x30, [.terminal], 12), (0x31, [.terminal], 5), (0x32, [.terminal, .supervisor], 5), (0x33, [.terminal], 4),
        (0x40, [.supervisor], 34), (0x41, [.supervisor], 0), (0x42, [.supervisor], 0), (0x43, [.supervisor], 0),
        (0x44, [.supervisor], 1), (0x45, [.supervisor], 5), (0x46, [.supervisor], 4), (0x47, [.supervisor], 0),
        (0x48, [.supervisor], 0), (0x49, [.supervisor], 1), (0x4A, [.supervisor], 4), (0x4B, [.supervisor], 0)]
    (kind.toNat ≠ 0x18 → (∀ row ∈ table, row.1 ≠ kind.toNat) → answers .unknownKind)
      ∧ (∀ ports n, (kind.toNat, ports, n) ∈ table →
          (body.length ≠ n → answers .badLength) ∧ (body.length = n → q ∉ ports → answers .notOnThisPort))
      ∧ (kind.toNat = 0x18 →
          (q = .plant ∨ q = .terminal → answers .notOnThisPort)
            ∧ (q ∈ dispensers → body.length ≠ 0 → answers .badLength)
            ∧ (q = .supervisor → body.length ≠ 1 → answers .badLength))

/-- REPEATED_REQUEST: a request equal to the one recorded is passed to no block, and the stored answer is sent again
(R7). -/
def Obligations.RepeatIsAnsweredFromTheRecord : Prop :=
  ∀ (q : PortId) (tag kind : Byte) (body answer : List Byte) (s : State),
    (s.port q).exchange = .listening → (s.port q).collection = [] → body.length ≤ 240 →
    screen q kind.toNat body.length = none → (s.port q).last = some ⟨tag, kind, body, answer⟩ →
    exec (.repeatedRequest q tag kind body) s = .next (s.modPort q fun x =>
      { x with exchange := .answering, answer := some answer, toRecord := none })

/-- ANSWER_SENT: the port listens again, and its record takes the request answered and its answer, when a block had
taken it (R2, R7). A port that sends nothing is left as it was (log entry 5). -/
def Obligations.SentAnswerFillsTheRecord : Prop :=
  ∀ (q : PortId) (s : State),
    ((s.port q).exchange = .answering →
      exec (.answerSent q) s = .next (s.modPort q fun x =>
        { x with exchange := .listening, answer := none, toRecord := none, last := x.toRecord.orElse fun _ => x.last }))
      ∧ ((s.port q).exchange ≠ .answering → exec (.answerSent q) s = .next s)

/-- The answer of an owning block: tag and kind of the request, the outcome code, the count of notices waiting once the
request has been taken, the body; it will fill the port's record, and no other port is touched (R5, R7). The outcomes are
coded 0 to 14 in the order of R169. -/
def Obligations.AnswerCarriesCodeCountAndBody : Prop :=
  [Code.ok, .wrongState, .busy, .notOnThisPort, .unknownKind, .badLength, .outOfRange, .noAuthorization, .notPermitted,
      .recordsFull, .duplicate, .notFound, .notYet, .none, .invalidTable].map Code.code = List.range 15
    ∧ ∀ (s : State) (f : Frame) (c : Code) (body : List Byte),
    let t := s.answered f c body
    let bytes := frameBytes f.tag f.kind ([byteOf c.code, byteOf (s.flush.port f.port).queue.length] ++ body)
    t.port f.port =
        { s.flush.port f.port with
          exchange := .answering, answer := some bytes, toRecord := some ⟨f.tag, f.kind, f.body, bytes⟩ }
      ∧ (∀ q, q ≠ f.port → t.port q = s.flush.port q)
      ∧ { t with ports := s.ports, outbox := s.outbox } = s

/-- READ NOTICES (R12): up to 8 of the oldest notices are listed with their kind, subject and content and removed, and
the count is of those that remain; NONE when the queue is empty. No other port's queue is reached. Each notice is listed in
8 bytes, and the session states, end reasons and causes are coded, as R169 lays them out. -/
def Obligations.ReadNoticesGivesTheOldestEight : Prop :=
  (∀ (q : PortId) (tag : Byte) (s : State), Takes s (readNoticesFrame q tag) →
    ((s.port q).queue = [] →
      exec (.readNotices q tag) s = .next (s.answerOwner (readNoticesFrame q tag) ⟨.none, []⟩))
      ∧ ((s.port q).queue ≠ [] →
          exec (.readNotices q tag) s = .next
            ((s.modPort q fun x => { x with queue := x.queue.drop 8 }).answerOwner (readNoticesFrame q tag)
              ⟨.ok, byteOf (min 8 (s.port q).queue.length) :: ((s.port q).queue.take 8).flatMap Notice.entry⟩)))
    ∧ (∀ (p : PosId) (st : SessionState) (r : Option EndReason) (n : Nat),
        (Notice.sessionState p st r n).Laid 1 p.val
          [(2, 1, st.code), (3, 1, (r.map EndReason.code).getD 0), (4, 4, n)])
    ∧ (∀ (p : PosId) (c : LossCause), (Notice.vehicleDataLost p c).Laid 2 p.val [(2, 1, c.code), (3, 5, 0)])
    ∧ (∀ (b : BankId) (r : RefillReason), (Notice.refillStop b r).Laid 3 b.val [(2, 1, r.code), (3, 5, 0)])
    ∧ (∀ (p : PosId) (n : Nat),
        (Notice.authorizationExpired p n).Laid 5 p.val [(2, 4, n), (6, 2, 0)]
          ∧ (Notice.authorizationConsumed p n).Laid 6 p.val [(2, 4, n), (6, 2, 0)])
    ∧ (∀ (b : BankId) (n : Nat) (x : Option Nat),
        (Notice.bankSuspect b n).Laid 8 b.val [(2, 4, n), (6, 2, 0)]
          ∧ (Notice.proofOverdue b x).Laid 9 b.val [(2, 1, if x.isSome = true then 1 else 0), (3, 4, x.getD 0), (7, 1, 0)])
    ∧ (∀ n : Nat,
        (Notice.coolingDemand n).Laid 4 255 [(2, 4, n), (6, 2, 0)]
          ∧ (Notice.recordReady n).Laid 7 255 [(2, 1, n), (3, 5, 0)]
          ∧ (Notice.massMismatch n).Laid 10 255 [(2, 4, n), (6, 2, 0)])
    ∧ (∀ c : HaltCause, (Notice.siteHalted c).Laid 11 255 [(2, 1, c.code), (3, 5, 0)])
    ∧ Notice.bankDataStale.Laid 12 255 [(2, 6, 0)]
    ∧ [SessionState.idle, .opening, .connecting, .delivering, .held, .ended, .closing].map SessionState.code = List.range 7
    ∧ [EndReason.socReached, .pressureReached, .massLimit, .customerStop, .vehicleAbort, .vehicleDataLost, .leak,
        .banksExhausted, .bankTimeout, .holdLimit, .coolingUnavailable, .overPressure, .dispenserSilent, .disconnected,
        .emergencyStop, .siteReset].map EndReason.code = List.range' 1 16
    ∧ [LossCause.errors, .age].map LossCause.code = [0, 1]
    ∧ [RefillReason.complete, .yield, .aborted].map RefillReason.code = [0, 1, 2]
    ∧ [HaltCause.plant, .supervisor].map HaltCause.code = [0, 1]

/-- The attention line (R11): active exactly while the queue holds a notice; an event's posts to the port drive it active;
released at power-on and when a site reset empties the queues. -/
def Obligations.AttentionFollowsTheQueue : Prop :=
  ∀ (s : State) (q : PortId),
    (s.attention q = true ↔ (s.port q).queue ≠ [])
      ∧ (s.flush.attention q = true ↔ s.attention q = true ∨ ∃ n ∈ s.outbox, n.port = q)
      ∧ s.resetPorts.attention q = false ∧ State.reset.attention q = false

/-- Notices into a queue (R10): at the end of an event each port's queue takes the event's posts to that port. A pair
already queued keeps its place and takes the content of its last post; the new pairs of the event follow, once each, in
increasing kind and subject, with the content of their last post. -/
def Obligations.PostsCoalesceInTheQueue : Prop :=
  (∀ (s : State) (q : PortId),
    (s.flush.port q).queue = mergeNotices (s.port q).queue (s.outbox.filter fun n => n.port = q))
    ∧ ∀ q posts : List Notice, (q.map Notice.key).Nodup →
      ∃ fresh, mergeNotices q posts = posts.foldl updateNotice q ++ fresh
        ∧ (posts.foldl updateNotice q).map Notice.key = q.map Notice.key
        ∧ fresh.Pairwise (fun a b => a.key < b.key)
        ∧ (∀ n ∈ fresh, n.key ∉ q.map Notice.key)
        ∧ (∀ n ∈ mergeNotices q posts, (posts.filter fun m => m.key = n.key).getLast? = some n
            ∨ n ∈ q ∧ ∀ m ∈ posts, m.key ≠ n.key)
        ∧ (∀ m ∈ posts, ∃ n ∈ mergeNotices q posts, n.key = m.key)

/-- A queue that holds notices of its own port, one of each pair, is within the port's capacity: 2, 5, 9 or 11 (R9). -/
def Obligations.QueuesFitTheirCapacity : Prop :=
  ∀ s : State, Queues s →
    (∀ n, (s.port (.dispenser n)).queue.length ≤ 2) ∧ (s.port .plant).queue.length ≤ 5
      ∧ (s.port .terminal).queue.length ≤ 9 ∧ (s.port .supervisor).queue.length ≤ 11

/-! ### What every step keeps -/

/-- Every step leaves no event under way: no notice outside the queues, no port TAKING, an answer to send exactly while
ANSWERING; and every queue holds notices of its own port, one of each kind and subject (R2, R9). That an
exchange is TAKING only within its event is log entry 4, and that an event's notices stand aside until its end is log
entry 19. -/
def Obligations.StepsKeepPortsAtRest : Prop :=
  ∀ s t : State, AtRest s → Queues s → step s = .next t → AtRest t ∧ Queues t

/-- Every step keeps the site mode in agreement with halt cause, working configuration and commissioned-at time, and
every vehicle record with its state and its age timer (R16, R17, R19 to R24, R101, R112). -/
def Obligations.StepsKeepSiteAndMonitorsSound : Prop :=
  ∀ s t : State, s.site.sound → (∀ p, (s.monitor p).sound) → step s = .next t → t.site.sound ∧ ∀ p, (t.monitor p).sound

/-- After every event the demands granted are within the capacity last reported (R89). -/
def Obligations.StepsKeepGrantsWithinCapacity : Prop :=
  ∀ s t : State, WithinCapacity s → step s = .next t → WithinCapacity t

/-- Every step keeps claims exclusive: the wait queues, the claim holders, the cooling lists and the closing register
agree with the session records, no position stands twice, each session's phase and claim agree with its state, and the
proofs, the designation and the refill in flight agree with the claim holders (R58, R61, R70, R76, R78, R79, R86, R117,
R118, R123, R148). A session in ENDED stands in the close queue, the one in the register is CLOSING, and the register is
free only while the close queue is empty (R152, R159). -/
def Obligations.StepsKeepClaimsConsistent : Prop :=
  ∀ s t : State, Consistent s → OneClaim s → (∀ p, (s.session p).Coherent) → BanksAgree s → step s = .next t →
    Consistent t ∧ OneClaim t ∧ (∀ p, (t.session p).Coherent) ∧ BanksAgree t

/-- Every step keeps sales fair and numbered: every session's ceiling is the one its price gives, every record's billed
and overrun mass sum to the metered mass within the authorization, and records always stand in increasing sequence number,
with a number and a place left for the sale of every open session (R119, R157, R160, R162). The agreement of the queues
with the sessions is a premise, itself kept by every step (StepsKeepClaimsConsistent). -/
def Obligations.StepsKeepSalesFairAndNumbered : Prop :=
  ∀ s t : State, Consistent s → FairSales s → Numbered s → step s = .next t → FairSales t ∧ Numbered t

/-- Every step keeps each loaded table entry, the working configuration and the tariff in their ranges, and each active
time within its greatest value (R26 to R31, R45, R156). -/
def Obligations.StepsKeepTablesInRange : Prop :=
  ∀ s t : State, TablesInRange s → ActiveWithin s → step s = .next t → TablesInRange t ∧ ActiveWithin t

/-- Every step keeps each ceiling issued to a dispenser, of a FLOW or of a PULSE, within the maximum working pressure of
the session's fuel class (R46, R48, R49). -/
def Obligations.StepsKeepCeilingsWithinMawp : Prop :=
  ∀ s t : State, CeilingsWithin s → step s = .next t → CeilingsWithin t

/-- What the steps keep holds at power-on. -/
def Obligations.PowerOnHoldsWhatStepsKeep : Prop :=
  AtRest State.reset ∧ Queues State.reset ∧ State.reset.site.sound ∧ (∀ p, (State.reset.monitor p).sound)
    ∧ WithinCapacity State.reset ∧ Consistent State.reset ∧ OneClaim State.reset
    ∧ (∀ p, (State.reset.session p).Coherent) ∧ BanksAgree State.reset
    ∧ FairSales State.reset ∧ Numbered State.reset ∧ TablesInRange State.reset
    ∧ ActiveWithin State.reset ∧ CeilingsWithin State.reset

/-! ### The gas state -/

/-- The four corners of the cell that R39 locates. -/
def corners (c : SiteConfig) (pressure temperature : Nat) : List Nat :=
  let i := if min pressure 12000 / 500 = 24 then 23 else min pressure 12000 / 500
  let j := if (max 2200 (min temperature 3700) - 2200) / 100 = 15 then 14
    else (max 2200 (min temperature 3700) - 2200) / 100
  [c.densityAt i j, c.densityAt (i + 1) j, c.densityAt i (j + 1), c.densityAt (i + 1) (j + 1)]

/-- The density of a reported pressure and temperature: clamped (R38), in the cell and with the fractions of R39, by the
weights and the one rounding of R40. -/
def Obligations.DensityIsInterpolatedAndRoundedOnce : Prop :=
  ∀ (c : SiteConfig) (pressure temperature d00 d10 d01 d11 : Nat),
    let P := if 12000 < pressure then 12000 else pressure
    let T := if temperature < 2200 then 2200 else if 3700 < temperature then 3700 else temperature
    let i := if P / 500 = 24 then 23 else P / 500
    let j := if (T - 2200) / 100 = 15 then 14 else (T - 2200) / 100
    let fp := P - 500 * i
    let ft := T - 2200 - 100 * j
    corners c pressure temperature = [d00, d10, d01, d11] →
      i ≤ 23 ∧ j ≤ 14 ∧ fp ≤ 500 ∧ ft ≤ 100
        ∧ density c pressure temperature =
            ((d00 * (500 - fp) + d10 * fp) * (100 - ft) + (d01 * (500 - fp) + d11 * fp) * ft + 25000) / 50000

/-- Every density lies between the least and the greatest corner of its cell; with a density table that has passed
validation the greatest corner is D[i+1][j] and the least D[i][j+1], and density does not fall as pressure rises, nor rise
as temperature rises (R41). A corner in a row never loaded is 0 (R40). -/
def Obligations.DensityStaysWithinItsCorners : Prop :=
  (∀ (c : SiteConfig) (p t lo hi : Nat), (∀ d ∈ corners c p t, lo ≤ d ∧ d ≤ hi) →
      lo ≤ density c p t ∧ density c p t ≤ hi)
    ∧ (∀ c : SiteConfig, (∀ i < 25, densityRowFails c i = false) →
        (∀ i < 24, ∀ j < 15,
            ∀ d ∈ [c.densityAt i j, c.densityAt (i + 1) j, c.densityAt i (j + 1), c.densityAt (i + 1) (j + 1)],
          c.densityAt i (j + 1) ≤ d ∧ d ≤ c.densityAt (i + 1) j)
        ∧ (∀ p q t, p ≤ q → density c p t ≤ density c q t) ∧ ∀ p t u, t ≤ u → density c p u ≤ density c p t)
    ∧ ∀ (c : SiteConfig) (i j : Nat), c.density.getD i none = none → c.densityAt i j = 0

/-- Bank mass, tank mass, state of charge, ramp ceiling and pulse ceiling by their formulas (R42 to R44, R46, R49). -/
def Obligations.MassesChargeAndCeilingsByFormula : Prop :=
  (∀ (c : SiteConfig) (b : BankId) (p t : Nat),
      (∀ e, c.banks.get b = some e → bankMass c b p t = (density c p t * e.volume + 500) / 1000)
        ∧ (c.banks.get b = none → bankMass c b p t = 0))
    ∧ (∀ (c : SiteConfig) (p t v : Nat), tankMass c p t v = (density c p t * v + 5000) / 10000)
    ∧ (∀ rho ref : Nat, stateOfCharge rho ref = min ((rho * 1000 + ref / 2) / ref) 1500)
    ∧ (∀ (s : State) (p : PosId),
        ((s.session p).rampBase = none → s.rampCeiling p = none)
          ∧ (∀ base, (s.session p).rampBase = some base → s.rampCeiling p =
              some (min (base + ((s.profileOf p).rampRate * (s.session p).activeTime + 50) / 100)
                (min (s.profileOf p).endPressure (s.session p).mawp)))
          ∧ s.pulseCeiling p =
              min (min (s.nozzlePressure p) 12000 + s.config.param 22)
                (min ((s.rampCeiling p).getD (s.session p).mawp) (min (s.profileOf p).endPressure (s.session p).mawp)))

/-! ### Reading requests -/

/-- READ POSITION, READ BANKS and READ COOLING give one position's records, the bank table and the cooling state as they
stand, in 82, 114 and 58 bytes, and change no state; from the supervisor port a position outside 0 to 3 is OUT OF RANGE
(R66, R98, R115). Each field stands at the offset that R173 gives it, and the named values have the codes of R170 and
R172. -/
def Obligations.ReadsGiveTheStateAsItStands : Prop :=
  (∀ (p : PosId) (tag : Byte) (s : State), Takes s (readPositionFrame (.dispenser p) tag none) →
      exec (.readPosition (.dispenser p) tag none) s = .next
        (s.answered (readPositionFrame (.dispenser p) tag none) .ok (s.positionBytes p)))
    ∧ (∀ (x tag : Byte) (s : State), Takes s (readPositionFrame .supervisor tag (some x)) →
      (∀ p : PosId, x.toNat = p.val →
        exec (.readPosition .supervisor tag (some x)) s = .next
          (s.answered (readPositionFrame .supervisor tag (some x)) .ok (s.positionBytes p)))
        ∧ (4 ≤ x.toNat →
          exec (.readPosition .supervisor tag (some x)) s = .next
            (s.answered (readPositionFrame .supervisor tag (some x)) .outOfRange [])))
    ∧ (∀ (q : PortId) (tag : Byte) (s : State), q = .plant ∨ q = .supervisor → Takes s (readBanksFrame q tag) →
      exec (.readBanks q tag) s = .next (s.answered (readBanksFrame q tag) .ok s.banksBytes))
    ∧ (∀ (tag : Byte) (s : State), Takes s (readCoolingFrame tag) →
      exec (.readCooling tag) s = .next (s.answered (readCoolingFrame tag) .ok s.coolingBytes))
    ∧ (∀ s : State,
      (∀ p, PositionLaid (s.positionBytes p) (s.monitor p) (s.session p))
        ∧ ((∀ b, (s.bank b).queue.length ≤ 4) → s.bm.refillList.length ≤ 4 → BanksLaid s.banksBytes s)
        ∧ (s.cbu.grants.length ≤ 4 → s.cbu.queue.length ≤ 4 → CoolingLaid s.coolingBytes s.cbu))
    ∧ [NozzleState.holstered, .lifted, .connected].map NozzleState.code = [0, 1, 2]
    ∧ [RecordState.empty, .valid, .lost].map RecordState.code = [0, 1, 2]
    ∧ [FuelClass.h70, .h35].map FuelClass.code = [0, 1]
    ∧ [FuelCommand.run, .halt, .abort].map FuelCommand.code = [0, 1, 2]
    ∧ [Phase.claim, .connect, .leakCheck, .settle].map Phase.code = [0, 1, 2, 3]
    ∧ [CommFlag.comm, .nonComm].map CommFlag.code = [0, 1]
    ∧ [CoolingView.noCooling, .waiting, .granted].map CoolingView.code = [0, 1, 2]
    ∧ [ConnKind.first, .switch, .reconnect].map ConnKind.code = [0, 1, 2]
    ∧ [Attempt.first, .recheck].map Attempt.code = [0, 1]
    ∧ [Freshness.stale, .fresh].map Freshness.code = [0, 1]
    ∧ [ProofState.unproven, .proving, .proven, .suspect].map ProofState.code = [0, 1, 2, 3]
    ∧ (∀ p : PosId, (Holder.position p).code = p.val) ∧ [Holder.refill, .proof, .free].map Holder.code = [4, 5, 255]

/-- READ RECORD (R163): the oldest record or the record of a number, in 68 bytes with each field at the offset that R171
gives it; NOT YET for the numbers that the pending sessions will receive; NOT FOUND for any other. No state changes. -/
def Obligations.ReadRecordAnswersByNumber : Prop :=
  (∀ r : SaleRecord, r.banksUsed.length ≤ 4 → r.Laid r.bytes)
    ∧ [PrecoolClass.t40, .t30, .t20, .t0].map PrecoolClass.code = [0, 1, 2, 3]
    ∧ ∀ (q : PortId) (tag selector : Byte) (number : BitVec 32) (s : State), q = .terminal ∨ q = .supervisor →
        Takes s (readRecordFrame q tag selector number) →
        let answers := fun c body =>
          exec (.readRecord q tag selector number) s = .next (s.answered (readRecordFrame q tag selector number) c body)
        (1 < selector.toNat → answers .outOfRange [])
          ∧ (selector.toNat = 1 → (s.sales.records = [] → answers .notFound [])
              ∧ ∀ r rest, s.sales.records = r :: rest → answers .ok r.bytes)
          ∧ (selector.toNat = 0 → number.toNat = 0 → answers .outOfRange [])
          ∧ (selector.toNat = 0 → number.toNat ≠ 0 →
              (∀ before r after, s.sales.records = before ++ r :: after → r.sequence = number.toNat →
                  (∀ x ∈ before, x.sequence ≠ number.toNat) → answers .ok r.bytes)
              ∧ ((∀ r ∈ s.sales.records, r.sequence ≠ number.toNat) →
                  ((∃ k, k < s.sales.pendingSessions.length ∧ s.sales.counter ≠ 0
                      ∧ number.toNat = s.sales.counter + k) → answers .notYet [])
                  ∧ ((s.sales.counter = 0 ∨ ∀ k, k < s.sales.pendingSessions.length →
                      number.toNat ≠ s.sales.counter + k) → answers .notFound [])))

/-- READ SITE (R35): the summary, with each field at the offset that R173 gives it, or one entry of the site configuration
or, in SERVICE, of the working one; an unknown selector, table, index or copy is OUT OF RANGE, an entry never loaded NOT
FOUND. No state changes. That a selector is examined first is the model's choice: log entry 15. -/
def Obligations.ReadSiteGivesSummaryOrEntry : Prop :=
  (∀ s : State, SummaryLaid s.summaryBytes s)
    ∧ [SiteMode.unconfigured, .serving, .service, .halted].map SiteMode.code = [0, 1, 2, 3]
    ∧ [PriceBand.normal, .offPeak].map PriceBand.code = [0, 1]
    ∧ ∀ (tag selector table index copy : Byte) (s : State), Takes s (readSiteFrame tag selector table index copy) →
    let answers := fun c body =>
      exec (.readSite tag selector table index copy) s = .next
        (s.answered (readSiteFrame tag selector table index copy) c body)
    let gives := fun (c : SiteConfig) =>
      (∀ e, c.entryBytes table.toNat index.toNat = some e → answers .ok e)
        ∧ (c.entryBytes table.toNat index.toNat = none → answers .notFound [])
    let known := table.toNat ≤ 4 ∧ copy.toNat ≤ 1
      ∧ index.toNat < [25, 48, 6, 4, 24].getD table.toNat 0
    (selector.toNat = 0 → answers .ok s.summaryBytes)
      ∧ (1 < selector.toNat → answers .outOfRange [])
      ∧ (selector.toNat = 1 → ¬known → answers .outOfRange [])
      ∧ (selector.toNat = 1 → known → copy.toNat = 0 → gives s.site.config)
      ∧ (selector.toNat = 1 → known → copy.toNat = 1 →
          (∀ c, s.site.mode = .service → s.site.working = some c → gives c)
            ∧ (s.site.mode ≠ .service ∨ s.site.working = none → answers .wrongState []))

/-! ### Site Control -/

/-- COMMISSION (R17): in UNCONFIGURED a valid configuration is put to service at the site time; an invalid one is answered
with the table and the entry found; in any other mode WRONG STATE. -/
def Obligations.CommissionPutsTheSiteToService : Prop :=
  ∀ (tag : Byte) (s : State), Takes s (commissionFrame tag) →
    (s.site.mode = .unconfigured → validate s.site.config = none →
      exec (.commission tag) s = .next
        (({ s with site := { s.site with mode := .serving, commissionedAt := some s.site.siteTime } }).answered
          (commissionFrame tag) .ok []))
      ∧ (∀ table entry, s.site.mode = .unconfigured → validate s.site.config = some (table, entry) →
        exec (.commission tag) s = .next (s.answered (commissionFrame tag) .invalidTable [byteOf table, byteOf entry]))
      ∧ (s.site.mode ≠ .unconfigured →
        exec (.commission tag) s = .next (s.answered (commissionFrame tag) .wrongState []))

/-- Validation (R18): the entries are examined table by table in increasing index, and the first that fails is named; a
density row fails when it is missing, or not all 0 at pressure 0, or falls below the row before it, or rises along the
temperatures; any other entry fails when it was never loaded. -/
def Obligations.ValidationNamesTheFirstFailure : Prop :=
  ∀ c : SiteConfig,
    let fails : Nat → Nat → Prop := fun table i =>
      (table = 0 ∧ i < 25 ∧ ∀ row, c.density.getD i none = some row →
          (i = 0 ∧ ∃ j < 16, row.getD j 0 ≠ 0)
          ∨ (0 < i ∧ ((∃ j < 16, row.getD j 0 < c.densityAt (i - 1) j) ∨ ∃ j < 15, row.getD j 0 < row.getD (j + 1) 0)))
      ∨ (table = 1 ∧ i < 48 ∧ c.profiles.getD i none = none)
      ∨ (table = 2 ∧ ((∃ b : BankId, b.val = i ∧ c.banks.get b = none) ∨ (i = 4 ∧ c.cascadeH70 = none)
          ∨ (i = 5 ∧ c.cascadeH35 = none)))
      ∨ (table = 3 ∧ ∃ p : PosId, p.val = i ∧ c.positions.get p = none)
      ∨ (table = 4 ∧ i = 0 ∧ c.params = none)
    (validate c = none ↔ ∀ table i, ¬fails table i)
      ∧ ∀ table i, validate c = some (table, i) ↔
          fails table i ∧ ∀ u j, u < table ∨ (u = table ∧ j < i) → ¬fails u j

/-- ENTER SERVICE and LEAVE SERVICE (R19, R20): from SERVING the working configuration becomes a copy of the one in force
and the mode SERVICE; a valid working configuration comes into force whole and ceases to exist, an invalid one is kept and
answered with the table and the entry found; in any other mode each is WRONG STATE. Sessions, claims, grants and timers
stay as they are. -/
def Obligations.ServiceTakesACopyAndPutsItInForce : Prop :=
  (∀ (tag : Byte) (s : State), Takes s (enterServiceFrame tag) →
      (s.site.mode = .serving →
        exec (.enterService tag) s = .next
          (({ s with site := { s.site with mode := .service, working := some s.site.config } }).answered
            (enterServiceFrame tag) .ok []))
        ∧ (s.site.mode ≠ .serving →
          exec (.enterService tag) s = .next (s.answered (enterServiceFrame tag) .wrongState [])))
    ∧ ∀ (tag : Byte) (s : State), Takes s (leaveServiceFrame tag) →
      (∀ c, s.site.mode = .service → s.site.working = some c →
        (validate c = none →
          exec (.leaveService tag) s = .next
            (({ s with site := { s.site with mode := .serving, config := c, working := none } }).answered
              (leaveServiceFrame tag) .ok []))
          ∧ (∀ table entry, validate c = some (table, entry) →
            exec (.leaveService tag) s = .next
              (s.answered (leaveServiceFrame tag) .invalidTable [byteOf table, byteOf entry])))
        ∧ (s.site.mode ≠ .service →
          exec (.leaveService tag) s = .next (s.answered (leaveServiceFrame tag) .wrongState []))

/-- RESUME SITE (R23): in HALTED the halt cause is cleared and the mode becomes SERVING, and nothing else changes; in any
other mode WRONG STATE. -/
def Obligations.ResumeSiteServesAgain : Prop :=
  ∀ (tag : Byte) (s : State), Takes s (resumeSiteFrame tag) →
    (s.site.mode = .halted →
      exec (.resumeSite tag) s = .next
        (({ s with site := { s.site with mode := .serving, haltCause := none } }).answered (resumeSiteFrame tag) .ok []))
      ∧ (s.site.mode ≠ .halted →
        exec (.resumeSite tag) s = .next (s.answered (resumeSiteFrame tag) .wrongState []))

/-- SET BAND and SET TARIFF (R34, R156): the band held, or one price of the tariff, becomes the value given; a value out
of range is examined before the mode (log entry 28), and in UNCONFIGURED the answer is WRONG STATE. -/
def Obligations.SetBandAndSetTariffReplaceOneValue : Prop :=
  (∀ (tag band : Byte) (s : State), Takes s (setBandFrame tag band) →
      (∀ b : PriceBand, band.toNat = b.code → s.site.mode ≠ .unconfigured →
        exec (.setBand tag band) s = .next
          (({ s with site := { s.site with priceBand := b } }).answered (setBandFrame tag band) .ok []))
        ∧ (1 < band.toNat → exec (.setBand tag band) s = .next (s.answered (setBandFrame tag band) .outOfRange []))
        ∧ (band.toNat ≤ 1 → s.site.mode = .unconfigured →
          exec (.setBand tag band) s = .next (s.answered (setBandFrame tag band) .wrongState [])))
    ∧ ∀ (tag index : Byte) (price : BitVec 32) (s : State), Takes s (setTariffFrame tag index price) →
      (index.toNat ≤ 15 → price.toNat ≤ 999999 → s.site.mode ≠ .unconfigured →
        exec (.setTariff tag index price) s = .next
          (({ s with sales := { s.sales with tariff := s.sales.tariff.set index.toNat price.toNat } }).answered
            (setTariffFrame tag index price) .ok []))
        ∧ (15 < index.toNat ∨ 999999 < price.toNat →
          exec (.setTariff tag index price) s = .next (s.answered (setTariffFrame tag index price) .outOfRange []))
        ∧ (index.toNat ≤ 15 → price.toNat ≤ 999999 → s.site.mode = .unconfigured →
          exec (.setTariff tag index price) s = .next (s.answered (setTariffFrame tag index price) .wrongState []))

/-- LOAD TABLE (R26): an unknown table or index is OUT OF RANGE; then a load outside the acceptance is WRONG STATE; then
an entry that fails its checks is OUT OF RANGE; an accepted load replaces the named entry, of the site configuration in
UNCONFIGURED, of the working configuration in SERVICE while every session is IDLE, or of the tariff. -/
def Obligations.LoadTableReplacesOneEntry : Prop :=
  ∀ (tag table index : Byte) (entry : List Byte) (s : State), entry.length = 32 →
    Takes s (loadTableFrame tag table index entry) →
    let answers := fun (u : State) c =>
      exec (.loadTable tag table index entry) s = .next (u.answered (loadTableFrame tag table index entry) c [])
    let known := table.toNat ≤ 5 ∧ index.toNat < [25, 48, 6, 4, 24, 16].getD table.toNat 0
    let idle := ∀ p, (s.session p).state = .idle
    (¬known → answers s .outOfRange)
      ∧ (known → table.toNat < 5 →
          (s.site.mode = .unconfigured →
            (∀ c, s.site.config.load table.toNat index.toNat entry = some c →
              answers { s with site := { s.site with config := c } } .ok)
            ∧ (s.site.config.load table.toNat index.toNat entry = none → answers s .outOfRange))
          ∧ (∀ w, s.site.mode = .service → s.site.working = some w → idle →
            (∀ c, w.load table.toNat index.toNat entry = some c →
              answers { s with site := { s.site with working := some c } } .ok)
            ∧ (w.load table.toNat index.toNat entry = none → answers s .outOfRange))
          ∧ (s.site.mode = .serving ∨ s.site.mode = .halted ∨ (s.site.mode = .service ∧ ¬idle) →
            answers s .wrongState))
      ∧ (known → table.toNat = 5 →
          (s.site.mode = .unconfigured → answers s .wrongState)
          ∧ (s.site.mode ≠ .unconfigured → 999999 < field entry 0 4 → answers s .outOfRange)
          ∧ (s.site.mode ≠ .unconfigured → field entry 0 4 ≤ 999999 →
            answers { s with sales := { s.sales with tariff := s.sales.tariff.set index.toNat (field entry 0 4) } } .ok))

/-- What LOAD TABLE writes (R26 to R31). Every density row is accepted; a profile, a bank entry, a cascade list, a position
entry and a site parameter are accepted exactly when their fields lie in their ranges, and are then the fields given; the
first parameter loaded takes every other to its default. A density row and a profile are read back by READ SITE byte for
byte. The other entries of the configuration are as before. -/
def Obligations.LoadedEntriesAreWritten : Prop :=
  (∀ (c d : SiteConfig) (table index : Nat) (entry : List Byte), entry.length = 32 →
    c.density.length = 25 → c.profiles.length = 48 → table ≤ 1 → index < [25, 48].getD table 0 →
    c.load table index entry = some d →
    d.entryBytes table index = some entry
      ∧ (∀ t i, (t, i) ≠ (table, index) → d.entryBytes t i = c.entryBytes t i))
    ∧ ∀ (c : SiteConfig) (entry : List Byte), entry.length = 32 →
      let takes := fun table index fits d =>
        (fits → c.load table index entry = some d) ∧ (¬fits → c.load table index entry = none)
      (∀ i, i < 25 →
        takes 0 i True
          { c with density := c.density.set i (some ((List.range 16).map fun j => field entry (2 * j) 2)) })
      ∧ (∀ i, i < 48 →
        let given : Profile :=
          { permitted := decide (field entry 0 1 = 1)
            rampRate := field entry 1 2
            endPressure := field entry 3 2
            nonCommEndPressure := field entry 5 2
            socTarget := field entry 7 2
            segmentLength := field entry 9 1
            settleInterval := field entry 10 1
            leakCheckHold := field entry 11 1
            leakDropLimit := field entry 12 2
            overshoot := field entry 14 2
            switchMargin := field entry 16 2
            warmGrace := field entry 18 2
            resumeDelay := field entry 20 2
            holdLimit := field entry 22 2
            coolingDemand := field entry 24 2
            coolingWaitLimit := field entry 26 2
            closingAnticipation := field entry 28 2
            vehicleDataMandatory := decide (field entry 30 1 = 1)
            degradeTo := if field entry 31 1 = 255 then none else some (field entry 31 1) }
        takes 1 i (field entry 0 1 ≤ 1 ∧ field entry 30 1 ≤ 1 ∧ given.InRange i)
          { c with profiles := c.profiles.set i (some given) })
      ∧ (∀ b : BankId,
        let volume := field entry 0 2
        let rated := field entry 2 2
        let start := field entry 4 2
        let stop := field entry 6 2
        takes 2 b.val
          (1 ≤ volume ∧ volume ≤ 20000 ∧ 1 ≤ rated ∧ rated ≤ 12000 ∧ start < stop ∧ stop ≤ rated)
          { c with banks := c.banks.set b (some ⟨volume, rated, start, stop⟩) })
        ∧ (∀ l : List BankId, 1 ≤ l.length → l.length ≤ 4 → field entry 0 1 = l.length →
          (entry.drop 1).take l.length = l.map (fun b => byteOf b.val) →
          takes 2 4 l.Nodup { c with cascadeH70 := some l } ∧ takes 2 5 l.Nodup { c with cascadeH35 := some l })
        ∧ (∀ i, i = 4 ∨ i = 5 →
          field entry 0 1 = 0 ∨ 4 < field entry 0 1 ∨ (∃ x ∈ (entry.drop 1).take (field entry 0 1), 4 ≤ x.toNat) →
          c.load 2 i entry = none)
        ∧ (∀ (p : PosId) (f : FuelClass), field entry 1 1 = f.code →
          takes 3 p.val (field entry 0 1 ≤ 1)
            { c with positions := c.positions.set p (some ⟨decide (field entry 0 1 = 1), f⟩) })
        ∧ (∀ p : PosId, 1 < field entry 1 1 → c.load 3 p.val entry = none)
        ∧ ∀ i, i < 24 →
          let range :=
            [(1, 65535), (1, 65535), (0, 3), (0, 3), (1, 99999), (1, 99999), (5, 600), (1, 20), (5, 600), (10, 3000),
              (5, 600), (10, 6000), (10, 6000), (0, 3000), (50, 36000), (3600, 604800), (1, 10000), (1, 10000),
              (1, 10000), (1, 10000), (0, 1000), (0, 10000), (10, 2000), (1, 3600)].getD i (0, 0)
          let held := c.params.getD
            [40200, 24000, 0, 2, 10000, 60000, 10, 5, 20, 50, 30, 300, 1200, 200, 6000, 28800, 50, 50, 50, 50, 30, 50,
              200, 120]
          takes 4 i (range.1 ≤ field entry 0 4 ∧ field entry 0 4 ≤ range.2)
            { c with params := some (held.set i (field entry 0 4)) }

/-- SET SITE TIME and SITE_TIME_TICK (R33, R77, R78): site time becomes the value given, or one more, and 0 after the
greatest, and every bank is then tested: its overdue flag, PROOF OVERDUE, and the forced proof examination. The proof age
and the overdue test are those of R77. No session, grant, report or record changes. SET SITE TIME leaves the tenths counted
towards the next second (log entry 16), and the tick uses ten of them up (log entry 1). -/
def Obligations.SiteTimeChangesAndBanksAreTested : Prop :=
  (∀ s : State,
    (∀ (tag : Byte) (time : BitVec 32), Takes s (setSiteTimeFrame tag time) →
      ∃ u, exec (.setSiteTime tag time) s = .next (u.answered (setSiteTimeFrame tag time) .ok [])
        ∧ u.site = { s.site with siteTime := time.toNat } ∧ u.tenths = s.tenths ∧ TimeTested s u)
      ∧ ∃ u, exec .siteTimeTick s = .next u.flush
        ∧ u.site = { s.site with siteTime := if s.site.siteTime = 4294967295 then 0 else s.site.siteTime + 1 }
        ∧ u.tenths = s.tenths - 10 ∧ TimeTested s u)
    ∧ ∀ (s : State) (b : BankId),
      let x := s.bank b
      let since := fun base => s.proofAge b = base.map (s.site.siteTime - ·)
      (x.proofState = .proven → since x.provenAt)
        ∧ (x.proofState = .unproven → since s.site.commissionedAt)
        ∧ (∀ f, x.proofState = .proving → x.proof = some f → f.before = .proven → since x.provenAt)
        ∧ (∀ f, x.proofState = .proving → x.proof = some f → f.before = .unproven → since s.site.commissionedAt)
        ∧ (x.proofState = .suspect → s.proofAge b = none)
        ∧ (s.isOverdue b = true ↔ ∃ age, s.proofAge b = some age ∧ s.config.param 15 < age)

/-! ### Authorizations and records -/

/-- AUTHORIZE (R153): fields, mode, reference and position are examined in that order; an accepted one arms the slot of
its position with its lifetime running, and is answered with the reference it replaces. The lifetime counts tenths of a
second: log entry 20. -/
def Obligations.AuthorizeArmsASlot : Prop :=
  ∀ (tag position kind : Byte) (reference amount : BitVec 32) (lifetime : BitVec 16) (s : State),
    Takes s (authorizeFrame tag position reference kind amount lifetime) →
    let answers := fun (u : State) c body =>
      exec (.authorize tag position reference kind amount lifetime) s = .next
        (u.answered (authorizeFrame tag position reference kind amount lifetime) c body)
    let n := reference.toNat
    let inRange := position.toNat < 4 ∧ n ≠ 0 ∧ lifetime.toNat ≤ 3600
      ∧ (kind.toNat = 0 ∧ 1 ≤ amount.toNat ∧ amount.toNat ≤ 9999999
        ∨ kind.toNat = 1 ∧ 1 ≤ amount.toNat ∧ amount.toNat ≤ 60000)
    let takes := s.site.mode = .serving ∨ s.site.mode = .service
    (¬inRange → answers s .outOfRange [])
      ∧ (inRange → ¬takes → answers s .wrongState [])
      ∧ ∀ p : PosId, inRange → position.toNat = p.val → takes →
          let used := (∃ q a, q ≠ p ∧ s.sales.slots.get q = some a ∧ a.auth.reference = n)
            ∨ ∃ q a, (s.session q).state ≠ .idle ∧ (s.session q).auth = some a ∧ a.reference = n
          let armed : ArmedAuthorization :=
            { auth := ⟨n, if kind.toNat = 0 then .prepaid amount.toNat else .fleet amount.toNat⟩
              lifetime := 10 * if lifetime.toNat = 0 then s.config.param 23 else lifetime.toNat }
          let t := { s with sales := { s.sales with slots := s.sales.slots.set p (some armed) } }
          (used → answers s .duplicate [])
            ∧ (¬used → s.config.enabled p = false → answers s .notPermitted [])
            ∧ (¬used → s.config.enabled p = true →
                (s.sales.slots.get p = none → answers t .ok [0, 0, 0, 0, 0])
                  ∧ ∀ a, s.sales.slots.get p = some a → answers t .ok (1 :: be 4 a.auth.reference))

/-- CANCEL AUTHORIZATION, SETTLE and AUTHORIZATION_EXPIRY (R154, R164): the slot that holds the reference, or whose
lifetime has run out, is emptied, the expiry with its notice; the record of a number leaves the list, and the answer
counts the records that remain. That an expiry empties an armed slot whatever remains of its lifetime, and an empty one
is left as it is, is the model's choice: log entries 2 and 5. -/
def Obligations.CancelSettleAndExpiryTakeAway : Prop :=
  (∀ (tag position : Byte) (reference : BitVec 32) (s : State), Takes s (cancelFrame tag position reference) →
      let answers := fun (u : State) c =>
        exec (.cancelAuthorization tag position reference) s = .next (u.answered (cancelFrame tag position reference) c [])
      (4 ≤ position.toNat ∨ reference.toNat = 0 → answers s .outOfRange)
        ∧ ∀ p : PosId, position.toNat = p.val → reference.toNat ≠ 0 →
            (∀ a, s.sales.slots.get p = some a → a.auth.reference = reference.toNat →
              answers { s with sales := { s.sales with slots := s.sales.slots.set p none } } .ok)
            ∧ ((∀ a, s.sales.slots.get p = some a → a.auth.reference ≠ reference.toNat) → answers s .notFound))
    ∧ (∀ (tag : Byte) (number : BitVec 32) (s : State), Takes s (settleFrame tag number) →
      let answers := fun (u : State) c body =>
        exec (.settle tag number) s = .next (u.answered (settleFrame tag number) c body)
      let n := number.toNat
      let left := s.sales.records.filter fun r => r.sequence ≠ n
      let foreseen := s.sales.counter ≠ 0 ∧ ∃ k, k < s.sales.pendingSessions.length ∧ n = s.sales.counter + k
      (n = 0 → answers s .outOfRange [])
        ∧ (n ≠ 0 → (∃ r ∈ s.sales.records, r.sequence = n) →
          answers { s with sales := { s.sales with records := left } } .ok [byteOf left.length])
        ∧ (n ≠ 0 → (∀ r ∈ s.sales.records, r.sequence ≠ n) →
          (foreseen → answers s .notYet []) ∧ (¬foreseen → answers s .notFound [])))
    ∧ ∀ (p : PosId) (s : State),
      (∀ a, s.sales.slots.get p = some a →
        exec (.authorizationExpiry p) s = .next
          ({ s with
            sales := { s.sales with slots := s.sales.slots.set p none }
            outbox := s.outbox ++ [Notice.authorizationExpired p a.auth.reference] }).flush)
        ∧ (s.sales.slots.get p = none → exec (.authorizationExpiry p) s = .next s.flush)

/-! ### Storage -/

/-- CLEAR SUSPECT and REFILL NEXT (R70, R83): a SUSPECT bank becomes UNPROVEN with no proven-at time; the compressor is
given the first FREE bank of the refill list, any proof on it abandoned, when no refill is in flight and the data are
FRESH. -/
def Obligations.ClearSuspectAndRefillNextChangeOneBank : Prop :=
  (∀ (tag bank : Byte) (s : State), Takes s (clearSuspectFrame tag bank) →
      let answers := fun (u : State) c =>
        exec (.clearSuspect tag bank) s = .next (u.answered (clearSuspectFrame tag bank) c [])
      (4 ≤ bank.toNat → answers s .outOfRange)
        ∧ ∀ b : BankId, bank.toNat = b.val →
            ((s.bank b).proofState ≠ .suspect → answers s .wrongState)
            ∧ ((s.bank b).proofState = .suspect →
              answers
                { s with
                  bm :=
                    { s.bm with
                      banks :=
                        s.bm.banks.set b { s.bank b with proofState := .unproven, provenAt := none, overdue := false } } }
                .ok))
    ∧ ∀ (tag : Byte) (s : State), Takes s (refillNextFrame tag) →
      let answers := fun (u : State) c body => exec (.refillNext tag) s = .next (u.answered (refillNextFrame tag) c body)
      (s.bm.refillInFlight ≠ none → answers s .busy [])
        ∧ (s.bm.refillInFlight = none → s.bm.freshness = .stale → answers s .none [])
        ∧ (s.bm.refillInFlight = none → s.bm.freshness = .fresh → (∀ b ∈ s.bm.refillList, (s.bank b).holder ≠ .free) →
          answers s .none [])
        ∧ ∀ before b after, s.bm.refillInFlight = none → s.bm.freshness = .fresh →
            s.bm.refillList = before ++ b :: after → (∀ a ∈ before, (s.bank a).holder ≠ .free) →
            (s.bank b).holder = .free →
            answers
              { s with
                bm :=
                  { s.bm with
                    banks :=
                      s.bm.banks.set b
                        { s.bank b with
                          holder := .refill
                          proofState := ((s.bank b).proof.map (·.before)).getD (s.bank b).proofState
                          proof := none }
                    designation :=
                      if (s.bank b).proof.isSome = true ∧ s.bm.designation = some b then none else s.bm.designation
                    refillList := s.bm.refillList.filter (· ≠ b)
                    refillInFlight := some b
                    yieldTimer := none } }
              .ok [byteOf b.val]

/-- A refill ends, at REFILL END and at YIELD_TIMER_EXPIRY (R72, R73, R75): no refill is in flight and the yield timer is
stopped, REFILL STOP is posted, the bank is handed to the head of its wait queue or becomes FREE and is examined for a
proof (R78, R79), and it returns to the refill list when still low. That the yield timer is taken to expire whatever
remains of it, and that a stopped one changes nothing, is the model's choice: log entries 2 and 5. -/
def Obligations.RefillEndsHandTheBankOn : Prop :=
  let returns := fun (s : State) (b : BankId) =>
    (∃ e x, s.config.banks.get b = some e ∧ (s.bank b).pressure = some x ∧ x < e.refillStart)
      ∧ (s.bank b).proofState ≠ .suspect ∧ b ∉ s.bm.refillList
  let ended := fun (s u : State) (b : BankId) (r : RefillReason) =>
    u.bm.refillInFlight = none ∧ u.bm.yieldTimer = none ∧ Notice.refillStop b r ∈ u.outbox
      ∧ (returns s b → u.bm.refillList = s.bm.refillList ++ [b])
      ∧ (¬returns s b → u.bm.refillList = s.bm.refillList)
      ∧ ((s.bank b).queue = [] →
        Examined
          { s with
            bm :=
              { s.bm with
                banks := s.bm.banks.set b { s.bank b with holder := .free }
                refillInFlight := none
                refillList := u.bm.refillList
                yieldTimer := none }
            outbox := s.outbox ++ [Notice.refillStop b r] }
          u [b])
      ∧ (∀ p rest, (s.bank b).queue = p :: rest →
        HoldsBank s u p b ∧ (u.bank b).queue = rest
          ∧ (∀ q, q ≠ p → u.session q = s.session q) ∧ ∀ c, c ≠ b → u.bank c = s.bank c)
      ∧ Undisturbed s u
  (∀ (tag bank : Byte) (s : State), Takes s (refillEndFrame tag bank) →
      (4 ≤ bank.toNat → exec (.refillEnd tag bank) s = .next (s.answered (refillEndFrame tag bank) .outOfRange []))
        ∧ ∀ b : BankId, bank.toNat = b.val →
            (s.bm.refillInFlight ≠ some b →
              exec (.refillEnd tag bank) s = .next (s.answered (refillEndFrame tag bank) .wrongState []))
            ∧ (s.bm.refillInFlight = some b →
              ∃ u : State, exec (.refillEnd tag bank) s = .next (u.answered (refillEndFrame tag bank) .ok [])
                ∧ ended s u b .aborted))
    ∧ ∀ s : State,
      (s.bm.yieldTimer = none → exec .yieldTimerExpiry s = .next s.flush)
        ∧ (s.bm.refillInFlight = none →
          exec .yieldTimerExpiry s = .next ({ s with bm := { s.bm with yieldTimer := none } }).flush)
        ∧ ∀ b, s.bm.yieldTimer ≠ none → s.bm.refillInFlight = some b →
            ∃ u : State, exec .yieldTimerExpiry s = .next u.flush ∧ ended s u b .yield

/-- BANK STATUS (R32, R52, R53, R63, R69, R71, R78, R79). The banks hold the readings and the masses they mean, the data
are FRESH with the freshness timer restarted, and ambient temperature and band are those reported. When the data were
STALE every session that runs loses its BANK factor, and one that awaits fresh data selects. A position that waits for a
bank that no longer serves it selects again. A refill at its stop threshold is over, low banks enter the refill list, and
no proof is left to begin; where no session selects and no refill ends, all of it is stated as one equation. A session that
no bank serves ends with BANKS EXHAUSTED and joins the close queue (EndsWith). The held time of a hold that ends: log entry
14. -/
def Obligations.BankStatusIsTakenWhole : Prop :=
  (∀ t : Nat, (t < 2631 → ambientBandOf t = 0) ∧ (2631 ≤ t → t < 2781 → ambientBandOf t = 1)
      ∧ (2781 ≤ t → t < 2931 → ambientBandOf t = 2) ∧ (2931 ≤ t → t < 3031 → ambientBandOf t = 3)
      ∧ (3031 ≤ t → t < 3131 → ambientBandOf t = 4) ∧ (3131 ≤ t → ambientBandOf t = 5))
    ∧ ∀ (tag : Byte) (banks : Quad BankReading) (ambient : BitVec 16) (s : State),
      Takes s (bankStatusFrame tag banks ambient) →
      let pressure := fun b => (banks.get b).pressure.toNat
      let temperature := fun b => (banks.get b).temperature.toNat
      let read := fun b =>
        { s.bank b with
          pressure := some (pressure b)
          temperature := some (temperature b)
          mass := some (bankMass s.config b (pressure b) (temperature b)) }
      let low := fun b => match s.config.banks.get b with
        | some e => decide (pressure b < e.refillStart) && (s.bank b).proofState != .suspect
        | none => false
      let reached := fun b => ∃ e, s.config.banks.get b = some e ∧ e.refillStop ≤ pressure b
      let site := { s.site with ambientBand := ambientBandOf ambient.toNat }
      let wasStale := s.bm.freshness = .stale
      let cleared := fun p => { (s.session p).factors with bank := false }
      let told := fun p => if wasStale ∧ (s.session p).running = true then s.afterClear (s.session p) (cleared p)
        else s.session p
      let stays := fun p => wasStale → (s.session p).running = true →
        (s.session p).awaitingFresh = false ∧ s.ClearStays (s.session p) (cleared p)
      let serves := fun p b =>
        (s.bank b).proofState ≠ .suspect ∧ s.nozzlePressure p + (s.profileOf p).switchMargin ≤ pressure b
      ∃ u : State, exec (.bankStatus tag banks ambient) s = .next (u.answered (bankStatusFrame tag banks ambient) .ok [])
        ∧ (∀ b, (u.bank b).pressure = some (pressure b) ∧ (u.bank b).temperature = some (temperature b)
            ∧ (u.bank b).mass = some (bankMass s.config b (pressure b) (temperature b)))
        ∧ u.bm.freshness = .fresh ∧ u.bm.freshnessTimer = some (s.config.param 10)
        ∧ u.bm.ambient = some ambient.toNat ∧ u.site = site
        ∧ Undisturbed { s with site := u.site, bm := u.bm } u
        ∧ (∀ b, BanksAgree s → s.bm.refillInFlight = some b → reached b →
            u.bm.refillInFlight = none
              ∧ (.refillStop b .complete ∈ u.outbox ∨ .refillStop b .yield ∈ u.outbox))
        ∧ (∀ b, low b = true → (u.bank b).proofState ≠ .suspect → u.bm.refillInFlight ≠ some b → b ∈ u.bm.refillList)
        ∧ (∃ l, u.bm.refillList = s.bm.refillList ++ l)
        ∧ (∀ b, ¬u.TakesForced b ∧ ¬u.TakesOpportunistic b)
        ∧ ((∀ p, stays p) → (∀ b, ∀ p ∈ (s.bank b).queue, (s.session p).awaited = some b → serves p b) →
            (∀ b, s.bm.refillInFlight = some b → ¬reached b) →
            Examined
              { s with
                site := site
                sessions := ⟨told 0, told 1, told 2, told 3⟩
                bm :=
                  { s.bm with
                    banks := ⟨read 0, read 1, read 2, read 3⟩
                    freshness := .fresh
                    freshnessTimer := some (s.config.param 10)
                    ambient := some ambient.toNat
                    refillList := s.bm.refillList ++ fourIds.filter fun b =>
                      low b && s.bm.refillInFlight != some b && !s.bm.refillList.contains b } }
              u fourIds)
        ∧ (Consistent s → BanksAgree s → (∀ q, (s.session q).Coherent) → ∀ p,
            let x := s.session p
            let y := if wasStale then { x with factors := cleared p } else x
            let finds := fun (l : List BankId) =>
              ((∀ d ∈ l, ¬serves p d) → (∀ w ∈ s.cbu.queue, w.pos ≠ p) → EndsWith (s.becomes p y) u p .banksExhausted)
                ∧ ∀ before d after, l = before ++ d :: after → (∀ c ∈ before, ¬serves p c) → serves p d →
                  (∀ c ∈ l, (s.bank c).holder ≠ .proof) →
                  (u.session p).running = true ∧ ((u.session p).bank = some d ∨ (u.session p).awaited = some d)
            (Aside p s → x.awaitingFresh = false → stays p → u.session p = told p)
              ∧ (Aside p s → x.awaitingFresh = false → wasStale → ¬s.ClearStays x (cleared p) → x.resumePoint = none →
                x.bank.isSome = true → x.kind = none → x.attempt = none →
                u.session p = s.deliversAs ((s.becomes p y).unheldAs p))
              ∧ (x.state = .connecting → x.awaitingFresh = true → x.bank = none → x.awaited = none → wasStale →
                finds x.selectable)
              ∧ (∀ b, x.state = .connecting → x.awaitingFresh = false → x.awaited = some b →
                (serves p b →
                  (u.session p).running = true ∧ ((u.session p).bank = some b ∨ (u.session p).awaited = some b))
                ∧ (¬serves p b → finds x.selectable)))

/-- FRESHNESS_TIMER_EXPIRY (R54, R80): the banks become STALE and BANK DATA STALE is posted, every claim holder's session
has its BANK factor set, and every proof is abandoned; a timer that does not run changes nothing. That
the data become STALE whatever remains of a timer that runs, and that nothing changes when it does not, is the model's
choice: log entries 2 and 5. -/
def Obligations.StaleDataHoldTheClaimHolders : Prop :=
  ∀ s : State,
    (s.bm.freshnessTimer = none → exec .freshnessTimerExpiry s = .next s.flush)
      ∧ (s.bm.freshnessTimer ≠ none →
        ∃ u : State, exec .freshnessTimerExpiry s = .next u.flush
          ∧ u.bm.freshness = .stale ∧ u.bm.freshnessTimer = none ∧ u.outbox = s.outbox ++ [.bankDataStale]
          ∧ (∀ p, (∃ b, (s.bank b).holder = .position p) →
              u.session p =
                { s.session p with factors := { (s.session p).factors with bank := true }, resumeTimer := none })
          ∧ (∀ p, (∀ b, (s.bank b).holder ≠ .position p) → u.session p = s.session p)
          ∧ (∀ b, u.bank b =
              { s.bank b with
                holder := if (s.bank b).holder = .proof then .free else (s.bank b).holder
                proofState := ((s.bank b).proof.map (·.before)).getD (s.bank b).proofState
                proof := none })
          ∧ (∀ b, (s.bank b).proof.isSome = true → u.bm.designation ≠ some b)
          ∧ (∀ b, s.bm.designation = some b → (s.bank b).proof = none → u.bm.designation = some b)
          ∧ { u with outbox := s.outbox, sessions := s.sessions, bm := s.bm } = s
          ∧ { u.bm with
              banks := s.bm.banks, freshness := s.bm.freshness, freshnessTimer := s.bm.freshnessTimer,
              designation := s.bm.designation } = s.bm)

/-- PROOF_TIMER_EXPIRY (R81, R82): the bank is PROVEN from now on when it has lost no more mass than its decay limit, and
SUSPECT, out of the refill list and reported when it has lost more; a forced proof then gives the bank to the head of its
wait queue or leaves it FREE and is followed by the proof examinations (R78, R79). That no examination follows an
opportunistic verdict is log entry 29, and that a verdict is taken whatever remains of the proof timer, and a bank without
a proof is left as it is, log entries 2 and 5. -/
def Obligations.ProofsAreJudgedByDecay : Prop :=
  ∀ (b : BankId) (s : State),
    ((s.bank b).proof = none → exec (.proofTimerExpiry b) s = .next s.flush)
      ∧ ∀ f, (s.bank b).proof = some f →
        let decay := f.massAtStart - (s.bank b).mass.getD 0
        ∃ u : State, exec (.proofTimerExpiry b) s = .next u.flush
          ∧ (u.bank b).proof = none ∧ (u.bank b).overdue = false ∧ Undisturbed s u
          ∧ (decay ≤ s.config.param (16 + b.val) →
              (u.bank b).proofState = .proven ∧ (u.bank b).provenAt = some s.site.siteTime
                ∧ u.bm.refillList = s.bm.refillList)
          ∧ (s.config.param (16 + b.val) < decay →
              (u.bank b).proofState = .suspect ∧ (u.bank b).provenAt = (s.bank b).provenAt
                ∧ u.bm.refillList = s.bm.refillList.filter (· ≠ b) ∧ .bankSuspect b decay ∈ u.outbox)
          ∧ (f.kind = .opportunistic →
              (u.bank b).holder = (s.bank b).holder ∧ (u.bank b).queue = (s.bank b).queue ∧ u.sessions = s.sessions
                ∧ u.bm.designation = s.bm.designation ∧ ∀ c, c ≠ b → u.bank c = s.bank c)
          ∧ (f.kind = .forced → u.bm.designation ≠ some b
              ∧ ((s.bank b).queue = [] →
                Examined
                  { s with
                    bm :=
                      { s.bm with
                        banks :=
                          s.bm.banks.set b
                            { s.bank b with
                              holder := .free
                              proof := none
                              overdue := false
                              proofState := if decay ≤ s.config.param (16 + b.val) then .proven else .suspect
                              provenAt :=
                                if decay ≤ s.config.param (16 + b.val) then some s.site.siteTime
                                else (s.bank b).provenAt }
                        designation := if s.bm.designation = some b then none else s.bm.designation
                        refillList := u.bm.refillList }
                    outbox := u.outbox }
                  u [b])
              ∧ ∀ p rest, (s.bank b).queue = p :: rest →
                (u.bank b).holder = .position p ∧ (u.bank b).queue = rest ∧ (u.session p).bank = some b
                  ∧ ∀ q, q ≠ p → u.session q = s.session q)

/-! ### Cooling -/

/-- COOLING CAPACITY (R88, R89, R90, R94, R97): the capacity is the one reported and the grants fit it. Grants that do not
fit are revoked newest first: they stand at the head of the wait queue with their timers started, and their sessions have
the COOLING factor set; a wait limit of 0 then runs out, after the sessions have been told and before waiters are granted:
the model's choice of order, log entry 8; and a fill so revoked may degrade and be granted in the same report: log entry 34.
Waiters are granted from the head as far as they fit: each
takes the newest place in the grant list, its wait timer gone, and its session loses the COOLING factor or leaves OPENING
or HELD, its held time as log entry 14 has it. -/
def Obligations.CoolingCapacityIsKept : Prop :=
  ∀ (tag : Byte) (capacity : BitVec 16) (s : State), Takes s (coolingCapacityFrame tag capacity) →
    let answers := fun (u : State) c =>
      exec (.coolingCapacity tag capacity) s = .next (u.answered (coolingCapacityFrame tag capacity) c [])
    let n := capacity.toNat
    let total := fun (l : List Grant) => (l.map Grant.demand).sum
    let asked := fun (l : List Waiter) => (l.map Waiter.demand).sum
    let granted := fun p =>
      s.afterClear { s.session p with cooling := .granted } { (s.session p).factors with cooling := false }
    (50000 < n → answers s .outOfRange)
      ∧ (n ≤ 50000 → ∃ u : State, answers u .ok ∧ u.cbu.capacity = n ∧ u.granted ≤ n)
      ∧ (n ≤ 50000 → s.granted ≤ n → ∃ u : State, answers u .ok
          ∧ Undisturbed { s with cbu := { s.cbu with capacity := n } } u)
      ∧ (∀ front rest, n ≤ 50000 → s.cbu.queue = front ++ rest → s.granted + asked front ≤ n →
          HeadWaits n (s.granted + asked front) rest → s.cbu.positions.Nodup →
          (∀ w ∈ front, (s.session w.pos).state ≠ .opening
            ∧ s.ClearStays (s.session w.pos) { (s.session w.pos).factors with cooling := false }) →
          ∃ u : State, answers u .ok
            ∧ u.cbu =
              { capacity := n
                grants := s.cbu.grants ++ front.map fun w => ⟨w.pos, w.demand, w.limit⟩
                queue := rest }
            ∧ (front = [] → u.outbox = []) ∧ (front ≠ [] → u.outbox.getLast? = some (.coolingDemand (asked rest)))
            ∧ (∀ i ∈ u.outbox, i.key = (Notice.coolingDemand 0).key)
            ∧ (∀ p, u.session p = if p ∈ front.map Waiter.pos then granted p else s.session p)
            ∧ { u with cbu := s.cbu, outbox := s.outbox, sessions := s.sessions } = s)
      ∧ (∀ w rest, n ≤ 50000 → s.cbu.queue = w :: rest → s.granted + w.demand ≤ n →
          HeadWaits n (s.granted + w.demand) rest →
          GrantsHead { s with cbu := { s.cbu with capacity := n } } w rest fun u => answers u .ok)
      ∧ ∀ kept g more, n ≤ 50000 → s.cbu.grants = kept ++ g :: more → total kept ≤ n → n < total (kept ++ [g]) →
          let t := { s with
            cbu :=
              { capacity := n
                grants := kept
                queue := (g :: more).map (fun x => ⟨x.pos, x.demand, x.limit, x.limit⟩) ++ s.cbu.queue }
            outbox := [Notice.coolingDemand (total (g :: more) + s.waitingDemand)] }
          let revoked := fun p =>
            { s.session p with
              cooling := .waiting
              factors := { (s.session p).factors with cooling := true }
              resumeTimer := none }
          ((∀ x ∈ g :: more, x.limit ≠ 0) →
            ∃ u : State, answers u .ok
              ∧ (∀ p, u.session p = if p ∈ (g :: more).map (·.pos) then revoked p else s.session p)
              ∧ { u with sessions := s.sessions } = t)
          ∧ (more = [] → g.limit = 0 →
            ∃ u : State, exec (.coolingWaitExpiry g.pos) (t.becomes g.pos (revoked g.pos)) = .next u.flush
              ∧ (HeadWaits u.cbu.capacity u.granted u.cbu.queue → answers u .ok))

/-- COOLING_WAIT_EXPIRY (R90, R94, R95, R145, R47, R158): a waiter whose profile names no permitted degrade entry ends with
COOLING UNAVAILABLE; otherwise its session runs on under that entry, marked DEGRADED COOLING, the ramp based anew at the
ceiling in force and the price held no higher than the tariff, and it waits on in its place with the new demand and limit,
a demand of 0 is granted without an entry, and then a head that fits is granted. A limit of 0 runs out in its turn at once,
before waiters are granted, whether or not the head now fits: the model's choice of order, log entry 8. The hold limit is
tested before the demand is handed over: log entry 9. That a wait ends whatever remains of it, and that
nothing changes for a position that does not wait: log entries 2 and 5. The held time of a hold that ends: log entry 14. -/
def Obligations.CoolingWaitEndsOrDegrades : Prop :=
  ∀ (p : PosId) (s : State),
    let x := s.session p
    let permitted := fun k => (s.profileOf p).degradeTo = some k ∧ (s.config.profile k).permitted = true
    let waits := ∃ w ∈ s.cbu.queue, w.pos = p
    let goes := fun (u : State) => exec (.coolingWaitExpiry p) s = .next u.flush
    (¬waits → goes s)
      ∧ (waits → (∀ k, ¬permitted k) → Consistent s → ∃ u : State, goes u ∧ Ends s u p .coolingUnavailable)
      ∧ ∀ k, waits → permitted k →
          let price := s.sales.tariff.getD
            (x.cls.code * 8 + (precoolOfProfile k).code * 2 + s.site.priceBand.code) 0
          let y :=
            { x with
              profile := some k
              rampBase := s.rampCeiling p
              activeTime := if x.rampBase.isSome then 0 else x.activeTime
              flags := { x.flags with degradedCooling := true }
              warmTimer := none
              unitPrice := x.unitPrice.map fun held => min held price
              massCeiling :=
                match x.unitPrice with
                | none => x.massCeiling
                | some held => some (x.ceilingAt (min held price)) }
          let demand := (s.config.profile k).coolingDemand
          let limit := (s.config.profile k).coolingWaitLimit
          let tooLong := x.state = .held ∧ (s.config.profile k).holdLimit < x.heldTime
          let queue := s.cbu.queue.map fun w => if w.pos = p then ⟨p, demand, limit, limit⟩ else w
          let others := s.cbu.queue.filter fun w => w.pos ≠ p
          let queued := fun q =>
            { s.becomes p y with
              cbu := { s.cbu with queue := q }
              outbox := s.outbox ++ [Notice.coolingDemand (q.map Waiter.demand).sum] }
          (tooLong → Consistent s → ∃ u : State, goes u ∧ Ends (s.becomes p y) u p .holdLimit)
            ∧ (¬tooLong → demand ≠ 0 → limit ≠ 0 → HeadWaits s.cbu.capacity s.granted queue → goes (queued queue))
            ∧ (∀ w rest, ¬tooLong → demand ≠ 0 → limit ≠ 0 → queue = w :: rest →
              s.granted + w.demand ≤ s.cbu.capacity → HeadWaits s.cbu.capacity (s.granted + w.demand) rest →
              GrantsHead (queued queue) w rest goes)
            ∧ (¬tooLong → demand ≠ 0 → limit = 0 → TablesInRange s →
              exec (.coolingWaitExpiry p) s = exec (.coolingWaitExpiry p) (queued queue))
            ∧ (¬tooLong → demand = 0 → ∃ u : State, goes u ∧ Undisturbed (s.becomes p y) u)
            ∧ (¬tooLong → demand = 0 → HeadWaits s.cbu.capacity s.granted others → Cooled (queued others) p goes)

/-! ### Position reports -/

/-- NOZZLE (R103, R104): a nozzle state outside its codes is OUT OF RANGE, and the one already held changes nothing. A
change is kept; leaving CONNECTED forgets the latest progress and ends a running session with DISCONNECTED (Ends);
HOLSTERED clears the vehicle record; CONNECTED starts the progress timer. A silent end noted for the answer to a PROGRESS
is forgotten when the nozzle leaves CONNECTED: log entry 30. -/
def Obligations.NozzleStatesAreKept : Prop :=
  ∀ (p : PosId) (tag value : Byte) (s : State), Takes s (nozzleFrame p tag value) →
    let answers := fun (u : State) c => exec (.nozzle p tag value) s = .next (u.answered (nozzleFrame p tag value) c [])
    let m := s.monitor p
    (2 < value.toNat → answers s .outOfRange)
      ∧ (value.toNat = m.nozzle.code → answers s .ok)
      ∧ ∀ n : NozzleState, value.toNat = n.code → n ≠ m.nozzle →
          let left := m.nozzle = .connected
          let away := n = .holstered
          let kept : Monitor :=
            { nozzle := n
              pressure := if left then none else m.pressure
              temperature := if left then none else m.temperature
              mass := if left then none else m.mass
              progressTimer :=
                if n = .connected then some (s.config.param 8) else if left then none else m.progressTimer
              record := if away then .empty else m.record
              vehicle := if away then none else m.vehicle
              errors := if away then 0 else m.errors
              ageTimer := if away then none else m.ageTimer
              silenced := if left then false else m.silenced }
          (¬left ∨ (s.session p).running = false → answers { s with monitors := s.monitors.set p kept } .ok)
            ∧ (left → (s.session p).running = true → Consistent s →
              ∃ u : State, answers u .ok ∧ Ends { s with monitors := s.monitors.set p kept } u p .disconnected)

/-- PROGRESS (R105, R106, R107, R122, R133, R136 to R139, R141, R149): out of range, or taken only while CONNECTED; the
report is kept and the progress timer restarted; a session above its class's working pressure ends with OVER PRESSURE; a
report in DELIVERING renews the ceiling, ends the session by the first criterion of R138 that holds, or sets and clears
OVER-RAMP and GAS WARM; in CONNECTING and HELD it only clears them, which may end the hold. The answer to a report that
ends the session is CLOSED, ENDED and its reason although the session may be CLOSING already, and one that comes together
with the running out of the progress timer that has ended the session, no time having passed, is answered so too: log entry
30. A report in HELD that ends the hold at once is answered with the command that then stands: log entry 33. What a session
keeps in OPENING and CONNECTING: log entry 10. The held time of a hold that ends: log entry 14. -/
def Obligations.ProgressIsTakenByTheSessionState : Prop :=
  ∀ (p : PosId) (tag : Byte) (pressure temperature : BitVec 16) (mass : BitVec 24) (s : State),
    Takes s (progressFrame p tag pressure temperature mass) →
    let answers := fun (u : State) c body =>
      exec (.progress p tag pressure temperature mass) s = .next
        (u.answered (progressFrame p tag pressure temperature mass) c body)
    let t := { s with
      monitors := s.monitors.set p
        { s.monitor p with
          pressure := some pressure.toNat
          temperature := some temperature.toNat
          mass := some mass.toNat
          progressTimer := some (s.config.param 8)
          silenced := false } }
    let x : Session := { s.session p with lastMass := mass.toNat, lastNozzle := some pressure.toNat }
    let f := s.profileOf p
    let met := (s.monitor p).silenced = true ∧ x.endReason = some .dispenserSilent
      ∧ (x.state = .ended ∨ x.state = .closing)
    let taken := fun (u : State) =>
      let y : Session := u.session p
      answers u .ok (y.command.bytes
        ++ [byteOf (if (x.running = true ∨ met) ∧ y.running = false then SessionState.ended else y.state).code,
          optCode (y.phase.map (·.code)), endReasonByte y.endReason])
    let ends := fun (z : Session) r =>
      ∃ u, answers u .ok [0, 255, 0, 0, byteOf SessionState.ended.code, 255, byteOf r.code] ∧ Ends (t.becomes p z) u p r
    let reported := min pressure.toNat 12000
    let warm := (warmLimit x.precool).any fun limit => decide (limit < temperature.toNat)
    let within := (s.rampCeiling p).any fun c => decide (reported ≤ c)
    let above := (s.rampCeiling p).getD x.mawp + f.overshoot < reported
    (∀ y : Session, CommandAt y.command.bytes 0 y)
      ∧ (99999 < mass.toNat → answers s .outOfRange [])
      ∧ (mass.toNat ≤ 99999 → (s.monitor p).nozzle ≠ .connected → answers s .wrongState [])
      ∧ (mass.toNat ≤ 99999 → (s.monitor p).nozzle = .connected →
          (x.state = .idle → taken t)
          ∧ (x.state = .ended ∨ x.state = .closing → taken (t.becomes p x))
          ∧ (x.running = true → x.mawp < pressure.toNat → Consistent s → ends x .overPressure)
          ∧ (x.state = .opening → pressure.toNat ≤ x.mawp → taken (t.becomes p x))
          ∧ (x.state = .connecting ∨ x.state = .held → pressure.toNat ≤ x.mawp →
              Clears (t.becomes p x) p
                { x.factors with
                  overRamp := x.factors.overRamp && !within, gasWarm := x.factors.gasWarm && warm }
                taken)
          ∧ (x.state = .delivering → pressure.toNat ≤ x.mawp →
              let z := { x with flowCeiling := s.rampCeiling p }
              let soc := x.comm = some .comm ∧ ∃ v, (s.monitor p).vehicle = some v ∧ f.socTarget ≤ v.soc
              let full := (if x.comm = some .comm then f.endPressure else f.nonCommEndPressure) ≤ pressure.toNat
              let sold := x.massCeiling.getD 0 ≤ f.closingAnticipation + mass.toNat
              (soc → Consistent s → ends z .socReached) ∧ (¬soc → full → Consistent s → ends z .pressureReached)
                ∧ (¬soc → ¬full → sold → Consistent s → ends z .massLimit)
                ∧ (¬soc → ¬full → ¬sold →
                  let late := warm = true ∧ x.warmTimer = none ∧ f.warmGrace = 0
                  taken (t.becomes p
                    { z with
                      factors :=
                        { x.factors with
                          overRamp := decide above || x.factors.overRamp && !within
                          gasWarm := warm && (x.factors.gasWarm || decide late) }
                      resumeTimer := if above ∨ late then none else x.resumeTimer
                      warmTimer :=
                        if warm = false then none
                        else if x.warmTimer = none ∧ f.warmGrace ≠ 0 then some f.warmGrace
                        else x.warmTimer }))))

/-- VEHICLE FRAME and AGE_TIMER_EXPIRY (R109 to R112, R114, R138, R146): a frame that passes its checks fills the vehicle
record with its state of charge and tank mass and restarts the age timer, and its command acts on a running session; one
that fails them is counted, and at the limit, as when the age timer runs out, the vehicle data are lost. The loss for a
session under way: LosesVehicle. A frame is examined against the end criteria whether the session is COMM or not (log entry
11), an absent nozzle pressure is 0 there (log entry 12), and one that brings its session from HELD to DELIVERING is
examined in the same event (log entry 31), its held time as log entry 14 has it. That an age timer that runs is taken to
expire whatever remains of it, and a stopped one changes nothing: log entries 2 and 5. -/
def Obligations.VehicleFramesAreCheckedAndCounted : Prop :=
  (∀ (p : PosId) (tag check cls command : Byte) (volume pressure temperature : BitVec 16) (s : State),
      Takes s (vehicleFrameFrame p tag check cls volume pressure temperature command) →
      let answers := fun (u : State) c body =>
        exec (.vehicleFrame p tag check cls volume pressure temperature command) s = .next
          (u.answered (vehicleFrameFrame p tag check cls volume pressure temperature command) c body)
      let m := s.monitor p
      let x := s.session p
      let opened := x.state ≠ .idle
      (1 < cls.toNat ∨ 2 < command.toNat → answers s .outOfRange [])
        ∧ ∀ (f : FuelClass) (k : FuelCommand), cls.toNat = f.code → command.toNat = k.code →
            (m.nozzle = .holstered → answers s .wrongState [])
            ∧ (m.nozzle ≠ .holstered →
              let fits := check.toNat = 1
                ∧ (opened → x.fuelClass = some f)
                ∧ (¬opened → s.config.positionClass p = some f)
                ∧ volume.toNat ≠ 0 ∧ pressure.toNat ≤ 12000 ∧ 2000 ≤ temperature.toNat ∧ temperature.toNat ≤ 3800
              let limit := s.config.param 7
              let errors := if m.errors < limit then m.errors + 1 else limit
              let counted := { m with errors := errors }
              let lost := { counted with record := .lost, vehicle := none, ageTimer := none }
              (¬fits → errors < limit ∨ m.record = .lost →
                  answers { s with monitors := s.monitors.set p counted } .ok
                    [0, byteOf m.record.code, byteOf errors])
                ∧ (¬fits → limit ≤ errors → m.record ≠ .lost → Consistent s →
                  ∃ u, answers u .ok [0, byteOf RecordState.lost.code, byteOf errors]
                    ∧ LosesVehicle s u p .errors lost)
                ∧ (fits →
                  let reference := if opened then x.refDensity.getD 0 else s.config.param (if f = .h70 then 0 else 1)
                  let rho := density s.config pressure.toNat temperature.toNat
                  let t := { s with
                    monitors := s.monitors.set p
                      { m with
                        record := .valid
                        vehicle := some
                          { fuelClass := f
                            volume := volume.toNat
                            pressure := pressure.toNat
                            temperature := temperature.toNat
                            command := k
                            soc := min ((rho * 1000 + reference / 2) / reference) 1500
                            tankMass := (rho * volume.toNat + 5000) / 10000 }
                        errors := 0
                        ageTimer := some (s.config.param 6) } }
                  let valid := [1, byteOf RecordState.valid.code, 0]
                  let y :=
                    if k = .halt then { x with factors := { x.factors with vehicleHalt := true }, resumeTimer := none }
                    else s.afterClear x { x.factors with vehicleHalt := false }
                  (x.running = false → answers t .ok valid)
                    ∧ (x.running = true → k = .abort → Consistent s →
                      ∃ u, answers u .ok valid ∧ Ends t u p .vehicleAbort)
                    ∧ (x.running = true → k ≠ .abort → x.state ≠ .delivering →
                      (k = .run → s.ClearStays x { x.factors with vehicleHalt := false }) →
                      answers (t.becomes p y) .ok valid)
                    ∧ (x.running = true → k = .run → ¬s.ClearStays x { x.factors with vehicleHalt := false } →
                      let h := t.becomes p { x with factors := { x.factors with vehicleHalt := false } }
                      let d := h.shows p (s.deliversAs (h.unheldAs p))
                      (∃ u, answers u .ok valid ∧ Undisturbed t u)
                        ∧ (∀ g, x.resumePoint = some g → g = .connect ∨ g = .leakCheck →
                          (s.profileOf p).settleInterval ≠ 0 →
                          answers ((h.shows p (h.unheldAs p).resumed.claims).becomes p
                            (if g = .connect then s.connectsAs p (h.unheldAs p).resumed
                              else t.checksAs p (h.unheldAs p).resumed)) .ok valid)
                        ∧ (x.resumePoint = none → x.bank.isSome = true → x.kind = none → x.attempt = none →
                          (d.endCriterion p = none → answers d .ok valid)
                          ∧ ∀ r, d.endCriterion p = some r → Consistent s → ∃ u, answers u .ok valid ∧ Ends d u p r))
                    ∧ (x.state = .delivering → k ≠ .abort →
                      (t.endCriterion p = none → answers (t.becomes p y) .ok valid)
                      ∧ ∀ r, t.endCriterion p = some r → Consistent s →
                        ∃ u, answers u .ok valid ∧ Ends (t.becomes p y) u p r))))
    ∧ ∀ (p : PosId) (s : State),
      ((s.monitor p).ageTimer = none → exec (.ageTimerExpiry p) s = .next s.flush)
        ∧ ((s.monitor p).ageTimer ≠ none → Consistent s →
          ∃ u : State, exec (.ageTimerExpiry p) s = .next u.flush
            ∧ LosesVehicle s u p .age { s.monitor p with record := .lost, vehicle := none, ageTimer := none })

/-! ### The course of a session -/

/-- START (R119 to R122, R124, R125, R91): the conditions in their order, each with its answer; an accepted one consumes
the authorization, opens the session from the tables and requests cooling. It waits in OPENING for cooling that is not
there, a wait limit of 0 running out at once; otherwise it leaves OPENING with its cooling granted: for CONNECTING with the
bank chosen, waiting for it, or awaiting fresh data, or it ends with BANKS EXHAUSTED when no bank serves (Cooled). -/
def Obligations.StartOpensASession : Prop :=
  ∀ (p : PosId) (tag : Byte) (s : State), Takes s (startFrame p tag) →
    let refuses := fun c => exec (.start p tag) s = .next (s.answered (startFrame p tag) c [])
    let state := (s.session p).state
    let m := s.monitor p
    let opened := s.openPositions.length
    let room := s.sales.records.length + opened < 64 ∧ s.sales.counter ≠ 0 ∧ s.sales.counter + opened ≤ 4294967295
    (s.site.mode ≠ .serving → refuses .wrongState)
      ∧ (s.site.mode = .serving →
        (state = .ended ∨ state = .closing → refuses .busy)
        ∧ ((s.session p).running = true → refuses .wrongState)
        ∧ (state = .idle → s.config.enabled p = false → refuses .notPermitted)
        ∧ (state = .idle → s.config.enabled p = true →
          (m.nozzle ≠ .connected → refuses .wrongState)
          ∧ (m.nozzle = .connected → s.sales.slots.get p = none → refuses .noAuthorization)
          ∧ ∀ a c, m.nozzle = .connected → s.sales.slots.get p = some a → s.config.positionClass p = some c →
              (¬room → refuses .recordsFull)
              ∧ (room → s.selectProfile c = none → refuses .notPermitted)
              ∧ ∀ k, room → s.selectProfile c = some k →
                  let f := s.config.profile k
                  (f.vehicleDataMandatory = true → m.record ≠ .valid → refuses .notPermitted)
                  ∧ (f.vehicleDataMandatory = false ∨ m.record = .valid →
                    let taken := fun (u : State) =>
                      let y : Session := u.session p
                      exec (.start p tag) s = .next (u.answered (startFrame p tag) .ok
                        (be 4 a.auth.reference ++ [byteOf k, optCode (y.comm.map (·.code)), byteOf y.state.code,
                          optCode (y.phase.map (·.code))]))
                    let x : Session :=
                      { Session.idle with
                        state := .opening
                        auth := some a.auth
                        fuelClass := some c
                        refDensity := some (s.config.param (if c = .h70 then 0 else 1))
                        siteMaxMass := some (s.config.param (if c = .h70 then 4 else 5))
                        cascade := (if c = .h70 then s.config.cascadeH70 else s.config.cascadeH35).getD []
                        profileAtStart := some k
                        profile := some k
                        precoolAtStart := some (precoolOfProfile k)
                        comm := some (if m.record = .valid then .comm else .nonComm)
                        startTime := some s.site.siteTime
                        flags := { SessionFlags.none with nonComm := decide (m.record ≠ .valid) } }
                    let t :=
                      ({ s with
                        sales := { s.sales with slots := s.sales.slots.set p none }
                        outbox := s.outbox ++ [Notice.authorizationConsumed p a.auth.reference] }).shows p x
                    let demand := f.coolingDemand
                    let limit := f.coolingWaitLimit
                    let fits := demand = 0 ∨ s.cbu.queue = [] ∧ s.granted + demand ≤ s.cbu.capacity
                    let queue : List Waiter := s.cbu.queue ++ [⟨p, demand, limit, limit⟩]
                    let waiting :=
                      { t.becomes p { x with cooling := .waiting } with
                        cbu := { s.cbu with queue := queue }
                        outbox := t.outbox ++ [Notice.coolingDemand (queue.map Waiter.demand).sum] }
                    (¬fits → limit ≠ 0 → HeadWaits s.cbu.capacity s.granted queue → taken waiting)
                    ∧ (¬fits → limit = 0 → HeadWaits s.cbu.capacity s.granted queue →
                      ∃ u : State, exec (.coolingWaitExpiry p) waiting = .next u.flush ∧ taken u)
                    ∧ (fits →
                      Cooled
                        { t with
                          cbu :=
                            if demand = 0 then s.cbu
                            else { s.cbu with grants := s.cbu.grants ++ [(⟨p, demand, limit⟩ : Grant)] } }
                        p taken))))

/-- The profile of a START (R120): the entry of fuel class, preferred precool class and ambient band when it is permitted,
otherwise the first permitted one along its degrade entries, if there is one. -/
def Obligations.StartProfileFollowsTheDegradeChain : Prop :=
  ∀ (s : State) (c : FuelClass),
    let first := c.code * 24 + s.config.param (if c = .h70 then 2 else 3) * 6 + s.site.ambientBand
    let allowed := fun k => (s.config.profile k).permitted = true
    let next := fun k => (s.config.profile k).degradeTo
    (allowed first → s.selectProfile c = some first)
      ∧ (¬allowed first → next first = none → s.selectProfile c = none)
      ∧ (∀ k, ¬allowed first → next first = some k → allowed k → s.selectProfile c = some k)
      ∧ (∀ j, ¬allowed first → next first = some j → ¬allowed j → next j = none → s.selectProfile c = none)
      ∧ (∀ j k, ¬allowed first → next first = some j → ¬allowed j → next j = some k → allowed k →
          s.selectProfile c = some k)
      ∧ (∀ k, s.selectProfile c = some k → allowed k)
      ∧ (∀ j k, ¬allowed first → next first = some j → ¬allowed j → next j = some k → ¬allowed k → next k = none →
          s.selectProfile c = none)
      ∧ ∀ j k l, ¬allowed first → next first = some j → ¬allowed j → next j = some k → ¬allowed k → next k = some l →
          (s.selectProfile c = if (s.config.profile l).permitted then some l else none)

/-- What ends a running session outright: STOP with CUSTOMER STOP, the progress timer with DISPENSER SILENT from
CONNECTING on, the bank wait timer with BANK TIMEOUT, and the hold limit with HOLD LIMIT (R107, R126, R140, R143, R147). A
session that ends gives back its bank and its cooling, waiters are granted from the head, SESSION STATE is posted, and it
joins the close queue or takes the free register (Ends: R62, R65, R90, R93, R148, R159). STOP of a session that does not
run is WRONG STATE, and an expiry that finds nothing to run out changes nothing: log entry 5. That a timer that runs is
taken to expire whatever remains of it, and the hold limit whatever the held time, which is then raised above the limit:
log entry 2. That the running out is noted for the answer to a PROGRESS that comes together with it: log entry 30. -/
def Obligations.StopsAndTimeoutsEndTheSession : Prop :=
  (∀ (p : PosId) (tag : Byte) (s : State), Takes s (stopFrame p tag) →
      ((s.session p).running = false → exec (.stop p tag) s = .next (s.answered (stopFrame p tag) .wrongState []))
        ∧ ((s.session p).running = true → Consistent s →
          ∃ u, exec (.stop p tag) s = .next (u.answered (stopFrame p tag) .ok []) ∧ Ends s u p .customerStop
            ∧ (∀ b, (u.bank b).holder ≠ .position p ∧ p ∉ (u.bank b).queue) ∧ p ∉ u.cbu.positions))
    ∧ ∀ (p : PosId) (s : State),
      let x := s.session p
      let stopped := { s.monitor p with progressTimer := none }
      let quiet := { s with monitors := s.monitors.set p stopped }
      let silent := { s with monitors := s.monitors.set p { stopped with silenced := true } }
      let beyond := s.becomes p { x with heldTime := max x.heldTime ((s.profileOf p).holdLimit + 1) }
      let listens := x.state = .connecting ∨ x.state = .delivering ∨ x.state = .held
      ((s.monitor p).progressTimer = none → exec (.progressTimerExpiry p) s = .next s.flush)
        ∧ ((s.monitor p).progressTimer ≠ none → ¬listens → exec (.progressTimerExpiry p) s = .next quiet.flush)
        ∧ ((s.monitor p).progressTimer ≠ none → listens → Consistent s →
          ∃ u : State, exec (.progressTimerExpiry p) s = .next u.flush ∧ Ends silent u p .dispenserSilent)
        ∧ (x.bankWaitTimer = none → exec (.bankWaitExpiry p) s = .next s.flush)
        ∧ (x.bankWaitTimer ≠ none → x.running = true → Consistent s →
          ∃ u : State, exec (.bankWaitExpiry p) s = .next u.flush ∧ Ends s u p .bankTimeout)
        ∧ (x.state ≠ .held → exec (.holdLimitExpiry p) s = .next s.flush)
        ∧ (x.state = .held → Consistent s →
          ∃ u : State, exec (.holdLimitExpiry p) s = .next u.flush ∧ Ends beyond u p .holdLimit)

/-- PAUSE, CONTINUE and WARM_TIMER_EXPIRY (R137, R139, R140, R142): PAUSE and GAS WARM are set, which cancels a resume
timer; PAUSE is cleared, which starts the resume timer of a session in HELD that has no other factor, or ends the hold
at once where the resume delay is 0. PAUSE and CONTINUE of a session that does not run are WRONG STATE. The held time of a
hold that ends: log entry 14. That a warm timer that runs is taken to expire whatever remains of it, and a stopped one
changes nothing: log entries 2 and 5. -/
def Obligations.FactorsAreSetAndCleared : Prop :=
  (∀ (p : PosId) (tag : Byte) (s : State), Takes s (pauseFrame p tag) →
      let x := s.session p
      (x.running = false → exec (.pause p tag) s = .next (s.answered (pauseFrame p tag) .wrongState []))
        ∧ (x.running = true → exec (.pause p tag) s = .next
          ((s.becomes p { x with factors := { x.factors with pause := true }, resumeTimer := none }).answered
            (pauseFrame p tag) .ok [])))
    ∧ (∀ (p : PosId) (tag : Byte) (s : State), Takes s (continueFrame p tag) →
      let x := s.session p
      let y := { x.factors with pause := false }
      (x.running = false → exec (.continueFill p tag) s = .next (s.answered (continueFrame p tag) .wrongState []))
        ∧ (x.running = true →
          Clears s p y fun u => exec (.continueFill p tag) s = .next (u.answered (continueFrame p tag) .ok [])))
    ∧ ∀ (p : PosId) (s : State),
      let x := s.session p
      (x.warmTimer = none → exec (.warmTimerExpiry p) s = .next s.flush)
        ∧ (x.warmTimer ≠ none → exec (.warmTimerExpiry p) s = .next
          ((s.becomes p
            { x with warmTimer := none, factors := { x.factors with gasWarm := true }, resumeTimer := none }).flush))

/-- RESUME_TIMER_EXPIRY (R123, R132, R141, R142, R143): the session leaves HELD, for DELIVERING with its bank and a finished
connection, for the phase at which its connection stood, or, with neither, for a connection anew; where a selection is
due, it selects or awaits fresh data (LeavesHold). The held time stays, but for the interval of log entry 14. That a timer
that runs is taken to expire whatever remains of it, and that nothing changes otherwise: log entries 2 and 5. -/
def Obligations.ResumeLeavesTheHold : Prop :=
  ∀ (p : PosId) (s : State),
    let x := s.session p
    let goes := fun (u : State) => exec (.resumeTimerExpiry p) s = .next u.flush
    (x.state ≠ .held ∨ x.resumeTimer = none → goes s)
      ∧ (x.state = .held → x.resumeTimer ≠ none → LeavesHold s p goes)

/-- The ends of CONNECT, LEAK CHECK and SETTLE (R123, R128 to R131, R134): CONNECT is followed by LEAK CHECK; a LEAK CHECK
passes within the leak drop limit, and then the first reading of a session that passes is its start pressure and its ramp
base; one that fails is repeated once and then ends the session with LEAK (Ends); a connection that has ended is in
DELIVERING. A hold factor makes it HELD in each case, with the phase to come as its resume point. That a phase whose timer
runs is taken to end whatever remains of it, and that nothing changes otherwise: log entries 2 and 5. -/
def Obligations.PhaseEndsMoveTheConnectionOn : Prop :=
  ∀ (p : PosId) (s : State),
    let x := s.session p
    let runs := fun f => x.state = .connecting ∧ x.phase = some f ∧ x.phaseTimer ≠ none
    let goes := fun (i : Instr) (u : State) => exec i s = .next u.flush
    let clear := x.factors = Factors.none
    let reading := s.nozzlePressure p
    let passes := x.leakStart.getD 0 - reading ≤ (s.profileOf p).leakDropLimit
    let checked := { x with leakStart := none, phaseTimer := none }
    let based :=
      if x.rampBase.isSome then checked
      else { checked with startPressure := some reading, rampBase := some (min reading 12000), activeTime := 0 }
    let again := { checked with attempt := some .recheck }
    (¬runs .connect → goes (.connectPhaseEnd p) s)
      ∧ (runs .connect → clear → goes (.connectPhaseEnd p) (s.becomes p (s.checksAs p x)))
      ∧ (runs .connect → ¬clear → goes (.connectPhaseEnd p) (s.shows p (s.heldAs x (some .leakCheck))))
      ∧ (¬runs .leakCheck → goes (.leakCheckEnd p) s)
      ∧ (runs .leakCheck → passes → goes (.leakCheckEnd p) (s.shows p (s.connectedAs based)))
      ∧ (runs .leakCheck → ¬passes → x.attempt = some .recheck → Consistent s →
          ∃ u, goes (.leakCheckEnd p) u ∧ Ends (s.becomes p checked) u p .leak)
      ∧ (runs .leakCheck → ¬passes → x.attempt ≠ some .recheck → clear → (s.profileOf p).settleInterval ≠ 0 →
          goes (.leakCheckEnd p) (s.becomes p (s.connectsAs p again)))
      ∧ (runs .leakCheck → ¬passes → x.attempt ≠ some .recheck → ¬clear →
          goes (.leakCheckEnd p) (s.shows p (s.heldAs again (some .connect))))
      ∧ (runs .leakCheck → ¬passes → x.attempt ≠ some .recheck → clear → (s.profileOf p).settleInterval = 0 →
          goes (.leakCheckEnd p) (s.becomes p (s.checksAs p again)))
      ∧ (¬runs .settle → goes (.settlePhaseEnd p) s)
      ∧ (runs .settle → goes (.settlePhaseEnd p) (s.shows p (s.connectedAs x)))

/-- SEGMENT_BOUNDARY and KEEP_TIMER_EXPIRY (R62, R65, R123, R124, R125, R131, R135, R144): at a boundary a session with a
hold factor is held; one whose bank still serves goes on with a new segment; one whose bank does not releases it and
selects from the later banks, or awaits fresh data while the data are STALE. A held session whose keep timer runs out
releases its bank, and an unfinished connection starts again from CLAIM. The released bank goes to the head of its queue,
or is FREE for a proof, and every other bank is as it was (Releases). An absent nozzle pressure is 0 in the tests: log
entry 12. The attempt of a connection begun anew: log entry 13. That a timer that runs is taken to expire whatever remains
of it, and that nothing changes otherwise: log entries 2 and 5. -/
def Obligations.BoundariesAndKeepTimersGiveBanksBack : Prop :=
  ∀ (p : PosId) (s : State),
    let x := s.session p
    let f := s.profileOf p
    let ends := x.state = .delivering ∧ x.segmentTimer ≠ none
    let serves := fun b => s.nozzlePressure p + f.switchMargin ≤ (s.bank b).pressure.getD 0
    let boundary := fun (u : State) => exec (.segmentBoundary p) s = .next u.flush
    let switching := fun (z : Session) => { z with kind := some .switch, attempt := none, resumePoint := none }
    let kept := fun (u : State) => exec (.keepTimerExpiry p) s = .next u.flush
    let keeps := x.state = .held ∧ x.keepTimer ≠ none
    let again := fun (z : Session) =>
      { z with
        keepTimer := none
        resumePoint := if x.kind = none then x.resumePoint else some .claim
        kind := if x.kind = none then none else some (if x.rampBase.isSome then .reconnect else .first)
        attempt := if x.kind = none then x.attempt else some (x.attempt.getD .first) }
    (¬ends → boundary s)
      ∧ (ends → x.factors ≠ Factors.none → boundary (s.shows p (s.heldAs x none)))
      ∧ (∀ b, ends → x.factors = Factors.none → x.bank = some b → serves b →
          boundary (s.becomes p { x with segmentTimer := some f.segmentLength }))
      ∧ (∀ b, ends → x.factors = Factors.none → x.bank = some b → ¬serves b → Consistent s →
          ∃ v : State, Releases s v p b ∧ Consistent v ∧ Claiming v p (switching (v.session p)) boundary)
      ∧ (ends → x.factors = Factors.none → x.bank = none → Claiming s p (switching x) boundary)
      ∧ (¬keeps → kept s)
      ∧ (keeps → x.bank = none → kept (s.becomes p (again x)))
      ∧ ∀ b, keeps → x.bank = some b → Consistent s →
          ∃ v : State, Releases s v p b ∧ Consistent v ∧ kept (v.becomes p (again (v.session p)))

/-! ### Stopping and closing -/

/-- EMERGENCY STOP (R16, R22, R67, R84, R99, R150, R165): while SERVING or in SERVICE the site is HALTED with the cause of
the port, every running session ends with EMERGENCY STOP, its snapshot at release taken, and joins the close queue in
increasing position number; every claim, queue, grant, proof and slot is cleared; a refill in flight ends ABORTED, its bank
back in the refill list when still low; and SITE HALTED is posted. Proven-at times, overdue flags, SUSPECT banks and sale
records are kept. In UNCONFIGURED and HALTED it is answered OK and changes nothing. -/
def Obligations.EmergencyStopHaltsTheSite : Prop :=
  ∀ (q : PortId) (tag : Byte) (s : State), q = .plant ∨ q = .supervisor → Takes s (emergencyStopFrame q tag) →
    let answers := fun (u : State) =>
      exec (.emergencyStop q tag) s = .next (u.answered (emergencyStopFrame q tag) .ok [])
    let cause := if q = .plant then HaltCause.plant else .supervisor
    let returns := fun (b : BankId) =>
      (∃ e x, s.config.banks.get b = some e ∧ (s.bank b).pressure = some x ∧ x < e.refillStart)
        ∧ (s.bank b).proofState ≠ .suspect ∧ b ∉ s.bm.refillList
    (s.site.mode = .unconfigured ∨ s.site.mode = .halted → answers s)
      ∧ (s.site.mode = .serving ∨ s.site.mode = .service → Consistent s →
        ∃ u : State, answers u
          ∧ u.site = { s.site with mode := .halted, haltCause := some cause, working := none }
          ∧ Notice.siteHalted cause ∈ u.outbox
          ∧ (∀ p, (s.session p).running = true → EndsWith s u p .emergencyStop)
          ∧ u.sales.pendingSessions
              = s.sales.pendingSessions ++ fourIds.filter (fun p => (s.session p).running)
          ∧ u.sales.records = s.sales.records
          ∧ (∀ b, u.bank b =
                { s.bank b with
                  holder := (u.bank b).holder
                  queue := []
                  proofState := ((s.bank b).proof.map (·.before)).getD (s.bank b).proofState
                  proof := none }
              ∧ (((s.bank b).holder = .refill → s.bm.refillInFlight = some b) → (u.bank b).holder = .free))
          ∧ (∀ b, s.bm.refillInFlight = some b →
              Notice.refillStop b .aborted ∈ u.outbox ∧ u.bm.yieldTimer = none
                ∧ (returns b → u.bm.refillList = s.bm.refillList ++ [b])
                ∧ (¬returns b → u.bm.refillList = s.bm.refillList))
          ∧ (s.bm.refillInFlight = none → u.bm.refillList = s.bm.refillList)
          ∧ u.bm.refillInFlight = none ∧ (BanksAgree s → u.bm.designation = none)
          ∧ u.cbu = { capacity := s.cbu.capacity, grants := [], queue := [] }
          ∧ (s.cbu.queue ≠ [] → Notice.coolingDemand 0 ∈ u.outbox)
          ∧ (∀ p, u.sales.slots.get p = none)
          ∧ Undisturbed { s with site := u.site, sales := { s.sales with slots := u.sales.slots } } u)

/-- SITE RESET (R15, R24, R68, R85, R100, R151, R160, R166): outside UNCONFIGURED the site serves again; every session that
runs or waits to be closed is committed in its order, those that ran with SITE RESET and their snapshots at release, all
marked INTERRUPTED, each sale billed, numbered and noticed (Sold); banks, cooling, slots, close queue, notices and, but for
the supervisor's, last-answer records are cleared; a refill in flight ends ABORTED, its bank back in the refill list when
still low; RECORD READY is posted while records are held. The order of the notices it posts: log entry 21. -/
def Obligations.SiteResetClearsEveryBlock : Prop :=
  ∀ (tag : Byte) (s : State), Takes s (siteResetFrame tag) →
    let answers := fun (u : State) c => exec (.siteReset tag) s = .next (u.answered (siteResetFrame tag) c [])
    let order := s.sales.pendingSessions ++ fourIds.filter fun p => (s.session p).running
    let ended := fun p => if (s.session p).running = true then s.endedAs p .siteReset else s.session p
    let marked := fun p => { ended p with flags := { (ended p).flags with interrupted := true } }
    let returns := fun (b : BankId) =>
      (∃ e x, s.config.banks.get b = some e ∧ (s.bank b).pressure = some x ∧ x < e.refillStart)
        ∧ (s.bank b).proofState ≠ .suspect ∧ b ∉ s.bm.refillList
    (s.site.mode = .unconfigured → answers s .wrongState)
      ∧ (s.site.mode ≠ .unconfigured → Consistent s →
        ∃ u : State, answers u .ok
          ∧ u.site = { s.site with mode := .serving, haltCause := none, working := none }
          ∧ (∀ q, u.port q =
              if q = .supervisor then { s.port q with queue := [] }
              else { s.port q with queue := [], last := none, toRecord := none })
          ∧ (∃ sold, Sold { s with sessions := ⟨marked 0, marked 1, marked 2, marked 3⟩ } u order sold)
          ∧ (∀ p, p ∉ order → u.session p = s.session p)
          ∧ (u.sales.records ≠ [] → Notice.recordReady u.sales.records.length ∈ u.outbox)
          ∧ u.sales.closeQueue = [] ∧ u.sales.register = none ∧ u.sales.closingTimer = none
          ∧ (∀ p, u.sales.slots.get p = none) ∧ u.sales.tariff = s.sales.tariff
          ∧ u.cbu = { capacity := s.cbu.capacity, grants := [], queue := [] } ∧ Notice.coolingDemand 0 ∈ u.outbox
          ∧ (∀ b, u.bank b =
                { s.bank b with
                  holder := (u.bank b).holder
                  queue := []
                  proofState := ((s.bank b).proof.map (·.before)).getD (s.bank b).proofState
                  proof := none
                  overdue := false }
              ∧ (((s.bank b).holder = .refill → s.bm.refillInFlight = some b) → (u.bank b).holder = .free))
          ∧ (∀ b, s.bm.refillInFlight = some b →
              Notice.refillStop b .aborted ∈ u.outbox ∧ u.bm.yieldTimer = none
                ∧ (returns b → u.bm.refillList = s.bm.refillList ++ [b])
                ∧ (¬returns b → u.bm.refillList = s.bm.refillList))
          ∧ (s.bm.refillInFlight = none → u.bm.refillList = s.bm.refillList)
          ∧ u.bm.refillInFlight = none ∧ (BanksAgree s → u.bm.designation = none)
          ∧ u.bm.freshness = s.bm.freshness ∧ u.bm.freshnessTimer = s.bm.freshnessTimer
          ∧ u.bm.ambient = s.bm.ambient
          ∧ u.monitors = s.monitors)

/-- FINAL METER and CLOSING_TIMEOUT (R108, R157, R159 to R162): the final mass of an ended session is kept, and that of
the session in the closing register, or its absence at the timeout, completes its closing: its sale is billed by its
ceiling, reconciled with the banks and appended under the next number, and its position is IDLE. With it go the next heads
of the close queue that have their final mass; the head that has none takes the register (Closes). That a closing timer
that runs is taken to expire whatever remains of it, and that nothing changes otherwise: log entries 2 and 5. -/
def Obligations.ClosingCommitsTheSale : Prop :=
  let closes := fun (s u : State) (p : PosId) =>
    let massed := fun q => (s.session q).finalMass.isSome
    Closes s u p (s.sales.closeQueue.takeWhile massed) (s.sales.closeQueue.dropWhile massed)
  (∀ (p : PosId) (tag : Byte) (mass : BitVec 24) (s : State), Takes s (finalMeterFrame p tag mass) →
      let answers := fun (u : State) c =>
        exec (.finalMeter p tag mass) s = .next (u.answered (finalMeterFrame p tag mass) c [])
      let x := { s.session p with finalMass := some mass.toNat }
      (99999 < mass.toNat → answers s .outOfRange)
        ∧ (mass.toNat ≤ 99999 → x.running = true ∨ x.state = .idle → answers s .wrongState)
        ∧ (mass.toNat ≤ 99999 → x.state = .ended → answers (s.becomes p x) .ok)
        ∧ (mass.toNat ≤ 99999 → x.state = .closing → Consistent s →
          ∃ u, answers u .ok ∧ closes (s.becomes p x) u p))
    ∧ (∀ s : State,
      (s.sales.register = none ∨ s.sales.closingTimer = none → exec .closingTimeout s = .next s.flush)
        ∧ ∀ p, s.sales.register = some p → s.sales.closingTimer ≠ none → Consistent s →
            ∃ u : State, exec .closingTimeout s = .next u.flush ∧ closes s u p)
    ∧ ∀ (x : Session) (a : Authorization) (m price : Nat), x.auth = some a → x.siteMaxMass = some m →
      (∀ n, a.kind = .prepaid n → x.ceilingAt price = if price = 0 then m else min m (n * 1000 / price))
        ∧ ∀ n, a.kind = .fleet n → x.ceilingAt price = min m n
end

