-- ==== Sys2Proof/Laws/Quad.lean ====
section
/-! SUPPORT. Reading and writing the four-place container, the seven ports, and doing one thing in order for the four
numbers. -/

namespace Sys2Proof

set_option Elab.async false

namespace Quad

variable {α β : Type}

@[simp] theorem get_set_same (q : Quad α) : ∀ (i : Fin 4) (x : α), (q.set i x).get i = x
  | 0, _ => rfl
  | 1, _ => rfl
  | 2, _ => rfl
  | 3, _ => rfl

theorem get_set (q : Quad α) : ∀ (i j : Fin 4) (x : α), (q.set i x).get j = if j = i then x else q.get j
  | 0, 0, _ => rfl
  | 0, 1, _ => rfl
  | 0, 2, _ => rfl
  | 0, 3, _ => rfl
  | 1, 0, _ => rfl
  | 1, 1, _ => rfl
  | 1, 2, _ => rfl
  | 1, 3, _ => rfl
  | 2, 0, _ => rfl
  | 2, 1, _ => rfl
  | 2, 2, _ => rfl
  | 2, 3, _ => rfl
  | 3, 0, _ => rfl
  | 3, 1, _ => rfl
  | 3, 2, _ => rfl
  | 3, 3, _ => rfl

theorem get_set_ne (q : Quad α) {i j : Fin 4} (x : α) (h : j ≠ i) : (q.set i x).get j = q.get j := by
  rw [get_set, if_neg h]

@[simp] theorem get_map (q : Quad α) (f : α → β) : ∀ i : Fin 4, (q.map f).get i = f (q.get i)
  | 0 => rfl
  | 1 => rfl
  | 2 => rfl
  | 3 => rfl

@[simp] theorem get_fill (x : α) : ∀ i : Fin 4, (fill x).get i = x
  | 0 => rfl
  | 1 => rfl
  | 2 => rfl
  | 3 => rfl

@[simp] theorem set_set (q : Quad α) : ∀ (i : Fin 4) (x y : α), (q.set i x).set i y = q.set i y
  | 0, _, _ => rfl
  | 1, _, _ => rfl
  | 2, _, _ => rfl
  | 3, _, _ => rfl

@[simp] theorem set_get (q : Quad α) : ∀ i : Fin 4, q.set i (q.get i) = q
  | 0 => rfl
  | 1 => rfl
  | 2 => rfl
  | 3 => rfl

theorem ext_get {q r : Quad α} (h : ∀ i, q.get i = r.get i) : q = r := by
  obtain ⟨a, b, c, d⟩ := q
  obtain ⟨a', b', c', d'⟩ := r
  have h0 : a = a' := h 0
  have h1 : b = b' := h 1
  have h2 : c = c' := h 2
  have h3 : d = d' := h 3
  rw [h0, h1, h2, h3]

end Quad

/-- What each of the four things done in order keeps, and what each leads to, the whole keeps. -/
theorem inOrder_induct {σ : Type} (R : σ → σ → Prop) (trans : ∀ {a b c}, R a b → R b c → R a c) (f : Fin 4 → σ → σ)
    (h : ∀ i s, R s (f i s)) (s : σ) : R s (inOrder f s) :=
  trans (trans (trans (h 0 s) (h 1 _)) (h 2 _)) (h 3 _)

/-- A property that each of the four things keeps, the whole keeps. -/
theorem inOrder_keeps {σ : Type} (P : σ → Prop) (f : Fin 4 → σ → σ) (h : ∀ i s, P s → P (f i s)) (s : σ) (hs : P s) :
    P (inOrder f s) :=
  h 3 _ (h 2 _ (h 1 _ (h 0 _ hs)))

/-- Every number is one of the four. -/
theorem mem_fourIds : ∀ i : Fin 4, i ∈ fourIds := by decide

namespace Machine

namespace Ports

@[simp] theorem get_set_same (x : Ports) (p : PortId) (y : Port) : (x.set p y).get p = y := by
  cases p <;> simp [Ports.get, Ports.set]

theorem get_set_ne (x : Ports) {p q : PortId} (y : Port) (h : q ≠ p) : (x.set p y).get q = x.get q := by
  match p, q with
  | .dispenser m, .dispenser n => exact Quad.get_set_ne _ _ fun e => h (congrArg _ e)
  | .dispenser _, .plant => rfl
  | .dispenser _, .terminal => rfl
  | .dispenser _, .supervisor => rfl
  | .plant, .dispenser _ => rfl
  | .plant, .plant => exact absurd rfl h
  | .plant, .terminal => rfl
  | .plant, .supervisor => rfl
  | .terminal, .dispenser _ => rfl
  | .terminal, .plant => rfl
  | .terminal, .terminal => exact absurd rfl h
  | .terminal, .supervisor => rfl
  | .supervisor, .dispenser _ => rfl
  | .supervisor, .plant => rfl
  | .supervisor, .terminal => rfl
  | .supervisor, .supervisor => exact absurd rfl h

theorem get_set (x : Ports) (p q : PortId) (y : Port) : (x.set p y).get q = if q = p then y else x.get q := by
  by_cases h : q = p
  · rw [h, get_set_same, if_pos rfl]
  · rw [get_set_ne x y h, if_neg h]

@[simp] theorem set_set (x : Ports) (p : PortId) (y z : Port) : (x.set p y).set p z = x.set p z := by
  cases p <;> simp [Ports.set]

@[simp] theorem set_get (x : Ports) (p : PortId) : x.set p (x.get p) = x := by
  cases p <;> simp [Ports.set, Ports.get]

@[simp] theorem get_map (x : Ports) (f : PortId → Port → Port) (p : PortId) : (x.map f).get p = f p (x.get p) := by
  match p with
  | .dispenser 0 => rfl
  | .dispenser 1 => rfl
  | .dispenser 2 => rfl
  | .dispenser 3 => rfl
  | .plant => rfl
  | .terminal => rfl
  | .supervisor => rfl

theorem ext_get {x y : Ports} (h : ∀ p, x.get p = y.get p) : x = y := by
  obtain ⟨d, a, b, c⟩ := x
  obtain ⟨d', a', b', c'⟩ := y
  have hd : d = d' := Quad.ext_get fun i => h (.dispenser i)
  have ha : a = a' := h .plant
  have hb : b = b' := h .terminal
  have hc : c = c' := h .supervisor
  rw [hd, ha, hb, hc]

end Ports

end Machine

end Sys2Proof
end

