-- ==== Sys2Proof/Laws/State.lean ====
section
/-! SUPPORT. What each update of the state leaves of each field: one lemma for each field and update, all true by
definition, so that no proof unfolds a record update. -/

namespace Sys2Proof.Machine.State

set_option Elab.async false

/-! ### modPort -/

@[simp] theorem modPort_pending (s : State) (p : PortId) (f : Port → Port) : (s.modPort p f).pending = s.pending := rfl

@[simp] theorem modPort_outbox (s : State) (p : PortId) (f : Port → Port) : (s.modPort p f).outbox = s.outbox := rfl

@[simp] theorem modPort_tenths (s : State) (p : PortId) (f : Port → Port) : (s.modPort p f).tenths = s.tenths := rfl

@[simp] theorem modPort_choices (s : State) (p : PortId) (f : Port → Port) : (s.modPort p f).choices = s.choices := rfl

@[simp] theorem modPort_ports (s : State) (p : PortId) (f : Port → Port) : (s.modPort p f).ports = s.ports.set p (f (s.ports.get p)) := rfl

@[simp] theorem modPort_site (s : State) (p : PortId) (f : Port → Port) : (s.modPort p f).site = s.site := rfl

@[simp] theorem modPort_bm (s : State) (p : PortId) (f : Port → Port) : (s.modPort p f).bm = s.bm := rfl

@[simp] theorem modPort_cbu (s : State) (p : PortId) (f : Port → Port) : (s.modPort p f).cbu = s.cbu := rfl

@[simp] theorem modPort_monitors (s : State) (p : PortId) (f : Port → Port) : (s.modPort p f).monitors = s.monitors := rfl

@[simp] theorem modPort_sessions (s : State) (p : PortId) (f : Port → Port) : (s.modPort p f).sessions = s.sessions := rfl

@[simp] theorem modPort_sales (s : State) (p : PortId) (f : Port → Port) : (s.modPort p f).sales = s.sales := rfl

/-! ### modBank -/

@[simp] theorem modBank_pending (s : State) (b : BankId) (f : Bank → Bank) : (s.modBank b f).pending = s.pending := rfl

@[simp] theorem modBank_outbox (s : State) (b : BankId) (f : Bank → Bank) : (s.modBank b f).outbox = s.outbox := rfl

@[simp] theorem modBank_tenths (s : State) (b : BankId) (f : Bank → Bank) : (s.modBank b f).tenths = s.tenths := rfl

@[simp] theorem modBank_choices (s : State) (b : BankId) (f : Bank → Bank) : (s.modBank b f).choices = s.choices := rfl

@[simp] theorem modBank_ports (s : State) (b : BankId) (f : Bank → Bank) : (s.modBank b f).ports = s.ports := rfl

@[simp] theorem modBank_site (s : State) (b : BankId) (f : Bank → Bank) : (s.modBank b f).site = s.site := rfl

@[simp] theorem modBank_cbu (s : State) (b : BankId) (f : Bank → Bank) : (s.modBank b f).cbu = s.cbu := rfl

@[simp] theorem modBank_monitors (s : State) (b : BankId) (f : Bank → Bank) : (s.modBank b f).monitors = s.monitors := rfl

@[simp] theorem modBank_sessions (s : State) (b : BankId) (f : Bank → Bank) : (s.modBank b f).sessions = s.sessions := rfl

@[simp] theorem modBank_sales (s : State) (b : BankId) (f : Bank → Bank) : (s.modBank b f).sales = s.sales := rfl

/-! ### modBm -/

@[simp] theorem modBm_pending (s : State) (f : BankManager → BankManager) : (s.modBm f).pending = s.pending := rfl

@[simp] theorem modBm_outbox (s : State) (f : BankManager → BankManager) : (s.modBm f).outbox = s.outbox := rfl

@[simp] theorem modBm_tenths (s : State) (f : BankManager → BankManager) : (s.modBm f).tenths = s.tenths := rfl

@[simp] theorem modBm_choices (s : State) (f : BankManager → BankManager) : (s.modBm f).choices = s.choices := rfl

@[simp] theorem modBm_ports (s : State) (f : BankManager → BankManager) : (s.modBm f).ports = s.ports := rfl

@[simp] theorem modBm_site (s : State) (f : BankManager → BankManager) : (s.modBm f).site = s.site := rfl

@[simp] theorem modBm_bm (s : State) (f : BankManager → BankManager) : (s.modBm f).bm = f s.bm := rfl

@[simp] theorem modBm_cbu (s : State) (f : BankManager → BankManager) : (s.modBm f).cbu = s.cbu := rfl

@[simp] theorem modBm_monitors (s : State) (f : BankManager → BankManager) : (s.modBm f).monitors = s.monitors := rfl

@[simp] theorem modBm_sessions (s : State) (f : BankManager → BankManager) : (s.modBm f).sessions = s.sessions := rfl

@[simp] theorem modBm_sales (s : State) (f : BankManager → BankManager) : (s.modBm f).sales = s.sales := rfl

/-! ### modMonitor -/

@[simp] theorem modMonitor_pending (s : State) (p : PosId) (f : Monitor → Monitor) : (s.modMonitor p f).pending = s.pending := rfl

@[simp] theorem modMonitor_outbox (s : State) (p : PosId) (f : Monitor → Monitor) : (s.modMonitor p f).outbox = s.outbox := rfl

@[simp] theorem modMonitor_tenths (s : State) (p : PosId) (f : Monitor → Monitor) : (s.modMonitor p f).tenths = s.tenths := rfl

@[simp] theorem modMonitor_choices (s : State) (p : PosId) (f : Monitor → Monitor) : (s.modMonitor p f).choices = s.choices := rfl

@[simp] theorem modMonitor_ports (s : State) (p : PosId) (f : Monitor → Monitor) : (s.modMonitor p f).ports = s.ports := rfl

@[simp] theorem modMonitor_site (s : State) (p : PosId) (f : Monitor → Monitor) : (s.modMonitor p f).site = s.site := rfl

@[simp] theorem modMonitor_bm (s : State) (p : PosId) (f : Monitor → Monitor) : (s.modMonitor p f).bm = s.bm := rfl

@[simp] theorem modMonitor_cbu (s : State) (p : PosId) (f : Monitor → Monitor) : (s.modMonitor p f).cbu = s.cbu := rfl

@[simp] theorem modMonitor_monitors (s : State) (p : PosId) (f : Monitor → Monitor) : (s.modMonitor p f).monitors = s.monitors.set p (f (s.monitors.get p)) := rfl

@[simp] theorem modMonitor_sessions (s : State) (p : PosId) (f : Monitor → Monitor) : (s.modMonitor p f).sessions = s.sessions := rfl

@[simp] theorem modMonitor_sales (s : State) (p : PosId) (f : Monitor → Monitor) : (s.modMonitor p f).sales = s.sales := rfl

/-! ### modSession -/

@[simp] theorem modSession_pending (s : State) (p : PosId) (f : Session → Session) : (s.modSession p f).pending = s.pending := rfl

@[simp] theorem modSession_outbox (s : State) (p : PosId) (f : Session → Session) : (s.modSession p f).outbox = s.outbox := rfl

@[simp] theorem modSession_tenths (s : State) (p : PosId) (f : Session → Session) : (s.modSession p f).tenths = s.tenths := rfl

@[simp] theorem modSession_choices (s : State) (p : PosId) (f : Session → Session) : (s.modSession p f).choices = s.choices := rfl

@[simp] theorem modSession_ports (s : State) (p : PosId) (f : Session → Session) : (s.modSession p f).ports = s.ports := rfl

@[simp] theorem modSession_site (s : State) (p : PosId) (f : Session → Session) : (s.modSession p f).site = s.site := rfl

@[simp] theorem modSession_bm (s : State) (p : PosId) (f : Session → Session) : (s.modSession p f).bm = s.bm := rfl

@[simp] theorem modSession_cbu (s : State) (p : PosId) (f : Session → Session) : (s.modSession p f).cbu = s.cbu := rfl

@[simp] theorem modSession_monitors (s : State) (p : PosId) (f : Session → Session) : (s.modSession p f).monitors = s.monitors := rfl

@[simp] theorem modSession_sessions (s : State) (p : PosId) (f : Session → Session) : (s.modSession p f).sessions = s.sessions.set p (f (s.sessions.get p)) := rfl

@[simp] theorem modSession_sales (s : State) (p : PosId) (f : Session → Session) : (s.modSession p f).sales = s.sales := rfl

/-! ### modSite -/

@[simp] theorem modSite_pending (s : State) (f : SiteControl → SiteControl) : (s.modSite f).pending = s.pending := rfl

@[simp] theorem modSite_outbox (s : State) (f : SiteControl → SiteControl) : (s.modSite f).outbox = s.outbox := rfl

@[simp] theorem modSite_tenths (s : State) (f : SiteControl → SiteControl) : (s.modSite f).tenths = s.tenths := rfl

@[simp] theorem modSite_choices (s : State) (f : SiteControl → SiteControl) : (s.modSite f).choices = s.choices := rfl

@[simp] theorem modSite_ports (s : State) (f : SiteControl → SiteControl) : (s.modSite f).ports = s.ports := rfl

@[simp] theorem modSite_site (s : State) (f : SiteControl → SiteControl) : (s.modSite f).site = f s.site := rfl

@[simp] theorem modSite_bm (s : State) (f : SiteControl → SiteControl) : (s.modSite f).bm = s.bm := rfl

@[simp] theorem modSite_cbu (s : State) (f : SiteControl → SiteControl) : (s.modSite f).cbu = s.cbu := rfl

@[simp] theorem modSite_monitors (s : State) (f : SiteControl → SiteControl) : (s.modSite f).monitors = s.monitors := rfl

@[simp] theorem modSite_sessions (s : State) (f : SiteControl → SiteControl) : (s.modSite f).sessions = s.sessions := rfl

@[simp] theorem modSite_sales (s : State) (f : SiteControl → SiteControl) : (s.modSite f).sales = s.sales := rfl

/-! ### modCbu -/

@[simp] theorem modCbu_pending (s : State) (f : CoolingUnit → CoolingUnit) : (s.modCbu f).pending = s.pending := rfl

@[simp] theorem modCbu_outbox (s : State) (f : CoolingUnit → CoolingUnit) : (s.modCbu f).outbox = s.outbox := rfl

@[simp] theorem modCbu_tenths (s : State) (f : CoolingUnit → CoolingUnit) : (s.modCbu f).tenths = s.tenths := rfl

@[simp] theorem modCbu_choices (s : State) (f : CoolingUnit → CoolingUnit) : (s.modCbu f).choices = s.choices := rfl

@[simp] theorem modCbu_ports (s : State) (f : CoolingUnit → CoolingUnit) : (s.modCbu f).ports = s.ports := rfl

@[simp] theorem modCbu_site (s : State) (f : CoolingUnit → CoolingUnit) : (s.modCbu f).site = s.site := rfl

@[simp] theorem modCbu_bm (s : State) (f : CoolingUnit → CoolingUnit) : (s.modCbu f).bm = s.bm := rfl

@[simp] theorem modCbu_cbu (s : State) (f : CoolingUnit → CoolingUnit) : (s.modCbu f).cbu = f s.cbu := rfl

@[simp] theorem modCbu_monitors (s : State) (f : CoolingUnit → CoolingUnit) : (s.modCbu f).monitors = s.monitors := rfl

@[simp] theorem modCbu_sessions (s : State) (f : CoolingUnit → CoolingUnit) : (s.modCbu f).sessions = s.sessions := rfl

@[simp] theorem modCbu_sales (s : State) (f : CoolingUnit → CoolingUnit) : (s.modCbu f).sales = s.sales := rfl

/-! ### modSales -/

@[simp] theorem modSales_pending (s : State) (f : SalesUnit → SalesUnit) : (s.modSales f).pending = s.pending := rfl

@[simp] theorem modSales_outbox (s : State) (f : SalesUnit → SalesUnit) : (s.modSales f).outbox = s.outbox := rfl

@[simp] theorem modSales_tenths (s : State) (f : SalesUnit → SalesUnit) : (s.modSales f).tenths = s.tenths := rfl

@[simp] theorem modSales_choices (s : State) (f : SalesUnit → SalesUnit) : (s.modSales f).choices = s.choices := rfl

@[simp] theorem modSales_ports (s : State) (f : SalesUnit → SalesUnit) : (s.modSales f).ports = s.ports := rfl

@[simp] theorem modSales_site (s : State) (f : SalesUnit → SalesUnit) : (s.modSales f).site = s.site := rfl

@[simp] theorem modSales_bm (s : State) (f : SalesUnit → SalesUnit) : (s.modSales f).bm = s.bm := rfl

@[simp] theorem modSales_cbu (s : State) (f : SalesUnit → SalesUnit) : (s.modSales f).cbu = s.cbu := rfl

@[simp] theorem modSales_monitors (s : State) (f : SalesUnit → SalesUnit) : (s.modSales f).monitors = s.monitors := rfl

@[simp] theorem modSales_sessions (s : State) (f : SalesUnit → SalesUnit) : (s.modSales f).sessions = s.sessions := rfl

@[simp] theorem modSales_sales (s : State) (f : SalesUnit → SalesUnit) : (s.modSales f).sales = f s.sales := rfl

/-! ### post -/

@[simp] theorem post_pending (s : State) (n : Notice) : (s.post n).pending = s.pending := rfl

@[simp] theorem post_outbox (s : State) (n : Notice) : (s.post n).outbox = s.outbox ++ [n] := rfl

@[simp] theorem post_tenths (s : State) (n : Notice) : (s.post n).tenths = s.tenths := rfl

@[simp] theorem post_choices (s : State) (n : Notice) : (s.post n).choices = s.choices := rfl

@[simp] theorem post_ports (s : State) (n : Notice) : (s.post n).ports = s.ports := rfl

@[simp] theorem post_site (s : State) (n : Notice) : (s.post n).site = s.site := rfl

@[simp] theorem post_bm (s : State) (n : Notice) : (s.post n).bm = s.bm := rfl

@[simp] theorem post_cbu (s : State) (n : Notice) : (s.post n).cbu = s.cbu := rfl

@[simp] theorem post_monitors (s : State) (n : Notice) : (s.post n).monitors = s.monitors := rfl

@[simp] theorem post_sessions (s : State) (n : Notice) : (s.post n).sessions = s.sessions := rfl

@[simp] theorem post_sales (s : State) (n : Notice) : (s.post n).sales = s.sales := rfl

/-! ### The Bank Manager's own fields -/

@[simp] theorem modBank_bm_freshness (s : State) (b : BankId) (f : Bank → Bank) :
    (s.modBank b f).bm.freshness = s.bm.freshness := rfl

@[simp] theorem modBank_bm_freshnessTimer (s : State) (b : BankId) (f : Bank → Bank) :
    (s.modBank b f).bm.freshnessTimer = s.bm.freshnessTimer := rfl

@[simp] theorem modBank_bm_ambient (s : State) (b : BankId) (f : Bank → Bank) :
    (s.modBank b f).bm.ambient = s.bm.ambient := rfl

@[simp] theorem modBank_bm_refillInFlight (s : State) (b : BankId) (f : Bank → Bank) :
    (s.modBank b f).bm.refillInFlight = s.bm.refillInFlight := rfl

@[simp] theorem modBank_bm_designation (s : State) (b : BankId) (f : Bank → Bank) :
    (s.modBank b f).bm.designation = s.bm.designation := rfl

@[simp] theorem modBank_bm_refillList (s : State) (b : BankId) (f : Bank → Bank) :
    (s.modBank b f).bm.refillList = s.bm.refillList := rfl

@[simp] theorem modBank_bm_yieldTimer (s : State) (b : BankId) (f : Bank → Bank) :
    (s.modBank b f).bm.yieldTimer = s.bm.yieldTimer := rfl

@[simp] theorem modBank_bm_banks (s : State) (b : BankId) (f : Bank → Bank) :
    (s.modBank b f).bm.banks = s.bm.banks.set b (f (s.bm.banks.get b)) := rfl

/-! ### Accessors -/

@[simp] theorem modPort_bank (s : State) (p : PortId) (f : Port → Port) (c : BankId) : (s.modPort p f).bank c = s.bank c := rfl

@[simp] theorem modPort_monitor (s : State) (p : PortId) (f : Port → Port) (q : PosId) : (s.modPort p f).monitor q = s.monitor q := rfl

@[simp] theorem modPort_session (s : State) (p : PortId) (f : Port → Port) (q : PosId) : (s.modPort p f).session q = s.session q := rfl

@[simp] theorem modPort_config (s : State) (p : PortId) (f : Port → Port) : (s.modPort p f).config = s.config := rfl

@[simp] theorem modBank_port (s : State) (b : BankId) (f : Bank → Bank) (q : PortId) : (s.modBank b f).port q = s.port q := rfl

@[simp] theorem modBank_monitor (s : State) (b : BankId) (f : Bank → Bank) (q : PosId) : (s.modBank b f).monitor q = s.monitor q := rfl

@[simp] theorem modBank_session (s : State) (b : BankId) (f : Bank → Bank) (q : PosId) : (s.modBank b f).session q = s.session q := rfl

@[simp] theorem modBank_config (s : State) (b : BankId) (f : Bank → Bank) : (s.modBank b f).config = s.config := rfl

@[simp] theorem modBm_port (s : State) (f : BankManager → BankManager) (q : PortId) : (s.modBm f).port q = s.port q := rfl

@[simp] theorem modBm_monitor (s : State) (f : BankManager → BankManager) (q : PosId) : (s.modBm f).monitor q = s.monitor q := rfl

@[simp] theorem modBm_session (s : State) (f : BankManager → BankManager) (q : PosId) : (s.modBm f).session q = s.session q := rfl

@[simp] theorem modBm_config (s : State) (f : BankManager → BankManager) : (s.modBm f).config = s.config := rfl

@[simp] theorem modMonitor_port (s : State) (p : PosId) (f : Monitor → Monitor) (q : PortId) : (s.modMonitor p f).port q = s.port q := rfl

@[simp] theorem modMonitor_bank (s : State) (p : PosId) (f : Monitor → Monitor) (c : BankId) : (s.modMonitor p f).bank c = s.bank c := rfl

@[simp] theorem modMonitor_session (s : State) (p : PosId) (f : Monitor → Monitor) (q : PosId) : (s.modMonitor p f).session q = s.session q := rfl

@[simp] theorem modMonitor_config (s : State) (p : PosId) (f : Monitor → Monitor) : (s.modMonitor p f).config = s.config := rfl

@[simp] theorem modSession_port (s : State) (p : PosId) (f : Session → Session) (q : PortId) : (s.modSession p f).port q = s.port q := rfl

@[simp] theorem modSession_bank (s : State) (p : PosId) (f : Session → Session) (c : BankId) : (s.modSession p f).bank c = s.bank c := rfl

@[simp] theorem modSession_monitor (s : State) (p : PosId) (f : Session → Session) (q : PosId) : (s.modSession p f).monitor q = s.monitor q := rfl

@[simp] theorem modSession_config (s : State) (p : PosId) (f : Session → Session) : (s.modSession p f).config = s.config := rfl

@[simp] theorem modSite_port (s : State) (f : SiteControl → SiteControl) (q : PortId) : (s.modSite f).port q = s.port q := rfl

@[simp] theorem modSite_bank (s : State) (f : SiteControl → SiteControl) (c : BankId) : (s.modSite f).bank c = s.bank c := rfl

@[simp] theorem modSite_monitor (s : State) (f : SiteControl → SiteControl) (q : PosId) : (s.modSite f).monitor q = s.monitor q := rfl

@[simp] theorem modSite_session (s : State) (f : SiteControl → SiteControl) (q : PosId) : (s.modSite f).session q = s.session q := rfl

@[simp] theorem modCbu_port (s : State) (f : CoolingUnit → CoolingUnit) (q : PortId) : (s.modCbu f).port q = s.port q := rfl

@[simp] theorem modCbu_bank (s : State) (f : CoolingUnit → CoolingUnit) (c : BankId) : (s.modCbu f).bank c = s.bank c := rfl

@[simp] theorem modCbu_monitor (s : State) (f : CoolingUnit → CoolingUnit) (q : PosId) : (s.modCbu f).monitor q = s.monitor q := rfl

@[simp] theorem modCbu_session (s : State) (f : CoolingUnit → CoolingUnit) (q : PosId) : (s.modCbu f).session q = s.session q := rfl

@[simp] theorem modCbu_config (s : State) (f : CoolingUnit → CoolingUnit) : (s.modCbu f).config = s.config := rfl

@[simp] theorem modSales_port (s : State) (f : SalesUnit → SalesUnit) (q : PortId) : (s.modSales f).port q = s.port q := rfl

@[simp] theorem modSales_bank (s : State) (f : SalesUnit → SalesUnit) (c : BankId) : (s.modSales f).bank c = s.bank c := rfl

@[simp] theorem modSales_monitor (s : State) (f : SalesUnit → SalesUnit) (q : PosId) : (s.modSales f).monitor q = s.monitor q := rfl

@[simp] theorem modSales_session (s : State) (f : SalesUnit → SalesUnit) (q : PosId) : (s.modSales f).session q = s.session q := rfl

@[simp] theorem modSales_config (s : State) (f : SalesUnit → SalesUnit) : (s.modSales f).config = s.config := rfl

@[simp] theorem post_port (s : State) (n : Notice) (q : PortId) : (s.post n).port q = s.port q := rfl

@[simp] theorem post_bank (s : State) (n : Notice) (c : BankId) : (s.post n).bank c = s.bank c := rfl

@[simp] theorem post_monitor (s : State) (n : Notice) (q : PosId) : (s.post n).monitor q = s.monitor q := rfl

@[simp] theorem post_session (s : State) (n : Notice) (q : PosId) : (s.post n).session q = s.session q := rfl

@[simp] theorem post_config (s : State) (n : Notice) : (s.post n).config = s.config := rfl

@[simp] theorem modPort_port_same (s : State) (p : PortId) (f : Port → Port) : (s.modPort p f).port p = f (s.port p) :=
  Ports.get_set_same _ _ _

theorem modPort_port_ne (s : State) {p q : PortId} (f : Port → Port) (h : q ≠ p) :
    (s.modPort p f).port q = s.port q :=
  Ports.get_set_ne _ _ h

theorem modPort_port (s : State) (p q : PortId) (f : Port → Port) :
    (s.modPort p f).port q = if q = p then f (s.port p) else s.port q :=
  Ports.get_set _ _ _ _

@[simp] theorem modBank_bank_same (s : State) (b : BankId) (f : Bank → Bank) : (s.modBank b f).bank b = f (s.bank b) :=
  Quad.get_set_same _ _ _

theorem modBank_bank_ne (s : State) {b c : BankId} (f : Bank → Bank) (h : c ≠ b) :
    (s.modBank b f).bank c = s.bank c :=
  Quad.get_set_ne _ _ h

theorem modBank_bank (s : State) (b c : BankId) (f : Bank → Bank) :
    (s.modBank b f).bank c = if c = b then f (s.bank b) else s.bank c :=
  Quad.get_set _ _ _ _

@[simp] theorem modMonitor_monitor_same (s : State) (p : PosId) (f : Monitor → Monitor) : (s.modMonitor p f).monitor p = f (s.monitor p) :=
  Quad.get_set_same _ _ _

theorem modMonitor_monitor_ne (s : State) {p q : PosId} (f : Monitor → Monitor) (h : q ≠ p) :
    (s.modMonitor p f).monitor q = s.monitor q :=
  Quad.get_set_ne _ _ h

theorem modMonitor_monitor (s : State) (p q : PosId) (f : Monitor → Monitor) :
    (s.modMonitor p f).monitor q = if q = p then f (s.monitor p) else s.monitor q :=
  Quad.get_set _ _ _ _

@[simp] theorem modSession_session_same (s : State) (p : PosId) (f : Session → Session) : (s.modSession p f).session p = f (s.session p) :=
  Quad.get_set_same _ _ _

theorem modSession_session_ne (s : State) {p q : PosId} (f : Session → Session) (h : q ≠ p) :
    (s.modSession p f).session q = s.session q :=
  Quad.get_set_ne _ _ h

theorem modSession_session (s : State) (p q : PosId) (f : Session → Session) :
    (s.modSession p f).session q = if q = p then f (s.session p) else s.session q :=
  Quad.get_set _ _ _ _

@[simp] theorem modBm_bank (s : State) (f : BankManager → BankManager) (c : BankId) :
    (s.modBm f).bank c = (f s.bm).banks.get c := rfl

@[simp] theorem bm_banks_get (s : State) (b : BankId) : s.bm.banks.get b = s.bank b := rfl

@[simp] theorem sessions_get (s : State) (p : PosId) : s.sessions.get p = s.session p := rfl

@[simp] theorem monitors_get (s : State) (p : PosId) : s.monitors.get p = s.monitor p := rfl

@[simp] theorem ports_get (s : State) (p : PortId) : s.ports.get p = s.port p := rfl

/-! ### flush -/

@[simp] theorem flush_pending (s : State) : s.flush.pending = s.pending := rfl

@[simp] theorem flush_tenths (s : State) : s.flush.tenths = s.tenths := rfl

@[simp] theorem flush_choices (s : State) : s.flush.choices = s.choices := rfl

@[simp] theorem flush_site (s : State) : s.flush.site = s.site := rfl

@[simp] theorem flush_bm (s : State) : s.flush.bm = s.bm := rfl

@[simp] theorem flush_cbu (s : State) : s.flush.cbu = s.cbu := rfl

@[simp] theorem flush_monitors (s : State) : s.flush.monitors = s.monitors := rfl

@[simp] theorem flush_sessions (s : State) : s.flush.sessions = s.sessions := rfl

@[simp] theorem flush_sales (s : State) : s.flush.sales = s.sales := rfl

@[simp] theorem flush_outbox (s : State) : s.flush.outbox = [] := rfl

@[simp] theorem flush_bank (s : State) (c : BankId) : s.flush.bank c = s.bank c := rfl

@[simp] theorem flush_monitor (s : State) (q : PosId) : s.flush.monitor q = s.monitor q := rfl

@[simp] theorem flush_session (s : State) (q : PosId) : s.flush.session q = s.session q := rfl

@[simp] theorem flush_config (s : State) : s.flush.config = s.config := rfl

/-- The queue of a port at the end of an event, and the rest of its record (R10). -/
theorem flush_port (s : State) (p : PortId) :
    s.flush.port p =
      { s.port p with queue := mergeNotices (s.port p).queue (s.outbox.filter fun n => n.port = p) } :=
  Ports.get_map _ _ _

/-- Taking no posts leaves a queue as it was. -/
@[simp] theorem mergeNotices_nil (q : List Notice) : mergeNotices q [] = q := List.append_nil q

/-- An event that posts nothing leaves every queue as it was. -/
theorem flush_quiet (s : State) (h : s.outbox = []) : s.flush = s := by
  have hp : s.flush.ports = s.ports := Ports.ext_get fun p => by
    have := s.flush_port p
    rw [h] at this
    simpa using this
  obtain ⟨pending, outbox, tenths, choices, ports, site, bm, cbu, monitors, sessions, sales⟩ := s
  subst h
  exact congrArg (fun x => State.mk pending [] tenths choices x site bm cbu monitors sessions sales) hp

end Sys2Proof.Machine.State
end

