-- ==== Sys2Proof/Laws/Calm.lean ====
section
/-! SUPPORT. What an event never touches, whichever sessions it reaches: the relation `Calm`, and `Steady`, which adds
that the sessions keep everything they were opened with. Each shared operation has one lemma. -/

namespace Sys2Proof.Machine

set_option Elab.async false

theorem Session.fixed_finalMass {x y : Session} (h : y.fixed = x.fixed) : y.finalMass = x.finalMass :=
  congrArg (fun z => z.2.2.1) h

theorem Session.fixed_activeTime {x y : Session} (h : y.fixed = x.fixed) : y.activeTime = x.activeTime :=
  congrArg (fun z => z.2.2.2) h

/-! ### Where a position stands at the banks -/

theorem State.standing_eq (s : State) (p : PosId) (b : BankId) :
    ∃ rest, ∀ x : Bank, (s.modBank b fun _ => x).standing p = x.standing p + rest := by
  unfold State.standing
  match b with
  | 0 => exact ⟨(s.bank 1).standing p + (s.bank 2).standing p + (s.bank 3).standing p, fun x => by
      simp [State.modBank_bank, add_assoc]⟩
  | 1 => exact ⟨(s.bank 0).standing p + (s.bank 2).standing p + (s.bank 3).standing p, fun x => by
      simp [State.modBank_bank]; omega⟩
  | 2 => exact ⟨(s.bank 0).standing p + (s.bank 1).standing p + (s.bank 3).standing p, fun x => by
      simp [State.modBank_bank]; omega⟩
  | 3 => exact ⟨(s.bank 0).standing p + (s.bank 1).standing p + (s.bank 2).standing p, fun x => by
      simp [State.modBank_bank]; omega⟩

/-- A change of one bank changes how often a position stands at the banks by what it changes there. -/
theorem State.modBank_standing (s : State) (b : BankId) (f : Bank → Bank) (p : PosId) :
    (s.modBank b f).standing p + (s.bank b).standing p = s.standing p + (f (s.bank b)).standing p := by
  obtain ⟨rest, h⟩ := s.standing_eq p b
  have h1 : (s.modBank b f).standing p = _ := h (f (s.bank b))
  have h2 : (s.modBank b fun _ => s.bank b) = s := by
    unfold State.modBank State.bank
    rw [Quad.set_get]
  have h3 := h (s.bank b)
  rw [h2] at h3
  omega

theorem State.modBank_standing_le (s : State) (b : BankId) (f : Bank → Bank) (p : PosId)
    (h : (f (s.bank b)).standing p ≤ (s.bank b).standing p) : (s.modBank b f).standing p ≤ s.standing p := by
  have := s.modBank_standing b f p
  omega

theorem OneClaim.of_banks {s : State} {f : BankManager → BankManager} (h : (f s.bm).banks = s.bm.banks) (k : OneClaim s) :
    OneClaim (s.modBm f) := fun p => by
  have : (s.modBm f).standing p = s.standing p := by
    unfold State.standing State.bank
    rw [State.modBm_bm, h]
  rw [this]
  exact k p

/-- A bank that no position holds counts for no more than its queue. -/
theorem Bank.standing_freed_le (x : Bank) (q : PosId) : ({ x with holder := .free }).standing q ≤ x.standing q := by
  unfold Bank.standing
  simp

theorem Bank.standing_proof_le (x : Bank) (q : PosId) : ({ x with holder := .proof }).standing q ≤ x.standing q := by
  unfold Bank.standing
  simp

theorem Bank.standing_refill_le (x : Bank) (q : PosId) : ({ x with holder := .refill }).standing q ≤ x.standing q := by
  unfold Bank.standing
  simp

/-- The head of a wait queue that takes the bank stands there no more often than before. -/
theorem Bank.standing_handed_le (x : Bank) (p : PosId) (rest : List PosId) (h : x.queue = p :: rest) (q : PosId) :
    ({ x with holder := .position p, queue := rest }).standing q ≤ x.standing q := by
  unfold Bank.standing
  rw [h, List.count_cons]
  by_cases e : p = q
  · subst e
    simp
    omega
  · simp [e]

theorem Bank.standing_filter_le (x : Bank) (c : PosId → Bool) (q : PosId) :
    ({ x with queue := x.queue.filter c }).standing q ≤ x.standing q := by
  unfold Bank.standing
  exact Nat.add_le_add_left (List.filter_sublist.count_le q) _

theorem Bank.standing_taken_le (x : Bank) (p : PosId) :
    ({ x with holder := .position p }).standing p ≤ x.standing p + 1 := by
  unfold Bank.standing
  simp
  omega

theorem Bank.standing_taken_other_le (x : Bank) {p q : PosId} (h : p ≠ q) :
    ({ x with holder := .position p }).standing q ≤ x.standing q := by
  unfold Bank.standing
  simp [h]

theorem Bank.standing_joined_le (x : Bank) (p : PosId) :
    ({ x with queue := x.queue ++ [p] }).standing p ≤ x.standing p + 1 := by
  unfold Bank.standing
  simp [List.count_append]
  omega

theorem Bank.standing_joined_other_le (x : Bank) {p q : PosId} (h : p ≠ q) :
    ({ x with queue := x.queue ++ [p] }).standing q ≤ x.standing q := by
  unfold Bank.standing
  simp [List.count_append, h]

/-- A price sets the ceiling it gives. -/
theorem Session.priced_agrees (x : Session) (price : Nat) : (x.priced price).priceAgrees := fun _ h => by
  cases h
  rfl

/-- A position that neither holds a bank nor waits for one stands at none. -/
theorem State.standing_of_aside {s : State} {p : PosId} (h : s.holdsOrWaits p = false) : s.standing p = 0 := by
  have k : ∀ b, (s.bank b).standing p = 0 := fun b => by
    have := List.any_eq_false.mp h b (mem_fourIds b)
    simp only [Bool.or_eq_true, decide_eq_true_eq, not_or, List.contains_iff_mem] at this
    unfold Bank.standing
    rw [if_neg this.1, List.count_eq_zero_of_not_mem this.2]
  unfold State.standing
  rw [k, k, k, k]

/-- A position that stands nowhere may come to stand once at one bank. -/
theorem OneClaim.come {s : State} {b : BankId} {p : PosId} {f : Bank → Bank} (z : s.standing p = 0)
    (one : (f (s.bank b)).standing p ≤ (s.bank b).standing p + 1)
    (others : ∀ q, q ≠ p → (f (s.bank b)).standing q ≤ (s.bank b).standing q) (k : OneClaim s) :
    OneClaim (s.modBank b f) := fun q => by
  by_cases e : q = p
  · subst e
    have := s.modBank_standing b f q
    omega
  · exact (State.modBank_standing_le s b f q (others q e)).trans (k q)

/-- The records stand in increasing order below the counter, until the last number has been given: what `Numbered` says
without the sessions that are open. -/
def Counted (s : State) : Prop :=
  s.sales.counter ≠ 0 →
    s.sales.records.Pairwise (fun a b => a.sequence < b.sequence) ∧ ∀ r ∈ s.sales.records, r.sequence < s.sales.counter

/-- What no cascade of ends, grants, claims and hand-offs touches. -/
structure Calm (s t : State) : Prop where
  pending : t.pending = s.pending
  tenths : t.tenths = s.tenths
  choices : t.choices = s.choices
  ports : t.ports = s.ports
  site : t.site = s.site
  capacity : t.cbu.capacity = s.cbu.capacity
  slots : t.sales.slots = s.sales.slots
  tariff : t.sales.tariff = s.sales.tariff
  freshness : t.bm.freshness = s.bm.freshness
  freshnessTimer : t.bm.freshnessTimer = s.bm.freshnessTimer
  ambient : t.bm.ambient = s.bm.ambient
  refill : t.bm.refillInFlight = s.bm.refillInFlight ∨ t.bm.refillInFlight = none
  reports : ∀ b, (t.bank b).report = (s.bank b).report
  monitors : ∀ p, (t.monitor p).held = (s.monitor p).held
  active : ∀ p, (t.session p).activeTime ≤ (s.session p).activeTime
  posts : s.outbox <+: t.outbox
  records : s.sales.records <+: t.sales.records
  within : WithinCapacity s → WithinCapacity t
  claims : OneClaim s → OneClaim t
  fair : FairSales s → FairSales t
  counted : Counted s → Counted t

/-- `Calm`, and every session without a final mass keeps what it was opened with. -/
structure Steady (s t : State) : Prop extends Calm s t where
  sessions : ∀ p, (s.session p).finalMass = none → (t.session p).fixed = (s.session p).fixed

namespace Calm

theorem refl (s : State) : Calm s s :=
  ⟨rfl, rfl, rfl, rfl, rfl, rfl, rfl, rfl, rfl, rfl, rfl, .inl rfl, fun _ => rfl, fun _ => rfl, fun _ => le_refl _,
    List.prefix_refl _, List.prefix_refl _, id, id, id, id⟩

theorem trans {s t u : State} (h : Calm s t) (k : Calm t u) : Calm s u where
  pending := k.pending.trans h.pending
  tenths := k.tenths.trans h.tenths
  choices := k.choices.trans h.choices
  ports := k.ports.trans h.ports
  site := k.site.trans h.site
  capacity := k.capacity.trans h.capacity
  slots := k.slots.trans h.slots
  tariff := k.tariff.trans h.tariff
  freshness := k.freshness.trans h.freshness
  freshnessTimer := k.freshnessTimer.trans h.freshnessTimer
  ambient := k.ambient.trans h.ambient
  refill := k.refill.elim (fun e => h.refill.imp e.trans e.trans) .inr
  reports b := (k.reports b).trans (h.reports b)
  monitors p := (k.monitors p).trans (h.monitors p)
  active p := (k.active p).trans (h.active p)
  posts := h.posts.trans k.posts
  records := h.records.trans k.records
  within := k.within ∘ h.within
  claims := k.claims ∘ h.claims
  fair := k.fair ∘ h.fair
  counted := k.counted ∘ h.counted

theorem modSession (s : State) (p : PosId) (f : Session → Session) (h : ∀ x, (f x).activeTime ≤ x.activeTime)
    (a : ∀ x, x.priceAgrees → (f x).priceAgrees) : Calm s (s.modSession p f) where
  pending := rfl
  tenths := rfl
  choices := rfl
  ports := rfl
  site := rfl
  capacity := rfl
  slots := rfl
  tariff := rfl
  freshness := rfl
  freshnessTimer := rfl
  ambient := rfl
  refill := .inl rfl
  reports _ := rfl
  monitors _ := rfl
  active q := by
    rw [State.modSession_session]
    split
    · rename_i e; rw [e]; exact h _
    · exact le_refl _
  posts := List.prefix_refl _
  records := List.prefix_refl _
  within := id
  claims := id
  fair k := ⟨fun q => by
    rw [State.modSession_session]
    split
    · exact a _ (k.1 p)
    · exact k.1 q, k.2⟩
  counted := id

theorem modBm (s : State) (f : BankManager → BankManager)
    (h : (f s.bm).freshness = s.bm.freshness ∧ (f s.bm).freshnessTimer = s.bm.freshnessTimer ∧
      (f s.bm).ambient = s.bm.ambient ∧
      ((f s.bm).refillInFlight = s.bm.refillInFlight ∨ (f s.bm).refillInFlight = none) ∧
      ∀ b, ((f s.bm).banks.get b).report = (s.bank b).report)
    (c : OneClaim s → OneClaim (s.modBm f)) : Calm s (s.modBm f) where
  pending := rfl
  tenths := rfl
  choices := rfl
  ports := rfl
  site := rfl
  capacity := rfl
  slots := rfl
  tariff := rfl
  freshness := h.1
  freshnessTimer := h.2.1
  ambient := h.2.2.1
  refill := h.2.2.2.1
  reports := h.2.2.2.2
  monitors _ := rfl
  active _ := le_refl _
  posts := List.prefix_refl _
  records := List.prefix_refl _
  within := id
  claims := c
  fair := id
  counted := id

theorem modCbu (s : State) (f : CoolingUnit → CoolingUnit) (hc : (f s.cbu).capacity = s.cbu.capacity)
    (h : s.granted ≤ s.cbu.capacity → ((f s.cbu).grants.map (·.demand)).sum ≤ s.cbu.capacity) :
    Calm s (s.modCbu f) where
  pending := rfl
  tenths := rfl
  choices := rfl
  ports := rfl
  site := rfl
  capacity := hc
  slots := rfl
  tariff := rfl
  freshness := rfl
  freshnessTimer := rfl
  ambient := rfl
  refill := .inl rfl
  reports _ := rfl
  monitors _ := rfl
  active _ := le_refl _
  posts := List.prefix_refl _
  records := List.prefix_refl _
  within w := (h w).trans (ge_of_eq hc)
  claims := id
  fair := id
  counted := id

theorem modSales (s : State) (f : SalesUnit → SalesUnit)
    (h : (f s.sales).slots = s.sales.slots ∧ (f s.sales).tariff = s.sales.tariff ∧
      (f s.sales).records = s.sales.records ∧ (f s.sales).counter = s.sales.counter) :
    Calm s (s.modSales f) where
  pending := rfl
  tenths := rfl
  choices := rfl
  ports := rfl
  site := rfl
  capacity := rfl
  slots := h.1
  tariff := h.2.1
  freshness := rfl
  freshnessTimer := rfl
  ambient := rfl
  refill := .inl rfl
  reports _ := rfl
  monitors _ := rfl
  active _ := le_refl _
  posts := List.prefix_refl _
  records := h.2.2.1 ▸ List.prefix_refl _
  within := id
  claims := id
  fair k := ⟨k.1, fun r m => k.2 r (h.2.2.1 ▸ m)⟩
  counted k := by
    unfold Counted
    rw [State.modSales_sales, h.2.2.1, h.2.2.2]
    exact k

theorem modMonitor (s : State) (p : PosId) (f : Monitor → Monitor) (h : ∀ x, (f x).held = x.held) :
    Calm s (s.modMonitor p f) where
  pending := rfl
  tenths := rfl
  choices := rfl
  ports := rfl
  site := rfl
  capacity := rfl
  slots := rfl
  tariff := rfl
  freshness := rfl
  freshnessTimer := rfl
  ambient := rfl
  refill := .inl rfl
  reports _ := rfl
  monitors q := by
    rw [State.modMonitor_monitor]
    split
    · rename_i e; rw [e]; exact h _
    · rfl
  active _ := le_refl _
  posts := List.prefix_refl _
  records := List.prefix_refl _
  within := id
  claims := id
  fair := id
  counted := id

theorem post (s : State) (n : Notice) : Calm s (s.post n) where
  pending := rfl
  tenths := rfl
  choices := rfl
  ports := rfl
  site := rfl
  capacity := rfl
  slots := rfl
  tariff := rfl
  freshness := rfl
  freshnessTimer := rfl
  ambient := rfl
  refill := .inl rfl
  reports _ := rfl
  monitors _ := rfl
  active _ := le_refl _
  posts := List.prefix_append _ _
  records := List.prefix_refl _
  within := id
  claims := id
  fair := id
  counted := id

end Calm

namespace Steady

theorem refl (s : State) : Steady s s := ⟨Calm.refl s, fun _ _ => rfl⟩

theorem trans {s t u : State} (h : Steady s t) (k : Steady t u) : Steady s u :=
  ⟨h.toCalm.trans k.toCalm, fun p e => (k.sessions p ((Session.fixed_finalMass (h.sessions p e)).trans e)).trans
    (h.sessions p e)⟩

/-- What leaves the sessions alone is steady when it is calm. -/
theorem of_calm {s t : State} (h : Calm s t) (e : t.sessions = s.sessions) : Steady s t :=
  ⟨h, fun p _ => by rw [State.session, State.session, e]⟩

theorem ofSession (s : State) (p : PosId) (f : Session → Session) (h : ∀ x, (f x).fixed = x.fixed)
    (a : ∀ x, x.priceAgrees → (f x).priceAgrees) : Steady s (s.modSession p f) where
  toCalm := Calm.modSession s p f (fun x => le_of_eq (Session.fixed_activeTime (h x))) a
  sessions q _ := by
    rw [State.modSession_session]
    split
    · rename_i e; rw [e]; exact h _
    · rfl

theorem ofBm (s : State) (f : BankManager → BankManager)
    (h : (f s.bm).freshness = s.bm.freshness ∧ (f s.bm).freshnessTimer = s.bm.freshnessTimer ∧
      (f s.bm).ambient = s.bm.ambient ∧
      ((f s.bm).refillInFlight = s.bm.refillInFlight ∨ (f s.bm).refillInFlight = none) ∧
      ∀ b, ((f s.bm).banks.get b).report = (s.bank b).report)
    (c : OneClaim s → OneClaim (s.modBm f)) : Steady s (s.modBm f) :=
  of_calm (Calm.modBm s f h c) rfl

/-- The shared part of the Bank Manager's state, the records and the refill in flight apart. -/
theorem ofBmRest (s : State) (f : BankManager → BankManager) (hb : (f s.bm).banks = s.bm.banks)
    (h : (f s.bm).freshness = s.bm.freshness ∧ (f s.bm).freshnessTimer = s.bm.freshnessTimer ∧
      (f s.bm).ambient = s.bm.ambient ∧ (f s.bm).refillInFlight = s.bm.refillInFlight) :
    Steady s (s.modBm f) :=
  ofBm s f ⟨h.1, h.2.1, h.2.2.1, .inl h.2.2.2, fun b => by rw [hb]; rfl⟩ (OneClaim.of_banks hb)

/-- A bank record changes in a way that leaves its report alone, and each position standing at no more than one place. -/
theorem ofBankClaims (s : State) (b : BankId) (f : Bank → Bank) (h : ∀ x, (f x).report = x.report)
    (c : OneClaim s → OneClaim (s.modBank b f)) : Steady s (s.modBank b f) :=
  ofBm s (fun m => { m with banks := m.banks.set b (f (m.banks.get b)) }) ⟨rfl, rfl, rfl, .inl rfl, fun c => by
    rw [Quad.get_set]
    split
    · rename_i e; rw [e]; exact h _
    · rfl⟩ c

theorem ofBank (s : State) (b : BankId) (f : Bank → Bank) (h : ∀ x, (f x).report = x.report)
    (c : ∀ q, (f (s.bank b)).standing q ≤ (s.bank b).standing q) : Steady s (s.modBank b f) :=
  ofBankClaims s b f h fun k q => (State.modBank_standing_le s b f q (c q)).trans (k q)

theorem ofMonitor (s : State) (p : PosId) (f : Monitor → Monitor) (h : ∀ x, (f x).held = x.held) :
    Steady s (s.modMonitor p f) :=
  of_calm (Calm.modMonitor s p f h) rfl

theorem post (s : State) (n : Notice) : Steady s (s.post n) := of_calm (Calm.post s n) rfl

/-! One more update after what is steady; what the update must keep is found by computation. -/

theorem session {s t : State} {p : PosId} {f : Session → Session} (k : Steady s t)
    (h : ∀ x, (f x).fixed = x.fixed := by intro _; rfl)
    (a : ∀ x, x.priceAgrees → (f x).priceAgrees := by intro _ h; exact h) : Steady s (t.modSession p f) :=
  k.trans (ofSession t p f h a)

theorem bank {s t : State} {b : BankId} {f : Bank → Bank} (k : Steady s t)
    (h : ∀ x, (f x).report = x.report := by intro _; rfl)
    (c : ∀ q, (f (t.bank b)).standing q ≤ (t.bank b).standing q := by intro _; exact Nat.le_refl _) :
    Steady s (t.modBank b f) :=
  k.trans (ofBank t b f h c)

theorem monitor {s t : State} {p : PosId} {f : Monitor → Monitor} (k : Steady s t)
    (h : ∀ x, (f x).held = x.held := by intro _; rfl) : Steady s (t.modMonitor p f) :=
  k.trans (ofMonitor t p f h)

theorem bm {s t : State} {f : BankManager → BankManager} (k : Steady s t)
    (hb : (f t.bm).banks = t.bm.banks := by rfl)
    (h : (f t.bm).freshness = t.bm.freshness ∧ (f t.bm).freshnessTimer = t.bm.freshnessTimer ∧
      (f t.bm).ambient = t.bm.ambient ∧ (f t.bm).refillInFlight = t.bm.refillInFlight := by
        exact ⟨rfl, rfl, rfl, rfl⟩) : Steady s (t.modBm f) :=
  k.trans (ofBmRest t f hb h)

theorem cbu {s t : State} {f : CoolingUnit → CoolingUnit} (k : Steady s t)
    (h : t.granted ≤ t.cbu.capacity → ((f t.cbu).grants.map (·.demand)).sum ≤ t.cbu.capacity)
    (hc : (f t.cbu).capacity = t.cbu.capacity := by rfl) : Steady s (t.modCbu f) :=
  k.trans (of_calm (Calm.modCbu t f hc h) rfl)

theorem sales {s t : State} {f : SalesUnit → SalesUnit} (k : Steady s t)
    (h : (f t.sales).slots = t.sales.slots ∧ (f t.sales).tariff = t.sales.tariff ∧
      (f t.sales).records = t.sales.records ∧ (f t.sales).counter = t.sales.counter := by exact ⟨rfl, rfl, rfl, rfl⟩) :
    Steady s (t.modSales f) :=
  k.trans (of_calm (Calm.modSales t f h) rfl)

theorem posted {s t : State} {n : Notice} (k : Steady s t) : Steady s (t.post n) := k.trans (post t n)

theorem ite {c : Prop} [Decidable c] {s t u : State} (h : c → Steady s t) (k : ¬c → Steady s u) :
    Steady s (if c then t else u) := by
  split
  · exact h ‹_›
  · exact k ‹_›

end Steady

theorem Calm.ite {c : Prop} [Decidable c] {s t u : State} (h : c → Calm s t) (k : ¬c → Calm s u) :
    Calm s (if c then t else u) := by
  split
  · exact h ‹_›
  · exact k ‹_›

end Sys2Proof.Machine
end

