-- ==== Sys2Proof/Laws/Storage.lean ====
section
/-! SUPPORT. The shared operations of the Fill Engines and the Bank Manager are steady: proofs, phases, claims,
hand-offs. -/

namespace Sys2Proof.Machine.State

set_option Elab.async false

/-! ### Notices of a session -/

theorem postSession_steady (s : State) (p : PosId) : Steady s (s.postSession p) := Steady.post _ _

/-! ### Proofs -/

theorem beginProof_steady (s : State) (b : BankId) (k : ProofKind) : Steady s (s.beginProof b k) :=
  (Steady.refl _).bank

theorem designate_steady (s : State) (b : BankId) : Steady s (s.designate b) :=
  ((Steady.refl s).bank (c := Bank.standing_proof_le _)).bm

theorem forceProof_steady (s : State) (b : BankId) : Steady s (s.forceProof b) := (Steady.refl _).bank

theorem forcedExamination_steady (s : State) : Steady s s.forcedExamination := by
  unfold forcedExamination
  refine .ite (fun _ => ?_) fun _ => .refl s
  split
  · exact .refl s
  · refine .ite (fun _ => .ite (fun _ => ?_) fun _ => ?_) fun _ => .refl s
    · exact (forceProof_steady s _).trans (designate_steady _ _)
    · exact (beginProof_steady s _ _).trans (designate_steady _ _)

theorem opportunisticExamination_steady (s : State) (b : BankId) : Steady s (s.opportunisticExamination b) :=
  .ite (fun _ => beginProof_steady _ _ _) fun _ => .refl s

theorem becameFree_steady (s : State) (b : BankId) : Steady s (s.becameFree b) :=
  (forcedExamination_steady s).trans (opportunisticExamination_steady _ _)

theorem proofExaminations_steady (s : State) : Steady s s.proofExaminations :=
  (forcedExamination_steady s).trans
    (inOrder_induct Steady Steady.trans _ (fun b s => opportunisticExamination_steady s b) _)

theorem endProof_steady (s : State) (b : BankId) (a : ProofState) : Steady s (s.endProof b a) :=
  (Steady.refl _).bank

theorem undesignate_steady (s : State) (b : BankId) : Steady s (s.undesignate b) :=
  (Steady.refl _).bm

theorem abandonProof_steady (s : State) (b : BankId) : Steady s (s.abandonProof b) := by
  unfold abandonProof
  split
  · exact .refl s
  · exact (endProof_steady s b _).trans (undesignate_steady _ _)

theorem abandonAndFree_steady (s : State) (b : BankId) : Steady s (s.abandonAndFree b) :=
  (abandonProof_steady s b).trans (.ite (fun _ => (Steady.refl _).bank (c := Bank.standing_freed_le _)) fun _ => .refl _)

theorem overdueTestOf_steady (s : State) (b : BankId) : Steady s (s.overdueTestOf b) := by
  unfold overdueTestOf
  refine .ite (fun _ => .ite (fun _ => forcedExamination_steady s) fun _ => ?_) fun _ => (Steady.refl _).bank
  exact ((Steady.refl s).bank.posted).trans (forcedExamination_steady _)

theorem overdueTest_steady (s : State) : Steady s s.overdueTest :=
  .ite (fun _ => .refl s) fun _ => inOrder_induct Steady Steady.trans _ (fun b s => overdueTestOf_steady s b) _

/-! ### Phases of a session -/

theorem snapshotClaim_steady (s : State) (b : BankId) (p : PosId) : Steady s (s.snapshotClaim b p) := by
  unfold snapshotClaim
  exact (Steady.refl s).session

theorem snapshotRelease_steady (s : State) (b : BankId) (p : PosId) : Steady s (s.snapshotRelease b p) := by
  unfold snapshotRelease
  exact (Steady.refl s).session

theorem setFactor_steady (s : State) (p : PosId) (f : Factor) : Steady s (s.setFactor p f) :=
  (Steady.refl _).session

theorem enterHeld_steady (s : State) (p : PosId) (r : Option Phase) : Steady s (s.enterHeld p r) :=
  (Steady.refl s).session.trans (postSession_steady _ _)

theorem capture_steady (s : State) (p : PosId) : Steady s (s.capture p) := by
  unfold capture
  split
  · exact .refl s
  · exact (Steady.refl _).session (a := fun x _ => x.priced_agrees _)

theorem enterDelivering_steady (s : State) (p : PosId) : Steady s (s.enterDelivering p) :=
  ((Steady.refl s).session.trans (postSession_steady _ _)).trans (capture_steady _ _)

theorem finishConnection_steady (s : State) (p : PosId) : Steady s (s.finishConnection p) :=
  (Steady.refl _).session

theorem connected_steady (s : State) (p : PosId) : Steady s (s.connected p) :=
  (finishConnection_steady s p).trans
    (.ite (fun _ => enterDelivering_steady _ _) fun _ => enterHeld_steady _ _ _)

theorem beginLeakCheck_steady (s : State) (p : PosId) : Steady s (s.beginLeakCheck p) := by
  unfold beginLeakCheck
  exact (Steady.refl s).session

theorem endConnect_steady (s : State) (p : PosId) : Steady s (s.endConnect p) :=
  .ite (fun _ => beginLeakCheck_steady _ _) fun _ => enterHeld_steady _ _ _

theorem beginConnect_steady (s : State) (p : PosId) : Steady s (s.beginConnect p) :=
  (Steady.refl s).session.trans (.ite (fun _ => endConnect_steady _ _) fun _ => .refl _)

theorem beginSettle_steady (s : State) (p : PosId) : Steady s (s.beginSettle p) :=
  (Steady.refl s).session.trans (.ite (fun _ => connected_steady _ _) fun _ => .refl _)

theorem enterClaim_steady (s : State) (p : PosId) : Steady s (s.enterClaim p) := (Steady.refl _).session

theorem endClaim_steady (s : State) (p : PosId) : Steady s (s.endClaim p) :=
  .ite (fun _ => .ite (fun _ => beginSettle_steady _ _) fun _ => beginConnect_steady _ _) fun _ => enterHeld_steady _ _ _

theorem claimGranted_steady (s : State) (b : BankId) (p : PosId) : Steady s (s.claimGranted b p) :=
  (((snapshotClaim_steady s b p).session).trans
    (.ite (fun _ => setFactor_steady _ _ _) fun _ => .refl _)).trans (endClaim_steady _ _)

/-! ### Claims -/

theorem settleYield_steady (s : State) : Steady s s.settleYield := by
  unfold settleYield
  split
  · exact .ite (fun _ => (Steady.refl _).bm) fun _ => .refl _
  · exact .refl s

theorem handOff_steady (s : State) (b : BankId) : Steady s (s.handOff b) := by
  unfold handOff
  split
  · exact (Steady.refl _).bank (c := Bank.standing_freed_le _)
  · rename_i e
    exact ((Steady.refl s).bank (c := Bank.standing_handed_le _ _ _ e)).trans (claimGranted_steady _ _ _)

theorem handOn_steady (s : State) (b : BankId) : Steady s (s.handOn b) :=
  (handOff_steady s b).trans (.ite (fun _ => becameFree_steady _ _) fun _ => .refl _)

theorem forgetBank_steady (s : State) (p : PosId) : Steady s (s.forgetBank p) := (Steady.refl _).session

theorem releaseClaim_steady (s : State) (p : PosId) : Steady s (s.releaseClaim p) := by
  unfold releaseClaim
  split
  · exact .refl s
  · exact .ite (fun _ => ((snapshotRelease_steady s _ p).trans (forgetBank_steady _ p)).trans (handOn_steady _ _))
      fun _ => forgetBank_steady _ _

theorem leaveQueue_steady (s : State) (p : PosId) : Steady s (s.leaveQueue p) := by
  unfold leaveQueue
  split
  · exact .refl s
  · exact ((Steady.refl s).bank (c := Bank.standing_filter_le _ _)).session.trans (settleYield_steady _)

theorem enterRefillList_steady (s : State) (b : BankId) : Steady s (s.enterRefillList b) :=
  .ite (fun _ => .refl s) fun _ => (Steady.refl _).bm

theorem leaveRefillList_steady (s : State) (b : BankId) : Steady s (s.leaveRefillList b) :=
  (Steady.refl _).bm

theorem relist_steady (s : State) (b : BankId) : Steady s (s.relist b) :=
  .ite (fun _ => enterRefillList_steady _ _) fun _ => .refl s

theorem refillEnds_steady (s : State) (b : BankId) (r : RefillReason) : Steady s (s.refillEnds b r) :=
  (((Steady.ofBm s (fun m => { m with refillInFlight := none, yieldTimer := none })
    ⟨rfl, rfl, rfl, .inr rfl, fun _ => rfl⟩ (OneClaim.of_banks rfl)).trans (handOff_steady _ _)).posted).trans
    (relist_steady _ _)

theorem endRefill_steady (s : State) (b : BankId) (r : RefillReason) : Steady s (s.endRefill b r) :=
  (refillEnds_steady s b r).trans (.ite (fun _ => becameFree_steady _ _) fun _ => .refl _)

theorem abandonProof_standing (s : State) (b : BankId) (p : PosId) : (s.abandonProof b).standing p = s.standing p := by
  unfold abandonProof
  split
  · rfl
  · rename_i f _
    have h := s.modBank_standing b (fun x => { x with proofState := f.before, proof := none }) p
    exact Nat.add_right_cancel h

theorem takeBank_steady (s : State) (b : BankId) (p : PosId) (h : s.standing p = 0) : Steady s (s.takeBank b p) :=
  (abandonProof_steady s b).trans (Steady.ofBankClaims _ b _ (fun _ => rfl)
    (OneClaim.come ((s.abandonProof_standing b p).trans h) (Bank.standing_taken_le _ p)
      fun _ e => Bank.standing_taken_other_le _ e.symm))

theorem joinQueue_steady (s : State) (b : BankId) (p : PosId) (h : s.standing p = 0) : Steady s (s.joinQueue b p) :=
  (Steady.ofBankClaims s b (fun x => { x with queue := x.queue ++ [p] }) (fun _ => rfl)
    (OneClaim.come h (Bank.standing_joined_le _ p) fun _ e => Bank.standing_joined_other_le _ e.symm)).trans
    (.ite (fun _ => (Steady.refl _).bm) fun _ => .refl _)

theorem claimRequest_steady (s : State) (b : BankId) (p : PosId) : Steady s (s.claimRequest b p).1 := by
  unfold claimRequest
  split
  · exact .refl s
  · split
    · exact .refl s
    · have z := State.standing_of_aside (Bool.eq_false_iff.mpr ‹_›)
      split
      · exact takeBank_steady _ _ _ z
      · exact takeBank_steady _ _ _ z
      · exact joinQueue_steady _ _ _ z
      · exact joinQueue_steady _ _ _ z

theorem awaitBank_steady (s : State) (b : BankId) (p : PosId) : Steady s (s.awaitBank b p) := by
  unfold awaitBank
  exact (Steady.refl s).session

theorem yieldAtOnce_steady (s : State) (b : BankId) (w : Bool) : Steady s (s.yieldAtOnce b w) :=
  .ite (fun _ => endRefill_steady _ _ _) fun _ => .refl s

theorem claim_steady (s : State) (b : BankId) (p : PosId) : Steady s (s.claim b p) := by
  have h := claimRequest_steady s b p
  unfold claim
  generalize s.claimRequest b p = r at h
  obtain ⟨t, a⟩ := r
  cases a with
  | refused => exact h
  | granted => exact h.trans (claimGranted_steady _ _ _)
  | waits => exact (h.trans (awaitBank_steady _ _ _)).trans (yieldAtOnce_steady _ _ _)

end Sys2Proof.Machine.State
end

