-- ==== Sys2Proof/Laws/Cascade.lean ====
section
/-! SUPPORT. The cascade of one event is steady: selections, grants from the head of the cooling queue, ends of
sessions, closings. -/

namespace Sys2Proof.Machine

set_option Elab.async false

/-- An ender that is steady. -/
def Ender.SteadyEnd (endK : Ender) : Prop := ∀ p r s, Steady s (endK p r s)

namespace State

/-! ### Selecting, leaving OPENING and HELD -/

theorem restartProgress_steady (s : State) (p : PosId) : Steady s (s.restartProgress p) := (Steady.refl s).monitor

theorem newConnection_steady (s : State) (p : PosId) (k : ConnKind) (a : Option Attempt) :
    Steady s (s.newConnection p k a) := (Steady.refl s).session

theorem awaitFresh_steady (s : State) (p : PosId) : Steady s (s.awaitFresh p) := by
  unfold awaitFresh
  exact (Steady.refl s).session

variable {endK : Ender} (hE : endK.SteadyEnd)

include hE

theorem selectBank_steady (s : State) (p : PosId) : Steady s (s.selectBank endK p) := by
  unfold selectBank
  refine .ite (fun _ => awaitFresh_steady _ _) fun _ => ?_
  split
  · exact claim_steady _ _ _
  · exact hE _ _ _

theorem leaveOpening_steady (s : State) (p : PosId) : Steady s (s.leaveOpening endK p) :=
  ((newConnection_steady s p _ _).trans (restartProgress_steady _ _)).trans
    (.ite (fun _ => ((enterClaim_steady _ p).trans (postSession_steady _ _)).trans (selectBank_steady hE _ _))
      fun _ => enterHeld_steady _ _ _)

theorem reconnect_steady (s : State) (p : PosId) : Steady s (s.reconnect endK p) :=
  (((newConnection_steady s p _ _).trans (enterClaim_steady _ p)).trans (postSession_steady _ _)).trans
    (selectBank_steady hE _ _)

theorem resumeConnection_steady (s : State) (p : PosId) (f : Phase) : Steady s (s.resumeConnection endK p f) := by
  unfold resumeConnection
  refine (((Steady.refl s).session (p := p) (f := fun x => { x with resumePoint := none })).trans
    ((enterClaim_steady _ p).trans (postSession_steady _ p))).trans ?_
  cases f
  · exact selectBank_steady hE _ _
  · exact beginConnect_steady _ _
  · exact beginLeakCheck_steady _ _
  · exact beginSettle_steady _ _

theorem resume_steady (s : State) (p : PosId) : Steady s (s.resume endK p) := by
  unfold resume
  refine ((Steady.refl s).session (p := p) (f := fun x => x.leaveHold (s.profileOf p).holdLimit)).trans ?_
  dsimp only
  split
  · exact resumeConnection_steady hE _ _ _
  · exact .ite (fun _ => enterDelivering_steady _ _) fun _ => reconnect_steady hE _ _

theorem startResume_steady (s : State) (p : PosId) : Steady s (s.startResume endK p) := by
  unfold startResume
  exact .ite (fun _ => resume_steady hE _ _) fun _ => (Steady.refl s).session

theorem clearFactor_steady (s : State) (p : PosId) (f : Factor) : Steady s (s.clearFactor endK p f) := by
  unfold clearFactor
  refine .ite (fun _ => ?_) fun _ => .refl s
  refine ((Steady.refl s).session (p := p) (f := fun x => { x with factors := x.factors.put f false })).trans ?_
  exact .ite (fun _ => startResume_steady hE _ _) fun _ => .refl _

/-! ### Cooling -/

theorem coolingGranted_steady (s : State) (p : PosId) : Steady s (s.coolingGranted endK p) :=
  (Steady.refl s).session.trans (.ite (fun _ => leaveOpening_steady hE _ _) fun _ => clearFactor_steady hE _ _ _)

omit hE in
theorem setCoolingQueue_steady (s : State) (q : List Waiter) : Steady s (s.setCoolingQueue q) :=
  ((Steady.refl s).cbu id).posted

omit hE in
/-- A grant that fits is added (R90, step 3). -/
theorem grantHead_steady (s : State) (w : Waiter) (rest : List Waiter) (fits : s.granted + w.demand ≤ s.cbu.capacity) :
    Steady s (s.grantHead w rest) :=
  ((Steady.refl s).cbu (f := fun c => { c with grants := c.grants ++ [⟨w.pos, w.demand, w.limit⟩] }) (fun _ => by
    have : (s.cbu.grants.map (·.demand)).sum + w.demand ≤ s.cbu.capacity := fits
    simpa using this)).trans (setCoolingQueue_steady _ _)

theorem grantFromHead_steady (n : Nat) (s : State) : Steady s (grantFromHead endK n s) := by
  induction n generalizing s with
  | zero => exact .refl s
  | succ n ih =>
    unfold grantFromHead
    split
    · exact .refl s
    · refine .ite (fun _ => .refl s) fun h => ?_
      exact ((grantHead_steady s _ _ (not_lt.mp h)).trans (coolingGranted_steady hE _ _)).trans (ih _)

theorem grantWaiters_steady (s : State) : Steady s (s.grantWaiters endK) := grantFromHead_steady hE _ _

omit hE in
/-- Taking entries out of a list of grants does not raise their sum. -/
theorem sum_filter_demand_le (l : List Grant) (c : Grant → Bool) :
    ((l.filter c).map (·.demand)).sum ≤ (l.map (·.demand)).sum := by
  induction l with
  | nil => exact le_refl _
  | cons g l ih =>
    rw [List.filter_cons]
    split
    · simpa using ih
    · simpa using ih.trans (Nat.le_add_left _ _)

theorem leaveCooling_steady (s : State) (p : PosId) : Steady s (s.leaveCooling endK p) := by
  unfold leaveCooling
  refine .ite (fun _ => ?_) fun _ => .ite (fun _ => ?_) fun _ => .refl s
  · exact ((Steady.refl s).cbu (f := fun c => { c with grants := c.grants.filter fun g => g.pos != p })
      (fun w => (sum_filter_demand_le _ _).trans w)).trans (grantWaiters_steady hE _)
  · exact (setCoolingQueue_steady s _).trans (grantWaiters_steady hE _)

/-! ### Ends -/

theorem endSteps_steady (s : State) (p : PosId) (r : EndReason) : Steady s (s.endSteps endK p r) := by
  unfold endSteps
  exact (((((Steady.refl s).session.trans (releaseClaim_steady _ p)).trans (leaveQueue_steady _ p)).trans
    (leaveCooling_steady hE _ p)).session).trans (postSession_steady _ _)

omit hE

/-! ### Closing -/

theorem takeRegister_steady (s : State) (p : PosId) (rest : List PosId) : Steady s (s.takeRegister p rest) :=
  (Steady.refl s).sales.session.trans (postSession_steady _ _)

theorem startClosing_steady (s : State) : Steady s s.startClosing := (Steady.refl s).sales

end State

/-- What leaves everything but one session as a steady event does, and that session had a final mass, is steady. -/
theorem Steady.of_closed {s t : State} (p : PosId) (h : Calm s t) (f : (s.session p).finalMass.isSome = true)
    (k : ∀ q, q ≠ p → (t.session q) = (s.session q)) : Steady s t where
  toCalm := h
  sessions q e := by
    by_cases hq : q = p
    · rw [hq] at e
      rw [e] at f
      exact absurd f (by decide)
    · rw [k q hq]

namespace State

theorem postMismatch_calm (s : State) (r : SaleRecord) : Calm s (s.postMismatch r) :=
  .ite (fun _ => Calm.post _ _) fun _ => .refl s

theorem postMismatch_sessions (s : State) (r : SaleRecord) : (s.postMismatch r).sessions = s.sessions := by
  unfold postMismatch
  split <;> rfl

/-- What a session is billed with: at most its mass cap, and at most its amount's worth of gas (R157, R160). -/
theorem billing_bound {x : Session} (h : x.priceAgrees) (a : Authorization) (e : x.auth = some a) :
    x.billing.2 ≤ massCeilingOf (x.siteMaxMass.getD 0) x.billing.1 a.kind ∨ x.billing.2 = 0 := by
  unfold Session.billing
  split
  · rename_i price ceiling hp hc
    have := h price hp
    rw [hc] at this
    injection this with this
    left
    show ceiling ≤ _
    rw [this]
    unfold Session.ceilingAt
    rw [e]
  · exact .inr rfl

/-- A record built from a session whose ceiling agrees with its price is fair (R160). -/
theorem saleRecord_fair (s : State) (p : PosId) (h : (s.session p).priceAgrees) : (s.saleRecord p).Fair := by
  set x := s.session p with hx
  have hb : (s.saleRecord p).billed = min x.metered x.billing.2 := rfl
  have ha : (s.saleRecord p).amount = ((s.saleRecord p).billed * x.billing.1 + 500) / 1000 := rfl
  have hk : (s.saleRecord p).auth = x.auth.getD ⟨0, .fleet 0⟩ := rfl
  have none_zero : x.auth = none → x.billing.2 = 0 := fun e => by
    unfold Session.billing
    split
    · rename_i price ceiling hp hc
      have := h price hp
      rw [hc] at this
      injection this with this
      show ceiling = 0
      rw [this]
      unfold Session.ceilingAt
      rw [e]
    · rfl
  refine ⟨?_, fun a e => ?_, fun m e => ?_⟩
  · show x.metered = min x.metered x.billing.2 + (x.metered - min x.metered x.billing.2)
    omega
  · rw [hk] at e
    match hA : x.auth with
    | none => rw [hA] at e; exact absurd e (by simp)
    | some b =>
      rw [hA] at e
      have e : b.kind = .prepaid a := e
      have := billing_bound h b hA
      rw [e] at this
      rw [ha]
      have key : (s.saleRecord p).billed * x.billing.1 ≤ a * 1000 := by
        have le : (s.saleRecord p).billed ≤ x.billing.2 := hb ▸ Nat.min_le_right _ _
        rcases this with k | k
        · unfold massCeilingOf at k
          by_cases z : x.billing.1 = 0
          · rw [z]; omega
          · simp only [z, if_false] at k
            have := k.trans (Nat.min_le_right _ _)
            exact (Nat.mul_le_mul_right _ (le.trans this)).trans (Nat.div_mul_le_self _ _)
        · have : (s.saleRecord p).billed = 0 := by omega
          rw [this]; omega
      omega
  · rw [hk] at e
    have le : (s.saleRecord p).billed ≤ x.billing.2 := hb ▸ Nat.min_le_right _ _
    match hA : x.auth with
    | none => have := none_zero hA; omega
    | some b =>
      rw [hA] at e
      have e : b.kind = .fleet m := e
      have := billing_bound h b hA
      rw [e] at this
      rcases this with k | k
      · exact le.trans (k.trans (Nat.min_le_right _ _))
      · omega

/-- A record that carries the counter's number is appended, and the counter advances (R160 steps 3 and 4). -/
theorem appendRecord_calm (s : State) (r : SaleRecord) (hn : r.sequence = s.sales.counter)
    (hf : FairSales s → r.Fair) :
    Calm s (s.modSales fun u => { u with records := u.records ++ [r], counter := nextCounter u.counter }) where
  pending := rfl
  tenths := rfl
  choices := rfl
  ports := rfl
  site := rfl
  capacity := rfl
  slots := rfl
  tariff := rfl
  freshness := rfl
  freshnessTimer := rfl
  ambient := rfl
  refill := .inl rfl
  reports _ := rfl
  monitors _ := rfl
  active _ := le_refl _
  posts := List.prefix_refl _
  records := List.prefix_append _ _
  within := id
  claims := id
  fair k := ⟨k.1, fun v m => (List.mem_append.mp m).elim (k.2 v) fun e => List.mem_singleton.mp e ▸ hf k⟩
  counted k c := by
    have c : nextCounter s.sales.counter ≠ 0 := c
    have hz : s.sales.counter ≠ 0 := fun z => c (by rw [z]; rfl)
    have hc : nextCounter s.sales.counter = s.sales.counter + 1 := by
      unfold nextCounter at c ⊢
      split
      · rename_i z; rw [if_pos z] at c; exact absurd rfl c
      · rfl
    obtain ⟨pw, lt⟩ := k hz
    show (s.sales.records ++ [r]).Pairwise _ ∧ ∀ v ∈ s.sales.records ++ [r], v.sequence < nextCounter s.sales.counter
    rw [hc]
    refine ⟨List.pairwise_append.mpr ⟨pw, List.pairwise_singleton _ _, fun a m b n => ?_⟩, fun v m => ?_⟩
    · rw [List.mem_singleton.mp n, hn]
      exact lt a m
    · rcases List.mem_append.mp m with m | m
      · exact (lt v m).trans (Nat.lt_succ_self _)
      · rw [List.mem_singleton.mp m, hn]
        exact Nat.lt_succ_self _

theorem commit_calm (s : State) (p : PosId) : Calm s (s.commit p) := by
  unfold commit
  exact (((appendRecord_calm s _ rfl fun k => saleRecord_fair s p (k.1 p)).trans (postMismatch_calm _ _)).trans
    (Calm.post _ _)).trans ((Calm.modSession _ p (fun _ => Session.idle) (fun _ => Nat.zero_le _) fun _ _ _ h =>
      nomatch h).trans (Calm.post _ _))

theorem commit_session_ne (s : State) {p q : PosId} (h : q ≠ p) : (s.commit p).session q = s.session q := by
  unfold commit
  simp only [post_session, modSession_session_ne _ _ h]
  unfold State.session
  rw [postMismatch_sessions, modSales_sessions]

theorem completeClosing_steady (s : State) (p : PosId) (f : (s.session p).finalMass.isSome = true) :
    Steady s (s.completeClosing p) :=
  .of_closed p ((commit_calm s p).trans
    (Calm.modSales _ (fun u => { u with register := none, closingTimer := none }) ⟨rfl, rfl, rfl, rfl⟩)) f
    fun _ h =>
    commit_session_ne s h

theorem serveRegister_steady (n : Nat) (s : State) : Steady s (serveRegister n s) := by
  induction n generalizing s with
  | zero => exact .refl s
  | succ n ih =>
    unfold serveRegister
    split
    · refine (takeRegister_steady s _ _).trans (.ite (fun h => ?_) fun _ => startClosing_steady _)
      exact (completeClosing_steady _ _ h).trans (ih _)
    · exact .refl s

theorem serveCloseQueue_steady (s : State) : Steady s s.serveCloseQueue := serveRegister_steady _ _

theorem joinCloseQueue_steady (s : State) (p : PosId) : Steady s (s.joinCloseQueue p) :=
  (Steady.refl s).sales.trans (serveCloseQueue_steady _)

end State

theorem endSession_steady (n : Nat) : (endSession n).SteadyEnd := by
  induction n with
  | zero => exact fun _ _ s => .refl s
  | succ n ih =>
    intro p r s
    exact .ite (fun _ => (State.endSteps_steady ih s p r).trans (State.joinCloseQueue_steady _ _)) fun _ => .refl s

theorem endNow_steady : endNow.SteadyEnd := endSession_steady 4

theorem State.endWith_steady (s : State) (p : PosId) (r : EndReason) : Steady s (s.endWith p r) := endNow_steady _ _ _

end Sys2Proof.Machine
end

