-- ==== Sys2Proof/Laws/Apart.lean ====
section
/-! SUPPORT. What the work of the Fill Engines and the Bank Manager within an event leaves alone: the Cooling Budget Unit,
the Sales Unit, and of every session its cooling and its end reason. -/

namespace Sys2Proof.Machine

set_option Elab.async false

/-- How a session regards its cooling, and why it has ended. -/
def Session.told (x : Session) := (x.cooling, x.endReason)

/-- The Cooling Budget Unit and the Sales Unit are left as they were, and every session's cooling and end reason. -/
structure Apart (s t : State) : Prop where
  cbu : t.cbu = s.cbu
  sales : t.sales = s.sales
  told : ∀ p, (t.session p).told = (s.session p).told

namespace Apart

theorem refl (s : State) : Apart s s := ⟨rfl, rfl, fun _ => rfl⟩

theorem trans {s t u : State} (h : Apart s t) (k : Apart t u) : Apart s u :=
  ⟨k.cbu.trans h.cbu, k.sales.trans h.sales, fun p => (k.told p).trans (h.told p)⟩

theorem session {s t : State} {p : PosId} {f : Session → Session} (k : Apart s t)
    (h : ∀ x, (f x).told = x.told := by intro _; rfl) : Apart s (t.modSession p f) :=
  k.trans ⟨rfl, rfl, fun q => by
    rw [State.modSession_session]
    split
    · rename_i e; rw [e]; exact h _
    · rfl⟩

theorem bank {s t : State} {b : BankId} {f : Bank → Bank} (k : Apart s t) : Apart s (t.modBank b f) :=
  ⟨k.cbu, k.sales, k.told⟩

theorem bm {s t : State} {f : BankManager → BankManager} (k : Apart s t) : Apart s (t.modBm f) :=
  ⟨k.cbu, k.sales, k.told⟩

theorem monitor {s t : State} {p : PosId} {f : Monitor → Monitor} (k : Apart s t) : Apart s (t.modMonitor p f) :=
  ⟨k.cbu, k.sales, k.told⟩

theorem posted {s t : State} {n : Notice} (k : Apart s t) : Apart s (t.post n) := ⟨k.cbu, k.sales, k.told⟩

theorem ite {c : Prop} [Decidable c] {s t u : State} (h : c → Apart s t) (k : ¬c → Apart s u) :
    Apart s (if c then t else u) := by
  split
  · exact h ‹_›
  · exact k ‹_›

end Apart

namespace State

/-! ### Notices of a session -/

theorem postSession_apart (s : State) (p : PosId) : Apart s (s.postSession p) := (Apart.refl s).posted

/-! ### Proofs -/

theorem beginProof_apart (s : State) (b : BankId) (k : ProofKind) : Apart s (s.beginProof b k) :=
  (Apart.refl _).bank

theorem designate_apart (s : State) (b : BankId) : Apart s (s.designate b) :=
  ((Apart.refl s).bank).bm

theorem forceProof_apart (s : State) (b : BankId) : Apart s (s.forceProof b) := (Apart.refl _).bank

theorem forcedExamination_apart (s : State) : Apart s s.forcedExamination := by
  unfold forcedExamination
  refine .ite (fun _ => ?_) fun _ => .refl s
  split
  · exact .refl s
  · refine .ite (fun _ => .ite (fun _ => ?_) fun _ => ?_) fun _ => .refl s
    · exact (forceProof_apart s _).trans (designate_apart _ _)
    · exact (beginProof_apart s _ _).trans (designate_apart _ _)

theorem opportunisticExamination_apart (s : State) (b : BankId) : Apart s (s.opportunisticExamination b) :=
  .ite (fun _ => beginProof_apart _ _ _) fun _ => .refl s

theorem becameFree_apart (s : State) (b : BankId) : Apart s (s.becameFree b) :=
  (forcedExamination_apart s).trans (opportunisticExamination_apart _ _)

theorem endProof_apart (s : State) (b : BankId) (a : ProofState) : Apart s (s.endProof b a) :=
  (Apart.refl _).bank

theorem undesignate_apart (s : State) (b : BankId) : Apart s (s.undesignate b) :=
  (Apart.refl _).bm

theorem abandonProof_apart (s : State) (b : BankId) : Apart s (s.abandonProof b) := by
  unfold abandonProof
  split
  · exact .refl s
  · exact (endProof_apart s b _).trans (undesignate_apart _ _)

/-! ### Phases of a session -/

theorem snapshotClaim_apart (s : State) (b : BankId) (p : PosId) : Apart s (s.snapshotClaim b p) := by
  unfold snapshotClaim
  exact (Apart.refl s).session

theorem snapshotRelease_apart (s : State) (b : BankId) (p : PosId) : Apart s (s.snapshotRelease b p) := by
  unfold snapshotRelease
  exact (Apart.refl s).session

theorem setFactor_apart (s : State) (p : PosId) (f : Factor) : Apart s (s.setFactor p f) :=
  (Apart.refl _).session

theorem enterHeld_apart (s : State) (p : PosId) (r : Option Phase) : Apart s (s.enterHeld p r) :=
  (Apart.refl s).session.trans (postSession_apart _ _)

theorem capture_apart (s : State) (p : PosId) : Apart s (s.capture p) := by
  unfold capture
  split
  · exact .refl s
  · exact (Apart.refl _).session

theorem enterDelivering_apart (s : State) (p : PosId) : Apart s (s.enterDelivering p) :=
  ((Apart.refl s).session.trans (postSession_apart _ _)).trans (capture_apart _ _)

theorem finishConnection_apart (s : State) (p : PosId) : Apart s (s.finishConnection p) :=
  (Apart.refl _).session

theorem connected_apart (s : State) (p : PosId) : Apart s (s.connected p) :=
  (finishConnection_apart s p).trans
    (.ite (fun _ => enterDelivering_apart _ _) fun _ => enterHeld_apart _ _ _)

theorem beginLeakCheck_apart (s : State) (p : PosId) : Apart s (s.beginLeakCheck p) := by
  unfold beginLeakCheck
  exact (Apart.refl s).session

theorem endConnect_apart (s : State) (p : PosId) : Apart s (s.endConnect p) :=
  .ite (fun _ => beginLeakCheck_apart _ _) fun _ => enterHeld_apart _ _ _

theorem beginConnect_apart (s : State) (p : PosId) : Apart s (s.beginConnect p) :=
  (Apart.refl s).session.trans (.ite (fun _ => endConnect_apart _ _) fun _ => .refl _)

theorem beginSettle_apart (s : State) (p : PosId) : Apart s (s.beginSettle p) :=
  (Apart.refl s).session.trans (.ite (fun _ => connected_apart _ _) fun _ => .refl _)

theorem enterClaim_apart (s : State) (p : PosId) : Apart s (s.enterClaim p) := (Apart.refl _).session

theorem endClaim_apart (s : State) (p : PosId) : Apart s (s.endClaim p) :=
  .ite (fun _ => .ite (fun _ => beginSettle_apart _ _) fun _ => beginConnect_apart _ _) fun _ => enterHeld_apart _ _ _

theorem claimGranted_apart (s : State) (b : BankId) (p : PosId) : Apart s (s.claimGranted b p) :=
  (((snapshotClaim_apart s b p).session).trans
    (.ite (fun _ => setFactor_apart _ _ _) fun _ => .refl _)).trans (endClaim_apart _ _)

/-! ### Claims -/

theorem settleYield_apart (s : State) : Apart s s.settleYield := by
  unfold settleYield
  split
  · exact .ite (fun _ => (Apart.refl _).bm) fun _ => .refl _
  · exact .refl s

theorem handOff_apart (s : State) (b : BankId) : Apart s (s.handOff b) := by
  unfold handOff
  split
  · exact (Apart.refl _).bank
  · rename_i e
    exact ((Apart.refl s).bank).trans (claimGranted_apart _ _ _)

theorem handOn_apart (s : State) (b : BankId) : Apart s (s.handOn b) :=
  (handOff_apart s b).trans (.ite (fun _ => becameFree_apart _ _) fun _ => .refl _)

theorem forgetBank_apart (s : State) (p : PosId) : Apart s (s.forgetBank p) := (Apart.refl _).session

theorem releaseClaim_apart (s : State) (p : PosId) : Apart s (s.releaseClaim p) := by
  unfold releaseClaim
  split
  · exact .refl s
  · exact .ite (fun _ => ((snapshotRelease_apart s _ p).trans (forgetBank_apart _ p)).trans (handOn_apart _ _))
      fun _ => forgetBank_apart _ _

theorem leaveQueue_apart (s : State) (p : PosId) : Apart s (s.leaveQueue p) := by
  unfold leaveQueue
  split
  · exact .refl s
  · exact ((Apart.refl s).bank).session.trans (settleYield_apart _)

theorem enterRefillList_apart (s : State) (b : BankId) : Apart s (s.enterRefillList b) :=
  .ite (fun _ => .refl s) fun _ => (Apart.refl _).bm

theorem relist_apart (s : State) (b : BankId) : Apart s (s.relist b) :=
  .ite (fun _ => enterRefillList_apart _ _) fun _ => .refl s

theorem refillEnds_apart (s : State) (b : BankId) (r : RefillReason) : Apart s (s.refillEnds b r) :=
  (((Apart.refl s).bm.trans (handOff_apart _ _)).posted).trans (relist_apart _ _)

theorem endRefill_apart (s : State) (b : BankId) (r : RefillReason) : Apart s (s.endRefill b r) :=
  (refillEnds_apart s b r).trans (.ite (fun _ => becameFree_apart _ _) fun _ => .refl _)

theorem takeBank_apart (s : State) (b : BankId) (p : PosId) : Apart s (s.takeBank b p) := (abandonProof_apart s b).bank

theorem joinQueue_apart (s : State) (b : BankId) (p : PosId) : Apart s (s.joinQueue b p) :=
  (Apart.refl s).bank.trans (.ite (fun _ => (Apart.refl _).bm) fun _ => .refl _)

theorem claimRequest_apart (s : State) (b : BankId) (p : PosId) : Apart s (s.claimRequest b p).1 := by
  unfold claimRequest
  split
  · exact .refl s
  · split
    · exact .refl s
    · split
      · exact takeBank_apart _ _ _
      · exact takeBank_apart _ _ _
      · exact joinQueue_apart _ _ _
      · exact joinQueue_apart _ _ _

theorem awaitBank_apart (s : State) (b : BankId) (p : PosId) : Apart s (s.awaitBank b p) := by
  unfold awaitBank
  exact (Apart.refl s).session

theorem yieldAtOnce_apart (s : State) (b : BankId) (w : Bool) : Apart s (s.yieldAtOnce b w) :=
  .ite (fun _ => endRefill_apart _ _ _) fun _ => .refl s

theorem claim_apart (s : State) (b : BankId) (p : PosId) : Apart s (s.claim b p) := by
  have h := claimRequest_apart s b p
  unfold claim
  generalize s.claimRequest b p = r at h
  obtain ⟨t, a⟩ := r
  cases a with
  | refused => exact h
  | granted => exact h.trans (claimGranted_apart _ _ _)
  | waits => exact (h.trans (awaitBank_apart _ _ _)).trans (yieldAtOnce_apart _ _ _)

theorem restartProgress_apart (s : State) (p : PosId) : Apart s (s.restartProgress p) := (Apart.refl s).monitor

theorem newConnection_apart (s : State) (p : PosId) (k : ConnKind) (a : Option Attempt) :
    Apart s (s.newConnection p k a) := (Apart.refl s).session

theorem awaitFresh_apart (s : State) (p : PosId) : Apart s (s.awaitFresh p) := by
  unfold awaitFresh
  exact (Apart.refl s).session

end State

end Sys2Proof.Machine
end

