-- ==== Sys2Proof/Laws/Aside.lean ====
section
/-! SUPPORT. What an event of other positions does to a position that waits nowhere: nothing. `Aside p s` says that
position p stands in no queue of the Bank Manager, the Cooling Budget Unit or the Sales Unit; `Leaves p s t` that from
such a state its session and its Position Monitor stand as they stood, and that it still waits nowhere. -/

namespace Sys2Proof.Machine

set_option Elab.async false

/-- From a state where p waits nowhere, p's session and monitor are left as they were and p still waits nowhere. -/
def Leaves (p : PosId) (s t : State) : Prop :=
  Aside p s → Aside p t ∧ t.session p = s.session p ∧ t.monitor p = s.monitor p

namespace Leaves

variable {p : PosId}

theorem refl (s : State) : Leaves p s s := fun a => ⟨a, rfl, rfl⟩

theorem trans {s t u : State} (h : Leaves p s t) (k : Leaves p t u) : Leaves p s u := fun a =>
  have ⟨b, e, m⟩ := h a
  have ⟨c, e', m'⟩ := k b
  ⟨c, e'.trans e, m'.trans m⟩

theorem ite {c : Prop} [Decidable c] {s t u : State} (h : c → Leaves p s t) (k : ¬c → Leaves p s u) :
    Leaves p s (if c then t else u) := by
  split
  · exact h ‹_›
  · exact k ‹_›

theorem session {s t : State} {q : PosId} {f : Session → Session} (k : Leaves p s t) (h : q ≠ p) :
    Leaves p s (t.modSession q f) :=
  k.trans fun a =>
    ⟨⟨a.bankQueues, a.coolingQueue, a.closeQueue, a.register⟩, State.modSession_session_ne _ _ h.symm, rfl⟩

theorem monitor {s t : State} {q : PosId} {f : Monitor → Monitor} (k : Leaves p s t) (h : q ≠ p) :
    Leaves p s (t.modMonitor q f) :=
  k.trans fun a =>
    ⟨⟨a.bankQueues, a.coolingQueue, a.closeQueue, a.register⟩, rfl, State.modMonitor_monitor_ne _ _ h.symm⟩

theorem bank {s t : State} {b : BankId} {f : Bank → Bank} (k : Leaves p s t)
    (h : p ∉ (t.bank b).queue → p ∉ (f (t.bank b)).queue := by exact id) : Leaves p s (t.modBank b f) :=
  k.trans fun a =>
    ⟨⟨fun c => by
        rw [State.modBank_bank]
        split
        · exact h (a.bankQueues b)
        · exact a.bankQueues c, a.coolingQueue, a.closeQueue, a.register⟩, rfl, rfl⟩

theorem bm {s t : State} {f : BankManager → BankManager} (k : Leaves p s t)
    (h : (f t.bm).banks = t.bm.banks := by rfl) : Leaves p s (t.modBm f) :=
  k.trans fun a =>
    ⟨⟨fun c => by rw [State.modBm_bank, h]; exact a.bankQueues c, a.coolingQueue, a.closeQueue, a.register⟩, rfl, rfl⟩

theorem cbu {s t : State} {f : CoolingUnit → CoolingUnit} (k : Leaves p s t)
    (h : (∀ w ∈ t.cbu.queue, w.pos ≠ p) → ∀ w ∈ (f t.cbu).queue, w.pos ≠ p := by exact id) :
    Leaves p s (t.modCbu f) :=
  k.trans fun a => ⟨⟨a.bankQueues, h a.coolingQueue, a.closeQueue, a.register⟩, rfl, rfl⟩

theorem sales {s t : State} {f : SalesUnit → SalesUnit} (k : Leaves p s t)
    (h : p ∉ t.sales.closeQueue → t.sales.register ≠ some p →
      p ∉ (f t.sales).closeQueue ∧ (f t.sales).register ≠ some p := by exact fun a b => ⟨a, b⟩) :
    Leaves p s (t.modSales f) :=
  k.trans fun a =>
    have c := h a.closeQueue a.register
    ⟨⟨a.bankQueues, a.coolingQueue, c.1, c.2⟩, rfl, rfl⟩

theorem posted {s t : State} {n : Notice} (k : Leaves p s t) : Leaves p s (t.post n) :=
  k.trans fun a => ⟨⟨a.bankQueues, a.coolingQueue, a.closeQueue, a.register⟩, rfl, rfl⟩

/-- A proof of the relation may use that p waits nowhere. -/
theorem assuming {s t : State} (h : Aside p s → Leaves p s t) : Leaves p s t := fun a => h a a

end Leaves

namespace State

variable {p q : PosId}

theorem postSession_leaves (s : State) : Leaves p s (s.postSession q) := (Leaves.refl s).posted

/-! ### Proofs -/

theorem beginProof_leaves (s : State) (b : BankId) (k : ProofKind) : Leaves p s (s.beginProof b k) :=
  (Leaves.refl s).bank

theorem designate_leaves (s : State) (b : BankId) : Leaves p s (s.designate b) := (Leaves.refl s).bank.bm

theorem forceProof_leaves (s : State) (b : BankId) : Leaves p s (s.forceProof b) := (Leaves.refl s).bank

theorem forcedExamination_leaves (s : State) : Leaves p s s.forcedExamination := by
  unfold forcedExamination
  refine .ite (fun _ => ?_) fun _ => .refl s
  split
  · exact .refl s
  · refine .ite (fun _ => .ite (fun _ => ?_) fun _ => ?_) fun _ => .refl s
    · exact (forceProof_leaves s _).trans (designate_leaves _ _)
    · exact (beginProof_leaves s _ _).trans (designate_leaves _ _)

theorem opportunisticExamination_leaves (s : State) (b : BankId) : Leaves p s (s.opportunisticExamination b) :=
  .ite (fun _ => beginProof_leaves _ _ _) fun _ => .refl s

theorem becameFree_leaves (s : State) (b : BankId) : Leaves p s (s.becameFree b) :=
  (forcedExamination_leaves s).trans (opportunisticExamination_leaves _ _)

theorem proofExaminations_leaves (s : State) : Leaves p s s.proofExaminations :=
  (forcedExamination_leaves s).trans
    (inOrder_induct (Leaves p) Leaves.trans _ (fun b s => opportunisticExamination_leaves s b) _)

theorem abandonProof_leaves (s : State) (b : BankId) : Leaves p s (s.abandonProof b) := by
  unfold abandonProof
  split
  · exact .refl s
  · exact (Leaves.refl s).bank.bm

theorem abandonAndFree_leaves (s : State) (b : BankId) : Leaves p s (s.abandonAndFree b) :=
  (abandonProof_leaves s b).trans (.ite (fun _ => (Leaves.refl _).bank) fun _ => .refl _)

theorem overdueTestOf_leaves (s : State) (b : BankId) : Leaves p s (s.overdueTestOf b) := by
  unfold overdueTestOf
  refine .ite (fun _ => .ite (fun _ => forcedExamination_leaves s) fun _ => ?_) fun _ => (Leaves.refl _).bank
  exact (Leaves.refl s).bank.posted.trans (forcedExamination_leaves _)

theorem overdueTest_leaves (s : State) : Leaves p s s.overdueTest :=
  .ite (fun _ => .refl s) fun _ => inOrder_induct (Leaves p) Leaves.trans _ (fun b s => overdueTestOf_leaves s b) _

/-! ### Phases of another position's session -/

section Other

variable (h : q ≠ p)

include h

theorem setFactor_leaves (s : State) (f : Factor) : Leaves p s (s.setFactor q f) := (Leaves.refl s).session h

theorem enterHeld_leaves (s : State) (r : Option Phase) : Leaves p s (s.enterHeld q r) :=
  ((Leaves.refl s).session h).posted

theorem capture_leaves (s : State) : Leaves p s (s.capture q) := by
  unfold capture
  split
  · exact .refl s
  · exact (Leaves.refl s).session h

theorem enterDelivering_leaves (s : State) : Leaves p s (s.enterDelivering q) :=
  (((Leaves.refl s).session h).trans (postSession_leaves _)).trans (capture_leaves h _)

theorem connected_leaves (s : State) : Leaves p s (s.connected q) :=
  ((Leaves.refl s).session h).trans (.ite (fun _ => enterDelivering_leaves h _) fun _ => enterHeld_leaves h _ _)

theorem beginLeakCheck_leaves (s : State) : Leaves p s (s.beginLeakCheck q) := by
  unfold beginLeakCheck
  exact (Leaves.refl s).session h

theorem endConnect_leaves (s : State) : Leaves p s (s.endConnect q) :=
  .ite (fun _ => beginLeakCheck_leaves h _) fun _ => enterHeld_leaves h _ _

theorem beginConnect_leaves (s : State) : Leaves p s (s.beginConnect q) :=
  ((Leaves.refl s).session h).trans (.ite (fun _ => endConnect_leaves h _) fun _ => .refl _)

theorem beginSettle_leaves (s : State) : Leaves p s (s.beginSettle q) :=
  ((Leaves.refl s).session h).trans (.ite (fun _ => connected_leaves h _) fun _ => .refl _)

theorem enterClaim_leaves (s : State) : Leaves p s (s.enterClaim q) := (Leaves.refl s).session h

theorem endClaim_leaves (s : State) : Leaves p s (s.endClaim q) :=
  .ite (fun _ => .ite (fun _ => beginSettle_leaves h _) fun _ => beginConnect_leaves h _) fun _ =>
    enterHeld_leaves h _ _

theorem snapshotClaim_leaves (s : State) (b : BankId) : Leaves p s (s.snapshotClaim b q) := by
  unfold snapshotClaim
  exact (Leaves.refl s).session h

theorem snapshotRelease_leaves (s : State) (b : BankId) : Leaves p s (s.snapshotRelease b q) := by
  unfold snapshotRelease
  exact (Leaves.refl s).session h

theorem claimGranted_leaves (s : State) (b : BankId) : Leaves p s (s.claimGranted b q) :=
  ((snapshotClaim_leaves h s b).session h).trans
    ((Leaves.ite (fun _ => setFactor_leaves h _ _) fun _ => .refl _).trans (endClaim_leaves h _))

end Other

/-! ### Claims -/

theorem settleYield_leaves (s : State) : Leaves p s s.settleYield := by
  unfold settleYield
  split
  · exact .ite (fun _ => (Leaves.refl s).bm) fun _ => .refl _
  · exact .refl s

/-- A bank is handed to the head of its queue, which is another position. -/
theorem handOff_leaves (s : State) (b : BankId) : Leaves p s (s.handOff b) := by
  refine .assuming fun a => ?_
  have hb := a.bankQueues b
  unfold handOff
  split
  · exact (Leaves.refl s).bank
  · rename_i q rest e
    rw [e] at hb
    have hq : q ≠ p := fun c => hb (c ▸ List.mem_cons_self)
    exact ((Leaves.refl s).bank fun _ => fun m => hb (List.mem_cons_of_mem _ m)).trans (claimGranted_leaves hq _ _)

theorem handOn_leaves (s : State) (b : BankId) : Leaves p s (s.handOn b) :=
  (handOff_leaves s b).trans (.ite (fun _ => becameFree_leaves _ _) fun _ => .refl _)

theorem leaveQueue_leaves (s : State) (h : q ≠ p) : Leaves p s (s.leaveQueue q) := by
  unfold leaveQueue
  split
  · exact .refl s
  · exact (((Leaves.refl s).bank fun k m => k (List.mem_of_mem_filter m)).session h).trans (settleYield_leaves _)

theorem releaseClaim_leaves (s : State) (h : q ≠ p) : Leaves p s (s.releaseClaim q) := by
  unfold releaseClaim
  split
  · exact .refl s
  · exact .ite
      (fun _ => ((snapshotRelease_leaves h s _).session h).trans (handOn_leaves _ _))
      fun _ => (Leaves.refl s).session h

theorem enterRefillList_leaves (s : State) (b : BankId) : Leaves p s (s.enterRefillList b) :=
  .ite (fun _ => .refl s) fun _ => (Leaves.refl s).bm

theorem relist_leaves (s : State) (b : BankId) : Leaves p s (s.relist b) :=
  .ite (fun _ => enterRefillList_leaves _ _) fun _ => .refl s

theorem refillEnds_leaves (s : State) (b : BankId) (r : RefillReason) : Leaves p s (s.refillEnds b r) :=
  (((Leaves.refl s).bm.trans (handOff_leaves _ _)).posted).trans (relist_leaves _ _)

theorem endRefill_leaves (s : State) (b : BankId) (r : RefillReason) : Leaves p s (s.endRefill b r) :=
  (refillEnds_leaves s b r).trans (.ite (fun _ => becameFree_leaves _ _) fun _ => .refl _)

theorem takeBank_leaves (s : State) (b : BankId) : Leaves p s (s.takeBank b q) := (abandonProof_leaves s b).bank

theorem joinQueue_leaves (s : State) (b : BankId) (h : q ≠ p) : Leaves p s (s.joinQueue b q) :=
  ((Leaves.refl s).bank fun k m => (List.mem_append.mp m).elim k fun e => h (List.mem_singleton.mp e).symm).trans
    (.ite (fun _ => (Leaves.refl _).bm) fun _ => .refl _)

theorem claimRequest_leaves (s : State) (b : BankId) (h : q ≠ p) : Leaves p s (s.claimRequest b q).1 := by
  unfold claimRequest
  split
  · exact .refl s
  · split
    · exact .refl s
    · split
      · exact takeBank_leaves _ _
      · exact takeBank_leaves _ _
      · exact joinQueue_leaves _ _ h
      · exact joinQueue_leaves _ _ h

theorem yieldAtOnce_leaves (s : State) (b : BankId) (w : Bool) : Leaves p s (s.yieldAtOnce b w) :=
  .ite (fun _ => endRefill_leaves _ _ _) fun _ => .refl s

theorem claim_leaves (s : State) (b : BankId) (h : q ≠ p) : Leaves p s (s.claim b q) := by
  have k := claimRequest_leaves s b h
  unfold claim
  generalize s.claimRequest b q = r at k
  obtain ⟨t, a⟩ := r
  cases a with
  | refused => exact k
  | granted => exact k.trans (claimGranted_leaves h _ _)
  | waits =>
    refine (k.trans ?_).trans (yieldAtOnce_leaves _ _ _)
    unfold awaitBank
    exact (Leaves.refl t).session h

end State

/-! ### The cascade -/

/-- An ender that leaves every other position alone that waits nowhere. -/
def Ender.LeavesOthers (endK : Ender) (p : PosId) : Prop := ∀ q r s, q ≠ p → Leaves p s (endK q r s)

namespace State

variable {p q : PosId} {endK : Ender} (hE : endK.LeavesOthers p)

include hE

theorem selectBank_leaves (s : State) (h : q ≠ p) : Leaves p s (s.selectBank endK q) := by
  unfold selectBank
  refine .ite (fun _ => ?_) fun _ => ?_
  · unfold awaitFresh
    exact (Leaves.refl s).session h
  · split
    · exact claim_leaves _ _ h
    · exact hE _ _ _ h

theorem leaveOpening_leaves (s : State) (h : q ≠ p) : Leaves p s (s.leaveOpening endK q) :=
  (((Leaves.refl s).session h).monitor h).trans
    (.ite (fun _ => ((enterClaim_leaves h _).trans (postSession_leaves _)).trans (selectBank_leaves hE _ h))
      fun _ => enterHeld_leaves h _ _)

theorem reconnect_leaves (s : State) (h : q ≠ p) : Leaves p s (s.reconnect endK q) :=
  ((((Leaves.refl s).session h).trans (enterClaim_leaves h _)).trans (postSession_leaves _)).trans
    (selectBank_leaves hE _ h)

theorem resumeConnection_leaves (s : State) (f : Phase) (h : q ≠ p) :
    Leaves p s (s.resumeConnection endK q f) := by
  unfold resumeConnection
  refine (((Leaves.refl s).session h (f := fun x => { x with resumePoint := none })).trans
    ((enterClaim_leaves h _).trans (postSession_leaves _ (q := q)))).trans ?_
  cases f
  · exact selectBank_leaves hE _ h
  · exact beginConnect_leaves h _
  · exact beginLeakCheck_leaves h _
  · exact beginSettle_leaves h _

theorem resume_leaves (s : State) (h : q ≠ p) : Leaves p s (s.resume endK q) := by
  unfold resume
  refine ((Leaves.refl s).session h (f := fun x => x.leaveHold (s.profileOf q).holdLimit)).trans ?_
  dsimp only
  split
  · exact resumeConnection_leaves hE _ _ h
  · exact .ite (fun _ => enterDelivering_leaves h _) fun _ => reconnect_leaves hE _ h

theorem startResume_leaves (s : State) (h : q ≠ p) : Leaves p s (s.startResume endK q) := by
  unfold startResume
  exact .ite (fun _ => resume_leaves hE _ h) fun _ => (Leaves.refl s).session h

theorem clearFactor_leaves (s : State) (f : Factor) (h : q ≠ p) : Leaves p s (s.clearFactor endK q f) := by
  unfold clearFactor
  refine .ite (fun _ => ?_) fun _ => .refl s
  refine ((Leaves.refl s).session h (f := fun x => { x with factors := x.factors.put f false })).trans ?_
  exact .ite (fun _ => startResume_leaves hE _ h) fun _ => .refl _

theorem coolingGranted_leaves (s : State) (h : q ≠ p) : Leaves p s (s.coolingGranted endK q) :=
  ((Leaves.refl s).session h).trans
    (.ite (fun _ => leaveOpening_leaves hE _ h) fun _ => clearFactor_leaves hE _ _ h)

omit hE in
/-- A cooling queue that comes of another by taking entries out keeps p out. -/
theorem setCoolingQueue_leaves (s : State) (l : List Waiter) (h : ∀ w ∈ l, w ∈ s.cbu.queue) :
    Leaves p s (s.setCoolingQueue l) :=
  ((Leaves.refl s).cbu fun k w m => k w (h w m)).posted

theorem grantFromHead_leaves (n : Nat) (s : State) : Leaves p s (grantFromHead endK n s) := by
  induction n generalizing s with
  | zero => exact .refl s
  | succ n ih =>
    refine .assuming fun a => ?_
    unfold grantFromHead
    split
    · exact .refl s
    · rename_i w rest e
      have hw : w.pos ≠ p := a.coolingQueue w (e ▸ List.mem_cons_self)
      refine .ite (fun _ => .refl s) fun _ => ?_
      refine Leaves.trans ?_ ((coolingGranted_leaves hE _ hw).trans (ih _))
      exact ((Leaves.refl s).cbu (f := fun c => { c with grants := c.grants ++ [⟨w.pos, w.demand, w.limit⟩] })).trans
        (setCoolingQueue_leaves _ _ fun v m => show v ∈ s.cbu.queue from e ▸ List.mem_cons_of_mem _ m)

theorem grantWaiters_leaves (s : State) : Leaves p s (s.grantWaiters endK) := grantFromHead_leaves hE _ _

theorem leaveCooling_leaves (s : State) : Leaves p s (s.leaveCooling endK q) := by
  unfold leaveCooling
  refine .ite (fun _ => ?_) fun _ => .ite (fun _ => ?_) fun _ => .refl s
  · exact (Leaves.refl s).cbu.trans (grantWaiters_leaves hE _)
  · exact (setCoolingQueue_leaves s _ fun _ m => List.mem_of_mem_filter m).trans (grantWaiters_leaves hE _)

theorem endSteps_leaves (s : State) (r : EndReason) (h : q ≠ p) : Leaves p s (s.endSteps endK q r) := by
  unfold endSteps
  exact ((((((Leaves.refl s).session h).trans (releaseClaim_leaves _ h)).trans (leaveQueue_leaves _ h)).trans
    (leaveCooling_leaves hE _)).session h).trans (postSession_leaves _)

omit hE

theorem commit_leaves (s : State) (h : q ≠ p) : Leaves p s (s.commit q) := by
  unfold commit
  refine (((Leaves.trans ?_ (.ite (fun _ => (Leaves.refl _).posted) fun _ => .refl _)).posted).session h).posted
  exact (Leaves.refl s).sales

theorem completeClosing_leaves (s : State) (h : q ≠ p) : Leaves p s (s.completeClosing q) :=
  (commit_leaves s h).trans
    ((Leaves.refl _).sales (f := fun u => { u with register := none, closingTimer := none }) fun a _ =>
      ⟨a, (Option.some_ne_none p).symm⟩)

theorem serveRegister_leaves (n : Nat) (s : State) : Leaves p s (serveRegister n s) := by
  induction n generalizing s with
  | zero => exact .refl s
  | succ n ih =>
    refine .assuming fun a => ?_
    unfold serveRegister
    split
    · rename_i q rest _ e
      have hc := a.closeQueue
      rw [e] at hc
      have hq : q ≠ p := fun c => hc (c ▸ List.mem_cons_self)
      refine Leaves.trans (t := s.takeRegister q rest) ?_ (.ite (fun _ => ?_) fun _ => ?_)
      · exact (((Leaves.refl s).sales fun _ _ => ⟨fun m => hc (List.mem_cons_of_mem _ m), fun e => hq (by
          injection e)⟩).session hq).posted
      · exact (completeClosing_leaves _ hq).trans (ih _)
      · exact (Leaves.refl _).sales
    · exact .refl s

theorem serveCloseQueue_leaves (s : State) : Leaves p s s.serveCloseQueue := serveRegister_leaves _ _

theorem joinCloseQueue_leaves (s : State) (h : q ≠ p) : Leaves p s (s.joinCloseQueue q) :=
  ((Leaves.refl s).sales fun a b => ⟨fun m => (List.mem_append.mp m).elim a fun e => h (List.mem_singleton.mp e).symm,
    b⟩).trans (serveCloseQueue_leaves _)

end State

theorem endSession_leaves (p : PosId) (n : Nat) : (endSession n).LeavesOthers p := by
  induction n with
  | zero => exact fun _ _ s _ => .refl s
  | succ n ih =>
    intro q r s h
    exact .ite (fun _ => (State.endSteps_leaves ih s r h).trans (State.joinCloseQueue_leaves _ h)) fun _ => .refl s

/-- The end of a session leaves alone every other position that waits nowhere. -/
theorem endNow_leaves (p : PosId) : endNow.LeavesOthers p := endSession_leaves p 4

theorem State.endWith_leaves {p q : PosId} (s : State) (r : EndReason) (h : q ≠ p) : Leaves p s (s.endWith q r) :=
  endNow_leaves p q r s h

end Sys2Proof.Machine
end

