-- ==== Sys2Proof/Laws/Banks.lean ====
section
/-! SUPPORT. That the Bank Manager's records agree (`BanksAgree`), through every operation of the Bank Manager that
changes a holder, a wait queue, a proof, the designation or the refill in flight. -/

namespace Sys2Proof.Machine

set_option Elab.async false

/-- What `BanksAgree` says of one bank record, told the designation and the refill in flight. -/
structure Bank.Agrees (x : Bank) (d r : Option BankId) (b : BankId) : Prop where
  proving : x.proof.isSome = true ↔ x.proofState = .proving
  before : ∀ f, x.proof = some f → f.before = .proven ∨ f.before = .unproven
  forced : (∃ f, x.proof = some f ∧ f.kind = .forced) ↔ d = some b
  held : x.holder = .proof ↔ d = some b
  opportunistic : ∀ f, x.proof = some f → f.kind = .opportunistic → x.holder = .free
  refill : x.holder = .refill ↔ r = some b
  unawaited : x.holder = .free ∨ x.holder = .proof → x.queue = []

theorem banksAgree_iff (s : State) :
    BanksAgree s ↔ ∀ b, (s.bank b).Agrees s.bm.designation s.bm.refillInFlight b :=
  ⟨fun h b => ⟨h.proving b, h.before b, h.forced b, h.held b, h.opportunistic b, h.refill b, h.unawaited b⟩,
    fun h => ⟨fun b => (h b).proving, fun b => (h b).before, fun b => (h b).forced, fun b => (h b).held,
      fun b => (h b).opportunistic, fun b => (h b).refill, fun b => (h b).unawaited⟩⟩

theorem BanksAgree.bank {s : State} (h : BanksAgree s) (b : BankId) :
    (s.bank b).Agrees s.bm.designation s.bm.refillInFlight b := (banksAgree_iff s).mp h b

/-- The records agree whatever else of the state changes. -/
theorem BanksAgree.of_bm {s t : State} (h : BanksAgree s) (e : t.bm = s.bm := by rfl) : BanksAgree t := by
  rw [banksAgree_iff] at h ⊢
  unfold State.bank at h ⊢
  rw [e]
  exact h

namespace Bank.Agrees

variable {x : Bank} {d e r v : Option BankId} {b : BankId}

/-- A designation and a refill that name this bank as before leave the record in agreement. -/
theorem of_named (h : x.Agrees d r b) (k : e = some b ↔ d = some b) (l : v = some b ↔ r = some b) : x.Agrees e v b :=
  ⟨h.proving, h.before, h.forced.trans k.symm, h.held.trans k.symm, h.opportunistic, h.refill.trans l.symm, h.unawaited⟩

/-- A bank that a position holds or the compressor has no proof in progress. -/
theorem no_proof (h : x.Agrees d r b) (f : x.holder ≠ .free) (p : x.holder ≠ .proof) : x.proof = none := by
  cases e : x.proof with
  | none => rfl
  | some g =>
    cases k : g.kind with
    | forced => exact absurd (h.held.mpr (h.forced.mp ⟨g, e, k⟩)) p
    | opportunistic => exact absurd (h.opportunistic g e k) f

/-- A bank without a proof is not PROVING. -/
theorem not_proving (h : x.Agrees d r b) (e : x.proof = none) : x.proofState ≠ .proving := fun c => by
  have := h.proving.mpr c
  rw [e] at this
  exact nomatch this

end Bank.Agrees

namespace State

variable {s : State} {b : BankId}

/-- Some records, the designation and the refill in flight change. -/
theorem agree_of {t : State} (h : BanksAgree s) (b : BankId)
    (o : ∀ c, c ≠ b → t.bank c = s.bank c ∧ (t.bm.designation = some c ↔ s.bm.designation = some c)
      ∧ (t.bm.refillInFlight = some c ↔ s.bm.refillInFlight = some c))
    (n : (t.bank b).Agrees t.bm.designation t.bm.refillInFlight b) : BanksAgree t := by
  rw [banksAgree_iff]
  intro c
  by_cases k : c = b
  · rw [k]; exact n
  · obtain ⟨e, d, r⟩ := o c k
    rw [e]
    exact (h.bank c).of_named d r

/-- One record changes and goes on agreeing. -/
theorem modBank_agree (h : BanksAgree s) {f : Bank → Bank}
    (n : (f (s.bank b)).Agrees s.bm.designation s.bm.refillInFlight b) : BanksAgree (s.modBank b f) :=
  agree_of h b (fun c k => ⟨modBank_bank_ne _ _ k, .rfl, .rfl⟩) (by
    rw [modBank_bank_same]
    exact n)

theorem modBm_bank_of {f : BankManager → BankManager} (e : (f s.bm).banks = s.bm.banks) {c : BankId} :
    (s.modBm f).bank c = s.bank c := by
  rw [modBm_bank, e]
  rfl

theorem not_some_of_none {α : Type} {d : Option α} (e : d = none) (c : α) : d ≠ some c := by
  rw [e]
  exact nofun

theorem some_iff_of_ne {b c : BankId} (k : c ≠ b) (d : Option BankId) (e : d ≠ some c) : some b = some c ↔ d = some c :=
  ⟨fun m => absurd (Option.some.inj m).symm k, fun m => absurd m e⟩

/-! ### Proof examinations -/

theorem longestOverdue_mem (e : s.longestOverdue = some b) : s.isOverdue b = true := by
  have key : ∀ (l : List BankId) (o : Option BankId), (∀ a, o = some a → s.isOverdue a = true) →
      (∀ a ∈ l, s.isOverdue a = true) → ∀ a, l.foldl (fun best b =>
        match best with
        | none => some b
        | some a => if (s.proofAge a).getD 0 < (s.proofAge b).getD 0 then some b else some a) o = some a →
      s.isOverdue a = true := by
    intro l
    induction l with
    | nil => exact fun o h _ a e => h a e
    | cons x l ih =>
      intro o h k a e
      refine ih _ (fun c m => ?_) (fun c m => k c (List.mem_cons_of_mem _ m)) a e
      dsimp only at m
      split at m
      · cases m; exact k x List.mem_cons_self
      · split at m
        · cases m; exact k x List.mem_cons_self
        · cases m; exact h _ rfl
  unfold longestOverdue at e
  exact key _ none nofun (fun a m => (List.mem_filter.mp m).2) b e

/-- An overdue bank is not SUSPECT. -/
theorem isOverdue_suspect (e : s.isOverdue b = true) : (s.bank b).proofState ≠ .suspect := fun c => by
  unfold isOverdue proofAge proofBase at e
  dsimp only at e
  rw [c] at e
  exact nomatch e

/-- A bank that may be proved was PROVEN or UNPROVEN. -/
theorem before_of {x : ProofState} (n : x ≠ .proving) (m : x ≠ .suspect) : x = .proven ∨ x = .unproven := by
  cases x
  · exact .inr rfl
  · exact absurd rfl n
  · exact .inl rfl
  · exact absurd rfl m

theorem forcedExamination_agree (h : BanksAgree s) : BanksAgree s.forcedExamination := by
  unfold forcedExamination
  split
  · rename_i c
    split
    · exact h
    · rename_i b e
      have nd : ∀ c, s.bm.designation ≠ some c := not_some_of_none c.2.2
      have x := h.bank b
      split
      · rename_i o
        have empty := x.unawaited (.inl o)
        have nr : s.bm.refillInFlight ≠ some b := fun k => by
          have := x.refill.mpr k
          rw [o] at this
          exact nomatch this
        split
        · rename_i pr
          refine agree_of (t := (s.forceProof b).designate b) h b (fun c k => ⟨?_, some_iff_of_ne k _ (nd c), .rfl⟩) ?_
          · unfold designate forceProof
            rw [modBm_bank_of rfl, modBank_bank_ne _ _ k, modBank_bank_ne _ _ k]
          · have eq : ((s.forceProof b).designate b).bank b = { s.bank b with
                proof := (s.bank b).proof.map fun f => { f with kind := .forced }, holder := .proof } := by
              unfold designate forceProof
              rw [modBm_bank_of rfl, modBank_bank_same, modBank_bank_same]
            rw [eq]
            obtain ⟨g, hg⟩ := Option.isSome_iff_exists.mp (x.proving.mpr pr)
            rw [hg]
            refine ⟨⟨fun _ => pr, fun _ => rfl⟩, fun f m => ?_, ⟨fun _ => rfl, fun _ => ⟨_, rfl, rfl⟩⟩,
              ⟨fun _ => rfl, fun _ => rfl⟩, fun f m k => ?_, ⟨nofun, fun k => absurd k nr⟩, fun _ => empty⟩
            · cases m; exact x.before g hg
            · cases m; exact nomatch k
        · rename_i np
          refine agree_of (t := (s.beginProof b .forced).designate b) h b
            (fun c k => ⟨?_, some_iff_of_ne k _ (nd c), .rfl⟩) ?_
          · unfold designate beginProof
            rw [modBm_bank_of rfl, modBank_bank_ne _ _ k, modBank_bank_ne _ _ k]
          · have eq : ((s.beginProof b .forced).designate b).bank b = { s.bank b with
                proofState := .proving
                proof := some ⟨.forced, (s.bank b).mass.getD 0, (s.bank b).proofState, s.config.proofInterval⟩
                holder := .proof } := by
              unfold designate beginProof
              rw [modBm_bank_of rfl, modBank_bank_same, modBank_bank_same]
            rw [eq]
            refine ⟨⟨fun _ => rfl, fun _ => rfl⟩, fun f m => ?_, ⟨fun _ => rfl, fun _ => ⟨_, rfl, rfl⟩⟩,
              ⟨fun _ => rfl, fun _ => rfl⟩, fun f m k => ?_, ⟨nofun, fun k => absurd k nr⟩, fun _ => empty⟩
            · cases m; exact before_of np (isOverdue_suspect (longestOverdue_mem e))
            · cases m; exact nomatch k
      · exact h
  · exact h

theorem opportunisticExamination_agree (h : BanksAgree s) (b : BankId) : BanksAgree (s.opportunisticExamination b) := by
  unfold opportunisticExamination
  split
  · rename_i c
    obtain ⟨_, _, o, _, due⟩ := c
    have x := h.bank b
    have bef : (s.bank b).proofState = .proven ∨ (s.bank b).proofState = .unproven := by
      unfold dueForProof at due
      split at due
      · exact .inr ‹_›
      · exact .inl ‹_›
      · exact nomatch due
      · exact nomatch due
    have nd : s.bm.designation ≠ some b := fun k => by
      have := x.held.mpr k
      rw [o] at this
      exact nomatch this
    refine modBank_agree h ⟨⟨fun _ => rfl, fun _ => rfl⟩, fun f m => ?_, ⟨fun ⟨f, m, k⟩ => ?_, fun k => absurd k nd⟩,
      x.held, fun _ _ _ => o, x.refill, x.unawaited⟩
    · cases m; exact bef
    · cases m; exact nomatch k
  · exact h

theorem becameFree_agree (h : BanksAgree s) (b : BankId) : BanksAgree (s.becameFree b) :=
  opportunisticExamination_agree (forcedExamination_agree h) b

theorem proofExaminations_agree (h : BanksAgree s) : BanksAgree s.proofExaminations :=
  inOrder_keeps BanksAgree _ (fun b _ k => opportunisticExamination_agree k b) _ (forcedExamination_agree h)

/-- A change of a record in nothing that the agreement reads. -/
theorem modBank_agree_same (h : BanksAgree s) {f : Bank → Bank}
    (e : ((f (s.bank b)).proof, (f (s.bank b)).proofState, (f (s.bank b)).holder, (f (s.bank b)).queue)
      = ((s.bank b).proof, (s.bank b).proofState, (s.bank b).holder, (s.bank b).queue) := by rfl) :
    BanksAgree (s.modBank b f) := by
  have x := h.bank b
  have e1 := congrArg (·.1) e
  have e2 := congrArg (·.2.1) e
  have e3 := congrArg (·.2.2.1) e
  have e4 := congrArg (·.2.2.2) e
  dsimp only at e1 e2 e3 e4
  refine modBank_agree h ⟨?_, ?_, ?_, ?_, ?_, ?_, ?_⟩
  · rw [e1, e2]; exact x.proving
  · rw [e1]; exact x.before
  · rw [e1]; exact x.forced
  · rw [e3]; exact x.held
  · rw [e1, e3]; exact x.opportunistic
  · rw [e3]; exact x.refill
  · rw [e3, e4]; exact x.unawaited

theorem overdueTestOf_agree (h : BanksAgree s) (b : BankId) : BanksAgree (s.overdueTestOf b) := by
  unfold overdueTestOf
  split
  · split
    · exact forcedExamination_agree h
    · exact forcedExamination_agree (BanksAgree.of_bm (modBank_agree_same (f := fun x => { x with overdue := true }) h))
  · exact modBank_agree_same h

theorem overdueTest_agree (h : BanksAgree s) : BanksAgree s.overdueTest := by
  unfold overdueTest
  split
  · exact h
  · exact inOrder_keeps BanksAgree _ (fun b _ k => overdueTestOf_agree k b) _ h

/-! ### Abandonment and verdicts -/

/-- The record of a bank whose proof is abandoned. -/
theorem abandonProof_bank (s : State) (b : BankId) : (s.abandonProof b).bank b = { s.bank b with
    proof := none, proofState := ((s.bank b).proof.map (·.before)).getD (s.bank b).proofState } := by
  unfold abandonProof
  split
  · rename_i e
    rw [e]
    cases h : s.bank b
    rw [h] at e
    dsimp only at e ⊢
    rw [e]
    rfl
  · rename_i f e
    unfold undesignate endProof
    rw [modBm_bank_of rfl, modBank_bank_same, e]
    rfl

theorem abandonProof_bank_ne (s : State) {b c : BankId} (k : c ≠ b) : (s.abandonProof b).bank c = s.bank c := by
  unfold abandonProof
  split
  · rfl
  · unfold undesignate endProof
    rw [modBm_bank_of rfl, modBank_bank_ne _ _ k]

theorem undesignated_ne {d : Option BankId} {b c : BankId} (k : c ≠ b) :
    (if d = some b then none else d) = some c ↔ d = some c := by
  split
  · rename_i e
    rw [e]
    exact ⟨nofun, fun m => absurd (Option.some.inj m).symm k⟩
  · exact .rfl

theorem undesignated_same (d : Option BankId) (b : BankId) : (if d = some b then none else d) ≠ some b := by
  split
  · exact nofun
  · assumption

theorem abandonProof_designation (h : BanksAgree s) (b : BankId) :
    (s.abandonProof b).bm.designation = if s.bm.designation = some b then none else s.bm.designation := by
  unfold abandonProof
  split
  · rename_i e
    rw [if_neg]
    intro c
    obtain ⟨f, m, _⟩ := (h.bank b).forced.mpr c
    rw [e] at m
    exact nomatch m
  · rfl

theorem abandonProof_refill (s : State) (b : BankId) : (s.abandonProof b).bm.refillInFlight = s.bm.refillInFlight := by
  unfold abandonProof
  split <;> rfl

/-- What a bank was before its proof is not PROVING. -/
theorem abandoned_state (h : BanksAgree s) (b : BankId) :
    ((s.bank b).proof.map (·.before)).getD (s.bank b).proofState ≠ .proving := by
  cases e : (s.bank b).proof with
  | none => exact (h.bank b).not_proving e
  | some f => rcases (h.bank b).before f e with k | k <;> · show f.before ≠ _; rw [k]; nofun

/-- A proof on a bank is abandoned and the bank takes a holder and a wait queue. -/
theorem abandoned_agree {t : State} {o : Holder} {q : List PosId} (h : BanksAgree s) (b : BankId)
    (e : t.bm = ((s.abandonProof b).modBank b fun x => { x with holder := o, queue := q }).bm)
    (r : o = .refill ↔ s.bm.refillInFlight = some b) (n : o ≠ .proof) (w : o = .free → q = []) : BanksAgree t := by
  refine BanksAgree.of_bm (agree_of h b (fun c k => ⟨?_, ?_, ?_⟩) ?_) e
  · rw [modBank_bank_ne _ _ k, abandonProof_bank_ne s k]
  · show (s.abandonProof b).bm.designation = _ ↔ _
    rw [abandonProof_designation h]
    exact undesignated_ne k
  · show (s.abandonProof b).bm.refillInFlight = _ ↔ _
    rw [abandonProof_refill]
  · rw [modBank_bank_same, abandonProof_bank]
    show Bank.Agrees _ (s.abandonProof b).bm.designation (s.abandonProof b).bm.refillInFlight b
    rw [abandonProof_designation h, abandonProof_refill]
    have d := undesignated_same s.bm.designation b
    exact ⟨⟨nofun, fun c => absurd c (abandoned_state h b)⟩, nofun, ⟨nofun, fun c => absurd c d⟩,
      ⟨fun c => absurd c n, fun c => absurd c d⟩, nofun, r, fun c => c.elim w fun c => absurd c n⟩

theorem modBank_congr {f g : Bank → Bank} (e : f (s.bank b) = g (s.bank b)) : s.modBank b f = s.modBank b g := by
  have e : f (s.bm.banks.get b) = g (s.bm.banks.get b) := e
  unfold modBank
  rw [e]

theorem modBank_self {s : State} {b : BankId} {f : Bank → Bank} (e : f (s.bank b) = s.bank b) : s.modBank b f = s := by
  have e : f (s.bm.banks.get b) = s.bm.banks.get b := e
  unfold modBank
  rw [e, Quad.set_get]

theorem abandonAndFree_agree (h : BanksAgree s) (b : BankId) : BanksAgree (s.abandonAndFree b) := by
  have x := h.bank b
  unfold abandonAndFree
  dsimp only
  split
  · rename_i o
    rw [abandonProof_bank] at o
    have o : (s.bank b).holder = .proof := o
    refine abandoned_agree (o := .free) (q := []) h b ?_ ⟨nofun, fun k => ?_⟩ nofun fun _ => rfl
    · have q := x.unawaited (.inr o)
      unfold modBank
      dsimp only
      have g : (s.abandonProof b).bm.banks.get b = _ := abandonProof_bank s b
      rw [g, q]
    · have := x.refill.mpr k
      rw [o] at this
      exact nomatch this
  · rename_i o
    rw [abandonProof_bank] at o
    have o : (s.bank b).holder ≠ .proof := o
    refine abandoned_agree (o := (s.bank b).holder) (q := (s.bank b).queue) h b ?_ x.refill o fun c => x.unawaited (.inl c)
    rw [modBank_self]
    rw [abandonProof_bank]

theorem takeBank_agree (h : BanksAgree s) (b : BankId) (p : PosId) (r : s.bm.refillInFlight ≠ some b) :
    BanksAgree (s.takeBank b p) := by
  refine abandoned_agree (o := .position p) (q := (s.bank b).queue) h b ?_ ⟨nofun, fun k => absurd k r⟩ nofun nofun
  unfold takeBank modBank
  dsimp only
  have g : (s.abandonProof b).bm.banks.get b = _ := abandonProof_bank s b
  rw [g]

theorem beginRefill_agree (h : BanksAgree s) (b : BankId) (r : s.bm.refillInFlight = none) :
    BanksAgree (s.beginRefill b) := by
  refine agree_of h b (fun c k => ⟨?_, ?_, ?_⟩) ?_
  · unfold beginRefill leaveRefillList
    rw [modBm_bank_of rfl, modBm_bank_of rfl, modBank_bank_ne _ _ k, abandonProof_bank_ne s k]
  · show (s.abandonProof b).bm.designation = _ ↔ _
    rw [abandonProof_designation h]
    exact undesignated_ne k
  · exact some_iff_of_ne k _ (not_some_of_none r c)
  · have eq : (s.beginRefill b).bank b = { s.bank b with
        proof := none, proofState := ((s.bank b).proof.map (·.before)).getD (s.bank b).proofState, holder := .refill } := by
      unfold beginRefill leaveRefillList
      rw [modBm_bank_of rfl, modBm_bank_of rfl, modBank_bank_same, abandonProof_bank]
    rw [eq]
    show Bank.Agrees _ (s.abandonProof b).bm.designation (some b) b
    rw [abandonProof_designation h]
    have d := undesignated_same s.bm.designation b
    exact ⟨⟨nofun, fun c => absurd c (abandoned_state h b)⟩, nofun, ⟨nofun, fun c => absurd c d⟩,
      ⟨nofun, fun c => absurd c d⟩, nofun, ⟨fun _ => rfl, fun _ => rfl⟩, fun c => c.elim nofun nofun⟩

/-! ### Queues and hand-off -/

/-- A position joins the queue of a bank that is not to be had. -/
theorem joinQueue_agree (h : BanksAgree s) (b : BankId) (p : PosId)
    (n : (s.bank b).holder ≠ .free) (m : (s.bank b).holder ≠ .proof) : BanksAgree (s.joinQueue b p) := by
  have x := h.bank b
  have k : BanksAgree (s.modBank b fun x => { x with queue := x.queue ++ [p] }) :=
    modBank_agree h ⟨x.proving, x.before, x.forced, x.held, x.opportunistic, x.refill,
      fun c => c.elim (fun c => absurd c n) fun c => absurd c m⟩
  unfold joinQueue
  dsimp only
  split
  · exact agree_of k b (fun c _ => ⟨modBm_bank_of rfl, .rfl, .rfl⟩) (by rw [modBm_bank_of rfl]; exact k.bank b)
  · exact k

theorem settleYield_agree (h : BanksAgree s) : BanksAgree s.settleYield := by
  unfold settleYield
  split
  · split
    · exact agree_of h 0 (fun c _ => ⟨modBm_bank_of rfl, .rfl, .rfl⟩) (by rw [modBm_bank_of rfl]; exact h.bank 0)
    · exact h
  · exact h

/-- A wait queue loses positions. -/
theorem filtered_agree (h : BanksAgree s) (b : BankId) (f : PosId → Bool) :
    BanksAgree (s.modBank b fun x => { x with queue := x.queue.filter f }) := by
  have x := h.bank b
  exact modBank_agree h ⟨x.proving, x.before, x.forced, x.held, x.opportunistic, x.refill,
    fun c => by show (s.bank b).queue.filter f = []; rw [x.unawaited c]; rfl⟩

theorem leaveQueue_agree (h : BanksAgree s) (p : PosId) : BanksAgree (s.leaveQueue p) := by
  unfold leaveQueue
  split
  · exact h
  · rename_i b _
    exact settleYield_agree (BanksAgree.of_bm (filtered_agree h b fun q => q != p))

/-- The records agree but for the holder of one bank, which has no proof, is neither designated nor the refill in
flight, and is about to be handed on. -/
structure Handing (s : State) (b : BankId) : Prop where
  others : ∀ c, c ≠ b → (s.bank c).Agrees s.bm.designation s.bm.refillInFlight c
  proof : (s.bank b).proof = none
  state : (s.bank b).proofState ≠ .proving
  designation : s.bm.designation ≠ some b
  refill : s.bm.refillInFlight ≠ some b

/-- A bank that a position holds is to be handed on. -/
theorem handing_of_position {p : PosId} (h : BanksAgree s) (o : (s.bank b).holder = .position p) : Handing s b := by
  have x := h.bank b
  have n := x.no_proof (by rw [o]; nofun) (by rw [o]; nofun)
  refine ⟨fun c _ => h.bank c, n, x.not_proving n, fun k => ?_, fun k => ?_⟩
  · have := x.held.mpr k
    rw [o] at this
    exact nomatch this
  · have := x.refill.mpr k
    rw [o] at this
    exact nomatch this

theorem Handing.of_bm {t : State} (h : Handing s b) (e : t.bm = s.bm := by rfl) : Handing t b := by
  have eq : ∀ c, t.bank c = s.bank c := fun c => by unfold State.bank; rw [e]
  exact ⟨fun c k => by rw [eq, e]; exact h.others c k, by rw [eq]; exact h.proof, by rw [eq]; exact h.state,
    by rw [e]; exact h.designation, by rw [e]; exact h.refill⟩

/-- The bank being handed on takes a holder, neither PROOF nor REFILL, and a queue. -/
theorem Handing.taken (h : Handing s b) {o : Holder} {q : List PosId} (o1 : o ≠ .proof) (o2 : o ≠ .refill)
    (w : o = .free → q = []) : BanksAgree (s.modBank b fun x => { x with holder := o, queue := q }) := by
  rw [banksAgree_iff]
  intro c
  by_cases k : c = b
  · rw [k, modBank_bank_same]
    have np : ∀ f, (s.bank b).proof ≠ some f := not_some_of_none h.proof
    exact ⟨⟨fun m => absurd m (by rw [h.proof]; nofun), fun m => absurd m h.state⟩, fun f m => absurd m (np f),
      ⟨fun ⟨f, m, _⟩ => absurd m (np f), fun m => absurd m h.designation⟩,
      ⟨fun m => absurd m o1, fun m => absurd m h.designation⟩, fun f m => absurd m (np f),
      ⟨fun m => absurd m o2, fun m => absurd m h.refill⟩, fun m => m.elim w fun m => absurd m o1⟩
  · rw [modBank_bank_ne _ _ k]
    exact h.others c k

/-- The refill of a bank is over. -/
theorem handing_of_refill (h : BanksAgree s) (o : (s.bank b).holder = .refill) :
    Handing (s.modBm fun m => { m with refillInFlight := none, yieldTimer := none }) b := by
  have x := h.bank b
  have n := x.no_proof (by rw [o]; nofun) (by rw [o]; nofun)
  refine ⟨fun c k => ?_, ?_, ?_, fun k => ?_, nofun⟩
  · rw [modBm_bank_of rfl]
    refine (h.bank c).of_named .rfl ⟨nofun, fun m => ?_⟩
    have := x.refill.mp o
    have m : s.bm.refillInFlight = some c := m
    rw [m] at this
    exact absurd (Option.some.inj this) k
  · rw [modBm_bank_of rfl]; exact n
  · rw [modBm_bank_of rfl]; exact x.not_proving n
  · have := x.held.mpr k
    rw [o] at this
    exact nomatch this

/-- A forced proof on a bank has its verdict, neither PROVING. -/
theorem handing_of_verdict (h : BanksAgree s) (b : BankId) {f : Bank → Bank}
    (e : ((f (s.bank b)).proof, (f (s.bank b)).holder, (f (s.bank b)).queue) = (none, (s.bank b).holder, (s.bank b).queue))
    (n : (f (s.bank b)).proofState ≠ .proving) (r : s.bm.refillInFlight ≠ some b) :
    Handing ((s.modBank b f).undesignate b) b := by
  unfold undesignate
  refine ⟨fun c k => ?_, ?_, ?_, undesignated_same _ _, r⟩
  · rw [modBm_bank_of rfl, modBank_bank_ne _ _ k]
    exact (h.bank c).of_named (undesignated_ne k) .rfl
  · rw [modBm_bank_of rfl, modBank_bank_same]; exact congrArg (·.1) e
  · rw [modBm_bank_of rfl, modBank_bank_same]; exact n

/-! ### The phases of a session leave the Bank Manager alone -/

theorem ite_bm {c : Prop} [Decidable c] {t u v : State} (h : t.bm = v.bm) (k : u.bm = v.bm) :
    (if c then t else u).bm = v.bm := by
  split
  · exact h
  · exact k

theorem capture_bm (s : State) (p : PosId) : (s.capture p).bm = s.bm := by
  unfold capture
  split <;> rfl

theorem enterHeld_bm (s : State) (p : PosId) (f : Option Phase) : (s.enterHeld p f).bm = s.bm := rfl

theorem enterDelivering_bm (s : State) (p : PosId) : (s.enterDelivering p).bm = s.bm := capture_bm _ _

theorem connected_bm (s : State) (p : PosId) : (s.connected p).bm = s.bm := ite_bm (enterDelivering_bm _ _) rfl

theorem endConnect_bm (s : State) (p : PosId) : (s.endConnect p).bm = s.bm := ite_bm rfl rfl

theorem beginConnect_bm (s : State) (p : PosId) : (s.beginConnect p).bm = s.bm := ite_bm (endConnect_bm _ _) rfl

theorem beginSettle_bm (s : State) (p : PosId) : (s.beginSettle p).bm = s.bm := ite_bm (connected_bm _ _) rfl

theorem endClaim_bm (s : State) (p : PosId) : (s.endClaim p).bm = s.bm :=
  ite_bm (ite_bm (beginSettle_bm _ _) (beginConnect_bm _ _)) rfl

theorem claimGranted_bm (s : State) (b : BankId) (p : PosId) : (s.claimGranted b p).bm = s.bm :=
  (endClaim_bm _ _).trans (ite_bm rfl rfl)

/-! ### Hand-off, release and refills -/

/-- A bank that is to be handed on goes to the head of its queue, or is FREE (R62). -/
theorem handOff_agree (h : Handing s b) : BanksAgree (s.handOff b) := by
  unfold handOff
  split
  · rename_i e
    have k := h.taken (o := .free) (q := []) nofun nofun fun _ => rfl
    rw [modBank_congr (g := fun x => { x with holder := .free, queue := [] }) (by rw [e])]
    exact k
  · rename_i p rest _
    exact (h.taken (o := .position p) (q := rest) nofun nofun nofun).of_bm (claimGranted_bm _ _ _)

theorem handOn_agree (h : Handing s b) : BanksAgree (s.handOn b) := by
  have k := handOff_agree h
  unfold handOn
  dsimp only
  split
  · exact becameFree_agree k b
  · exact k

theorem releaseClaim_agree (h : BanksAgree s) (p : PosId) : BanksAgree (s.releaseClaim p) := by
  unfold releaseClaim
  split
  · exact h
  · split
    · exact handOn_agree (Handing.of_bm (handing_of_position h ‹_›))
    · exact h.of_bm

/-- A change of the refill list, of a timer or of what is reported of the four banks together. -/
theorem modBm_agree (h : BanksAgree s) {f : BankManager → BankManager}
    (e : ((f s.bm).banks, (f s.bm).designation, (f s.bm).refillInFlight)
      = (s.bm.banks, s.bm.designation, s.bm.refillInFlight) := by rfl) : BanksAgree (s.modBm f) := by
  have e1 : (f s.bm).banks = s.bm.banks := congrArg (·.1) e
  have e2 : (f s.bm).designation = s.bm.designation := congrArg (·.2.1) e
  have e3 : (f s.bm).refillInFlight = s.bm.refillInFlight := congrArg (·.2.2) e
  rw [banksAgree_iff]
  intro b
  rw [modBm_bank_of e1, modBm_bm, e2, e3]
  exact h.bank b

theorem relist_agree (h : BanksAgree s) (b : BankId) : BanksAgree (s.relist b) := by
  unfold relist enterRefillList
  split
  · split
    · exact h
    · exact modBm_agree h
  · exact h

theorem refillEnds_agree (h : BanksAgree s) (o : (s.bank b).holder = .refill) (r : RefillReason) :
    BanksAgree (s.refillEnds b r) :=
  relist_agree (handOff_agree (handing_of_refill h o)).of_bm b

theorem endRefill_agree (h : BanksAgree s) (o : (s.bank b).holder = .refill) (r : RefillReason) :
    BanksAgree (s.endRefill b r) := by
  have k := refillEnds_agree h o r
  unfold endRefill
  dsimp only
  split
  · exact becameFree_agree k b
  · exact k

/-! ### Claims -/

theorem claim_agree (h : BanksAgree s) (b : BankId) (p : PosId) : BanksAgree (s.claim b p) := by
  have x := h.bank b
  have wait : (s.bank b).holder ≠ .free → (s.bank b).holder ≠ .proof → ∀ w,
      BanksAgree (((s.joinQueue b p).awaitBank b p).yieldAtOnce b w) := fun m n w => by
    have k : BanksAgree ((s.joinQueue b p).awaitBank b p) := (joinQueue_agree h b p m n).of_bm
    unfold yieldAtOnce
    split
    · rename_i c; exact endRefill_agree k c.2.1 _
    · exact k
  have take : (s.bank b).holder ≠ .refill → BanksAgree ((s.takeBank b p).claimGranted b p) := fun n =>
    (takeBank_agree h b p fun k => n (x.refill.mpr k)).of_bm (claimGranted_bm _ _ _)
  unfold claim claimRequest
  dsimp only
  split
  · rename_i t e
    split at e
    · cases e; exact h
    · split at e
      · cases e; exact h
      · split at e <;> exact nomatch e
  · rename_i t e
    split at e
    · exact nomatch e
    · split at e
      · exact nomatch e
      · split at e
        · rename_i o; cases e; exact take (by rw [o]; nofun)
        · rename_i o; cases e; exact take (by rw [o]; nofun)
        · exact nomatch e
        · exact nomatch e
  · rename_i t e
    split at e
    · exact nomatch e
    · split at e
      · exact nomatch e
      · split at e
        · exact nomatch e
        · exact nomatch e
        · rename_i o; cases e; exact wait (by rw [o]; nofun) (by rw [o]; nofun) _
        · rename_i o; cases e; exact wait (by rw [o]; nofun) (by rw [o]; nofun) _

/-! ### Events of the Bank Manager -/

theorem proofRunsOut_agree {f : ProofFields} (h : BanksAgree s) (e : (s.bank b).proof = some f) :
    BanksAgree (s.proofRunsOut b f) := by
  have x := h.bank b
  have verdict : ∀ (t : State) (g : Bank → Bank), t.bm.banks = (s.modBank b g).bm.banks →
      t.bm.designation = s.bm.designation → t.bm.refillInFlight = s.bm.refillInFlight →
      ((g (s.bank b)).proof, (g (s.bank b)).holder, (g (s.bank b)).queue) = (none, (s.bank b).holder, (s.bank b).queue) →
      (g (s.bank b)).proofState ≠ .proving → BanksAgree (t.releaseProof b f.kind) := by
    intro t g t1 t2 t3 g1 g2
    have e1 : (g (s.bank b)).proof = none := congrArg (·.1) g1
    have e2 : (g (s.bank b)).holder = (s.bank b).holder := congrArg (·.2.1) g1
    have e3 : (g (s.bank b)).queue = (s.bank b).queue := congrArg (·.2.2) g1
    have eq : ∀ c, t.bank c = (s.modBank b g).bank c := fun c => by unfold State.bank; rw [t1]
    cases k : f.kind with
    | opportunistic =>
      have o := x.opportunistic f e k
      refine agree_of (t := t) h b (fun c n => ⟨?_, by rw [t2], by rw [t3]⟩) ?_
      · rw [eq, modBank_bank_ne _ _ n]
      · have nd : s.bm.designation ≠ some b := fun m => by
          have := x.held.mpr m
          rw [o] at this
          exact nomatch this
        rw [eq, modBank_bank_same, t2, t3]
        refine ⟨?_, ?_, ?_, ?_, ?_, ?_, ?_⟩
        · rw [e1]; exact ⟨nofun, fun m => absurd m g2⟩
        · rw [e1]; exact nofun
        · rw [e1]; exact ⟨nofun, fun m => absurd m nd⟩
        · rw [e2]; exact x.held
        · rw [e1]; exact nofun
        · rw [e2]; exact x.refill
        · rw [e2, e3]; exact x.unawaited
    | forced =>
      have o : (s.bank b).holder = .proof := x.held.mpr (x.forced.mp ⟨f, e, k⟩)
      have nr : s.bm.refillInFlight ≠ some b := fun m => by
        have := x.refill.mpr m
        rw [o] at this
        exact nomatch this
      have v := handing_of_verdict h b (f := g) g1 g2 nr
      refine handOn_agree (s := t.undesignate b) ⟨fun c n => ?_, ?_, ?_, undesignated_same _ _, ?_⟩
      · have := v.others c n
        unfold undesignate at this ⊢
        rw [modBm_bank_of rfl] at this ⊢
        rw [eq]
        show Bank.Agrees _ (if t.bm.designation = some b then none else t.bm.designation) t.bm.refillInFlight c
        rw [t2, t3]
        exact this
      · unfold undesignate
        rw [modBm_bank_of rfl, eq, modBank_bank_same]
        exact e1
      · unfold undesignate
        rw [modBm_bank_of rfl, eq, modBank_bank_same]
        exact g2
      · show t.bm.refillInFlight ≠ _
        rw [t3]
        exact nr
  have two : ∀ (f g : Bank → Bank), (s.modBank b f).modBank b g = s.modBank b (g ∘ f) := by
    intro f g
    unfold modBank
    simp
  unfold proofRunsOut
  dsimp only
  split
  · unfold failProof leaveRefillList endProof
    dsimp only
    rw [two]
    exact verdict _ ((fun x => { x with overdue := false }) ∘ fun x => { x with proofState := .suspect, proof := none })
      rfl rfl rfl rfl fun c => ProofState.noConfusion c
  · unfold passProof endProof
    dsimp only
    rw [two]
    exact verdict _ ((fun x => { x with overdue := false, provenAt := some s.site.siteTime }) ∘ fun x =>
      { x with proofState := .proven, proof := none }) rfl rfl rfl rfl fun c => ProofState.noConfusion c

theorem tellStale_bm (s : State) (b : BankId) : (s.tellStale b).bm = s.bm := by
  unfold tellStale
  split <;> rfl

theorem freshnessRunsOut_agree (h : BanksAgree s) : BanksAgree s.freshnessRunsOut := by
  have a : BanksAgree (s.modBm fun m => { m with freshness := .stale, freshnessTimer := none }) := modBm_agree h
  exact inOrder_keeps BanksAgree _ (fun b _ k => abandonAndFree_agree k b) _
    (inOrder_keeps BanksAgree _ (fun b t k => k.of_bm (tellStale_bm t b)) _ a.of_bm)

theorem yieldRunsOut_agree (h : BanksAgree s) : BanksAgree s.yieldRunsOut := by
  unfold yieldRunsOut
  split
  · rename_i b e; exact endRefill_agree h ((h.bank b).refill.mpr e) _
  · exact modBm_agree h

theorem completeRefill_agree (h : BanksAgree s) : BanksAgree s.completeRefill := by
  unfold completeRefill
  split
  · exact h
  · rename_i b e
    split
    · exact h
    · split
      · exact endRefill_agree h ((h.bank b).refill.mpr e) _
      · exact h

theorem reportConsequences_agree (h : BanksAgree s) : BanksAgree s.reportConsequences := by
  refine proofExaminations_agree (inOrder_keeps BanksAgree _ (fun b t k => ?_) _ (completeRefill_agree h))
  unfold listIfLow enterRefillList
  split
  · split
    · exact k
    · exact modBm_agree k
  · exact k

/-! ### A stop and a reset -/

/-- The records agree, were the wait queues empty: so while a stop or a reset takes the claims away. -/
def AgreeUnawaited (s : State) : Prop :=
  ∀ b, ({ s.bank b with queue := [] } : Bank).Agrees s.bm.designation s.bm.refillInFlight b

theorem agreeUnawaited_of (h : BanksAgree s) : s.AgreeUnawaited := fun b =>
  have x := h.bank b
  ⟨x.proving, x.before, x.forced, x.held, x.opportunistic, x.refill, fun _ => rfl⟩

theorem clearClaim_agree (h : s.AgreeUnawaited) (b : BankId) : (s.clearClaim b).AgreeUnawaited := by
  unfold clearClaim
  cases o : (s.bank b).holder with
  | free => exact h
  | refill => exact h
  | proof => exact h
  | position p =>
    intro c
    have e : ∀ d, (((s.snapshotRelease b p).forgetBank p).modBank b fun x => { x with holder := .free }).bank d
        = (s.modBank b fun x => { x with holder := .free }).bank d := fun _ => rfl
    show ({ (((s.snapshotRelease b p).forgetBank p).modBank b fun x => { x with holder := .free }).bank c with queue := [] }
      : Bank).Agrees s.bm.designation s.bm.refillInFlight c
    rw [e]
    by_cases k : c = b
    · have x := h b
      have n : (s.bank b).proof = none := x.no_proof (fun m => by rw [o] at m; exact nomatch m) (fun m => by
        have m : (s.bank b).holder = .proof := m
        rw [o] at m; exact nomatch m)
      rw [k, modBank_bank_same]
      refine ⟨x.proving, x.before, x.forced, ⟨nofun, fun m => ?_⟩, fun _ _ _ => rfl, ⟨nofun, fun m => ?_⟩, fun _ => rfl⟩
      · have : (s.bank b).holder = _ := x.held.mpr m
        rw [o] at this
        exact nomatch this
      · have : (s.bank b).holder = _ := x.refill.mpr m
        rw [o] at this
        exact nomatch this
    · rw [modBank_bank_ne _ _ k]
      exact h c

theorem agree_of_unawaited (h : s.AgreeUnawaited) (q : ∀ b, (s.bank b).queue = []) : BanksAgree s := by
  rw [banksAgree_iff]
  intro b
  have x := h b
  exact ⟨x.proving, x.before, x.forced, x.held, x.opportunistic, x.refill, fun _ => q b⟩

end State

end Sys2Proof.Machine
end

