-- ==== Sys2Proof/Laws/Coherence.lean ====
section
/-! SUPPORT. That a session's phase, claim and resume point agree with its state (`Session.Coherent`), after the
operations that bring its own session to a phase, to DELIVERING or to HELD. -/

namespace Sys2Proof.Machine

set_option Elab.async false

/-- A session that awaits neither a bank nor fresh data, and has no resume point. -/
structure Session.Ready (x : Session) : Prop where
  awaited : x.awaited = none
  fresh : x.awaitingFresh = false
  resume : x.resumePoint = none

namespace Session.Coherent

variable {x : Session}

/-- A session that is not selecting awaits nothing. -/
theorem awaits (h : x.Coherent) (n : x.phase ≠ some .claim) : x.awaited = none ∧ x.awaitingFresh = false := by
  refine ⟨?_, ?_⟩
  · cases e : x.awaited with
    | none => rfl
    | some b => exact absurd (h.selects (.inl (by rw [e]; rfl))) n
  · cases e : x.awaitingFresh with
    | false => rfl
    | true => exact absurd (h.selects (.inr e)) n

/-- A session that is not in HELD has no resume point. -/
theorem resume (h : x.Coherent) (n : x.state ≠ .held) : x.resumePoint = none := by
  cases e : x.resumePoint with
  | none => rfl
  | some f => exact absurd (h.resumes (by rw [e]; rfl)) n

/-- A session with a phase is CONNECTING. -/
theorem connecting (h : x.Coherent) {f : Phase} (e : x.phase = some f) : x.state = .connecting := h.phase.mp (by rw [e]; rfl)

/-- A session that is not CONNECTING has no phase. -/
theorem no_phase (h : x.Coherent) (n : x.state ≠ .connecting) : x.phase = none := by
  cases e : x.phase with
  | none => rfl
  | some f => exact absurd (h.connecting e) n

/-- A session in CLAIM has no resume point and holds no bank. -/
theorem claiming (h : x.Coherent) (e : x.phase = some .claim) : x.resumePoint = none ∧ x.bank = none := by
  refine ⟨h.resume (by rw [h.connecting e]; nofun), ?_⟩
  cases b : x.bank with
  | none => rfl
  | some c => exact absurd e (h.holds (by rw [b]; rfl)).1

/-- A session that stands in a phase other than CLAIM, or in no phase and not in HELD, is ready. -/
theorem ready (h : x.Coherent) (n : x.phase ≠ some .claim) (m : x.state ≠ .held) : x.Ready :=
  ⟨(h.awaits n).1, (h.awaits n).2, h.resume m⟩

/-- A session that is in OPENING, or does not run, holds no bank. -/
theorem no_bank (h : x.Coherent) (n : ¬(x.state = .connecting ∨ x.state = .delivering ∨ x.state = .held)) :
    x.bank = none := by
  cases b : x.bank with
  | none => rfl
  | some c => exact absurd (h.holds (by rw [b]; rfl)).2.2 n

/-! ### Sessions as the rules leave them -/

/-- CONNECTING, in a phase after CLAIM. -/
theorem of_phase {f : Phase} (s : x.state = .connecting) (p : x.phase = some f) (n : f ≠ .claim) (r : x.Ready) :
    x.Coherent where
  phase := by rw [p, s]; exact ⟨fun _ => rfl, fun _ => rfl⟩
  selects c := by rw [r.awaited, r.fresh] at c; exact c.elim nofun nofun
  holds _ := ⟨by rw [p]; exact fun c => n (Option.some.inj c), by rw [r.resume]; nofun, .inl s⟩
  resumes c := by rw [r.resume] at c; exact nomatch c

/-- CONNECTING, in CLAIM. -/
theorem of_claim (s : x.state = .connecting) (p : x.phase = some .claim) (b : x.bank = none) (r : x.resumePoint = none) :
    x.Coherent where
  phase := by rw [p, s]; exact ⟨fun _ => rfl, fun _ => rfl⟩
  selects _ := p
  holds c := by rw [b] at c; exact nomatch c
  resumes c := by rw [r] at c; exact nomatch c

/-- HELD. -/
theorem of_held (s : x.state = .held) (p : x.phase = none) (a : x.awaited = none) (w : x.awaitingFresh = false)
    (b : x.bank.isSome = true → x.resumePoint ≠ some .claim) : x.Coherent where
  phase := by rw [p, s]; exact ⟨nofun, nofun⟩
  selects c := by rw [a, w] at c; exact c.elim nofun nofun
  holds c := ⟨by rw [p]; nofun, b c, .inr (.inr s)⟩
  resumes _ := s

/-- DELIVERING. -/
theorem of_delivering (s : x.state = .delivering) (p : x.phase = none) (r : x.Ready) : x.Coherent where
  phase := by rw [p, s]; exact ⟨nofun, nofun⟩
  selects c := by rw [r.awaited, r.fresh] at c; exact c.elim nofun nofun
  holds _ := ⟨by rw [p]; nofun, by rw [r.resume]; nofun, .inr (.inl s)⟩
  resumes c := by rw [r.resume] at c; exact nomatch c

/-- In no phase, with no bank. -/
theorem of_still (s : x.state ≠ .connecting) (p : x.phase = none) (b : x.bank = none) (r : x.Ready) : x.Coherent where
  phase := by rw [p]; exact ⟨nofun, fun c => absurd c s⟩
  selects c := by rw [r.awaited, r.fresh] at c; exact c.elim nofun nofun
  holds c := by rw [b] at c; exact nomatch c
  resumes c := by rw [r.resume] at c; exact nomatch c

/-- A session without a bank is coherent where it was so with one. -/
theorem without_bank (h : x.Coherent) (y : Session) (s : y.state = x.state) (p : y.phase = x.phase) (b : y.bank = none)
    (a : y.awaited = x.awaited) (w : y.awaitingFresh = x.awaitingFresh) (r : y.resumePoint = x.resumePoint) :
    y.Coherent where
  phase := by rw [p, s]; exact h.phase
  selects c := by rw [a, w] at c; rw [p]; exact h.selects c
  holds c := by rw [b] at c; exact nomatch c
  resumes c := by rw [r] at c; rw [s]; exact h.resumes c

/-- A session that awaits no bank any more. -/
theorem unawaited (h : x.Coherent) (y : Session) (e : (y.state, y.phase, y.bank, y.awaitingFresh, y.resumePoint)
    = (x.state, x.phase, x.bank, x.awaitingFresh, x.resumePoint)) (a : y.awaited = none) : y.Coherent := by
  simp only [Prod.mk.injEq] at e
  obtain ⟨s, p, b, w, r⟩ := e
  refine ⟨by rw [p, s]; exact h.phase, fun c => ?_, fun c => ?_, fun c => ?_⟩
  · rw [a, w] at c
    rw [p]
    exact h.selects (.inr (c.resolve_left nofun))
  · rw [b] at c
    rw [p, r, s]
    exact h.holds c
  · rw [r] at c
    rw [s]
    exact h.resumes c

end Session.Coherent

namespace State

variable {s : State} {p : PosId}

/-! ### Operations on one session -/

theorem enterHeld_coherent (a : (s.session p).awaited = none) (w : (s.session p).awaitingFresh = false) {f : Option Phase}
    (b : (s.session p).bank.isSome = true → f ≠ some .claim) : ((s.enterHeld p f).session p).Coherent := by
  unfold enterHeld
  dsimp only
  unfold postSession
  dsimp only
  rw [post_session, modSession_session_same]
  exact .of_held rfl rfl a w b

theorem enterDelivering_coherent (r : (s.session p).Ready) : ((s.enterDelivering p).session p).Coherent := by
  unfold enterDelivering postSession capture
  dsimp only
  split
  · rw [post_session, modSession_session_same]
    exact .of_delivering rfl rfl ⟨r.awaited, r.fresh, r.resume⟩
  · rw [modSession_session_same, post_session, modSession_session_same]
    exact .of_delivering rfl rfl ⟨r.awaited, r.fresh, r.resume⟩

theorem connected_coherent (a : (s.session p).awaited = none) (w : (s.session p).awaitingFresh = false) :
    ((s.connected p).session p).Coherent := by
  unfold connected finishConnection
  dsimp only
  split
  · refine enterDelivering_coherent ?_
    rw [modSession_session_same]
    exact ⟨a, w, rfl⟩
  · refine enterHeld_coherent ?_ ?_ nofun
    · rw [modSession_session_same]; exact a
    · rw [modSession_session_same]; exact w

theorem beginLeakCheck_coherent (r : (s.session p).Ready) : ((s.beginLeakCheck p).session p).Coherent := by
  unfold beginLeakCheck
  dsimp only
  rw [modSession_session_same]
  exact .of_phase (f := .leakCheck) rfl rfl nofun ⟨r.awaited, r.fresh, r.resume⟩

theorem endConnect_coherent (r : (s.session p).Ready) : ((s.endConnect p).session p).Coherent := by
  unfold endConnect
  split
  · exact beginLeakCheck_coherent r
  · exact enterHeld_coherent r.awaited r.fresh fun _ => nofun

theorem beginConnect_coherent (r : (s.session p).Ready) : ((s.beginConnect p).session p).Coherent := by
  unfold beginConnect
  dsimp only
  split
  · refine endConnect_coherent ?_
    rw [modSession_session_same]
    exact ⟨r.awaited, r.fresh, r.resume⟩
  · rw [modSession_session_same]
    exact .of_phase (f := .connect) rfl rfl nofun ⟨r.awaited, r.fresh, r.resume⟩

theorem beginSettle_coherent (r : (s.session p).Ready) : ((s.beginSettle p).session p).Coherent := by
  unfold beginSettle
  dsimp only
  split
  · refine connected_coherent ?_ ?_
    · rw [modSession_session_same]; exact r.awaited
    · rw [modSession_session_same]; exact r.fresh
  · rw [modSession_session_same]
    exact .of_phase (f := .settle) rfl rfl nofun ⟨r.awaited, r.fresh, r.resume⟩

theorem phaseAfterClaim_ne (k : Option ConnKind) : phaseAfterClaim k ≠ .claim := by
  unfold phaseAfterClaim
  split <;> nofun

theorem endClaim_coherent (r : (s.session p).Ready) : ((s.endClaim p).session p).Coherent := by
  unfold endClaim
  dsimp only
  split
  · split
    · exact beginSettle_coherent r
    · exact beginConnect_coherent r
  · exact enterHeld_coherent r.awaited r.fresh fun _ c => phaseAfterClaim_ne _ (Option.some.inj c)

theorem claimGranted_coherent (b : BankId) (r : (s.session p).resumePoint = none) :
    ((s.claimGranted b p).session p).Coherent := by
  unfold claimGranted
  dsimp only
  refine endClaim_coherent ?_
  unfold snapshotClaim setFactor
  split
  · rw [modSession_session_same, modSession_session_same, modSession_session_same]
    exact ⟨rfl, rfl, r⟩
  · rw [modSession_session_same, modSession_session_same]
    exact ⟨rfl, rfl, r⟩

theorem enterClaim_coherent (b : (s.session p).bank = none) (r : (s.session p).resumePoint = none) :
    ((s.enterClaim p).session p).Coherent := by
  unfold enterClaim
  rw [modSession_session_same]
  exact .of_claim rfl rfl b r

end State

end Sys2Proof.Machine
end

