-- ==== Sys2Proof/Laws/Numbers.lean ====
section
/-! SUPPORT. That records stand in increasing order and a number and a place are left for every open session
(`Numbered`): through a START, a commit, and what changes neither the open sessions nor the counter. -/

namespace Sys2Proof.Machine

set_option Elab.async false

namespace State

variable {s t : State} {p : PosId}

/-! ### Open sessions -/

theorem openPositions_same (o : ∀ q, (t.session q).isOpen = (s.session q).isOpen) : t.openPositions = s.openPositions := by
  unfold openPositions
  exact List.filter_congr fun q _ => o q

/-- One session fewer is open. -/
theorem openPositions_less (o : (s.session p).isOpen = true) (n : (t.session p).isOpen = false)
    (k : ∀ q, q ≠ p → (t.session q).isOpen = (s.session q).isOpen) :
    t.openPositions.length + 1 = s.openPositions.length := by
  have nodup : s.openPositions.Nodup := List.Nodup.filter _ (by decide)
  have mem : p ∈ s.openPositions := List.mem_filter.mpr ⟨mem_fourIds p, o⟩
  have : t.openPositions = s.openPositions.erase p := by
    rw [nodup.erase_eq_filter]
    unfold openPositions
    rw [List.filter_filter]
    refine List.filter_congr fun q _ => ?_
    by_cases c : q = p
    · rw [c, n]; simp
    · rw [k q c]; simp [c]
  rw [this, List.length_erase_of_mem mem]
  have := List.length_pos_of_mem mem
  omega

end State

open State

variable {s t : State} {p : PosId}

theorem Numbered.of_same (h : Numbered s) (o : ∀ q, (t.session q).isOpen = (s.session q).isOpen)
    (r : t.sales.records.Sublist s.sales.records) (c : t.sales.counter = s.sales.counter) : Numbered t where
  increasing := h.increasing.sublist r
  below n v m := by
    rw [c] at n ⊢
    exact h.below n v (r.subset m)
  numbers := by
    unfold numbersLeft
    rw [openPositions_same o, c]
    exact h.numbers
  places := by
    rw [openPositions_same o]
    have := r.length_le
    have := h.places
    omega

/-- A START that finds room opens a session. -/
theorem Numbered.opens (h : Numbered s) (room : s.recordRoom = true) (o : (s.session p).isOpen = false)
    (n : (t.session p).isOpen = true) (k : ∀ q, q ≠ p → (t.session q).isOpen = (s.session q).isOpen)
    (r : t.sales.records = s.sales.records) (c : t.sales.counter = s.sales.counter) : Numbered t := by
  have l := openPositions_less (s := t) (t := s) (p := p) n o fun q e => (k q e).symm
  unfold recordRoom at room
  simp only [Bool.and_eq_true, decide_eq_true_eq, bne_iff_ne, ne_eq, Config.maxWord] at room
  obtain ⟨⟨a, z⟩, b⟩ := room
  have b := of_decide_eq_true b
  have le : s.openPositions.length ≤ 4 := by
    have := List.length_filter_le (fun q => (s.session q).isOpen) fourIds
    exact this
  refine ⟨by rw [r]; exact h.increasing, fun n v m => ?_, ?_, ?_⟩
  · rw [c] at n ⊢
    rw [r] at m
    exact h.below n v m
  · unfold numbersLeft
    rw [c, if_neg z]
    omega
  · rw [r]
    omega

/-- An open session is committed (R160). -/
theorem Numbered.commit (h : Numbered s) (o : (s.session p).isOpen = true) (n : (t.session p).isOpen = false)
    (k : ∀ q, q ≠ p → (t.session q).isOpen = (s.session q).isOpen) {v : SaleRecord}
    (r : t.sales.records = s.sales.records ++ [v]) (e : v.sequence = s.sales.counter)
    (c : t.sales.counter = nextCounter s.sales.counter) : Numbered t := by
  have l := openPositions_less o n k
  have nums := h.numbers
  have z : s.sales.counter ≠ 0 := fun z => by
    unfold numbersLeft at nums
    rw [if_pos z] at nums
    omega
  unfold numbersLeft at nums
  rw [if_neg z] at nums
  have le : s.sales.counter ≤ 4294967295 := by omega
  refine ⟨?_, fun n w m => ?_, ?_, ?_⟩
  · rw [r]
    refine List.pairwise_append.mpr ⟨h.increasing, List.pairwise_singleton _ _, fun a m b m' => ?_⟩
    rw [List.mem_singleton.mp m', e]
    exact h.below z a m
  · have nx : nextCounter s.sales.counter = s.sales.counter + 1 := by
      rw [c] at n
      unfold nextCounter at n ⊢
      split
      · rename_i x; rw [if_pos x] at n; exact absurd rfl n
      · rfl
    rw [c, nx]
    rw [r] at m
    rcases List.mem_append.mp m with m | m
    · exact (h.below z w m).trans (Nat.lt_succ_self _)
    · rw [List.mem_singleton.mp m, e]
      exact Nat.lt_succ_self _
  · unfold numbersLeft
    rw [c]
    unfold nextCounter Config.maxWord
    split
    · omega
    · split at * <;> omega
  · have := h.places
    rw [r, List.length_append, List.length_singleton]
    omega

end Sys2Proof.Machine
end

