-- ==== Sys2Proof/Laws/Linked.lean ====
section
/-! SUPPORT. That the queues, lists and registers agree with the session records (`Consistent`), through the operations
on banks and on one session. `Linked A x` is that agreement while the session of position x, if one is named, is just
being ended, with those of the further invariants that A names. -/

namespace Sys2Proof.Machine

set_option Elab.async false

/-- What of a session record `Consistent` speaks of. -/
def Session.link (x : Session) := (x.state, x.bank, x.awaited, x.awaitingFresh, x.finalMass)

/-- Which invariants are carried beside `Consistent`: that sessions are coherent, that records are numbered, and that the
Bank Manager's records agree; and what is not carried of it: the positions that are yet to join the close queue, and
whether the register is yet to be served. -/
structure Aspects where
  coherent : Prop
  numbered : Prop
  agreed : Prop
  unfiled : PosId → Prop := fun _ => False
  unserved : Prop := False

/-- Without the coherence of sessions. -/
abbrev Aspects.loose (A : Aspects) : Aspects := { A with coherent := False }

/-- Without the agreement of the Bank Manager's records. -/
abbrev Aspects.unbanked (A : Aspects) : Aspects := { A with agreed := False }

/-- While one more position is yet to join the close queue. -/
abbrev Aspects.unfiling (A : Aspects) (p : PosId) : Aspects := { A with unfiled := fun q => A.unfiled q ∨ q = p }

/-- While the register is yet to be served. -/
abbrev Aspects.unserving (A : Aspects) : Aspects := { A with unserved := True }

/-- While nothing is carried of the close queue and the register but that they hold what has ended. -/
abbrev Aspects.unshelved (A : Aspects) : Aspects := { A with unfiled := fun _ => True, unserved := True }

/-- None of them. -/
abbrev Aspects.none : Aspects := { coherent := False, numbered := False, agreed := False }

/-- The close queue and the register hold what they are to hold, but for what is not carried. -/
structure Shelved (A : Aspects) (s : State) : Prop where
  filed : ∀ p, ¬A.unfiled p → (s.session p).state = .ended → p ∈ s.sales.closeQueue
  closes : ¬A.unserved → ∀ p, s.sales.register = some p → (s.session p).state = .closing
  served : ¬A.unserved → s.sales.register = .none → s.sales.closeQueue = []

theorem Shelved.none (A : Aspects) (s : State) : Shelved A.unshelved s :=
  ⟨fun _ u => absurd trivial u, fun u => absurd trivial u, fun u => absurd trivial u⟩

theorem Shelved.of_states {A : Aspects} {s t : State} (h : Shelved A s)
    (e : ∀ p, (t.session p).state = .ended → (s.session p).state = .ended)
    (c : ∀ p, (s.session p).state = .closing → (t.session p).state = .closing)
    (q : t.sales.closeQueue = s.sales.closeQueue := by rfl) (r : t.sales.register = s.sales.register := by rfl) :
    Shelved A t :=
  ⟨fun p u k => q ▸ h.filed p u (e p k), fun u p k => c p (h.closes u p (r ▸ k)), fun u k => q.trans (h.served u (r ▸ k))⟩

theorem Shelved.of_same {A : Aspects} {s t : State} (h : Shelved A s) (e : ∀ p, (t.session p).state = (s.session p).state)
    (q : t.sales.closeQueue = s.sales.closeQueue := by rfl) (r : t.sales.register = s.sales.register := by rfl) :
    Shelved A t :=
  h.of_states (fun p k => (e p).symm.trans k) (fun p k => (e p).trans k) q r

/-- `Consistent`, with the further invariants named, but for a position whose session is just being ended. -/
structure Linked (A : Aspects) (x : Option PosId) (s : State) : Prop where
  queued : ∀ b p, p ∈ (s.bank b).queue ↔ (s.session p).awaited = some b
  held : ∀ b p, (s.bank b).holder = .position p ↔ (s.session p).bank = some b
  sole : ∀ p, (s.session p).bank = none ∨ (s.session p).awaited = none
  once : ∀ b, (s.bank b).queue.Nodup
  refill : ∀ b, s.bm.refillInFlight = some b → (s.bank b).holder = .refill
  forced : ∀ b f, (s.bank b).proof = some f → f.kind = .forced → (s.bank b).holder = .free ∨ (s.bank b).holder = .proof
  listed : s.cbu.positions.Nodup
  cooled : ∀ p ∈ s.cbu.positions, some p ≠ x → (s.session p).running = true
  away : ∀ p, (s.session p).running = false → (some p ≠ x → (s.session p).bank = none ∧ (s.session p).awaited = none)
    ∧ (s.session p).awaitingFresh = false
  closing : ∀ p ∈ s.sales.pendingSessions, (s.session p).state = .ended ∨ (s.session p).state = .closing
  closingOnce : s.sales.pendingSessions.Nodup
  massed : ∀ p, (s.session p).finalMass.isSome = true → (s.session p).state = .ended ∨ (s.session p).state = .closing
  registered : ∀ p, (s.session p).state = .closing → s.sales.register = some p
  coherent : A.coherent → ∀ p, some p ≠ x → (s.session p).Coherent
  numbered : A.numbered → Numbered s
  agreed : A.agreed → BanksAgree s
  shelved : Shelved A s

variable {A : Aspects}

theorem Linked.consistent {s : State} (h : Linked A none s) (f : ∀ p, ¬A.unfiled p := by exact fun _ => id)
    (u : ¬A.unserved := by exact id) : Consistent s :=
  ⟨h.queued, h.held, h.sole, h.once, h.refill, h.forced, h.listed, fun p m => h.cooled p m nofun,
    fun p r => ⟨((h.away p r).1 nofun).1, ((h.away p r).1 nofun).2, (h.away p r).2⟩, h.closing, h.closingOnce, h.massed, h.registered,
    fun p e => h.shelved.filed p (f p) e, h.shelved.closes u, h.shelved.served u⟩

theorem Consistent.linked {s : State} (h : Consistent s) (c : A.coherent → ∀ p, (s.session p).Coherent)
    (n : A.numbered → Numbered s) (g : A.agreed → BanksAgree s) : Linked A none s :=
  ⟨h.queued, h.held, h.sole, h.once, h.refill, h.forced, h.listed, fun p m _ => h.cooled p m,
    fun p r => ⟨fun _ => ⟨(h.away p r).1, (h.away p r).2.1⟩, (h.away p r).2.2⟩, h.closing, h.closingOnce, h.massed, h.registered,
    fun k p _ => c k p, n, g, ⟨fun p _ => h.filed p, fun _ => h.closes, fun _ => h.served⟩⟩

/-- `Consistent` alone. -/
theorem Consistent.bare {s : State} (h : Consistent s) : Linked .none none s := h.linked nofun nofun nofun

namespace Linked

variable {x : Option PosId} {s : State}

theorem loose (h : Linked A x s) : Linked A.loose x s :=
  { h with coherent := nofun, shelved := ⟨h.shelved.filed, h.shelved.closes, h.shelved.served⟩ }

theorem unbanked (h : Linked A x s) : Linked A.unbanked x s :=
  { h with agreed := nofun, shelved := ⟨h.shelved.filed, h.shelved.closes, h.shelved.served⟩ }

theorem withCoherent (h : Linked A.loose x s) (k : A.coherent → ∀ p, some p ≠ x → (s.session p).Coherent) :
    Linked A x s :=
  { h with coherent := k, shelved := ⟨h.shelved.filed, h.shelved.closes, h.shelved.served⟩ }

theorem withAgreed (h : Linked A.unbanked x s) (k : A.agreed → BanksAgree s) : Linked A x s :=
  { h with agreed := k, shelved := ⟨h.shelved.filed, h.shelved.closes, h.shelved.served⟩ }

/-- The agreement, with something else carried of the close queue and the register. -/
theorem reshelve {u : PosId → Prop} {v : Prop} (h : Linked A x s) (k : Shelved { A with unfiled := u, unserved := v } s) :
    Linked { A with unfiled := u, unserved := v } x s := { h with shelved := k }

theorem unshelved (h : Linked A x s) : Linked A.unshelved x s := h.reshelve (Shelved.none A s)

theorem unserving (h : Linked A x s) : Linked A.unserving x s :=
  h.reshelve ⟨h.shelved.filed, fun u => absurd trivial u, fun u => absurd trivial u⟩

/-- An operation on one session leaves it coherent, and every other as it was. -/
theorem phased {t : State} (h : Linked A x s) (l : Linked A.loose x t) {p : PosId}
    (o : ∀ q, q ≠ p → t.session q = s.session q) (k : A.coherent → some p ≠ x → (t.session p).Coherent) : Linked A x t :=
  l.withCoherent fun a q n => by
    by_cases c : q = p
    · exact c ▸ k a (c ▸ n)
    · rw [o q c]; exact h.coherent a q n

end Linked

/-! ### Links of one session -/

theorem Session.link_state {x y : Session} (h : y.link = x.link) : y.state = x.state := congrArg (·.1) h

theorem Session.link_bank {x y : Session} (h : y.link = x.link) : y.bank = x.bank := congrArg (·.2.1) h

theorem Session.link_awaited {x y : Session} (h : y.link = x.link) : y.awaited = x.awaited := congrArg (·.2.2.1) h

theorem Session.link_awaitingFresh {x y : Session} (h : y.link = x.link) : y.awaitingFresh = x.awaitingFresh :=
  congrArg (·.2.2.2.1) h

theorem Session.link_finalMass {x y : Session} (h : y.link = x.link) : y.finalMass = x.finalMass :=
  congrArg (·.2.2.2.2) h

theorem Session.link_running {x y : Session} (h : y.link = x.link) : y.running = x.running := by
  unfold Session.running
  rw [link_state h]

theorem Session.isOpen_of_state {x y : Session} (h : y.state = x.state) : y.isOpen = x.isOpen := by
  unfold Session.isOpen
  rw [h]

/-- A session that runs is open. -/
theorem Session.running_open {x : Session} (h : x.running = true) : x.isOpen = true := by
  unfold Session.running at h
  unfold Session.isOpen
  cases e : x.state <;> first | rfl | (rw [e] at h; exact nomatch h)

/-- A session that is ended or closing is open. -/
theorem Session.closed_open {x : Session} (h : x.state = .ended ∨ x.state = .closing) : x.isOpen = true := by
  unfold Session.isOpen
  rcases h with e | e <;> · rw [e]; rfl

/-- A session that runs is neither ended nor closing. -/
theorem Session.running_state {x : Session} (h : x.running = true) : ¬(x.state = .ended ∨ x.state = .closing) := by
  rintro (e | e) <;> · unfold Session.running at h; rw [e] at h; exact nomatch h

/-- A session that is ended or closing does not run. -/
theorem Session.closed_stops {x : Session} (h : x.state = .ended ∨ x.state = .closing) : x.running = false := by
  rcases h with e | e <;> · unfold Session.running; rw [e]

/-- An idle session does not run. -/
theorem Session.idle_stops {x : Session} (h : x.state = .idle) : x.running = false := by
  unfold Session.running
  rw [h]

namespace Linked

variable {x : Option PosId} {s t : State}

/-- What the relation reads is unchanged, or is less. -/
theorem of_same (h : Linked A x s) (q : ∀ b, (t.bank b).queue = (s.bank b).queue)
    (o : ∀ b, (t.bank b).holder = (s.bank b).holder)
    (f : ∀ b f, (t.bank b).proof = some f → f.kind = .forced → (t.bank b).holder = .free ∨ (t.bank b).holder = .proof)
    (r : ∀ b, t.bm.refillInFlight = some b → s.bm.refillInFlight = some b)
    (l : ∀ p, (t.session p).link = (s.session p).link) (c : t.cbu.positions.Perm s.cbu.positions)
    (u : t.sales.pendingSessions = s.sales.pendingSessions) (v : t.sales.register = s.sales.register)
    (k : A.coherent → ∀ p, some p ≠ x → (s.session p).Coherent → (t.session p).Coherent := by exact fun _ _ _ h => h)
    (w : t.sales.records.Sublist s.sales.records ∧ t.sales.counter = s.sales.counter := by
      exact ⟨List.Sublist.refl _, rfl⟩)
    (g : A.agreed → BanksAgree s → BanksAgree t := by exact fun _ h => BanksAgree.of_bm h rfl) : Linked A x t where
  queued b p := by rw [q, Session.link_awaited (l p)]; exact h.queued b p
  held b p := by rw [o, Session.link_bank (l p)]; exact h.held b p
  sole p := by rw [Session.link_awaited (l p), Session.link_bank (l p)]; exact h.sole p
  once b := by rw [q]; exact h.once b
  refill b e := by rw [o]; exact h.refill b (r b e)
  forced := f
  listed := c.nodup_iff.mpr h.listed
  cooled p m e := by rw [Session.link_running (l p)]; exact h.cooled p (c.mem_iff.mp m) e
  away p e := by
    rw [Session.link_running (l p)] at e
    rw [Session.link_awaited (l p), Session.link_bank (l p), Session.link_awaitingFresh (l p)]
    exact h.away p e
  closing p m := by rw [Session.link_state (l p)]; exact h.closing p (u ▸ m)
  closingOnce := by rw [u]; exact h.closingOnce
  massed p e := by
    rw [Session.link_finalMass (l p)] at e
    rw [Session.link_state (l p)]
    exact h.massed p e
  registered p e := by
    rw [Session.link_state (l p)] at e
    exact v.trans (h.registered p e)
  coherent a p n := k a p n (h.coherent a p n)
  numbered a := (h.numbered a).of_same (fun p => Session.isOpen_of_state (Session.link_state (l p))) w.1 w.2
  agreed a := g a (h.agreed a)
  shelved := h.shelved.of_same (fun p => Session.link_state (l p)) (by
    unfold SalesUnit.pendingSessions at u
    rw [v] at u
    exact List.append_cancel_left u) v

/-- A change of a session in what the relation does not read. -/
theorem session (h : Linked A x s) {p : PosId} {f : Session → Session}
    (e : (f (s.session p)).link = (s.session p).link := by rfl)
    (k : A.coherent → some p ≠ x → (s.session p).Coherent → (f (s.session p)).Coherent := by
      exact fun _ _ h => ⟨h.phase, h.selects, h.holds, h.resumes⟩) : Linked A x (s.modSession p f) :=
  h.of_same (fun _ => rfl) (fun _ => rfl) h.forced (fun _ => id)
    (fun q => by
      rw [State.modSession_session]
      split
      · rename_i c; rw [c]; exact e
      · rfl)
    (.refl _) rfl rfl (fun a q n y => by
      rw [State.modSession_session]
      split
      · rename_i c; exact k a (c ▸ n) (h.coherent a p (c ▸ n))
      · exact y)

/-- A session that runs goes to another state in which it runs. -/
theorem moves (h : Linked A x s) {p : PosId} {f : Session → Session} (r : (s.session p).running = true)
    (k : A.coherent → some p ≠ x → (f (s.session p)).Coherent)
    (r' : (f (s.session p)).running = true := by rfl)
    (e : ((f (s.session p)).bank, (f (s.session p)).awaited, (f (s.session p)).finalMass)
      = ((s.session p).bank, (s.session p).awaited, (s.session p).finalMass) := by rfl) : Linked A x (s.modSession p f) := by
  have e1 := congrArg (·.1) e
  have e2 := congrArg (·.2.1) e
  have e3 := congrArg (·.2.2) e
  have eq : ∀ q, q ≠ p → (s.modSession p f).session q = s.session q := fun q c => State.modSession_session_ne _ _ c
  have same : (s.modSession p f).session p = f (s.session p) := State.modSession_session_same _ _ _
  have ba : ∀ q, ((s.modSession p f).session q).bank = (s.session q).bank := fun q => by
    by_cases c : q = p
    · rw [c, same]; exact e1
    · rw [eq q c]
  have aw : ∀ q, ((s.modSession p f).session q).awaited = (s.session q).awaited := fun q => by
    by_cases c : q = p
    · rw [c, same]; exact e2
    · rw [eq q c]
  refine ⟨fun b q => ?_, fun b q => ?_, fun q => ?_, h.once, h.refill, h.forced, h.listed, fun q m n => ?_,
    fun q m => ?_, fun q m => ?_, h.closingOnce, fun q m => ?_, fun q m => ?_, fun a q n => ?_, fun a => ?_,
    fun a => (h.agreed a).of_bm, h.shelved.of_states (fun q m => ?_) fun q m => ?_⟩
  · rw [aw]; exact h.queued b q
  · rw [ba]; exact h.held b q
  · rw [aw, ba]; exact h.sole q
  · by_cases c : q = p
    · rw [c, same]; exact r'
    · rw [eq q c]; exact h.cooled q m n
  · by_cases c : q = p
    · rw [c, same, r'] at m; exact nomatch m
    · rw [eq q c] at m ⊢; exact h.away q m
  · by_cases c : q = p
    · exact absurd (h.closing q m) (by rw [c]; exact Session.running_state r)
    · rw [eq q c]; exact h.closing q m
  · by_cases c : q = p
    · rw [c, same] at m
      have m : (f (s.session p)).finalMass.isSome = true := m
      rw [show (f (s.session p)).finalMass = (s.session p).finalMass from e3] at m
      exact absurd (h.massed p m) (Session.running_state r)
    · rw [eq q c] at m ⊢; exact h.massed q m
  · by_cases c : q = p
    · rw [c, same] at m
      exact absurd (.inr m) (Session.running_state r')
    · rw [eq q c] at m; exact h.registered q m
  · by_cases c : q = p
    · rw [c, same]; exact k a (c ▸ n)
    · rw [eq q c]; exact h.coherent a q n
  · refine (h.numbered a).of_same (fun q => ?_) (.refl _) rfl
    by_cases c : q = p
    · rw [c, same, Session.running_open r, Session.running_open r']
    · rw [eq q c]
  · by_cases c : q = p
    · rw [c, same] at m
      exact absurd (.inl m) (Session.running_state r')
    · rw [eq q c] at m; exact m
  · by_cases c : q = p
    · rw [c] at m
      exact absurd (.inr m) (Session.running_state r)
    · rw [eq q c]; exact m

/-- A change of a bank record in neither its holder nor its queue. -/
theorem bank (h : Linked A x s) {b : BankId} {f : Bank → Bank}
    (q : (f (s.bank b)).queue = (s.bank b).queue := by rfl) (o : (f (s.bank b)).holder = (s.bank b).holder := by rfl)
    (c : ∀ g, (f (s.bank b)).proof = some g → g.kind = .forced → (s.bank b).holder = .free ∨ (s.bank b).holder = .proof)
    (g : A.agreed → BanksAgree s → BanksAgree (s.modBank b f) := by exact fun _ h => State.modBank_agree_same h) :
    Linked A x (s.modBank b f) := by
  refine h.of_same (fun d => ?_) (fun d => ?_) (fun d g m k => ?_) (fun _ => id) (fun _ => rfl) (.refl _) rfl rfl
    (g := g)
  · rw [State.modBank_bank]; split
    · rename_i e; rw [e]; exact q
    · rfl
  · rw [State.modBank_bank]; split
    · rename_i e; rw [e]; exact o
    · rfl
  · rw [State.modBank_bank] at m ⊢
    split at m
    · rename_i e
      rw [if_pos e, o]
      exact c g m k
    · rename_i e
      rw [if_neg e]
      exact h.forced d g m k

/-- A bank that neither a position nor the compressor holds becomes FREE or comes under PROOF. -/
theorem vacant (h : Linked A x s) (b : BankId) {o : Holder} (e : ∀ p, (s.bank b).holder ≠ .position p)
    (r : s.bm.refillInFlight ≠ some b) (k : o = .free ∨ o = .proof)
    (a : A.agreed → BanksAgree (s.modBank b fun y => { y with holder := o })) :
    Linked A x (s.modBank b fun y => { y with holder := o }) := by
  have eq : ∀ d, ((s.modBank b fun y => { y with holder := o }).bank d).queue = (s.bank d).queue := fun d => by
    rw [State.modBank_bank]; split
    · rename_i c; rw [c]
    · rfl
  refine ⟨fun d p => ?_, fun d p => ?_, h.sole, fun d => ?_, fun d r' => ?_, fun d f m g => ?_, h.listed, h.cooled,
    h.away, h.closing, h.closingOnce, h.massed, h.registered, h.coherent, fun k =>
      (h.numbered k).of_same (fun _ => rfl) (.refl _) rfl, a, h.shelved.of_same fun _ => rfl⟩
  · rw [eq]; exact h.queued d p
  · rw [State.modBank_bank]
    split
    · rename_i c
      rw [c]
      refine ⟨fun m => ?_, fun m => absurd ((h.held b p).mpr m) (e p)⟩
      rcases k with k | k <;> · rw [k] at m; exact nomatch m
    · exact h.held d p
  · rw [eq]; exact h.once d
  · rw [State.modBank_bank]
    split
    · rename_i c
      exact absurd (c ▸ r') r
    · exact h.refill d r'
  · rw [State.modBank_bank] at m ⊢
    split at m
    · rename_i c
      rw [if_pos c]
      exact k
    · rename_i c
      rw [if_neg c]
      exact h.forced d f m g

/-- A bank that is FREE or held by PROOF is given to neither a position nor the compressor. -/
theorem unheld (h : Linked A x s) {b : BankId} (e : (s.bank b).holder = .free ∨ (s.bank b).holder = .proof) :
    (∀ p, (s.bank b).holder ≠ .position p) ∧ s.bm.refillInFlight ≠ some b := by
  refine ⟨fun p k => ?_, fun k => ?_⟩
  · rw [k] at e
    rcases e with e | e <;> exact nomatch e
  · have := h.refill b k
    rw [this] at e
    rcases e with e | e <;> exact nomatch e

/-- A bank that is FREE or held by PROOF becomes one of the two. -/
theorem reheld (h : Linked A x s) (b : BankId) {o : Holder} (e : (s.bank b).holder = .free ∨ (s.bank b).holder = .proof)
    (k : o = .free ∨ o = .proof) (a : A.agreed → BanksAgree (s.modBank b fun y => { y with holder := o })) :
    Linked A x (s.modBank b fun y => { y with holder := o }) :=
  h.vacant b (h.unheld e).1 (h.unheld e).2 k a

/-- A change of what the Bank Manager holds beside the four records. -/
theorem bm (h : Linked A x s) {f : BankManager → BankManager} (e : (f s.bm).banks = s.bm.banks := by rfl)
    (r : ∀ b, (f s.bm).refillInFlight = some b → s.bm.refillInFlight = some b := by exact fun _ h => h)
    (g : A.agreed → BanksAgree s → BanksAgree (s.modBm f) := by exact fun _ h => State.modBm_agree h) :
    Linked A x (s.modBm f) := by
  have eq : ∀ b, (s.modBm f).bank b = s.bank b := fun b => by rw [State.modBm_bank, e]; rfl
  exact h.of_same (fun b => by rw [eq]) (fun b => by rw [eq]) (fun b => by rw [eq]; exact h.forced b) r (fun _ => rfl)
    (.refl _) rfl rfl (g := g)

theorem monitor (h : Linked A x s) {p : PosId} {f : Monitor → Monitor} : Linked A x (s.modMonitor p f) :=
  h.of_same (fun _ => rfl) (fun _ => rfl) h.forced (fun _ => id) (fun _ => rfl) (.refl _) rfl rfl

theorem site (h : Linked A x s) {f : SiteControl → SiteControl} : Linked A x (s.modSite f) :=
  h.of_same (fun _ => rfl) (fun _ => rfl) h.forced (fun _ => id) (fun _ => rfl) (.refl _) rfl rfl

theorem posted (h : Linked A x s) {n : Notice} : Linked A x (s.post n) :=
  h.of_same (fun _ => rfl) (fun _ => rfl) h.forced (fun _ => id) (fun _ => rfl) (.refl _) rfl rfl

theorem cbu (h : Linked A x s) {f : CoolingUnit → CoolingUnit} (c : (f s.cbu).positions.Perm s.cbu.positions) :
    Linked A x (s.modCbu f) :=
  h.of_same (fun _ => rfl) (fun _ => rfl) h.forced (fun _ => id) (fun _ => rfl) c rfl rfl

theorem sales (h : Linked A x s) {f : SalesUnit → SalesUnit}
    (c : (f s.sales).pendingSessions = s.sales.pendingSessions := by rfl)
    (v : (f s.sales).register = s.sales.register := by rfl)
    (w : (f s.sales).records.Sublist s.sales.records ∧ (f s.sales).counter = s.sales.counter := by
      exact ⟨List.Sublist.refl _, rfl⟩) : Linked A x (s.modSales f) :=
  h.of_same (fun _ => rfl) (fun _ => rfl) h.forced (fun _ => id) (fun _ => rfl) (.refl _) c v (w := w)

theorem ite {c : Prop} [Decidable c] (h : c → Linked A x s) (k : ¬c → Linked A x t) : Linked A x (if c then s else t) := by
  split
  · exact h ‹_›
  · exact k ‹_›

/-- A session that stands in a wait queue or holds a bank runs, unless it is just being ended. -/
theorem runs_awaited (h : Linked A x s) {p : PosId} {b : BankId} (e : (s.session p).awaited = some b) (n : some p ≠ x) :
    (s.session p).running = true := by
  by_contra r
  have := ((h.away p (Bool.eq_false_iff.mpr r)).1 n).2
  rw [e] at this
  exact nomatch this

theorem runs_fresh (h : Linked A x s) {p : PosId} (e : (s.session p).awaitingFresh = true) : (s.session p).running = true := by
  by_contra r
  have := (h.away p (Bool.eq_false_iff.mpr r)).2
  rw [e] at this
  exact nomatch this

end Linked

namespace State

variable {x : Option PosId}

/-! ### Proofs -/

theorem designate_linked {s : State} (h : Linked A.unbanked x s) (b : BankId) (e : (s.bank b).holder = .free) :
    Linked A.unbanked x (s.designate b) := (h.reheld b (.inl e) (.inr rfl) nofun).bm (g := nofun)

theorem beginProof_linked {s : State} (h : Linked A.unbanked x s) (b : BankId) (k : ProofKind)
    (e : (s.bank b).holder = .free) : Linked A.unbanked x (s.beginProof b k) :=
  h.bank (c := fun _ _ _ => .inl e) (g := nofun)

theorem beginProof_holder (s : State) (b c : BankId) (k : ProofKind) :
    ((s.beginProof b k).bank c).holder = (s.bank c).holder := by
  unfold beginProof
  rw [modBank_bank]
  split
  · rename_i e; rw [e]
  · rfl

theorem forceProof_linked {s : State} (h : Linked A.unbanked x s) (b : BankId) (e : (s.bank b).holder = .free) :
    Linked A.unbanked x (s.forceProof b) := h.bank (c := fun _ _ _ => .inl e) (g := nofun)

theorem forceProof_holder (s : State) (b : BankId) : ((s.forceProof b).bank b).holder = (s.bank b).holder := by
  unfold forceProof
  rw [modBank_bank_same]

theorem forcedExamination_linked {s : State} (h : Linked A x s) : Linked A x s.forcedExamination := by
  refine Linked.withAgreed ?_ fun a => forcedExamination_agree (h.agreed a)
  have h := h.unbanked
  unfold forcedExamination
  refine .ite (fun _ => ?_) fun _ => h
  split
  · exact h
  · rename_i b _
    refine .ite (fun e => .ite (fun _ => ?_) fun _ => ?_) fun _ => h
    · exact designate_linked (forceProof_linked h b e) b ((forceProof_holder s b).trans e)
    · exact designate_linked (beginProof_linked h b _ e) b ((beginProof_holder s b b _).trans e)

theorem opportunisticExamination_linked {s : State} (h : Linked A x s) (b : BankId) :
    Linked A x (s.opportunisticExamination b) :=
  Linked.withAgreed (.ite (fun e => beginProof_linked h.unbanked b _ e.2.2.1) fun _ => h.unbanked) fun a =>
    opportunisticExamination_agree (h.agreed a) b

theorem becameFree_linked {s : State} (h : Linked A x s) (b : BankId) : Linked A x (s.becameFree b) :=
  opportunisticExamination_linked (forcedExamination_linked h) b

theorem proofExaminations_linked {s : State} (h : Linked A x s) : Linked A x s.proofExaminations :=
  inOrder_keeps (Linked A x) _ (fun b _ k => opportunisticExamination_linked k b) _ (forcedExamination_linked h)

theorem endProof_linked {s : State} (h : Linked A.unbanked x s) (b : BankId) (a : ProofState) :
    Linked A.unbanked x (s.endProof b a) :=
  h.bank (c := nofun) (g := nofun)

theorem abandonProof_linked {s : State} (h : Linked A.unbanked x s) (b : BankId) :
    Linked A.unbanked x (s.abandonProof b) := by
  unfold abandonProof
  split
  · exact h
  · exact (endProof_linked h b _).bm (g := nofun)

theorem abandonAndFree_linked {s : State} (h : Linked A x s) (b : BankId) : Linked A x (s.abandonAndFree b) :=
  Linked.withAgreed (.ite (fun e => (abandonProof_linked h.unbanked b).reheld b (.inr e) (.inl rfl) nofun) fun _ =>
    abandonProof_linked h.unbanked b) fun a => abandonAndFree_agree (h.agreed a) b

theorem overdueTestOf_linked {s : State} (h : Linked A x s) (b : BankId) : Linked A x (s.overdueTestOf b) := by
  unfold overdueTestOf
  exact .ite (fun _ => .ite (fun _ => forcedExamination_linked h) fun _ =>
    forcedExamination_linked (Linked.posted (h.bank (c := h.forced b)))) fun _ => h.bank (c := h.forced b)

theorem overdueTest_linked {s : State} (h : Linked A x s) : Linked A x s.overdueTest :=
  .ite (fun _ => h) fun _ => inOrder_keeps (Linked A x) _ (fun b _ k => overdueTestOf_linked k b) _ h

end State

end Sys2Proof.Machine
end

