-- ==== Sys2Proof/Laws/LinkedClaims.lean ====
section
/-! SUPPORT. That the queues, lists and registers agree with the session records, through the phases of a connection and
the claims of banks. -/

namespace Sys2Proof.Machine

set_option Elab.async false

/-! ### A claim is granted -/

/-- What a bank that may be given to a position is: held by no position and not by the compressor. -/
structure Givable (s : State) (b : BankId) : Prop where
  holder : ∀ p, (s.bank b).holder ≠ .position p
  refill : s.bm.refillInFlight ≠ some b
  proof : ∀ f, (s.bank b).proof = some f → f.kind ≠ .forced

namespace Linked

variable {A : Aspects} {x : Option PosId} {s : State}

/-- A position that holds no bank, and awaits none but this one, takes a bank. -/
theorem hold (h : Linked A.loose x s) {b : BankId} {p : PosId} {q : List PosId} {f : Session → Session} (g : Givable s b)
    (r : (s.session p).running = true) (n : (s.session p).bank = none)
    (a : ∀ c, (s.session p).awaited = some c → c = b) (m : ∀ z, z ∈ q ↔ z ∈ (s.bank b).queue ∧ z ≠ p) (d : q.Nodup)
    (e : (f (s.session p)).link = ((s.session p).state, some b, none, false, (s.session p).finalMass))
    (ba : A.agreed → BanksAgree (s.modBank b fun y => { y with holder := .position p, queue := q })) :
    Linked A.loose x ((s.modBank b fun y => { y with holder := .position p, queue := q }).modSession p f) := by
  have fs : (f (s.session p)).state = (s.session p).state := congrArg (·.1) e
  have fb : (f (s.session p)).bank = some b := congrArg (·.2.1) e
  have fa : (f (s.session p)).awaited = none := congrArg (·.2.2.1) e
  have fr : (f (s.session p)).running = true := by
    have : (f (s.session p)).running = (s.session p).running := by unfold Session.running; rw [fs]
    rw [this]; exact r
  have same : ((s.modBank b fun y => { y with holder := .position p, queue := q }).modSession p f).session p
      = f (s.session p) := State.modSession_session_same _ _ _
  have other : ∀ z, z ≠ p → ((s.modBank b fun y => { y with holder := .position p, queue := q }).modSession p f).session z
      = s.session z := fun z c => State.modSession_session_ne _ _ c
  have bank : ∀ c, ((s.modBank b fun y => { y with holder := .position p, queue := q }).modSession p f).bank c
      = if c = b then { s.bank b with holder := .position p, queue := q } else s.bank c := fun c =>
    State.modBank_bank s b c fun y => { y with holder := .position p, queue := q }
  have free : ∀ c, (s.bank c).holder ≠ .position p := fun c k => by
    have := (h.held c p).mp k
    rw [n] at this
    exact nomatch this
  refine ⟨fun c z => ?_, fun c z => ?_, fun z => ?_, fun c => ?_, fun c k => ?_, fun c f k l => ?_, h.listed,
    fun z k l => ?_, fun z k => ?_, fun z k => ?_, h.closingOnce, fun z k => ?_, fun z k => ?_, nofun, fun k => ?_,
    fun k => (ba k).of_bm, h.shelved.of_same fun z => ?_⟩
  · rw [bank]
    by_cases cb : c = b
    · rw [if_pos cb]
      by_cases zp : z = p
      · rw [zp, same, fa]
        exact ⟨fun k => absurd rfl ((m p).mp k).2, nofun⟩
      · rw [other z zp, ← h.queued, cb]
        exact ⟨fun k => ((m z).mp k).1, fun k => (m z).mpr ⟨k, zp⟩⟩
    · rw [if_neg cb]
      by_cases zp : z = p
      · rw [zp, same, fa]
        refine ⟨fun k => absurd (a c ((h.queued c p).mp k)) cb, nofun⟩
      · rw [other z zp]
        exact h.queued c z
  · rw [bank]
    by_cases cb : c = b
    · rw [if_pos cb]
      by_cases zp : z = p
      · rw [zp, same, fb, cb]
        exact ⟨fun _ => rfl, fun _ => rfl⟩
      · rw [other z zp]
        refine ⟨fun k => ?_, fun k => ?_⟩
        · injection k with k
          exact absurd k.symm zp
        · exact absurd ((h.held c z).mpr k) (cb ▸ g.holder z)
    · rw [if_neg cb]
      by_cases zp : z = p
      · rw [zp, same, fb]
        refine ⟨fun k => absurd k (free c), fun k => ?_⟩
        injection k with k
        exact absurd k.symm cb
      · rw [other z zp]
        exact h.held c z
  · by_cases zp : z = p
    · rw [zp, same]; exact .inr fa
    · rw [other z zp]; exact h.sole z
  · rw [bank]; split
    · exact d
    · exact h.once c
  · rw [bank]
    have k : s.bm.refillInFlight = some c := k
    by_cases cb : c = b
    · exact absurd (cb ▸ k) g.refill
    · rw [if_neg cb]; exact h.refill c k
  · rw [bank] at k ⊢
    by_cases cb : c = b
    · rw [if_pos cb] at k
      exact absurd l (g.proof f k)
    · rw [if_neg cb] at k ⊢
      exact h.forced c f k l
  · by_cases zp : z = p
    · rw [zp, same]; exact fr
    · rw [other z zp]; exact h.cooled z k l
  · by_cases zp : z = p
    · rw [zp, same, fr] at k; exact nomatch k
    · rw [other z zp] at k ⊢; exact h.away z k
  · by_cases zp : z = p
    · exact absurd (h.closing z k) (by rw [zp]; exact Session.running_state r)
    · rw [other z zp]; exact h.closing z k
  · by_cases zp : z = p
    · rw [zp, same] at k ⊢
      rw [show (f (s.session p)).finalMass = (s.session p).finalMass from congrArg (·.2.2.2.2) e] at k
      rw [fs]
      exact h.massed p k
    · rw [other z zp] at k ⊢; exact h.massed z k
  · by_cases zp : z = p
    · rw [zp, same] at k
      exact absurd (.inr k) (Session.running_state fr)
    · rw [other z zp] at k; exact h.registered z k
  · refine (h.numbered k).of_same (fun z => ?_) (.refl _) rfl
    by_cases zp : z = p
    · rw [zp, same]; exact Session.isOpen_of_state fs
    · rw [other z zp]
  · by_cases zp : z = p
    · rw [zp, same]; exact fs
    · rw [other z zp]

end Linked

namespace State

variable {A : Aspects} {x : Option PosId} {s : State} {p : PosId}

/-! ### Phases -/

theorem setFactor_linked (h : Linked A x s) (p : PosId) (f : Factor) : Linked A x (s.setFactor p f) := h.session

theorem postSession_linked (h : Linked A x s) (p : PosId) : Linked A x (s.postSession p) := h.posted

theorem capture_linked (h : Linked A x s) (p : PosId) : Linked A x (s.capture p) := by
  unfold capture
  split
  · exact h
  · exact h.session

section Runs

variable (h : Linked A.loose x s) (r : (s.session p).running = true)

include h r

theorem enterHeld_loose (f : Option Phase) : Linked A.loose x (s.enterHeld p f) := (h.moves r nofun).posted

theorem enterDelivering_loose : Linked A.loose x (s.enterDelivering p) := by
  unfold enterDelivering
  exact capture_linked (Linked.posted (h.moves r nofun)) _

theorem connected_loose : Linked A.loose x (s.connected p) := by
  have k : Linked A.loose x (s.finishConnection p) := h.session (k := nofun)
  have r' : ((s.finishConnection p).session p).running = true := by
    unfold finishConnection
    rw [modSession_session_same]
    exact r
  exact .ite (fun _ => enterDelivering_loose k r') fun _ => enterHeld_loose k r' _

theorem beginLeakCheck_loose : Linked A.loose x (s.beginLeakCheck p) := by
  unfold beginLeakCheck
  exact h.moves r nofun

theorem endConnect_loose : Linked A.loose x (s.endConnect p) :=
  .ite (fun _ => beginLeakCheck_loose h r) fun _ => enterHeld_loose h r _

theorem beginConnect_loose : Linked A.loose x (s.beginConnect p) := by
  unfold beginConnect
  refine .ite (fun _ => endConnect_loose (h.moves r nofun) ?_) fun _ => h.moves r nofun
  rw [modSession_session_same]
  rfl

theorem beginSettle_loose : Linked A.loose x (s.beginSettle p) := by
  unfold beginSettle
  refine .ite (fun _ => connected_loose (h.moves r nofun) ?_) fun _ => h.moves r nofun
  rw [modSession_session_same]
  rfl

theorem enterClaim_loose : Linked A.loose x (s.enterClaim p) := h.moves r nofun

theorem endClaim_loose : Linked A.loose x (s.endClaim p) :=
  .ite (fun _ => .ite (fun _ => beginSettle_loose h r) fun _ => beginConnect_loose h r) fun _ =>
    enterHeld_loose h r _

end Runs

/-! ### Sessions that run go on running -/

/-- Every session that runs goes on running. -/
def GoesOn (s t : State) : Prop := ∀ q, (s.session q).running = true → (t.session q).running = true

theorem GoesOn.refl (s : State) : GoesOn s s := fun _ => id

theorem GoesOn.trans {s t u : State} (h : GoesOn s t) (k : GoesOn t u) : GoesOn s u := fun q => k q ∘ h q

theorem GoesOn.ite {c : Prop} [Decidable c] {s t u : State} (h : c → GoesOn s t) (k : ¬c → GoesOn s u) :
    GoesOn s (if c then t else u) := by
  split
  · exact h ‹_›
  · exact k ‹_›

theorem GoesOn.session {s t : State} {p : PosId} {f : Session → Session} (k : GoesOn s t)
    (h : (t.session p).running = true → (f (t.session p)).running = true := by exact fun h => h) :
    GoesOn s (t.modSession p f) := k.trans fun q r => by
  rw [modSession_session]
  split
  · rename_i e
    exact h (e ▸ r)
  · exact r

theorem GoesOn.bank {s t : State} {b : BankId} {f : Bank → Bank} (k : GoesOn s t) : GoesOn s (t.modBank b f) := k

theorem GoesOn.bm {s t : State} {f : BankManager → BankManager} (k : GoesOn s t) : GoesOn s (t.modBm f) := k

theorem GoesOn.posted {s t : State} {n : Notice} (k : GoesOn s t) : GoesOn s (t.post n) := k

theorem enterHeld_goesOn (s : State) (p : PosId) (f : Option Phase) : GoesOn s (s.enterHeld p f) :=
  GoesOn.posted ((GoesOn.refl s).session (p := p) (f := fun y => { y.quiet with
    state := .held
    resumePoint := f
    heldBefore := y.heldTime
    keepTimer := if y.bank.isSome then some s.config.bankKeepInterval else none }) fun _ => rfl)

theorem postSession_goesOn (s : State) (p : PosId) : GoesOn s (s.postSession p) := fun _ => id

theorem capture_goesOn (s : State) (p : PosId) : GoesOn s (s.capture p) := by
  unfold capture
  split
  · exact .refl _
  · exact (GoesOn.refl _).session

theorem enterDelivering_goesOn (s : State) (p : PosId) : GoesOn s (s.enterDelivering p) := by
  unfold enterDelivering
  have k : GoesOn s (s.modSession p fun y => { y.quiet with
      state := .delivering, flowCeiling := s.rampCeiling p, segmentTimer := some (s.profileOf p).segmentLength }) :=
    (GoesOn.refl s).session fun _ => rfl
  exact (k.trans (postSession_goesOn _ p)).trans (capture_goesOn _ _)

theorem connected_goesOn (s : State) (p : PosId) : GoesOn s (s.connected p) :=
  ((GoesOn.refl s).session).trans (.ite (fun _ => enterDelivering_goesOn _ _) fun _ => enterHeld_goesOn _ _ _)

theorem beginLeakCheck_goesOn (s : State) (p : PosId) : GoesOn s (s.beginLeakCheck p) := by
  unfold beginLeakCheck
  exact (GoesOn.refl s).session fun _ => rfl

theorem endConnect_goesOn (s : State) (p : PosId) : GoesOn s (s.endConnect p) :=
  .ite (fun _ => beginLeakCheck_goesOn _ _) fun _ => enterHeld_goesOn _ _ _

theorem beginConnect_goesOn (s : State) (p : PosId) : GoesOn s (s.beginConnect p) := by
  unfold beginConnect
  exact .ite (fun _ => ((GoesOn.refl s).session fun _ => rfl).trans (endConnect_goesOn _ _)) fun _ =>
    (GoesOn.refl s).session fun _ => rfl

theorem beginSettle_goesOn (s : State) (p : PosId) : GoesOn s (s.beginSettle p) := by
  unfold beginSettle
  exact .ite (fun _ => ((GoesOn.refl s).session fun _ => rfl).trans (connected_goesOn _ _)) fun _ =>
    (GoesOn.refl s).session fun _ => rfl

theorem endClaim_goesOn (s : State) (p : PosId) : GoesOn s (s.endClaim p) :=
  .ite (fun _ => .ite (fun _ => beginSettle_goesOn _ _) fun _ => beginConnect_goesOn _ _) fun _ => enterHeld_goesOn _ _ _

theorem claimGranted_goesOn (s : State) (b : BankId) (p : PosId) : GoesOn s (s.claimGranted b p) := by
  unfold claimGranted
  have k : GoesOn s (s.snapshotClaim b p) := by
    unfold snapshotClaim
    exact (GoesOn.refl s).session
  refine ((k.session (f := fun x => x.holdBank b)).trans (.ite (fun _ => ?_) fun _ => .refl _)).trans (endClaim_goesOn _ _)
  exact (GoesOn.refl _).session

theorem forcedExamination_goesOn (s : State) : GoesOn s s.forcedExamination := fun q r => by
  rw [show s.forcedExamination.session q = s.session q by
    unfold forcedExamination; split <;> [split; rfl] <;> [rfl; split] <;> [split; rfl] <;> rfl]
  exact r

theorem becameFree_goesOn (s : State) (b : BankId) : GoesOn s (s.becameFree b) :=
  (forcedExamination_goesOn s).trans (.ite (fun _ => .refl _) fun _ => .refl _)

theorem handOff_goesOn (s : State) (b : BankId) : GoesOn s (s.handOff b) := by
  unfold handOff
  split
  · exact .refl s
  · exact (GoesOn.refl s).bank.trans (claimGranted_goesOn _ _ _)

theorem handOn_goesOn (s : State) (b : BankId) : GoesOn s (s.handOn b) :=
  (handOff_goesOn s b).trans (.ite (fun _ => becameFree_goesOn _ _) fun _ => .refl _)

theorem releaseClaim_goesOn (s : State) (p : PosId) : GoesOn s (s.releaseClaim p) := by
  unfold releaseClaim
  split
  · exact .refl s
  · refine .ite (fun _ => ?_) fun _ => (GoesOn.refl s).session
    refine GoesOn.trans ?_ (handOn_goesOn _ _)
    unfold snapshotRelease
    exact ((GoesOn.refl s).session).session

theorem settleYield_goesOn (s : State) : GoesOn s s.settleYield := by
  unfold settleYield
  split
  · exact .ite (fun _ => .refl _) fun _ => .refl _
  · exact .refl _

theorem leaveQueue_goesOn (s : State) (p : PosId) : GoesOn s (s.leaveQueue p) := by
  unfold leaveQueue
  split
  · exact .refl s
  · exact ((GoesOn.refl s).bank.session).trans (settleYield_goesOn _)

/-! ### Sessions that are not reached -/

/-- The session of a position, the Cooling Budget Unit and the Sales Unit are left as they were. -/
structure Spares (p : PosId) (s t : State) : Prop where
  session_eq : t.session p = s.session p
  cbu : t.cbu = s.cbu
  sales : t.sales = s.sales

theorem Spares.refl (p : PosId) (s : State) : Spares p s s := ⟨rfl, rfl, rfl⟩

theorem Spares.trans {p : PosId} {s t u : State} (h : Spares p s t) (k : Spares p t u) : Spares p s u :=
  ⟨k.1.trans h.1, k.2.trans h.2, k.3.trans h.3⟩

theorem Spares.session {p q : PosId} {s t : State} {f : Session → Session} (k : Spares p s t) (h : q ≠ p) :
    Spares p s (t.modSession q f) := ⟨(modSession_session_ne _ _ h.symm).trans k.1, k.2, k.3⟩

theorem Spares.posted {p : PosId} {s t : State} {n : Notice} (k : Spares p s t) : Spares p s (t.post n) := ⟨k.1, k.2, k.3⟩

theorem Spares.bank {p : PosId} {s t : State} {b : BankId} {f : Bank → Bank} (k : Spares p s t) :
    Spares p s (t.modBank b f) := ⟨k.1, k.2, k.3⟩

theorem Spares.bm {p : PosId} {s t : State} {f : BankManager → BankManager} (k : Spares p s t) :
    Spares p s (t.modBm f) := ⟨k.1, k.2, k.3⟩

theorem Spares.ite {p : PosId} {c : Prop} [Decidable c] {s t u : State} (h : c → Spares p s t) (k : ¬c → Spares p s u) :
    Spares p s (if c then t else u) := by
  split
  · exact h ‹_›
  · exact k ‹_›

section Other

variable {p q : PosId} (n : q ≠ p)

include n

theorem capture_spares (s : State) : Spares p s (s.capture q) := by
  unfold capture
  split
  · exact .refl _ _
  · exact (Spares.refl _ _).session n

theorem enterHeld_spares (s : State) (f : Option Phase) : Spares p s (s.enterHeld q f) :=
  ((Spares.refl p s).session n).posted

theorem enterDelivering_spares (s : State) : Spares p s (s.enterDelivering q) := by
  unfold enterDelivering
  exact (((Spares.refl p s).session n).posted).trans (capture_spares n _)

theorem connected_spares (s : State) : Spares p s (s.connected q) :=
  ((Spares.refl p s).session n).trans
    (.ite (fun _ => enterDelivering_spares n _) fun _ => enterHeld_spares n _ _)

theorem beginLeakCheck_spares (s : State) : Spares p s (s.beginLeakCheck q) := by
  unfold beginLeakCheck
  exact (Spares.refl p s).session n

theorem endConnect_spares (s : State) : Spares p s (s.endConnect q) :=
  .ite (fun _ => beginLeakCheck_spares n _) fun _ => enterHeld_spares n _ _

theorem beginConnect_spares (s : State) : Spares p s (s.beginConnect q) := by
  unfold beginConnect
  exact .ite (fun _ => ((Spares.refl p s).session n).trans (endConnect_spares n _)) fun _ => (Spares.refl p s).session n

theorem beginSettle_spares (s : State) : Spares p s (s.beginSettle q) := by
  unfold beginSettle
  exact .ite (fun _ => ((Spares.refl p s).session n).trans (connected_spares n _)) fun _ => (Spares.refl p s).session n

theorem endClaim_spares (s : State) : Spares p s (s.endClaim q) :=
  .ite (fun _ => .ite (fun _ => beginSettle_spares n _) fun _ => beginConnect_spares n _) fun _ =>
    enterHeld_spares n _ _

theorem claimGranted_spares (s : State) (b : BankId) : Spares p s (s.claimGranted b q) := by
  unfold claimGranted snapshotClaim
  exact ((((Spares.refl p s).session n).session n).trans
    (.ite (fun _ => (Spares.refl p _).session n) fun _ => .refl _ _)).trans (endClaim_spares n _)

end Other

theorem forcedExamination_spares (p : PosId) (s : State) : Spares p s s.forcedExamination := by
  unfold forcedExamination
  refine .ite (fun _ => ?_) fun _ => .refl _ _
  split
  · exact .refl _ _
  · exact .ite (fun _ => .ite (fun _ => ⟨rfl, rfl, rfl⟩) fun _ => ⟨rfl, rfl, rfl⟩) fun _ => .refl _ _

theorem becameFree_spares (p : PosId) (s : State) (b : BankId) : Spares p s (s.becameFree b) :=
  (forcedExamination_spares p s).trans (.ite (fun _ => ⟨rfl, rfl, rfl⟩) fun _ => .refl _ _)

/-- A hand-off reaches no session but that of the head of the queue. -/
theorem handOff_spares {p : PosId} (s : State) (b : BankId) (h : p ∉ (s.bank b).queue) : Spares p s (s.handOff b) := by
  unfold handOff
  split
  · exact ⟨rfl, rfl, rfl⟩
  · rename_i q rest e
    have n : q ≠ p := fun c => h (by rw [e, c]; exact List.mem_cons_self)
    exact (Spares.refl p s).bank.trans (claimGranted_spares n _ _)

theorem handOn_spares {p : PosId} (s : State) (b : BankId) (h : p ∉ (s.bank b).queue) : Spares p s (s.handOn b) :=
  (handOff_spares s b h).trans (.ite (fun _ => becameFree_spares _ _ _) fun _ => .refl _ _)

theorem settleYield_spares (p : PosId) (s : State) : Spares p s s.settleYield := by
  unfold settleYield
  split
  · exact .ite (fun _ => ⟨rfl, rfl, rfl⟩) fun _ => .refl _ _
  · exact .refl _ _

/-! ### Phases, with the coherence of the session -/

section Phases

variable (h : Linked A x s) (r : (s.session p).running = true)

include h r

theorem enterHeld_linked {f : Option Phase} (k : A.coherent → some p ≠ x → (s.session p).awaited = none
    ∧ (s.session p).awaitingFresh = false ∧ ((s.session p).bank.isSome = true → f ≠ some .claim)) :
    Linked A x (s.enterHeld p f) :=
  h.phased (enterHeld_loose h.loose r f) (fun _ n => (enterHeld_spares n.symm s f).1) fun a n =>
    enterHeld_coherent (k a n).1 (k a n).2.1 (k a n).2.2

theorem connected_linked (k : A.coherent → some p ≠ x → (s.session p).awaited = none
    ∧ (s.session p).awaitingFresh = false) : Linked A x (s.connected p) :=
  h.phased (connected_loose h.loose r) (fun _ n => (connected_spares n.symm s).1) fun a n =>
    connected_coherent (k a n).1 (k a n).2

variable (k : A.coherent → some p ≠ x → (s.session p).Ready)

include k

theorem enterDelivering_linked : Linked A x (s.enterDelivering p) :=
  h.phased (enterDelivering_loose h.loose r) (fun _ n => (enterDelivering_spares n.symm s).1) fun a n =>
    enterDelivering_coherent (k a n)

theorem endConnect_linked : Linked A x (s.endConnect p) :=
  h.phased (endConnect_loose h.loose r) (fun _ n => (endConnect_spares n.symm s).1) fun a n => endConnect_coherent (k a n)

theorem beginConnect_linked : Linked A x (s.beginConnect p) :=
  h.phased (beginConnect_loose h.loose r) (fun _ n => (beginConnect_spares n.symm s).1) fun a n =>
    beginConnect_coherent (k a n)

end Phases

/-- A session enters phase CLAIM (R123). -/
theorem enterClaim_linked (h : Linked A x s) (r : (s.session p).running = true)
    (k : A.coherent → some p ≠ x → (s.session p).bank = none ∧ (s.session p).resumePoint = none) :
    Linked A x (s.enterClaim p) :=
  h.phased (enterClaim_loose h.loose r) (fun _ n => modSession_session_ne _ _ n) fun a n =>
    enterClaim_coherent (k a n).1 (k a n).2

/-! ### Claims -/

/-- A position that has come to hold a bank: the end of its CLAIM phase. -/
theorem claimGranted_linked (b : BankId) {q : List PosId} (h : Linked A x s) (g : Givable s b)
    (r : (s.session p).running = true) (n : (s.session p).bank = none)
    (a : ∀ c, (s.session p).awaited = some c → c = b) (m : ∀ z, z ∈ q ↔ z ∈ (s.bank b).queue ∧ z ≠ p) (d : q.Nodup)
    (rp : A.coherent → some p ≠ x → (s.session p).resumePoint = none)
    (ba : A.agreed → BanksAgree (s.modBank b fun y => { y with holder := .position p, queue := q })) :
    Linked A x ((s.modBank b fun y => { y with holder := .position p, queue := q }).claimGranted b p) := by
  refine h.phased ?_ (fun z n => (claimGranted_spares n.symm _ _).1) fun a n =>
    claimGranted_coherent (s := s.modBank b fun y => { y with holder := .position p, queue := q }) b (rp a n)
  have h := h.loose
  unfold claimGranted snapshotClaim
  dsimp only
  have two : ∀ (t : State) (f g : Session → Session), (t.modSession p f).modSession p g = t.modSession p (g ∘ f) := by
    intro t f g
    unfold modSession
    simp
  rw [two]
  have k := h.hold (f := (fun y => Session.holdBank y b) ∘ fun y => { y with
      massAtClaim := some (((s.modBank b fun y => { y with holder := .position p, queue := q }).bank b).mass.getD 0)
      banksUsed := appendBank y.banksUsed b
      staleMark := y.staleMark || decide ((s.modBank b fun y => { y with holder := .position p, queue := q }).bm.freshness
        = .stale) }) g r n a m d rfl ba
  refine endClaim_loose (.ite (fun _ => setFactor_linked k _ _) fun _ => k) ?_
  split
  · unfold setFactor
    rw [modSession_session_same, modSession_session_same]
    exact r
  · rw [modSession_session_same]
    exact r

theorem settleYield_linked (h : Linked A x s) : Linked A x s.settleYield := by
  unfold settleYield
  split
  · exact .ite (fun _ => h.bm) fun _ => h
  · exact h

/-- What stands while a bank is being vacated: all is as it should be, were the bank FREE. -/
def Vacating (A : Aspects) (x : Option PosId) (s : State) (b : BankId) : Prop :=
  Linked A.unbanked x (s.modBank b fun y => { y with holder := .free })

theorem handOff_vacated (s : State) (b : BankId) :
    (s.modBank b fun y => { y with holder := .free }).handOff b = s.handOff b := by
  unfold handOff
  have two : ∀ (f g : Bank → Bank), (s.modBank b f).modBank b g = s.modBank b (g ∘ f) := by
    intro f g
    unfold modBank
    simp
  rw [modBank_bank_same]
  dsimp only
  cases (s.bank b).queue <;> · dsimp only; rw [two]; rfl

/-- A bank that no position holds is handed on (R62). -/
theorem handOff_linked {b : BankId} (h : Linked A.unbanked x s) (g : Givable s b)
    (e : ∀ q ∈ (s.bank b).queue, some q ≠ x) : Linked A.unbanked x (s.handOff b) := by
  unfold handOff
  split
  · exact h.vacant b g.holder g.refill (.inl rfl) nofun
  · rename_i p rest m
    have mem : p ∈ (s.bank b).queue := m ▸ List.mem_cons_self
    have aw := (h.queued b p).mp mem
    have d := h.once b
    rw [m] at d
    refine claimGranted_linked b h g (h.runs_awaited aw (e p mem)) ((h.sole p).resolve_right (by rw [aw]; nofun))
      (fun c k => ?_) (fun z => ?_) d.of_cons
      (fun k n => ((h.coherent k p n).claiming ((h.coherent k p n).selects (.inl (by rw [aw]; rfl)))).1) nofun
    · rw [aw] at k
      injection k with k
      exact k.symm
    · rw [m, List.mem_cons]
      refine ⟨fun k => ⟨.inr k, fun c => (List.nodup_cons.mp d).1 (c ▸ k)⟩, fun k => k.1.resolve_left k.2⟩

/-- A bank that is being vacated is handed on (R62). -/
theorem handOff_vacating {b : BankId} (h : Vacating A x s b) (r : s.bm.refillInFlight ≠ some b)
    (f : ∀ f, (s.bank b).proof = some f → f.kind ≠ .forced) (e : ∀ q ∈ (s.bank b).queue, some q ≠ x)
    (a : A.agreed → Handing s b) : Linked A x (s.handOff b) := by
  refine Linked.withAgreed ?_ fun k => handOff_agree (a k)
  rw [← handOff_vacated]
  refine handOff_linked h ⟨fun p => ?_, r, fun g m => f g ?_⟩ fun q m => e q ?_
  · rw [modBank_bank_same]; nofun
  · rw [modBank_bank_same] at m; exact m
  · rw [modBank_bank_same] at m; exact m

theorem handOn_vacating {b : BankId} (h : Vacating A x s b) (r : s.bm.refillInFlight ≠ some b)
    (f : ∀ f, (s.bank b).proof = some f → f.kind ≠ .forced) (e : ∀ q ∈ (s.bank b).queue, some q ≠ x)
    (a : A.agreed → Handing s b) : Linked A x (s.handOn b) :=
  .ite (fun _ => becameFree_linked (handOff_vacating h r f e a) b) fun _ => handOff_vacating h r f e a

/-! ### Release and withdrawal -/

/-- What a release of a claim does to the session that held it. -/
def released (s : State) (b : BankId) (y : Session) : Session :=
  { y with
    massAtClaim := none
    bankSum := y.bankSum + ((y.massAtClaim.getD 0 : Nat) : Int) - (((s.bank b).mass.getD 0 : Nat) : Int)
    staleMark := y.staleMark || decide (s.bm.freshness = .stale)
    bank := none }

theorem releaseClaim_eq {s : State} {p : PosId} {b : BankId} (h : Linked A x s) (e : (s.session p).bank = some b) :
    s.releaseClaim p = (s.modSession p (s.released b)).handOn b := by
  unfold releaseClaim
  rw [e]
  dsimp only
  rw [if_pos ((h.held b p).mpr e)]
  congr 1
  unfold snapshotRelease forgetBank modSession released
  simp

theorem not_queued {s : State} {p : PosId} {b : BankId} (h : Linked A x s) (e : (s.session p).bank = some b) (c : BankId) :
    p ∉ (s.bank c).queue := fun m => by
  have a := (h.queued c p).mp m
  rcases h.sole p with k | k
  · rw [e] at k; exact nomatch k
  · rw [a] at k; exact nomatch k

/-- The session that releases its claim: the snapshot at release, and no bank (R65). -/
theorem releaseClaim_session {s : State} {p : PosId} {b : BankId} (h : Linked A x s) (e : (s.session p).bank = some b) :
    (s.releaseClaim p).session p = s.released b (s.session p) := by
  rw [releaseClaim_eq h e]
  have k : p ∉ ((s.modSession p (s.released b)).bank b).queue := not_queued h e b
  exact Eq.trans (handOn_spares _ b k).1 (modSession_session_same _ _ _)

theorem releaseClaim_none {s : State} {p : PosId} (e : (s.session p).bank = none) : s.releaseClaim p = s := by
  unfold releaseClaim
  rw [e]

/-- A position that holds a bank gives it up, and the bank is FREE. -/
theorem vacated_linked {s : State} {p : PosId} {b : BankId} (h : Linked A.unbanked x s) (e : (s.session p).bank = some b) :
    Linked A.unbanked x ((s.modSession p (s.released b)).modBank b fun y => { y with holder := .free }) := by
  have ho := (h.held b p).mpr e
  show Linked A.unbanked x ((s.modBank b fun y => { y with holder := .free }).modSession p (s.released b))
  have bank : ∀ d, ((s.modBank b fun y => { y with holder := .free }).modSession p (s.released b)).bank d
      = if d = b then { s.bank b with holder := .free } else s.bank d := fun d =>
    modBank_bank s b d fun y => { y with holder := .free }
  have queue : ∀ d, (((s.modBank b fun y => { y with holder := .free }).modSession p (s.released b)).bank d).queue
      = (s.bank d).queue := fun d => by
    rw [bank]; split
    · rename_i c; rw [c]
    · rfl
  have same : ((s.modBank b fun y => { y with holder := .free }).modSession p (s.released b)).session p
      = s.released b (s.session p) := modSession_session_same _ _ _
  have other : ∀ z, z ≠ p → ((s.modBank b fun y => { y with holder := .free }).modSession p (s.released b)).session z
      = s.session z := fun z n => modSession_session_ne _ _ n
  have aw : ∀ z, (((s.modBank b fun y => { y with holder := .free }).modSession p (s.released b)).session z).awaited
      = (s.session z).awaited := fun z => by
    by_cases n : z = p
    · rw [n, same]; rfl
    · rw [other z n]
  have st : ∀ z, (((s.modBank b fun y => { y with holder := .free }).modSession p (s.released b)).session z).state
      = (s.session z).state := fun z => by
    by_cases n : z = p
    · rw [n, same]; rfl
    · rw [other z n]
  have ru : ∀ z, (((s.modBank b fun y => { y with holder := .free }).modSession p (s.released b)).session z).running
      = (s.session z).running := fun z => by unfold Session.running; rw [st]
  have fr : ∀ z, (((s.modBank b fun y => { y with holder := .free }).modSession p (s.released b)).session z).awaitingFresh
      = (s.session z).awaitingFresh := fun z => by
    by_cases n : z = p
    · rw [n, same]; rfl
    · rw [other z n]
  have fm : ∀ z, (((s.modBank b fun y => { y with holder := .free }).modSession p (s.released b)).session z).finalMass
      = (s.session z).finalMass := fun z => by
    by_cases n : z = p
    · rw [n, same]; rfl
    · rw [other z n]
  refine ⟨fun d z => ?_, fun d z => ?_, fun z => ?_, fun d => ?_, fun d k => ?_, fun d f k l => ?_, h.listed,
    fun z k l => ?_, fun z k => ?_, fun z k => ?_, h.closingOnce, fun z k => ?_, fun z k => ?_, fun k z n => ?_,
    fun k => (h.numbered k).of_same (fun z => Session.isOpen_of_state (st z)) (.refl _) rfl, nofun, h.shelved.of_same st⟩
  · rw [queue, aw]; exact h.queued d z
  · rw [bank]
    by_cases n : z = p
    · rw [n, same]
      refine ⟨fun k => ?_, nofun⟩
      by_cases db : d = b
      · rw [if_pos db] at k; exact nomatch k
      · rw [if_neg db] at k
        have := (h.held d p).mp k
        rw [e] at this
        injection this with this
        exact absurd this.symm db
    · rw [other z n]
      by_cases db : d = b
      · rw [if_pos db]
        refine ⟨nofun, fun k => ?_⟩
        have := (h.held d z).mpr k
        rw [db, ho] at this
        injection this with this
        exact absurd this.symm n
      · rw [if_neg db]; exact h.held d z
  · by_cases n : z = p
    · rw [n, same]; exact .inl rfl
    · rw [other z n]; exact h.sole z
  · rw [queue]; exact h.once d
  · rw [bank]
    have := h.refill d k
    by_cases db : d = b
    · rw [db, ho] at this; exact nomatch this
    · rw [if_neg db]; exact this
  · rw [bank] at k ⊢
    by_cases db : d = b
    · rw [if_pos db]; exact .inl rfl
    · rw [if_neg db] at k ⊢; exact h.forced d f k l
  · rw [ru]; exact h.cooled z k l
  · rw [ru] at k
    rw [fr, aw]
    refine ⟨fun l => ⟨?_, ((h.away z k).1 l).2⟩, (h.away z k).2⟩
    by_cases n : z = p
    · rw [n, same]; rfl
    · rw [other z n]; exact ((h.away z k).1 l).1
  · rw [st]; exact h.closing z k
  · rw [fm] at k; rw [st]; exact h.massed z k
  · rw [st] at k; exact h.registered z k
  · by_cases c : z = p
    · rw [c, same]
      exact (h.coherent k p (c ▸ n)).without_bank _ rfl rfl rfl rfl rfl rfl
    · rw [other z c]; exact h.coherent k z n

/-- A claim is released (R62, R65). -/
theorem releaseClaim_linked {s : State} {p : PosId} (h : Linked A x s) (c : x = none ∨ x = some p) :
    Linked A x (s.releaseClaim p) := by
  cases e : (s.session p).bank with
  | none => rw [releaseClaim_none e]; exact h
  | some b =>
    have ho := (h.held b p).mpr e
    rw [releaseClaim_eq h e]
    refine handOn_vacating ?_ (fun r => ?_) (fun f m k => ?_) (fun q m n => ?_) fun a =>
      Handing.of_bm (handing_of_position (h.agreed a) ho)
    · exact vacated_linked h.unbanked e
    · have := h.refill b r
      rw [ho] at this
      exact nomatch this
    · have := h.forced b f m k
      rw [ho] at this
      rcases this with this | this <;> exact nomatch this
    · rcases c with c | c
      · rw [c] at n; exact nomatch n
      · rw [c] at n
        injection n with n
        exact not_queued h e b (n ▸ m)

/-- A position leaves the queue it stands in (R61, R64). -/
theorem leaveQueue_linked {s : State} {p : PosId} (h : Linked A x s) : Linked A x (s.leaveQueue p) := by
  refine Linked.withAgreed ?_ fun a => leaveQueue_agree (h.agreed a) p
  have h := h.unbanked
  unfold leaveQueue
  split
  · exact h
  · rename_i b e
    refine settleYield_linked ?_
    have bank : ∀ d, ((s.modBank b fun y => { y with queue := y.queue.filter fun q => q != p }).bank d)
        = if d = b then { s.bank b with queue := (s.bank b).queue.filter fun q => q != p } else s.bank d := fun d =>
      modBank_bank s b d fun y => { y with queue := y.queue.filter fun q => q != p }
    have hold : ∀ d, ((s.modBank b fun y => { y with queue := y.queue.filter fun q => q != p }).bank d).holder
        = (s.bank d).holder := fun d => by
      rw [bank]; split
      · rename_i c; rw [c]
      · rfl
    have proof : ∀ d, ((s.modBank b fun y => { y with queue := y.queue.filter fun q => q != p }).bank d).proof
        = (s.bank d).proof := fun d => by
      rw [bank]; split
      · rename_i c; rw [c]
      · rfl
    let f : Session → Session := fun y => { y with awaited := none, bankWaitTimer := none }
    show Linked A.unbanked x ((s.modBank b fun y => { y with queue := y.queue.filter fun q => q != p }).modSession p f)
    have same : ((s.modBank b fun y => { y with queue := y.queue.filter fun q => q != p }).modSession p f).session p
        = f (s.session p) := modSession_session_same _ _ _
    have other : ∀ z, z ≠ p → ((s.modBank b fun y => { y with queue := y.queue.filter fun q => q != p }).modSession p
        f).session z = s.session z := fun z n => modSession_session_ne _ _ n
    have eq : ∀ {α : Type} (g : Session → α), (∀ y, g (f y) = g y) → ∀ z,
        g (((s.modBank b fun y => { y with queue := y.queue.filter fun q => q != p }).modSession p f).session z)
          = g (s.session z) := fun g k z => by
      by_cases n : z = p
      · rw [n, same]; exact k _
      · rw [other z n]
    have ba := eq (·.bank) fun _ => rfl
    have st := eq (·.state) fun _ => rfl
    have ru := eq (·.running) fun _ => rfl
    have fr := eq (·.awaitingFresh) fun _ => rfl
    have fm := eq (·.finalMass) fun _ => rfl
    refine ⟨fun d z => ?_, fun d z => ?_, fun z => ?_, fun d => ?_, fun d k => ?_, fun d f k l => ?_, h.listed,
        fun z k l => ?_, fun z k => ?_, fun z k => ?_, h.closingOnce, fun z k => ?_, fun z k => ?_, fun k z n => ?_,
        fun k => (h.numbered k).of_same (fun z => Session.isOpen_of_state (st z)) (.refl _) rfl, nofun,
        h.shelved.of_same st⟩
    · show z ∈ ((s.modBank b fun y => { y with queue := y.queue.filter fun q => q != p }).bank d).queue ↔ _
      rw [bank]
      by_cases n : z = p
      · rw [n, same]
        refine ⟨fun k => ?_, nofun⟩
        split at k
        · simp at k
        · rename_i db
          have := (h.queued d p).mp k
          rw [e] at this
          injection this with this
          exact absurd this.symm db
      · rw [other z n, ← h.queued]
        split
        · rename_i db
          rw [db]
          simp [n]
        · rfl
    · show ((s.modBank b fun y => { y with queue := y.queue.filter fun q => q != p }).bank d).holder = _ ↔ _
      rw [hold, ba]; exact h.held d z
    · by_cases n : z = p
      · rw [n, same]; exact .inr rfl
      · rw [other z n]; exact h.sole z
    · show ((s.modBank b fun y => { y with queue := y.queue.filter fun q => q != p }).bank d).queue.Nodup
      rw [bank]; split
      · exact (h.once b).filter _
      · exact h.once d
    · show ((s.modBank b fun y => { y with queue := y.queue.filter fun q => q != p }).bank d).holder = _
      rw [hold]; exact h.refill d k
    · show ((s.modBank b fun y => { y with queue := y.queue.filter fun q => q != p }).bank d).holder = _
        ∨ ((s.modBank b fun y => { y with queue := y.queue.filter fun q => q != p }).bank d).holder = _
      have k : ((s.modBank b fun y => { y with queue := y.queue.filter fun q => q != p }).bank d).proof = some _ := k
      rw [proof] at k
      rw [hold]
      exact h.forced d _ k l
    · rw [ru]; exact h.cooled z k l
    · rw [ru] at k
      rw [ba, fr]
      refine ⟨fun l => ⟨((h.away z k).1 l).1, ?_⟩, (h.away z k).2⟩
      by_cases n : z = p
      · rw [n, same]
      · rw [other z n]; exact ((h.away z k).1 l).2
    · rw [st]; exact h.closing z k
    · rw [fm] at k; rw [st]; exact h.massed z k
    · rw [st] at k; exact h.registered z k
    · by_cases c : z = p
      · rw [c, same]
        exact (h.coherent k p (c ▸ n)).unawaited _ rfl rfl
      · rw [other z c]; exact h.coherent k z n

/-- What leaving a queue does to the session that stood there. -/
theorem leaveQueue_session {s : State} {p : PosId} {b : BankId} (e : (s.session p).awaited = some b) :
    (s.leaveQueue p).session p = { s.session p with awaited := none, bankWaitTimer := none } := by
  unfold leaveQueue
  rw [e]
  exact Eq.trans (settleYield_spares _ _).1 (modSession_session_same _ _ _)

theorem leaveQueue_none {s : State} {p : PosId} (e : (s.session p).awaited = none) : s.leaveQueue p = s := by
  unfold leaveQueue
  rw [e]

end State

end Sys2Proof.Machine
end

