-- ==== Sys2Proof/Laws/LinkedCascade.lean ====
section
/-! SUPPORT. That the queues, lists and registers agree with the session records, through selections, cooling grants and
the end of sessions; and how a session stands that has ended. -/

namespace Sys2Proof.Machine

set_option Elab.async false

namespace State

variable {A : Aspects} {s : State} {p : PosId}

/-! ### Refills and claims -/

theorem enterRefillList_linked {x : Option PosId} (h : Linked A x s) (b : BankId) : Linked A x (s.enterRefillList b) :=
  .ite (fun _ => h) fun _ => h.bm

theorem leaveRefillList_linked {x : Option PosId} (h : Linked A x s) (b : BankId) : Linked A x (s.leaveRefillList b) := h.bm

theorem relist_linked {x : Option PosId} (h : Linked A x s) (b : BankId) : Linked A x (s.relist b) :=
  .ite (fun _ => enterRefillList_linked h b) fun _ => h

theorem refillEnds_linked {b : BankId} (h : Linked A none s) (e : (s.bank b).holder = .refill) (r : RefillReason) :
    Linked A none (s.refillEnds b r) := by
  refine Linked.withAgreed ?_ fun a => refillEnds_agree (h.agreed a) e r
  have h := h.unbanked
  have k : Linked A.unbanked none (s.modBm fun m => { m with refillInFlight := none, yieldTimer := none }) :=
    h.bm (r := nofun) (g := nofun)
  refine relist_linked (Linked.posted (handOff_linked k ⟨fun q c => ?_, nofun, fun f m c => ?_⟩ fun _ _ => nofun)) b
  · rw [modBm_bank] at c
    have c : (s.bank b).holder = _ := c
    rw [e] at c
    exact nomatch c
  · have := h.forced b f m c
    rw [e] at this
    rcases this with this | this <;> exact nomatch this

theorem endRefill_linked {b : BankId} (h : Linked A none s) (e : (s.bank b).holder = .refill) (r : RefillReason) :
    Linked A none (s.endRefill b r) :=
  .ite (fun _ => becameFree_linked (refillEnds_linked h e r) b) fun _ => refillEnds_linked h e r

/-- A position that neither holds a bank nor waits at one. -/
theorem holdsNothing (h : Linked A none s) (e : s.holdsOrWaits p = false) :
    (s.session p).bank = none ∧ (s.session p).awaited = none ∧ ∀ b, p ∉ (s.bank b).queue := by
  have k : ∀ b, ¬((s.bank b).holder = .position p) ∧ p ∉ (s.bank b).queue := by
    unfold holdsOrWaits at e
    rw [List.any_eq_false] at e
    intro b
    have := e b (mem_fourIds b)
    simp only [Bool.or_eq_true, decide_eq_true_eq, List.contains_eq_mem, not_or] at this
    exact this
  refine ⟨?_, ?_, fun b => (k b).2⟩
  · cases c : (s.session p).bank with
    | none => rfl
    | some b => exact absurd ((h.held b p).mpr c) (k b).1
  · cases c : (s.session p).awaited with
    | none => rfl
    | some b => exact absurd ((h.queued b p).mpr c) (k b).2

/-- A position takes a bank that is FREE or held by PROOF (R59, R127). -/
theorem takeBank_linked {b : BankId} (h : Linked A none s) (r : (s.session p).running = true) (e : s.holdsOrWaits p = false)
    (o : (s.bank b).holder = .free ∨ (s.bank b).holder = .proof)
    (rp : A.coherent → (s.session p).resumePoint = none) : Linked A none ((s.takeBank b p).claimGranted b p) := by
  refine Linked.withAgreed ?_ fun a => (takeBank_agree (h.agreed a) b p (h.unheld o).2).of_bm (claimGranted_bm _ _ _)
  have h := h.unbanked
  obtain ⟨n, a, q⟩ := holdsNothing h e
  have k : Linked A.unbanked none (s.abandonProof b) := abandonProof_linked h b
  have hb : (s.abandonProof b).bank b = (s.endProof b (((s.bank b).proof.map (·.before)).getD (s.bank b).proofState)).bank b := by
    unfold abandonProof
    cases c : (s.bank b).proof with
    | none =>
      unfold endProof
      rw [modBank_bank_same]
      cases hh : s.bank b
      rw [hh] at c
      dsimp only at c ⊢
      rw [c]
      rfl
    | some f => rfl
  have hs : (s.abandonProof b).session p = s.session p := by
    unfold abandonProof
    split <;> rfl
  have hr : (s.abandonProof b).bm.refillInFlight = s.bm.refillInFlight := by
    unfold abandonProof
    split <;> rfl
  have holder : ((s.abandonProof b).bank b).holder = (s.bank b).holder := by
    rw [hb]; unfold endProof; rw [modBank_bank_same]
  have queue : ((s.abandonProof b).bank b).queue = (s.bank b).queue := by
    rw [hb]; unfold endProof; rw [modBank_bank_same]
  have u := h.unheld o
  show Linked A.unbanked none (((s.abandonProof b).modBank b fun y =>
    { y with holder := .position p, queue := ((s.abandonProof b).bank b).queue }).claimGranted b p)
  refine claimGranted_linked b k ⟨fun z c => u.1 z (holder ▸ c), hr ▸ u.2, fun f m => ?_⟩ (hs ▸ r) (hs ▸ n)
    (fun c m => ?_) (fun z => ⟨fun m => ⟨m, fun c => ?_⟩, And.left⟩) (queue ▸ h.once b)
    (fun a _ => hs ▸ rp a) nofun
  · rw [hb] at m
    unfold endProof at m
    rw [modBank_bank_same] at m
    exact nomatch m
  · rw [hs, a] at m
    exact nomatch m
  · rw [queue, c] at m
    exact q b m

/-- A position joins the queue of a bank (R59, R126). -/
theorem joinQueue_linked {b : BankId} (h : Linked A none s) (r : (s.session p).running = true)
    (e : s.holdsOrWaits p = false) (o1 : (s.bank b).holder ≠ .free) (o2 : (s.bank b).holder ≠ .proof)
    (ph : A.coherent → (s.session p).phase = some .claim) : Linked A none ((s.joinQueue b p).awaitBank b p) := by
  refine Linked.withAgreed ?_ fun a => (joinQueue_agree (h.agreed a) b p o1 o2).of_bm
  have h := h.unbanked
  obtain ⟨n, a, q⟩ := holdsNothing h e
  have key : ∀ f : Session → Session, (∀ y : Session, ((f y).state, (f y).bank, (f y).awaited, (f y).awaitingFresh, (f y).finalMass)
      = (y.state, y.bank, some b, y.awaitingFresh, y.finalMass)) → (A.coherent → (f (s.session p)).Coherent) →
      Linked A.unbanked none ((s.modBank b fun y => { y with queue := y.queue ++ [p] }).modSession p f) := by
    intro f l co
    have bank : ∀ d, (s.modBank b fun y => { y with queue := y.queue ++ [p] }).bank d
        = if d = b then { s.bank b with queue := (s.bank b).queue ++ [p] } else s.bank d := fun d =>
      modBank_bank s b d fun y => { y with queue := y.queue ++ [p] }
    have hold : ∀ d, ((s.modBank b fun y => { y with queue := y.queue ++ [p] }).bank d).holder = (s.bank d).holder :=
      fun d => by
        rw [bank]; split
        · rename_i c; rw [c]
        · rfl
    have proof : ∀ d, ((s.modBank b fun y => { y with queue := y.queue ++ [p] }).bank d).proof = (s.bank d).proof :=
      fun d => by
        rw [bank]; split
        · rename_i c; rw [c]
        · rfl
    have same : ((s.modBank b fun y => { y with queue := y.queue ++ [p] }).modSession p f).session p = f (s.session p) :=
      modSession_session_same _ _ _
    have other : ∀ z, z ≠ p → ((s.modBank b fun y => { y with queue := y.queue ++ [p] }).modSession p f).session z
        = s.session z := fun z c => modSession_session_ne _ _ c
    have eq : ∀ {α : Type} (g : Session → α), (∀ y, g (f y) = g y) → ∀ z,
        g (((s.modBank b fun y => { y with queue := y.queue ++ [p] }).modSession p f).session z) = g (s.session z) :=
      fun g k z => by
        by_cases c : z = p
        · rw [c, same]; exact k _
        · rw [other z c]
    have st := eq (·.state) fun y => congrArg (·.1) (l y)
    have ba := eq (·.bank) fun y => congrArg (·.2.1) (l y)
    have fr := eq (·.awaitingFresh) fun y => congrArg (·.2.2.2.1) (l y)
    have fm := eq (·.finalMass) fun y => congrArg (·.2.2.2.2) (l y)
    have ru := eq (·.running) fun y => by
      unfold Session.running
      rw [show (f y).state = y.state from congrArg (·.1) (l y)]
    have aw : (f (s.session p)).awaited = some b := congrArg (·.2.2.1) (l (s.session p))
    refine ⟨fun d z => ?_, fun d z => ?_, fun z => ?_, fun d => ?_, fun d k => ?_, fun d f k m => ?_, h.listed,
        fun z k m => ?_, fun z k => ?_, fun z k => ?_, h.closingOnce, fun z k => ?_, fun z k => ?_, fun k z m => ?_,
        fun k => (h.numbered k).of_same (fun z => Session.isOpen_of_state (st z)) (.refl _) rfl, nofun,
        h.shelved.of_same st⟩
    · show z ∈ ((s.modBank b fun y => { y with queue := y.queue ++ [p] }).bank d).queue ↔ _
      rw [bank]
      by_cases c : z = p
      · rw [c, same, aw]
        by_cases db : d = b
        · rw [if_pos db, db]
          exact ⟨fun _ => rfl, fun _ => List.mem_append_right _ List.mem_cons_self⟩
        · rw [if_neg db]
          refine ⟨fun m => absurd m (q d), fun m => ?_⟩
          injection m with m
          exact absurd m.symm db
      · rw [other z c, ← h.queued]
        by_cases db : d = b
        · rw [if_pos db, db]
          simp [c]
        · rw [if_neg db]
    · show ((s.modBank b fun y => { y with queue := y.queue ++ [p] }).bank d).holder = _ ↔ _
      rw [hold, ba]; exact h.held d z
    · by_cases c : z = p
      · rw [ba, c]; exact .inl n
      · rw [other z c]; exact h.sole z
    · show ((s.modBank b fun y => { y with queue := y.queue ++ [p] }).bank d).queue.Nodup
      rw [bank]; split
      · refine List.Nodup.append (h.once b) (List.nodup_singleton p) fun z m m' => ?_
        rw [List.mem_singleton.mp m'] at m
        exact q b m
      · exact h.once d
    · show ((s.modBank b fun y => { y with queue := y.queue ++ [p] }).bank d).holder = _
      rw [hold]; exact h.refill d k
    · show ((s.modBank b fun y => { y with queue := y.queue ++ [p] }).bank d).holder = _
        ∨ ((s.modBank b fun y => { y with queue := y.queue ++ [p] }).bank d).holder = _
      have k : ((s.modBank b fun y => { y with queue := y.queue ++ [p] }).bank d).proof = some _ := k
      rw [proof] at k
      rw [hold]; exact h.forced d _ k m
    · rw [ru]; exact h.cooled z k m
    · rw [ru] at k
      rw [ba, fr]
      refine ⟨fun m => ⟨((h.away z k).1 m).1, ?_⟩, (h.away z k).2⟩
      by_cases c : z = p
      · rw [c, r] at k; exact nomatch k
      · rw [other z c]; exact ((h.away z k).1 m).2
    · rw [st]; exact h.closing z k
    · rw [fm] at k; rw [st]; exact h.massed z k
    · rw [st] at k; exact h.registered z k
    · by_cases c : z = p
      · rw [c, same]; exact co k
      · rw [other z c]; exact h.coherent k z m
  have co : A.coherent → ∀ n : Nat, Session.Coherent { s.session p with awaited := some b, bankWaitTimer := some n } :=
    fun k n => have c := h.coherent k p nofun; ⟨c.phase, fun _ => ph k, c.holds, c.resumes⟩
  unfold joinQueue awaitBank
  dsimp only
  split
  · exact Linked.bm (f := fun m => { m with yieldTimer := some (m.yieldTimer.getD s.config.refillYield) })
      (key (fun y => { y with awaited := some b, bankWaitTimer := some s.config.bankWaitLimit }) (fun _ => rfl) fun k => co k _)
  · exact key _ (fun y => rfl) fun k => co k _

theorem yieldAtOnce_linked (h : Linked A none s) (b : BankId) (w : Bool) : Linked A none (s.yieldAtOnce b w) :=
  .ite (fun e => endRefill_linked h e.2.1 _) fun _ => h

/-- The claim request of a session that runs (R59, R124). -/
theorem claim_linked (h : Linked A none s) (b : BankId) (r : (s.session p).running = true)
    (ph : A.coherent → (s.session p).phase = some .claim) : Linked A none (s.claim b p) := by
  have rp : A.coherent → (s.session p).resumePoint = none := fun k => ((h.coherent k p nofun).claiming (ph k)).1
  unfold claim claimRequest
  dsimp only
  split
  · rename_i t e
    split at e
    · cases e; exact h
    · split at e
      · cases e; exact h
      · split at e <;> exact nomatch e
  · rename_i t e
    split at e
    · exact nomatch e
    · rename_i c
      split at e
      · exact nomatch e
      · split at e
        · rename_i o; cases e; exact takeBank_linked h r (Bool.eq_false_iff.mpr c) (.inl o) rp
        · rename_i o; cases e; exact takeBank_linked h r (Bool.eq_false_iff.mpr c) (.inr o) rp
        · exact nomatch e
        · exact nomatch e
  · rename_i t e
    split at e
    · exact nomatch e
    · rename_i c
      split at e
      · exact nomatch e
      · split at e
        · exact nomatch e
        · exact nomatch e
        · rename_i o
          cases e
          exact yieldAtOnce_linked (joinQueue_linked h r (Bool.eq_false_iff.mpr c) (by rw [o]; nofun) (by rw [o]; nofun) ph) b _
        · rename_i o
          cases e
          exact yieldAtOnce_linked (joinQueue_linked h r (Bool.eq_false_iff.mpr c) (by rw [o]; nofun) (by rw [o]; nofun) ph) b _

end State

/-! ### The cascade -/

/-- An ender under which the queues, lists and registers go on agreeing with the session records. -/
def Ender.Links (A : Aspects) (endK : Ender) : Prop := ∀ q r s, Linked A none s → Linked A none (endK q r s)

namespace State

variable {A : Aspects} {s : State} {p : PosId} {endK : Ender}

theorem newConnection_linked (h : Linked A none s) (p : PosId) (k : ConnKind) (a : Option Attempt) :
    Linked A none (s.newConnection p k a) :=
  h.session (k := fun _ _ c => ⟨c.phase, c.selects, fun b => ⟨(c.holds b).1, nofun, (c.holds b).2.2⟩, nofun⟩)

theorem running_of_link {f : Session → Session} (r : (s.session p).running = true)
    (e : (f (s.session p)).state = (s.session p).state := by rfl) : ((s.modSession p f).session p).running = true := by
  rw [modSession_session_same]
  unfold Session.running at r ⊢
  rw [e]
  exact r

theorem enterClaim_runs (s : State) (p : PosId) : (((s.enterClaim p).postSession p).session p).running = true := by
  show ((s.enterClaim p).session p).running = true
  unfold enterClaim
  rw [modSession_session_same]
  rfl

theorem enterClaim_phase (s : State) (p : PosId) : (((s.enterClaim p).postSession p).session p).phase = some .claim := by
  show ((s.enterClaim p).session p).phase = _
  unfold enterClaim
  rw [modSession_session_same]

section Cascade

variable (hE : endK.Links A)

include hE

theorem selectBank_linked (h : Linked A none s) (r : (s.session p).running = true)
    (ph : A.coherent → (s.session p).phase = some .claim) : Linked A none (s.selectBank endK p) := by
  unfold selectBank
  refine .ite (fun _ => ?_) fun _ => ?_
  · unfold awaitFresh
    exact h.moves r (fun a n => have c := h.coherent a p n; ⟨c.phase, fun _ => ph a, c.holds, c.resumes⟩) r
  · split
    · exact claim_linked h _ r ph
    · exact hE _ _ _ h

theorem claimPhase_linked (h : Linked A none s) (r : (s.session p).running = true)
    (k : A.coherent → (s.session p).bank = none ∧ (s.session p).resumePoint = none) :
    Linked A none (((s.enterClaim p).postSession p).selectBank endK p) :=
  selectBank_linked hE (postSession_linked (enterClaim_linked h r fun a _ => k a) p) (enterClaim_runs s p) fun _ =>
    enterClaim_phase s p

theorem leaveOpening_linked (h : Linked A none s) (o : (s.session p).state = .opening) :
    Linked A none (s.leaveOpening endK p) := by
  have k : Linked A none ((s.newConnection p .first (some .first)).restartProgress p) :=
    Linked.monitor (newConnection_linked h p _ _)
  have e : ((s.newConnection p .first (some .first)).restartProgress p).session p
      = { s.session p with kind := some .first, attempt := some .first, resumePoint := none } := by
    show (s.newConnection p .first (some .first)).session p = _
    unfold newConnection
    rw [modSession_session_same]
  have r' : (((s.newConnection p .first (some .first)).restartProgress p).session p).running = true := by
    rw [e]
    unfold Session.running
    dsimp only
    rw [o]
  refine .ite (fun _ => claimPhase_linked hE k r' fun a => ?_) fun _ => enterHeld_linked k r' fun a n => ?_
  · have c := h.coherent a p nofun
    rw [e]
    exact ⟨c.no_bank (by rw [o]; nofun), rfl⟩
  · have c := h.coherent a p nofun
    have w := c.awaits (by rw [c.no_phase (by rw [o]; nofun)]; nofun)
    rw [e]
    refine ⟨w.1, w.2, fun b => ?_⟩
    have b : (s.session p).bank.isSome = true := b
    rw [c.no_bank (by rw [o]; nofun)] at b
    exact nomatch b

theorem reconnect_linked (h : Linked A none s) (r : (s.session p).running = true)
    (b : A.coherent → (s.session p).bank = none) : Linked A none (s.reconnect endK p) :=
  claimPhase_linked hE (newConnection_linked h p _ _) (running_of_link r) fun a => by
    unfold newConnection
    rw [modSession_session_same]
    exact ⟨b a, rfl⟩

omit hE in
theorem held_runs (e : (s.session p).state = .held) : (s.session p).running = true := by
  unfold Session.running
  rw [e]

omit hE in
/-- A session in HELD awaits nothing. -/
theorem held_awaits (h : Linked A none s) (e : (s.session p).state = .held) (a : A.coherent) :
    (s.session p).awaited = none ∧ (s.session p).awaitingFresh = false := by
  have c := h.coherent a p nofun
  exact c.awaits (by rw [c.no_phase (by rw [e]; nofun)]; nofun)

/-- An unfinished connection is resumed at its resume point (R123). -/
theorem resumeConnection_linked (h : Linked A none s) (e : (s.session p).state = .held) {f : Phase}
    (g : (s.session p).resumePoint = some f) : Linked A none (s.resumeConnection endK p f) := by
  have l : Linked A.loose none (((s.modSession p fun x => { x with resumePoint := none }).enterClaim p).postSession p) :=
    postSession_linked (enterClaim_loose (h.loose.session (k := nofun)) (running_of_link (held_runs e))) p
  have r' := enterClaim_runs (s.modSession p fun x => { x with resumePoint := none }) p
  have eq : (((s.modSession p fun x => { x with resumePoint := none }).enterClaim p).postSession p).session p
      = { ({ s.session p with resumePoint := none } : Session).quiet with state := .connecting, phase := some .claim } := by
    show ((s.modSession p fun x => { x with resumePoint := none }).enterClaim p).session p = _
    unfold enterClaim
    rw [modSession_session_same, modSession_session_same]
  have ready : A.coherent →
      ((((s.modSession p fun x => { x with resumePoint := none }).enterClaim p).postSession p).session p).Ready := by
    intro a
    rw [eq]
    exact ⟨(held_awaits h e a).1, (held_awaits h e a).2, rfl⟩
  have sp : ∀ q, q ≠ p → Spares q s (((s.modSession p fun x => { x with resumePoint := none }).enterClaim p).postSession p) :=
    fun q n => Spares.posted (Spares.session (Spares.session (Spares.refl q s) n.symm) n.symm)
  unfold resumeConnection
  dsimp only
  cases f with
  | claim =>
    refine selectBank_linked hE (h.phased l (fun q n => (sp q n).1) fun a n => ?_) r' fun _ => by rw [eq]
    have c := h.coherent a p n
    rw [eq]
    refine .of_claim rfl rfl ?_ rfl
    cases b : (s.session p).bank with
    | none => exact b
    | some d => exact absurd g (c.holds (by rw [b]; rfl)).2.1
  | connect =>
    exact h.phased (beginConnect_loose l r') (fun q n => ((sp q n).trans (beginConnect_spares n.symm _)).1) fun a _ =>
      beginConnect_coherent (ready a)
  | leakCheck =>
    exact h.phased (beginLeakCheck_loose l r') (fun q n => ((sp q n).trans (beginLeakCheck_spares n.symm _)).1) fun a _ =>
      beginLeakCheck_coherent (ready a)
  | settle =>
    exact h.phased (beginSettle_loose l r') (fun q n => ((sp q n).trans (beginSettle_spares n.symm _)).1) fun a _ =>
      beginSettle_coherent (ready a)

theorem resume_linked (h : Linked A none s) (e : (s.session p).state = .held) : Linked A none (s.resume endK p) := by
  have k : Linked A none (s.modSession p fun x => x.leaveHold (s.profileOf p).holdLimit) := h.session
  have eq : (s.modSession p fun x => x.leaveHold (s.profileOf p).holdLimit).session p
      = (s.session p).leaveHold (s.profileOf p).holdLimit := modSession_session_same _ _ _
  have e' : ((s.modSession p fun x => x.leaveHold (s.profileOf p).holdLimit).session p).state = .held := by
    rw [eq]
    exact e
  have r' := held_runs e'
  unfold resume
  dsimp only
  split
  · exact resumeConnection_linked hE k e' ‹_›
  · rename_i g
    refine .ite (fun _ => enterDelivering_linked k r' fun a _ => ?_) fun b => reconnect_linked hE k r' fun _ => ?_
    · exact ⟨(held_awaits k e' a).1, (held_awaits k e' a).2, g⟩
    · simpa using b

theorem startResume_linked (h : Linked A none s) (e : (s.session p).state = .held) : Linked A none (s.startResume endK p) := by
  unfold startResume
  exact .ite (fun _ => resume_linked hE h e) fun _ => h.session

theorem clearFactor_linked (h : Linked A none s) (p : PosId) (f : Factor) : Linked A none (s.clearFactor endK p f) := by
  unfold clearFactor
  refine .ite (fun _ => ?_) fun _ => h
  have k : Linked A none (s.modSession p fun x => { x with factors := x.factors.put f false }) := h.session
  exact .ite (fun e => startResume_linked hE k e.1) fun _ => k

theorem coolingGranted_linked (h : Linked A none s) (p : PosId) : Linked A none (s.coolingGranted endK p) := by
  have k : Linked A none (s.modSession p fun x => { x with cooling := .granted }) := h.session
  exact .ite (fun e => leaveOpening_linked hE k e) fun _ => clearFactor_linked hE k p _

omit hE in
theorem setCoolingQueue_linked {x : Option PosId} (h : Linked A x s) (l : List Waiter)
    (c : ({ s.cbu with queue := l } : CoolingUnit).positions.Perm s.cbu.positions) : Linked A x (s.setCoolingQueue l) :=
  (h.cbu c).posted

theorem grantFromHead_linked (n : Nat) (s : State) (h : Linked A none s) : Linked A none (grantFromHead endK n s) := by
  induction n generalizing s with
  | zero => exact h
  | succ n ih =>
    unfold grantFromHead
    split
    · exact h
    · rename_i w rest e
      refine .ite (fun _ => h) fun _ => ih _ (coolingGranted_linked hE ?_ _)
      unfold grantHead setCoolingQueue
      refine Linked.posted ?_
      show Linked A none (s.modCbu fun c => { c with grants := c.grants ++ [⟨w.pos, w.demand, w.limit⟩], queue := rest })
      refine h.cbu ?_
      unfold CoolingUnit.positions
      rw [e]
      simp

theorem grantWaiters_linked (h : Linked A none s) : Linked A none (s.grantWaiters endK) := grantFromHead_linked hE _ _ h

end Cascade

/-! ### A session ends -/

/-- The entries of other positions in the lists of the Cooling Budget Unit. -/
def without (c : CoolingUnit) (p : PosId) : CoolingUnit :=
  { c with grants := c.grants.filter fun g => g.pos != p, queue := c.queue.filter fun w => w.pos != p }

theorem without_sublist (c : CoolingUnit) (p : PosId) : (without c p).positions.Sublist c.positions :=
  List.Sublist.append (List.filter_sublist.map _) (List.filter_sublist.map _)

theorem not_mem_without (c : CoolingUnit) (p : PosId) : p ∉ (without c p).positions := by
  unfold without CoolingUnit.positions
  simp

theorem mem_positions_grants {c : CoolingUnit} {p : PosId} : (c.grants.any fun g => g.pos == p) = true ↔ p ∈ c.grants.map (·.pos) := by
  simp

theorem mem_positions_queue {c : CoolingUnit} {p : PosId} : (c.queue.any fun w => w.pos == p) = true ↔ p ∈ c.queue.map (·.pos) := by
  simp

theorem filter_away {α : Type} {l : List α} {f : α → PosId} {p : PosId} (h : p ∉ l.map f) :
    (l.filter fun a => f a != p) = l := by
  rw [List.filter_eq_self]
  intro a m
  simp only [bne_iff_ne, ne_eq]
  intro c
  exact h (List.mem_map.mpr ⟨a, m, c⟩)

/-- A position that gives up its cooling is not listed any more, before anything is granted. -/
theorem leaveCooling_eq (h : s.cbu.positions.Nodup) (endK : Ender) :
    s.leaveCooling endK p = s ∧ p ∉ s.cbu.positions
      ∨ s.leaveCooling endK p = (s.modCbu fun c => without c p).grantWaiters endK
      ∨ ∃ n, s.leaveCooling endK p = ((s.modCbu fun c => without c p).post n).grantWaiters endK := by
  unfold leaveCooling
  by_cases g : p ∈ s.cbu.grants.map (·.pos)
  · rw [if_pos (mem_positions_grants.mpr g)]
    have q : p ∉ s.cbu.queue.map (·.pos) := fun m => (List.disjoint_of_nodup_append h) g m
    refine .inr (.inl ?_)
    have : without s.cbu p = { s.cbu with grants := s.cbu.grants.filter fun g => g.pos != p } := by
      unfold without
      rw [filter_away q]
    show ({ s with cbu := { s.cbu with grants := s.cbu.grants.filter fun g => g.pos != p } }).grantWaiters endK
      = ({ s with cbu := without s.cbu p }).grantWaiters endK
    rw [this]
  · rw [if_neg (fun c => g (mem_positions_grants.mp c))]
    by_cases q : p ∈ s.cbu.queue.map (·.pos)
    · rw [if_pos (mem_positions_queue.mpr q)]
      refine .inr (.inr ⟨.coolingDemand ((s.modCbu fun c => without c p).waitingDemand), ?_⟩)
      have : without s.cbu p = { s.cbu with queue := s.cbu.queue.filter fun w => w.pos != p } := by
        unfold without
        rw [filter_away g]
      show ((s.setCoolingQueue (s.cbu.queue.filter fun w => w.pos != p))).grantWaiters endK
        = (({ s with cbu := without s.cbu p } : State).post (.coolingDemand
            (({ s with cbu := without s.cbu p } : State).waitingDemand))).grantWaiters endK
      rw [this]
      rfl
    · rw [if_neg (fun c => q (mem_positions_queue.mp c))]
      exact .inl ⟨rfl, fun m => (List.mem_append.mp m).elim g q⟩

/-- The session just ended is coherent, with all the others. -/
theorem ended_coherent (h : Linked A (some p) s) (k : A.coherent → (s.session p).Coherent) :
    A.coherent → ∀ q, some q ≠ none → (s.session q).Coherent := fun a q _ => by
  by_cases c : q = p
  · rw [c]; exact k a
  · exact h.coherent a q fun d => c (Option.some.inj d)

/-- The agreement when a session that has ended gives up its place in the lists of the Cooling Budget Unit. -/
theorem without_linked (h : Linked A (some p) s) (b : (s.session p).bank = none) (a : (s.session p).awaited = none)
    (k : A.coherent → (s.session p).Coherent) :
    Linked A none (s.modCbu fun c => without c p) :=
  ⟨h.queued, h.held, h.sole, h.once, h.refill, h.forced, (without_sublist _ p).nodup h.listed,
    fun q m _ => h.cooled q ((without_sublist _ p).subset m) fun c => by
      injection c with c
      exact not_mem_without _ _ (c ▸ m),
    fun q r => ⟨fun _ => by
      by_cases c : q = p
      · rw [c]; exact ⟨b, a⟩
      · exact (h.away q r).1 fun d => by injection d with d; exact c d, (h.away q r).2⟩,
    h.closing, h.closingOnce, h.massed, h.registered, fun a q n => ended_coherent h k a q n, fun a =>
      (h.numbered a).of_same (fun _ => rfl) (.refl _) rfl, fun a => (h.agreed a).of_bm, h.shelved.of_same fun _ => rfl⟩

theorem unlisted_linked (h : Linked A (some p) s) (b : (s.session p).bank = none) (a : (s.session p).awaited = none)
    (l : p ∉ s.cbu.positions) (k : A.coherent → (s.session p).Coherent) : Linked A none s :=
  ⟨h.queued, h.held, h.sole, h.once, h.refill, h.forced, h.listed,
    fun q m _ => h.cooled q m fun c => by
      injection c with c
      exact l (c ▸ m),
    fun q r => ⟨fun _ => by
      by_cases c : q = p
      · rw [c]; exact ⟨b, a⟩
      · exact (h.away q r).1 fun d => by injection d with d; exact c d, (h.away q r).2⟩,
    h.closing, h.closingOnce, h.massed, h.registered, fun a q n => ended_coherent h k a q n, fun a =>
      (h.numbered a).of_same (fun _ => rfl) (.refl _) rfl, fun a => (h.agreed a).of_bm, h.shelved⟩

/-- A position that is listed nowhere and queued nowhere. -/
theorem aside_of (h : Linked A none s) (a : (s.session p).awaited = none) (l : p ∉ s.cbu.positions)
    (u : p ∉ s.sales.pendingSessions) : Aside p s where
  bankQueues b m := by
    rw [(h.queued b p).mp m] at a
    exact nomatch a
  coolingQueue w m c := l (List.mem_append_right _ (List.mem_map.mpr ⟨w, m, c⟩))
  closeQueue m := u (List.mem_append_right _ m)
  register c := u (List.mem_append_left _ (by rw [c]; exact List.mem_cons_self))

/-- The session record of a position whose session has just been ended (R148 steps 1 to 6). -/
def endedSession (s : State) (p : PosId) (r : EndReason) : Session :=
  let x := (s.session p).markEnded r s.site.siteTime (s.endingNozzle p)
  let x := match x.bank with
    | some b => s.released b x
    | none => x
  let x := match x.awaited with
    | some _ => { x with awaited := none, bankWaitTimer := none }
    | none => x
  { x with cooling := .noCooling }

theorem endedSession_still (s : State) (p : PosId) (r : EndReason) :
    (s.endedSession p r).state = .ended ∧ (s.endedSession p r).phase = none
      ∧ (s.endedSession p r).awaitingFresh = false ∧ (s.endedSession p r).resumePoint = none := by
  unfold endedSession
  dsimp only
  cases ((s.session p).markEnded r s.site.siteTime (s.endingNozzle p)).bank <;> dsimp only <;> split <;>
    exact ⟨rfl, rfl, rfl, rfl⟩

/-- A session that runs is marked as ended (R148 steps 1 to 3): the agreement stands, but that it still holds what it held
and is yet to join the close queue. -/
theorem marked_linked (h : Linked A none s) (r : (s.session p).running = true) (e : EndReason) :
    Linked (A.unfiling p) (some p) (s.modSession p fun x => x.markEnded e s.site.siteTime (s.endingNozzle p)) := by
  have np : p ∉ s.sales.pendingSessions := fun m => Session.running_state r (h.closing p m)
  let f : Session → Session := fun x => x.markEnded e s.site.siteTime (s.endingNozzle p)
  have s1 : (s.modSession p f).session p = f (s.session p) := modSession_session_same _ _ _
  have o1 : ∀ z, z ≠ p → (s.modSession p f).session z = s.session z := fun z c => modSession_session_ne _ _ c
  have nf : (s.session p).finalMass = none := by
    by_contra c
    exact Session.running_state r (h.massed p (Option.isSome_iff_ne_none.mpr c))
  show Linked (A.unfiling p) (some p) (s.modSession p f)
  refine ⟨fun b z => ?_, fun b z => ?_, fun z => ?_, h.once, h.refill, h.forced, h.listed, fun z m n => ?_, fun z m => ?_,
    fun z m => ?_, h.closingOnce, fun z m => ?_, fun z m => ?_, fun a z n => ?_, fun a => ?_,
    fun a => (h.agreed a).of_bm, ⟨fun z n m => ?_, fun u z m => ?_, h.shelved.served⟩⟩
  · by_cases c : z = p
    · rw [c, s1]; exact h.queued b p
    · rw [o1 z c]; exact h.queued b z
  · by_cases c : z = p
    · rw [c, s1]; exact h.held b p
    · rw [o1 z c]; exact h.held b z
  · by_cases c : z = p
    · rw [c, s1]; exact h.sole p
    · rw [o1 z c]; exact h.sole z
  · have c : z ≠ p := fun c => n (c ▸ rfl)
    rw [o1 z c]; exact h.cooled z m nofun
  · by_cases c : z = p
    · rw [c, s1]; exact ⟨fun n => absurd (c ▸ rfl) n, rfl⟩
    · rw [o1 z c] at m ⊢; exact ⟨fun _ => (h.away z m).1 nofun, (h.away z m).2⟩
  · by_cases c : z = p
    · exact absurd (c ▸ m) np
    · rw [o1 z c]; exact h.closing z m
  · by_cases c : z = p
    · rw [c, s1]; exact .inl rfl
    · rw [o1 z c] at m ⊢; exact h.massed z m
  · by_cases c : z = p
    · rw [c, s1] at m; exact nomatch m
    · rw [o1 z c] at m; exact h.registered z m
  · rw [o1 z fun c => n (congrArg some c)]
    exact h.coherent a z nofun
  · refine (h.numbered a).of_same (fun z => ?_) (.refl _) rfl
    by_cases c : z = p
    · rw [c, s1, Session.running_open r]; rfl
    · rw [o1 z c]
  · rw [o1 z fun c => n (.inr c)] at m
    exact h.shelved.filed z (fun k => n (.inl k)) m
  · have k := h.shelved.closes u z m
    rw [o1 z fun c => Session.running_state r (.inr (c ▸ k))]
    exact k

section Ending

variable (hE : endK.Links (A.unfiling p)) (hL : ∀ p, endK.LeavesOthers p)

include hE hL

/-- The steps that end a session that runs: the agreement stands, but that the position is yet to join the close queue; the
position is aside, and its record is the one of R148. -/
theorem endSteps_linked (h : Linked A none s) (r : (s.session p).running = true) (e : EndReason) :
    Linked (A.unfiling p) none (s.endSteps endK p e) ∧ Aside p (s.endSteps endK p e)
      ∧ (s.endSteps endK p e).session p = s.endedSession p e := by
  have np : p ∉ s.sales.pendingSessions := fun m => Session.running_state r (h.closing p m)
  -- the record is marked
  let f : Session → Session := fun x => x.markEnded e s.site.siteTime (s.endingNozzle p)
  have s1 : (s.modSession p f).session p = f (s.session p) := modSession_session_same _ _ _
  have l1 : Linked (A.unfiling p) (some p) (s.modSession p f) := marked_linked h r e
  -- the claim is released
  obtain ⟨l2, s2, sales2⟩ : Linked (A.unfiling p) (some p) ((s.modSession p f).releaseClaim p)
      ∧ ((s.modSession p f).releaseClaim p).session p = (match (f (s.session p)).bank with
        | some b => s.released b (f (s.session p))
        | none => f (s.session p))
      ∧ ((s.modSession p f).releaseClaim p).sales = s.sales := by
    refine ⟨releaseClaim_linked l1 (.inr rfl), ?_⟩
    cases c : ((s.modSession p f).session p).bank with
    | none =>
      rw [releaseClaim_none c]
      rw [s1] at c ⊢
      rw [c]
      exact ⟨rfl, rfl⟩
    | some b =>
      rw [releaseClaim_session l1 c, releaseClaim_eq l1 c]
      have k : p ∉ (((s.modSession p f).modSession p ((s.modSession p f).released b)).bank b).queue := not_queued l1 c b
      refine ⟨?_, (handOn_spares _ b k).sales⟩
      rw [s1] at c ⊢
      rw [c]
      rfl
  have b2 : (((s.modSession p f).releaseClaim p).session p).bank = none := by
    rw [s2]
    split
    · rfl
    · rename_i c; exact c
  -- the queue is left
  obtain ⟨l3, s3, sales3⟩ : Linked (A.unfiling p) (some p) (((s.modSession p f).releaseClaim p).leaveQueue p)
      ∧ { (((s.modSession p f).releaseClaim p).leaveQueue p).session p with cooling := CoolingView.noCooling }
        = s.endedSession p e
      ∧ (((s.modSession p f).releaseClaim p).leaveQueue p).sales = s.sales := by
    refine ⟨leaveQueue_linked l2, ?_⟩
    have aw : (((s.modSession p f).releaseClaim p).session p).awaited = (match (f (s.session p)).bank with
        | some b => s.released b (f (s.session p))
        | none => f (s.session p)).awaited := by rw [s2]
    have expand : s.endedSession p e = { (match (match (f (s.session p)).bank with
        | some b => s.released b (f (s.session p))
        | none => f (s.session p)).awaited with
      | some _ => { (match (f (s.session p)).bank with
        | some b => s.released b (f (s.session p))
        | none => f (s.session p)) with awaited := none, bankWaitTimer := none }
      | none => (match (f (s.session p)).bank with
        | some b => s.released b (f (s.session p))
        | none => f (s.session p))) with cooling := .noCooling } := rfl
    rw [expand]
    cases c : (((s.modSession p f).releaseClaim p).session p).awaited with
    | none =>
      rw [leaveQueue_none c, s2]
      rw [aw] at c
      rw [c]
      exact ⟨rfl, sales2⟩
    | some b =>
      have sp : Spares p ((((s.modSession p f).releaseClaim p).modBank b fun y =>
          { y with queue := y.queue.filter fun q => q != p }).modSession p fun y =>
          { y with awaited := none, bankWaitTimer := none }) (((s.modSession p f).releaseClaim p).leaveQueue p) := by
        unfold leaveQueue
        rw [c]
        exact settleYield_spares _ _
      rw [leaveQueue_session c, s2]
      rw [aw] at c
      rw [c]
      exact ⟨rfl, sp.sales.trans sales2⟩
  have b3 : ((((s.modSession p f).releaseClaim p).leaveQueue p).session p).bank = none := by
    cases c : (((s.modSession p f).releaseClaim p).session p).awaited with
    | none => rw [leaveQueue_none c]; exact b2
    | some b => rw [leaveQueue_session c]; exact b2
  have a3 : ((((s.modSession p f).releaseClaim p).leaveQueue p).session p).awaited = none := by
    cases c : (((s.modSession p f).releaseClaim p).session p).awaited with
    | none => rw [leaveQueue_none c]; exact c
    | some b => rw [leaveQueue_session c]
  -- cooling is given up
  have shape : s.endSteps endK p e
      = (((((s.modSession p f).releaseClaim p).leaveQueue p).leaveCooling endK p).modSession p
          fun x => { x with cooling := .noCooling }).postSession p := rfl
  generalize ((s.modSession p f).releaseClaim p).leaveQueue p = u at l3 s3 sales3 b3 a3 shape
  have c3 : A.coherent → (u.session p).Coherent := fun _ => by
    have k := endedSession_still s p e
    rw [← s3] at k
    exact .of_still (by rw [k.1]; nofun) k.2.1 b3 ⟨a3, k.2.2.1, k.2.2.2⟩
  have l4 : Linked (A.unfiling p) none (u.leaveCooling endK p) ∧ Aside p (u.leaveCooling endK p)
      ∧ (u.leaveCooling endK p).session p = u.session p := by
    have g : ∀ v : State, Linked (A.unfiling p) none v → v.session p = u.session p → p ∉ v.cbu.positions → v.sales = u.sales →
        Linked (A.unfiling p) none (v.grantWaiters endK) ∧ Aside p (v.grantWaiters endK)
          ∧ (v.grantWaiters endK).session p = u.session p := by
      intro v lv sv cv av
      have a := aside_of lv (by rw [sv]; exact a3) cv (by rw [av, sales3]; exact np)
      obtain ⟨a', e', _⟩ := grantWaiters_leaves (hL p) v a
      exact ⟨grantWaiters_linked hE lv, a', e'.trans sv⟩
    rcases leaveCooling_eq (p := p) l3.listed endK with ⟨c, m⟩ | c | ⟨n, c⟩
    · rw [c]
      have l := unlisted_linked l3 b3 a3 m c3
      exact ⟨l, aside_of l a3 m (by rw [sales3]; exact np), rfl⟩
    · rw [c]
      exact g _ (without_linked l3 b3 a3 c3) rfl (not_mem_without _ _) rfl
    · rw [c]
      exact g _ (Linked.posted (without_linked l3 b3 a3 c3)) rfl (not_mem_without _ _) rfl
  obtain ⟨l5, a5, s5⟩ := l4
  rw [shape]
  refine ⟨postSession_linked l5.session p, ⟨a5.bankQueues, a5.coolingQueue, a5.closeQueue, a5.register⟩, ?_⟩
  show ((u.leaveCooling endK p).modSession p fun x => { x with cooling := .noCooling }).session p = _
  rw [modSession_session_same, s5]
  exact s3

end Ending

/-! ### The close queue and the closing register -/

theorem idle_coherent : Session.idle.Coherent := .of_still nofun rfl rfl ⟨rfl, rfl, rfl⟩

/-- A session that has closed: its record returns to IDLE, and the register is free (R160). -/
theorem completeClosing_linked (h : Linked A.unserving none s) (e : s.sales.register = some p) :
    Linked A.unserving none (s.completeClosing p) := by
  have mem : p ∈ s.sales.pendingSessions := by
    unfold SalesUnit.pendingSessions
    rw [e]
    exact List.mem_cons_self
  have nr := Session.closed_stops (h.closing p mem)
  have aw := (h.away p nr).1 nofun
  have np : p ∉ s.cbu.positions := fun m => by
    rw [h.cooled p m nofun] at nr
    exact nomatch nr
  have nd := h.closingOnce
  unfold SalesUnit.pendingSessions at nd
  rw [e] at nd
  have nd : (p :: s.sales.closeQueue).Nodup := nd
  have pend : (s.completeClosing p).sales.pendingSessions = s.sales.closeQueue := by
    unfold completeClosing commit postMismatch
    dsimp only
    split <;> rfl
  have bm : (s.completeClosing p).bm = s.bm := by
    unfold completeClosing commit postMismatch
    dsimp only
    split <;> rfl
  have bank : ∀ b, (s.completeClosing p).bank b = s.bank b := fun b => by
    unfold State.bank
    rw [bm]
  have cbu : (s.completeClosing p).cbu = s.cbu := by
    unfold completeClosing commit postMismatch
    dsimp only
    split <;> rfl
  have sess : (s.completeClosing p).sessions = s.sessions.set p Session.idle := by
    unfold completeClosing commit postMismatch
    dsimp only
    split <;> rfl
  have same : (s.completeClosing p).session p = Session.idle := by
    unfold session
    rw [sess, Quad.get_set_same]
  have other : ∀ z, z ≠ p → (s.completeClosing p).session z = s.session z := fun z c => by
    unfold session
    rw [sess, Quad.get_set_ne _ _ c]
  refine ⟨fun b z => ?_, fun b z => ?_, fun z => ?_, fun b => ?_, fun b k => ?_, fun b f k l => ?_, ?_, fun z k l => ?_,
    fun z k => ?_, fun z k => ?_, ?_, fun z k => ?_, fun z k => ?_, fun a z n => ?_, fun a => ?_,
    fun a => (h.agreed a).of_bm bm, ⟨fun z n k => ?_, fun u => absurd trivial u, fun u => absurd trivial u⟩⟩
  · rw [bank]
    by_cases c : z = p
    · rw [c, same]
      refine ⟨fun m => ?_, nofun⟩
      rw [(h.queued b p).mp m] at aw
      exact nomatch aw.2
    · rw [other z c]; exact h.queued b z
  · rw [bank]
    by_cases c : z = p
    · rw [c, same]
      refine ⟨fun m => ?_, nofun⟩
      rw [(h.held b p).mp m] at aw
      exact nomatch aw.1
    · rw [other z c]; exact h.held b z
  · by_cases c : z = p
    · rw [c, same]; exact .inl rfl
    · rw [other z c]; exact h.sole z
  · rw [bank]; exact h.once b
  · rw [bm] at k; rw [bank]; exact h.refill b k
  · rw [bank] at k ⊢; exact h.forced b f k l
  · rw [cbu]; exact h.listed
  · rw [cbu] at k
    rw [other z fun c => np (c ▸ k)]
    exact h.cooled z k l
  · by_cases c : z = p
    · rw [c, same]; exact ⟨fun _ => ⟨rfl, rfl⟩, rfl⟩
    · rw [other z c] at k ⊢; exact h.away z k
  · rw [pend] at k
    rw [other z fun c => (List.nodup_cons.mp nd).1 (c ▸ k)]
    exact h.closing z (List.mem_append_right _ k)
  · rw [pend]; exact (List.nodup_cons.mp nd).2
  · by_cases c : z = p
    · rw [c, same] at k; exact nomatch k
    · rw [other z c] at k ⊢; exact h.massed z k
  · by_cases c : z = p
    · rw [c, same] at k; exact nomatch k
    · rw [other z c] at k
      have := h.registered z k
      rw [e] at this
      injection this with this
      exact absurd this.symm c
  · by_cases c : z = p
    · rw [c, same]; exact idle_coherent
    · rw [other z c]; exact h.coherent a z n
  · refine (h.numbered a).commit (p := p) (v := s.saleRecord p) (Session.closed_open (h.closing p mem)) (by rw [same]; rfl)
      (fun z c => by rw [other z c]) ?_ rfl ?_
    · unfold completeClosing commit postMismatch
      dsimp only
      split <;> rfl
    · unfold completeClosing commit postMismatch
      dsimp only
      split <;> rfl
  · have cq : (s.completeClosing p).sales.closeQueue = s.sales.closeQueue := by
      unfold completeClosing commit postMismatch
      dsimp only
      split <;> rfl
    rw [cq]
    by_cases c : z = p
    · rw [c, same] at k; exact nomatch k
    · rw [other z c] at k; exact h.shelved.filed z n k

/-- A change of a closed session that leaves it closed. -/
theorem closed_linked (h : Linked A none s) {f : Session → Session} (c : (s.session p).state = .ended ∨ (s.session p).state = .closing)
    (k : (f (s.session p)).state = .ended ∨ (f (s.session p)).state = .closing)
    (e : ((f (s.session p)).bank, (f (s.session p)).awaited, (f (s.session p)).awaitingFresh)
      = ((s.session p).bank, (s.session p).awaited, (s.session p).awaitingFresh))
    (v : (f (s.session p)).state = .closing → s.sales.register = some p) (sh : Shelved A (s.modSession p f))
    (co : A.coherent → (s.session p).Coherent → (f (s.session p)).Coherent := by
      exact fun _ h => ⟨h.phase, h.selects, h.holds, h.resumes⟩) : Linked A none (s.modSession p f) := by
  have nr := Session.closed_stops c
  have aw := h.away p nr
  have eb : (f (s.session p)).bank = (s.session p).bank := congrArg (·.1) e
  have ea : (f (s.session p)).awaited = (s.session p).awaited := congrArg (·.2.1) e
  have ef : (f (s.session p)).awaitingFresh = (s.session p).awaitingFresh := congrArg (·.2.2) e
  have same : (s.modSession p f).session p = f (s.session p) := modSession_session_same _ _ _
  have other : ∀ z, z ≠ p → (s.modSession p f).session z = s.session z := fun z n => modSession_session_ne _ _ n
  refine ⟨fun b z => ?_, fun b z => ?_, fun z => ?_, h.once, h.refill, h.forced, h.listed, fun z m l => ?_, fun z m => ?_,
    fun z m => ?_, h.closingOnce, fun z m => ?_, fun z m => ?_, fun a z m => ?_, fun a => ?_, fun a => (h.agreed a).of_bm,
    sh⟩
  · by_cases n : z = p
    · rw [n, same, ea]; exact h.queued b p
    · rw [other z n]; exact h.queued b z
  · by_cases n : z = p
    · rw [n, same, eb]; exact h.held b p
    · rw [other z n]; exact h.held b z
  · by_cases n : z = p
    · rw [n, same, eb, ea]; exact h.sole p
    · rw [other z n]; exact h.sole z
  · by_cases n : z = p
    · have := h.cooled z m l
      rw [n, nr] at this
      exact nomatch this
    · rw [other z n]; exact h.cooled z m l
  · by_cases n : z = p
    · rw [n, same, eb, ea, ef]; exact aw
    · rw [other z n] at m ⊢; exact h.away z m
  · by_cases n : z = p
    · rw [n, same]; exact k
    · rw [other z n]; exact h.closing z m
  · by_cases n : z = p
    · rw [n, same]; exact k
    · rw [other z n] at m ⊢; exact h.massed z m
  · by_cases n : z = p
    · rw [n, same] at m; rw [n]; exact v m
    · rw [other z n] at m; exact h.registered z m
  · by_cases n : z = p
    · rw [n, same]; exact co a (h.coherent a p nofun)
    · rw [other z n]; exact h.coherent a z m
  · refine (h.numbered a).of_same (fun z => ?_) (.refl _) rfl
    by_cases n : z = p
    · rw [n, same, Session.closed_open c, Session.closed_open k]
    · rw [other z n]

theorem takeRegister_linked {rest : List PosId} (h : Linked A.unserving none s) (r : s.sales.register = none)
    (q : s.sales.closeQueue = p :: rest) : Linked A.unserving none (s.takeRegister p rest) := by
  have pend : ({ s.sales with closeQueue := rest, register := some p } : SalesUnit).pendingSessions
      = s.sales.pendingSessions := by
    unfold SalesUnit.pendingSessions
    rw [r, q]
    rfl
  have filed : ∀ z, ¬A.unfiled z → z ≠ p → (s.session z).state = .ended → z ∈ rest := fun z n c m => by
    have := h.shelved.filed z n m
    rw [q, List.mem_cons] at this
    exact this.resolve_left c
  have open_ : ∀ q, (s.session q).state ≠ .closing := fun q c => by
    have := h.registered q c
    rw [r] at this
    exact nomatch this
  have k : Linked (A.unserving.unfiling p) none (s.modSales fun u => { u with closeQueue := rest, register := some p }) :=
    ⟨h.queued, h.held, h.sole, h.once, h.refill, h.forced, h.listed, h.cooled, h.away,
      fun q m => h.closing q (pend ▸ m), by
        show ({ s.sales with closeQueue := rest, register := some p } : SalesUnit).pendingSessions.Nodup
        rw [pend]
        exact h.closingOnce, h.massed, fun q c => absurd c (open_ q), h.coherent, fun a =>
          (h.numbered a).of_same (fun _ => rfl) (.refl _) rfl, fun a => (h.agreed a).of_bm,
        ⟨fun z n m => filed z (fun k => n (.inl k)) (fun k => n (.inr k)) m, fun u => absurd trivial u,
          fun u => absurd trivial u⟩⟩
  have mem : p ∈ s.sales.pendingSessions := by
    unfold SalesUnit.pendingSessions
    rw [q]
    exact List.mem_append_right _ List.mem_cons_self
  refine postSession_linked (Linked.reshelve (A := A.unserving.unfiling p)
    (closed_linked (f := fun x => { x with state := .closing }) k (h.closing p mem) (.inr rfl) rfl (fun _ => rfl)
      ⟨fun z n m => ?_, fun u => absurd trivial u, fun u => absurd trivial u⟩ fun _ c => ?_)
    ⟨fun z n m => ?_, fun u => absurd trivial u, fun u => absurd trivial u⟩) p
  · rw [modSession_session_ne _ _ fun c => n (.inr c)] at m
    exact filed z (fun k => n (.inl k)) (fun c => n (.inr c)) m
  have st : ∀ e, (s.session p).state = e → e = .ended ∨ e = .closing := fun e m => m ▸ h.closing p mem
  have ph := c.no_phase fun m => by rcases st _ m with m | m <;> exact nomatch m
  have rd := c.ready (by rw [ph]; nofun) fun m => by rcases st _ m with m | m <;> exact nomatch m
  have bk := c.no_bank fun m => by rcases m with m | m | m <;> rcases st _ m with m | m <;> exact nomatch m
  · exact .of_still nofun ph bk ⟨rd.awaited, rd.fresh, rd.resume⟩
  · by_cases c : z = p
    · rw [c, modSession_session_same] at m
      exact nomatch m
    · rw [modSession_session_ne _ _ c] at m
      exact filed z n c m

theorem serveRegister_linked (n : Nat) (s : State) (h : Linked A.unserving none s) :
    Linked A.unserving none (serveRegister n s) := by
  induction n generalizing s with
  | zero => exact h
  | succ n ih =>
    unfold serveRegister
    split
    · rename_i p rest r q
      have k := takeRegister_linked h r q
      exact .ite (fun _ => ih _ (completeClosing_linked k rfl)) fun _ => k.sales
    · exact h

theorem completeClosing_closeQueue (s : State) (p : PosId) :
    (s.completeClosing p).sales.closeQueue = s.sales.closeQueue := by
  unfold completeClosing commit postMismatch
  dsimp only
  split <;> rfl

/-- The register is free once a closing is complete. -/
theorem completeClosing_closes (s : State) (p q : PosId) (e : (s.completeClosing p).sales.register = some q) :
    ((s.completeClosing p).session q).state = .closing := by
  unfold completeClosing at e
  exact nomatch e

/-- The register is not left free while the close queue is not empty (R159). -/
theorem serveRegister_served (n : Nat) (s : State) (h : s.sales.closeQueue.length ≤ n)
    (r : (serveRegister n s).sales.register = none) : (serveRegister n s).sales.closeQueue = [] := by
  induction n generalizing s with
  | zero => exact List.length_eq_zero_iff.mp (Nat.le_zero.mp h)
  | succ n ih =>
    revert r
    unfold serveRegister
    split
    · rename_i p rest _ e
      have l : rest.length ≤ n := by
        rw [e] at h
        exact Nat.le_of_succ_le_succ h
      dsimp only
      split
      · exact ih _ (by rw [completeClosing_closeQueue]; exact l)
      · exact fun r => nomatch r
    · rename_i a
      intro r
      cases e : s.sales.closeQueue with
      | nil => rfl
      | cons p rest => exact absurd e (a p rest r)

/-- The session in the register is CLOSING (R159). -/
theorem serveRegister_closes (n : Nat) (s : State)
    (h : ∀ p, s.sales.register = some p → (s.session p).state = .closing) (p : PosId)
    (r : (serveRegister n s).sales.register = some p) : ((serveRegister n s).session p).state = .closing := by
  induction n generalizing s with
  | zero => exact h p r
  | succ n ih =>
    revert r
    unfold serveRegister
    split
    · rename_i q rest _ e
      dsimp only
      split
      · exact ih _ fun z => completeClosing_closes _ _ z
      · intro r
        have r : some q = some p := r
        injection r with r
        subst r
        show (((s.modSales _).modSession q fun x => { x with state := .closing }).session q).state = _
        rw [modSession_session_same]
    · exact h p

/-- The register is served from the close queue (R159). -/
theorem serveCloseQueue_linked (h : Linked A.unserving none s)
    (c : ¬A.unserved → ∀ p, s.sales.register = some p → (s.session p).state = .closing) : Linked A none s.serveCloseQueue :=
  (serveRegister_linked _ _ h).reshelve ⟨(serveRegister_linked _ _ h).shelved.filed,
    fun u p => serveRegister_closes _ _ (c u) p, fun _ => serveRegister_served _ _ (le_refl _)⟩

/-- A session that has ended, and stands in no list, joins the close queue. -/
theorem joinCloseQueue_linked (h : Linked (A.unfiling p) none s) (a : Aside p s)
    (c : (s.session p).state = .ended ∨ (s.session p).state = .closing) : Linked A none (s.joinCloseQueue p) := by
  have pend : (s.modSales fun u => { u with closeQueue := u.closeQueue ++ [p] }).sales.pendingSessions
      = s.sales.pendingSessions ++ [p] := by
    unfold SalesUnit.pendingSessions
    simp
  have np : p ∉ s.sales.pendingSessions := fun m => by
    rcases List.mem_append.mp m with m | m
    · cases e : s.sales.register with
      | none => rw [e] at m; exact nomatch m
      | some q =>
        rw [e] at m
        exact a.register (e.trans (congrArg some (List.mem_singleton.mp m).symm))
    · exact a.closeQueue m
  refine serveCloseQueue_linked ⟨h.queued, h.held, h.sole, h.once, h.refill, h.forced, h.listed, h.cooled, h.away,
    fun q m => ?_, ?_, h.massed, h.registered, h.coherent, fun a => (h.numbered a).of_same (fun _ => rfl) (.refl _) rfl,
    fun a => (h.agreed a).of_bm, ⟨fun z n m => ?_, fun u => absurd trivial u, fun u => absurd trivial u⟩⟩
    fun u => h.shelved.closes u
  · rw [pend] at m
    rcases List.mem_append.mp m with m | m
    · exact h.closing q m
    · rw [List.mem_singleton.mp m]; exact c
  · rw [pend]
    refine List.Nodup.append h.closingOnce (List.nodup_singleton p) fun z m m' => ?_
    rw [List.mem_singleton.mp m'] at m
    exact np m
  · by_cases c : z = p
    · rw [c]; exact List.mem_append_right _ List.mem_cons_self
    · exact List.mem_append_left _ (h.shelved.filed z (fun k => k.elim n c) m)

theorem endedSession_state (s : State) (p : PosId) (r : EndReason) : (s.endedSession p r).state = .ended := by
  unfold endedSession
  dsimp only
  cases ((s.session p).markEnded r s.site.siteTime (s.endingNozzle p)).bank <;> dsimp only <;> split <;> rfl

end State

variable {A : Aspects}

theorem endSession_links (n : Nat) : (endSession n).Links A := by
  induction n generalizing A with
  | zero => exact fun _ _ _ h => h
  | succ n ih =>
    intro p e s h
    refine .ite (fun r => ?_) fun _ => h
    obtain ⟨l, a, x⟩ := State.endSteps_linked ih (fun p => endSession_leaves p n) h r e
    exact State.joinCloseQueue_linked l a (.inl (by rw [x]; exact State.endedSession_state s p e))

theorem endNow_links : endNow.Links A := endSession_links 4

theorem State.endWith_linked {s : State} (h : Linked A none s) (p : PosId) (r : EndReason) : Linked A none (s.endWith p r) :=
  endNow_links p r s h

end Sys2Proof.Machine
end

