-- ==== Sys2Proof/Laws/Course.lean ====
section
/-! SUPPORT. What follows the end of a session within its event: which waiters are granted cooling, which of them end in
turn, and how the close queue and the closing register then stand. -/

namespace Sys2Proof.Machine

set_option Elab.async false

/-- No position is listed twice for cooling; and while the register is free, no session waits to be closed. -/
structure Ready (s : State) : Prop where
  listed : s.cbu.positions.Nodup
  served : s.sales.register = none → s.sales.closeQueue = []
  unmassed : s.sales.register = none → ∀ q, (s.session q).finalMass = none

/-- The entry of the grant list that a waiter becomes. -/
def Waiter.granted (w : Waiter) : Grant := ⟨w.pos, w.demand, w.limit⟩

/-- From one state to another the waiters of `taken` have been granted and the sessions of `gone` have ended and joined the
close queue, each of them one of `X` or of the waiters granted. The end reasons of the positions in `Y` are left open. -/
structure Course (X Y gone : List PosId) (taken rest : List Waiter) (s t : State) : Prop where
  ready : Ready t
  steady : Steady s t
  named : ∀ q ∈ gone, q ∈ X ∨ q ∈ taken.map (·.pos)
  queue : s.cbu.queue = taken ++ rest
  left : t.cbu.queue = rest.filter (·.pos ∉ gone)
  grants : t.cbu.grants = (s.cbu.grants ++ taken.map Waiter.granted).filter (·.pos ∉ gone)
  demand : t.cbu.queue ≠ s.cbu.queue → Notice.coolingDemand (t.cbu.queue.map (·.demand)).sum ∈ t.outbox
  keeps : ∀ q, q ∉ gone → (s.session q).cooling = .granted → (t.session q).cooling = .granted
  told : ∀ w ∈ taken, w.pos ∉ gone → (t.session w.pos).cooling = .granted
  reasons : ∀ q ∈ gone, q ∉ Y → (t.session q).endReason = some .banksExhausted
  stays : ∀ q, q ∉ Y → (s.session q).endReason = some .banksExhausted → (t.session q).endReason = some .banksExhausted
  joined : t.sales.pendingSessions = s.sales.pendingSessions ++ gone
  free : s.sales.register = none → t.sales.register = gone.head?
    ∧ (gone ≠ [] → t.sales.closingTimer = some (s.config.param 9))
    ∧ (gone = [] → t.sales.closingTimer = s.sales.closingTimer)
  busy : s.sales.register ≠ none → t.sales.register = s.sales.register ∧ t.sales.closingTimer = s.sales.closingTimer
  records : t.sales.records = s.sales.records ∧ t.sales.counter = s.sales.counter

theorem Steady.param {s t : State} (h : Steady s t) (i : Nat) : t.config.param i = s.config.param i := by
  unfold State.config
  rw [h.site]

namespace Course

variable {X Y : List PosId} {s t u : State}

/-- What leaves the Cooling Budget Unit, the Sales Unit and what the sessions were told alone. -/
theorem of_apart (r : Ready s) (h : Steady s t) (a : Apart s t) : Course X Y [] [] s.cbu.queue s t where
  ready := ⟨by rw [a.cbu]; exact r.listed, fun e => by rw [a.sales] at e ⊢; exact r.served e, fun e q => by
    rw [a.sales] at e
    exact (Session.fixed_finalMass (h.sessions q (r.unmassed e q))).trans (r.unmassed e q)⟩
  steady := h
  named _ m := absurd m List.not_mem_nil
  queue := rfl
  left := by rw [a.cbu]; simp
  grants := by rw [a.cbu]; simp
  demand n := absurd (by rw [a.cbu]) n
  keeps q _ e := (congrArg (·.1) (a.told q)).trans e
  told _ m := absurd m List.not_mem_nil
  reasons _ m := absurd m List.not_mem_nil
  stays q _ e := (congrArg (·.2) (a.told q)).trans e
  joined := by rw [a.sales, List.append_nil]
  free e := by rw [a.sales]; exact ⟨e, fun c => absurd rfl c, fun _ => rfl⟩
  busy _ := by rw [a.sales]; exact ⟨rfl, rfl⟩
  records := by rw [a.sales]; exact ⟨rfl, rfl⟩

/-- One course after another; the second may end the waiters that the first has granted. -/
theorem trans {X' g g' : List PosId} {k r k' r' : List Waiter} (h : Course X Y g k r s t) (l : Course X' Y g' k' r' t u)
    (x : ∀ q ∈ X', q ∈ X ∨ q ∈ k.map (·.pos)) : ∃ a b, r = a ++ b ∧ Course X Y (g ++ g') (k ++ a) b s u := by
  obtain ⟨a, b, e, ea, eb⟩ := List.filter_eq_append_iff.mp (h.left.symm.trans l.queue)
  have away : ∀ q, q ∉ g ++ g' ↔ q ∉ g ∧ q ∉ g' := fun q => by rw [List.mem_append, not_or]
  have sub : ∀ {α : Type} (f : α → PosId) (m : List α),
      (m.filter (f · ∉ g)).filter (f · ∉ g') = m.filter (f · ∉ g ++ g') := fun f m => by
    rw [List.filter_filter]
    refine List.filter_congr fun w _ => ?_
    simp only [List.mem_append, not_or, Bool.decide_and, Bool.and_comm]
  refine ⟨a, b, e, l.ready, h.steady.trans l.steady, fun q m => ?_, by rw [h.queue, e, List.append_assoc], ?_, ?_, fun n => ?_,
    fun q n c => l.keeps q ((away q).mp n).2 (h.keeps q ((away q).mp n).1 c), fun w m n => ?_, fun q m n => ?_,
    fun q n c => l.stays q n (h.stays q n c), by rw [l.joined, h.joined, List.append_assoc], fun f => ?_, fun f => ?_,
    ⟨l.records.1.trans h.records.1, l.records.2.trans h.records.2⟩⟩
  · have up : q ∈ k.map (·.pos) → q ∈ (k ++ a).map (·.pos) := fun m => by
      rw [List.map_append]; exact List.mem_append_left _ m
    rcases List.mem_append.mp m with m | m
    · exact (h.named q m).imp_right up
    · rcases l.named q m with m | m
      · exact (x q m).imp_right up
      · rw [← ea] at m
        obtain ⟨w, n, c⟩ := List.mem_map.mp m
        exact .inr (List.mem_map.mpr ⟨w, List.mem_append_right _ (List.mem_of_mem_filter n), c⟩)
  · rw [l.left, ← eb]
    exact sub (·.pos) b
  · have n : (k'.map Waiter.granted) = (a.map Waiter.granted).filter (·.pos ∉ g) := by
      rw [List.filter_map, ← ea]
      rfl
    rw [l.grants, h.grants, n, ← List.filter_append]
    refine (sub Grant.pos _).trans ?_
    rw [List.map_append, List.append_assoc]
  · by_cases c : u.cbu.queue = t.cbu.queue
    · rw [c] at n ⊢
      exact l.steady.posts.subset (h.demand n)
    · exact l.demand c
  · rcases List.mem_append.mp m with m | m
    · exact l.keeps _ ((away _).mp n).2 (h.told w m ((away _).mp n).1)
    · refine l.told w ?_ ((away _).mp n).2
      rw [← ea]
      exact List.mem_filter.mpr ⟨m, by simpa using ((away _).mp n).1⟩
  · rcases List.mem_append.mp m with m | m
    · exact l.stays q n (h.reasons q m n)
    · exact l.reasons q m n
  · have h' := h.free f
    cases g with
    | nil =>
      have l' := l.free h'.1
      rw [h.steady.param, h'.2.2 rfl] at l'
      exact l'
    | cons p g =>
      have l' := l.busy (by rw [h'.1]; nofun)
      rw [h'.1, h'.2.1 nofun] at l'
      exact ⟨l'.1, fun _ => l'.2, nofun⟩
  · have h' := h.busy f
    have l' := l.busy (by rw [h'.1]; exact f)
    exact ⟨l'.1.trans h'.1, l'.2.trans h'.2⟩

/-- A course that ends only waiters it has granted. -/
theorem within {X' g : List PosId} {k r : List Waiter} (h : Course X Y g k r s t)
    (x : ∀ q ∈ X, q ∈ X' ∨ q ∈ k.map (·.pos)) : Course X' Y g k r s t :=
  { h with named := fun q m => (h.named q m).elim (x q) .inr }

theorem shorter {g : List PosId} {k r : List Waiter} (h : Course X Y g k r s t) :
    t.cbu.queue.length ≤ s.cbu.queue.length := by
  rw [h.left, h.queue, List.length_append]
  exact (List.length_filter_le _ _).trans (Nat.le_add_left _ _)

end Course

/-- From a state in which it may, an event takes such a course. -/
def Ensues (X Y : List PosId) (s t : State) : Prop := Ready s → ∃ gone taken rest, Course X Y gone taken rest s t

namespace Ensues

variable {X Y : List PosId} {s t u : State}

theorem of (h : Steady s t) (a : Apart s t) : Ensues X Y s t := fun r => ⟨_, _, _, .of_apart r h a⟩

theorem refl (s : State) : Ensues X Y s s := .of (.refl s) (.refl s)

theorem trans (h : Ensues X Y s t) (k : Ensues X Y t u) : Ensues X Y s u := fun r => by
  obtain ⟨g, k1, r1, c⟩ := h r
  obtain ⟨g', k2, r2, d⟩ := k c.ready
  obtain ⟨a, b, _, e⟩ := c.trans d fun q m => .inl m
  exact ⟨_, _, _, e⟩

theorem ite {c : Prop} [Decidable c] (h : c → Ensues X Y s t) (k : ¬c → Ensues X Y s u) :
    Ensues X Y s (if c then t else u) := by
  split
  · exact h ‹_›
  · exact k ‹_›

end Ensues

/-- An ender after which the event takes such a course. -/
def Ender.EnsuingEnd (Y : List PosId) (endK : Ender) : Prop := ∀ q s, Ensues [q] Y s (endK q .banksExhausted s)

namespace State

variable {Y : List PosId} {endK : Ender} (hE : endK.EnsuingEnd Y)

/-! ### Selecting, leaving OPENING and HELD -/

include hE

theorem selectBank_ensues (s : State) (p : PosId) : Ensues [p] Y s (s.selectBank endK p) := by
  unfold selectBank
  refine .ite (fun _ => .of (awaitFresh_steady _ _) (awaitFresh_apart _ _)) fun _ => ?_
  split
  · exact .of (claim_steady _ _ _) (claim_apart _ _ _)
  · exact hE _ _

theorem claimPhase_ensues (s : State) (p : PosId) : Ensues [p] Y s (((s.enterClaim p).postSession p).selectBank endK p) :=
  (Ensues.of ((enterClaim_steady s p).trans (postSession_steady _ p))
    ((enterClaim_apart s p).trans (postSession_apart _ p))).trans (selectBank_ensues hE _ _)

theorem leaveOpening_ensues (s : State) (p : PosId) : Ensues [p] Y s (s.leaveOpening endK p) :=
  (Ensues.of ((newConnection_steady s p _ _).trans (restartProgress_steady _ _))
    ((newConnection_apart s p _ _).trans (restartProgress_apart _ _))).trans
    (.ite (fun _ => claimPhase_ensues hE _ _) fun _ => .of (enterHeld_steady _ _ _) (enterHeld_apart _ _ _))

theorem reconnect_ensues (s : State) (p : PosId) : Ensues [p] Y s (s.reconnect endK p) :=
  (Ensues.of (newConnection_steady s p _ _) (newConnection_apart s p _ _)).trans (claimPhase_ensues hE _ _)

theorem resumeConnection_ensues (s : State) (p : PosId) (f : Phase) : Ensues [p] Y s (s.resumeConnection endK p f) := by
  unfold resumeConnection
  refine (Ensues.of (((Steady.refl s).session (p := p) (f := fun x => { x with resumePoint := none })).trans
      ((enterClaim_steady _ p).trans (postSession_steady _ p)))
    (((Apart.refl s).session (p := p) (f := fun x => { x with resumePoint := none })).trans
      ((enterClaim_apart _ p).trans (postSession_apart _ p)))).trans ?_
  cases f
  · exact selectBank_ensues hE _ _
  · exact .of (beginConnect_steady _ _) (beginConnect_apart _ _)
  · exact .of (beginLeakCheck_steady _ _) (beginLeakCheck_apart _ _)
  · exact .of (beginSettle_steady _ _) (beginSettle_apart _ _)

theorem resume_ensues (s : State) (p : PosId) : Ensues [p] Y s (s.resume endK p) := by
  unfold resume
  refine (Ensues.of ((Steady.refl s).session (p := p) (f := fun x => x.leaveHold (s.profileOf p).holdLimit))
    ((Apart.refl s).session (p := p) (f := fun x => x.leaveHold (s.profileOf p).holdLimit))).trans ?_
  dsimp only
  split
  · exact resumeConnection_ensues hE _ _ _
  · exact .ite (fun _ => .of (enterDelivering_steady _ _) (enterDelivering_apart _ _)) fun _ => reconnect_ensues hE _ _

theorem startResume_ensues (s : State) (p : PosId) : Ensues [p] Y s (s.startResume endK p) := by
  unfold startResume
  exact .ite (fun _ => resume_ensues hE _ _) fun _ => .of (Steady.refl s).session (Apart.refl s).session

theorem clearFactor_ensues (s : State) (p : PosId) (f : Factor) : Ensues [p] Y s (s.clearFactor endK p f) := by
  unfold clearFactor
  refine .ite (fun _ => ?_) fun _ => .refl s
  refine (Ensues.of ((Steady.refl s).session (p := p) (f := fun x => { x with factors := x.factors.put f false }))
    ((Apart.refl s).session (p := p) (f := fun x => { x with factors := x.factors.put f false }))).trans ?_
  exact .ite (fun _ => startResume_ensues hE _ _) fun _ => .refl _

/-! ### Cooling -/

omit hE in
/-- The head of the wait queue becomes the newest grant, and its session regards its cooling as granted. -/
theorem grantHead_course {s : State} (r : Ready s) {w : Waiter} {rest : List Waiter} (e : s.cbu.queue = w :: rest)
    (fits : ¬s.cbu.capacity < s.granted + w.demand) :
    Course [] Y [] [w] rest s ((s.grantHead w rest).modSession w.pos fun x => { x with cooling := .granted }) where
  ready := ⟨by
    refine (List.Perm.nodup_iff ?_).mp r.listed
    show (s.cbu.grants.map (·.pos) ++ s.cbu.queue.map (·.pos)).Perm
      ((s.cbu.grants ++ [Grant.mk w.pos w.demand w.limit]).map (·.pos) ++ rest.map (·.pos))
    rw [e]
    simp, r.served, fun f q => by
    rw [modSession_session]
    split
    · exact r.unmassed f w.pos
    · exact r.unmassed f q⟩
  steady := (grantHead_steady s w rest (not_lt.mp fits)).session
  named _ m := absurd m List.not_mem_nil
  queue := e
  left := by simp [grantHead, setCoolingQueue]
  grants := by simp [grantHead, setCoolingQueue, Waiter.granted]
  demand _ := List.mem_append_right _ List.mem_cons_self
  keeps q _ c := by
    rw [modSession_session]
    split
    · rfl
    · exact c
  told v m _ := by
    rw [List.mem_singleton.mp m, modSession_session_same]
  reasons _ m := absurd m List.not_mem_nil
  stays q _ c := by
    rw [modSession_session]
    split
    · rename_i k; exact k ▸ c
    · exact c
  joined := (List.append_nil _).symm
  free f := ⟨f, fun c => absurd rfl c, fun _ => rfl⟩
  busy _ := ⟨rfl, rfl⟩
  records := ⟨rfl, rfl⟩

/-- Waiters are granted from the head, each with all that follows, until the head does not fit (R90). -/
theorem grantFromHead_course (n : Nat) {s : State} (r : Ready s) : ∃ gone taken rest,
    Course [] Y gone taken rest s (grantFromHead endK n s)
      ∧ (s.cbu.queue.length ≤ n →
        HeadWaits (grantFromHead endK n s).cbu.capacity (grantFromHead endK n s).granted
          (grantFromHead endK n s).cbu.queue) := by
  induction n generalizing s with
  | zero =>
    refine ⟨_, _, _, .of_apart r (.refl s) (.refl s), fun l w rest e => ?_⟩
    have e : s.cbu.queue = w :: rest := e
    rw [e] at l
    exact nomatch l
  | succ n ih =>
    unfold grantFromHead
    split
    · rename_i e
      exact ⟨_, _, _, .of_apart r (.refl s) (.refl s), fun _ w rest e' => by rw [e] at e'; exact nomatch e'⟩
    · rename_i w rest e
      split
      · rename_i f
        refine ⟨_, _, _, .of_apart r (.refl s) (.refl s), fun _ v more e' => ?_⟩
        rw [e] at e'
        injection e' with a _
        exact a ▸ f
      · rename_i f
        have c := grantHead_course (Y := Y) r e f
        have k : Ensues [w.pos] Y ((s.grantHead w rest).modSession w.pos fun x => { x with cooling := .granted })
            ((s.grantHead w rest).coolingGranted endK w.pos) :=
          .ite (fun _ => leaveOpening_ensues hE _ _) fun _ => clearFactor_ensues hE _ _ _
        obtain ⟨g2, k2, r2, d⟩ := k c.ready
        obtain ⟨g3, k3, r3, f3, wait⟩ := ih d.ready
        obtain ⟨a, b, _, cd⟩ := c.trans d fun q m => .inr (by
          rw [List.mem_singleton.mp m]
          exact List.mem_map.mpr ⟨w, List.mem_cons_self, rfl⟩)
        obtain ⟨a', b', _, cdf⟩ := cd.trans f3 fun q m => absurd m List.not_mem_nil
        refine ⟨_, _, _, cdf, fun l => wait ?_⟩
        have l1 := d.shorter
        have l2 : ((s.grantHead w rest).modSession w.pos fun x => { x with cooling := .granted }).cbu.queue = rest := rfl
        rw [l2] at l1
        rw [e] at l
        exact l1.trans (Nat.le_of_succ_le_succ l)

theorem grantWaiters_course {s : State} (r : Ready s) : ∃ gone taken rest, Course [] Y gone taken rest s (s.grantWaiters endK)
    ∧ HeadWaits (s.grantWaiters endK).cbu.capacity (s.grantWaiters endK).granted (s.grantWaiters endK).cbu.queue := by
  obtain ⟨g, k, r', c, w⟩ := grantFromHead_course hE s.cbu.queue.length r
  exact ⟨g, k, r', c, w (le_refl _)⟩

omit hE

/-! ### Ends -/

theorem serveRegister_busy {s : State} (n : Nat) (h : s.sales.register ≠ none) : serveRegister n s = s := by
  cases n with
  | zero => rfl
  | succ n =>
    unfold serveRegister
    split
    · rename_i e _
      exact absurd e h
    · rfl

/-- A session that ends while another is in the register joins the close queue (R159). -/
theorem joinCloseQueue_busy {s : State} {p : PosId} (h : s.sales.register ≠ none) :
    s.joinCloseQueue p = s.modSales fun u => { u with closeQueue := u.closeQueue ++ [p] } := by
  unfold joinCloseQueue serveCloseQueue
  exact serveRegister_busy _ h

/-- A session that ends while the register is free takes it (R159). -/
theorem joinCloseQueue_free {s : State} {p : PosId} (h : s.sales.register = none) (q : s.sales.closeQueue = [])
    (m : (s.session p).finalMass = none) :
    s.joinCloseQueue p =
      ((((s.modSales fun u => { u with closeQueue := [] ++ [p] }).takeRegister p []).startClosing) : State) := by
  have len : (s.sales.closeQueue ++ [p]).length = 1 := by rw [q]; rfl
  unfold joinCloseQueue serveCloseQueue
  rw [modSales_sales]
  dsimp only
  rw [len]
  unfold serveRegister
  rw [modSales_sales]
  dsimp only
  rw [h, q]
  have fm : ((((s.modSales fun u => { u with closeQueue := u.closeQueue ++ [p] }).takeRegister p []).session p).finalMass) = none := by
    show ((((s.modSales _).modSales _).modSession p fun x => { x with state := .closing }).session p).finalMass = none
    rw [modSession_session_same]
    exact m
  dsimp only [List.nil_append]
  rw [fm]
  unfold modSales
  dsimp only
  rw [q]
  rfl

/-- What joining the close queue does, while the register is free only with no session waiting to be closed. -/
structure Joins (p : PosId) (s t : State) : Prop where
  steady : Steady s t
  cbu : t.cbu = s.cbu
  told : ∀ q, (t.session q).told = (s.session q).told
  joined : t.sales.pendingSessions = s.sales.pendingSessions ++ [p]
  free : s.sales.register = none → t.sales.register = some p ∧ t.sales.closeQueue = []
    ∧ t.sales.closingTimer = some (s.config.param 9)
  busy : s.sales.register ≠ none → t.sales.register = s.sales.register ∧ t.sales.closingTimer = s.sales.closingTimer
  records : t.sales.records = s.sales.records ∧ t.sales.counter = s.sales.counter
  bm : t.bm = s.bm
  others : ∀ q, q ≠ p → t.session q = s.session q
  takes : s.sales.register = none → t.session p = { s.session p with state := .closing }
    ∧ Notice.sessionState p .closing (s.session p).endReason (s.session p).reference ∈ t.outbox
  waits : s.sales.register ≠ none → t.session p = s.session p ∧ p ∈ t.sales.closeQueue

theorem joinCloseQueue_joins {s : State} {p : PosId} (c : s.sales.register = none → s.sales.closeQueue = [])
    (m : s.sales.register = none → (s.session p).finalMass = none) : Joins p s (s.joinCloseQueue p) := by
  have st := joinCloseQueue_steady s p
  cases e : s.sales.register with
  | none =>
    rw [joinCloseQueue_free e (c e) (m e)] at st ⊢
    have same : ((((s.modSales fun u => { u with closeQueue := [] ++ [p] }).takeRegister p []).startClosing) : State).session p
        = { s.session p with state := .closing } := by
      show (((s.modSales _).modSales _).modSession p fun x => { x with state := .closing }).session p = _
      rw [modSession_session_same]
      rfl
    refine ⟨st, rfl, fun q => ?_, ?_, fun _ => ⟨rfl, rfl, rfl⟩, fun n => absurd e n, ⟨rfl, rfl⟩, rfl,
      fun q n => ?_, fun _ => ⟨same, ?_⟩, fun n => absurd e n⟩
    · show ((((s.modSales _).modSales _).modSession p fun x => { x with state := .closing }).session q).told = _
      rw [modSession_session]
      split
      · rename_i k; rw [k]; rfl
      · rfl
    · unfold SalesUnit.pendingSessions
      rw [e, c e]
      rfl
    · show (((s.modSales _).modSales _).modSession p fun x => { x with state := .closing }).session q = _
      rw [modSession_session_ne _ _ n]
      rfl
    · exact List.mem_append_right _ (List.mem_singleton.mpr
        (congrArg (fun x : Session => Notice.sessionState p x.state x.endReason x.reference) same).symm)
  | some z =>
    have n : s.sales.register ≠ none := by rw [e]; nofun
    rw [joinCloseQueue_busy n] at st ⊢
    refine ⟨st, rfl, fun _ => rfl, ?_, fun f => absurd f n, fun _ => ⟨rfl, rfl⟩, ⟨rfl, rfl⟩, rfl, fun _ _ => rfl,
      fun f => absurd f n, fun _ => ⟨rfl, List.mem_append_right _ (List.mem_singleton.mpr rfl)⟩⟩
    unfold SalesUnit.pendingSessions
    simp

/-- A session that gives up its cooling: its entry is gone, and what then follows is the granting of waiters (R93). -/
theorem leaveCooling_split {s : State} {p : PosId} (h : s.cbu.positions.Nodup) (endK : Ender) : ∃ v : State,
    v.cbu = without s.cbu p ∧ v.sales = s.sales ∧ v.sessions = s.sessions ∧ v.bm = s.bm ∧ v.monitors = s.monitors
      ∧ Steady s v
      ∧ (v.cbu.queue ≠ s.cbu.queue → Notice.coolingDemand (v.cbu.queue.map (·.demand)).sum ∈ v.outbox)
      ∧ (p ∉ s.cbu.positions → s.leaveCooling endK p = v)
      ∧ (p ∈ s.cbu.positions → s.leaveCooling endK p = v.grantWaiters endK) := by
  unfold leaveCooling
  by_cases g : p ∈ s.cbu.grants.map (·.pos)
  · rw [if_pos (mem_positions_grants.mpr g)]
    have q : p ∉ s.cbu.queue.map (·.pos) := fun m => (List.disjoint_of_nodup_append h) g m
    have e : without s.cbu p = { s.cbu with grants := s.cbu.grants.filter fun g => g.pos != p } := by
      unfold without
      rw [filter_away q]
    refine ⟨s.modCbu fun c => { c with grants := c.grants.filter fun g => g.pos != p }, e.symm, rfl, rfl, rfl, rfl,
      (Steady.refl s).cbu fun w => (sum_filter_demand_le _ _).trans w, fun n => absurd rfl n,
      fun n => absurd (List.mem_append_left _ g) n, fun _ => rfl⟩
  · rw [if_neg fun c => g (mem_positions_grants.mp c)]
    by_cases q : p ∈ s.cbu.queue.map (·.pos)
    · rw [if_pos (mem_positions_queue.mpr q)]
      have e : without s.cbu p = { s.cbu with queue := s.cbu.queue.filter fun w => w.pos != p } := by
        unfold without
        rw [filter_away g]
      exact ⟨s.setCoolingQueue (s.cbu.queue.filter fun w => w.pos != p), e.symm, rfl, rfl, rfl, rfl,
        setCoolingQueue_steady _ _, fun _ => List.mem_append_right _ List.mem_cons_self,
        fun n => absurd (List.mem_append_right _ q) n, fun _ => rfl⟩
    · rw [if_neg fun c => q (mem_positions_queue.mp c)]
      have e : without s.cbu p = s.cbu := by
        unfold without
        rw [filter_away g, filter_away q]
      exact ⟨s, e.symm, rfl, rfl, rfl, rfl, .refl s, fun n => absurd rfl n, fun _ => rfl,
        fun m => absurd m fun m => (List.mem_append.mp m).elim g q⟩

section Ending

variable (hE : endK.EnsuingEnd Y)

include hE

/-- The end of a session: the course that its event takes, once it has joined the close queue. -/
theorem endSteps_course {s : State} {p : PosId} (r : Ready s) (e : EndReason) (y : e = .banksExhausted ∨ p ∈ Y) :
    ∃ more taken rest,
    Course [p] Y (more ++ [p]) taken rest s ((s.endSteps endK p e).joinCloseQueue p)
      ∧ (∀ q ∈ more, q ∈ taken.map (·.pos)) ∧ (p ∉ s.cbu.positions → taken = [] ∧ more = [])
      ∧ (p ∈ s.cbu.positions → HeadWaits ((s.endSteps endK p e).joinCloseQueue p).cbu.capacity
        ((s.endSteps endK p e).joinCloseQueue p).granted ((s.endSteps endK p e).joinCloseQueue p).cbu.queue) := by
  let f : Session → Session := fun x => x.markEnded e s.site.siteTime (s.endingNozzle p)
  -- the session is marked, and gives back its bank and its place in a wait queue
  have st1 : Steady s (((s.modSession p f).releaseClaim p).leaveQueue p) :=
    ((Steady.refl s).session.trans (releaseClaim_steady _ p)).trans (leaveQueue_steady _ p)
  have ap : Apart (s.modSession p f) (((s.modSession p f).releaseClaim p).leaveQueue p) :=
    (releaseClaim_apart _ p).trans (leaveQueue_apart _ p)
  have cbu1 : (((s.modSession p f).releaseClaim p).leaveQueue p).cbu = s.cbu := ap.cbu
  have sales1 : (((s.modSession p f).releaseClaim p).leaveQueue p).sales = s.sales := ap.sales
  have told1 : ∀ q, q ≠ p → ((((s.modSession p f).releaseClaim p).leaveQueue p).session q).told = (s.session q).told :=
    fun q n => by rw [ap.told, modSession_session_ne _ _ n]
  have end1 : ((((s.modSession p f).releaseClaim p).leaveQueue p).session p).endReason = some e := by
    have := congrArg (·.2) (ap.told p)
    rw [modSession_session_same] at this
    exact this
  have shape : s.endSteps endK p e
      = (((((s.modSession p f).releaseClaim p).leaveQueue p).leaveCooling endK p).modSession p
          fun x => { x with cooling := .noCooling }).postSession p := rfl
  generalize ((s.modSession p f).releaseClaim p).leaveQueue p = u at st1 cbu1 sales1 told1 end1 shape
  -- it gives up its cooling
  obtain ⟨v, cv, sv, ssv, _, _, stv, dv, un, li⟩ := leaveCooling_split (s := u) (p := p) (by rw [cbu1]; exact r.listed) endK
  have rv : Ready v := by
    refine ⟨by rw [cv]; exact (without_sublist _ p).nodup (by rw [cbu1]; exact r.listed), fun e => ?_, fun e q => ?_⟩
    · rw [sv, sales1] at e ⊢; exact r.served e
    · rw [sv, sales1] at e
      exact (Session.fixed_finalMass ((st1.trans stv).sessions q (r.unmassed e q))).trans (r.unmassed e q)
  obtain ⟨more, k, w, c, m0, hw⟩ : ∃ more k w, Course [] Y more k w v (u.leaveCooling endK p)
      ∧ (p ∉ s.cbu.positions → k = [] ∧ more = [])
      ∧ (p ∈ s.cbu.positions → HeadWaits (u.leaveCooling endK p).cbu.capacity (u.leaveCooling endK p).granted
        (u.leaveCooling endK p).cbu.queue) := by
    by_cases m : p ∈ s.cbu.positions
    · obtain ⟨g, k, w, c, h⟩ := grantWaiters_course hE rv
      rw [li (by rw [cbu1]; exact m)]
      exact ⟨g, k, w, c, fun n => absurd m n, fun _ => h⟩
    · rw [un (by rw [cbu1]; exact m)]
      exact ⟨_, _, _, .of_apart rv (.refl v) (.refl v), fun _ => ⟨rfl, rfl⟩, fun n => absurd n m⟩
  rw [shape]
  -- it joins the close queue
  have st3 : Steady (u.leaveCooling endK p) (((u.leaveCooling endK p).modSession p
      fun x => { x with cooling := .noCooling }).postSession p) := (Steady.refl _).session.trans (postSession_steady _ _)
  have rd := c.ready
  have j : Joins p (((u.leaveCooling endK p).modSession p fun x => { x with cooling := .noCooling }).postSession p)
      ((((u.leaveCooling endK p).modSession p fun x => { x with cooling := .noCooling }).postSession p).joinCloseQueue p) := by
    refine joinCloseQueue_joins rd.served fun e => ?_
    have e : (u.leaveCooling endK p).sales.register = none := e
    exact (Session.fixed_finalMass (st3.sessions p (rd.unmassed e p))).trans (rd.unmassed e p)
  have told3 : ∀ q, q ≠ p → (((((u.leaveCooling endK p).modSession p fun x => { x with cooling := .noCooling }).postSession
      p).joinCloseQueue p).session q).told = ((u.leaveCooling endK p).session q).told := fun q n => by
    rw [j.told]
    show (((u.leaveCooling endK p).modSession p fun x => { x with cooling := .noCooling }).session q).told = _
    rw [modSession_session_ne _ _ n]
  have end3 : (((((u.leaveCooling endK p).modSession p fun x => { x with cooling := .noCooling }).postSession
      p).joinCloseQueue p).session p).endReason = ((u.leaveCooling endK p).session p).endReason := by
    refine (congrArg (·.2) (j.told p)).trans ?_
    show (((u.leaveCooling endK p).modSession p fun x => { x with cooling := .noCooling }).session p).endReason = _
    rw [modSession_session_same]
  have cbu3 := j.cbu
  have joined3 := j.joined
  have free3 := j.free
  have busy3 := j.busy
  have records3 := j.records
  have steady3 := st3.trans j.steady
  have par : ((((u.leaveCooling endK p).modSession p fun x => { x with cooling := .noCooling }).postSession p).config.param 9)
      = s.config.param 9 := (st1.trans (stv.trans (c.steady.trans st3))).param 9
  rw [par] at free3
  generalize (((u.leaveCooling endK p).modSession p fun x => { x with cooling := .noCooling }).postSession p).joinCloseQueue p
    = t at told3 end3 cbu3 joined3 free3 busy3 records3 steady3
  have cbu3 : t.cbu = (u.leaveCooling endK p).cbu := cbu3
  have joined3 : t.sales.pendingSessions = (u.leaveCooling endK p).sales.pendingSessions ++ [p] := joined3
  have free3 : (u.leaveCooling endK p).sales.register = none → t.sales.register = some p ∧ t.sales.closeQueue = []
    ∧ t.sales.closingTimer = some (s.config.param 9) := free3
  have busy3 : (u.leaveCooling endK p).sales.register ≠ none → t.sales.register = (u.leaveCooling endK p).sales.register
    ∧ t.sales.closingTimer = (u.leaveCooling endK p).sales.closingTimer := busy3
  have records3 : t.sales.records = (u.leaveCooling endK p).sales.records
    ∧ t.sales.counter = (u.leaveCooling endK p).sales.counter := records3
  generalize u.leaveCooling endK p = l at c hw told3 end3 cbu3 joined3 free3 busy3 records3 steady3
  -- the lists
  have qv : v.cbu.queue = s.cbu.queue.filter fun w => w.pos ≠ p := by
    rw [cv, cbu1]
    exact List.filter_congr fun w _ => by by_cases e : w.pos = p <;> simp [e]
  have gv : v.cbu.grants = s.cbu.grants.filter fun g => g.pos ≠ p := by
    rw [cv, cbu1]
    exact List.filter_congr fun w _ => by by_cases e : w.pos = p <;> simp [e]
  obtain ⟨a, b, eab, ea, eb⟩ : ∃ a b, s.cbu.queue = a ++ b ∧ a.filter (fun w => w.pos ≠ p) = k
      ∧ b.filter (fun w => w.pos ≠ p) = w ∧ True ∧ (p ∉ s.cbu.positions → a = []) := by
    by_cases m : p ∈ s.cbu.positions
    · obtain ⟨a, b, e, ea, eb⟩ := List.filter_eq_append_iff.mp (qv.symm.trans c.queue)
      exact ⟨a, b, e, ea, eb, trivial, fun n => absurd m n⟩
    · obtain ⟨e, _⟩ := m0 m
      have := qv.symm.trans c.queue
      rw [e] at this ⊢
      exact ⟨[], s.cbu.queue, rfl, rfl, this, trivial, fun _ => rfl⟩
  obtain ⟨eb, _, a0⟩ := eb
  have sub : ∀ {α : Type} (f : α → PosId) (m : List α),
      (m.filter (f · ≠ p)).filter (f · ∉ more) = m.filter (f · ∉ more ++ [p]) := fun f m => by
    rw [List.filter_filter]
    refine List.filter_congr fun w _ => ?_
    simp only [List.mem_append, List.mem_singleton, not_or, Bool.decide_and]
  have up : ∀ q, q ∈ k.map (·.pos) → q ∈ a.map (·.pos) := fun q m => by
    rw [← ea] at m
    obtain ⟨w, n, e⟩ := List.mem_map.mp m
    exact List.mem_map.mpr ⟨w, List.mem_of_mem_filter n, e⟩
  have away : ∀ q, q ∉ more ++ [p] → q ∉ more ∧ q ≠ p := fun q n =>
    ⟨fun m => n (List.mem_append_left _ m), fun m => n (List.mem_append_right _ (List.mem_singleton.mpr m))⟩
  have ended : ∀ q, q ∉ Y → q ≠ p ∨ q = p → (u.session q).endReason = some .banksExhausted →
      (t.session q).endReason = some .banksExhausted := fun q n o m => by
    have m : (v.session q).endReason = some .banksExhausted := by
      unfold session at m ⊢
      rw [ssv]
      exact m
    have := c.stays q n m
    rcases o with o | o
    · exact (congrArg (·.2) (told3 q o)).trans this
    · rw [o] at this ⊢; exact end3.trans this
  have mine : p ∉ Y → (t.session p).endReason = some .banksExhausted := fun n =>
    ended p n (.inr rfl) (by rw [end1, y.resolve_right n])
  refine ⟨more, a, b, ⟨⟨?_, fun f => ?_, fun f q => ?_⟩, st1.trans (stv.trans (c.steady.trans steady3)), fun q m => ?_, eab, ?_, ?_,
    fun n => ?_, fun q n m => ?_, fun x m n => ?_, fun q m n => ?_, fun q n m => ?_, ?_, fun f => ?_, fun f => ?_, ?_⟩,
    fun q m => ?_, fun n => ⟨a0 n, (m0 n).2⟩, fun m => ?_⟩
  · rw [cbu3]; exact c.ready.listed
  · cases e : l.sales.register with
    | none => exact (free3 e).2.1
    | some z =>
      have := (busy3 (by rw [e]; nofun)).1
      rw [f, e] at this
      exact nomatch this
  · cases e : l.sales.register with
    | none =>
      rw [(free3 e).1] at f
      exact nomatch f
    | some z =>
      have := (busy3 (by rw [e]; nofun)).1
      rw [f, e] at this
      exact nomatch this
  · rcases List.mem_append.mp m with m | m
    · exact .inr (up q ((c.named q m).resolve_left List.not_mem_nil))
    · exact .inl m
  · rw [cbu3, c.left, ← eb]
    exact sub (·.pos) b
  · have n : (k.map Waiter.granted) = (a.map Waiter.granted).filter (·.pos ≠ p) := by
      rw [List.filter_map, ← ea]
      rfl
    rw [cbu3, c.grants, n, gv, ← List.filter_append]
    exact sub Grant.pos _
  · rw [cbu3] at n ⊢
    by_cases e : l.cbu.queue = v.cbu.queue
    · rw [e] at n ⊢
      exact steady3.posts.subset (c.steady.posts.subset (dv (by rw [cbu1]; exact n)))
    · exact steady3.posts.subset (c.demand e)
  · have z := away q n
    have m' : (v.session q).cooling = .granted := by
      have := congrArg (·.1) (told1 q z.2)
      unfold session at this ⊢
      rw [ssv]
      exact this.trans m
    exact (congrArg (·.1) (told3 q z.2)).trans (c.keeps q z.1 m')
  · have z := away x.pos n
    refine (congrArg (·.1) (told3 x.pos z.2)).trans (c.told x ?_ z.1)
    rw [← ea]
    exact List.mem_filter.mpr ⟨m, by simpa using z.2⟩
  · by_cases o : q = p
    · rw [o] at n ⊢; exact mine n
    · rcases List.mem_append.mp m with m | m
      · exact (congrArg (·.2) (told3 q o)).trans (c.reasons q m n)
      · exact absurd (List.mem_singleton.mp m) o
  · by_cases o : q = p
    · rw [o] at n ⊢; exact mine n
    · exact ended q n (.inl o) ((congrArg (·.2) (told1 q o)).trans m)
  · rw [joined3, c.joined, sv, sales1, List.append_assoc]
  · have f' : v.sales.register = none := by rw [sv, sales1]; exact f
    have x := c.free f'
    cases more with
    | nil =>
      have z := free3 x.1
      exact ⟨z.1, fun _ => z.2.2, nofun⟩
    | cons q more =>
      have z := busy3 (by rw [x.1]; nofun)
      refine ⟨z.1.trans x.1, fun _ => ?_, nofun⟩
      rw [z.2, x.2.1 nofun, (st1.trans stv).param]
  · have f' : v.sales.register ≠ none := by rw [sv, sales1]; exact f
    have x := c.busy f'
    have z := busy3 (by rw [x.1]; exact f')
    rw [z.1, z.2, x.1, x.2, sv, sales1]
    exact ⟨rfl, rfl⟩
  · rw [records3.1, records3.2, c.records.1, c.records.2, sv, sales1]
    exact ⟨rfl, rfl⟩
  · exact up q ((c.named q m).resolve_left List.not_mem_nil)
  · have h := hw m
    unfold granted at h ⊢
    rw [cbu3]
    exact h

end Ending

end State

/-- The ender of every event takes such a course. -/
theorem endSession_ensues (Y : List PosId) (n : Nat) : (endSession n).EnsuingEnd Y := by
  induction n with
  | zero => exact fun _ s => .refl s
  | succ n ih =>
    intro p s
    refine .ite (fun _ r => ?_) fun _ => .refl s
    obtain ⟨_, _, _, c, _⟩ := State.endSteps_course ih r .banksExhausted (.inl rfl)
    exact ⟨_, _, _, c⟩

end Sys2Proof.Machine
end

