-- ==== Sys2Proof/Laws/Notices.lean ====
section
/-! SUPPORT. A queue that the posts of an event are taken into holds at most one notice of each pair, and notices of its
own port only (R9, R10). -/

namespace Sys2Proof.Machine

set_option Elab.async false

/-- A queue as R9 has it: notices of one port, at most one of each pair of kind and subject. -/
def QueueOf (p : PortId) (q : List Notice) : Prop := (∀ n ∈ q, n.port = p) ∧ (q.map Notice.key).Nodup

theorem updateNotice_keys (q : List Notice) (n : Notice) : (updateNotice q n).map Notice.key = q.map Notice.key := by
  unfold updateNotice
  rw [List.map_map]
  refine List.map_congr_left fun m _ => ?_
  simp only [Function.comp_apply]
  split
  · exact ‹m.key = n.key›.symm
  · rfl

theorem updateNotice_of {p : PortId} {q : List Notice} {n : Notice} (hn : n.port = p) (h : QueueOf p q) :
    QueueOf p (updateNotice q n) := by
  refine ⟨fun m hm => ?_, by rw [updateNotice_keys]; exact h.2⟩
  obtain ⟨x, hx, rfl⟩ := List.mem_map.mp hm
  split
  · exact hn
  · exact h.1 x hx

theorem foldl_updateNotice_of {p : PortId} (l : List Notice) (hl : ∀ n ∈ l, n.port = p) (q : List Notice)
    (h : QueueOf p q) :
    QueueOf p (l.foldl updateNotice q) ∧ (l.foldl updateNotice q).map Notice.key = q.map Notice.key := by
  induction l generalizing q with
  | nil => exact ⟨h, rfl⟩
  | cons n l ih =>
    obtain ⟨a, b⟩ := ih (fun m hm => hl m (List.mem_cons_of_mem _ hm)) (updateNotice q n)
      (updateNotice_of (hl n List.mem_cons_self) h)
    exact ⟨a, b.trans (updateNotice_keys _ _)⟩

theorem mem_insertNotice {l : List Notice} {n m : Notice} (h : m ∈ insertNotice l n) : m = n ∨ m ∈ l := by
  induction l with
  | nil => exact .inl (List.mem_singleton.mp h)
  | cons x l ih =>
    unfold insertNotice at h
    split at h
    · exact (List.mem_cons.mp h).imp id fun k => k
    · split at h
      · exact (List.mem_cons.mp h).imp id (List.mem_cons_of_mem _)
      · rcases List.mem_cons.mp h with rfl | h
        · exact .inr List.mem_cons_self
        · exact (ih h).imp id (List.mem_cons_of_mem _)

/-- Insertion keeps a list in strictly increasing order of kind and subject (R10). -/
theorem insertNotice_sorted {l : List Notice} (n : Notice) (h : l.Pairwise fun a b => a.key < b.key) :
    (insertNotice l n).Pairwise fun a b => a.key < b.key := by
  induction l with
  | nil => exact List.pairwise_singleton _ _
  | cons x l ih =>
    obtain ⟨hx, hl⟩ := List.pairwise_cons.mp h
    unfold insertNotice
    split
    · rename_i lt
      refine List.pairwise_cons.mpr ⟨fun a ha => ?_, h⟩
      rcases List.mem_cons.mp ha with rfl | ha
      · exact lt
      · exact lt.trans (hx a ha)
    · split
      · rename_i e
        exact List.pairwise_cons.mpr ⟨fun a ha => lt_of_eq_of_lt e (hx a ha), hl⟩
      · rename_i ge ne
        refine List.pairwise_cons.mpr ⟨fun a ha => ?_, ih hl⟩
        rcases mem_insertNotice ha with rfl | ha
        · omega
        · exact hx a ha

theorem foldl_insertNotice (l : List Notice) (acc : List Notice) (h : acc.Pairwise fun a b => a.key < b.key) :
    (l.foldl insertNotice acc).Pairwise (fun a b => a.key < b.key) ∧
      ∀ m ∈ l.foldl insertNotice acc, m ∈ l ∨ m ∈ acc := by
  induction l generalizing acc with
  | nil => exact ⟨h, fun m hm => .inr hm⟩
  | cons n l ih =>
    obtain ⟨a, b⟩ := ih _ (insertNotice_sorted n h)
    refine ⟨a, fun m hm => ?_⟩
    rcases b m hm with hm | hm
    · exact .inl (List.mem_cons_of_mem _ hm)
    · rcases mem_insertNotice hm with rfl | hm
      · exact .inl List.mem_cons_self
      · exact .inr hm

/-- Taking the posts of one event keeps a queue as R9 has it (R10). -/
theorem mergeNotices_of {p : PortId} {q posts : List Notice} (h : QueueOf p q) (hp : ∀ n ∈ posts, n.port = p) :
    QueueOf p (mergeNotices q posts) := by
  obtain ⟨a, b⟩ := foldl_updateNotice_of posts hp q h
  obtain ⟨c, d⟩ := foldl_insertNotice (posts.filter fun n => !holdsPair q n) [] .nil
  unfold mergeNotices
  have d : ∀ m ∈ (posts.filter fun n => !holdsPair q n).foldl insertNotice [], m ∈ posts ∧ holdsPair q m = false :=
    fun m hm => by
      rcases d m hm with hm | hm
      · simpa using List.mem_filter.mp hm
      · exact absurd hm List.not_mem_nil
  refine ⟨fun n hn => ?_, ?_⟩
  · rcases List.mem_append.mp hn with hn | hn
    · exact a.1 n hn
    · exact hp n (d n hn).1
  · rw [List.map_append, b, List.nodup_append]
    refine ⟨h.2, ?_, fun x hx y hy e => ?_⟩
    · exact List.pairwise_map.mpr (c.imp fun h => Nat.ne_of_lt h)
    · obtain ⟨m, hm, rfl⟩ := List.mem_map.mp hx
      obtain ⟨n, hn, rfl⟩ := List.mem_map.mp hy
      have := List.any_eq_false.mp (d n hn).2 m hm
      exact this (by simpa using e)

/-- The end of an event keeps every queue as R9 has it. -/
theorem flush_queues {s : State} (h : Queues s) : Queues s.flush := fun p => by
  rw [State.flush_port]
  exact mergeNotices_of (h p) fun n hn => by simpa using (List.mem_filter.mp hn).2

end Sys2Proof.Machine
end

