-- ==== Sys2Proof/Laws/Kept.lean ====
section
/-! SUPPORT. The relation `Kept`: what holds before an event holds after it. Each operation that is not `Calm` has one
lemma; Laws/Events.lean puts them together for the commands. -/

namespace Sys2Proof.Machine

set_option Elab.async false

/-- What no event breaks: the invariants of the state, and that the commands waiting are the outside's. -/
structure Kept (s t : State) : Prop where
  within : WithinCapacity s → WithinCapacity t
  claims : OneClaim s → OneClaim t
  fair : FairSales s → FairSales t
  counted : Counted s → Counted t
  active : ActiveWithin s → ActiveWithin t
  monitors : (∀ p, (s.monitor p).sound) → ∀ p, (t.monitor p).sound
  site : s.site.sound → t.site.sound
  tables : TablesInRange s → TablesInRange t
  pending : t.pending = s.pending
  queues : Queues s → Queues t
  rest : ∀ p, (s.port p).rests → (t.port p).rests
  collection : ∀ p, (s.port p).collection = [] → (t.port p).collection = []

/-- A monitor that holds what a sound one held is sound. -/
theorem Monitor.sound_of_held {x y : Monitor} (h : y.held = x.held) (k : x.sound) : y.sound := by
  unfold Monitor.held at h
  simp only [Prod.mk.injEq] at h
  obtain ⟨_, h1, h2, h3, h4, h5, _, h6⟩ := h
  unfold Monitor.sound
  rw [h1, h2, h3, h4, h5, h6]
  exact k

namespace Kept

theorem refl (s : State) : Kept s s := ⟨id, id, id, id, id, id, id, id, rfl, id, fun _ => id, fun _ => id⟩

theorem trans {s t u : State} (h : Kept s t) (k : Kept t u) : Kept s u :=
  ⟨k.within ∘ h.within, k.claims ∘ h.claims, k.fair ∘ h.fair, k.counted ∘ h.counted, k.active ∘ h.active,
    k.monitors ∘ h.monitors, k.site ∘ h.site, k.tables ∘ h.tables, k.pending.trans h.pending, k.queues ∘ h.queues,
    fun p => k.rest p ∘ h.rest p, fun p => k.collection p ∘ h.collection p⟩

theorem of_calm {s t : State} (h : Calm s t) : Kept s t where
  within := h.within
  claims := h.claims
  fair := h.fair
  counted := h.counted
  active k p := (h.active p).trans (k p)
  monitors k p := Monitor.sound_of_held (h.monitors p) (k p)
  site k := h.site ▸ k
  tables k := by
    unfold TablesInRange
    rw [h.site, h.tariff]
    exact k
  pending := h.pending
  queues k p := by
    unfold State.port
    rw [h.ports]
    exact k p
  rest p k := by
    unfold State.port
    rw [h.ports]
    exact k
  collection p k := by
    unfold State.port
    rw [h.ports]
    exact k

theorem of_steady {s t : State} (h : Steady s t) : Kept s t := of_calm h.toCalm

theorem ite {c : Prop} [Decidable c] {s t u : State} (h : c → Kept s t) (k : ¬c → Kept s u) :
    Kept s (if c then t else u) := by
  split
  · exact h ‹_›
  · exact k ‹_›

theorem session {s t : State} {p : PosId} {f : Session → Session} (k : Kept s t)
    (a : ∀ x, x.activeTime ≤ Config.maxActive → (f x).activeTime ≤ Config.maxActive := by intro _ h; exact h)
    (b : ∀ x, x.priceAgrees → (f x).priceAgrees := by intro _ h; exact h) : Kept s (t.modSession p f) :=
  k.trans
    { within := id
      claims := id
      fair := fun k => ⟨fun q => by
        rw [State.modSession_session]
        split
        · exact b _ (k.1 p)
        · exact k.1 q, k.2⟩
      counted := id
      active := fun k q => by
        rw [State.modSession_session]
        split
        · exact a _ (k p)
        · exact k q
      monitors := id
      site := id
      tables := id
      pending := rfl
      queues := id
      rest := fun _ => id
      collection := fun _ => id }

theorem monitor {s t : State} {p : PosId} {f : Monitor → Monitor} (k : Kept s t)
    (a : ∀ x, x.sound → (f x).sound := by intro _ h; exact h) : Kept s (t.modMonitor p f) :=
  k.trans
    { within := id
      claims := id
      fair := id
      counted := id
      active := id
      monitors := fun k q => by
        rw [State.modMonitor_monitor]
        split
        · exact a _ (k p)
        · exact k q
      site := id
      tables := id
      pending := rfl
      queues := id
      rest := fun _ => id
      collection := fun _ => id }

theorem bank {s t : State} {b : BankId} {f : Bank → Bank} (k : Kept s t)
    (c : ∀ q, (f (t.bank b)).standing q ≤ (t.bank b).standing q := by intro _; exact Nat.le_refl _) :
    Kept s (t.modBank b f) :=
  k.trans
    { within := id
      claims := fun k q => (State.modBank_standing_le t b f q (c q)).trans (k q)
      fair := id
      counted := id
      active := id
      monitors := id
      site := id
      tables := id
      pending := rfl
      queues := id
      rest := fun _ => id
      collection := fun _ => id }

theorem bm {s t : State} {f : BankManager → BankManager} (k : Kept s t) (c : (f t.bm).banks = t.bm.banks := by rfl) :
    Kept s (t.modBm f) :=
  k.trans
    { within := id
      claims := OneClaim.of_banks c
      fair := id
      counted := id
      active := id
      monitors := id
      site := id
      tables := id
      pending := rfl
      queues := id
      rest := fun _ => id
      collection := fun _ => id }

theorem cbu {s t : State} {f : CoolingUnit → CoolingUnit} (k : Kept s t)
    (h : WithinCapacity t → ((f t.cbu).grants.map (·.demand)).sum ≤ (f t.cbu).capacity) : Kept s (t.modCbu f) :=
  k.trans
    { within := h
      claims := id
      fair := id
      counted := id
      active := id
      monitors := id
      site := id
      tables := id
      pending := rfl
      queues := id
      rest := fun _ => id
      collection := fun _ => id }

theorem ofSite {s t : State} {f : SiteControl → SiteControl} (k : Kept s t) (h : t.site.sound → (f t.site).sound)
    (c : TablesInRange t → TablesInRange (t.modSite f)) : Kept s (t.modSite f) :=
  k.trans
    { within := id
      claims := id
      fair := id
      counted := id
      active := id
      monitors := id
      site := h
      tables := c
      pending := rfl
      queues := id
      rest := fun _ => id
      collection := fun _ => id }

theorem sales {s t : State} {f : SalesUnit → SalesUnit} (k : Kept s t)
    (h : (f t.sales).records.Sublist t.sales.records := by exact List.Sublist.refl _)
    (c : (f t.sales).counter = t.sales.counter := by rfl)
    (r : TablesInRange t → TablesInRange (t.modSales f) := by exact id) : Kept s (t.modSales f) :=
  k.trans
    { within := id
      claims := id
      fair := fun k => ⟨k.1, fun r m => k.2 r (h.subset m)⟩
      counted := fun k z => by
        have z : (f t.sales).counter ≠ 0 := z
        obtain ⟨pw, lt⟩ := k (c ▸ z)
        refine ⟨List.Pairwise.sublist h pw, fun r m => ?_⟩
        show r.sequence < (f t.sales).counter
        rw [c]
        exact lt r (h.subset m)
      active := id
      monitors := id
      site := id
      tables := r
      pending := rfl
      queues := id
      rest := fun _ => id
      collection := fun _ => id }

theorem posted {s t : State} {n : Notice} (k : Kept s t) : Kept s (t.post n) := k.trans ⟨id, id, id, id, id, id, id, id, rfl, id, fun _ => id, fun _ => id⟩

theorem port {s t : State} {p : PortId} {f : Port → Port} (k : Kept s t)
    (q : (f (t.port p)).queue.Sublist (t.port p).queue := by exact List.Sublist.refl _)
    (r : (t.port p).rests → (f (t.port p)).rests := by exact id)
    (c : (t.port p).collection = [] → (f (t.port p)).collection = [] := by exact id) : Kept s (t.modPort p f) := by
  have e : ∀ x, (t.modPort p f).port x = if x = p then f (t.port p) else t.port x := fun x => Ports.get_set _ _ _ _
  refine k.trans ⟨id, id, id, id, id, id, id, id, rfl, fun h x => ?_, fun x h => ?_, fun x h => ?_⟩
  · rw [e]
    split
    · rename_i hx
      rw [hx]
      exact ⟨fun n m => (h p).1 n (q.subset m), (h p).2.sublist (q.map _)⟩
    · exact h x
  · rw [e]
    split
    · rename_i hx
      exact r (hx ▸ h)
    · exact h
  · rw [e]
    split
    · rename_i hx
      exact c (hx ▸ h)
    · exact h

theorem flush {s t : State} (k : Kept s t) : Kept s t.flush :=
  k.trans ⟨id, id, id, id, id, id, id, id, rfl, flush_queues, fun p h => by rw [State.flush_port]; exact h,
    fun p h => by rw [State.flush_port]; exact h⟩

end Kept

namespace State

variable (s : State) (p : PosId)

theorem endWith_kept (r : EndReason) : Kept s (s.endWith p r) := .of_steady (endWith_steady _ _ _)

theorem clearFactor_kept (f : Factor) : Kept s (s.clearFactor endNow p f) :=
  .of_steady (clearFactor_steady endNow_steady _ _ _)

theorem setFactor_kept (f : Factor) : Kept s (s.setFactor p f) := .of_steady (setFactor_steady _ _ _)

theorem coolingGranted_kept : Kept s (s.coolingGranted endNow p) :=
  .of_steady (coolingGranted_steady endNow_steady _ _)

theorem grantWaiters_kept : Kept s (s.grantWaiters endNow) := .of_steady (grantWaiters_steady endNow_steady _)

theorem setCoolingQueue_kept (q : List Waiter) : Kept s (s.setCoolingQueue q) := .of_steady (setCoolingQueue_steady _ _)

theorem selectBank_kept : Kept s (s.selectBank endNow p) := .of_steady (selectBank_steady endNow_steady _ _)

/-! ### Cooling -/

theorem recapture_kept : Kept s (s.recapture p) := by
  unfold recapture
  split
  · exact .refl s
  · exact (Kept.refl _).session (b := fun x _ => x.priced_agrees _)

theorem degrade_kept (k : Nat) : Kept s (s.degrade p k) := by
  refine Kept.trans ?_ (recapture_kept _ p)
  unfold rebase
  refine (Kept.refl s).session (a := fun x h => ?_)
  show (if x.rampBase.isSome then 0 else x.activeTime) ≤ _
  split
  · exact Nat.zero_le _
  · exact h

theorem expireCooling_kept (n : Nat) (s : State) : Kept s (expireCooling n p s) := by
  induction n generalizing s with
  | zero => exact .refl s
  | succ n ih =>
    unfold expireCooling
    refine .ite (fun _ => ?_) fun _ => .refl s
    split
    · exact (endWith_kept _ _ _).trans (grantWaiters_kept _)
    · refine (degrade_kept s p _).trans (.ite (fun _ => (endWith_kept _ _ _).trans (grantWaiters_kept _)) fun _ =>
        .ite (fun _ => ?_) fun _ => ?_)
      · exact ((setCoolingQueue_kept _ _).trans (coolingGranted_kept _ _)).trans (grantWaiters_kept _)
      · exact (setCoolingQueue_kept _ _).trans (.ite (fun _ => ih _) fun _ => grantWaiters_kept _)

theorem coolingWaitRunsOut_kept : Kept s (s.coolingWaitRunsOut p) := expireCooling_kept p 4 s

theorem joinCooling_kept (d l : Nat) : Kept s (s.joinCooling p d l) := by
  unfold joinCooling
  exact (((Kept.refl s).session.trans (setCoolingQueue_kept _ _)).trans (grantWaiters_kept _)).trans
    (.ite (fun _ => coolingWaitRunsOut_kept _ _) fun _ => .refl _)

theorem requestCooling_kept (d l : Nat) : Kept s (s.requestCooling p d l) := by
  unfold requestCooling
  refine .ite (fun _ => coolingGranted_kept _ _) fun _ => .ite (fun h => ?_) fun _ => joinCooling_kept _ _ _ _
  refine Kept.trans ?_ (coolingGranted_kept _ _)
  refine (Kept.refl s).cbu fun _ => ?_
  have : (s.cbu.grants.map (·.demand)).sum + d ≤ s.cbu.capacity := h.2
  simpa using this

theorem foldl_kept {α : Type} (f : State → α → State) (h : ∀ s a, Kept s (f s a)) (l : List α) (s : State) :
    Kept s (l.foldl f s) := by
  induction l generalizing s with
  | nil => exact .refl s
  | cons a l ih => exact (h s a).trans (ih _)

theorem inOrder_kept (f : Fin 4 → State → State) (h : ∀ i s, Kept s (f i s)) (s : State) : Kept s (inOrder f s) :=
  inOrder_induct Kept Kept.trans f h s

end State

/-- What is kept of the grants fits the capacity; with what is revoked it is the whole list (R89 steps 1 and 2). -/
theorem popNewest_spec (c : Nat) (l r : List Grant) :
    ((popNewest c l r).1.map (·.demand)).sum ≤ c ∧
      (popNewest c l r).1.reverse ++ (popNewest c l r).2 = l.reverse ++ r := by
  induction l generalizing r with
  | nil => exact ⟨Nat.zero_le _, rfl⟩
  | cons g l ih =>
    unfold popNewest
    split
    · rename_i h; exact ⟨h, rfl⟩
    · obtain ⟨a, b⟩ := ih (g :: r)
      exact ⟨a, by rw [b]; simp⟩

namespace State

variable (s : State) (p : PosId)

theorem coolingRevoked_kept : Kept s (s.coolingRevoked p) := (Kept.refl s).session.trans (setFactor_kept _ _ _)

/-- A capacity report leaves the grants within the capacity it carries (R88, R89). -/
theorem takeCapacity_kept (c : Nat) : Kept s (s.takeCapacity c) := by
  refine Kept.trans ?_ (grantWaiters_kept _)
  unfold revoke
  have sp := popNewest_spec c s.cbu.grants.reverse []
  have sum_rev : ∀ l : List Grant, (l.reverse.map (·.demand)).sum = (l.map (·.demand)).sum := fun l => by
    rw [List.map_reverse, List.sum_reverse]
  split
  · rename_i kept e
    have e : popNewest c s.cbu.grants.reverse [] = (kept, []) := e
    refine (Kept.refl s).cbu fun _ => ?_
    rw [e] at sp
    have hk : kept.reverse = s.cbu.grants := by simpa using sp.2
    have := sp.1
    rw [← sum_rev, hk] at this
    exact this
  · rename_i kept g more e
    have e : popNewest c s.cbu.grants.reverse [] = (kept, g :: more) := e
    rw [e] at sp
    refine Kept.trans ?_ ((foldl_kept _ (fun s (g : Grant) => coolingRevoked_kept s g.pos) _ _).trans
      (foldl_kept _ (fun s (g : Grant) => .ite (fun _ => coolingWaitRunsOut_kept _ _) fun _ => .refl s) _ _))
    refine Kept.trans ?_ (setCoolingQueue_kept _ _)
    refine (Kept.refl s).trans
      { within := fun _ => ?_
        claims := id
        fair := id
        counted := id
        active := id
        monitors := id
        site := id
        tables := id
        pending := rfl
        queues := id
        rest := fun _ => id
        collection := fun _ => id }
    show (kept.reverse.map (·.demand)).sum ≤ c
    rw [sum_rev]
    exact sp.1

end State

end Sys2Proof.Machine
end

