-- ==== Sys2Proof/Laws/LinkedEvents.lean ====
section
/-! SUPPORT. That the queues, lists and registers agree with the session records, through every operation that a request
or an expiry makes. -/

namespace Sys2Proof.Machine

set_option Elab.async false

namespace State

variable {A : Aspects} {s : State} {p : PosId}

/-! ### Cooling -/

theorem recapture_linked (h : Linked A none s) (p : PosId) : Linked A none (s.recapture p) := by
  unfold recapture
  split
  · exact h
  · exact h.session

theorem degrade_linked (h : Linked A none s) (p : PosId) (k : Nat) : Linked A none (s.degrade p k) := by
  have l : Linked A none (s.rebase p k) := by
    unfold rebase
    exact h.session
  exact recapture_linked l p

theorem replaceDemand_linked (h : Linked A none s) (p : PosId) (d l : Nat) : Linked A none (s.replaceDemand p d l) := by
  refine setCoolingQueue_linked h _ ?_
  have : (s.cbu.queue.map fun w => if w.pos = p then (⟨p, d, l, l⟩ : Waiter) else w).map (·.pos) = s.cbu.queue.map (·.pos) := by
    rw [List.map_map]
    refine List.map_congr_left fun w _ => ?_
    show (if w.pos = p then (⟨p, d, l, l⟩ : Waiter) else w).pos = w.pos
    split
    · rename_i e; exact e.symm
    · rfl
  unfold CoolingUnit.positions
  dsimp only
  rw [this]

/-- Entries taken out of the lists of the Cooling Budget Unit. -/
theorem fewer_linked (h : Linked A none s) {f : CoolingUnit → CoolingUnit}
    (c : (f s.cbu).positions.Sublist s.cbu.positions) : Linked A none (s.modCbu f) :=
  ⟨h.queued, h.held, h.sole, h.once, h.refill, h.forced, c.nodup h.listed, fun q m => h.cooled q (c.subset m), h.away,
    h.closing, h.closingOnce, h.massed, h.registered, h.coherent, fun a => (h.numbered a).of_same (fun _ => rfl) (.refl _) rfl,
    fun a => (h.agreed a).of_bm, h.shelved.of_same fun _ => rfl⟩

/-- A position that is not listed, and whose session runs, comes to be listed. -/
theorem listed_linked (h : Linked A none s) {f : CoolingUnit → CoolingUnit} (n : p ∉ s.cbu.positions)
    (r : (s.session p).running = true) (c : (f s.cbu).positions.Perm (p :: s.cbu.positions)) :
    Linked A none (s.modCbu f) :=
  ⟨h.queued, h.held, h.sole, h.once, h.refill, h.forced, c.nodup_iff.mpr (List.nodup_cons.mpr ⟨n, h.listed⟩), fun q m l => by
      rcases List.mem_cons.mp (c.mem_iff.mp m) with e | e
      · rw [e]; exact r
      · exact h.cooled q e l, h.away, h.closing, h.closingOnce, h.massed, h.registered, h.coherent,
    fun a => (h.numbered a).of_same (fun _ => rfl) (.refl _) rfl, fun a => (h.agreed a).of_bm,
    h.shelved.of_same fun _ => rfl⟩

theorem grantWithoutEntry_linked (h : Linked A none s) (p : PosId) : Linked A none (s.grantWithoutEntry p) := by
  have k : Linked A none (s.setCoolingQueue (s.cbu.queue.filter fun w => w.pos != p)) := by
    refine Linked.posted (fewer_linked h ?_)
    exact List.Sublist.append (List.Sublist.refl _) (List.filter_sublist.map _)
  exact coolingGranted_linked endNow_links k p

theorem expireCooling_linked (n : Nat) (s : State) (h : Linked A none s) (p : PosId) : Linked A none (expireCooling n p s) := by
  induction n generalizing s with
  | zero => exact h
  | succ n ih =>
    unfold expireCooling
    refine .ite (fun _ => ?_) fun _ => h
    have g : ∀ {t : State}, Linked A none t → Linked A none (t.grantWaiters endNow) := grantWaiters_linked endNow_links
    split
    · exact g (endWith_linked h _ _)
    · have k := degrade_linked h p
      refine .ite (fun _ => g (endWith_linked (k _) _ _)) fun _ =>
        .ite (fun _ => g (grantWithoutEntry_linked (k _) _)) fun _ => ?_
      exact .ite (fun _ => ih _ (replaceDemand_linked (k _) _ _ _)) fun _ => g (replaceDemand_linked (k _) _ _ _)

theorem coolingWaitRunsOut_linked (h : Linked A none s) (p : PosId) : Linked A none (s.coolingWaitRunsOut p) :=
  expireCooling_linked 4 s h p

theorem requestCooling_linked (h : Linked A none s) (n : p ∉ s.cbu.positions) (r : (s.session p).running = true) (d l : Nat) :
    Linked A none (s.requestCooling p d l) := by
  unfold requestCooling
  refine .ite (fun _ => coolingGranted_linked endNow_links h p) fun _ => .ite (fun _ => ?_) fun _ => ?_
  · refine coolingGranted_linked endNow_links (listed_linked h n r ?_) p
    unfold CoolingUnit.positions
    dsimp only
    rw [List.map_append, List.append_assoc]
    exact List.perm_middle
  · unfold joinCooling
    have k : Linked A none (s.modSession p fun x => { x with cooling := .waiting }) := h.session
    have r' : ((s.modSession p fun x => { x with cooling := .waiting }).session p).running = true := running_of_link r
    have m : Linked A none ((s.modSession p fun x => { x with cooling := .waiting }).setCoolingQueue
        ((s.modSession p fun x => { x with cooling := .waiting }).cbu.queue ++ [⟨p, d, l, l⟩])) := by
      refine Linked.posted (listed_linked k n r' ?_)
      unfold CoolingUnit.positions
      dsimp only
      rw [List.map_append, ← List.append_assoc]
      exact List.perm_append_comm
    have g := grantWaiters_linked endNow_links m
    exact .ite (fun _ => coolingWaitRunsOut_linked g p) fun _ => g

theorem coolingRevoked_linked (h : Linked A none s) (p : PosId) : Linked A none (s.coolingRevoked p) :=
  setFactor_linked (h.session) p _

theorem foldl_linked {α : Type} (f : State → α → State) (h : ∀ s a, Linked A none s → Linked A none (f s a)) (l : List α)
    (s : State) (k : Linked A none s) : Linked A none (l.foldl f s) := by
  induction l generalizing s with
  | nil => exact k
  | cons a l ih => exact ih _ (h s a k)

theorem popNewest_all (c : Nat) (l r : List Grant) : (popNewest c l r).2 ++ (popNewest c l r).1 |>.Perm (l ++ r) := by
  induction l generalizing r with
  | nil => unfold popNewest; simp
  | cons g l ih =>
    unfold popNewest
    split
    · exact List.perm_append_comm
    · exact (ih (g :: r)).trans (List.perm_middle)

theorem revoke_linked (h : Linked A none s) : Linked A none s.revoke := by
  unfold revoke
  have perm := popNewest_all s.cbu.capacity s.cbu.grants.reverse []
  split
  · exact h
  · rename_i kept g more e
    rw [e, List.append_nil] at perm
    dsimp only at perm ⊢
    have k : Linked A none ((s.modCbu fun c => { c with grants := kept.reverse }).setCoolingQueue
        ((g :: more).map (fun g => (⟨g.pos, g.demand, g.limit, g.limit⟩ : Waiter)) ++ s.cbu.queue)) := by
      refine Linked.posted ?_
      show Linked A none (s.modCbu fun c => { c with
        grants := kept.reverse
        queue := (g :: more).map (fun g => (⟨g.pos, g.demand, g.limit, g.limit⟩ : Waiter)) ++ s.cbu.queue })
      refine h.cbu ?_
      unfold CoolingUnit.positions
      dsimp only
      rw [List.map_append, List.map_map, ← List.append_assoc]
      refine List.Perm.append_right _ ?_
      have m : ((fun x : Waiter => x.pos) ∘ fun g : Grant => (⟨g.pos, g.demand, g.limit, g.limit⟩ : Waiter)) = (·.pos) := rfl
      rw [m, ← List.map_append]
      refine List.Perm.map _ ?_
      refine List.Perm.trans ?_ (perm.trans (List.reverse_perm _))
      exact (List.perm_append_comm).trans (List.Perm.append_left _ (List.reverse_perm _))
    refine foldl_linked _ (fun s g l => .ite (fun _ => coolingWaitRunsOut_linked l _) fun _ => l) _ _ ?_
    exact foldl_linked _ (fun s g l => coolingRevoked_linked l _) _ _ k

theorem takeCapacity_linked (h : Linked A none s) (c : Nat) : Linked A none (s.takeCapacity c) :=
  grantWaiters_linked endNow_links (revoke_linked (h.cbu (.refl _)))

/-! ### Delivery -/

theorem noteReport_linked (h : Linked A none s) (p : PosId) (a m : Nat) : Linked A none (s.noteReport p a m) := h.session

theorem clearOverRamp_linked (h : Linked A none s) (p : PosId) (a : Nat) : Linked A none (s.clearOverRamp p a) := by
  unfold clearOverRamp
  split
  · exact .ite (fun _ => clearFactor_linked endNow_links h p _) fun _ => h
  · exact h

theorem clearGasWarm_linked (h : Linked A none s) (p : PosId) (a : Nat) : Linked A none (s.clearGasWarm p a) :=
  .ite (fun _ => h) fun _ => clearFactor_linked endNow_links h p _

theorem overRampCheck_linked (h : Linked A none s) (p : PosId) (a c : Nat) : Linked A none (s.overRampCheck p a c) :=
  .ite (fun _ => setFactor_linked h p _) fun _ => clearOverRamp_linked h p _

theorem gasWarmTest_linked (h : Linked A none s) (p : PosId) (a : Nat) : Linked A none (s.gasWarmTest p a) := by
  unfold gasWarmTest
  exact .ite (fun _ => .ite (fun _ => h) fun _ => .ite (fun _ => setFactor_linked h p _) fun _ => h.session) fun _ =>
    clearGasWarm_linked (h.session) p _

theorem deliveryReport_linked (h : Linked A none s) (p : PosId) (a t : Nat) : Linked A none (s.deliveryReport p a t) := by
  have k : Linked A none (s.modSession p fun x => { x with flowCeiling := s.rampCeiling p }) := h.session
  unfold deliveryReport
  dsimp only
  split
  · exact endWith_linked k _ _
  · exact gasWarmTest_linked (overRampCheck_linked k p _ _) p _

theorem takeReport_linked (h : Linked A none s) (p : PosId) (a t m : Nat) : Linked A none (s.takeReport p a t m) := by
  have k := noteReport_linked h p a m
  unfold takeReport
  split
  · exact h
  · exact k
  · exact k
  · exact .ite (fun _ => endWith_linked k _ _) fun _ => k
  · exact .ite (fun _ => endWith_linked k _ _) fun _ => clearGasWarm_linked (clearOverRamp_linked k p _) p _
  · exact .ite (fun _ => endWith_linked k _ _) fun _ => clearGasWarm_linked (clearOverRamp_linked k p _) p _
  · exact .ite (fun _ => endWith_linked k _ _) fun _ => deliveryReport_linked k p _ _

theorem obeyVehicle_linked (h : Linked A none s) (p : PosId) (c : FuelCommand) : Linked A none (s.obeyVehicle p c) := by
  unfold obeyVehicle
  refine .ite (fun _ => ?_) fun _ => h
  cases c
  · exact clearFactor_linked endNow_links h p _
  · exact setFactor_linked h p _
  · exact endWith_linked h _ _

theorem frameCriteria_linked (h : Linked A none s) (p : PosId) : Linked A none (s.frameCriteria p) := by
  unfold frameCriteria
  refine .ite (fun _ => ?_) fun _ => h
  split
  · exact endWith_linked h _ _
  · exact h

theorem loseVehicle_linked (h : Linked A none s) (p : PosId) : Linked A none (s.loseVehicle p) :=
  .ite (fun _ => .ite (fun _ => endWith_linked h _ _) fun _ => h.session) fun _ => h

theorem vehicleLost_linked (h : Linked A none s) (p : PosId) (c : LossCause) : Linked A none (s.vehicleLost p c) :=
  loseVehicle_linked (Linked.posted h.monitor) p

/-- A session whose claim has been released holds no bank, and is in the state in which it was. -/
theorem releaseClaim_without (h : Linked A none s) (p : PosId) :
    ((s.releaseClaim p).session p).bank = none ∧ ((s.releaseClaim p).session p).state = (s.session p).state := by
  cases e : (s.session p).bank with
  | none => rw [releaseClaim_none e]; exact ⟨e, rfl⟩
  | some b => rw [releaseClaim_session h e]; exact ⟨rfl, rfl⟩

theorem switchBanks_linked (h : Linked A none s) (r : (s.session p).running = true) : Linked A none (s.switchBanks p) :=
  claimPhase_linked endNow_links (newConnection_linked (releaseClaim_linked h (.inl rfl)) p _ _)
    (running_of_link (releaseClaim_goesOn s p p r)) fun _ => by
      unfold newConnection
      rw [modSession_session_same]
      exact ⟨(releaseClaim_without h p).1, rfl⟩

theorem boundary_linked (h : Linked A none s) (e : (s.session p).state = .delivering) : Linked A none (s.boundary p) := by
  have r : (s.session p).running = true := by
    unfold Session.running
    rw [e]
  unfold boundary
  refine .ite (fun _ => enterHeld_linked h r fun a n => ?_) fun _ => .ite (fun _ => switchBanks_linked h r) fun _ => h.session
  have c := h.coherent a p n
  have w := c.awaits (by rw [c.no_phase (by rw [e]; nofun)]; nofun)
  exact ⟨w.1, w.2, fun _ => nofun⟩

theorem leakFailed_linked (h : Linked A none s) (r : (s.session p).running = true)
    (k : A.coherent → (s.session p).Ready) : Linked A none (s.leakFailed p) := by
  have l : Linked A none (s.modSession p fun x => { x with attempt := some .recheck }) := h.session
  have r' : ((s.modSession p fun x => { x with attempt := some .recheck }).session p).running = true := running_of_link r
  have k' : A.coherent → ((s.modSession p fun x => { x with attempt := some .recheck }).session p).Ready := fun a => by
    rw [modSession_session_same]
    exact ⟨(k a).awaited, (k a).fresh, (k a).resume⟩
  exact .ite (fun _ => endWith_linked h _ _) fun _ => .ite (fun _ => beginConnect_linked l r' fun a _ => k' a) fun _ =>
    enterHeld_linked l r' fun a _ => ⟨(k' a).awaited, (k' a).fresh, fun _ => nofun⟩

theorem leakPassed_linked (h : Linked A none s) (r : (s.session p).running = true)
    (k : A.coherent → (s.session p).Ready) (a : Nat) : Linked A none (s.leakPassed p a) := by
  unfold leakPassed
  refine connected_linked (h.session ?_ fun _ _ c => ?_) (running_of_link r ?_) fun a _ => ?_
  · split <;> rfl
  · split
    · exact c
    · exact ⟨c.phase, c.selects, c.holds, c.resumes⟩
  · split <;> rfl
  · rw [modSession_session_same]
    split <;> exact ⟨(k a).awaited, (k a).fresh⟩

theorem endLeakCheck_linked (h : Linked A none s) (r : (s.session p).running = true)
    (k : A.coherent → (s.session p).Ready) : Linked A none (s.endLeakCheck p) := by
  have l : Linked A none (s.modSession p fun x => { x with leakStart := none, phaseTimer := none }) := h.session
  have r' : ((s.modSession p fun x => { x with leakStart := none, phaseTimer := none }).session p).running = true :=
    running_of_link r
  have k' : A.coherent →
      ((s.modSession p fun x => { x with leakStart := none, phaseTimer := none }).session p).Ready := fun a => by
    rw [modSession_session_same]
    exact ⟨(k a).awaited, (k a).fresh, (k a).resume⟩
  exact .ite (fun _ => leakPassed_linked l r' k' _) fun _ => leakFailed_linked l r' k'

theorem keepReleased_link (x : Session) : x.keepReleased.link = x.link := by
  unfold Session.keepReleased
  split <;> rfl

theorem keepRelease_linked (h : Linked A none s) (e : (s.session p).state = .held) : Linked A none (s.keepRelease p) := by
  have k : Linked A none (s.modSession p fun x => { x with keepTimer := none }) := h.session
  have w := releaseClaim_without k p
  refine Linked.session (releaseClaim_linked k (.inl rfl)) (keepReleased_link _) fun _ _ c => ?_
  rw [modSession_session_same] at w
  have e : (((s.modSession p fun x => { x with keepTimer := none }).releaseClaim p).session p).state = .held := w.2.trans e
  unfold Session.keepReleased
  split
  · exact c
  · refine ⟨c.phase, c.selects, fun b => ?_, fun _ => e⟩
    have b : (((s.modSession p fun x => { x with keepTimer := none }).releaseClaim p).session p).bank.isSome = true := b
    rw [w.1] at b
    exact nomatch b

/-! ### The Position Monitor's requests -/

theorem nozzleChange_linked (h : Linked A none s) (p : PosId) (n : NozzleState) : Linked A none (s.nozzleChange p n) := by
  unfold nozzleChange
  dsimp only
  have a : Linked A none (s.modMonitor p fun x => { x with nozzle := n }) := h.monitor
  have b := Linked.ite (c := (s.monitor p).nozzle = .connected) (fun _ => endWith_linked (Linked.monitor (f := Monitor.forgetProgress) (p := p) a) p .disconnected) fun _ => a
  have c := Linked.ite (c := n = .holstered) (fun _ => Linked.monitor (f := Monitor.clearRecord) (p := p) b) fun _ => b
  exact .ite (fun _ => Linked.monitor c) fun _ => c

theorem takeProgress_linked (h : Linked A none s) (p : PosId) (a t m : Nat) : Linked A none (s.takeProgress p a t m) :=
  takeReport_linked (Linked.monitor h.monitor) p a t m

theorem takeValidFrame_linked (h : Linked A none s) (p : PosId) (f : VehicleReport) : Linked A none (s.takeValidFrame p f) := by
  have k : Linked A none (s.recordFrame p f) := by
    unfold recordFrame
    exact h.monitor
  exact frameCriteria_linked (obeyVehicle_linked k p _) p

theorem takeInvalidFrame_linked (h : Linked A none s) (p : PosId) : Linked A none (s.takeInvalidFrame p) := by
  unfold takeInvalidFrame
  exact .ite (fun _ => vehicleLost_linked h.monitor p _) fun _ => h.monitor

theorem openSession_linked (h : Linked A none s) (i : (s.session p).state = .idle)
    (room : s.recordRoom = true) (a : Authorization) (f : FuelClass) (k : Nat) :
    Linked A none (s.openSession p a f k) := by
  have nr := Session.idle_stops i
  have aw := h.away p nr
  have np : p ∉ s.cbu.positions := fun m => by
    rw [h.cooled p m nofun] at nr
    exact nomatch nr
  have l1 : Linked A none (s.consume p a) := Linked.posted (h.sales)
  have same : ((s.consume p a).modSession p fun _ => s.opened p a f k).session p = s.opened p a f k :=
    modSession_session_same _ _ _
  have other : ∀ z, z ≠ p → ((s.consume p a).modSession p fun _ => s.opened p a f k).session z = s.session z :=
    fun z n => modSession_session_ne _ _ n
  have run : (s.opened p a f k).running = true := rfl
  have l2 : Linked A none ((s.consume p a).modSession p fun _ => s.opened p a f k) := by
    refine ⟨fun b z => ?_, fun b z => ?_, fun z => ?_, h.once, h.refill, h.forced, h.listed, fun z m l => ?_,
      fun z m => ?_, fun z m => ?_, h.closingOnce, fun z m => ?_, fun z m => ?_, fun a z m => ?_, fun a => ?_, fun a => (h.agreed a).of_bm,
      h.shelved.of_states (fun z m => ?_) fun z m => ?_⟩
    · by_cases n : z = p
      · rw [n, same]
        have := h.queued b p
        rw [aw.1 nofun |>.2] at this
        exact this
      · rw [other z n]; exact h.queued b z
    · by_cases n : z = p
      · rw [n, same]
        have := h.held b p
        rw [aw.1 nofun |>.1] at this
        exact this
      · rw [other z n]; exact h.held b z
    · by_cases n : z = p
      · rw [n, same]; exact .inl rfl
      · rw [other z n]; exact h.sole z
    · by_cases n : z = p
      · rw [n, same]; exact run
      · rw [other z n]; exact h.cooled z m l
    · by_cases n : z = p
      · rw [n, same, run] at m; exact nomatch m
      · rw [other z n] at m ⊢; exact h.away z m
    · by_cases n : z = p
      · have := h.closing z m
        rw [n, i] at this
        rcases this with e | e <;> exact nomatch e
      · rw [other z n]; exact h.closing z m
    · by_cases n : z = p
      · rw [n, same] at m; exact nomatch m
      · rw [other z n] at m ⊢; exact h.massed z m
    · by_cases n : z = p
      · rw [n, same] at m; exact nomatch m
      · rw [other z n] at m; exact h.registered z m
    · by_cases n : z = p
      · rw [n, same]; exact .of_still nofun rfl rfl ⟨rfl, rfl, rfl⟩
      · rw [other z n]; exact h.coherent a z m
    · refine (h.numbered a).opens (p := p) room ?_ (by rw [same]; rfl) (fun z n => by rw [other z n]) rfl rfl
      unfold Session.isOpen
      rw [i]
      rfl
    · by_cases n : z = p
      · rw [n, same] at m; exact nomatch m
      · rw [other z n] at m; exact m
    · by_cases n : z = p
      · rw [n] at m; exact nomatch i.symm.trans m
      · rw [other z n]; exact m
  refine requestCooling_linked (postSession_linked l2 p) np ?_ _ _
  show (((s.consume p a).modSession p fun _ => s.opened p a f k).session p).running = true
  rw [same]
  exact run

/-! ### The Bank Manager's events -/

theorem reportBank_linked (h : Linked A none s) (b : BankId) (r : Reading) : Linked A none (s.reportBank b r) := by
  unfold reportBank
  exact h.bank (c := h.forced b)

theorem reportAmbient_linked (h : Linked A none s) (t : Nat) : Linked A none (s.reportAmbient t) := Linked.site h.bm

theorem selectOnFresh_linked (h : Linked A none s) (p : PosId) : Linked A none (s.selectOnFresh p) := by
  unfold selectOnFresh
  refine .ite (fun e => ?_) fun _ => h
  have r := h.runs_fresh e
  refine selectBank_linked endNow_links (h.moves r (fun a n => ?_) r) (running_of_link r) fun a => ?_
  · have c := h.coherent a p n
    exact ⟨c.phase, fun _ => c.selects (.inr e), c.holds, c.resumes⟩
  · rw [modSession_session_same]
    exact (h.coherent a p nofun).selects (.inr e)

theorem toldFresh_linked (h : Linked A none s) (p : PosId) : Linked A none (s.toldFresh p) :=
  .ite (fun _ => selectOnFresh_linked (clearFactor_linked endNow_links h p _) p) fun _ => h

theorem becomeFresh_linked (h : Linked A none s) : Linked A none s.becomeFresh := by
  unfold becomeFresh
  split
  · exact h
  · exact inOrder_keeps (Linked A none) _ (fun p _ k => toldFresh_linked k p) _ (h.bm)

theorem testQueue_linked (h : Linked A none s) (b : BankId) : Linked A none (s.testQueue b) := by
  refine foldl_linked _ (fun s p k => ?_) _ _ h
  unfold testWaiter
  refine .ite (fun e => ?_) fun _ => k
  have a : (s.session p).awaited = some b := by
    simp only [Bool.and_eq_true, decide_eq_true_eq] at e
    exact e.1
  refine selectBank_linked endNow_links (leaveQueue_linked k) (leaveQueue_goesOn s p p (k.runs_awaited a nofun)) fun c => ?_
  rw [leaveQueue_session a]
  exact (k.coherent c p nofun).selects (.inl (by rw [a]; rfl))

theorem completeRefill_linked (h : Linked A none s) : Linked A none s.completeRefill := by
  unfold completeRefill
  split
  · exact h
  · rename_i b e
    split
    · exact h
    · exact .ite (fun _ => endRefill_linked h (h.refill b e) _) fun _ => h

theorem reportConsequences_linked (h : Linked A none s) : Linked A none s.reportConsequences :=
  proofExaminations_linked (inOrder_keeps (Linked A none) _
    (fun b _ k => .ite (fun _ => enterRefillList_linked k b) fun _ => k) _ (completeRefill_linked h))

theorem takeBankStatus_linked (h : Linked A none s) (r : Quad Reading) (t : Nat) : Linked A none (s.takeBankStatus r t) := by
  have a : Linked A none (inOrder (fun b s => s.reportBank b (r.get b)) s) :=
    inOrder_keeps (Linked A none) _ (fun b _ k => reportBank_linked k b _) _ h
  have b := becomeFresh_linked (reportAmbient_linked a t)
  exact reportConsequences_linked (inOrder_keeps (Linked A none) _ (fun b _ k => testQueue_linked k b) _ (b.bm))

theorem tellStale_linked (h : Linked A none s) (b : BankId) : Linked A none (s.tellStale b) := by
  unfold tellStale
  split
  · exact setFactor_linked h _ _
  · exact h

theorem freshnessRunsOut_linked (h : Linked A none s) : Linked A none s.freshnessRunsOut := by
  have a : Linked A none (s.modBm fun m => { m with freshness := .stale, freshnessTimer := none }) := h.bm
  exact inOrder_keeps (Linked A none) _ (fun b _ k => abandonAndFree_linked k b) _
    (inOrder_keeps (Linked A none) _ (fun b _ k => tellStale_linked k b) _ a.posted)

theorem yieldRunsOut_linked (h : Linked A none s) : Linked A none s.yieldRunsOut := by
  unfold yieldRunsOut
  split
  · rename_i b e; exact endRefill_linked h (h.refill b e) _
  · exact h.bm

/-- PROOF releases a bank that it may have held. -/
theorem releaseProof_linked {b : BankId} (h : Linked A.unbanked none s) (k : ProofKind)
    (f : k = .forced → (s.bank b).holder = .free ∨ (s.bank b).holder = .proof) (n : (s.bank b).proof = none) :
    Linked A.unbanked none (s.releaseProof b k) := by
  unfold releaseProof
  cases k with
  | opportunistic => exact h
  | forced =>
    have u := h.unheld (f rfl)
    have l : Linked A.unbanked none (s.undesignate b) := h.bm (g := nofun)
    refine handOn_vacating (l.vacant b u.1 u.2 (.inl rfl) nofun) u.2 (fun g m => ?_) (fun _ _ => nofun) nofun
    have m : (s.bank b).proof = some g := m
    rw [n] at m
    exact nomatch m

theorem proofRunsOut_linked {b : BankId} {f : ProofFields} (h : Linked A none s) (e : (s.bank b).proof = some f) :
    Linked A none (s.proofRunsOut b f) := by
  refine Linked.withAgreed ?_ fun a => proofRunsOut_agree (h.agreed a) e
  have h := h.unbanked
  have fo := h.forced b f e
  have hold : ∀ (a : ProofState) (g : Bank → Bank), (∀ x, (g x).holder = x.holder) → (∀ x, (g x).proof = x.proof) →
      (((s.endProof b a).modBank b g).bank b).holder = (s.bank b).holder
        ∧ (((s.endProof b a).modBank b g).bank b).proof = none := by
    intro a g k l
    rw [modBank_bank_same, k, l]
    unfold endProof
    rw [modBank_bank_same]
    exact ⟨rfl, rfl⟩
  unfold proofRunsOut
  refine .ite (fun _ => ?_) fun _ => ?_
  · have d := hold .suspect (fun x => { x with overdue := false }) (fun _ => rfl) fun _ => rfl
    have l : Linked A.unbanked none ((s.endProof b .suspect).modBank b fun x => { x with overdue := false }) :=
      Linked.bank (endProof_linked h b _) (g := nofun) (c := fun g m => by
        unfold endProof at m
        rw [modBank_bank_same] at m
        exact nomatch m)
    refine releaseProof_linked (leaveRefillList_linked l.posted b) _ (fun k => ?_) ?_
    · show (((s.endProof b .suspect).modBank b fun x => { x with overdue := false }).bank b).holder = _
        ∨ (((s.endProof b .suspect).modBank b fun x => { x with overdue := false }).bank b).holder = _
      rw [d.1]
      exact fo k
    · exact d.2
  · have d := hold .proven (fun x => { x with overdue := false, provenAt := some s.site.siteTime }) (fun _ => rfl) fun _ => rfl
    have l : Linked A.unbanked none ((s.endProof b .proven).modBank b fun x =>
        { x with overdue := false, provenAt := some s.site.siteTime }) :=
      Linked.bank (endProof_linked h b _) (g := nofun) (c := fun g m => by
        unfold endProof at m
        rw [modBank_bank_same] at m
        exact nomatch m)
    refine releaseProof_linked l _ (fun k => ?_) d.2
    rw [d.1]
    exact fo k

theorem beginRefill_linked {b : BankId} (h : Linked A none s) (e : (s.bank b).holder = .free)
    (v : s.bm.refillInFlight = none) : Linked A none (s.beginRefill b) := by
  refine Linked.withAgreed ?_ fun a => beginRefill_agree (h.agreed a) b v
  have h := h.unbanked
  have k := abandonProof_linked h b
  have bk : ((s.abandonProof b).bank b).holder = .free := by
    unfold abandonProof
    split
    · exact e
    · show ((s.endProof b _).bank b).holder = .free
      unfold endProof
      rw [modBank_bank_same]
      exact e
  have np : ∀ f, ((s.abandonProof b).bank b).proof ≠ some f := fun f c => by
    unfold abandonProof at c
    split at c
    · rename_i n; rw [n] at c; exact nomatch c
    · have c : ((s.endProof b _).bank b).proof = some f := c
      unfold endProof at c
      rw [modBank_bank_same] at c
      exact nomatch c
  have u := k.unheld (.inl bk)
  show Linked A.unbanked none (((s.abandonProof b).modBank b fun x => { x with holder := .refill }).modBm fun m =>
    { m with refillList := m.refillList.filter (fun x => x != b), refillInFlight := some b, yieldTimer := none })
  generalize s.abandonProof b = t at k bk np u
  have bank : ∀ d, (t.modBank b fun x => { x with holder := .refill }).bank d
      = if d = b then { t.bank b with holder := .refill } else t.bank d := fun d =>
    modBank_bank t b d fun x => { x with holder := .refill }
  refine ⟨fun d z => ?_, fun d z => ?_, k.sole, fun d => ?_, fun d r => ?_, fun d f m g => ?_, k.listed, k.cooled, k.away,
    k.closing, k.closingOnce, k.massed, k.registered, k.coherent,
    fun a => (k.numbered a).of_same (fun _ => rfl) (.refl _) rfl, nofun, k.shelved.of_same fun _ => rfl⟩
  · show z ∈ ((t.modBank b fun x => { x with holder := .refill }).bank d).queue ↔ _
    rw [bank]; split
    · rename_i c; rw [c]; exact k.queued b z
    · exact k.queued d z
  · show ((t.modBank b fun x => { x with holder := .refill }).bank d).holder = _ ↔ _
    rw [bank]; split
    · rename_i c
      rw [c]
      exact ⟨nofun, fun m => absurd ((k.held b z).mpr m) (u.1 z)⟩
    · exact k.held d z
  · show ((t.modBank b fun x => { x with holder := .refill }).bank d).queue.Nodup
    rw [bank]; split
    · exact k.once b
    · exact k.once d
  · show ((t.modBank b fun x => { x with holder := .refill }).bank d).holder = _
    have r : some b = some d := r
    injection r with r
    rw [bank, if_pos r.symm]
  · show ((t.modBank b fun x => { x with holder := .refill }).bank d).holder = _
      ∨ ((t.modBank b fun x => { x with holder := .refill }).bank d).holder = _
    have m : ((t.modBank b fun x => { x with holder := .refill }).bank d).proof = some f := m
    rw [bank] at m ⊢
    split at m
    · exact absurd m (np f)
    · rename_i c
      rw [if_neg c]
      exact k.forced d f m g

end State

end Sys2Proof.Machine
end

