-- ==== Sys2Proof/Laws/Delivery.lean ====
section
/-! SUPPORT. The operations of the Fill Engine, the Position Monitor, the Bank Manager and Site Control keep the
invariants. -/

namespace Sys2Proof.Machine.State

set_option Elab.async false

variable (s : State) (p : PosId)

/-! ### Reports -/

theorem noteReport_kept (x m : Nat) : Kept s (s.noteReport p x m) := (Kept.refl s).session

theorem clearOverRamp_kept (x : Nat) : Kept s (s.clearOverRamp p x) := by
  unfold clearOverRamp
  split
  · exact .ite (fun _ => clearFactor_kept _ _ _) fun _ => .refl s
  · exact .refl s

theorem clearGasWarm_kept (x : Nat) : Kept s (s.clearGasWarm p x) :=
  .ite (fun _ => .refl s) fun _ => clearFactor_kept _ _ _

theorem overRampCheck_kept (x c : Nat) : Kept s (s.overRampCheck p x c) :=
  .ite (fun _ => setFactor_kept _ _ _) fun _ => clearOverRamp_kept _ _ _

theorem gasWarmTest_kept (x : Nat) : Kept s (s.gasWarmTest p x) := by
  unfold gasWarmTest
  refine .ite (fun _ => .ite (fun _ => .refl s) fun _ => .ite (fun _ => setFactor_kept _ _ _) fun _ => ?_) fun _ => ?_
  · exact (Kept.refl s).session
  · exact (Kept.refl s).session.trans (clearGasWarm_kept _ _ _)

theorem deliveryReport_kept (x t : Nat) : Kept s (s.deliveryReport p x t) := by
  unfold deliveryReport
  refine Kept.trans (t := s.modSession p fun y => { y with flowCeiling := s.rampCeiling p }) (Kept.refl s).session ?_
  dsimp only
  split
  · exact endWith_kept _ _ _
  · exact (overRampCheck_kept _ _ _ _).trans (gasWarmTest_kept _ _ _)

theorem takeReport_kept (x t m : Nat) : Kept s (s.takeReport p x t m) := by
  have n := noteReport_kept s p x m
  unfold takeReport
  split
  · exact .refl s
  · exact n
  · exact n
  · exact n.trans (.ite (fun _ => endWith_kept _ _ _) fun _ => .refl _)
  · exact n.trans (.ite (fun _ => endWith_kept _ _ _) fun _ =>
      (clearOverRamp_kept _ _ _).trans (clearGasWarm_kept _ _ _))
  · exact n.trans (.ite (fun _ => endWith_kept _ _ _) fun _ =>
      (clearOverRamp_kept _ _ _).trans (clearGasWarm_kept _ _ _))
  · exact n.trans (.ite (fun _ => endWith_kept _ _ _) fun _ => deliveryReport_kept _ _ _ _)

/-! ### Vehicle data -/

theorem obeyVehicle_kept (c : FuelCommand) : Kept s (s.obeyVehicle p c) := by
  refine .ite (fun _ => ?_) fun _ => .refl s
  cases c
  · exact clearFactor_kept _ _ _
  · exact setFactor_kept _ _ _
  · exact endWith_kept _ _ _

theorem frameCriteria_kept : Kept s (s.frameCriteria p) := by
  refine .ite (fun _ => ?_) fun _ => .refl s
  split
  · exact endWith_kept _ _ _
  · exact .refl s

theorem loseVehicle_kept : Kept s (s.loseVehicle p) :=
  .ite (fun _ => .ite (fun _ => endWith_kept _ _ _) fun _ => (Kept.refl s).session) fun _ => .refl s

theorem recordFrame_kept (f : VehicleReport) : Kept s (s.recordFrame p f) := by
  unfold recordFrame
  exact (Kept.refl s).monitor (a := fun x h => ⟨⟨fun _ => rfl, fun _ => rfl⟩, ⟨fun _ => rfl, fun _ => rfl⟩, h.2.2⟩)

theorem vehicleLost_kept (c : LossCause) : Kept s (s.vehicleLost p c) := by
  unfold vehicleLost
  refine ((Kept.refl s).monitor (a := fun x h => ?_)).posted.trans (loseVehicle_kept _ _)
  exact ⟨⟨nofun, nofun⟩, ⟨nofun, nofun⟩, h.2.2⟩

theorem takeValidFrame_kept (f : VehicleReport) : Kept s (s.takeValidFrame p f) :=
  ((recordFrame_kept s p f).trans (obeyVehicle_kept _ _ _)).trans (frameCriteria_kept _ _)

theorem takeInvalidFrame_kept : Kept s (s.takeInvalidFrame p) := by
  unfold takeInvalidFrame
  exact (Kept.refl s).monitor.trans (.ite (fun _ => vehicleLost_kept _ _ _) fun _ => .refl _)

/-! ### Segments, leak checks and holds -/

theorem releaseClaim_kept : Kept s (s.releaseClaim p) := .of_steady (releaseClaim_steady _ _)

theorem switchBanks_kept : Kept s (s.switchBanks p) := by
  unfold switchBanks
  exact ((((releaseClaim_kept s p).session).trans (.of_steady (enterClaim_steady _ _))).trans
    (.of_steady (postSession_steady _ _))).trans (selectBank_kept _ _)

theorem boundary_kept : Kept s (s.boundary p) := by
  unfold boundary
  refine .ite (fun _ => .of_steady (enterHeld_steady _ _ _)) fun _ => .ite (fun _ => switchBanks_kept _ _) fun _ => ?_
  exact (Kept.refl s).session

theorem leakFailed_kept : Kept s (s.leakFailed p) := by
  unfold leakFailed
  refine .ite (fun _ => endWith_kept _ _ _) fun _ => ?_
  refine Kept.trans (t := s.modSession p fun x => { x with attempt := some .recheck }) (Kept.refl s).session
    (.ite (fun _ => ?_) fun _ => ?_)
  · exact .of_steady (beginConnect_steady _ _)
  · exact .of_steady (enterHeld_steady _ _ _)

theorem leakPassed_kept (r : Nat) : Kept s (s.leakPassed p r) := by
  unfold leakPassed
  refine ((Kept.refl s).session (a := fun x h => ?_) (b := fun x h => ?_)).trans (.of_steady (connected_steady _ _))
  · split
    · exact h
    · exact Nat.zero_le _
  · split
    · exact h
    · exact h

theorem endLeakCheck_kept : Kept s (s.endLeakCheck p) := by
  unfold endLeakCheck
  exact (Kept.refl s).session.trans (.ite (fun _ => leakPassed_kept _ _ _) fun _ => leakFailed_kept _ _)

theorem keepRelease_kept : Kept s (s.keepRelease p) := by
  unfold keepRelease
  refine ((Kept.refl s).session.trans (releaseClaim_kept _ p)).session (a := fun x h => ?_) (b := fun x h => ?_)
  · unfold Session.keepReleased
    split <;> exact h
  · unfold Session.keepReleased
    split <;> exact h

/-! ### The Position Monitor -/

theorem restartProgress_kept : Kept s (s.restartProgress p) := (Kept.refl s).monitor

theorem nozzleLeaves_kept : Kept s (s.nozzleLeaves p) :=
  Kept.trans (t := s.modMonitor p Monitor.forgetProgress)
    ((Kept.refl s).monitor (f := Monitor.forgetProgress) (a := fun _ h => ⟨h.1, h.2.1, rfl, rfl⟩)) (endWith_kept _ _ _)

theorem nozzleChange_kept (n : NozzleState) : Kept s (s.nozzleChange p n) := by
  unfold nozzleChange
  refine (((Kept.refl s).monitor.trans (.ite (fun _ => nozzleLeaves_kept _ _) fun _ => .refl _)).trans
    (.ite (fun _ => ?_) fun _ => .refl _)).trans (.ite (fun _ => restartProgress_kept _ _) fun _ => .refl _)
  exact (Kept.refl _).monitor (f := Monitor.clearRecord) (a := fun _ h => ⟨⟨nofun, nofun⟩, ⟨nofun, nofun⟩, h.2.2⟩)

theorem takeProgress_kept (x t m : Nat) : Kept s (s.takeProgress p x t m) := by
  have k : Kept s (s.modMonitor p fun y => y.keepReport x t m) :=
    (Kept.refl s).monitor (f := fun y => y.keepReport x t m) (a := fun _ h => ⟨h.1, h.2.1, rfl, rfl⟩)
  unfold takeProgress
  exact (k.trans (restartProgress_kept _ p)).trans (takeReport_kept _ _ _ _ _)

theorem completeClosing_kept : Kept s (s.completeClosing p) := by
  unfold completeClosing
  exact (Kept.of_calm (commit_calm s p)).sales

theorem serveCloseQueue_kept : Kept s s.serveCloseQueue := .of_steady (serveCloseQueue_steady _)

theorem openSession_kept (a : Authorization) (f : FuelClass) (k : Nat) : Kept s (s.openSession p a f k) := by
  unfold openSession
  have k : Kept s ((s.consume p a).modSession p fun _ => s.opened p a f k) :=
    ((Kept.refl s).sales (f := fun u => { u with slots := u.slots.set p none })).posted.session
      (f := fun _ => s.opened p a f k) (a := fun _ _ => Nat.zero_le _) (b := fun _ _ _ h => nomatch h)
  exact (k.trans (.of_steady (postSession_steady _ _))).trans (requestCooling_kept _ _ _ _)

/-! ### The Bank Manager -/

theorem reportBank_kept (b : BankId) (r : Reading) : Kept s (s.reportBank b r) := by
  unfold reportBank
  exact (Kept.refl s).bank

theorem reportAmbient_kept (t : Nat) : Kept s (s.reportAmbient t) := by
  refine Kept.ofSite (Kept.refl s).bm id id

theorem selectOnFresh_kept : Kept s (s.selectOnFresh p) :=
  .ite (fun _ => (Kept.refl s).session.trans (selectBank_kept _ _)) fun _ => .refl s

theorem toldFresh_kept : Kept s (s.toldFresh p) :=
  .ite (fun _ => (clearFactor_kept _ _ _).trans (selectOnFresh_kept _ _)) fun _ => .refl s

theorem becomeFresh_kept : Kept s s.becomeFresh := by
  unfold becomeFresh
  split
  · exact .refl s
  · exact (Kept.refl s).bm.trans (inOrder_kept _ (fun p s => toldFresh_kept s p) _)

theorem removeWaiter_kept : Kept s (s.removeWaiter p) :=
  (Kept.of_steady (leaveQueue_steady _ _)).trans (selectBank_kept _ _)

theorem testQueue_kept (b : BankId) : Kept s (s.testQueue b) :=
  foldl_kept _ (fun s p => .ite (fun _ => removeWaiter_kept s p) fun _ => .refl s) _ _

theorem completeRefill_kept : Kept s s.completeRefill := by
  unfold completeRefill
  split
  · exact .refl s
  · split
    · exact .refl s
    · exact .ite (fun _ => .of_steady (endRefill_steady _ _ _)) fun _ => .refl s

theorem listIfLow_kept (b : BankId) : Kept s (s.listIfLow b) :=
  .ite (fun _ => .of_steady (enterRefillList_steady _ _)) fun _ => .refl s

theorem reportConsequences_kept : Kept s s.reportConsequences :=
  ((completeRefill_kept s).trans (inOrder_kept _ (fun b s => listIfLow_kept s b) _)).trans
    (.of_steady (proofExaminations_steady _))

theorem takeBankStatus_kept (r : Quad Reading) (t : Nat) : Kept s (s.takeBankStatus r t) := by
  unfold takeBankStatus
  exact ((((((inOrder_kept _ (fun b s => reportBank_kept s b (r.get b)) s).trans (reportAmbient_kept _ t)).trans
    (becomeFresh_kept _)).bm).trans (inOrder_kept _ (fun b s => testQueue_kept s b) _)).trans
    (reportConsequences_kept _))

theorem tellStale_kept (b : BankId) : Kept s (s.tellStale b) := by
  unfold tellStale
  split
  · exact setFactor_kept _ _ _
  · exact .refl s

theorem freshnessRunsOut_kept : Kept s s.freshnessRunsOut := by
  unfold freshnessRunsOut
  exact (((Kept.refl s).bm.posted).trans (inOrder_kept _ (fun b s => tellStale_kept s b) _)).trans
    (inOrder_kept _ (fun b s => .of_steady (abandonAndFree_steady s b)) _)

theorem yieldRunsOut_kept : Kept s s.yieldRunsOut := by
  unfold yieldRunsOut
  split
  · exact .of_steady (endRefill_steady _ _ _)
  · exact (Kept.refl s).bm

theorem releaseProof_kept (b : BankId) (k : ProofKind) : Kept s (s.releaseProof b k) := by
  cases k
  · exact .refl s
  · exact (Kept.of_steady (undesignate_steady _ _)).trans (.of_steady (handOn_steady _ _))

theorem proofRunsOut_kept (b : BankId) (f : ProofFields) : Kept s (s.proofRunsOut b f) := by
  unfold proofRunsOut
  refine .ite (fun _ => ?_) fun _ => ?_
  · unfold failProof
    exact ((((Kept.of_steady (endProof_steady s b _)).bank).posted.trans
      (.of_steady (leaveRefillList_steady _ _)))).trans (releaseProof_kept _ _ _)
  · unfold passProof
    exact ((Kept.of_steady (endProof_steady s b _)).bank).trans (releaseProof_kept _ _ _)

theorem beginRefill_kept (b : BankId) : Kept s (s.beginRefill b) := by
  unfold beginRefill
  exact ((((Kept.of_steady (abandonProof_steady s b)).bank (c := Bank.standing_refill_le _)).trans
    (.of_steady (leaveRefillList_steady _ _))).bm)

theorem clearClaim_kept (b : BankId) : Kept s (s.clearClaim b) := by
  unfold clearClaim
  split
  · exact ((Kept.of_steady (snapshotRelease_steady s b _)).trans (.of_steady (forgetBank_steady _ _))).bank
      (c := Bank.standing_freed_le _)
  · exact .refl s

theorem clearClaims_kept : Kept s s.clearClaims := by
  unfold clearClaims
  refine (((inOrder_kept _ (fun b s => clearClaim_kept s b) s).trans
    (inOrder_kept _ (fun b s => (Kept.refl s).bank (c := fun q => ?_)) _)).trans
    (inOrder_kept _ (fun p s => (Kept.refl s).session) _)).trans (.of_steady (settleYield_steady _))
  unfold Bank.standing
  simp

theorem stopBanks_kept : Kept s s.stopBanks := by
  unfold stopBanks
  refine ((clearClaims_kept s).trans ?_).trans
    (inOrder_kept _ (fun b s => .of_steady (abandonAndFree_steady s b)) _)
  unfold abortRefill
  split
  · exact .of_steady (refillEnds_steady _ _ _)
  · exact .refl _

theorem resetBanks_kept : Kept s s.resetBanks :=
  (stopBanks_kept s).trans (inOrder_kept _ (fun _ s => (Kept.refl s).bank) _)

end Sys2Proof.Machine.State
end

