-- ==== Sys2Proof/Laws/Tables.lean ====
section
/-! SUPPORT. Every entry that a load puts into a site configuration passes the checks made at load. -/

namespace Sys2Proof.Machine

set_option Elab.async false

theorem inRange_some {lo hi n m : Nat} (h : inRange lo hi n = some m) : lo ≤ m ∧ m ≤ hi := by
  unfold inRange at h
  split at h
  · cases h; assumption
  · cases h

theorem field_le_two (e : List Byte) (off : Nat) : field e off 2 ≤ 65535 := by
  unfold field
  have key : ∀ l : List Byte, l.length ≤ 2 → unbe l ≤ 65535 := fun l h => by
    match l with
    | [] => exact Nat.zero_le _
    | [a] => have := a.isLt; simp [unbe]; omega
    | [a, b] => have := a.isLt; have := b.isLt; simp [unbe]; omega
    | _ :: _ :: _ :: _ => simp at h
  exact key _ (by rw [List.length_take]; omega)

/-- A density row read from an entry has 16 densities within their range (R27). -/
theorem readDensityRow_inRange (e : List Byte) :
    (readDensityRow e).length = 16 ∧ ∀ d ∈ readDensityRow e, d ≤ 65535 := by
  unfold readDensityRow
  refine ⟨by simp, fun d m => ?_⟩
  obtain ⟨j, _, rfl⟩ := List.mem_map.mp m
  exact field_le_two _ _

theorem readDegrade_some {x n : Nat} {o : Option Nat} (h : readDegrade x n = some o) (k : Nat) (e : o = some k) :
    x < k ∧ k % 6 = x % 6 ∧ k / 24 = x / 24 ∧ k < 48 := by
  unfold readDegrade at h
  split at h
  · cases h; cases e
  · split at h
    · rename_i a
      cases h
      cases e
      unfold degradeAccepted at a
      simp only [Bool.and_eq_true, decide_eq_true_eq, beq_iff_eq] at a
      omega
    · cases h

theorem demandLimit_le (i : Nat) : demandLimit i ≤ 50000 := by
  unfold demandLimit
  split <;> omega

/-- A profile entry read passes its checks (R28). -/
theorem readProfile_inRange {i : Nat} {e : List Byte} {f : Profile} (h : readProfile i e = some f) : f.InRange i := by
  unfold readProfile at h
  obtain ⟨permitted, _, h⟩ := Option.bind_eq_some_iff.mp h
  obtain ⟨rampRate, h1, h⟩ := Option.bind_eq_some_iff.mp h
  obtain ⟨endPressure, h2, h⟩ := Option.bind_eq_some_iff.mp h
  obtain ⟨nonComm, h3, h⟩ := Option.bind_eq_some_iff.mp h
  obtain ⟨soc, h4, h⟩ := Option.bind_eq_some_iff.mp h
  obtain ⟨seg, h5, h⟩ := Option.bind_eq_some_iff.mp h
  obtain ⟨settle, h6, h⟩ := Option.bind_eq_some_iff.mp h
  obtain ⟨leak, h7, h⟩ := Option.bind_eq_some_iff.mp h
  obtain ⟨drop, h8, h⟩ := Option.bind_eq_some_iff.mp h
  obtain ⟨shoot, h9, h⟩ := Option.bind_eq_some_iff.mp h
  obtain ⟨switch, h10, h⟩ := Option.bind_eq_some_iff.mp h
  obtain ⟨warm, h11, h⟩ := Option.bind_eq_some_iff.mp h
  obtain ⟨resume, h12, h⟩ := Option.bind_eq_some_iff.mp h
  obtain ⟨hold, h13, h⟩ := Option.bind_eq_some_iff.mp h
  obtain ⟨demand, h14, h⟩ := Option.bind_eq_some_iff.mp h
  obtain ⟨wait, h15, h⟩ := Option.bind_eq_some_iff.mp h
  obtain ⟨anticip, h16, h⟩ := Option.bind_eq_some_iff.mp h
  obtain ⟨mandatory, _, h⟩ := Option.bind_eq_some_iff.mp h
  obtain ⟨degrade, h17, h⟩ := Option.bind_eq_some_iff.mp h
  cases h
  have d := inRange_some h14
  exact
    { rampRate := inRange_some h1
      endPressure := inRange_some h2
      nonCommEndPressure := inRange_some h3
      socTarget := inRange_some h4
      segmentLength := inRange_some h5
      settleInterval := (inRange_some h6).2
      leakCheckHold := inRange_some h7
      leakDropLimit := inRange_some h8
      overshoot := (inRange_some h9).2
      switchMargin := inRange_some h10
      warmGrace := (inRange_some h11).2
      resumeDelay := (inRange_some h12).2
      holdLimit := inRange_some h13
      coolingDemand := d.2.trans (demandLimit_le i)
      warmest := fun t => by
        have := d.2
        unfold demandLimit at this
        rw [if_pos t] at this
        exact Nat.le_zero.mp this
      coolingWaitLimit := (inRange_some h15).2
      closingAnticipation := (inRange_some h16).2
      degradeTo := fun k ek => readDegrade_some h17 k ek }

/-- A bank entry read passes its checks (R29). -/
theorem readBankEntry_inRange {e : List Byte} {x : BankEntry} (h : readBankEntry e = some x) : x.InRange := by
  unfold readBankEntry at h
  simp only [Option.bind_eq_bind, Option.bind_eq_some_iff, Option.pure_def, Option.some.injEq] at h
  obtain ⟨volume, h1, rated, h2, stop, h3, start, h4, rfl⟩ := h
  have := inRange_some h3
  have := inRange_some h4
  exact ⟨inRange_some h1, inRange_some h2, ⟨by show start < stop; omega, by show stop ≤ rated; omega⟩⟩

theorem mapM_length {α β : Type} (f : α → Option β) (l : List α) (r : List β) (h : l.mapM f = some r) :
    r.length = l.length := by
  induction l generalizing r with
  | nil => cases h; rfl
  | cons a l ih =>
    rw [List.mapM_cons] at h
    simp only [Option.bind_eq_bind, Option.bind_eq_some_iff, Option.pure_def, Option.some.injEq] at h
    obtain ⟨b, _, m, hm, rfl⟩ := h
    simp [ih m hm]

/-- A cascade list read passes its checks (R29). -/
theorem readCascade_inRange {e : List Byte} {l : List BankId} (len : e.length = 32) (h : readCascade e = some l) :
    CascadeInRange l := by
  unfold readCascade at h
  simp only [Option.bind_eq_bind, Option.bind_eq_some_iff] at h
  obtain ⟨n, h1, m, h2, h3⟩ := h
  have r := inRange_some h1
  split at h3
  · rename_i nd
    cases h3
    have hl : l.length = n := by
      rw [mapM_length _ _ _ h2, List.length_take, List.length_drop]
      omega
    exact ⟨by omega, by omega, nd⟩
  · cases h3

theorem paramDefaults_inRange : ParamsInRange paramDefaults := by
  refine ⟨by decide, ?_⟩
  decide

/-- A site parameter read lies in its range (R31). -/
theorem readParam_inRange {i v : Nat} {e : List Byte} (h : readParam i e = some v) :
    (paramRanges.getD i (0, 0)).1 ≤ v ∧ v ≤ (paramRanges.getD i (0, 0)).2 := by
  unfold readParam at h
  split at h
  · rename_i lo hi hp
    rw [List.getD_eq_getElem?_getD, hp]
    exact inRange_some h
  · cases h

theorem ParamsInRange.set {l : List Nat} {i v : Nat} (h : ParamsInRange l)
    (hv : (paramRanges.getD i (0, 0)).1 ≤ v ∧ v ≤ (paramRanges.getD i (0, 0)).2) : ParamsInRange (l.set i v) := by
  refine ⟨by rw [List.length_set]; exact h.1, fun j hj => ?_⟩
  have key : (l.set i v).getD j 0 = if i = j then v else l.getD j 0 := by
    rw [List.getD_eq_getElem?_getD, List.getElem?_set, List.getD_eq_getElem?_getD]
    split
    · rename_i e
      rw [if_pos (by rw [h.1, e]; exact hj)]
      rfl
    · rfl
  rw [key]
  split
  · rename_i e
    rw [← e]
    exact hv
  · exact h.2 j hj

theorem getD_set {α : Type} (l : List (Option α)) (i j : Nat) (x y : α) (h : (l.set i (some x)).getD j none = some y) :
    (j = i ∧ y = x) ∨ l.getD j none = some y := by
  rw [List.getD_eq_getElem?_getD, List.getElem?_set] at h
  split at h
  · rename_i e
    split at h
    · exact .inl ⟨e.symm, by simpa using h.symm⟩
    · simp at h
  · exact .inr (by rw [List.getD_eq_getElem?_getD]; exact h)

/-- A configuration with one more entry loaded passes the checks if it passed them before (R26 to R31). -/
theorem SiteConfig.load_inRange {c d : SiteConfig} {table index : Nat} {e : List Byte} (k : c.InRange)
    (len : e.length = 32) (h : c.load table index e = some d) : d.InRange := by
  unfold SiteConfig.load at h
  split at h
  · cases h
    refine { k with rows := ⟨by rw [List.length_set]; exact k.rows.1, k.rows.2⟩, density := fun i row hr => ?_ }
    rcases getD_set _ _ _ _ _ hr with ⟨_, rfl⟩ | hr
    · exact readDensityRow_inRange e
    · exact k.density i row hr
  · obtain ⟨x, hx, rfl⟩ := Option.map_eq_some_iff.mp h
    refine { k with rows := ⟨k.rows.1, by rw [List.length_set]; exact k.rows.2⟩, profiles := fun i f hr => ?_ }
    rcases getD_set _ _ _ _ _ hr with ⟨rfl, rfl⟩ | hr
    · exact readProfile_inRange hx
    · exact k.profiles i f hr
  · split at h
    · obtain ⟨x, hx, rfl⟩ := Option.map_eq_some_iff.mp h
      refine { k with banks := fun b f hr => ?_ }
      have hr : (c.banks.set _ (some x)).get b = some f := hr
      rw [Quad.get_set] at hr
      split at hr
      · cases hr; exact readBankEntry_inRange hx
      · exact k.banks b f hr
    · obtain ⟨l, hx, rfl⟩ := Option.map_eq_some_iff.mp h
      have cl := readCascade_inRange len hx
      split
      · refine { k with cascades := ⟨fun m e => ?_, k.cascades.2⟩ }
        cases e; exact cl
      · refine { k with cascades := ⟨k.cascades.1, fun m e => ?_⟩ }
        cases e; exact cl
  · split at h
    · obtain ⟨x, hx, rfl⟩ := Option.map_eq_some_iff.mp h
      exact { k with }
    · cases h
  · obtain ⟨v, hv, rfl⟩ := Option.map_eq_some_iff.mp h
    refine { k with params := fun l e => ?_ }
    cases e
    refine ParamsInRange.set ?_ (readParam_inRange hv)
    match hc : c.params with
    | none => exact paramDefaults_inRange
    | some l => exact k.params l hc
  · cases h

end Sys2Proof.Machine
end

