-- ==== Sys2Proof/Laws/Events.lean ====
section
/-! SUPPORT. Every request, every expiry and so every command keeps the invariants of `Kept`. -/

namespace Sys2Proof.Machine

set_option Elab.async false

/-- A request that keeps the invariants, whatever the state. -/
def Handler.Keeps (h : Handler) : Prop := ∀ s, Kept s (h s).1

namespace Handler

theorem keeps_of_refuse (c : Code) (s : State) : Kept s (refuse c s).1 := .refl s

theorem keeps_of_done {s t : State} (h : Kept s t) : Kept s (done t).1 := h

theorem keeps_of_doneWith {s t : State} (b : List Byte) (h : Kept s t) : Kept s (doneWith b t).1 := h

theorem keeps_ite {c : Prop} [Decidable c] {s : State} {x y : State × Reply} (h : c → Kept s x.1) (k : ¬c → Kept s y.1) :
    Kept s (if c then x else y).1 := by
  split
  · exact h ‹_›
  · exact k ‹_›

end Handler

open Handler

variable (p : PosId)

/-! ### The Link Interface -/

theorem readNotices_keeps (q : PortId) : (readNoticesRequest q).Keeps := fun s => by
  unfold readNoticesRequest
  dsimp only
  split
  · exact .refl s
  · exact keeps_of_doneWith _ ((Kept.refl s).port (q := List.drop_sublist _ _))

/-! ### The dispenser's requests -/

theorem nozzle_keeps (v : Nat) : (nozzleRequest p v).Keeps := fun s => by
  unfold nozzleRequest
  split
  · exact .refl s
  · exact keeps_ite (fun _ => .refl s) fun _ => State.nozzleChange_kept _ _ _

theorem progress_keeps (x t m : Nat) : (progressRequest p x t m).Keeps := fun s =>
  keeps_ite (fun _ => .refl s) fun _ => keeps_ite (fun _ => .refl s) fun _ => State.takeProgress_kept _ _ _ _ _

theorem finalMeter_keeps (m : Nat) : (finalMeterRequest p m).Keeps := fun s => by
  unfold finalMeterRequest
  refine keeps_ite (fun _ => .refl s) fun _ => ?_
  split
  · exact keeps_of_done (Kept.refl s).session
  · exact (((Kept.refl s).session (f := fun x => { x with finalMass := some m })).trans
      (State.completeClosing_kept _ _)).trans (State.serveCloseQueue_kept _)
  all_goals exact .refl s

theorem vehicleFrame_keeps (k c v x t f : Nat) : (vehicleFrameRequest p k c v x t f).Keeps := fun s => by
  unfold vehicleFrameRequest
  split
  · refine keeps_ite (fun _ => .refl s) fun _ => ?_
    exact Kept.ite (fun _ => State.takeValidFrame_kept _ _ _) fun _ => State.takeInvalidFrame_kept _ _
  · exact .refl s

theorem start_keeps : (startRequest p).Keeps := fun s => by
  unfold startRequest
  split
  · exact .refl s
  · split
    · split
      · exact .refl s
      · exact keeps_ite (fun _ => .refl s) fun _ => State.openSession_kept _ _ _ _ _
    · exact .refl s

theorem stop_keeps : (stopRequest p).Keeps := fun s =>
  keeps_ite (fun _ => State.endWith_kept _ _ _) fun _ => .refl s

theorem pause_keeps : (pauseRequest p).Keeps := fun s =>
  keeps_ite (fun _ => State.setFactor_kept _ _ _) fun _ => .refl s

theorem continue_keeps : (continueRequest p).Keeps := fun s =>
  keeps_ite (fun _ => State.clearFactor_kept _ _ _) fun _ => .refl s

theorem readPositionOwn_keeps : (readPositionOwn p).Keeps := fun s => .refl s

theorem readPositionNamed_keeps (n : Nat) : (readPositionNamed n).Keeps := fun s => by
  unfold readPositionNamed
  split <;> exact .refl s

/-! ### The plant's requests -/

theorem bankStatus_keeps (r : Quad Reading) (t : Nat) : (bankStatusRequest r t).Keeps := fun s =>
  keeps_of_done (State.takeBankStatus_kept s r t)

theorem coolingCapacity_keeps (c : Nat) : (coolingCapacityRequest c).Keeps := fun s =>
  keeps_ite (fun _ => .refl s) fun _ => State.takeCapacity_kept s c

theorem refillNext_keeps : refillNextRequest.Keeps := fun s => by
  unfold refillNextRequest
  refine keeps_ite (fun _ => .refl s) fun _ => keeps_ite (fun _ => .refl s) fun _ => ?_
  split
  · exact .refl s
  · exact State.beginRefill_kept _ _

theorem refillEnd_keeps (b : Nat) : (refillEndRequest b).Keeps := fun s => by
  unfold refillEndRequest
  split
  · exact .refl s
  · exact keeps_ite (fun _ => .of_steady (State.endRefill_steady _ _ _)) fun _ => .refl s

theorem readBanks_keeps : readBanksRequest.Keeps := fun s => .refl s

theorem clearSuspect_keeps (b : Nat) : (clearSuspectRequest b).Keeps := fun s => by
  unfold clearSuspectRequest
  split
  · exact .refl s
  · exact keeps_ite (fun _ => keeps_of_done (Kept.refl s).bank) fun _ => .refl s

theorem readCooling_keeps : readCoolingRequest.Keeps := fun s => .refl s

/-! ### The terminal's requests -/

theorem authorize_keeps (n r k a l : Nat) : (authorizeRequest n r k a l).Keeps := fun s => by
  unfold authorizeRequest
  split
  · refine keeps_ite (fun _ => .refl s) fun _ => keeps_ite (fun _ => .refl s) fun _ => keeps_ite (fun _ => .refl s)
      fun _ => keeps_ite (fun _ => .refl s) fun _ => ?_
    unfold State.arm
    exact keeps_of_doneWith _ (Kept.refl s).sales
  · exact .refl s

theorem cancel_keeps (n r : Nat) : (cancelRequest n r).Keeps := fun s => by
  unfold cancelRequest
  split
  · exact .refl s
  · exact keeps_ite (fun _ => .refl s) fun _ => keeps_ite (fun _ => keeps_of_done (Kept.refl s).sales) fun _ => .refl s

theorem readRecord_keeps (k n : Nat) : (readRecordRequest k n).Keeps := fun s => by
  unfold readRecordRequest
  refine keeps_ite (fun _ => .refl s) fun _ => keeps_ite (fun _ => ?_) fun _ => keeps_ite (fun _ => .refl s) fun _ => ?_
  all_goals split <;> exact .refl s

theorem settle_keeps (n : Nat) : (settleRequest n).Keeps := fun s => by
  unfold settleRequest
  refine keeps_ite (fun _ => .refl s) fun _ => ?_
  split
  · exact .refl s
  · exact (Kept.refl s).sales (f := fun u => { u with records := u.records.filter fun r => r.sequence != n })
      (h := List.filter_sublist)

/-! ### Tables and the tariff -/

theorem setPrice_kept (s : State) (i : Nat) {n v : Nat} (h : readPrice n = some v) : Kept s (s.setPrice i v) :=
  (Kept.refl s).sales (f := fun u => { u with tariff := u.tariff.set i v }) (r := fun k =>
    ⟨k.1, k.2.1, (List.length_set ..).trans k.2.2.1, fun x m => by
      rcases List.mem_or_eq_of_mem_set m with m | rfl
      · exact k.2.2.2 x m
      · exact (inRange_some h).2⟩)

theorem setTariff_keeps (i n : Nat) : (setTariffRequest i n).Keeps := fun s => by
  unfold setTariffRequest
  refine keeps_ite (fun _ => .refl s) fun _ => ?_
  split
  · exact .refl s
  · rename_i h
    exact keeps_ite (fun _ => .refl s) fun _ => setPrice_kept s i h

theorem loadTariff_keeps (i : Nat) (e : List Byte) : (loadTariff i e).Keeps := fun s => by
  unfold loadTariff
  refine keeps_ite (fun _ => .refl s) fun _ => ?_
  split
  · exact .refl s
  · rename_i h
    exact setPrice_kept s i h

theorem storeLoaded_kept (s : State) (c d : SiteConfig) (t : State.loadTarget s = some c)
    (h : c.InRange → d.InRange) : Kept s (s.storeLoaded d) := by
  unfold State.loadTarget at t
  unfold State.storeLoaded
  split at t
  · rename_i m
    cases t
    refine (Kept.refl s).ofSite (fun k => ?_) fun k => ?_
    · simp only [m, if_true]
      exact m ▸ k
    · unfold TablesInRange
      simp only [State.modSite_site, m, if_true]
      exact ⟨h k.1, k.2⟩
  · rename_i m
    have hw : s.site.working = some c := by
      split at t
      · exact t
      · cases t
    refine (Kept.refl s).ofSite (fun k => ?_) fun k => ?_
    · simp only [m]
      unfold SiteControl.sound at k ⊢
      simpa [m, hw] using k
    · unfold TablesInRange
      simp only [State.modSite_site, m]
      exact ⟨k.1, fun x e => by
        simp at e
        exact e ▸ h (k.2.1 c hw), k.2.2⟩
  · cases t
  · cases t

theorem loadTable_keeps (t i : Nat) (e : List Byte) (len : e.length = 32) : (loadTableRequest t i e).Keeps := fun s => by
  unfold loadTableRequest
  refine keeps_ite (fun _ => .refl s) fun _ => keeps_ite (fun _ => loadTariff_keeps i e s) fun _ => ?_
  unfold loadConfigTable
  split
  · exact .refl s
  · rename_i c ht
    split
    · exact .refl s
    · rename_i d hl
      exact storeLoaded_kept s c d ht fun k => SiteConfig.load_inRange k len hl

/-! ### The site's modes -/

/-- An event that changes Site Control alone. -/
theorem Kept.ofSiteOnly {s t : State} (h : t = s.modSite fun _ => t.site) (a : s.site.sound → t.site.sound)
    (b : TablesInRange s → TablesInRange t) : Kept s t := by
  refine ⟨?_, ?_, ?_, ?_, ?_, ?_, a, b, ?_, ?_, fun p => ?_, fun p => ?_⟩
  all_goals rw [h]
  all_goals first | rfl | exact id

theorem TablesInRange.plain {t : State} (c : t.site.config.InRange) (w : t.site.working = none)
    (r : t.sales.tariff.length = 16 ∧ ∀ price ∈ t.sales.tariff, price ≤ 999999) : TablesInRange t :=
  ⟨c, fun _ e => absurd (w.symm.trans e) (Option.some_ne_none _).symm, r⟩

theorem commission_keeps : commissionRequest.Keeps := fun s => by
  unfold commissionRequest
  refine keeps_ite (fun _ => .refl s) fun m => ?_
  split
  · exact .refl s
  · refine .ofSiteOnly rfl (fun k => ?_) id
    have hm : s.site.mode = .unconfigured := not_not.mp m
    unfold SiteControl.sound at k
    rw [hm] at k
    obtain ⟨k1, k2, _⟩ := k
    refine ⟨⟨fun h => absurd (k1.mp h) nofun, nofun⟩, ⟨fun h => absurd (k2.mp h) nofun, nofun⟩, fun _ => nofun, fun _ => rfl⟩

theorem enterService_keeps : enterServiceRequest.Keeps := fun s => by
  unfold enterServiceRequest
  refine keeps_ite (fun m => ?_) fun _ => .refl s
  refine .ofSiteOnly rfl (fun k => ?_) fun k => ⟨k.1, fun c e => by cases e; exact k.1, k.2.2⟩
  unfold SiteControl.sound at k
  rw [m] at k
  obtain ⟨k1, _, k3⟩ := k
  exact ⟨⟨fun h => absurd (k1.mp h) nofun, nofun⟩, ⟨fun _ => rfl, fun _ => rfl⟩, fun _ => nofun, fun _ => k3.mpr nofun⟩

theorem leaveService_keeps : leaveServiceRequest.Keeps := fun s => by
  unfold leaveServiceRequest
  split
  · rename_i c m w
    split
    · exact .refl s
    · refine .ofSiteOnly rfl (fun k => ?_) fun k => .plain (k.2.1 c w) rfl k.2.2
      unfold SiteControl.sound at k
      rw [m] at k
      obtain ⟨k1, _, k3⟩ := k
      exact ⟨⟨fun h => absurd (k1.mp h) nofun, nofun⟩, ⟨nofun, nofun⟩, fun _ => nofun, fun _ => k3.mpr nofun⟩
  · exact .refl s

theorem resumeSite_keeps : resumeSiteRequest.Keeps := fun s => by
  unfold resumeSiteRequest
  refine keeps_ite (fun m => ?_) fun _ => .refl s
  refine .ofSiteOnly rfl (fun k => ?_) id
  unfold SiteControl.sound at k
  rw [m] at k
  obtain ⟨_, k2, k3⟩ := k
  exact ⟨⟨nofun, nofun⟩, ⟨fun h => absurd (k2.mp h) nofun, nofun⟩, fun _ => nofun, fun _ => k3.mpr nofun⟩

theorem setBand_keeps (b : Nat) : (setBandRequest b).Keeps := fun s => by
  unfold setBandRequest
  split
  · exact .refl s
  · exact keeps_ite (fun _ => .refl s) fun _ => .ofSiteOnly rfl id id

theorem overdueTest_kept (s : State) : Kept s s.overdueTest := .of_steady (State.overdueTest_steady s)

theorem setSiteTime_keeps (t : Nat) : (setSiteTimeRequest t).Keeps := fun s =>
  keeps_of_done (Kept.trans (t := s.modSite fun x => { x with siteTime := t }) (.ofSiteOnly rfl id id)
    (overdueTest_kept _))

theorem readSite_keeps (k t i c : Nat) : (readSiteRequest k t i c).Keeps := fun s => by
  have e : ∀ c, Kept s (readEntry c t i s).1 := fun c => by
    unfold readEntry
    split <;> exact .refl s
  unfold readSiteRequest
  refine keeps_ite (fun _ => .refl s) fun _ => keeps_ite (fun _ => .refl s) fun _ => keeps_ite (fun _ => .refl s)
    fun _ => keeps_ite (fun _ => e _) fun _ => ?_
  split
  · exact e _
  · exact .refl s

/-! ### Emergency stop and site reset -/

theorem cleared_kept (s : State) : Kept s (s.modCbu CoolingUnit.cleared) :=
  (Kept.refl s).cbu (f := CoolingUnit.cleared) fun _ => Nat.zero_le _

theorem emergencyStop_kept (s : State) (c : HaltCause) (m : s.site.mode ≠ .unconfigured) :
    Kept s (s.emergencyStop c) := by
  unfold State.emergencyStop
  have halt : Kept s (s.haltSite c) := by
    unfold State.haltSite
    refine Kept.posted (.ofSiteOnly rfl (fun k => ?_) fun k => .plain k.1 rfl k.2.2)
    exact ⟨⟨fun _ => rfl, fun _ => rfl⟩, ⟨nofun, nofun⟩, fun _ => nofun, fun _ => k.2.2.mpr m⟩
  have cool : ∀ t : State, Kept t t.stopCooling := fun t => by
    unfold State.stopCooling
    exact (cleared_kept t).trans (.ite (fun _ => (Kept.refl _).posted) fun _ => .refl _)
  have clear : ∀ t : State, Kept t t.disarmAll := fun t => by
    unfold State.disarmAll
    exact (Kept.refl t).sales
  exact (((halt.trans (State.stopBanks_kept _)).trans (cool _)).trans (clear _)).trans
    (State.inOrder_kept _ (fun p s => State.endWith_kept s p _) _)

theorem emergencyStop_keeps (q : PortId) : (emergencyStopRequest q).Keeps := fun s => by
  unfold emergencyStopRequest
  split
  · exact .refl s
  · exact .refl s
  · rename_i m; exact keeps_of_done (emergencyStop_kept s _ (m ▸ nofun))
  · rename_i m; exact keeps_of_done (emergencyStop_kept s _ (m ▸ nofun))

theorem endSteps_kept (s : State) (r : EndReason) : Kept s (s.endSteps noFurtherEnd p r) :=
  .of_steady (State.endSteps_steady (fun _ _ s => .refl s) s p r)

/-- The Link Interface's part of a reset empties the queues and leaves each exchange in hand (R15). -/
theorem resetPorts_kept (s : State) : Kept s s.resetPorts := by
  have e : ∀ q, s.resetPorts.port q = Port.atReset q (s.port q) := fun q => Ports.get_map _ _ _
  refine ⟨id, id, id, id, id, id, id, id, rfl, fun _ q => ?_, fun q h => ?_, fun q h => ?_⟩
  · rw [e]
    unfold Port.atReset
    split <;> exact ⟨fun n m => absurd m List.not_mem_nil, List.nodup_nil⟩
  · rw [e]
    unfold Port.atReset
    split
    · exact h
    · exact ⟨h.1, fun l => ⟨(h.2.1 l).1, rfl⟩, h.2.2⟩
  · rw [e]
    unfold Port.atReset
    split <;> exact h

theorem siteReset_kept (s : State) (m : s.site.mode ≠ .unconfigured) : Kept s s.siteReset := by
  unfold State.siteReset
  have site : Kept s s.resetSite := .ofSiteOnly rfl (fun k =>
    ⟨⟨nofun, nofun⟩, ⟨nofun, nofun⟩, fun _ => nofun, fun _ => k.2.2.mpr m⟩) fun k => .plain k.1 rfl k.2.2
  have sessions : ∀ t : State, Kept t t.resetSessions := fun t => by
    unfold State.resetSessions
    refine (State.inOrder_kept _ (fun p s => ?_) t).trans (State.inOrder_kept _ (fun p s => ?_) _)
    · exact .ite (fun _ => endSteps_kept p s _) fun _ => .refl s
    · exact .ite (fun _ => (Kept.refl s).session) fun _ => .refl s
  have sales : ∀ (t : State) (l : List PosId), Kept t (t.resetSales l) := fun t l => by
    unfold State.resetSales
    have clear : Kept t t.disarmAll := by
      unfold State.disarmAll
      exact (Kept.refl t).sales
    have all := State.foldl_kept State.commit (fun s p => .of_calm (State.commit_calm s p)) l t.disarmAll
    have closed : ∀ u : State, Kept u (u.modSales SalesUnit.closed) := fun u => (Kept.refl u).sales
    exact ((clear.trans all).trans (closed _)).trans (.ite (fun _ => .refl _) fun _ => (Kept.refl _).posted)
  have ports : ∀ t : State, Kept t t.resetPorts := resetPorts_kept
  have cooling : ∀ t : State, Kept t t.resetCooling := fun t => (cleared_kept t).posted
  exact ((((site.trans (ports _)).trans (State.resetBanks_kept _)).trans (cooling _)).trans (sessions _)).trans
    (sales _ _)

theorem siteReset_keeps : siteResetRequest.Keeps := fun s =>
  keeps_ite (fun _ => .refl s) fun m => keeps_of_done (siteReset_kept s m)

/-! ### The request of a frame -/

theorem notARequest_keeps : notARequest.Keeps := fun s => .refl s

/-- Whatever frame the screening lets pass spells a request that keeps the invariants. -/
theorem handlerOf_keeps (q : PortId) (kind : Nat) (body : List Byte) (h : screen q kind body.length = none) :
    (handlerOf q kind body).Keeps := by
  unfold handlerOf
  split
  · unfold dispenserHandler
    split
    · exact readNotices_keeps _
    · exact nozzle_keeps _ _
    · exact start_keeps _
    · exact stop_keeps _
    · exact pause_keeps _
    · exact continue_keeps _
    · exact progress_keeps _ _ _ _
    · exact finalMeter_keeps _ _
    · exact vehicleFrame_keeps _ _ _ _ _ _ _
    · exact readPositionOwn_keeps _
    · exact notARequest_keeps
  · unfold plantHandler
    split
    · exact readNotices_keeps _
    · exact bankStatus_keeps _ _
    · exact coolingCapacity_keeps _
    · exact refillNext_keeps
    · exact refillEnd_keeps _
    · exact emergencyStop_keeps _
    · exact readBanks_keeps
    · exact notARequest_keeps
  · unfold terminalHandler
    split
    · exact readNotices_keeps _
    · exact authorize_keeps _ _ _ _ _
    · exact cancel_keeps _ _
    · exact readRecord_keeps _ _
    · exact settle_keeps _
    · exact notARequest_keeps
  · unfold supervisorHandler
    split
    · exact readNotices_keeps _
    · exact readPositionNamed_keeps _
    · exact emergencyStop_keeps _
    · exact readBanks_keeps
    · exact readRecord_keeps _ _
    · refine loadTable_keeps _ _ _ ?_
      have e : body.length = 34 := by
        by_contra n
        simp [screen, bodyLength, takenOn, readPositionKind, n] at h
      rw [List.length_drop, e]
    · exact commission_keeps
    · exact enterService_keeps
    · exact leaveService_keeps
    · exact setBand_keeps _
    · exact setTariff_keeps _ _
    · exact setSiteTime_keeps _
    · exact siteReset_keeps
    · exact resumeSite_keeps
    · exact clearSuspect_keeps _
    · exact readSite_keeps _ _ _ _
    · exact readCooling_keeps
    · exact notARequest_keeps

end Sys2Proof.Machine
end

