-- ==== Sys2Proof/Laws/Steps.lean ====
section
/-! SUPPORT. What every command does: it answers a next state, leaves the commands waiting as they are, and keeps the
invariants. -/

namespace Sys2Proof.Machine

set_option Elab.async false

/-- What every command keeps: `Kept`, but that a LISTENING port may take bytes into its collection. -/
structure Upheld (s t : State) : Prop where
  within : WithinCapacity s → WithinCapacity t
  claims : OneClaim s → OneClaim t
  fair : FairSales s → FairSales t
  counted : Counted s → Counted t
  active : ActiveWithin s → ActiveWithin t
  monitors : (∀ p, (s.monitor p).sound) → ∀ p, (t.monitor p).sound
  site : s.site.sound → t.site.sound
  tables : TablesInRange s → TablesInRange t
  pending : t.pending = s.pending
  queues : Queues s → Queues t
  rest : ∀ p, (s.port p).rests → (t.port p).rests
  outbox : s.outbox = [] → t.outbox = []

namespace Upheld

theorem refl (s : State) : Upheld s s := ⟨id, id, id, id, id, id, id, id, rfl, id, fun _ => id, id⟩

theorem trans {s t u : State} (h : Upheld s t) (k : Upheld t u) : Upheld s u :=
  ⟨k.within ∘ h.within, k.claims ∘ h.claims, k.fair ∘ h.fair, k.counted ∘ h.counted, k.active ∘ h.active,
    k.monitors ∘ h.monitors, k.site ∘ h.site, k.tables ∘ h.tables, k.pending.trans h.pending, k.queues ∘ h.queues,
    fun p => k.rest p ∘ h.rest p, k.outbox ∘ h.outbox⟩

theorem of_kept {s t : State} (k : Kept s t) (o : s.outbox = [] → t.outbox = []) : Upheld s t :=
  ⟨k.within, k.claims, k.fair, k.counted, k.active, k.monitors, k.site, k.tables, k.pending, k.queues, k.rest, o⟩

theorem ite {c : Prop} [Decidable c] {s t u : State} (h : c → Upheld s t) (k : ¬c → Upheld s u) :
    Upheld s (if c then t else u) := by
  split
  · exact h ‹_›
  · exact k ‹_›

/-- A change of one port's record. -/
theorem ofPort (s : State) (p : PortId) (f : Port → Port) (q : (f (s.port p)).queue = (s.port p).queue)
    (r : (s.port p).rests → (f (s.port p)).rests) : Upheld s (s.modPort p f) := by
  refine ⟨id, id, id, id, id, id, id, id, rfl, fun h x => ?_, fun x h => ?_, id⟩
  · rw [State.modPort_port]
    split
    · rename_i hx
      rw [q, hx]
      exact h p
    · exact h x
  · rw [State.modPort_port]
    split
    · rename_i hx
      exact r (hx ▸ h)
    · exact h

end Upheld

/-- A port that begins to send an answer rests, when no frame is in collection. -/
theorem Port.send_rests {x : Port} (h : x.collection = []) (a : List Byte) (r : Option LastAnswer) :
    (x.send a r).rests := ⟨nofun, nofun, fun _ => ⟨rfl, h⟩⟩

namespace State

/-! ### Requests -/

/-- A request whose frame the screening lets pass keeps the invariants. -/
def Passes (f : Frame) (h : Handler) : Prop := screen f.port f.kind.toNat f.body.length = none → h.Keeps

theorem serve_upheld (s : State) (f : Frame) {h : Handler} (k : h.Keeps) (c : (s.port f.port).collection = []) :
    Upheld s (s.serve f h) := by
  have m := (k (s.modPort f.port fun x => { x with exchange := .taking })).flush
  have same : ∀ x, ((s.modPort f.port fun x => { x with exchange := .taking }).port x).queue = (s.port x).queue
      ∧ ((s.modPort f.port fun x => { x with exchange := .taking }).port x).collection = (s.port x).collection := by
    intro x
    rw [modPort_port]
    split
    · rename_i e; rw [e]; exact ⟨rfl, rfl⟩
    · exact ⟨rfl, rfl⟩
  have q : Queues s → Queues ((h (s.modPort f.port fun x => { x with exchange := .taking })).1.flush) := fun z =>
    m.queues fun y => by rw [(same y).1]; exact z y
  have others : ∀ x, x ≠ f.port → (s.port x).rests →
      ((h (s.modPort f.port fun x => { x with exchange := .taking })).1.flush.port x).rests := fun x e z =>
    m.rest x (by rw [modPort_port, if_neg e]; exact z)
  have empty := m.collection f.port (by rw [(same _).2]; exact c)
  have o : (h (s.modPort f.port fun x => { x with exchange := .taking })).1.flush.outbox = [] := rfl
  unfold serve answerOwner
  dsimp only
  generalize (h (s.modPort f.port fun x => { x with exchange := .taking })).1.flush = u at *
  refine ⟨m.within, m.claims, m.fair, m.counted, m.active, m.monitors, m.site, m.tables, m.pending, fun z x => ?_,
    fun x z => ?_, ?_⟩
  · rw [modPort_port]
    split
    · rename_i e
      rw [e]
      exact q z f.port
    · exact q z x
  · rw [modPort_port]
    split
    · exact Port.send_rests empty _ _
    · rename_i e
      exact others x e z
  · intro _
    exact o

theorem takeFrame_upheld (s : State) (f : Frame) {h : Handler} (k : Passes f h) (c : (s.port f.port).collection = []) :
    Upheld s (s.takeFrame f h) := by
  unfold takeFrame
  split
  · exact .ofPort _ _ _ rfl fun _ => Port.send_rests c _ _
  · rename_i e
    split
    · exact .ite (fun _ => .ofPort _ _ _ rfl fun _ => Port.send_rests c _ _) fun _ => serve_upheld s f (k e) c
    · exact serve_upheld s f (k e) c

/-- A LISTENING port may have any bytes in collection. -/
theorem setCollection_upheld (s : State) (q : PortId) (l : List Byte) (h : l = [] ∨ (s.port q).exchange = .listening) :
    Upheld s (s.setCollection q l) :=
  .ofPort _ _ _ rfl fun k => ⟨k.1, k.2.1, fun a => h.elim (fun e => ⟨(k.2.2 a).1, e⟩) fun e => nomatch e.symm.trans a⟩

theorem receiveByte_upheld (s : State) (q : PortId) (b : Byte) : Upheld s (s.receiveByte q b) := by
  unfold receiveByte
  split
  · exact .refl s
  · exact .refl s
  · rename_i l
    split
    · exact setCollection_upheld s q _ (.inr l)
    · exact setCollection_upheld s q _ (.inl rfl)
    · exact (setCollection_upheld s q [] (.inl rfl)).trans (takeFrame_upheld _ _ (fun e => handlerOf_keeps _ _ _ e) (by
        unfold setCollection
        rw [modPort_port, if_pos rfl]))

theorem receiveBytes_upheld (s : State) (q : PortId) (l : List Byte) : Upheld s (s.receiveBytes q l) := by
  unfold receiveBytes
  induction l generalizing s with
  | nil => exact .refl s
  | cons b l ih => exact (receiveByte_upheld s q b).trans (ih _)

theorem answerSent_upheld (s : State) (q : PortId) : Upheld s (s.modPort q Port.sent) := by
  refine .ofPort _ _ _ ?_ fun r => ?_
  · unfold Port.sent
    split <;> rfl
  · unfold Port.sent
    split
    · exact ⟨nofun, fun _ => ⟨rfl, rfl⟩, nofun⟩
    · exact r
    · exact r

theorem request_upheld (s : State) (f : Frame) {h : Handler} (k : Passes f h) : Upheld s (s.request f h) := by
  unfold request
  split
  · exact .refl s
  · exact .refl s
  · exact .ite (fun c => takeFrame_upheld _ _ k c.1) fun _ => receiveBytes_upheld _ _ _

/-! ### Time -/

theorem tick_kept (s : State) : Kept s s.tick where
  within := id
  claims k p := k p
  fair k := ⟨fun p => by
    have := k.1 p
    show (s.sessions.map Session.tick |>.get p).priceAgrees
    rw [Quad.get_map]
    exact this, k.2⟩
  counted := id
  active k p := by
    show (s.sessions.map Session.tick |>.get p).activeTime ≤ _
    rw [Quad.get_map]
    have : (s.sessions.get p).activeTime ≤ Config.maxActive := k p
    unfold Session.tick
    dsimp only
    split <;> omega
  monitors k p := by
    show (s.monitors.map Monitor.tick |>.get p).sound
    rw [Quad.get_map]
    obtain ⟨a, b, c⟩ := k p
    refine ⟨a, ?_, c⟩
    show ((s.monitor p).ageTimer.map (· - 1)).isSome = true ↔ _
    rw [Option.isSome_map]
    exact b
  site := id
  tables := id
  pending := rfl
  queues := id
  rest _ := id
  collection _ := id

/-! ### Expiries -/

variable (s : State) (p : PosId)

theorem tickExpires_kept : Kept s s.tickExpires := by
  unfold tickExpires secondPasses
  have a : Kept s { s with tenths := s.tenths - 10 } := 
    ⟨id, id, id, id, id, id, id, id, rfl, id, fun _ => id, fun _ => id⟩
  have b : ∀ (t : State) (n : Nat), Kept t (t.modSite fun x => { x with siteTime := n }) := fun t n => .ofSiteOnly rfl id id
  exact (a.trans (b _ _)).trans (overdueTest_kept _)

theorem freshnessExpires_kept : Kept s s.freshnessExpires := .ite (fun _ => freshnessRunsOut_kept s) fun _ => .refl s

theorem yieldExpires_kept : Kept s s.yieldExpires := .ite (fun _ => yieldRunsOut_kept s) fun _ => .refl s

theorem proofExpires_kept (b : BankId) : Kept s (s.proofExpires b) := by
  unfold proofExpires
  split
  · exact proofRunsOut_kept _ _ _
  · exact .refl s

theorem progressExpires_kept : Kept s (s.progressExpires p) := by
  unfold progressExpires
  exact .ite (fun _ => (Kept.refl s).monitor.trans (.ite (fun _ => endWith_kept _ _ _) fun _ => .refl _)) fun _ => .refl s

theorem ageExpires_kept : Kept s (s.ageExpires p) := .ite (fun _ => vehicleLost_kept _ _ _) fun _ => .refl s

theorem connectExpires_kept : Kept s (s.connectExpires p) :=
  .ite (fun _ => .of_steady (endConnect_steady _ _)) fun _ => .refl s

theorem leakCheckExpires_kept : Kept s (s.leakCheckExpires p) := .ite (fun _ => endLeakCheck_kept _ _) fun _ => .refl s

theorem settleExpires_kept : Kept s (s.settleExpires p) :=
  .ite (fun _ => .of_steady (connected_steady _ _)) fun _ => .refl s

theorem bankWaitExpires_kept : Kept s (s.bankWaitExpires p) := .ite (fun _ => endWith_kept _ _ _) fun _ => .refl s

theorem segmentExpires_kept : Kept s (s.segmentExpires p) := .ite (fun _ => boundary_kept _ _) fun _ => .refl s

theorem warmExpires_kept : Kept s (s.warmExpires p) :=
  .ite (fun _ => (Kept.refl s).session.trans (setFactor_kept _ _ _)) fun _ => .refl s

theorem resumeExpires_kept : Kept s (s.resumeExpires p) :=
  .ite (fun _ => .of_steady (resume_steady endNow_steady _ _)) fun _ => .refl s

theorem keepExpires_kept : Kept s (s.keepExpires p) := .ite (fun _ => keepRelease_kept _ _) fun _ => .refl s

theorem holdLimitExpires_kept : Kept s (s.holdLimitExpires p) := by
  unfold holdLimitExpires
  exact .ite (fun _ => (Kept.refl s).session.trans (endWith_kept _ _ _)) fun _ => .refl s

theorem authorizationExpires_kept : Kept s (s.authorizationExpires p) := by
  unfold authorizationExpires
  split
  · unfold lifetimeRunsOut disarm
    exact (Kept.refl s).sales.posted
  · exact .refl s

theorem closingExpires_kept : Kept s s.closingExpires := by
  unfold closingExpires
  split
  · exact (completeClosing_kept _ _).trans (serveCloseQueue_kept _)
  · exact .refl s

end State

open State

/-! ### Commands -/

theorem Kept.of_eq {s t u : State} (k : Kept s t) (h : t = u) : Kept s u := h ▸ k

theorem reset_port (p : PortId) : State.reset.port p = Port.powerOn := by
  cases p with
  | dispenser n => exact Quad.get_fill _ n
  | plant => rfl
  | terminal => rfl
  | supervisor => rfl

theorem reset_session (p : PosId) : State.reset.session p = Session.idle := Quad.get_fill _ p

theorem reset_monitor (p : PosId) : State.reset.monitor p = Monitor.powerOn := Quad.get_fill _ p

theorem getD_replicate_none {α : Type} (n i : Nat) (x : α) : (List.replicate n (none : Option α)).getD i none ≠ some x := by
  rw [List.getD_eq_getElem?_getD, List.getElem?_replicate]
  split <;> exact nofun

/-- The power-on values hold every invariant, so anything that takes on those values keeps them. -/
theorem reset_kept (s : State) : Kept s s.poweredOn where
  within _ := Nat.le_refl _
  claims _ p := by
    show State.standing State.reset p ≤ 1
    revert p
    decide
  fair _ := by
    refine ⟨fun p price h => ?_, fun r m => absurd m List.not_mem_nil⟩
    have h : (State.reset.session p).unitPrice = some price := h
    rw [reset_session] at h
    exact nomatch h
  counted _ _ := ⟨.nil, fun r m => absurd m List.not_mem_nil⟩
  active _ p := by
    show (State.reset.session p).activeTime ≤ _
    rw [reset_session]
    exact Nat.zero_le _
  monitors _ p := by
    show (State.reset.monitor p).sound
    rw [reset_monitor]
    exact ⟨⟨nofun, nofun⟩, ⟨nofun, nofun⟩, rfl, rfl⟩
  site _ := ⟨⟨nofun, nofun⟩, ⟨nofun, nofun⟩, nofun, fun h => absurd rfl h⟩
  tables _ := by
    refine TablesInRange.plain ?_ rfl ⟨rfl, fun x m => ?_⟩
    · refine ⟨⟨rfl, rfl⟩, fun i row h => ?_, fun i f h => ?_, fun b e h => ?_, ⟨nofun, nofun⟩, nofun⟩
      · have h : (List.replicate 25 (none : Option (List Nat))).getD i none = some row := h
        exact absurd h (getD_replicate_none _ _ _)
      · have h : (List.replicate 48 (none : Option Profile)).getD i none = some f := h
        exact absurd h (getD_replicate_none _ _ _)
      · have h : (Quad.fill (none : Option BankEntry)).get b = some e := h
        simp at h
    · have m : x ∈ List.replicate 16 0 := m
      rw [List.eq_of_mem_replicate m]
      exact Nat.zero_le _
  pending := rfl
  queues _ p := by
    show (∀ n ∈ (State.reset.port p).queue, n.port = p) ∧ ((State.reset.port p).queue.map Notice.key).Nodup
    rw [reset_port]
    exact ⟨nofun, .nil⟩
  rest p _ := by
    show (State.reset.port p).rests
    rw [reset_port]
    exact ⟨nofun, fun _ => ⟨rfl, rfl⟩, nofun⟩
  collection p _ := by
    show (State.reset.port p).collection = []
    rw [reset_port]
    rfl

/-! ### Every command -/

/-- A request command is its frame with its request. -/
theorem exec_request {i : Instr} {f : Frame} {h : Handler} (e : i.request? = some (f, h)) (s : State) :
    exec i s = .next (s.request f h) := by
  cases i <;> cases e <;> rfl

theorem readPositionRequest_keeps (q : PortId) (x : Option Byte) : (readPositionRequest q x).Keeps := by
  cases q <;> cases x <;>
    first | exact readPositionOwn_keeps _ | exact readPositionNamed_keeps _ | exact notARequest_keeps

/-- Every request command keeps the invariants, when the screening lets its frame pass. -/
theorem request_passes {i : Instr} {f : Frame} {h : Handler} (e : i.request? = some (f, h)) : Passes f h := by
  intro c
  cases i with
  | readNotices q t => cases e; exact readNotices_keeps _
  | nozzle p t x => cases e; exact nozzle_keeps _ _
  | start p t => cases e; exact start_keeps _
  | stop p t => cases e; exact stop_keeps _
  | pause p t => cases e; exact pause_keeps _
  | continueFill p t => cases e; exact continue_keeps _
  | progress p t x y m => cases e; exact progress_keeps _ _ _ _
  | finalMeter p t m => cases e; exact finalMeter_keeps _ _
  | vehicleFrame p t k c v x y m => cases e; exact vehicleFrame_keeps _ _ _ _ _ _ _
  | readPosition q t x => cases e; exact readPositionRequest_keeps _ _
  | bankStatus t b a => cases e; exact bankStatus_keeps _ _
  | coolingCapacity t c => cases e; exact coolingCapacity_keeps _
  | refillNext t => cases e; exact refillNext_keeps
  | refillEnd t b => cases e; exact refillEnd_keeps _
  | emergencyStop q t => cases e; exact emergencyStop_keeps _
  | readBanks q t => cases e; exact readBanks_keeps
  | authorize t p r k a l => cases e; exact authorize_keeps _ _ _ _ _
  | cancelAuthorization t p r => cases e; exact cancel_keeps _ _
  | readRecord q t k n => cases e; exact readRecord_keeps _ _
  | settle t n => cases e; exact settle_keeps _
  | loadTable t k i l =>
    cases e
    refine loadTable_keeps _ _ _ ?_
    have c : screen .supervisor 0x40 (l.length + 1 + 1) = none := c
    by_contra n
    have m : l.length + 1 + 1 ≠ 34 := by omega
    simp [screen, bodyLength, readPositionKind, m] at c
  | commission t => cases e; exact commission_keeps
  | enterService t => cases e; exact enterService_keeps
  | leaveService t => cases e; exact leaveService_keeps
  | setBand t b => cases e; exact setBand_keeps _
  | setTariff t i p => cases e; exact setTariff_keeps _ _
  | setSiteTime t n => cases e; exact setSiteTime_keeps _
  | siteReset t => cases e; exact siteReset_keeps
  | resumeSite t => cases e; exact resumeSite_keeps
  | clearSuspect t b => cases e; exact clearSuspect_keeps _
  | readSite t k i j c => cases e; exact readSite_keeps _ _ _ _
  | readCooling t => cases e; exact readCooling_keeps
  | _ => exact nomatch e

/-- An event of the part's own, whose notices are taken into the queues. -/
theorem Upheld.event {s t : State} (k : Kept s t) : Upheld s t.flush := .of_kept k.flush fun _ => rfl

/-- A request command answers a next state, and keeps the invariants. -/
theorem upheld_of_request {i : Instr} {f : Frame} {h : Handler} (e : i.request? = some (f, h)) (s : State) :
    ∃ t, exec i s = .next t ∧ Upheld s t := ⟨_, exec_request e s, request_upheld _ _ (request_passes e)⟩

/-- Every command answers a next state, and keeps the invariants. -/
theorem exec_upheld (i : Instr) (s : State) : ∃ t, exec i s = .next t ∧ Upheld s t := by
  cases i with
  | powerOn => exact ⟨_, rfl, .of_kept (reset_kept s) fun _ => rfl⟩
  | frameDiscarded q l => exact ⟨_, rfl, receiveBytes_upheld _ _ _⟩
  | byteGapExceeded q l =>
    exact ⟨_, rfl, (receiveBytes_upheld _ _ _).trans (setCollection_upheld _ _ _ (.inl rfl))⟩
  | linkScreenAnswer q t k b => exact ⟨_, rfl, request_upheld _ _ fun e => handlerOf_keeps _ _ _ e⟩
  | repeatedRequest q t k b => exact ⟨_, rfl, request_upheld _ _ fun e => handlerOf_keeps _ _ _ e⟩
  | answerSent q => exact ⟨_, rfl, answerSent_upheld _ _⟩
  | siteTimeTick => exact ⟨_, rfl, .event (tickExpires_kept s)⟩
  | freshnessTimerExpiry => exact ⟨_, rfl, .event (freshnessExpires_kept s)⟩
  | yieldTimerExpiry => exact ⟨_, rfl, .event (yieldExpires_kept s)⟩
  | proofTimerExpiry b => exact ⟨_, rfl, .event (proofExpires_kept s b)⟩
  | coolingWaitExpiry p => exact ⟨_, rfl, .event (coolingWaitRunsOut_kept s p)⟩
  | progressTimerExpiry p => exact ⟨_, rfl, .event (progressExpires_kept s p)⟩
  | ageTimerExpiry p => exact ⟨_, rfl, .event (ageExpires_kept s p)⟩
  | connectPhaseEnd p => exact ⟨_, rfl, .event (connectExpires_kept s p)⟩
  | leakCheckEnd p => exact ⟨_, rfl, .event (leakCheckExpires_kept s p)⟩
  | settlePhaseEnd p => exact ⟨_, rfl, .event (settleExpires_kept s p)⟩
  | bankWaitExpiry p => exact ⟨_, rfl, .event (bankWaitExpires_kept s p)⟩
  | segmentBoundary p => exact ⟨_, rfl, .event (segmentExpires_kept s p)⟩
  | warmTimerExpiry p => exact ⟨_, rfl, .event (warmExpires_kept s p)⟩
  | resumeTimerExpiry p => exact ⟨_, rfl, .event (resumeExpires_kept s p)⟩
  | keepTimerExpiry p => exact ⟨_, rfl, .event (keepExpires_kept s p)⟩
  | holdLimitExpiry p => exact ⟨_, rfl, .event (holdLimitExpires_kept s p)⟩
  | authorizationExpiry p => exact ⟨_, rfl, .event (authorizationExpires_kept s p)⟩
  | closingTimeout => exact ⟨_, rfl, .event (closingExpires_kept s)⟩
  | _ => exact upheld_of_request rfl s

/-- What a command's answer keeps. -/
theorem upheld_of_exec {i : Instr} {s t : State} (h : exec i s = .next t) : Upheld s t := by
  obtain ⟨u, e, k⟩ := exec_upheld i s
  rw [h] at e
  cases e
  exact k

/-! ### Every step -/

/-- A step takes a command at a state that differs from the one before it in the commands waiting and in the counter of
free choices only, or lets 0.1 s pass. -/
theorem step_cases (s : State) :
    (∃ i r c, step s = exec i { s with pending := r, choices := c }) ∨ s.pending = [] ∧ step s = .next s.tick := by
  unfold step
  split
  · exact .inl ⟨_, _, s.choices, rfl⟩
  · rename_i e
    unfold idle
    split
    · exact .inr ⟨e, rfl⟩
    · exact .inl ⟨_, s.pending, s.choices, rfl⟩
    · exact .inl ⟨_, s.pending, _, rfl⟩

/-- Every step answers a next state, and keeps the invariants. -/
theorem step_upheld (s : State) : ∃ t, step s = .next t ∧ ∃ r c, Upheld { s with pending := r, choices := c } t := by
  rcases step_cases s with ⟨i, r, c, e⟩ | ⟨_, e⟩
  · obtain ⟨t, h, k⟩ := exec_upheld i { s with pending := r, choices := c }
    exact ⟨t, e.trans h, r, c, k⟩
  · exact ⟨_, e, s.pending, s.choices, .of_kept (tick_kept s) id⟩

/-- What a step's answer keeps. -/
theorem upheld_of_step {s t : State} (h : step s = .next t) :
    ∃ r c, Upheld { s with pending := r, choices := c } t := by
  obtain ⟨u, e, k⟩ := step_upheld s
  rw [h] at e
  cases e
  exact k

end Sys2Proof.Machine
end

