-- ==== Sys2Proof/Laws/LinkedSteps.lean ====
section
/-! SUPPORT. That every command keeps the queues, lists and registers in agreement with the session records. -/

namespace Sys2Proof.Machine

set_option Elab.async false

namespace State

variable {A : Aspects} {s : State} {p : PosId}

/-! ### What a stop and a reset do to the banks -/

theorem clearClaim_linked (h : Linked A.unbanked none s) (b : BankId) : Linked A.unbanked none (s.clearClaim b) := by
  unfold clearClaim
  cases e : (s.bank b).holder with
  | position q =>
    have k := vacated_linked h ((h.held b q).mp e)
    have : ((s.snapshotRelease b q).forgetBank q) = s.modSession q (s.released b) := by
      unfold snapshotRelease forgetBank modSession released
      simp
    show Linked A.unbanked none (((s.snapshotRelease b q).forgetBank q).modBank b fun x => { x with holder := .free })
    rw [this]
    exact k
  | free => exact h
  | refill => exact h
  | proof => exact h

/-- Every wait queue is emptied, and every session told nothing awaits nothing. -/
def emptied (s : State) : State :=
  inOrder (fun p s => s.forgetAwaited p) (inOrder (fun b s => s.modBank b fun x => { x with queue := [] }) s)

theorem inOrder_session (f : Session → Session) (s : State) :
    ∀ p, (inOrder (fun p s => s.modSession p f) s).session p = f (s.session p)
  | 0 => by
    unfold inOrder
    rw [modSession_session_ne _ _ (by decide), modSession_session_ne _ _ (by decide), modSession_session_ne _ _ (by decide),
      modSession_session_same]
  | 1 => by
    unfold inOrder
    rw [modSession_session_ne _ _ (by decide), modSession_session_ne _ _ (by decide), modSession_session_same,
      modSession_session_ne _ _ (by decide)]
  | 2 => by
    unfold inOrder
    rw [modSession_session_ne _ _ (by decide), modSession_session_same, modSession_session_ne _ _ (by decide),
      modSession_session_ne _ _ (by decide)]
  | 3 => by
    unfold inOrder
    rw [modSession_session_same, modSession_session_ne _ _ (by decide), modSession_session_ne _ _ (by decide),
      modSession_session_ne _ _ (by decide)]

theorem inOrder_bank (f : Bank → Bank) (s : State) :
    ∀ b, (inOrder (fun b s => s.modBank b f) s).bank b = f (s.bank b)
  | 0 => by
    unfold inOrder
    rw [modBank_bank_ne _ _ (by decide), modBank_bank_ne _ _ (by decide), modBank_bank_ne _ _ (by decide),
      modBank_bank_same]
  | 1 => by
    unfold inOrder
    rw [modBank_bank_ne _ _ (by decide), modBank_bank_ne _ _ (by decide), modBank_bank_same,
      modBank_bank_ne _ _ (by decide)]
  | 2 => by
    unfold inOrder
    rw [modBank_bank_ne _ _ (by decide), modBank_bank_same, modBank_bank_ne _ _ (by decide),
      modBank_bank_ne _ _ (by decide)]
  | 3 => by
    unfold inOrder
    rw [modBank_bank_same, modBank_bank_ne _ _ (by decide), modBank_bank_ne _ _ (by decide),
      modBank_bank_ne _ _ (by decide)]

theorem inOrder_bank_keeps {α : Type} (g : State → α) (f : Bank → Bank) (h : ∀ s b, g (s.modBank b f) = g s)
    (s : State) : g (inOrder (fun b s => s.modBank b f) s) = g s := by
  unfold inOrder
  rw [h, h, h, h]

theorem inOrder_session_keeps {α : Type} (g : State → α) (f : Session → Session)
    (h : ∀ s p, g (s.modSession p f) = g s) (s : State) : g (inOrder (fun p s => s.modSession p f) s) = g s := by
  unfold inOrder
  rw [h, h, h, h]

theorem emptied_eq (s : State) :
    s.emptied = inOrder (fun p s => s.modSession p fun x => { x with awaited := none })
      (inOrder (fun b s => s.modBank b fun x => { x with queue := [] }) s) := by
  unfold emptied forgetAwaited
  rfl

theorem emptied_keeps {α : Type} (g : State → α) (h : ∀ s b f, g (State.modBank s b f) = g s)
    (k : ∀ s p f, g (State.modSession s p f) = g s) (s : State) : g s.emptied = g s := by
  rw [emptied_eq, inOrder_session_keeps g _ fun _ _ => k _ _ _, inOrder_bank_keeps g _ fun _ _ => h _ _ _]

theorem emptied_bank (s : State) (b : BankId) : s.emptied.bank b = { s.bank b with queue := [] } := by
  rw [emptied_eq, inOrder_session_keeps (·.bank b) _ fun _ _ => rfl, inOrder_bank]

theorem emptied_session (s : State) (p : PosId) : s.emptied.session p = { s.session p with awaited := none } := by
  rw [emptied_eq, inOrder_session, inOrder_bank_keeps (·.session p) _ fun _ _ => rfl]

theorem emptied_designation (s : State) : s.emptied.bm.designation = s.bm.designation :=
  emptied_keeps (·.bm.designation) (fun _ _ _ => rfl) (fun _ _ _ => rfl) s

theorem emptied_bm (s : State) : s.emptied.bm.refillInFlight = s.bm.refillInFlight :=
  emptied_keeps (·.bm.refillInFlight) (fun _ _ _ => rfl) (fun _ _ _ => rfl) s

theorem emptied_cbu (s : State) : s.emptied.cbu = s.cbu :=
  emptied_keeps (·.cbu) (fun _ _ _ => rfl) (fun _ _ _ => rfl) s

theorem emptied_sales (s : State) : s.emptied.sales = s.sales :=
  emptied_keeps (·.sales) (fun _ _ _ => rfl) (fun _ _ _ => rfl) s

theorem emptied_linked (h : Linked A.unbanked none s) : Linked A.unbanked none s.emptied where
  queued b p := by rw [emptied_bank, emptied_session]; exact ⟨nofun, nofun⟩
  held b p := by rw [emptied_bank, emptied_session]; exact h.held b p
  sole p := by rw [emptied_session]; exact .inr rfl
  once b := by rw [emptied_bank]; exact .nil
  refill b r := by rw [emptied_bm] at r; rw [emptied_bank]; exact h.refill b r
  forced b f m k := by rw [emptied_bank] at m ⊢; exact h.forced b f m k
  listed := by rw [emptied_cbu]; exact h.listed
  cooled p m l := by rw [emptied_cbu] at m; rw [emptied_session]; exact h.cooled p m l
  away p r := by
    rw [emptied_session] at r ⊢
    exact ⟨fun l => ⟨((h.away p r).1 l).1, rfl⟩, (h.away p r).2⟩
  closing p m := by rw [emptied_sales] at m; rw [emptied_session]; exact h.closing p m
  closingOnce := by rw [emptied_sales]; exact h.closingOnce
  massed p m := by rw [emptied_session] at m ⊢; exact h.massed p m
  registered p m := by rw [emptied_session] at m; rw [emptied_sales]; exact h.registered p m
  coherent a p n := by
    rw [emptied_session]
    exact (h.coherent a p n).unawaited _ rfl rfl
  numbered a := (h.numbered a).of_same (fun p => by rw [emptied_session]; rfl) (by rw [emptied_sales]) (by rw [emptied_sales])
  agreed := nofun
  shelved := h.shelved.of_same (fun p => by rw [emptied_session]) (by rw [emptied_sales]) (by rw [emptied_sales])

theorem emptied_agree (h : s.AgreeUnawaited) : BanksAgree s.emptied := by
  refine agree_of_unawaited (fun b => ?_) fun b => by rw [emptied_bank]
  rw [emptied_bank, emptied_bm, emptied_designation]
  exact h b

theorem clearClaims_linked (h : Linked A none s) : Linked A none s.clearClaims :=
  settleYield_linked (Linked.withAgreed (emptied_linked (inOrder_keeps (Linked A.unbanked none) _
    (fun b _ k => clearClaim_linked k b) _ h.unbanked)) fun a => emptied_agree (inOrder_keeps AgreeUnawaited _
      (fun b _ k => clearClaim_agree k b) _ (agreeUnawaited_of (h.agreed a))))

theorem abortRefill_linked (h : Linked A none s) : Linked A none s.abortRefill := by
  unfold abortRefill
  split
  · rename_i b e; exact refillEnds_linked h (h.refill b e) _
  · exact h

theorem stopBanks_linked (h : Linked A none s) : Linked A none s.stopBanks :=
  inOrder_keeps (Linked A none) _ (fun b _ k => abandonAndFree_linked k b) _ (abortRefill_linked (clearClaims_linked h))

theorem resetBanks_linked (h : Linked A none s) : Linked A none s.resetBanks :=
  inOrder_keeps (Linked A none) _ (fun b t (k : Linked A none t) => k.bank (c := k.forced b)) _ (stopBanks_linked h)

theorem cleared_linked (h : Linked A none s) : Linked A none (s.modCbu CoolingUnit.cleared) :=
  fewer_linked h (List.nil_sublist _)

theorem emergencyStop_linked (h : Linked A none s) (c : HaltCause) : Linked A none (s.emergencyStop c) := by
  have a : Linked A none (s.haltSite c) := Linked.posted (Linked.site (Linked.site h))
  have b := stopBanks_linked a
  have d : Linked A none (s.haltSite c).stopBanks.stopCooling :=
    .ite (fun _ => Linked.posted (cleared_linked b)) fun _ => cleared_linked b
  have e : Linked A none (s.haltSite c).stopBanks.stopCooling.disarmAll := d.sales
  exact inOrder_keeps (Linked A none) _ (fun p _ k => endWith_linked k p _) _ e

/-! ### Awaiting nothing -/

/-- No session awaits a bank. -/
def NoneAwaits (s : State) : Prop := ∀ q, (s.session q).awaited = none

theorem noneAwaits_of {t : State} (h : s.NoneAwaits) (e : ∀ q, (t.session q).awaited = (s.session q).awaited) :
    t.NoneAwaits := fun q => (e q).trans (h q)

theorem settleYield_sessions (s : State) (q : PosId) : s.settleYield.session q = s.session q := (settleYield_spares q s).1

theorem clearClaims_noneAwaits (s : State) : s.clearClaims.NoneAwaits := fun q => by
  have : s.clearClaims.session q = (inOrder (fun b s => s.clearClaim b) s).emptied.session q := settleYield_sessions _ q
  rw [this, emptied_session]

theorem abandonAndFree_sessions (s : State) (b : BankId) : (s.abandonAndFree b).sessions = s.sessions := by
  unfold abandonAndFree abandonProof
  dsimp only
  split <;> split <;> rfl

theorem relist_spares (q : PosId) (s : State) (b : BankId) : Spares q s (s.relist b) :=
  .ite (fun _ => .ite (fun _ => .refl _ _) fun _ => ⟨rfl, rfl, rfl⟩) fun _ => .refl _ _

/-- With no one awaiting, an aborted refill reaches no session. -/
theorem abortRefill_noneAwaits (h : Linked A none s) (n : s.NoneAwaits) : s.abortRefill.NoneAwaits := by
  unfold abortRefill
  split
  · rename_i b _
    intro q
    have empty : q ∉ ((s.modBm fun m => { m with refillInFlight := none, yieldTimer := none }).bank b).queue := fun m => by
      have := (h.queued b q).mp m
      rw [n q] at this
      exact nomatch this
    have k : Spares q s (s.refillEnds b .aborted) :=
      ((Spares.bm (Spares.refl q s)).trans (handOff_spares _ b empty)).posted.trans (relist_spares _ _ _)
    rw [k.1]
    exact n q
  · exact n

theorem resetBanks_noneAwaits (h : Linked A none s) : s.resetBanks.NoneAwaits := by
  have a := abortRefill_noneAwaits (clearClaims_linked h) (clearClaims_noneAwaits s)
  have b : s.stopBanks.NoneAwaits := by
    refine inOrder_keeps NoneAwaits _ (fun b t k q => ?_) _ a
    unfold session
    rw [abandonAndFree_sessions]
    exact k q
  intro q
  unfold resetBanks
  have k := inOrder_bank_keeps (·.session q) (fun x => { x with overdue := false }) (fun _ _ => rfl) s.stopBanks
  rw [k]
  exact b q

/-! ### Open sessions stay open -/

/-- The same sessions are open. -/
def SameOpen (s t : State) : Prop := ∀ q, (t.session q).isOpen = (s.session q).isOpen

theorem SameOpen.trans {s t u : State} (h : SameOpen s t) (k : SameOpen t u) : SameOpen s u := fun q => (k q).trans (h q)

theorem modSession_sameOpen (s : State) (p : PosId) {f : Session → Session} (e : (f (s.session p)).state = (s.session p).state) :
    SameOpen s (s.modSession p f) := fun q => by
  rw [modSession_session]
  split
  · rename_i c; rw [c]; exact Session.isOpen_of_state e
  · rfl

theorem clearClaim_sameOpen (s : State) (b : BankId) : SameOpen s (s.clearClaim b) := by
  unfold clearClaim
  split
  · rename_i p _
    have k : SameOpen s (s.snapshotRelease b p) := modSession_sameOpen s p rfl
    have l : SameOpen s ((s.snapshotRelease b p).forgetBank p) := k.trans (modSession_sameOpen _ p rfl)
    exact l
  · exact fun _ => rfl

theorem clearClaims_sameOpen (s : State) : SameOpen s s.clearClaims := fun q => by
  have : s.clearClaims.session q = (inOrder (fun b s => s.clearClaim b) s).emptied.session q := settleYield_sessions _ q
  rw [this, emptied_session]
  exact inOrder_keeps (SameOpen s) _ (fun b t k => k.trans (clearClaim_sameOpen t b)) _ (fun _ => rfl) q

theorem abortRefill_sameOpen (h : Linked A none s) (n : s.NoneAwaits) : SameOpen s s.abortRefill := by
  unfold abortRefill
  split
  · rename_i b _
    intro q
    have empty : q ∉ ((s.modBm fun m => { m with refillInFlight := none, yieldTimer := none }).bank b).queue := fun m => by
      have := (h.queued b q).mp m
      rw [n q] at this
      exact nomatch this
    have k : Spares q s (s.refillEnds b .aborted) :=
      ((Spares.bm (Spares.refl q s)).trans (handOff_spares _ b empty)).posted.trans (relist_spares _ _ _)
    rw [k.1]
  · exact fun _ => rfl

theorem resetBanks_sameOpen (h : Linked A none s) : SameOpen s s.resetBanks := by
  have a := (clearClaims_sameOpen s).trans (abortRefill_sameOpen (clearClaims_linked h) (clearClaims_noneAwaits s))
  have b : SameOpen s s.stopBanks := by
    refine inOrder_keeps (SameOpen s) _ (fun b t k q => ?_) _ a
    unfold session
    rw [abandonAndFree_sessions]
    exact k q
  intro q
  unfold resetBanks
  have k := inOrder_bank_keeps (·.session q) (fun x => { x with overdue := false }) (fun _ _ => rfl) s.stopBanks
  rw [k]
  exact b q

/-! ### The Sales Unit is left alone -/

theorem clearClaim_sales (s : State) (b : BankId) : (s.clearClaim b).sales = s.sales := by
  unfold clearClaim
  split <;> rfl

theorem clearClaims_sales (s : State) : s.clearClaims.sales = s.sales := by
  have a : s.clearClaims.sales = (inOrder (fun b s => s.clearClaim b) s).emptied.sales := (settleYield_spares 0 _).sales
  rw [a, emptied_sales]
  exact inOrder_keeps (fun t : State => t.sales = s.sales) _ (fun b t k => (clearClaim_sales t b).trans k) _ rfl

theorem abortRefill_sales (h : Linked A none s) (n : s.NoneAwaits) : s.abortRefill.sales = s.sales := by
  unfold abortRefill
  split
  · rename_i b _
    have empty : (0 : PosId) ∉ ((s.modBm fun m => { m with refillInFlight := none, yieldTimer := none }).bank b).queue :=
      fun m => by
        have := (h.queued b 0).mp m
        rw [n 0] at this
        exact nomatch this
    exact ((Spares.bm (Spares.refl 0 s)).trans (handOff_spares _ b empty)).posted.trans (relist_spares _ _ _) |>.sales
  · rfl

theorem abandonAndFree_sales (s : State) (b : BankId) : (s.abandonAndFree b).sales = s.sales := by
  unfold abandonAndFree abandonProof
  dsimp only
  split <;> split <;> rfl

theorem resetBanks_sales (h : Linked A none s) : s.resetBanks.sales = s.sales := by
  unfold resetBanks
  have k := inOrder_bank_keeps (·.sales) (fun x => { x with overdue := false }) (fun _ _ => rfl) s.stopBanks
  rw [k]
  unfold stopBanks
  refine inOrder_keeps (fun t : State => t.sales = s.sales) _ (fun b t k => (abandonAndFree_sales t b).trans k) _ ?_
  rw [abortRefill_sales (clearClaims_linked h) (clearClaims_noneAwaits s), clearClaims_sales]

/-! ### Site reset -/

theorem noFurtherEnd_links : noFurtherEnd.Links A := fun _ _ _ h => h

theorem noFurtherEnd_leaves (p : PosId) : noFurtherEnd.LeavesOthers p := fun _ _ s _ => .refl s

/-- While no session awaits a bank and nothing is listed for cooling, ending one session reaches no other. -/
structure Quieted (A : Aspects) (s : State) : Prop where
  linked : Linked A none s
  awaits : s.NoneAwaits
  unlisted : s.cbu.positions = []

theorem leaveCooling_unlisted (u : s.cbu.positions = []) (endK : Ender) (p : PosId) : s.leaveCooling endK p = s := by
  unfold CoolingUnit.positions at u
  rw [List.append_eq_nil_iff, List.map_eq_nil_iff, List.map_eq_nil_iff] at u
  unfold leaveCooling
  rw [u.1, u.2]
  rfl

theorem endSteps_spares (h : Quieted A s) {q : PosId} (_ : (s.session p).running = true) (n : q ≠ p) :
    (s.endSteps noFurtherEnd p .siteReset).session q = s.session q
      ∧ (s.endSteps noFurtherEnd p .siteReset).cbu = s.cbu ∧ (s.endSteps noFurtherEnd p .siteReset).sales = s.sales := by
  let f : Session → Session := fun x => x.markEnded .siteReset s.site.siteTime (s.endingNozzle p)
  have s1 : (s.modSession p f).session p = f (s.session p) := modSession_session_same _ _ _
  have noq : ∀ b, q ∉ (s.bank b).queue := fun b m => by
    have := (h.linked.queued b q).mp m
    rw [h.awaits q] at this
    exact nomatch this
  have k1 : Spares q s ((s.modSession p f).releaseClaim p) := by
    refine ((Spares.refl q s).session n.symm (f := f)).trans ?_
    unfold releaseClaim
    split
    · exact .refl _ _
    · refine .ite (fun _ => ?_) fun _ => (Spares.refl _ _).session n.symm
      refine Spares.trans ?_ (handOn_spares _ _ ?_)
      · unfold snapshotRelease
        exact ((Spares.refl _ _).session n.symm).session n.symm
      · exact noq _
  have k2 : Spares q s (((s.modSession p f).releaseClaim p).leaveQueue p) := by
    refine k1.trans ?_
    unfold leaveQueue
    split
    · exact .refl _ _
    · exact ((Spares.refl _ _).bank.session n.symm).trans (settleYield_spares _ _)
  have shape : s.endSteps noFurtherEnd p .siteReset
      = (((((s.modSession p f).releaseClaim p).leaveQueue p).leaveCooling noFurtherEnd p).modSession p
          fun x => { x with cooling := .noCooling }).postSession p := rfl
  rw [shape, leaveCooling_unlisted (by rw [k2.cbu]; exact h.unlisted)]
  refine ⟨?_, k2.cbu, k2.sales⟩
  show ((((s.modSession p f).releaseClaim p).leaveQueue p).modSession p fun x =>
    { x with cooling := .noCooling }).session q = _
  rw [modSession_session_ne _ _ n, k2.1]

/-- There is another position. -/
def another (p : PosId) : PosId := if p = 0 then 1 else 0

theorem another_ne (p : PosId) : another p ≠ p := by
  revert p
  decide

theorem resetSession_quieted (h : Quieted A.unshelved s) (p : PosId) :
    Quieted A.unshelved (s.resetSession p) ∧ ((s.resetSession p).session p).running = false
      ∧ (∀ q, (s.session q).running = false → ((s.resetSession p).session q).running = false)
      ∧ (s.resetSession p).sales = s.sales ∧ SameOpen s (s.resetSession p) := by
  unfold resetSession
  by_cases r : (s.session p).running = true
  · rw [if_pos r]
    obtain ⟨l, _, e⟩ := endSteps_linked noFurtherEnd_links noFurtherEnd_leaves h.linked r .siteReset
    have stop : ((s.endSteps noFurtherEnd p .siteReset).session p).running = false := by
      rw [e]
      exact Session.closed_stops (.inl (endedSession_state s p _))
    have sp := endSteps_spares h r (another_ne p)
    refine ⟨⟨l.reshelve (Shelved.none A _), fun q => ?_, by rw [sp.2.1]; exact h.unlisted⟩, stop, fun q k => ?_, sp.2.2, fun q => ?_⟩
    · by_cases c : q = p
      · rw [c]
        exact ((l.away p stop).1 nofun).2
      · rw [(endSteps_spares h r c).1]
        exact h.awaits q
    · by_cases c : q = p
      · rw [c]; exact stop
      · rw [(endSteps_spares h r c).1]; exact k
    · by_cases c : q = p
      · rw [c, e, Session.running_open r]
        exact Session.closed_open (.inl (endedSession_state s p _))
      · rw [(endSteps_spares h r c).1]
  · rw [if_neg r]
    exact ⟨h, Bool.eq_false_iff.mpr r, fun _ => id, rfl, fun _ => rfl⟩

theorem interrupt_linked (h : Linked A none s) (p : PosId) : Linked A none (s.interrupt p) := .ite (fun _ => h.session) fun _ => h

theorem interrupt_running (s : State) (p q : PosId) : ((s.interrupt p).session q).running = (s.session q).running := by
  unfold interrupt
  split
  · rw [modSession_session]
    split
    · rename_i c; rw [c]; rfl
    · rfl
  · rfl

theorem interrupt_sameOpen (s : State) (p : PosId) : SameOpen s (s.interrupt p) := by
  unfold interrupt
  split
  · exact modSession_sameOpen s p rfl
  · exact fun _ => rfl

theorem resetSessions_linked (h : Quieted A.unshelved s) :
    Linked A.unshelved none s.resetSessions ∧ (∀ q, (s.resetSessions.session q).running = false)
      ∧ s.resetSessions.sales = s.sales ∧ SameOpen s s.resetSessions := by
  have a0 := resetSession_quieted h 0
  have a1 := resetSession_quieted a0.1 1
  have a2 := resetSession_quieted a1.1 2
  have a3 := resetSession_quieted a2.1 3
  have l : Linked A.unshelved none (inOrder (fun p s => s.resetSession p) s) := a3.1.linked
  have r : ∀ q, ((inOrder (fun p s => s.resetSession p) s).session q).running = false := by
    intro q
    match q with
    | 0 => exact a3.2.2.1 _ (a2.2.2.1 _ (a1.2.2.1 _ a0.2.1))
    | 1 => exact a3.2.2.1 _ (a2.2.2.1 _ a1.2.1)
    | 2 => exact a3.2.2.1 _ a2.2.1
    | 3 => exact a3.2.1
  have sa : (inOrder (fun p s => s.resetSession p) s).sales = s.sales :=
    a3.2.2.2.1.trans (a2.2.2.2.1.trans (a1.2.2.2.1.trans a0.2.2.2.1))
  have so : SameOpen s (inOrder (fun p s => s.resetSession p) s) :=
    ((a0.2.2.2.2.trans a1.2.2.2.2).trans a2.2.2.2.2).trans a3.2.2.2.2
  refine ⟨inOrder_keeps (Linked A.unshelved none) _ (fun p _ k => interrupt_linked k p) _ l, ?_, ?_,
    inOrder_keeps (SameOpen s) _ (fun p t k => k.trans (interrupt_sameOpen t p)) _ so⟩
  · refine inOrder_keeps (fun t : State => ∀ q, (t.session q).running = false) _ (fun p t k q => ?_) _ r
    rw [interrupt_running]
    exact k q
  · refine inOrder_keeps (fun t : State => t.sales = s.sales) _ (fun p t k => ?_) _ sa
    unfold interrupt
    split <;> exact k

/-- A session that does not run and is not to be closed returns to IDLE. -/
theorem idle_linked {t : State} (h : Linked A none s) (r : (s.session p).running = false)
    (u : p ∉ s.sales.pendingSessions) (bm : t.bm = s.bm) (cbu : t.cbu = s.cbu)
    (sess : t.sessions = s.sessions.set p Session.idle) (pend : t.sales.pendingSessions = s.sales.pendingSessions)
    (reg : t.sales.register = s.sales.register) (n : A.numbered → Numbered t) (sh : Shelved A t) : Linked A none t := by
  have bank : ∀ b, t.bank b = s.bank b := fun b => by
    unfold State.bank
    rw [bm]
  have aw := (h.away p r).1 nofun
  have np : p ∉ s.cbu.positions := fun m => by
    rw [h.cooled p m nofun] at r
    exact nomatch r
  have same : t.session p = Session.idle := by
    unfold session
    rw [sess, Quad.get_set_same]
  have other : ∀ z, z ≠ p → t.session z = s.session z := fun z c => by
    unfold session
    rw [sess, Quad.get_set_ne _ _ c]
  refine ⟨fun b z => ?_, fun b z => ?_, fun z => ?_, fun b => ?_, fun b k => ?_, fun b f k l => ?_, ?_, fun z k l => ?_,
    fun z k => ?_, fun z k => ?_, ?_, fun z k => ?_, fun z k => ?_, fun a z l => ?_, n, fun a => (h.agreed a).of_bm bm,
    sh⟩
  · rw [bank]
    by_cases c : z = p
    · rw [c, same]
      refine ⟨fun m => ?_, nofun⟩
      rw [(h.queued b p).mp m] at aw
      exact nomatch aw.2
    · rw [other z c]; exact h.queued b z
  · rw [bank]
    by_cases c : z = p
    · rw [c, same]
      refine ⟨fun m => ?_, nofun⟩
      rw [(h.held b p).mp m] at aw
      exact nomatch aw.1
    · rw [other z c]; exact h.held b z
  · by_cases c : z = p
    · rw [c, same]; exact .inl rfl
    · rw [other z c]; exact h.sole z
  · rw [bank]; exact h.once b
  · rw [bm] at k; rw [bank]; exact h.refill b k
  · rw [bank] at k ⊢; exact h.forced b f k l
  · rw [cbu]; exact h.listed
  · rw [cbu] at k
    rw [other z fun c => np (c ▸ k)]
    exact h.cooled z k l
  · by_cases c : z = p
    · rw [c, same]; exact ⟨fun _ => ⟨rfl, rfl⟩, rfl⟩
    · rw [other z c] at k ⊢; exact h.away z k
  · rw [pend] at k
    rw [other z fun c => u (c ▸ k)]
    exact h.closing z k
  · rw [pend]; exact h.closingOnce
  · by_cases c : z = p
    · rw [c, same] at k; exact nomatch k
    · rw [other z c] at k ⊢; exact h.massed z k
  · by_cases c : z = p
    · rw [c, same] at k; exact nomatch k
    · rw [other z c] at k; exact reg.trans (h.registered z k)
  · by_cases c : z = p
    · rw [c, same]; exact idle_coherent
    · rw [other z c]; exact h.coherent a z l

theorem commit_sessions (s : State) (p : PosId) : (s.commit p).sessions = s.sessions.set p Session.idle := by
  unfold commit postMismatch
  dsimp only
  split <;> rfl

theorem commit_stops {s : State} (r : ∀ q, (s.session q).running = false) (p q : PosId) :
    ((s.commit p).session q).running = false := by
  unfold session
  rw [commit_sessions, Quad.get_set]
  split
  · rfl
  · exact r q

theorem commit_sales (s : State) (p : PosId) : (s.commit p).sales = { s.sales with
    records := s.sales.records ++ [s.saleRecord p], counter := nextCounter s.sales.counter } := by
  unfold commit postMismatch
  dsimp only
  split <;> rfl

/-- Open sessions, each named once: what a reset commits. -/
def Committable (s : State) (l : List PosId) : Prop := l.Nodup ∧ ∀ q ∈ l, (s.session q).isOpen = true

theorem Committable.rest {s : State} {p : PosId} {l : List PosId} (h : s.Committable (p :: l)) : (s.commit p).Committable l := by
  have n := List.nodup_cons.mp h.1
  refine ⟨n.2, fun q m => ?_⟩
  rw [commit_session_ne s (p := p) (q := q) fun c => n.1 (c ▸ m)]
  exact h.2 q (List.mem_cons_of_mem _ m)

/-- Sessions that do not run are committed, one after another, with nothing left to close. -/
theorem commits_linked (l : List PosId) (s : State) (h : Linked A.unshelved none (s.modSales SalesUnit.closed))
    (r : ∀ q, (s.session q).running = false) (o : A.numbered → s.Committable l) :
    Linked A.unshelved none ((l.foldl State.commit s).modSales SalesUnit.closed) := by
  induction l generalizing s with
  | nil => exact h
  | cons p l ih =>
    refine ih _ (idle_linked h (p := p) (r p) List.not_mem_nil ?_ ?_ (commit_sessions s p) rfl rfl (fun a => ?_)
      (Shelved.none A _)) (commit_stops r p) fun a => (o a).rest
    · unfold commit postMismatch
      dsimp only
      split <;> rfl
    · unfold commit postMismatch
      dsimp only
      split <;> rfl
    · have e : ((s.commit p).modSales SalesUnit.closed).sales = SalesUnit.closed (s.commit p).sales := rfl
      rw [commit_sales] at e
      refine (h.numbered a).commit (p := p) (v := s.saleRecord p) ((o a).2 p List.mem_cons_self) ?_ (fun q c => ?_)
        (by rw [e]; rfl) rfl (by rw [e]; rfl)
      · show ((s.commit p).session p).isOpen = false
        unfold session
        rw [commit_sessions, Quad.get_set_same]
        rfl
      · show ((s.commit p).session q).isOpen = (s.session q).isOpen
        rw [commit_session_ne s c]

theorem closed_sales_linked (h : Linked A.unshelved none s) (c : ∀ q, (s.session q).state ≠ .closing) :
    Linked A.unshelved none (s.modSales SalesUnit.closed) :=
  ⟨h.queued, h.held, h.sole, h.once, h.refill, h.forced, h.listed, h.cooled, h.away, fun _ m => absurd m List.not_mem_nil,
    .nil, h.massed, fun q e => absurd e (c q), h.coherent, fun a => (h.numbered a).of_same (fun _ => rfl) (.refl _) rfl,
    fun a => (h.agreed a).of_bm, Shelved.none A _⟩

/-- Sessions committed are IDLE, and no other session changes. -/
theorem commits_session (l : List PosId) (s : State) (p : PosId) :
    (l.foldl State.commit s).session p = if p ∈ l then Session.idle else s.session p := by
  induction l generalizing s with
  | nil => rfl
  | cons q l ih =>
    rw [List.foldl_cons, ih]
    by_cases m : p ∈ l
    · rw [if_pos m, if_pos (List.mem_cons_of_mem _ m)]
    · rw [if_neg m]
      by_cases c : p = q
      · rw [if_pos (c ▸ List.mem_cons_self), c]
        unfold session
        rw [commit_sessions, Quad.get_set_same]
      · rw [if_neg fun k => (List.mem_cons.mp k).elim c m, commit_session_ne s c]

/-- The sessions that a reset finds not IDLE are committed, the one in the register first (R166). -/
theorem resetSales_linked (h : Linked A.unshelved none s) (r : ∀ q, (s.session q).running = false) (more : List PosId)
    (o : A.numbered → s.Committable (s.sales.pendingSessions ++ more)) :
    Linked A.unshelved none (s.resetSales (s.sales.pendingSessions ++ more)) := by
  have d : Linked A.unshelved none s.disarmAll := by
    unfold disarmAll
    exact h.sales
  have k : Linked A.unshelved none (((s.sales.pendingSessions ++ more).foldl State.commit s.disarmAll).modSales SalesUnit.closed) := by
    cases e : s.sales.register with
    | none =>
      refine commits_linked _ _ (closed_sales_linked d fun q c => ?_) r o
      have := h.registered q c
      rw [e] at this
      exact nomatch this
    | some p =>
      have l : s.sales.pendingSessions ++ more = p :: (s.sales.closeQueue ++ more) := by
        unfold SalesUnit.pendingSessions
        rw [e]
        rfl
      rw [l] at o ⊢
      have c := completeClosing_linked (A := A.unshelved) d e
      have cl : Linked A.unshelved none ((s.disarmAll.commit p).modSales SalesUnit.closed) := by
        have k := closed_sales_linked c fun q m => ?_
        · unfold completeClosing at k
          generalize s.disarmAll.commit p = t at k
          exact k
        · have := c.registered q m
          exact nomatch this
      exact commits_linked _ (s.disarmAll.commit p) cl (commit_stops (s := s.disarmAll) r p) fun a => Committable.rest (s := s.disarmAll) (o a)
  unfold resetSales postHeld
  exact .ite (fun _ => k) fun _ => k.posted

theorem resetSite_linked (h : Linked A none s) : Linked A none s.resetSite := by
  unfold resetSite serveAgain setMode discardWorking
  exact Linked.site (Linked.site (Linked.site h))

theorem resetSite_sales (s : State) : s.resetSite.sales = s.sales := rfl

theorem resetSite_running (s : State) (p : PosId) : (s.resetSite.session p).running = (s.session p).running := rfl

theorem resetPorts_linked (h : Linked A none s) : Linked A none s.resetPorts := by
  unfold resetPorts
  exact h.of_same (fun _ => rfl) (fun _ => rfl) h.forced (fun _ => id) (fun _ => rfl) (.refl _) rfl rfl

theorem resetCooling_linked (h : Linked A none s) : Linked A none s.resetCooling := by
  unfold resetCooling
  exact Linked.posted (cleared_linked h)

theorem resetCooling_noneAwaits (h : s.NoneAwaits) : s.resetCooling.NoneAwaits := by
  unfold resetCooling
  exact h

theorem resetCooling_unlisted (s : State) : s.resetCooling.cbu.positions = [] := by
  unfold resetCooling
  rfl

/-- What is committed at a reset: the sessions pending, and those the reset ends. -/
theorem siteReset_course (h : Linked A none s) : ∃ t : State, s.siteReset = t.resetSales s.resetOrder
    ∧ Linked A.unshelved none t ∧ (∀ q, (t.session q).running = false) ∧ t.sales = s.sales ∧ SameOpen s t := by
  have b : Linked A none s.resetSite.resetPorts := resetPorts_linked (resetSite_linked h)
  have c := resetBanks_linked b
  have sc : s.resetSite.resetPorts.resetBanks.sales = s.sales := resetBanks_sales b
  have nc := resetBanks_noneAwaits b
  have ob : SameOpen s s.resetSite.resetPorts.resetBanks := resetBanks_sameOpen b
  unfold siteReset
  generalize s.resetSite.resetPorts.resetBanks = t at c sc nc ob
  have e := resetSessions_linked (s := t.resetCooling)
    ⟨(resetCooling_linked c).unshelved, resetCooling_noneAwaits nc, resetCooling_unlisted t⟩
  refine ⟨t.resetCooling.resetSessions, rfl, e.1, e.2.1, ?_, ?_⟩
  · rw [e.2.2.1]
    unfold resetCooling
    exact sc
  · refine SameOpen.trans (t := t.resetCooling) ?_ e.2.2.2
    unfold resetCooling
    exact ob

/-- Every open session is one that the reset commits. -/
theorem open_resetOrder (h : Linked A none s) {p : PosId} (u : ¬A.unfiled p) (o : (s.session p).isOpen = true) :
    p ∈ s.resetOrder := by
  cases e : (s.session p).state with
  | idle => unfold Session.isOpen at o; rw [e] at o; exact nomatch o
  | ended => exact List.mem_append_left _ (List.mem_append_right _ (h.shelved.filed p u e))
  | closing =>
    refine List.mem_append_left _ (List.mem_append_left _ ?_)
    rw [h.registered p e]
    exact List.mem_cons_self
  | opening => exact List.mem_append_right _ (List.mem_filter.mpr ⟨mem_fourIds p, by unfold Session.running; rw [e]⟩)
  | connecting => exact List.mem_append_right _ (List.mem_filter.mpr ⟨mem_fourIds p, by unfold Session.running; rw [e]⟩)
  | delivering => exact List.mem_append_right _ (List.mem_filter.mpr ⟨mem_fourIds p, by unfold Session.running; rw [e]⟩)
  | held => exact List.mem_append_right _ (List.mem_filter.mpr ⟨mem_fourIds p, by unfold Session.running; rw [e]⟩)

theorem siteReset_linked (h : Linked A none s) : Linked A none s.siteReset := by
  obtain ⟨t, c, l, r, sa, so⟩ := siteReset_course h
  have reg : (t.resetSales s.resetOrder).sales.register = none ∧ (t.resetSales s.resetOrder).sales.closeQueue = [] := by
    unfold resetSales postHeld
    split <;> exact ⟨rfl, rfl⟩
  have still : ∀ q, ¬A.unfiled q → ((t.resetSales s.resetOrder).session q).state ≠ .ended := fun q u m => by
    have e : (t.resetSales s.resetOrder).session q = (s.resetOrder.foldl State.commit t.disarmAll).session q := by
      unfold resetSales postHeld
      split <;> rfl
    rw [e, commits_session] at m
    split at m
    · exact nomatch m
    · rename_i k
      exact k (open_resetOrder h u ((so q).symm.trans (Session.closed_open (.inl m))))
  rw [c]
  refine Linked.reshelve (A := A.unshelved) (u := A.unfiled) (v := A.unserved) ?_
    ⟨fun q u m => absurd m (still q u), fun _ q m => ?_, fun _ _ => reg.2⟩
  · unfold resetOrder
    rw [← sa]
    refine resetSales_linked l r _ fun _ => ?_
    rw [sa]
    refine ⟨List.Nodup.append h.closingOnce (List.Nodup.filter _ (by decide)) fun q m m' =>
      Session.running_state (List.mem_filter.mp m').2 (h.closing q m), fun q m => ?_⟩
    rw [so q]
    rcases List.mem_append.mp m with m | m
    · exact Session.closed_open (h.closing q m)
    · exact Session.running_open (List.mem_filter.mp m).2
  · rw [reg.1] at m
    exact nomatch m

end State

/-! ### Requests -/

/-- A request keeps the queues, lists and registers in agreement with the session records. -/
def Handler.Links (A : Aspects) (h : Handler) : Prop := ∀ s, Linked A none s → Linked A none (h s).1

variable {A : Aspects}

theorem links_ite {c : Prop} [Decidable c] {x y : State × Reply} (h : c → Linked A none x.1) (k : ¬c → Linked A none y.1) :
    Linked A none (if c then x else y).1 := by
  split
  · exact h ‹_›
  · exact k ‹_›

theorem links_refuse {s : State} (c : Code) (h : Linked A none s) : Linked A none (refuse c s).1 := h

theorem links_done {s : State} (h : Linked A none s) : Linked A none (done s).1 := h

theorem links_doneWith {s : State} (b : List Byte) (h : Linked A none s) : Linked A none (doneWith b s).1 := h

open State

section Parts

variable {s : State}

theorem arm_linked (h : Linked A none s) (p : PosId) (a : Authorization) (l : Nat) : Linked A none (s.arm p a l) := by
  unfold arm
  exact h.sales

theorem disarm_linked (h : Linked A none s) (p : PosId) : Linked A none (s.disarm p) := by
  unfold disarm
  exact h.sales

theorem removeRecord_linked (h : Linked A none s) (n : Nat) : Linked A none (s.removeRecord n) := by
  unfold removeRecord
  exact h.sales (w := ⟨List.filter_sublist, rfl⟩)

theorem setPrice_linked (h : Linked A none s) (i n : Nat) : Linked A none (s.setPrice i n) := by
  unfold setPrice
  exact h.sales

theorem storeLoaded_linked (h : Linked A none s) (c : SiteConfig) : Linked A none (s.storeLoaded c) := by
  unfold storeLoaded
  exact h.site

theorem setMode_linked (h : Linked A none s) (m : SiteMode) : Linked A none (s.setMode m) := by
  unfold setMode
  exact h.site

theorem serveAgain_linked (h : Linked A none s) : Linked A none s.serveAgain := by
  unfold serveAgain
  exact setMode_linked h.site _

end Parts

section Requests

variable (p : PosId)

theorem readNotices_links (q : PortId) : Handler.Links A (readNoticesRequest q) := fun s h => by
  unfold readNoticesRequest
  dsimp only
  split
  · exact h
  · exact h.of_same (fun _ => rfl) (fun _ => rfl) h.forced (fun _ => id) (fun _ => rfl) (.refl _) rfl rfl

theorem nozzle_links (v : Nat) : Handler.Links A (nozzleRequest p v) := fun s h => by
  unfold nozzleRequest
  split
  · exact h
  · exact links_ite (fun _ => h) fun _ => nozzleChange_linked h p _

theorem progress_links (x t m : Nat) : Handler.Links A (progressRequest p x t m) := fun _ h =>
  links_ite (fun _ => h) fun _ => links_ite (fun _ => h) fun _ => takeProgress_linked h p _ _ _

theorem finalMass_shelved {s : State} {m : Nat} (h : Shelved A s) :
    Shelved A (s.modSession p fun x => { x with finalMass := some m }) :=
  h.of_same fun q => by
    rw [modSession_session]
    split
    · rename_i c; rw [c]
    · rfl

theorem finalMeter_links (m : Nat) : Handler.Links A (finalMeterRequest p m) := fun s h => by
  unfold finalMeterRequest
  refine links_ite (fun _ => h) fun _ => ?_
  split
  · rename_i e
    exact closed_linked (f := fun x => { x with finalMass := some m }) h (.inl e) (.inl e) rfl
      (fun c => nomatch e.symm.trans c) (finalMass_shelved p h.shelved)
  · rename_i e
    have k : Linked A none (s.modSession p fun x => { x with finalMass := some m }) :=
      closed_linked h (.inr e) (.inr e) rfl (fun _ => h.registered p e) (finalMass_shelved p h.shelved)
    exact serveCloseQueue_linked (completeClosing_linked k.unserving (h.registered p e)) fun _ => completeClosing_closes _ _
  all_goals exact h

theorem vehicleFrame_links (k c v x t f : Nat) : Handler.Links A (vehicleFrameRequest p k c v x t f) := fun s h => by
  unfold vehicleFrameRequest
  split
  · unfold takeVehicleFrame
    refine links_ite (fun _ => h) fun _ => ?_
    exact .ite (fun _ => takeValidFrame_linked h p _) fun _ => takeInvalidFrame_linked h p
  · exact h

theorem startRefusal_idle {s : State} (e : s.startRefusal p = none) : (s.session p).state = .idle := by
  unfold startRefusal at e
  split at e
  · exact nomatch e
  · split at e
    · exact nomatch e
    · split at e
      · exact nomatch e
      · rename_i n; exact not_not.mp n

theorem startRefusal_room {s : State} (e : s.startRefusal p = none) : s.recordRoom = true := by
  by_contra c
  have c : (!s.recordRoom) = true := by simpa using c
  unfold startRefusal at e
  rw [if_pos c] at e
  repeat' split at e
  all_goals exact nomatch e

theorem start_links : Handler.Links A (startRequest p) := fun s h => by
  unfold startRequest
  split
  · exact h
  · rename_i e
    split
    · split
      · exact h
      · exact links_ite (fun _ => h) fun _ => openSession_linked h (startRefusal_idle p e)
          (startRefusal_room p e) _ _ _
    · exact h

theorem stop_links : Handler.Links A (stopRequest p) := fun _ h => links_ite (fun _ => endWith_linked h p _) fun _ => h

theorem pause_links : Handler.Links A (pauseRequest p) := fun _ h => links_ite (fun _ => setFactor_linked h p _) fun _ => h

theorem continue_links : Handler.Links A (continueRequest p) := fun _ h =>
  links_ite (fun _ => clearFactor_linked endNow_links h p _) fun _ => h

theorem readPositionNamed_links (n : Nat) : Handler.Links A (readPositionNamed n) := fun s h => by
  unfold readPositionNamed
  split <;> exact h

theorem bankStatus_links (r : Quad Reading) (t : Nat) : Handler.Links A (bankStatusRequest r t) := fun _ h => links_done (takeBankStatus_linked h r t)

theorem coolingCapacity_links (c : Nat) : Handler.Links A (coolingCapacityRequest c) := fun _ h =>
  links_ite (fun _ => h) fun _ => takeCapacity_linked h c

theorem refillNext_links : Handler.Links A refillNextRequest := fun s h => by
  unfold refillNextRequest
  refine links_ite (fun _ => h) fun v => links_ite (fun _ => h) fun _ => ?_
  split
  · exact h
  · rename_i b e
    refine beginRefill_linked h ?_ (Option.not_isSome_iff_eq_none.mp v)
    have := List.find?_some e
    exact beq_iff_eq.mp this

theorem refillEnd_links (n : Nat) : Handler.Links A (refillEndRequest n) := fun s h => by
  unfold refillEndRequest
  split
  · exact h
  · exact links_ite (fun e => endRefill_linked h (h.refill _ e) _) fun _ => h

theorem clearSuspect_links (n : Nat) : Handler.Links A (clearSuspectRequest n) := fun s h => by
  unfold clearSuspectRequest
  split
  · exact h
  · rename_i b _
    refine links_ite (fun e => ?_) fun _ => h
    refine Linked.bank (b := b) (f := fun x => { x with proofState := .unproven, provenAt := none, overdue := false }) h
      (c := h.forced b) (g := fun _ g => modBank_agree g ?_)
    have x := g.bank b
    refine ⟨⟨fun m => ?_, nofun⟩, x.before, x.forced, x.held, x.opportunistic, x.refill, x.unawaited⟩
    have := x.proving.mp m
    rw [e] at this
    exact nomatch this

theorem authorize_links (n r k a l : Nat) : Handler.Links A (authorizeRequest n r k a l) := fun s h => by
  unfold authorizeRequest
  split
  · exact links_ite (fun _ => h) fun _ => links_ite (fun _ => h) fun _ => links_ite (fun _ => h) fun _ =>
      links_ite (fun _ => h) fun _ => links_doneWith _ (arm_linked h _ _ _)
  · exact h

theorem cancel_links (n r : Nat) : Handler.Links A (cancelRequest n r) := fun s h => by
  unfold cancelRequest
  split
  · exact h
  · exact links_ite (fun _ => h) fun _ => links_ite (fun _ => links_done (disarm_linked h _)) fun _ => h

theorem readRecord_links (k n : Nat) : Handler.Links A (readRecordRequest k n) := fun s h => by
  unfold readRecordRequest
  refine links_ite (fun _ => h) fun _ => links_ite (fun _ => ?_) fun _ => links_ite (fun _ => h) fun _ => ?_ <;> split <;> exact h

theorem settle_links (n : Nat) : Handler.Links A (settleRequest n) := fun s h => by
  unfold settleRequest
  refine links_ite (fun _ => h) fun _ => ?_
  split
  · exact h
  · exact links_doneWith _ (removeRecord_linked h n)

theorem loadTable_links (t i : Nat) (e : List Byte) : Handler.Links A (loadTableRequest t i e) := fun s h => by
  unfold loadTableRequest
  refine links_ite (fun _ => h) fun _ => links_ite (fun _ => ?_) fun _ => ?_
  · unfold loadTariff
    refine links_ite (fun _ => h) fun _ => ?_
    split
    · exact h
    · exact links_done (setPrice_linked h _ _)
  · unfold loadConfigTable
    split
    · exact h
    · split
      · exact h
      · exact links_done (storeLoaded_linked h _)

theorem commission_links : Handler.Links A commissionRequest := fun s h => by
  unfold commissionRequest
  refine links_ite (fun _ => h) fun _ => ?_
  split
  · exact h
  · exact links_done (setMode_linked h.site _)

theorem enterService_links : Handler.Links A enterServiceRequest := fun _ h =>
  links_ite (fun _ => links_done (setMode_linked h.site _)) fun _ => h

theorem leaveService_links : Handler.Links A leaveServiceRequest := fun s h => by
  unfold leaveServiceRequest
  split
  · split
    · exact h
    · exact links_done (setMode_linked h.site _)
  · exact h

theorem setBand_links (b : Nat) : Handler.Links A (setBandRequest b) := fun s h => by
  unfold setBandRequest
  split
  · exact h
  · exact links_ite (fun _ => h) fun _ => links_done h.site

theorem setTariff_links (i n : Nat) : Handler.Links A (setTariffRequest i n) := fun s h => by
  unfold setTariffRequest
  refine links_ite (fun _ => h) fun _ => ?_
  split
  · exact h
  · exact links_ite (fun _ => h) fun _ => links_done (setPrice_linked h _ _)

theorem readSite_links (k t i c : Nat) : Handler.Links A (readSiteRequest k t i c) := fun s h => by
  unfold readSiteRequest readEntry
  refine links_ite (fun _ => h) fun _ => links_ite (fun _ => h) fun _ => links_ite (fun _ => h) fun _ =>
    links_ite (fun _ => ?_) fun _ => ?_
  · split <;> exact h
  · split
    · split <;> exact h
    · exact h

theorem emergencyStop_links (q : PortId) : Handler.Links A (emergencyStopRequest q) := fun s h => by
  unfold emergencyStopRequest
  split
  · exact h
  · exact h
  · exact emergencyStop_linked h _
  · exact emergencyStop_linked h _

theorem siteReset_links : Handler.Links A siteResetRequest := fun _ h => links_ite (fun _ => h) fun _ => siteReset_linked h

theorem handlerOf_links (q : PortId) (kind : Nat) (body : List Byte) : Handler.Links A (handlerOf q kind body) := by
  intro s h
  unfold handlerOf
  split
  · unfold dispenserHandler
    split
    · exact readNotices_links _ s h
    · exact nozzle_links _ _ s h
    · exact start_links _ s h
    · exact stop_links _ s h
    · exact pause_links _ s h
    · exact continue_links _ s h
    · exact progress_links _ _ _ _ s h
    · exact finalMeter_links _ _ s h
    · exact vehicleFrame_links _ _ _ _ _ _ _ s h
    · exact h
    · exact h
  · unfold plantHandler
    split
    · exact readNotices_links _ s h
    · exact bankStatus_links _ _ s h
    · exact coolingCapacity_links _ s h
    · exact refillNext_links s h
    · exact refillEnd_links _ s h
    · exact emergencyStop_links _ s h
    · exact h
    · exact h
  · unfold terminalHandler
    split
    · exact readNotices_links _ s h
    · exact authorize_links _ _ _ _ _ s h
    · exact cancel_links _ _ s h
    · exact readRecord_links _ _ s h
    · exact settle_links _ s h
    · exact h
  · unfold supervisorHandler
    split
    · exact readNotices_links _ s h
    · exact readPositionNamed_links _ s h
    · exact emergencyStop_links _ s h
    · exact h
    · exact readRecord_links _ _ s h
    · exact loadTable_links _ _ _ s h
    · exact commission_links s h
    · exact enterService_links s h
    · exact leaveService_links s h
    · exact setBand_links _ s h
    · exact setTariff_links _ _ s h
    · exact links_done (overdueTest_linked h.site)
    · exact siteReset_links s h
    · exact links_ite (fun _ => links_done (serveAgain_linked h)) fun _ => h
    · exact clearSuspect_links _ s h
    · exact readSite_links _ _ _ _ s h
    · exact h
    · exact h

end Requests

end Sys2Proof.Machine
end

