-- ==== Sys2Proof/Laws/LinkedRuns.lean ====
section
/-! SUPPORT. That every step keeps the queues, lists and registers in agreement with the session records. -/

namespace Sys2Proof.Machine

set_option Elab.async false

namespace State

variable {A : Aspects} {s : State}

/-! ### Ports -/

theorem modPort_linked (h : Linked A none s) (q : PortId) (f : Port → Port) : Linked A none (s.modPort q f) :=
  h.of_same (fun _ => rfl) (fun _ => rfl) h.forced (fun _ => id) (fun _ => rfl) (.refl _) rfl rfl

theorem flush_linked (h : Linked A none s) : Linked A none s.flush :=
  h.of_same (fun _ => rfl) (fun _ => rfl) h.forced (fun _ => id) (fun _ => rfl) (.refl _) rfl rfl

theorem answerOwner_linked (h : Linked A none s) (f : Frame) (r : Reply) : Linked A none (s.answerOwner f r) :=
  modPort_linked h _ _

theorem serve_linked (h : Linked A none s) (f : Frame) {g : Handler} (k : Handler.Links A g) : Linked A none (s.serve f g) :=
  answerOwner_linked (flush_linked (k _ (modPort_linked h _ _))) _ _

theorem takeFrame_linked (h : Linked A none s) (f : Frame) {g : Handler} (k : Handler.Links A g) : Linked A none (s.takeFrame f g) := by
  unfold takeFrame
  split
  · exact modPort_linked h _ _
  · split
    · exact .ite (fun _ => modPort_linked h _ _) fun _ => serve_linked h f k
    · exact serve_linked h f k

theorem receiveByte_linked (h : Linked A none s) (q : PortId) (b : Byte) : Linked A none (s.receiveByte q b) := by
  unfold receiveByte
  split
  · exact h
  · exact h
  · split
    · exact modPort_linked h _ _
    · exact modPort_linked h _ _
    · exact takeFrame_linked (modPort_linked h _ _) _ (handlerOf_links _ _ _)

theorem receiveBytes_linked (h : Linked A none s) (q : PortId) (l : List Byte) : Linked A none (s.receiveBytes q l) :=
  foldl_linked _ (fun _ b k => receiveByte_linked k q b) l s h

theorem request_linked (h : Linked A none s) (f : Frame) {g : Handler} (k : Handler.Links A g) : Linked A none (s.request f g) := by
  unfold request
  split
  · exact h
  · exact h
  · exact .ite (fun _ => takeFrame_linked h f k) fun _ => receiveBytes_linked h _ _

/-! ### Time -/

theorem tick_bank (s : State) (b : BankId) : s.tick.bank b = (s.bank b).tick := Quad.get_map _ _ _

theorem tick_session (s : State) (p : PosId) : s.tick.session p = (s.session p).tick := Quad.get_map _ _ _

theorem tick_positions (s : State) : s.tick.cbu.positions = s.cbu.positions := by
  show s.cbu.grants.map (·.pos) ++ (s.cbu.queue.map fun w => { w with timer := w.timer - 1 }).map (·.pos) = _
  rw [List.map_map]
  rfl

theorem tick_agrees {x : Bank} {d r : Option BankId} {b : BankId} (h : x.Agrees d r b) : x.tick.Agrees d r b := by
  have of : ∀ f, x.tick.proof = some f → ∃ g, x.proof = some g ∧ f.kind = g.kind ∧ f.before = g.before := fun f m => by
    obtain ⟨g, e, m⟩ := Option.map_eq_some_iff.mp m
    exact ⟨g, e, by rw [← m], by rw [← m]⟩
  refine ⟨?_, fun f m => ?_, ⟨fun ⟨f, m, k⟩ => ?_, fun e => ?_⟩, h.held, fun f m k => ?_, h.refill, h.unawaited⟩
  · have : x.tick.proof.isSome = x.proof.isSome := Option.isSome_map
    rw [this]
    exact h.proving
  · obtain ⟨g, e, _, k⟩ := of f m
    rw [k]
    exact h.before g e
  · obtain ⟨g, e, l, _⟩ := of f m
    exact h.forced.mp ⟨g, e, l ▸ k⟩
  · obtain ⟨g, m, k⟩ := h.forced.mpr e
    exact ⟨_, Option.map_eq_some_iff.mpr ⟨g, m, rfl⟩, k⟩
  · obtain ⟨g, e, l, _⟩ := of f m
    exact h.opportunistic g e (l ▸ k)

theorem tick_linked (h : Linked A none s) : Linked A none s.tick := by
  refine h.of_same (fun b => by rw [tick_bank]; rfl) (fun b => by rw [tick_bank]; rfl) (fun b f m k => ?_) (fun _ => id)
    (fun p => by rw [tick_session]; rfl) (by rw [tick_positions]) rfl rfl
    (fun _ p _ c => by rw [tick_session]; exact ⟨c.phase, c.selects, c.holds, c.resumes⟩)
    (g := fun _ g => (banksAgree_iff _).mpr fun b => by rw [tick_bank]; exact tick_agrees (g.bank b))
  rw [tick_bank] at m ⊢
  obtain ⟨g, e, m⟩ := Option.map_eq_some_iff.mp m
  exact h.forced b g e (by rw [← k, ← m])

/-! ### Expiries -/

variable (p : PosId)

theorem tickExpires_linked (h : Linked A none s) : Linked A none s.tickExpires := by
  unfold tickExpires secondPasses
  have a : Linked A none { s with tenths := s.tenths - 10 } :=
    h.of_same (fun _ => rfl) (fun _ => rfl) h.forced (fun _ => id) (fun _ => rfl) (.refl _) rfl rfl
  exact overdueTest_linked a.site

theorem freshnessExpires_linked (h : Linked A none s) : Linked A none s.freshnessExpires :=
  .ite (fun _ => freshnessRunsOut_linked h) fun _ => h

theorem yieldExpires_linked (h : Linked A none s) : Linked A none s.yieldExpires := .ite (fun _ => yieldRunsOut_linked h) fun _ => h

theorem proofExpires_linked (h : Linked A none s) (b : BankId) : Linked A none (s.proofExpires b) := by
  unfold proofExpires
  split
  · rename_i f e; exact proofRunsOut_linked h e
  · exact h

theorem progressExpires_linked (h : Linked A none s) : Linked A none (s.progressExpires p) := by
  unfold progressExpires
  exact .ite (fun _ => .ite (fun _ => endWith_linked h.monitor p _) fun _ => h.monitor) fun _ => h

theorem ageExpires_linked (h : Linked A none s) : Linked A none (s.ageExpires p) := .ite (fun _ => vehicleLost_linked h p _) fun _ => h

theorem running_of_state {x : Session} (c : x.state = .connecting ∨ x.state = .delivering ∨ x.state = .held) :
    x.running = true := by
  unfold Session.running
  rcases c with e | e | e <;> rw [e]

theorem phaseRuns_running {p : PosId} {f : Phase} (e : s.phaseRuns p f = true) : (s.session p).running = true := by
  unfold phaseRuns at e
  simp only [Bool.and_eq_true, decide_eq_true_eq] at e
  exact running_of_state (.inl e.1.1)

theorem phaseRuns_ready {p : PosId} {f : Phase} (h : Linked A none s) (n : f ≠ .claim) (e : s.phaseRuns p f = true)
    (a : A.coherent) : (s.session p).Ready := by
  unfold phaseRuns at e
  simp only [Bool.and_eq_true, decide_eq_true_eq] at e
  exact (h.coherent a p nofun).ready (by rw [e.1.2]; exact fun c => n (Option.some.inj c)) (by rw [e.1.1]; nofun)

theorem connectExpires_linked (h : Linked A none s) : Linked A none (s.connectExpires p) :=
  .ite (fun e => endConnect_linked h (phaseRuns_running e) fun a _ => phaseRuns_ready h (by decide) e a) fun _ => h

theorem leakCheckExpires_linked (h : Linked A none s) : Linked A none (s.leakCheckExpires p) :=
  .ite (fun e => endLeakCheck_linked h (phaseRuns_running e) (phaseRuns_ready h (by decide) e)) fun _ => h

theorem settleExpires_linked (h : Linked A none s) : Linked A none (s.settleExpires p) :=
  .ite (fun e => connected_linked h (phaseRuns_running e) fun a _ =>
    have k := phaseRuns_ready h (by decide) e a; ⟨k.awaited, k.fresh⟩) fun _ => h

theorem bankWaitExpires_linked (h : Linked A none s) : Linked A none (s.bankWaitExpires p) :=
  .ite (fun _ => endWith_linked h p _) fun _ => h

theorem segmentExpires_linked (h : Linked A none s) : Linked A none (s.segmentExpires p) :=
  .ite (fun e => boundary_linked h e.1) fun _ => h

theorem warmExpires_linked (h : Linked A none s) : Linked A none (s.warmExpires p) :=
  .ite (fun _ => setFactor_linked h.session p _) fun _ => h

theorem resumeExpires_linked (h : Linked A none s) : Linked A none (s.resumeExpires p) :=
  .ite (fun e => resume_linked endNow_links h e.1) fun _ => h

theorem keepExpires_linked (h : Linked A none s) : Linked A none (s.keepExpires p) := .ite (fun e => keepRelease_linked h e.1) fun _ => h

theorem holdLimitExpires_linked (h : Linked A none s) : Linked A none (s.holdLimitExpires p) := by
  unfold holdLimitExpires
  exact .ite (fun _ => endWith_linked h.session p _) fun _ => h

theorem authorizationExpires_linked (h : Linked A none s) : Linked A none (s.authorizationExpires p) := by
  unfold authorizationExpires
  split
  · unfold lifetimeRunsOut
    exact (disarm_linked h p).posted
  · exact h

theorem closingExpires_linked (h : Linked A none s) : Linked A none s.closingExpires := by
  unfold closingExpires
  split
  · rename_i p _ e _; exact serveCloseQueue_linked (completeClosing_linked h.unserving e) fun _ => completeClosing_closes _ _
  · exact h

end State

open State

variable {A : Aspects}

/-! ### The power-on values -/

theorem reset_bank (b : BankId) : State.reset.bank b = Bank.powerOn := Quad.get_fill _ b

theorem poweredOn_linked (s : State) : Linked A none s.poweredOn := by
  have sess : ∀ p, s.poweredOn.session p = Session.idle := reset_session
  have bank : ∀ b, s.poweredOn.bank b = Bank.powerOn := reset_bank
  refine ⟨fun b p => ?_, fun b p => ?_, fun p => ?_, fun b => ?_, fun b => nofun, fun b f m => ?_, .nil,
    fun p m => absurd m List.not_mem_nil, fun p _ => ?_, fun p m => absurd m List.not_mem_nil, .nil, fun p m => ?_,
    fun p m => ?_, fun _ p _ => ?_, fun _ => ?_, fun _ => ?_, ⟨fun p _ m => ?_, fun _ => nofun, fun _ _ => rfl⟩⟩
  · rw [bank, sess]; exact ⟨nofun, nofun⟩
  · rw [bank, sess]; exact ⟨nofun, nofun⟩
  · rw [sess]; exact .inl rfl
  · rw [bank]; exact .nil
  · rw [bank] at m; exact nomatch m
  · rw [sess]; exact ⟨fun _ => ⟨rfl, rfl⟩, rfl⟩
  · rw [sess] at m; exact nomatch m
  · rw [sess] at m; exact nomatch m
  · rw [sess]; exact idle_coherent
  · have e : s.poweredOn.openPositions = [] :=
      List.filter_eq_nil_iff.mpr fun p _ => by rw [sess]; decide
    exact ⟨.nil, fun _ _ m => absurd m List.not_mem_nil, by rw [e]; exact Nat.zero_le _, by rw [e]; exact Nat.zero_le _⟩
  · rw [banksAgree_iff]
    intro b
    rw [bank]
    exact ⟨⟨nofun, nofun⟩, nofun, ⟨nofun, nofun⟩, ⟨nofun, nofun⟩, nofun, ⟨nofun, nofun⟩, fun _ => rfl⟩
  · rw [sess] at m; exact nomatch m

/-! ### Every command and every step -/

theorem readPositionRequest_links (q : PortId) (x : Option Byte) : Handler.Links A (readPositionRequest q x) := by
  cases q <;> cases x <;>
    first | exact readPositionNamed_links _ | exact fun _ h => h

/-- Every request command keeps the agreement. -/
theorem request_links {i : Instr} {f : Frame} {h : Handler} (e : i.request? = some (f, h)) : Handler.Links A h := by
  cases i with
  | readNotices q t => cases e; exact readNotices_links _
  | nozzle p t x => cases e; exact nozzle_links _ _
  | start p t => cases e; exact start_links _
  | stop p t => cases e; exact stop_links _
  | pause p t => cases e; exact pause_links _
  | continueFill p t => cases e; exact continue_links _
  | progress p t x y m => cases e; exact progress_links _ _ _ _
  | finalMeter p t m => cases e; exact finalMeter_links _ _
  | vehicleFrame p t k c v x y m => cases e; exact vehicleFrame_links _ _ _ _ _ _ _
  | readPosition q t x => cases e; exact readPositionRequest_links _ _
  | bankStatus t b a => cases e; exact bankStatus_links _ _
  | coolingCapacity t c => cases e; exact coolingCapacity_links _
  | refillNext t => cases e; exact refillNext_links
  | refillEnd t b => cases e; exact refillEnd_links _
  | emergencyStop q t => cases e; exact emergencyStop_links _
  | readBanks q t => cases e; exact fun _ h => h
  | authorize t p r k a l => cases e; exact authorize_links _ _ _ _ _
  | cancelAuthorization t p r => cases e; exact cancel_links _ _
  | readRecord q t k n => cases e; exact readRecord_links _ _
  | settle t n => cases e; exact settle_links _
  | loadTable t k i l => cases e; exact loadTable_links _ _ _
  | commission t => cases e; exact commission_links
  | enterService t => cases e; exact enterService_links
  | leaveService t => cases e; exact leaveService_links
  | setBand t b => cases e; exact setBand_links _
  | setTariff t i p => cases e; exact setTariff_links _ _
  | setSiteTime t n => cases e; exact fun _ h => links_done (overdueTest_linked h.site)
  | siteReset t => cases e; exact siteReset_links
  | resumeSite t => cases e; exact fun _ h => links_ite (fun _ => links_done (serveAgain_linked h)) fun _ => h
  | clearSuspect t b => cases e; exact clearSuspect_links _
  | readSite t k i j c => cases e; exact readSite_links _ _ _ _
  | readCooling t => cases e; exact fun _ h => h
  | _ => exact nomatch e

theorem linked_of_request {i : Instr} {f : Frame} {h : Handler} (e : i.request? = some (f, h)) {s t : State}
    (c : exec i s = .next t) (k : Linked A none s) : Linked A none t := by
  rw [exec_request e] at c
  cases c
  exact request_linked k f (request_links e)

/-- Every command keeps the agreement. -/
theorem exec_linked {i : Instr} {s t : State} (e : exec i s = .next t) (h : Linked A none s) : Linked A none t := by
  cases i with
  | powerOn => cases e; exact poweredOn_linked s
  | frameDiscarded q l => cases e; exact receiveBytes_linked h _ _
  | byteGapExceeded q l => cases e; exact modPort_linked (receiveBytes_linked h _ _) _ _
  | linkScreenAnswer q t k b => cases e; exact request_linked h _ (handlerOf_links _ _ _)
  | repeatedRequest q t k b => cases e; exact request_linked h _ (handlerOf_links _ _ _)
  | answerSent q => cases e; exact modPort_linked h _ _
  | siteTimeTick => cases e; exact flush_linked (tickExpires_linked h)
  | freshnessTimerExpiry => cases e; exact flush_linked (freshnessExpires_linked h)
  | yieldTimerExpiry => cases e; exact flush_linked (yieldExpires_linked h)
  | proofTimerExpiry b => cases e; exact flush_linked (proofExpires_linked h b)
  | coolingWaitExpiry p => cases e; exact flush_linked (coolingWaitRunsOut_linked h p)
  | progressTimerExpiry p => cases e; exact flush_linked (progressExpires_linked p h)
  | ageTimerExpiry p => cases e; exact flush_linked (ageExpires_linked p h)
  | connectPhaseEnd p => cases e; exact flush_linked (connectExpires_linked p h)
  | leakCheckEnd p => cases e; exact flush_linked (leakCheckExpires_linked p h)
  | settlePhaseEnd p => cases e; exact flush_linked (settleExpires_linked p h)
  | bankWaitExpiry p => cases e; exact flush_linked (bankWaitExpires_linked p h)
  | segmentBoundary p => cases e; exact flush_linked (segmentExpires_linked p h)
  | warmTimerExpiry p => cases e; exact flush_linked (warmExpires_linked p h)
  | resumeTimerExpiry p => cases e; exact flush_linked (resumeExpires_linked p h)
  | keepTimerExpiry p => cases e; exact flush_linked (keepExpires_linked p h)
  | holdLimitExpiry p => cases e; exact flush_linked (holdLimitExpires_linked p h)
  | authorizationExpiry p => cases e; exact flush_linked (authorizationExpires_linked p h)
  | closingTimeout => cases e; exact flush_linked (closingExpires_linked h)
  | _ => exact linked_of_request rfl e h

/-- Every step keeps the agreement. -/
theorem step_linked {s t : State} (e : step s = .next t) (h : Linked A none s) : Linked A none t := by
  rcases step_cases s with ⟨i, r, c, k⟩ | ⟨_, k⟩
  · rw [k] at e
    have a : Linked A none { s with pending := r, choices := c } :=
      h.of_same (fun _ => rfl) (fun _ => rfl) h.forced (fun _ => id) (fun _ => rfl) (.refl _) rfl rfl
    exact exec_linked e a
  · rw [k] at e
    cases e
    exact tick_linked h

theorem step_consistent {s t : State} (e : step s = .next t) (h : Consistent s) : Consistent t :=
  (step_linked e h.bare).consistent

/-- Every step keeps the sessions coherent, while the records agree with them. -/
theorem step_coherent {s t : State} (e : step s = .next t) (h : Consistent s) (k : ∀ p, (s.session p).Coherent) :
    ∀ p, (t.session p).Coherent := fun p =>
  (step_linked e (h.linked (A := { Aspects.none with coherent := True }) (fun _ => k) nofun nofun)).coherent trivial p nofun

/-- Every step keeps the records numbered, while the records agree with the sessions. -/
theorem step_numbered {s t : State} (e : step s = .next t) (h : Consistent s) (k : Numbered s) : Numbered t :=
  (step_linked e (h.linked (A := { Aspects.none with numbered := True }) nofun (fun _ => k) nofun)).numbered trivial

/-- Every step keeps the Bank Manager's records in agreement, while they agree with the sessions. -/
theorem step_agreed {s t : State} (e : step s = .next t) (h : Consistent s) (k : BanksAgree s) : BanksAgree t :=
  (step_linked e (h.linked (A := { Aspects.none with agreed := True }) nofun nofun fun _ => k)).agreed trivial

theorem reset_consistent : Consistent State.reset := (poweredOn_linked (A := .none) State.reset).consistent

theorem reset_coherent (p : PosId) : (State.reset.session p).Coherent :=
  (poweredOn_linked (A := { Aspects.none with coherent := True }) State.reset).coherent trivial p nofun

theorem reset_numbered : Numbered State.reset :=
  (poweredOn_linked (A := { Aspects.none with numbered := True }) State.reset).numbered trivial

theorem reset_agreed : BanksAgree State.reset :=
  (poweredOn_linked (A := { Aspects.none with agreed := True }) State.reset).agreed trivial

end Sys2Proof.Machine
end

