-- ==== Sys2Proof/Laws/Becomes.lean ====
section
/-! SUPPORT. The transitions of a Fill Engine that reach no other session, each as the session record it leaves: HELD,
DELIVERING, and the phases of a connection. -/

namespace Sys2Proof.Machine

set_option Elab.async false

theorem Factors.isEmpty_iff (x : Factors) : x.isEmpty = true ↔ x = Factors.none := by
  cases x with
  | mk a b c d e f =>
    cases a <;> cases b <;> cases c <;> cases d <;> cases e <;> cases f <;> simp [Factors.isEmpty, Factors.none]

theorem Factors.put_same {x : Factors} {f : Factor} (h : x.has f = false) : x.put f false = x := by
  cases f <;> (unfold Factors.has at h; dsimp only at h; unfold Factors.put; dsimp only; rw [← h])

namespace State

theorem modSession_becomes (s : State) (p : PosId) (f : Session → Session) :
    s.modSession p f = s.becomes p (f (s.session p)) := rfl

@[simp] theorem becomes_session (s : State) (p : PosId) (x : Session) : (s.becomes p x).session p = x :=
  Quad.get_set_same _ _ _

@[simp] theorem shows_session (s : State) (p : PosId) (x : Session) : (s.shows p x).session p = x :=
  Quad.get_set_same _ _ _

@[simp] theorem becomes_becomes (s : State) (p : PosId) (x y : Session) : (s.becomes p x).becomes p y = s.becomes p y := by
  unfold becomes
  congr 1
  exact Quad.set_set _ _ _ _

@[simp] theorem becomes_shows (s : State) (p : PosId) (x y : Session) : (s.becomes p x).shows p y = s.shows p y := by
  unfold becomes shows
  congr 1
  exact Quad.set_set _ _ _ _

/-- A record that replaces the one SESSION STATE was posted from. -/
theorem shows_becomes (s : State) (p : PosId) (x y : Session) :
    (s.shows p x).becomes p y = { s.becomes p y with outbox := (s.shows p x).outbox } := by
  unfold becomes shows
  dsimp only
  congr 1
  exact Quad.set_set _ _ _ _

theorem becomes_profileOf (s : State) (p : PosId) (x : Session) (h : x.profile = (s.session p).profile) :
    (s.becomes p x).profileOf p = s.profileOf p := by
  unfold profileOf Session.profileIndex
  rw [becomes_session, h]
  rfl

theorem shows_profileOf (s : State) (p : PosId) (x : Session) (h : x.profile = (s.session p).profile) :
    (s.shows p x).profileOf p = s.profileOf p := by
  unfold profileOf Session.profileIndex
  rw [shows_session, h]
  rfl

/-- What a ceiling is computed from stands in a few fields of the session. -/
theorem becomes_rampCeiling (s : State) (p : PosId) (x : Session) (h : x.profile = (s.session p).profile)
    (b : x.rampBase = (s.session p).rampBase) (a : x.activeTime = (s.session p).activeTime)
    (c : x.fuelClass = (s.session p).fuelClass) : (s.becomes p x).rampCeiling p = s.rampCeiling p := by
  unfold rampCeiling
  dsimp only
  rw [becomes_profileOf s p x h, becomes_session, b, a]
  unfold Session.mawp Session.cls
  rw [c]

theorem becomes_pulseCeiling (s : State) (p : PosId) (x : Session) (h : x.profile = (s.session p).profile)
    (b : x.rampBase = (s.session p).rampBase) (a : x.activeTime = (s.session p).activeTime)
    (c : x.fuelClass = (s.session p).fuelClass) : (s.becomes p x).pulseCeiling p = s.pulseCeiling p := by
  unfold pulseCeiling
  dsimp only
  rw [becomes_profileOf s p x h, becomes_rampCeiling s p x h b a c, becomes_session]
  unfold Session.mawp Session.cls
  rw [c]
  rfl

theorem shows_pulseCeiling (s : State) (p : PosId) (x : Session) (h : x.profile = (s.session p).profile)
    (b : x.rampBase = (s.session p).rampBase) (a : x.activeTime = (s.session p).activeTime)
    (c : x.fuelClass = (s.session p).fuelClass) : (s.shows p x).pulseCeiling p = s.pulseCeiling p :=
  becomes_pulseCeiling s p x h b a c

theorem becomes_post (s : State) (p : PosId) (x : Session) : (s.becomes p x).postSession p = s.shows p x := by
  unfold postSession
  dsimp only
  rw [becomes_session]
  rfl

theorem enterHeld_eq (s : State) (p : PosId) (r : Option Phase) :
    s.enterHeld p r = s.shows p (s.heldAs (s.session p) r) := by
  unfold enterHeld
  dsimp only
  rw [modSession_becomes, becomes_post]
  rfl

theorem rampCeiling_eq (s : State) (p : PosId) :
    s.rampCeiling p = (s.session p).ramp (s.config.profile (s.session p).profileIndex) := rfl

theorem tariffPrice_eq (s : State) (p : PosId) : s.tariffPrice p = s.priceFor (s.session p) := rfl

/-- A session whose connection is finished enters DELIVERING. -/
theorem enterDelivering_eq (s : State) (p : PosId) (k : (s.session p).kind = none) (a : (s.session p).attempt = none)
    (r : (s.session p).resumePoint = none) : s.enterDelivering p = s.shows p (s.deliversAs (s.session p)) := by
  unfold enterDelivering
  dsimp only
  rw [modSession_becomes, becomes_post]
  unfold capture
  rw [shows_session, tariffPrice_eq, shows_session]
  cases h : (s.session p).unitPrice with
  | some v =>
    dsimp only [Session.quiet]
    rw [h]
    dsimp only
    unfold deliversAs Session.quiet
    rw [h, k, a, r, rampCeiling_eq]
    congr 1
  | none =>
    dsimp only [Session.quiet]
    rw [h]
    dsimp only
    rw [modSession_becomes, shows_session, shows_becomes]
    unfold deliversAs Session.quiet
    rw [h, k, a, r, rampCeiling_eq]
    rfl

theorem connected_eq (s : State) (p : PosId) : s.connected p = s.shows p (s.connectedAs (s.session p)) := by
  unfold connected finishConnection
  dsimp only
  rw [modSession_becomes, becomes_session]
  unfold connectedAs
  by_cases c : (s.session p).factors = Factors.none
  · rw [if_pos ((Factors.isEmpty_iff _).mpr c), if_pos c,
      enterDelivering_eq _ _ (by rw [becomes_session]) (by rw [becomes_session]) (by rw [becomes_session]), becomes_shows,
      becomes_session]
    rfl
  · rw [if_neg fun x => c ((Factors.isEmpty_iff _).mp x), if_neg c, enterHeld_eq, becomes_shows, becomes_session]
    rfl

theorem beginLeakCheck_eq (s : State) (p : PosId) : s.beginLeakCheck p = s.becomes p (s.checksAs p (s.session p)) := rfl

/-- A CONNECT phase of a settle interval that is not 0. -/
theorem beginConnect_eq (s : State) (p : PosId) (h : (s.profileOf p).settleInterval ≠ 0) :
    s.beginConnect p = s.becomes p (s.connectsAs p (s.session p)) := if_neg h

/-- A SETTLE phase of a settle interval that is not 0. -/
theorem beginSettle_eq (s : State) (p : PosId) (h : (s.profileOf p).settleInterval ≠ 0) :
    s.beginSettle p = s.becomes p (s.settlesAs p (s.session p)) := if_neg h

theorem enterClaim_eq (s : State) (p : PosId) : (s.enterClaim p).postSession p = s.shows p (s.session p).claims :=
  becomes_post _ _ _

theorem setFactor_eq (s : State) (p : PosId) (f : Factor) :
    s.setFactor p f =
      s.becomes p { s.session p with factors := (s.session p).factors.put f true, resumeTimer := none } := rfl

/-- A factor cleared, where the session does not leave HELD for it. -/
theorem clearFactor_eq (s : State) (endK : Ender) (p : PosId) (f : Factor)
    (h : s.ClearStays (s.session p) ((s.session p).factors.put f false)) :
    s.clearFactor endK p f = s.becomes p (s.afterClear (s.session p) ((s.session p).factors.put f false)) := by
  have same : s.becomes p (s.session p) = s := by
    unfold becomes session
    rw [Quad.set_get]
  unfold clearFactor
  by_cases c : (s.session p).factors.has f = true
  · have ne : (s.session p).factors ≠ (s.session p).factors.put f false := fun e => by
      rw [e] at c
      cases f <;> exact nomatch c
    rw [if_pos c]
    dsimp only
    rw [modSession_becomes, becomes_session]
    by_cases d : (s.session p).state = .held ∧ ((s.session p).factors.put f false).isEmpty = true
    · have em := (Factors.isEmpty_iff _).mp d.2
      rw [if_pos d]
      unfold startResume
      dsimp only
      have z : ((s.becomes p { s.session p with factors := (s.session p).factors.put f false }).profileOf p) = s.profileOf p := by
        unfold profileOf
        rw [becomes_session]
        rfl
      have hd : ¬(s.profileOf p).resumeDelay = 0 := h d.1 em ne
      rw [z, if_neg hd, modSession_becomes, becomes_becomes, becomes_session]
      unfold afterClear
      rw [if_pos ⟨d.1, em, ne⟩]
      rfl
    · rw [if_neg d]
      unfold afterClear
      rw [if_neg fun e => d ⟨e.1, (Factors.isEmpty_iff _).mpr e.2.1⟩]
  · have e : (s.session p).factors.put f false = (s.session p).factors := Factors.put_same (by simpa using c)
    rw [if_neg c, e]
    unfold afterClear
    rw [if_neg fun z => z.2.2 rfl]
    exact same.symm

end State

/-- A change of one session's record that leaves where it stands leaves the agreement of the state. -/
theorem Consistent.becomes {s : State} (h : Consistent s) {p : PosId} {x : Session} (e : x.link = (s.session p).link) :
    Consistent (s.becomes p x) :=
  (h.bare.session (f := fun _ => x) e nofun).consistent

end Sys2Proof.Machine
end

