-- ==== Sys2Proof/Laws/Proving.lean ====
section
/-! SUPPORT. What the proof examinations do (R78, R79): which bank the forced one takes, and what a bank that has become
FREE comes to. -/

namespace Sys2Proof.Machine

set_option Elab.async false

/-- The examination of R78 over any list of banks in increasing number: the overdue one of the greatest age, the first on
a tie. -/
theorem longest_spec (late : BankId → Bool) (age : BankId → Nat) (l : List BankId) (h : l.Pairwise (· < ·)) :
    match (l.filter late).foldl
      (fun best b =>
        match best with
        | none => some b
        | some a => if age a < age b then some b else some a) none with
    | none => ∀ c ∈ l, late c = false
    | some b => b ∈ l ∧ late b = true ∧ ∀ c ∈ l, late c = true → age c < age b ∨ age c = age b ∧ b ≤ c := by
  induction l using List.reverseRecOn with
  | nil => exact fun _ m => absurd m List.not_mem_nil
  | append_singleton l x ih =>
    have k := List.pairwise_append.mp h
    have ih := ih k.1
    rw [List.filter_append, List.foldl_append]
    generalize (l.filter late).foldl
      (fun best b =>
        match best with
        | none => some b
        | some a => if age a < age b then some b else some a) none = r at ih ⊢
    have split : ∀ c, c ∈ l ++ [x] → c ∈ l ∨ c = x := fun c m => (List.mem_append.mp m).imp_right List.mem_singleton.mp
    cases o : late x with
    | false =>
      rw [List.filter_cons_of_neg (by rw [o]; nofun)]
      cases r with
      | none => exact fun c m => (split c m).elim (ih c) fun e => e ▸ o
      | some b =>
        exact ⟨List.mem_append_left _ ih.1, ih.2.1, fun c m v => (split c m).elim (fun n => ih.2.2 c n v) fun e => by
          rw [e, o] at v; exact nomatch v⟩
    | true =>
      rw [List.filter_cons_of_pos o]
      have last : x ∈ l ++ [x] := List.mem_append_right _ (List.mem_singleton.mpr rfl)
      cases r with
      | none =>
        exact ⟨last, o, fun c m v => (split c m).elim (fun n => by rw [ih c n] at v; exact nomatch v) fun e =>
          .inr ⟨e ▸ rfl, e ▸ Fin.le_refl _⟩⟩
      | some a =>
        show match if age a < age x then some x else some a with
          | none => ∀ c ∈ l ++ [x], late c = false
          | some b => b ∈ l ++ [x] ∧ late b = true ∧ ∀ c ∈ l ++ [x], late c = true → age c < age b ∨ age c = age b ∧ b ≤ c
        by_cases g : age a < age x
        · rw [if_pos g]
          refine ⟨last, o, fun c m v => (split c m).elim (fun n => .inl ?_) fun e => .inr ⟨e ▸ rfl, e ▸ Fin.le_refl _⟩⟩
          rcases ih.2.2 c n v with z | z <;> omega
        · rw [if_neg g]
          refine ⟨List.mem_append_left _ ih.1, ih.2.1, fun c m v => (split c m).elim (fun n => ih.2.2 c n v) fun e => ?_⟩
          have lt : a < x := k.2.2 a ih.1 x (List.mem_singleton.mpr rfl)
          rw [e]
          rcases Nat.lt_or_ge (age x) (age a) with z | z
          · exact .inl z
          · exact .inr ⟨by omega, le_of_lt lt⟩

namespace State

/-- The bank whose forced proof R78 makes, as the examination computes it. -/
theorem longestOverdue_spec (s : State) (b : BankId) : s.longestOverdue = some b ↔
    s.isOverdue b = true ∧ ∀ c, s.isOverdue c = true →
      (s.proofAge c).getD 0 < (s.proofAge b).getD 0 ∨ (s.proofAge c).getD 0 = (s.proofAge b).getD 0 ∧ b ≤ c := by
  have k := longest_spec s.isOverdue (fun b => (s.proofAge b).getD 0) fourIds (by decide)
  have e : s.longestOverdue = (fourIds.filter s.isOverdue).foldl
      (fun best b =>
        match best with
        | none => some b
        | some a => if (s.proofAge a).getD 0 < (s.proofAge b).getD 0 then some b else some a) none := rfl
  rw [← e] at k
  have here : ∀ c : BankId, c ∈ fourIds := mem_fourIds
  refine ⟨fun f => ?_, fun f => ?_⟩
  · rw [f] at k
    exact ⟨k.2.1, fun c => k.2.2 c (here c)⟩
  · cases g : s.longestOverdue with
    | none =>
      rw [g] at k
      have := k b (here b)
      rw [f.1] at this
      exact nomatch this
    | some a =>
      rw [g] at k
      have x : (s.proofAge b).getD 0 < (s.proofAge a).getD 0 ∨ (s.proofAge b).getD 0 = (s.proofAge a).getD 0 ∧ a ≤ b :=
        k.2.2 b (here b) f.1
      have y := f.2 a k.2.1
      congr 1
      apply Fin.ext
      rw [Fin.le_def] at x y
      omega

theorem longestOverdue_none (s : State) (h : s.longestOverdue = none) (c : BankId) : s.isOverdue c = false := by
  have k := longest_spec s.isOverdue (fun b => (s.proofAge b).getD 0) fourIds (by decide)
  have e : s.longestOverdue = (fourIds.filter s.isOverdue).foldl
      (fun best b =>
        match best with
        | none => some b
        | some a => if (s.proofAge a).getD 0 < (s.proofAge b).getD 0 then some b else some a) none := rfl
  rw [← e, h] at k
  exact k c (mem_fourIds c)

/-- What the forced examination does: nothing, when no bank is taken; otherwise the bank taken is held for its proof. -/
theorem forcedExamination_cases (s : State) :
    (s.forcedExamination = s ∧ ∀ b, ¬s.TakesForced b)
      ∨ ∃ b, s.TakesForced b ∧ (∀ c, s.TakesForced c → c = b)
        ∧ s.forcedExamination = (s.modBank b fun _ => s.forcedBank b).modBm fun m => { m with designation := some b } := by
  have only : ∀ b c, s.longestOverdue = some b → s.TakesForced c → c = b := fun b c e t => by
    have := (s.longestOverdue_spec c).mpr ⟨t.2.2.2.2.1, t.2.2.2.2.2⟩
    rw [e] at this
    exact (Option.some.inj this).symm
  unfold forcedExamination
  by_cases g : s.site.mode ≠ .unconfigured ∧ s.bm.freshness = .fresh ∧ s.bm.designation = none
  · rw [if_pos g]
    cases e : s.longestOverdue with
    | none =>
      refine .inl ⟨rfl, fun b t => ?_⟩
      have := s.longestOverdue_none e b
      rw [t.2.2.2.2.1] at this
      exact nomatch this
    | some b =>
      dsimp only
      by_cases f : (s.bank b).holder = .free
      · rw [if_pos f]
        have k := (s.longestOverdue_spec b).mp e
        refine .inr ⟨b, ⟨g.1, g.2.1, g.2.2, f, k.1, k.2⟩, fun c => only b c e, ?_⟩
        have two : ∀ f g : Bank → Bank, (s.modBank b f).modBank b g = s.modBank b (g ∘ f) := fun f g => by
          unfold modBank
          simp
        by_cases p : (s.bank b).proofState = .proving
        · rw [if_pos p]
          unfold forceProof designate
          rw [two]
          unfold forcedBank modBank
          rw [if_pos p]
          rfl
        · rw [if_neg p]
          unfold beginProof designate
          rw [two]
          unfold forcedBank provingBank modBank
          rw [if_neg p]
          rfl
      · rw [if_neg f]
        exact .inl ⟨rfl, fun c t => f (only b c e t ▸ t.2.2.2.1)⟩
  · rw [if_neg g]
    exact .inl ⟨rfl, fun b t => g ⟨t.1, t.2.1, t.2.2.1⟩⟩

/-- What an opportunistic examination does. -/
theorem opportunisticExamination_eq (s : State) (b : BankId) :
    (s.TakesOpportunistic b → s.opportunisticExamination b = s.modBank b fun _ => s.provingBank b .opportunistic)
      ∧ (¬s.TakesOpportunistic b → s.opportunisticExamination b = s) := by
  have due : s.dueForProof b = true ↔ (s.bank b).proofState = .unproven
      ∨ (s.bank b).proofState = .proven ∧ s.config.param 15 / 2 < (s.proofAge b).getD 0 := by
    unfold dueForProof
    cases (s.bank b).proofState with
    | proven =>
      simp only [SiteConfig.proofPeriod, reduceCtorEq, false_or, true_and]
      exact decide_eq_true_iff
    | unproven => simp
    | proving => simp
    | suspect => simp
  unfold opportunisticExamination
  refine ⟨fun t => ?_, fun n => ?_⟩
  · rw [if_pos ⟨t.1, t.2.1, t.2.2.1, t.2.2.2.1, due.mpr t.2.2.2.2⟩]
    rfl
  · exact if_neg fun t => n ⟨t.1, t.2.1, t.2.2.1, t.2.2.2.1, due.mp t.2.2.2.2⟩

/-- The designated bank's own record after its forced proof has been made. -/
theorem designated_same (s : State) (c : BankId) (x : Bank) (d : Option BankId) :
    ((s.modBank c fun _ => x).modBm fun m => { m with designation := d }).bank c = x := by
  show (s.modBank c fun _ => x).bank c = x
  exact modBank_bank_same s c _

/-- … and every other bank's. -/
theorem designated_ne (s : State) {b c : BankId} (x : Bank) (d : Option BankId) (h : b ≠ c) :
    ((s.modBank c fun _ => x).modBm fun m => { m with designation := d }).bank b = s.bank b := by
  show (s.modBank c fun _ => x).bank b = s.bank b
  exact modBank_bank_ne s _ h

/-- Another bank's record does not matter to whether an opportunistic proof begins. -/
theorem takesOpportunistic_forced (s : State) {b c : BankId} (x : Bank) (d : Option BankId) (h : b ≠ c) :
    ((s.modBank c fun _ => x).modBm fun m => { m with designation := d }).TakesOpportunistic b ↔ s.TakesOpportunistic b := by
  have e : ((s.modBank c fun _ => x).modBm fun m => { m with designation := d }).bank b = s.bank b := by
    show (s.modBank c fun _ => x).bank b = _
    rw [modBank_bank_ne _ _ h]
  unfold TakesOpportunistic proofAge proofBase
  dsimp only
  rw [e]
  rfl

/-- A bank that has become FREE is examined for a proof (R78, R79). -/
theorem becameFree_examined (s : State) (b : BankId) : Examined s (s.becameFree b) [b] := by
  unfold becameFree
  rcases s.forcedExamination_cases with ⟨e, n⟩ | ⟨c, t, only, e⟩
  · rw [e]
    by_cases o : s.TakesOpportunistic b
    · rw [(s.opportunisticExamination_eq b).1 o]
      refine ⟨fun d t => absurd t (n d), fun d _ m _ => ?_, fun d _ m => ?_, fun _ => rfl, rfl, rfl⟩
      · rw [List.mem_singleton.mp m, modBank_bank_same]
      · exact modBank_bank_ne _ _ fun k : d = b => m ⟨List.mem_singleton.mpr k, k ▸ o⟩
    · rw [(s.opportunisticExamination_eq b).2 o]
      exact ⟨fun d t => absurd t (n d), fun d _ m t => absurd (List.mem_singleton.mp m ▸ t) o, fun _ _ _ => rfl, fun _ => rfl,
        rfl, rfl⟩
  · rw [e]
    by_cases bc : b = c
    · have no : ¬((s.modBank c fun _ => s.forcedBank c).modBm fun m => { m with designation := some c }).TakesOpportunistic b := by
        intro o
        have o := o.2.2.1
        have : ((s.modBank c fun _ => s.forcedBank c).bank b).holder = .free := o
        rw [bc, modBank_bank_same] at this
        unfold forcedBank at this
        split at this <;> exact nomatch this
      rw [(opportunisticExamination_eq _ b).2 no]
      refine ⟨fun d x => ?_, fun d x m _ => ?_, fun d x _ => ?_, fun x => absurd t (x c), rfl, rfl⟩
      · rw [only d x]
        exact ⟨designated_same _ _ _ _, rfl⟩
      · rw [List.mem_singleton.mp m, bc] at x
        exact absurd t x
      · exact designated_ne s _ _ fun k : d = c => x (k ▸ t)
    · have same := takesOpportunistic_forced s (s.forcedBank c) (some c) bc
      by_cases o : s.TakesOpportunistic b
      · rw [(opportunisticExamination_eq _ b).1 (same.mpr o)]
        have pb : ((s.modBank c fun _ => s.forcedBank c).modBm fun m => { m with designation := some c }).provingBank b
            .opportunistic = s.provingBank b .opportunistic := by
          have e : ((s.modBank c fun _ => s.forcedBank c).modBm fun m => { m with designation := some c }).bank b = s.bank b :=
            designated_ne s _ _ bc
          unfold provingBank
          rw [e]
          rfl
        rw [pb]
        refine ⟨fun d x => ?_, fun d x m _ => ?_, fun d x m => ?_, fun x => absurd t (x c), rfl, rfl⟩
        · rw [only d x]
          refine ⟨?_, rfl⟩
          rw [modBank_bank_ne _ _ (Ne.symm bc)]
          exact designated_same s _ _ _
        · rw [List.mem_singleton.mp m, modBank_bank_same]
        · rw [modBank_bank_ne _ _ fun k : d = b => m ⟨List.mem_singleton.mpr k, k ▸ o⟩]
          exact designated_ne s _ _ fun k : d = c => x (k ▸ t)
      · rw [(opportunisticExamination_eq _ b).2 fun x => o (same.mp x)]
        refine ⟨fun d x => ?_, fun d _ m x => absurd (List.mem_singleton.mp m ▸ x) o, fun d x _ => ?_,
          fun x => absurd t (x c), rfl, rfl⟩
        · rw [only d x]
          exact ⟨designated_same _ _ _ _, rfl⟩
        · exact designated_ne s _ _ fun k : d = c => x (k ▸ t)

end State

end Sys2Proof.Machine
end

