-- ==== Sys2Proof/Laws/Releases.lean ====
section
/-! SUPPORT. What a release of a claim comes to (R62, R65, R127): the record of the session that gives the bank back, and
the bank handed to the head of its wait queue or FREE and examined. -/

namespace Sys2Proof.Machine

set_option Elab.async false

/-- What an event of the Fill Engines and the Bank Manager that ends no session leaves alone. -/
theorem Steady.undisturbed {s t : State} (h : Steady s t) : Undisturbed s t :=
  ⟨h.pending, h.tenths, h.ports, h.site, h.capacity, h.slots, h.tariff, ⟨h.freshness, h.freshnessTimer⟩, h.ambient,
    h.reports, h.monitors, h.sessions, h.posts.imp fun _ e => e.symm, h.records.imp fun _ e => e.symm⟩

namespace State

variable {A : Aspects} {x : Option PosId} {s : State} {p : PosId} {b : BankId}

/-- The record that holds a granted bank, before its CLAIM phase ends. -/
theorem claimGranted_eq (s : State) (b : BankId) (p : PosId) :
    s.claimGranted b p = (s.becomes p (s.grantedAs b (s.session p))).endClaim p := by
  unfold claimGranted
  dsimp only
  congr 1
  unfold snapshotClaim setFactor
  dsimp only
  rw [modSession_becomes, modSession_becomes, becomes_session, becomes_becomes]
  unfold grantedAs
  by_cases c : s.bm.freshness = .stale
  · refine (if_pos c).trans ?_
    rw [modSession_becomes, becomes_session, becomes_becomes]
    simp only [c, if_true]
    rfl
  · refine (if_neg c).trans ?_
    simp only [c, if_false]
    rfl

/-- A CLAIM phase ends, where no settle interval of 0 ends the next phase at once. -/
theorem endClaim_session (s : State) (p : PosId)
    (h : (s.profileOf p).settleInterval ≠ 0 ∨ (s.session p).factors ≠ Factors.none) :
    (s.endClaim p).session p = s.afterClaim p (s.session p) := by
  unfold endClaim afterClaim
  dsimp only
  by_cases c : (s.session p).factors = Factors.none
  · rw [if_pos ((Factors.isEmpty_iff _).mpr c), if_pos c]
    have n := h.resolve_right fun k => k c
    by_cases k : (s.session p).kind = some .switch
    · rw [if_pos (by rw [k]; rfl), if_pos k, beginSettle_eq _ _ n, becomes_session]
    · rw [if_neg k, if_neg, beginConnect_eq _ _ n, becomes_session]
      cases e : (s.session p).kind with
      | none => nofun
      | some y => cases y with
        | switch => exact absurd e k
        | first => nofun
        | reconnect => nofun
  · rw [if_neg fun e => c ((Factors.isEmpty_iff _).mp e), if_neg c, enterHeld_eq, shows_session]
    congr 2
    cases e : (s.session p).kind with
    | none => rfl
    | some y => cases y <;> rfl

/-- What the record after a CLAIM phase is computed from, beside the session. -/
theorem afterClaim_congr {t : State} (e : t.site = s.site) (m : t.monitors = s.monitors)
    (x : t.session p = s.session p) (y : Session) : t.afterClaim p y = s.afterClaim p y := by
  have c : t.config = s.config := by unfold config; rw [e]
  have f : t.profileOf p = s.profileOf p := by unfold profileOf; rw [x, c]
  have n : t.nozzlePressure p = s.nozzlePressure p := by unfold nozzlePressure monitor; rw [m]
  have r : t.rampCeiling p = s.rampCeiling p := by unfold rampCeiling; rw [x, f]
  have u : t.pulseCeiling p = s.pulseCeiling p := by unfold pulseCeiling; rw [x, f, n, r, c]
  unfold afterClaim settlesAs connectsAs heldAs
  rw [f, u, c]

/-- The record of a session that has just come to hold a bank. -/
theorem claimGranted_session (s : State) (b : BankId) (p : PosId)
    (h : (s.profileOf p).settleInterval ≠ 0 ∨ (s.grantedAs b (s.session p)).factors ≠ Factors.none) :
    (s.claimGranted b p).session p = s.afterClaim p (s.grantedAs b (s.session p)) := by
  have f : (s.becomes p (s.grantedAs b (s.session p))).profileOf p = s.profileOf p := becomes_profileOf s p _ rfl
  have u : (s.becomes p (s.grantedAs b (s.session p))).pulseCeiling p = s.pulseCeiling p :=
    becomes_pulseCeiling s p _ rfl rfl rfl rfl
  have c : (s.becomes p (s.grantedAs b (s.session p))).config = s.config := rfl
  rw [claimGranted_eq, endClaim_session _ _ (by rw [f, becomes_session]; exact h), becomes_session]
  unfold afterClaim settlesAs connectsAs heldAs
  rw [f, u, c]

/-- A release of a claim (R62, R65). -/
theorem releaseClaim_releases (h : Linked A x s) (c : x = none ∨ x = some p) (e : (s.session p).bank = some b) :
    Releases s (s.releaseClaim p) p b := by
  have l := releaseClaim_linked h c
  have sp := releaseClaim_session h e
  have st := releaseClaim_steady s p
  have ap := releaseClaim_apart s p
  rw [releaseClaim_eq h e] at l sp st ap ⊢
  have mine : (s.modSession p (s.released b)).bank b = s.bank b := rfl
  refine ⟨fun q => ?_, fun q rest k => ?_⟩
  · have off : (s.modSession p (s.released b)).handOff b
        = (s.modSession p (s.released b)).modBank b fun y => { y with holder := .free } := by
      unfold handOff
      rw [mine, q]
    have on : (s.modSession p (s.released b)).handOn b
        = ((s.modSession p (s.released b)).modBank b fun y => { y with holder := .free }).becameFree b := by
      unfold handOn
      rw [off]
      dsimp only
      rw [if_pos (by rw [modBank_bank_same])]
    rw [on]
    exact becameFree_examined _ b
  · have off : (s.modSession p (s.released b)).handOff b
        = ((s.modSession p (s.released b)).modBank b fun y => { y with holder := .position q, queue := rest }).claimGranted b q := by
      unfold handOff
      rw [mine, k]
    have bm := claimGranted_bm
      ((s.modSession p (s.released b)).modBank b fun y => { y with holder := .position q, queue := rest }) b q
    have at_b : (((s.modSession p (s.released b)).modBank b fun y =>
        { y with holder := .position q, queue := rest }).claimGranted b q).bank b
          = { s.bank b with holder := .position q, queue := rest } := by
      unfold bank
      rw [bm]
      exact modBank_bank_same (s.modSession p (s.released b)) b fun y => { y with holder := .position q, queue := rest }
    have on : (s.modSession p (s.released b)).handOn b
        = ((s.modSession p (s.released b)).modBank b fun y => { y with holder := .position q, queue := rest }).claimGranted b q := by
      unfold handOn
      rw [off]
      dsimp only
      rw [if_neg (by rw [at_b]; nofun)]
    rw [on] at l sp st ap ⊢
    have aw : (s.session q).awaited = some b := (h.queued b q).mp (by rw [k]; exact List.mem_cons_self)
    have pq : q ≠ p := fun n => by
      rw [n] at aw
      rcases h.sole p with z | z
      · rw [e] at z; exact nomatch z
      · rw [aw] at z; exact nomatch z
    have sq : ((s.modSession p (s.released b)).modBank b fun y => { y with holder := .position q, queue := rest }).session q
        = s.session q := modSession_session_ne _ _ pq
    have holds := (l.held b q).mp (by rw [at_b])
    refine ⟨⟨by rw [at_b], ⟨holds, (l.sole q).resolve_left (by rw [holds]; nofun)⟩, fun z => ?_⟩, by rw [at_b], sp,
      fun z zp zq => ?_, st.undisturbed, fun d n => ?_, by rw [bm]; rfl, ap.cbu, ap.sales⟩
    · have f : ((s.modSession p (s.released b)).modBank b fun y => { y with holder := .position q, queue := rest }).profileOf q
          = s.profileOf q := by unfold profileOf; rw [sq]; rfl
      have g : ((s.modSession p (s.released b)).modBank b fun y =>
          { y with holder := .position q, queue := rest }).grantedAs b (s.session q) = s.grantedAs b (s.session q) := by
        unfold grantedAs
        rw [modBank_bank_same]
        rfl
      rw [claimGranted_session _ _ _ (by rw [f, sq, g]; exact z), sq, g]
      exact afterClaim_congr (s := s) (p := q)
        (t := (s.modSession p (s.released b)).modBank b fun y => { y with holder := .position q, queue := rest }) rfl rfl sq _
    · exact Eq.trans (claimGranted_spares (Ne.symm zq) _ b).1 (modSession_session_ne _ _ zp)
    · unfold bank
      rw [bm]
      exact modBank_bank_ne (s.modSession p (s.released b)) _ n

end State

end Sys2Proof.Machine
end

