-- ==== Sys2Proof/Laws/Ends.lean ====
section
/-! SUPPORT. What the end of a session comes to (R148): its record, what it gives back, the waiters granted after it, and
its place in the close queue. -/

namespace Sys2Proof.Machine

set_option Elab.async false

namespace State

variable {s : State} {p : PosId} {r : EndReason}

theorem marked_eq (s : State) (p : PosId) (r : EndReason) :
    (s.session p).markEnded r s.site.siteTime (s.endingNozzle p) = s.markedAs p r := by
  have n : s.endingNozzle p = (s.monitor p).pressure.getD ((s.session p).lastNozzle.getD 0) := by
    unfold endingNozzle
    cases (s.monitor p).pressure <;> rfl
  rw [n]
  rfl

theorem endedSession_eq (s : State) (p : PosId) (r : EndReason) : s.endedSession p r = s.endedAs p r := by
  have k : ∀ y : Session, y.bankWaitTimer = none →
      ({ (match y.awaited with
          | some _ => { y with awaited := none, bankWaitTimer := none }
          | none => y) with cooling := .noCooling } : Session) = { y with awaited := none, cooling := .noCooling } := fun y h => by
    cases e : y.awaited with
    | none => dsimp only; rw [e]
    | some c => dsimp only; rw [h]
  unfold endedSession endedAs
  rw [marked_eq]
  refine (k _ ?_).trans ?_
  · split <;> rfl
  · have b : (s.markedAs p r).bank = (s.session p).bank := rfl
    cases e : (s.session p).bank with
    | none => rw [e] at b; rw [b]
    | some c => rw [e] at b; rw [b]; rfl

/-- A position that stands in a wait queue leaves it, its session already marked as ended. -/
theorem marked_waits {b : BankId} (a : (s.session p).awaited = some b) {v : State}
    (e : v = (s.becomes p (s.markedAs p r)).leaveQueue p) :
    v = { s.becomes p { s.markedAs p r with awaited := none } with
        bm :=
          { s.bm with
            banks := s.bm.banks.set b { s.bank b with queue := (s.bank b).queue.filter (· ≠ p) }
            yieldTimer := v.bm.yieldTimer } }
      ∧ ((∃ c, s.bm.refillInFlight = some c ∧ (v.bank c).queue = []) → v.bm.yieldTimer = none)
      ∧ ((∀ c, s.bm.refillInFlight = some c → (v.bank c).queue ≠ []) → v.bm.yieldTimer = s.bm.yieldTimer) := by
  let u : State := { s.becomes p { s.markedAs p r with awaited := none } with
    bm := { s.bm with banks := s.bm.banks.set b { s.bank b with queue := (s.bank b).queue.filter (· ≠ p) } } }
  have k : v = u.settleYield := by
    rw [e]
    unfold leaveQueue
    have aw : ((s.becomes p (s.markedAs p r)).session p).awaited = some b := by rw [becomes_session]; exact a
    rw [aw]
    dsimp only
    rw [modSession_becomes]
    have q : (s.bank b).queue.filter (fun q => q != p) = (s.bank b).queue.filter (· ≠ p) :=
      List.filter_congr fun w _ => by by_cases e : w = p <;> simp [e]
    have m : (s.becomes p (s.markedAs p r)).modBank b (fun x => { x with queue := x.queue.filter fun q => q != p })
        = { s.becomes p (s.markedAs p r) with
            bm := { s.bm with banks := s.bm.banks.set b { s.bank b with queue := (s.bank b).queue.filter (· ≠ p) } } } := by
      rw [← q]
      rfl
    rw [m]
    congr 1
    have z : ({ s.becomes p (s.markedAs p r) with
        bm := { s.bm with banks := s.bm.banks.set b { s.bank b with queue := (s.bank b).queue.filter (· ≠ p) } } } : State).session p
        = s.markedAs p r := becomes_session s p _
    rw [z]
    unfold becomes
    dsimp only
    rw [Quad.set_set]
    rfl
  have bank : ∀ c, v.bank c = u.bank c := fun c => by
    rw [k]
    unfold settleYield
    split
    · split <;> rfl
    · rfl
  have ub : u.bm.refillInFlight = s.bm.refillInFlight := rfl
  refine ⟨?_, fun ⟨c, f, n⟩ => ?_, fun n => ?_⟩
  · rw [k]
    unfold settleYield
    split
    · split <;> rfl
    · rfl
  · rw [bank] at n
    rw [k]
    unfold settleYield
    rw [ub, f]
    dsimp only
    rw [if_pos (by rw [n]; rfl)]
    rfl
  · rw [k]
    unfold settleYield
    rw [ub]
    split
    · rename_i c f
      have := n c f
      rw [bank] at this
      rw [if_neg fun e => this (List.isEmpty_iff.mp e)]
    · rfl

/-- What a session that is being ended gives back before its cooling. -/
theorem marked_givesBack (h : Linked .none none s) (run : (s.session p).running = true) :
    GivesBack s (((s.modSession p fun x => x.markEnded r s.site.siteTime (s.endingNozzle p)).releaseClaim p).leaveQueue p)
      p r := by
  have l := marked_linked h run r
  have e : (s.modSession p fun x => x.markEnded r s.site.siteTime (s.endingNozzle p)) = s.becomes p (s.markedAs p r) := by
    rw [modSession_becomes, marked_eq]
  rw [e] at l ⊢
  have mine : (s.becomes p (s.markedAs p r)).session p = s.markedAs p r := becomes_session _ _ _
  have bk : ((s.becomes p (s.markedAs p r)).session p).bank = (s.session p).bank := by rw [mine]; rfl
  have aw : ((s.becomes p (s.markedAs p r)).session p).awaited = (s.session p).awaited := by rw [mine]; rfl
  refine ⟨fun b c => ?_, fun b c a => ?_, fun c a => ?_⟩
  · have k := releaseClaim_releases l (.inr rfl) (bk.trans c)
    have z : (((s.becomes p (s.markedAs p r)).releaseClaim p).session p).awaited = none := by
      rw [releaseClaim_session l (bk.trans c)]
      exact aw.trans ((h.sole p).resolve_left (by rw [c]; nofun))
    rw [leaveQueue_none z]
    exact k
  · rw [releaseClaim_none (bk.trans c)]
    exact marked_waits a rfl
  · rw [releaseClaim_none (bk.trans c), leaveQueue_none (aw.trans a)]

/-- Where the head does not fit, no waiter is granted. -/
theorem grantWaiters_none {endK : Ender} (h : HeadWaits s.cbu.capacity s.granted s.cbu.queue) : s.grantWaiters endK = s := by
  unfold grantWaiters
  cases s.cbu.queue.length with
  | zero => rfl
  | succ n =>
    unfold grantFromHead
    split
    · rfl
    · rename_i w rest e
      exact if_pos (h w rest e)

/-- The lists of the Cooling Budget Unit and of the Sales Unit agree between two events. -/
theorem ready_of (h : Consistent s) : Ready s where
  listed := h.listed
  served := h.served
  unmassed e q := by
    by_contra c
    rcases h.massed q (Option.isSome_iff_ne_none.mpr c) with m | m
    · have := h.filed q m
      rw [h.served e] at this
      exact nomatch this
    · have := h.registered q m
      rw [e] at this
      exact nomatch this

/-- The end of a session that runs, in a state in agreement. -/
theorem endWith_Ends (h : Consistent s) (run : (s.session p).running = true) (r : EndReason) :
    Ends s (s.endWith p r) p r := by
  have hE : (endSession 3).Links (Aspects.none.unfiling p) := endSession_links 3
  have hL : ∀ q, (endSession 3).LeavesOthers q := fun q => endSession_leaves q 3
  obtain ⟨lw, aw, mine⟩ := endSteps_linked hE hL h.bare run r
  rw [endedSession_eq] at mine
  obtain ⟨more, taken, rest, c, sub, un, hw⟩ :=
    endSteps_course (endSession_ensues [p] 3) (p := p) (ready_of h) r (.inr (List.mem_singleton.mpr rfl))
  have give := marked_givesBack (r := r) h.bare run
  have lt : Consistent (s.endWith p r) := (endWith_linked h.bare p r).consistent
  have shape : s.endWith p r = (s.endSteps (endSession 3) p r).joinCloseQueue p := if_pos run
  have others : LeavesOthers s (s.endWith p r) p := fun q n a => (endWith_leaves s r (Ne.symm n) a).2.1
  have nf : (s.session p).finalMass = none := by
    by_contra c
    exact Session.running_state run (h.massed p (Option.isSome_iff_ne_none.mpr c))
  have st := endSteps_steady (endSession_steady 3) s p r
  have join : Joins p (s.endSteps (endSession 3) p r) ((s.endSteps (endSession 3) p r).joinCloseQueue p) :=
    joinCloseQueue_joins (lw.shelved.served id) fun _ => (Session.fixed_finalMass (st.sessions p nf)).trans nf
  have reason : (s.endedAs p r).endReason = some r := by
    unfold endedAs
    cases (s.session p).bank <;> rfl
  have ref : (s.endedAs p r).reference = (s.session p).reference := by
    unfold endedAs Session.reference
    cases (s.session p).bank <;> rfl
  have state : (s.endedAs p r).state = .ended := by
    unfold endedAs
    cases (s.session p).bank <;> rfl
  have ended : EndsWith s (s.endWith p r) p r := by
    have shown : Notice.sessionState p .ended (some r) (s.session p).reference ∈ (s.endSteps (endSession 3) p r).outbox := by
      have : Notice.sessionState p ((s.endSteps (endSession 3) p r).session p).state
          ((s.endSteps (endSession 3) p r).session p).endReason
          ((s.endSteps (endSession 3) p r).session p).reference ∈ (s.endSteps (endSession 3) p r).outbox :=
        List.mem_append_right _ (List.mem_singleton.mpr rfl)
      rw [mine, state, reason, ref] at this
      exact this
    rw [shape]
    by_cases f : (s.endSteps (endSession 3) p r).sales.register = none
    · have k := join.takes f
      rw [mine] at k
      refine ⟨by rw [k.1], .inr ⟨by rw [k.1], (join.free f).1, (join.free f).2.2.trans (by rw [st.param]), ?_⟩,
        join.steady.posts.subset shown⟩
      rw [← ref, ← reason]
      exact k.2
    · have k := join.waits f
      rw [mine] at k
      exact ⟨by rw [k.1], .inl ⟨by rw [k.1]; exact state, k.2⟩, join.steady.posts.subset shown⟩
  rw [shape] at ended lt others ⊢
  refine ⟨ended, ⟨_, give, ?_, fun g => ?_⟩, ⟨taken, rest, more, ?_⟩, others, ?_⟩
  · intro q n a
    have k := leaveCooling_leaves (hL q)
      (((s.modSession p fun x => x.markEnded r s.site.siteTime (s.endingNozzle p)).releaseClaim p).leaveQueue p) (q := p)
    have k := (k.session (f := fun x => { x with cooling := .noCooling }) (Ne.symm n)).trans (postSession_leaves _ (q := p))
    exact ((k.trans (joinCloseQueue_leaves _ (Ne.symm n))) a).2.1
  · have ap := (releaseClaim_apart (s.modSession p fun x => x.markEnded r s.site.siteTime (s.endingNozzle p)) p).trans
      (leaveQueue_apart _ p)
    have steps : s.endSteps (endSession 3) p r
        = (((((s.modSession p fun x => x.markEnded r s.site.siteTime (s.endingNozzle p)).releaseClaim p).leaveQueue
            p).leaveCooling (endSession 3) p).modSession p fun x => { x with cooling := .noCooling }).postSession p := rfl
    rw [join.bm]
    have away : ∀ q, q ≠ p → ((s.endSteps (endSession 3) p r).joinCloseQueue p).session q
        = (s.endSteps (endSession 3) p r).session q := join.others
    generalize ((s.modSession p fun x => x.markEnded r s.site.siteTime (s.endingNozzle p)).releaseClaim p).leaveQueue p = v at ap steps ⊢
    have cbu : v.cbu = s.cbu := ap.cbu
    obtain ⟨w, cw, _, sw, bw, _, _, _, un, li⟩ :=
      leaveCooling_split (s := v) (p := p) (by rw [cbu]; exact h.listed) (endSession 3)
    have same : (v.leaveCooling (endSession 3) p).bm = v.bm ∧ (v.leaveCooling (endSession 3) p).sessions = v.sessions := by
      by_cases m : p ∈ v.cbu.positions
      · have hw : HeadWaits w.cbu.capacity w.granted w.cbu.queue := by
          have g := g.resolve_left fun n => n (by rw [← cbu]; exact m)
          unfold granted
          rw [cw, cbu]
          unfold without
          dsimp only
          rw [show (s.cbu.grants.filter fun g => g.pos != p) = s.cbu.grants.filter (·.pos ≠ p) from
              List.filter_congr fun w _ => by by_cases e : w.pos = p <;> simp [e],
            show (s.cbu.queue.filter fun w => w.pos != p) = s.cbu.queue.filter (·.pos ≠ p) from
              List.filter_congr fun w _ => by by_cases e : w.pos = p <;> simp [e]]
          exact g
        rw [li m, grantWaiters_none hw]
        exact ⟨bw, sw⟩
      · rw [un m]
        exact ⟨bw, sw⟩
    refine ⟨by rw [steps]; exact same.1, fun q n => ?_⟩
    rw [away q n, steps]
    show ((v.leaveCooling (endSession 3) p).modSession p fun x => { x with cooling := .noCooling }).session q = v.session q
    rw [modSession_session_ne _ _ n]
    unfold session
    rw [same.2]
  · have once : p ∉ more := fun m => by
      have k := lt.closingOnce
      rw [c.joined] at k
      exact List.disjoint_of_nodup_append ((List.sublist_append_right _ _).nodup k) m (List.mem_singleton.mpr rfl)
    exact ⟨⟨c.queue, c.left⟩, c.grants, fun n => (un n).1, hw, c.demand, c.told,
      fun q m => ⟨fun e => once (e ▸ m), sub q m, c.reasons q (List.mem_append_left _ m) fun k =>
        once (List.mem_singleton.mp k ▸ m)⟩,
      by rw [c.joined, List.append_assoc], fun f => ⟨(c.free f).1, (c.free f).2.1 (by simp)⟩, c.busy, c.records⟩
  · exact (st.trans join.steady).undisturbed

end State

end Sys2Proof.Machine
end

