-- ==== Sys2Proof/Laws/Requests.lean ====
section
/-! SUPPORT. How a port takes a request that is none of its repeats: the block that owns it acts as it would on the port
LISTENING, and the port answers (R2, R5, R7). -/

namespace Sys2Proof.Machine

set_option Elab.async false

/-- The port of a frame is TAKING it (R2). -/
def State.taking (s : State) (f : Frame) : State := s.modPort f.port fun x => { x with exchange := .taking }

namespace State

theorem ext_ports {s t : State} (h : { s with ports := t.ports } = t) (p : ∀ q, s.port q = t.port q) : s = t := by
  have e : s.ports = t.ports := Ports.ext_get p
  rw [← h, ← e]

/-- That a port was TAKING is not seen once it answers. -/
theorem taking_answer (s : State) (f : Frame) (r : Reply) :
    (s.taking f).flush.answerOwner f r = s.flush.answerOwner f r := by
  refine ext_ports rfl fun q => ?_
  unfold answerOwner
  rw [modPort_port, modPort_port, flush_port, flush_port, flush_port, flush_port]
  unfold taking
  by_cases e : q = f.port
  · rw [if_pos e, if_pos e, modPort_port_same]
    rfl
  · rw [if_neg e, if_neg e, modPort_port_ne _ _ e]
    rfl

/-- What a request does whose owner, on a port TAKING, leaves a state as it would on the port as it stood. -/
theorem serve_of {s t : State} {f : Frame} {h : Handler} {r : Reply} (e : h (s.taking f) = (t.taking f, r)) :
    s.serve f h = t.flush.answerOwner f r := by
  unfold serve
  show (h (s.taking f)).1.flush.answerOwner f (h (s.taking f)).2 = _
  rw [e]
  exact taking_answer t f r

/-- A request taken anew is passed to its owner (R2, R7). -/
theorem request_serve {s : State} {f : Frame} (k : Takes s f) (c : screen f.port f.kind.toNat f.body.length = none)
    (b : f.body.length ≤ maxBody) (h : Handler) : s.request f h = s.serve f h := by
  unfold request
  rw [k.listening]
  dsimp only
  rw [if_pos ⟨k.collection, b⟩]
  unfold takeFrame
  rw [c]
  dsimp only
  split
  · rename_i l e
    rw [k.fresh l e]
    rfl
  · rfl

/-- A request taken anew, with its owner's effect and answer. -/
theorem request_of {s t : State} {f : Frame} {h : Handler} {r : Reply} (k : Takes s f)
    (c : screen f.port f.kind.toNat f.body.length = none) (b : f.body.length ≤ maxBody)
    (e : h (s.taking f) = (t.taking f, r)) : s.request f h = t.flush.answerOwner f r :=
  (request_serve k c b h).trans (serve_of e)

/-- A request taken anew that posts nothing. -/
theorem request_quiet {s t : State} {f : Frame} {h : Handler} {r : Reply} (k : Takes s f)
    (c : screen f.port f.kind.toNat f.body.length = none) (b : f.body.length ≤ maxBody)
    (e : h (s.taking f) = (t.taking f, r)) (o : t.outbox = []) : s.request f h = t.answerOwner f r := by
  rw [request_of k c b e, flush_quiet t o]

/-- An owner's effect that leaves the ports as they were is the effect on the port as it stood. -/
theorem of_taking {s u : State} {f : Frame} (e : u.ports = (s.taking f).ports) : u = ({ u with ports := s.ports }).taking f := by
  refine ext_ports rfl fun q => ?_
  show u.ports.get q = _
  rw [e]
  rfl

end State

end Sys2Proof.Machine
end

