-- ==== Sys2Proof/Laws/Answers.lean ====
section
/-! SUPPORT. What a request command answers, from what its owner does with it on a port TAKING it; and how the ending of
a session stands in the event that ends it. -/

namespace Sys2Proof.Machine

set_option Elab.async false

/-- A request taken anew is answered with what its owner answers, in the state its owner leaves. -/
theorem exec_answers {i : Instr} {f : Frame} {h : Handler} {s t : State} {c : Code} {body : List Byte}
    (e : i.request? = some (f, h)) (k : Takes s f) (b : f.body.length ≤ maxBody)
    (sc : screen f.port f.kind.toNat f.body.length = none) (g : h (s.taking f) = (t.taking f, ⟨c, body⟩)) :
    exec i s = .next (t.answered f c body) := by
  rw [exec_request e, State.request_of k sc b g]
  rfl

theorem Undisturbed.refl (s : State) : Undisturbed s s :=
  ⟨rfl, rfl, rfl, rfl, rfl, rfl, rfl, ⟨rfl, rfl⟩, rfl, fun _ => rfl, fun _ => rfl, fun _ _ => rfl,
    ⟨[], (List.append_nil _).symm⟩, ⟨[], (List.append_nil _).symm⟩⟩

/-- What is undisturbed while a port takes a frame is undisturbed on the port as it stood. -/
theorem Undisturbed.untaken {s u : State} {f : Frame} (h : Undisturbed (s.taking f) u) :
    Undisturbed s { u with ports := s.ports } :=
  ⟨h.pending, h.tenths, rfl, h.site, h.capacity, h.slots, h.tariff, h.freshness, h.ambient, h.reports, h.monitors,
    h.sessions, h.posts, h.records⟩

theorem EndsWith.untaken {s u : State} {f : Frame} {p : PosId} {r : EndReason} (h : EndsWith (s.taking f) u p r) :
    EndsWith s { u with ports := s.ports } p r :=
  ⟨h.record, h.filed, h.shown⟩

theorem Examined.untaken {s u : State} {f : Frame} {l : List BankId} (h : Examined (s.taking f) u l) :
    Examined s { u with ports := s.ports } l :=
  ⟨h.forced, h.opportunistic, h.others, h.designation, congrArg (fun w : State => { w with ports := s.ports }) h.rest,
    h.manager⟩

theorem HoldsBank.untaken {s u : State} {f : Frame} {p : PosId} {b : BankId} (h : HoldsBank (s.taking f) u p b) :
    HoldsBank s { u with ports := s.ports } p b :=
  ⟨h.holder, h.bank, h.session⟩

theorem Releases.untaken {s u : State} {f : Frame} {p : PosId} {b : BankId} (h : Releases (s.taking f) u p b) :
    Releases s { u with ports := s.ports } p b :=
  ⟨fun e => Examined.untaken (f := f) (h.free e), fun q rest e =>
    have k := h.handed q rest e
    ⟨k.1.untaken, k.2.1, k.2.2.1, k.2.2.2.1, k.2.2.2.2.1.untaken, k.2.2.2.2.2⟩⟩

theorem GivesBack.untaken {s u : State} {f : Frame} {p : PosId} {r : EndReason} (h : GivesBack (s.taking f) u p r) :
    GivesBack s { u with ports := s.ports } p r :=
  ⟨fun b e => Releases.untaken (f := f) (h.holds b e), fun b c a =>
    have k := h.waits b c a
    ⟨congrArg (fun w : State => { w with ports := s.ports }) k.1, k.2⟩,
    fun c a => congrArg (fun w : State => { w with ports := s.ports }) (h.neither c a)⟩

theorem ClearsPlaces.untaken {s u : State} {f : Frame} {p : PosId} {k rest : List Waiter} {more : List PosId}
    (h : ClearsPlaces (s.taking f) u p k rest more) : ClearsPlaces s { u with ports := s.ports } p k rest more :=
  ⟨h.queue, h.grants, h.unlisted, h.granting, h.demand, h.told, h.also, h.joined, h.free, h.busy, h.records⟩

theorem LeavesOthers.untaken {s u : State} {p : PosId} (h : LeavesOthers s u p) (x y : Ports) :
    LeavesOthers { s with ports := x } { u with ports := y } p :=
  fun q n a => h q n ⟨a.bankQueues, a.coolingQueue, a.closeQueue, a.register⟩

theorem Ends.untaken {s u : State} {f : Frame} {p : PosId} {r : EndReason} (h : Ends (s.taking f) u p r) :
    Ends s { u with ports := s.ports } p r :=
  have ⟨_, g, l, n⟩ := h.gives
  have ⟨k, rest, more, c⟩ := h.places
  ⟨h.ended.untaken, ⟨_, g.untaken, l.untaken _ _, n⟩, ⟨k, rest, more, c.untaken⟩,
    fun q n a => h.others q n ⟨a.bankQueues, a.coolingQueue, a.closeQueue, a.register⟩, h.rest.untaken⟩

theorem Consistent.taken {s : State} (h : Consistent s) (f : Frame) : Consistent (s.taking f) :=
  ⟨h.queued, h.held, h.sole, h.once, h.refill, h.forced, h.listed, h.cooled, h.away, h.closing, h.closingOnce, h.massed,
    h.registered, h.filed, h.closes, h.served⟩

/-- An event of a request that leaves the ports to the Link Interface is the event of the state it leaves. -/
theorem Undisturbed.taking {s u : State} {f : Frame} (h : Undisturbed (s.taking f) u) :
    u = ({ u with ports := s.ports }).taking f := State.of_taking h.ports

/-- The end of a session within a request. -/
theorem State.taking_endWith {s : State} {f : Frame} {p : PosId} (h : Consistent s) (r : (s.session p).running = true)
    (e : EndReason) : ∃ u : State, (s.taking f).endWith p e = u.taking f ∧ Ends s u p e := by
  have k := State.endWith_Ends (h.taken f) r e
  exact ⟨_, k.rest.taking, k.untaken⟩

end Sys2Proof.Machine
end

