-- ==== Sys2Proof/Laws/Wire.lean ====
section
/-! SUPPORT. Numbers and fields in bytes, and what a listening port makes of a frame's bytes (R167). -/

namespace Sys2Proof.Machine

set_option Elab.async false

/-! ### Bytes -/

theorem unbe_append (a b : List Byte) : unbe (a ++ b) = unbe a * 256 ^ b.length + unbe b := by
  unfold unbe
  rw [List.foldl_append]
  generalize a.foldl (fun a b => a * 256 + b.toNat) 0 = x
  have : ∀ (b : List Byte) (x y : Nat), b.foldl (fun a b => a * 256 + b.toNat) (x + y) = x * 256 ^ b.length + b.foldl (fun a b => a * 256 + b.toNat) y := by
    intro b
    induction b with
    | nil => simp
    | cons c l ih =>
      intro x y
      simp only [List.foldl_cons, List.length_cons]
      rw [show (x + y) * 256 + c.toNat = x * 256 + (y * 256 + c.toNat) by ring, ih]
      ring
  simpa using this b x 0

theorem be_length (w n : Nat) : (be w n).length = w := by
  induction w with
  | zero => rfl
  | succ w ih => unfold be; simp [ih]

theorem unbe_be (w n : Nat) : unbe (be w n) = n % 256 ^ w := by
  induction w with
  | zero => simp [be, unbe]; omega
  | succ w ih =>
    unfold be
    rw [show byteOf (n / 256 ^ w) :: be w n = [byteOf (n / 256 ^ w)] ++ be w n from rfl, unbe_append, be_length, ih]
    show ((0 * 256 + (byteOf (n / 256 ^ w)).toNat) * 256 ^ w + _) = _
    unfold byteOf
    have split : n % 256 ^ (w + 1) = n % 256 ^ w + 256 ^ w * (n / 256 ^ w % 256) := by rw [pow_succ, Nat.mod_mul]
    have byte : (2 : Nat) ^ 8 = 256 := rfl
    rw [BitVec.toNat_ofNat, split, byte]
    ring

theorem be_bv {w v : Nat} (x : BitVec v) (h : v = 8 * w) : unbe (be w x.toNat) = x.toNat := by
  rw [unbe_be, Nat.mod_eq_of_lt]
  have := x.isLt
  have e : (256:Nat)^w = 2^v := by rw [h, pow_mul]; rfl
  omega

theorem field_at (a b c : List Byte) (off size : Nat) (ha : a.length = off) (hb : b.length = size) : field (a ++ (b ++ c)) off size = unbe b := by
  unfold field
  subst ha; subst hb
  simp

theorem field_end (a b : List Byte) (off size : Nat) (ha : a.length = off) (hb : b.length = size) : field (a ++ b) off size = unbe b := by
  simpa using field_at a b [] off size ha hb

theorem field_start (b c : List Byte) (size : Nat) (hb : b.length = size) : field (b ++ c) 0 size = unbe b := by
  simpa using field_at [] b c 0 size rfl hb

theorem field_all (b : List Byte) (size : Nat) (hb : b.length = size) : field b 0 size = unbe b := by
  simpa using field_at [] b [] 0 size rfl hb

theorem field_byte (x : Byte) (l : List Byte) : field (x :: l) 0 1 = x.toNat := by
  show unbe [x] = _; simp [unbe]

theorem field_skip (x : Byte) (l : List Byte) (off size : Nat) : field (x :: l) (off + 1) size = field l off size := rfl

theorem field_after (w n off size : Nat) (l : List Byte) : field (be w n ++ l) (w + off) size = field l off size := by
  unfold field
  have := be_length w n
  conv_lhs => rw [show w + off = (be w n).length + off by rw [this]]
  rw [List.drop_length_add_append]

/-! ### Collections -/

theorem ext_of_ports {s t : State} (h : { s with ports := t.ports } = t) (p : ∀ q, s.port q = t.port q) : s = t := by
  have e : s.ports = t.ports := Ports.ext_get p
  rw [← h, ← e]

theorem setCollection_self (s : State) (q : PortId) (h : (s.port q).collection = []) : s.setCollection q [] = s :=
  ext_of_ports rfl fun x => by
    unfold State.setCollection
    rw [State.modPort_port]; split
    · rename_i e; rw [e, ← h]
    · rfl

theorem setCollection_port (s : State) (q : PortId) (l : List Byte) : (s.setCollection q l).port q = { s.port q with collection := l } :=
  State.modPort_port_same _ _ _

theorem setCollection_twice (s : State) (q : PortId) (l m : List Byte) : (s.setCollection q l).setCollection q m = s.setCollection q m :=
  ext_of_ports rfl fun x => by
    by_cases e : x = q
    · rw [e, setCollection_port, setCollection_port, setCollection_port]
    · unfold State.setCollection
      rw [State.modPort_port_ne _ _ e, State.modPort_port_ne _ _ e, State.modPort_port_ne _ _ e]

theorem receiveBytes_deaf {s : State} {q : PortId} (h : (s.port q).exchange ≠ .listening) (l : List Byte) : s.receiveBytes q l = s := by
  unfold State.receiveBytes
  induction l with
  | nil => rfl
  | cons b l ih =>
    have : s.receiveByte q b = s := by
      unfold State.receiveByte
      cases e : (s.port q).exchange <;> first | rfl | exact absurd e h
    rw [List.foldl_cons, this]; exact ih

/-- receive with pure collection -/
theorem receive_more {s : State} {q : PortId} {b : Byte} {l : List Byte} (h : (s.port q).exchange = .listening)
    (c : collect (s.port q).collection b = .more l) : s.receiveByte q b = s.setCollection q l := by
  unfold State.receiveByte
  rw [h]; dsimp only; rw [c]

theorem receive_discard {s : State} {q : PortId} {b : Byte} (h : (s.port q).exchange = .listening)
    (c : collect (s.port q).collection b = .discard) : s.receiveByte q b = s.setCollection q [] := by
  unfold State.receiveByte
  rw [h]; dsimp only; rw [c]

theorem receive_frame {s : State} {q : PortId} {b : Byte} {tag kind : Byte} {body : List Byte} (h : (s.port q).exchange = .listening)
    (c : collect (s.port q).collection b = .frame tag kind body) :
    s.receiveByte q b = (s.setCollection q []).takeFrame ⟨q, tag, kind, body⟩ (Frame.handler ⟨q, tag, kind, body⟩) := by
  unfold State.receiveByte
  rw [h]; dsimp only; rw [c]

/-- bytes that only extend the collection -/
theorem receive_all {s : State} {q : PortId} (h : (s.port q).exchange = .listening) (l : List Byte) (held : List Byte)
    (e : (s.port q).collection = held)
    (m : ∀ k, k < l.length → collect (held ++ l.take k) (l.getD k 0) = .more (held ++ l.take (k+1))) :
    s.receiveBytes q l = s.setCollection q (held ++ l) := by
  induction l generalizing s held with
  | nil =>
    subst e
    refine ext_of_ports rfl fun x => ?_
    unfold State.setCollection State.receiveBytes
    rw [State.modPort_port]; split
    · rename_i c; rw [c]; simp
    · rfl
  | cons b l ih =>
    have h0 := m 0 (by simp)
    simp at h0
    have r : s.receiveByte q b = s.setCollection q (held ++ [b]) := receive_more h (by rw [e]; exact h0)
    unfold State.receiveBytes at ih ⊢
    rw [List.foldl_cons, r, ih (s := s.setCollection q (held ++ [b])) (by rw [setCollection_port]; exact h) (held ++ [b]) (by rw [setCollection_port])]
    · rw [setCollection_twice]; simp
    · intro k hk
      have := m (k+1) (by simp; omega)
      simpa using this

theorem collect_long (tag kind len : Byte) (rest : List Byte) (b : Byte) :
    collect (0xC3#8 :: tag :: kind :: len :: rest) b =
      if 240 < len.toNat then .discard
      else if (rest ++ [b]).length < len.toNat + 2 then .more (0xC3#8 :: tag :: kind :: len :: (rest ++ [b]))
      else
        let body := (rest ++ [b]).take len.toNat
        if unbe ((rest ++ [b]).drop len.toNat) = (crc (tag :: kind :: len :: body)).toNat then .frame tag kind body else .discard := rfl

/-- all proper beginnings of a frame extend -/
theorem collect_more (tag kind len : Byte) (body : List Byte) (hl : len.toNat ≤ 240) (tail : List Byte) 
    (k : Nat) (hk : k < 4 + (len.toNat + 1)) (hb : (body ++ tail).length = len.toNat + 2) :
    collect ((0xC3#8 :: tag :: kind :: len :: (body ++ tail)).take k) ((0xC3#8 :: tag :: kind :: len :: (body ++ tail)).getD k 0)
      = .more ((0xC3#8 :: tag :: kind :: len :: (body ++ tail)).take (k+1)) := by
  generalize hr : body ++ tail = r at *
  match k with
  | 0 => rfl
  | 1 => rfl
  | 2 => rfl
  | 3 =>
    show (if 240 < len.toNat then Collected.discard else if 0 < len.toNat + 2 then _ else _) = _
    rw [if_neg (by omega), if_pos (by omega)]; rfl
  | k + 4 =>
    simp only [List.take_succ_cons, List.getD_cons_succ]
    rw [collect_long, if_neg (by omega)]
    have hlen : k < r.length := by omega
    have e : r.take k ++ [r.getD k 0] = r.take (k+1) := by
      rw [List.take_add_one, List.getD_eq_getElem?_getD, List.getElem?_eq_getElem hlen]; rfl
    rw [e, if_pos (by rw [List.length_take]; omega)]

theorem receive_beginning {s : State} {q : PortId} (h : (s.port q).exchange = .listening) (e : (s.port q).collection = [])
    (tag kind len : Byte) (r : List Byte) (hl : len.toNat ≤ 240) (hb : r.length = len.toNat + 2) (n : Nat) (hn : n < 4 + r.length) :
    s.receiveBytes q ((0xC3#8 :: tag :: kind :: len :: r).take n) = s.setCollection q ((0xC3#8 :: tag :: kind :: len :: r).take n) := by
  have := receive_all h ((0xC3#8 :: tag :: kind :: len :: r).take n) [] e ?_
  · simpa using this
  · intro k hk
    rw [List.length_take] at hk
    have c := collect_more tag kind len r hl [] k (by simp at hk; omega) (by simpa using hb)
    simp only [List.append_nil] at c
    have l1 : ((0xC3#8 :: tag :: kind :: len :: r).take n).take k = (0xC3#8 :: tag :: kind :: len :: r).take k := by
      rw [List.take_take]; congr 1; simp at hk; omega
    have l2 : ((0xC3#8 :: tag :: kind :: len :: r).take n).take (k+1) = (0xC3#8 :: tag :: kind :: len :: r).take (k+1) := by
      rw [List.take_take]; congr 1; simp at hk; omega
    have l3 : ((0xC3#8 :: tag :: kind :: len :: r).take n).getD k 0 = (0xC3#8 :: tag :: kind :: len :: r).getD k 0 := by
      rw [List.getD_eq_getElem?_getD, List.getD_eq_getElem?_getD, List.getElem?_take_of_lt (by simp at hk; omega)]
    rw [List.nil_append, List.nil_append, l1, l2, l3]
    exact c

theorem receive_snoc (s : State) (q : PortId) (l : List Byte) (b : Byte) : s.receiveBytes q (l ++ [b]) = (s.receiveBytes q l).receiveByte q b := by
  unfold State.receiveBytes; rw [List.foldl_append]; rfl

theorem receive_whole {s : State} {q : PortId} (h : (s.port q).exchange = .listening) (e : (s.port q).collection = [])
    (tag kind len hi lo : Byte) (body : List Byte) (hl : len.toNat ≤ 240) (hb : body.length = len.toNat) :
    s.receiveBytes q (0xC3#8 :: tag :: kind :: len :: (body ++ [hi, lo])) =
      if unbe [hi, lo] = (crc (tag :: kind :: len :: body)).toNat then s.takeFrame ⟨q, tag, kind, body⟩ (Frame.handler ⟨q, tag, kind, body⟩) else s := by
  have pre := receive_beginning h e tag kind len (body ++ [hi, lo]) hl (by simp [hb]) (4 + body.length + 1) (by simp; omega)
  have tk : (0xC3#8 :: tag :: kind :: len :: (body ++ [hi, lo])).take (4 + body.length + 1) = 0xC3#8 :: tag :: kind :: len :: (body ++ [hi]) := by
    rw [show 4 + body.length + 1 = (body.length + 1) + 4 by omega]
    simp [List.take_append]
  rw [tk] at pre
  have split : 0xC3#8 :: tag :: kind :: len :: (body ++ [hi, lo]) = (0xC3#8 :: tag :: kind :: len :: (body ++ [hi])) ++ [lo] := by simp
  rw [split, receive_snoc, pre]
  have col : collect (0xC3#8 :: tag :: kind :: len :: (body ++ [hi])) lo = 
      if unbe [hi, lo] = (crc (tag :: kind :: len :: body)).toNat then .frame tag kind body else .discard := by
    rw [collect_long, if_neg (by omega), if_neg (by simp; omega)]
    have b1 : ((body ++ [hi]) ++ [lo]).take len.toNat = body := by rw [← hb]; simp
    have b2 : ((body ++ [hi]) ++ [lo]).drop len.toNat = [hi, lo] := by rw [← hb]; simp
    rw [b1, b2]
  have hx : ((s.setCollection q (0xC3#8 :: tag :: kind :: len :: (body ++ [hi]))).port q).exchange = .listening := by rw [setCollection_port]; exact h
  have hc : ((s.setCollection q (0xC3#8 :: tag :: kind :: len :: (body ++ [hi]))).port q).collection = 0xC3#8 :: tag :: kind :: len :: (body ++ [hi]) := by rw [setCollection_port]
  by_cases g : unbe [hi, lo] = (crc (tag :: kind :: len :: body)).toNat
  · rw [if_pos g] at col ⊢
    rw [receive_frame hx (by rw [hc]; exact col), setCollection_twice, setCollection_self _ _ e]
  · rw [if_neg g] at col ⊢
    rw [receive_discard hx (by rw [hc]; exact col), setCollection_twice, setCollection_self _ _ e]

theorem unbe_two (hi lo : Byte) : unbe [hi, lo] = (hi ++ lo).toNat := by
  show (0 * 256 + hi.toNat) * 256 + lo.toNat = _
  rw [BitVec.toNat_append]
  rw [Nat.shiftLeft_eq, ← Nat.shiftLeft_eq, ← Nat.shiftLeft_add_eq_or_of_lt lo.isLt, Nat.shiftLeft_eq]
  omega

theorem frame_shape (tag kind : Byte) (body : List Byte) : frameBytes tag kind body = 
    0xC3#8 :: tag :: kind :: byteOf body.length :: (body ++ be 2 (crc (tag :: kind :: byteOf body.length :: body)).toNat) := by
  unfold frameBytes; rfl

theorem be_two (n : Nat) : be 2 n = [byteOf (n / 256), byteOf n] := by
  unfold be be be; simp

theorem byteOf_toNat (n : Nat) (h : n < 256) : (byteOf n).toNat = n := by
  unfold byteOf; rw [BitVec.toNat_ofNat]; omega

theorem receive_frameBytes {s : State} {q : PortId} (h : (s.port q).exchange = .listening) (e : (s.port q).collection = [])
    (tag kind : Byte) (body : List Byte) (hl : body.length ≤ 240) :
    s.receiveBytes q (frameBytes tag kind body) = s.takeFrame ⟨q, tag, kind, body⟩ (Frame.handler ⟨q, tag, kind, body⟩) := by
  rw [frame_shape, be_two, receive_whole h e _ _ _ _ _ _ (by rw [byteOf_toNat _ (by omega)]; omega) (by rw [byteOf_toNat _ (by omega)]), if_pos]
  generalize crc _ = c
  rw [unbe_two]
  have := c.isLt
  rw [BitVec.toNat_append]
  unfold byteOf
  rw [← Nat.shiftLeft_add_eq_or_of_lt (BitVec.isLt _), Nat.shiftLeft_eq]
  simp only [BitVec.toNat_ofNat]
  omega

end Sys2Proof.Machine
end

