-- ==== Sys2Proof/Laws/PerInstr.lean ====
section
/-! SUPPORT. For every instruction, as syntax: the frame of a well-formed request command is one that the screening
lets pass, and its bytes spell the request that the command is (R3, R4, R168). -/

namespace Sys2Proof.Laws.WireForm

set_option Elab.async false

open Sys2Proof.Machine

/-- A well-formed request command has a frame that fits, that the screening lets pass, and that spells its request. -/
def Statement (i : Instr) : Prop :=
  i.wellFormed = true → ∀ f h, i.request? = some (f, h) →
    f.body.length ≤ maxBody ∧ screen f.port f.kind.toNat f.body.length = none ∧ f.handler = h

theorem powerOn : Statement .powerOn := fun _ _ _ e => nomatch e

theorem frameDiscarded (port : PortId) (bytes : List Byte) :
    Statement (.frameDiscarded port bytes) := fun _ _ _ e => nomatch e

theorem byteGapExceeded (port : PortId) (bytes : List Byte) :
    Statement (.byteGapExceeded port bytes) := fun _ _ _ e => nomatch e

theorem linkScreenAnswer (port : PortId) (tag : Byte) (kind : Byte) (body : List Byte) :
    Statement (.linkScreenAnswer port tag kind body) := fun _ _ _ e => nomatch e

theorem repeatedRequest (port : PortId) (tag : Byte) (kind : Byte) (body : List Byte) :
    Statement (.repeatedRequest port tag kind body) := fun _ _ _ e => nomatch e

theorem answerSent (port : PortId) : Statement (.answerSent port) := fun _ _ _ e => nomatch e

theorem readNotices (q : PortId) (t : Byte) : Statement (.readNotices q t) := by
  intro w f h e
  cases e
  cases q <;> exact ⟨Nat.le_of_ble_eq_true rfl, rfl, rfl⟩

theorem nozzle (p : PosId) (t : Byte) (x : Byte) : Statement (.nozzle p t x) := by
  intro w f h e
  cases e
  refine ⟨Nat.le_of_ble_eq_true rfl, rfl, ?_⟩
  show nozzleRequest p (field [x] 0 1) = _
  rw [field_byte]

theorem start (p : PosId) (t : Byte) : Statement (.start p t) := by
  intro w f h e
  cases e
  exact ⟨Nat.le_of_ble_eq_true rfl, rfl, rfl⟩

theorem stop (p : PosId) (t : Byte) : Statement (.stop p t) := by
  intro w f h e
  cases e
  exact ⟨Nat.le_of_ble_eq_true rfl, rfl, rfl⟩

theorem pause (p : PosId) (t : Byte) : Statement (.pause p t) := by
  intro w f h e
  cases e
  exact ⟨Nat.le_of_ble_eq_true rfl, rfl, rfl⟩

theorem continueFill (p : PosId) (t : Byte) : Statement (.continueFill p t) := by
  intro w f h e
  cases e
  exact ⟨Nat.le_of_ble_eq_true rfl, rfl, rfl⟩

theorem progress (p : PosId) (t : Byte) (x : BitVec 16) (y : BitVec 16) (m : BitVec 24) :
    Statement (.progress p t x y m) := by
  intro w f h e
  cases e
  refine ⟨Nat.le_of_ble_eq_true rfl, rfl, ?_⟩
  show progressRequest p (field (be 2 x.toNat ++ be 2 y.toNat ++ be 3 m.toNat) 0 2) (field (be 2 x.toNat ++ be 2 y.toNat ++ be 3 m.toNat) 2 2) (field (be 2 x.toNat ++ be 2 y.toNat ++ be 3 m.toNat) 4 3) = _
  rw [field_end _ _ 4 3 (by simp [be_length]) (be_length _ _), List.append_assoc, field_start _ _ _ (be_length _ _), field_at _ _ _ 2 2 (be_length _ _) (be_length _ _),
    be_bv _ rfl, be_bv _ rfl, be_bv _ rfl]

theorem finalMeter (p : PosId) (t : Byte) (m : BitVec 24) : Statement (.finalMeter p t m) := by
  intro w f h e
  cases e
  refine ⟨Nat.le_of_ble_eq_true rfl, rfl, ?_⟩
  show finalMeterRequest p (field (be 3 m.toNat) 0 3) = _
  rw [field_all _ _ (be_length _ _), be_bv _ rfl]

theorem vehicleFrame (p : PosId) (t : Byte) (k : Byte) (c : Byte) (v : BitVec 16) (x : BitVec 16) (y : BitVec 16) (m : Byte) :
    Statement (.vehicleFrame p t k c v x y m) := by
  intro w f h e
  cases e
  refine ⟨Nat.le_of_ble_eq_true rfl, rfl, ?_⟩
  show vehicleFrameRequest p (field ([k, c] ++ be 2 v.toNat ++ be 2 x.toNat ++ be 2 y.toNat ++ [m]) 0 1) (field ([k, c] ++ be 2 v.toNat ++ be 2 x.toNat ++ be 2 y.toNat ++ [m]) 1 1)
    (field ([k, c] ++ be 2 v.toNat ++ be 2 x.toNat ++ be 2 y.toNat ++ [m]) 2 2) (field ([k, c] ++ be 2 v.toNat ++ be 2 x.toNat ++ be 2 y.toNat ++ [m]) 4 2)
    (field ([k, c] ++ be 2 v.toNat ++ be 2 x.toNat ++ be 2 y.toNat ++ [m]) 6 2) (field ([k, c] ++ be 2 v.toNat ++ be 2 x.toNat ++ be 2 y.toNat ++ [m]) 8 1) = _
  rw [field_end _ [m] 8 1 (by simp [be_length]) rfl]
  simp only [List.append_assoc, List.cons_append, List.nil_append]
  rw [field_byte, field_skip, field_byte, field_skip _ _ 1, field_skip _ _ 0, field_start _ _ _ (be_length _ _),
    field_skip _ _ 3, field_skip _ _ 2, field_at _ _ _ 2 2 (be_length _ _) (be_length _ _), field_skip _ _ 5, field_skip _ _ 4,
    ← List.append_assoc, field_at _ _ _ 4 2 (by simp [be_length]) (be_length _ _), be_bv _ rfl, be_bv _ rfl, be_bv _ rfl]
  simp [unbe]

theorem readPosition (q : PortId) (t : Byte) (x : Option Byte) : Statement (.readPosition q t x) := by
  intro w f h e
  cases e
  cases q <;> cases x <;> first | exact ⟨Nat.le_of_ble_eq_true rfl, rfl, rfl⟩ | cases w
  rename_i b
  refine ⟨Nat.le_of_ble_eq_true rfl, rfl, ?_⟩
  show readPositionNamed (field [b] 0 1) = _
  rw [field_byte]
  rfl

theorem bankStatus (t : Byte) (b : Quad BankReading) (a : BitVec 16) : Statement (.bankStatus t b a) := by
  intro w f h e
  cases e
  refine ⟨Nat.le_of_ble_eq_true rfl, rfl, ?_⟩
  obtain ⟨b0, b1, b2, b3⟩ := b
  show bankStatusRequest (bankReadings _) (field _ 16 2) = _
  have body : (bankStatusFrame t ⟨b0, b1, b2, b3⟩ a).body = be 2 b0.pressure.toNat ++ (be 2 b0.temperature.toNat ++ (be 2 b1.pressure.toNat ++ (be 2 b1.temperature.toNat ++ (be 2 b2.pressure.toNat ++ (be 2 b2.temperature.toNat ++ (be 2 b3.pressure.toNat ++ (be 2 b3.temperature.toNat ++ be 2 a.toNat))))))) := by
    simp [bankStatusFrame, Quad.toList, bankReadingBytes]
  rw [body]
  have sk : ∀ (n off : Nat) (l : List Byte), field (be 2 n ++ l) (off + 2) 2 = field l off 2 := by
    intro n off l
    rw [add_comm]; exact field_after 2 n off 2 l
  unfold bankReadings
  rw [sk _ 0, sk _ 2, sk _ 0, sk _ 4, sk _ 2, sk _ 0, sk _ 6, sk _ 4, sk _ 2, sk _ 0, sk _ 8, sk _ 6, sk _ 4, sk _ 2, sk _ 0,
    sk _ 10, sk _ 8, sk _ 6, sk _ 4, sk _ 2, sk _ 0, sk _ 12, sk _ 10, sk _ 8, sk _ 6, sk _ 4, sk _ 2, sk _ 0, sk _ 14, sk _ 12, sk _ 10, sk _ 8, sk _ 6, sk _ 4, sk _ 2, sk _ 0]
  simp only [field_start _ _ _ (be_length _ _), field_all _ _ (be_length _ _), be_bv (w := 2) _ rfl]
  rfl

theorem coolingCapacity (t : Byte) (c : BitVec 16) : Statement (.coolingCapacity t c) := by
  intro w f h e
  cases e
  refine ⟨Nat.le_of_ble_eq_true rfl, rfl, ?_⟩
  show coolingCapacityRequest (field (be 2 c.toNat) 0 2) = _
  rw [field_all _ _ (be_length _ _), be_bv _ rfl]

theorem refillNext (t : Byte) : Statement (.refillNext t) := by
  intro w f h e
  cases e
  exact ⟨Nat.le_of_ble_eq_true rfl, rfl, rfl⟩

theorem refillEnd (t : Byte) (b : Byte) : Statement (.refillEnd t b) := by
  intro w f h e
  cases e
  refine ⟨Nat.le_of_ble_eq_true rfl, rfl, ?_⟩
  show refillEndRequest (field [b] 0 1) = _
  rw [field_byte]

theorem emergencyStop (q : PortId) (t : Byte) : Statement (.emergencyStop q t) := by
  intro w f h e
  cases e
  cases q <;> first | exact ⟨Nat.le_of_ble_eq_true rfl, rfl, rfl⟩ | cases w

theorem readBanks (q : PortId) (t : Byte) : Statement (.readBanks q t) := by
  intro w f h e
  cases e
  cases q <;> first | exact ⟨Nat.le_of_ble_eq_true rfl, rfl, rfl⟩ | cases w

theorem authorize (t : Byte) (p : Byte) (r : BitVec 32) (k : Byte) (a : BitVec 32) (l : BitVec 16) :
    Statement (.authorize t p r k a l) := by
  intro w f h e
  cases e
  refine ⟨Nat.le_of_ble_eq_true rfl, rfl, ?_⟩
  have body : (authorizeFrame t p r k a l).body = p :: (be 4 r.toNat ++ (k :: (be 4 a.toNat ++ be 2 l.toNat))) := by
    simp [authorizeFrame]
  show authorizeRequest (field _ 0 1) (field _ 1 4) (field _ 5 1) (field _ 6 4) (field _ 10 2) = _
  rw [body, field_byte, field_skip _ _ 0, field_start _ _ _ (be_length _ _), field_skip _ _ 4, field_after 4 _ 0, field_byte, field_skip _ _ 5,
    field_after 4 _ 1, field_skip _ _ 0, field_start _ _ _ (be_length _ _), field_skip _ _ 9, field_after 4 _ 5, field_skip _ _ 4, field_after 4 _ 0, field_all _ _ (be_length _ _),
    be_bv _ rfl, be_bv _ rfl, be_bv _ rfl]

theorem cancelAuthorization (t : Byte) (p : Byte) (r : BitVec 32) : Statement (.cancelAuthorization t p r) := by
  intro w f h e
  cases e
  refine ⟨Nat.le_of_ble_eq_true rfl, rfl, ?_⟩
  show cancelRequest (field (p :: be 4 r.toNat) 0 1) (field (p :: be 4 r.toNat) 1 4) = _
  rw [field_byte, field_skip, field_all _ _ (be_length _ _), be_bv _ rfl]

theorem readRecord (q : PortId) (t : Byte) (k : Byte) (n : BitVec 32) : Statement (.readRecord q t k n) := by
  intro w f h e
  cases e
  have r : readRecordRequest (field (k :: be 4 n.toNat) 0 1) (field (k :: be 4 n.toNat) 1 4)
      = readRecordRequest k.toNat n.toNat := by
    rw [field_byte, field_skip, field_all _ _ (be_length _ _), be_bv _ rfl]
  cases q <;> first | exact ⟨Nat.le_of_ble_eq_true rfl, rfl, r⟩ | cases w

theorem settle (t : Byte) (n : BitVec 32) : Statement (.settle t n) := by
  intro w f h e
  cases e
  refine ⟨Nat.le_of_ble_eq_true rfl, rfl, ?_⟩
  show settleRequest (field (be 4 n.toNat) 0 4) = _
  rw [field_all _ _ (be_length _ _), be_bv _ rfl]

theorem loadTable (t : Byte) (k : Byte) (i : Byte) (l : List Byte) : Statement (.loadTable t k i l) := by
  intro w f h e
  cases e
  have len : l.length = 32 := of_decide_eq_true w
  refine ⟨?_, ?_, ?_⟩
  · show l.length + 1 + 1 ≤ 240
    omega
  · show screen .supervisor 0x40 (l.length + 1 + 1) = none
    rw [len]
    rfl
  · show loadTableRequest (field (k :: i :: l) 0 1) (field (k :: i :: l) 1 1) l = _
    rw [field_byte, field_skip, field_byte]

theorem commission (t : Byte) : Statement (.commission t) := by
  intro w f h e
  cases e
  exact ⟨Nat.le_of_ble_eq_true rfl, rfl, rfl⟩

theorem enterService (t : Byte) : Statement (.enterService t) := by
  intro w f h e
  cases e
  exact ⟨Nat.le_of_ble_eq_true rfl, rfl, rfl⟩

theorem leaveService (t : Byte) : Statement (.leaveService t) := by
  intro w f h e
  cases e
  exact ⟨Nat.le_of_ble_eq_true rfl, rfl, rfl⟩

theorem setBand (t : Byte) (b : Byte) : Statement (.setBand t b) := by
  intro w f h e
  cases e
  refine ⟨Nat.le_of_ble_eq_true rfl, rfl, ?_⟩
  show setBandRequest (field [b] 0 1) = _
  rw [field_byte]

theorem setTariff (t : Byte) (i : Byte) (p : BitVec 32) : Statement (.setTariff t i p) := by
  intro w f h e
  cases e
  refine ⟨Nat.le_of_ble_eq_true rfl, rfl, ?_⟩
  show setTariffRequest (field (i :: be 4 p.toNat) 0 1) (field (i :: be 4 p.toNat) 1 4) = _
  rw [field_byte, field_skip, field_all _ _ (be_length _ _), be_bv _ rfl]

theorem setSiteTime (t : Byte) (n : BitVec 32) : Statement (.setSiteTime t n) := by
  intro w f h e
  cases e
  refine ⟨Nat.le_of_ble_eq_true rfl, rfl, ?_⟩
  show setSiteTimeRequest (field (be 4 n.toNat) 0 4) = _
  rw [field_all _ _ (be_length _ _), be_bv _ rfl]

theorem siteReset (t : Byte) : Statement (.siteReset t) := by
  intro w f h e
  cases e
  exact ⟨Nat.le_of_ble_eq_true rfl, rfl, rfl⟩

theorem resumeSite (t : Byte) : Statement (.resumeSite t) := by
  intro w f h e
  cases e
  exact ⟨Nat.le_of_ble_eq_true rfl, rfl, rfl⟩

theorem clearSuspect (t : Byte) (b : Byte) : Statement (.clearSuspect t b) := by
  intro w f h e
  cases e
  refine ⟨Nat.le_of_ble_eq_true rfl, rfl, ?_⟩
  show clearSuspectRequest (field [b] 0 1) = _
  rw [field_byte]

theorem readSite (t : Byte) (k : Byte) (i : Byte) (j : Byte) (c : Byte) : Statement (.readSite t k i j c) := by
  intro w f h e
  cases e
  refine ⟨Nat.le_of_ble_eq_true rfl, rfl, ?_⟩
  show readSiteRequest (field [k, i, j, c] 0 1) (field [k, i, j, c] 1 1) (field [k, i, j, c] 2 1) (field [k, i, j, c] 3 1) = _
  rw [field_byte, field_skip _ _ 0, field_byte, field_skip _ _ 1, field_skip _ _ 0, field_byte, field_skip _ _ 2, field_skip _ _ 1, field_skip _ _ 0, field_byte]

theorem readCooling (t : Byte) : Statement (.readCooling t) := by
  intro w f h e
  cases e
  exact ⟨Nat.le_of_ble_eq_true rfl, rfl, rfl⟩

theorem siteTimeTick : Statement (.siteTimeTick) := fun _ _ _ e => nomatch e

theorem freshnessTimerExpiry : Statement (.freshnessTimerExpiry) := fun _ _ _ e => nomatch e

theorem yieldTimerExpiry : Statement (.yieldTimerExpiry) := fun _ _ _ e => nomatch e

theorem proofTimerExpiry (bank : BankId) : Statement (.proofTimerExpiry bank) := fun _ _ _ e => nomatch e

theorem coolingWaitExpiry (pos : PosId) : Statement (.coolingWaitExpiry pos) := fun _ _ _ e => nomatch e

theorem progressTimerExpiry (pos : PosId) : Statement (.progressTimerExpiry pos) := fun _ _ _ e => nomatch e

theorem ageTimerExpiry (pos : PosId) : Statement (.ageTimerExpiry pos) := fun _ _ _ e => nomatch e

theorem connectPhaseEnd (pos : PosId) : Statement (.connectPhaseEnd pos) := fun _ _ _ e => nomatch e

theorem leakCheckEnd (pos : PosId) : Statement (.leakCheckEnd pos) := fun _ _ _ e => nomatch e

theorem settlePhaseEnd (pos : PosId) : Statement (.settlePhaseEnd pos) := fun _ _ _ e => nomatch e

theorem bankWaitExpiry (pos : PosId) : Statement (.bankWaitExpiry pos) := fun _ _ _ e => nomatch e

theorem segmentBoundary (pos : PosId) : Statement (.segmentBoundary pos) := fun _ _ _ e => nomatch e

theorem warmTimerExpiry (pos : PosId) : Statement (.warmTimerExpiry pos) := fun _ _ _ e => nomatch e

theorem resumeTimerExpiry (pos : PosId) : Statement (.resumeTimerExpiry pos) := fun _ _ _ e => nomatch e

theorem keepTimerExpiry (pos : PosId) : Statement (.keepTimerExpiry pos) := fun _ _ _ e => nomatch e

theorem holdLimitExpiry (pos : PosId) : Statement (.holdLimitExpiry pos) := fun _ _ _ e => nomatch e

theorem authorizationExpiry (pos : PosId) : Statement (.authorizationExpiry pos) := fun _ _ _ e => nomatch e

theorem closingTimeout : Statement (.closingTimeout) := fun _ _ _ e => nomatch e

end Sys2Proof.Laws.WireForm
end

