-- ==== Sys2Proof/Tests/Slice0.lean ====
section
/-! SUPPORT. The model's own tests: the manual's worked values, the ill-formed commands that the check refuses, each
command on a small state, and states that meet the hypotheses of each statement. -/

namespace Sys2Proof.Tests

set_option Elab.async false

open Sys2Proof.Machine

/-! ### Small states -/

/-- The state a command leaves. -/
def after (i : Instr) (s : State) : State :=
  match exec i s with
  | .next t => t
  | .fault f => nomatch f
  | .refused _ => s

/-- The outcome code and the body of the answer that a port sends. -/
def answered (q : PortId) (s : State) : List Byte :=
  match (s.port q).answer with
  | some bytes => (bytes.drop 4).take (bytes.length - 6)
  | none => []

/-- A profile: no cooling, a settle interval of 1.5 s, a segment of 2.0 s. -/
def profile : Profile where
  permitted := true
  rampRate := 333
  endPressure := 8700
  nonCommEndPressure := 7000
  socTarget := 980
  segmentLength := 20
  settleInterval := 15
  leakCheckHold := 30
  leakDropLimit := 50
  overshoot := 100
  switchMargin := 300
  warmGrace := 100
  resumeDelay := 20
  holdLimit := 600
  coolingDemand := 0
  coolingWaitLimit := 300
  closingAnticipation := 10
  vehicleDataMandatory := false
  degradeTo := none

/-- A configuration whose positions are all enabled for H70, whose banks are alike, and whose profile at index 5 (T40,
ambient band 5) is the one given. -/
def config (f : Profile) : SiteConfig :=
  { SiteConfig.neverLoaded with
    profiles := (List.replicate 48 none).set 5 (some f)
    banks := Quad.fill (some ⟨300, 9000, 6000, 8500⟩)
    cascadeH70 := some [0, 1]
    positions := Quad.fill (some ⟨true, .h70⟩) }

/-- A site that serves under a configuration. -/
def serving (c : SiteConfig) : State :=
  { State.reset with
    site := { State.reset.site with mode := .serving, commissionedAt := some 0, config := c } }

def site : State := serving (config profile)

/-- A bank at 70 MPa that has been proved. -/
def ready : Bank :=
  { Bank.powerOn with
    pressure := some 7000, temperature := some 2900, mass := some 12000, proofState := .proven, provenAt := some 0 }

/-- The banks of a site that are FRESH and FREE. -/
def stored (s : State) : State :=
  { s with bm := { s.bm with banks := Quad.fill ready, freshness := .fresh, freshnessTimer := some 30 } }

def withSession (s : State) (p : PosId) (x : Session) : State := { s with sessions := s.sessions.set p x }

def withMonitor (s : State) (p : PosId) (x : Monitor) : State := { s with monitors := s.monitors.set p x }

def withBank (s : State) (b : BankId) (x : Bank) : State :=
  { s with bm := { s.bm with banks := s.bm.banks.set b x } }

/-- A nozzle CONNECTED, with a report. -/
def connected : Monitor :=
  { Monitor.powerOn with
    nozzle := .connected, pressure := some 2000, temperature := some 2400, mass := some 0, progressTimer := some 20 }

/-- A session that has been opened. -/
def opened : Session :=
  { Session.idle with
    state := .opening
    auth := some ⟨17, .prepaid 60000⟩
    fuelClass := some .h70
    refDensity := some 40200
    siteMaxMass := some 10000
    cascade := [0, 1]
    profileAtStart := some 5
    profile := some 5
    precoolAtStart := some .t40
    comm := some .nonComm
    startTime := some 0 }

/-- A session in DELIVERING from bank 0. -/
def delivering : Session :=
  { opened with
    state := .delivering
    rampBase := some 1520
    activeTime := 900
    bank := some 0
    cascadePos := some 0
    massAtClaim := some 12000
    banksUsed := [0]
    cooling := .granted
    flowCeiling := some 4517
    segmentTimer := some 20
    unitPrice := some 13850
    massCeiling := some 4332 }

/-- A session in HELD that holds bank 0. -/
def holding : Session :=
  { delivering with
    state := .held, factors := { Factors.none with pause := true }, flowCeiling := none, segmentTimer := none,
    keepTimer := some 0 }

/-- A session that has ended. -/
def ended : Session :=
  { delivering with
    state := .ended, bank := none, flowCeiling := none, segmentTimer := none, cooling := .noCooling,
    endReason := some .customerStop, endTime := some 9, endNozzle := some 2000 }

/-- Position 0 connected, with a session at bank 0. -/
def drawing (x : Session) : State :=
  withBank (withSession (withMonitor (stored site) 0 connected) 0 x) 0 { ready with holder := .position 0 }

/-- Position 0 connected, with a session that holds no bank. -/
def apart (x : Session) : State := withSession (withMonitor (stored site) 0 connected) 0 x

/-- Position 0 closing, in the register. -/
def closing : State :=
  { withSession site 0 { ended with state := .closing } with
    sales := { site.sales with register := some 0, closingTimer := some 50 } }

/-! ### The manual's worked values -/

/-- The nine characters of the note under R167. -/
theorem test_crc : crc ([0x31, 0x32, 0x33, 0x34, 0x35, 0x36, 0x37, 0x38, 0x39] : List Byte) = 0x29B1#16 := by
  decide +kernel

/-- A density table that holds the four corners of the worked case and the one at the upper end. -/
def corner : SiteConfig :=
  { SiteConfig.neverLoaded with
    density :=
      (((List.replicate 25 none).set 14 (some ((List.replicate 16 0).set 6 41030 |>.set 7 40020))).set 15
        (some ((List.replicate 16 0).set 6 42860 |>.set 7 41830))).set 24 (some ((List.replicate 16 0).set 15 51600)) }

theorem test_density :
    density corner 7240 2853 = 41368 ∧ density corner 12640 3752 = 51600 ∧ density corner 0 2200 = 0
      ∧ density SiteConfig.neverLoaded 7240 2853 = 0 := by
  decide +kernel

theorem test_masses :
    bankMass { corner with banks := Quad.fill (some ⟨300, 9000, 6000, 8500⟩) } 2 7240 2853 = 12410
      ∧ bankMass corner 2 7240 2853 = 0 ∧ tankMass corner 7240 2853 1220 = 5047
      ∧ (22010 * 1220 + 5000) / 10000 = 2685 ∧ (30480 * 1220 + 5000) / 10000 = 3719 := by
  decide +kernel

theorem test_stateOfCharge :
    stateOfCharge 41368 40200 = 1029 ∧ stateOfCharge 23500 24000 = 979 ∧ stateOfCharge 40000 24000 = 1500
      ∧ stateOfCharge 22010 40200 = 548 ∧ stateOfCharge 30480 40200 = 758 := by
  decide +kernel

theorem test_rampCeiling :
    rampCeilingOf 1520 333 900 8700 8750 = 4517 ∧ rampCeilingOf 1520 333 2200 8700 8750 = 8700
      ∧ rampCeilingOf 4517 250 200 8700 8750 = 5017 ∧ (drawing delivering).rampCeiling 0 = some 4517 := by
  decide +kernel

/-- The pulse ceilings of the table under R49. -/
theorem test_pulseCeiling :
    (withMonitor (apart { opened with state := .connecting }) 0 { connected with pressure := some 1480 }).pulseCeiling 0
        = 1680
      ∧ (withMonitor (drawing delivering) 0 { connected with pressure := some 4390 }).pulseCeiling 0 = 4517 := by
  decide +kernel

/-- The worked cases of R157 and R160. -/
theorem test_billing :
    massCeilingOf 10000 13850 (.prepaid 60000) = 4332 ∧ massCeilingOf 10000 0 (.prepaid 60000) = 10000
      ∧ massCeilingOf 10000 13850 (.fleet 4000) = 4000
      ∧ (closing.saleRecord 0).sequence = 1
      ∧ ((withSession site 0 { ended with finalMass := some 4351 }).saleRecord 0).billed = 4332
      ∧ ((withSession site 0 { ended with finalMass := some 4351 }).saleRecord 0).overrun = 19
      ∧ ((withSession site 0 { ended with finalMass := some 4351 }).saleRecord 0).amount = 59998 := by
  decide +kernel

/-- The lengths of the bodies of R171 and R173. -/
theorem test_bodyLengths :
    (site.positionBytes 0).length = 82 ∧ site.banksBytes.length = 114 ∧ site.coolingBytes.length = 58
      ∧ site.summaryBytes.length = 26 ∧ (closing.saleRecord 0).bytes.length = 68 := by
  decide +kernel

/-- A part with something to read in every body. -/
def readable : State :=
  let s := withBank (withBank (withSession (withMonitor (stored site) 0
    { connected with record := .valid, vehicle := some ⟨.h35, 1220, 3500, 2900, .halt, 548, 2685⟩, ageTimer := some 10 }) 0
    delivering) 0 { ready with holder := .position 0, queue := [2, 1] }) 3 { ready with proofState := .suspect }
  { s with
    site := { s.site with working := some (config { profile with rampRate := 7 }), siteTime := 70000, ambientBand := 4 }
    bm := { s.bm with ambient := some 2981, refillInFlight := some 1, refillList := [2, 3] }
    cbu := { capacity := 50000, grants := [⟨0, 600, 300⟩, ⟨2, 7, 8⟩], queue := [⟨1, 1500, 301, 20⟩] } }

/-- Each field at its offset. -/
theorem test_bodiesAreLaid :
    PositionLaid (readable.positionBytes 0) (readable.monitor 0) (readable.session 0)
      ∧ BanksLaid readable.banksBytes readable ∧ CoolingLaid readable.coolingBytes readable.cbu
      ∧ SummaryLaid readable.summaryBytes readable ∧ (closing.saleRecord 0).Laid (closing.saleRecord 0).bytes := by
  refine ⟨⟨by decide +kernel, by unfold Stand StandsAt; decide +kernel,
      by unfold StandMarked StandsIf StandsAt; decide +kernel, ⟨fun b c e => absurd e (by decide +kernel), fun b c _ e f => ?_,
        fun _ e => absurd rfl e⟩⟩,
    ⟨by decide +kernel, by unfold Stand StandsAt; decide +kernel, by unfold StandMarked StandsIf StandsAt; decide +kernel,
      by unfold PlacesAt StandsAt; decide +kernel, by unfold Stand StandsAt; decide +kernel,
      by unfold StandsIf StandsAt; decide +kernel, by unfold PlacesAt StandsAt; decide +kernel⟩,
    ⟨by decide +kernel, by unfold Stand StandsAt; decide +kernel, fun i h => ?_, fun i h => ?_⟩,
    ⟨by decide +kernel, by unfold Stand StandsAt; decide +kernel, by unfold StandsAt; decide +kernel,
      by unfold StandsAt; decide +kernel, by unfold StandMarked StandsIf StandsAt; decide +kernel⟩,
    ⟨by decide +kernel, by unfold Stand StandsAt; decide +kernel, fun n e => ?_, fun n e => absurd e nofun,
      by decide +kernel, by unfold PlacesAt StandsAt; decide +kernel⟩⟩
  · cases e
    cases f
    unfold Stand StandsAt
    decide +kernel
  · rcases i with _ | _ | _ | _ | i
    · show Stand _ _; unfold Stand StandsAt; decide +kernel
    · show Stand _ _; unfold Stand StandsAt; decide +kernel
    · show Stand _ _; unfold Stand StandsAt; decide +kernel
    · show Stand _ _; unfold Stand StandsAt; decide +kernel
    · omega
  · rcases i with _ | _ | _ | _ | i
    · show Stand _ _; unfold Stand StandsAt; decide +kernel
    · show Stand _ _; unfold Stand StandsAt; decide +kernel
    · show Stand _ _; unfold Stand StandsAt; decide +kernel
    · show Stand _ _; unfold Stand StandsAt; decide +kernel
    · omega
  · cases e
    unfold Stand StandsAt
    decide +kernel

/-- A notice of each kind of subject. -/
theorem test_noticesAreLaid :
    (Notice.sessionState 3 .closing (some .siteReset) 70000).Laid 1 3 [(2, 1, 6), (3, 1, 16), (4, 4, 70000)]
      ∧ (Notice.proofOverdue 2 (some 9)).Laid 9 2 [(2, 1, 1), (3, 4, 9), (7, 1, 0)]
      ∧ (Notice.recordReady 64).Laid 7 255 [(2, 1, 64), (3, 5, 0)] := by
  unfold Notice.Laid Stand StandsAt
  decide +kernel

/-! ### Commands that are not well formed -/

theorem test_illFormed_screenedFrame :
    Instr.wellFormed (.linkScreenAnswer .plant 1 0x22 []) = false
      ∧ Instr.wellFormed (.linkScreenAnswer .plant 1 0x23 []) = true := by
  decide +kernel

theorem test_illFormed_longBody :
    Instr.wellFormed (.linkScreenAnswer .plant 1 0x02 (List.replicate 241 0)) = false
      ∧ Instr.wellFormed (.linkScreenAnswer .plant 1 0x02 (List.replicate 240 0)) = true := by
  decide +kernel

theorem test_illFormed_repeat :
    Instr.wellFormed (.repeatedRequest .plant 1 0x23 []) = false
      ∧ Instr.wellFormed (.repeatedRequest .plant 1 0x23 [0]) = true := by
  decide +kernel

theorem test_illFormed_readPosition :
    Instr.wellFormed (.readPosition .supervisor 1 none) = false
      ∧ Instr.wellFormed (.readPosition (.dispenser 0) 1 (some 0)) = false
      ∧ Instr.wellFormed (.readPosition .plant 1 none) = false
      ∧ Instr.wellFormed (.readPosition .supervisor 1 (some 0)) = true := by
  decide +kernel

theorem test_illFormed_ports :
    Instr.wellFormed (.emergencyStop .terminal 1) = false ∧ Instr.wellFormed (.readBanks (.dispenser 0) 1) = false
      ∧ Instr.wellFormed (.readRecord .plant 1 0 0) = false := by
  decide +kernel

theorem test_illFormed_entry :
    Instr.wellFormed (.loadTable 1 0 0 (List.replicate 31 0)) = false
      ∧ Instr.wellFormed (.loadTable 1 0 0 (List.replicate 32 0)) = true := by
  decide +kernel

/-! ### The commands -/

theorem test_powerOn : after .powerOn (drawing delivering) = State.reset := by
  decide +kernel

/-- The bytes of NOZZLE CONNECTED with tag 7, their check written out by hand from R167. -/
theorem test_frameDiscarded :
    after (.frameDiscarded .plant [0, 1, 2]) site = site
      ∧ ((after (.frameDiscarded (.dispenser 0) (frameBytes 7 0x10 [2])) site).monitor 0).nozzle = .connected := by
  decide +kernel

theorem test_byteGapExceeded :
    after (.byteGapExceeded .plant [0xC3, 1, 2]) site = site
      ∧ ((after (.frameDiscarded .plant [0xC3, 1, 2]) site).port .plant).collection = [0xC3, 1, 2] := by
  decide +kernel

theorem test_linkScreenAnswer :
    answered .plant (after (.linkScreenAnswer .plant 9 0x02 []) site) = [4, 0]
      ∧ answered .plant (after (.linkScreenAnswer .plant 9 0x23 []) site) = [5, 0]
      ∧ answered .plant (after (.linkScreenAnswer .plant 9 0x30 (List.replicate 12 0)) site) = [3, 0] := by
  decide +kernel

/-- A request answered once, and taken again. -/
def repeated : State := after (.answerSent .supervisor) (after (.setSiteTime 5 100) site)

theorem test_repeatedRequest :
    (after (.repeatedRequest .supervisor 5 0x46 [0, 0, 0, 100]) { repeated with tenths := 1 }).site.siteTime = 100
      ∧ ((after (.repeatedRequest .supervisor 5 0x46 [0, 0, 0, 100]) repeated).port .supervisor).toRecord = none
      ∧ answered .supervisor (after (.repeatedRequest .supervisor 5 0x46 [0, 0, 0, 100]) repeated) = [0, 0] := by
  decide +kernel

theorem test_answerSent :
    (repeated.port .supervisor).exchange = .listening
      ∧ (repeated.port .supervisor).last = some ⟨5, 0x46, [0, 0, 0, 100], frameBytes 5 0x46 [0, 0]⟩ := by
  decide +kernel

/-- A terminal with a notice in its queue: kind 5, subject 1, reference 17. -/
def noticed : State :=
  after (.authorizationExpiry 1)
    { site with sales := { site.sales with slots := site.sales.slots.set 1 (some ⟨⟨17, .fleet 500⟩, 0⟩) } }

theorem test_readNotices :
    noticed.attention .terminal = true
      ∧ answered .terminal (after (.readNotices .terminal 1) noticed) = [0, 0, 1, 5, 1, 0, 0, 0, 17, 0, 0]
      ∧ (after (.readNotices .terminal 1) noticed).attention .terminal = false
      ∧ answered .plant (after (.readNotices .plant 1) noticed) = [13, 0] := by
  decide +kernel

theorem test_nozzle :
    ((after (.nozzle 0 1 1) (drawing delivering)).session 0).endReason = some .disconnected
      ∧ ((after (.nozzle 0 1 2) site).monitor 0).progressTimer = some 20
      ∧ answered (.dispenser 0) (after (.nozzle 0 1 3) site) = [6, 0] := by
  decide +kernel

/-- Position 0 connected, with an authorization armed. -/
def armed (s : State) : State :=
  { withMonitor s 0 connected with
    sales := { s.sales with slots := s.sales.slots.set 0 (some ⟨⟨17, .prepaid 60000⟩, 1200⟩) } }

theorem test_start :
    answered (.dispenser 0) (after (.start 0 1) (armed (stored site))) = [0, 1, 0, 0, 0, 17, 5, 1, 2, 1]
      ∧ ((after (.start 0 1) (armed (stored site))).bank 0).holder = .position 0
      ∧ answered (.dispenser 0) (after (.start 0 1) site) = [1, 0] := by
  decide +kernel

theorem test_stop :
    ((after (.stop 0 1) (drawing delivering)).session 0).state = .closing
      ∧ ((after (.stop 0 1) (drawing delivering)).bank 0).holder = .free
      ∧ (after (.stop 0 1) (drawing delivering)).sales.register = some 0 := by
  decide +kernel

theorem test_pause : ((after (.pause 0 1) (drawing delivering)).session 0).factors = { Factors.none with pause := true } := by
  decide +kernel

theorem test_continue :
    ((after (.continueFill 0 1) (drawing holding)).session 0).resumeTimer = some 20
      ∧ answered (.dispenser 0) (after (.continueFill 0 1) site) = [1, 0] := by
  decide +kernel

/-- FLOW from bank 0 with the ceiling 45.17 MPa, DELIVERING; and CLOSED, ENDED with OVER PRESSURE, where the session has
taken the register in the same event. -/
theorem test_progress :
    answered (.dispenser 0) (after (.progress 0 1 2100 2400 50) (drawing delivering))
        = [0, 0, 2, 0, 0x11, 0xA5, 3, 255, 0]
      ∧ answered (.dispenser 0) (after (.progress 0 1 8751 2400 50) (drawing delivering))
        = [0, 1, 0, 255, 0, 0, byteOf SessionState.ended.code, 255, byteOf EndReason.overPressure.code]
      ∧ ((after (.progress 0 1 8751 2400 50) (drawing delivering)).session 0).state = .closing
      ∧ ((after (.progress 0 1 2100 2400 4322) (drawing delivering)).session 0).endReason = some .massLimit := by
  decide +kernel

theorem test_finalMeter :
    ((after (.finalMeter 0 1 4351) closing).sales.records.map fun r => (r.sequence, r.billed, r.overrun, r.amount))
        = [(1, 4332, 19, 59998)]
      ∧ (after (.finalMeter 0 1 4351) closing).session 0 = Session.idle := by
  decide +kernel

/-- A valid frame, and one of the wrong class. -/
theorem test_vehicleFrame :
    answered (.dispenser 0) (after (.vehicleFrame 0 1 1 0 1220 3500 2900 0) (apart Session.idle)) = [0, 0, 1, 1, 0]
      ∧ answered (.dispenser 0) (after (.vehicleFrame 0 1 1 1 1220 3500 2900 0) (apart Session.idle)) = [0, 0, 0, 0, 1] := by
  decide +kernel

theorem test_readPosition :
    answered (.dispenser 0) (after (.readPosition (.dispenser 0) 1 none) site) = [0, 0] ++ site.positionBytes 0
      ∧ answered .supervisor (after (.readPosition .supervisor 1 (some 4)) site) = [6, 0] := by
  decide +kernel

/-- A report of 70 MPa and 290 K for each bank, at 288.1 K: ambient band 2. -/
theorem test_bankStatus :
    (after (.bankStatus 1 (Quad.fill ⟨7000, 2900⟩) 2881) site).bm.freshness = .fresh
      ∧ (after (.bankStatus 1 (Quad.fill ⟨7000, 2900⟩) 2881) site).site.ambientBand = 2
      ∧ ((after (.bankStatus 1 (Quad.fill ⟨5999, 2900⟩) 2881) site).bm.refillList) = [0, 1, 2, 3] := by
  decide +kernel

theorem test_coolingCapacity :
    (after (.coolingCapacity 1 50000) site).cbu.capacity = 50000
      ∧ answered .plant (after (.coolingCapacity 1 50001) site) = [6, 0] := by
  decide +kernel

/-- A site whose bank 2 is in the refill list. -/
def low : State := { stored site with bm := { (stored site).bm with refillList := [2] } }

/-- A site that refills bank 2. -/
def refilling : State :=
  { withBank (stored site) 2 { ready with holder := .refill } with
    bm := { (withBank (stored site) 2 { ready with holder := .refill }).bm with refillInFlight := some 2 } }

theorem test_refillNext :
    answered .plant (after (.refillNext 1) low) = [0, 0, 2]
      ∧ ((after (.refillNext 1) low).bank 2).holder = .refill ∧ (after (.refillNext 1) low).bm.refillList = [] := by
  decide +kernel

theorem test_refillEnd :
    ((after (.refillEnd 1 2) refilling).bank 2).holder = .free
      ∧ ((after (.refillEnd 1 2) refilling).port .plant).queue = [.refillStop 2 .aborted]
      ∧ answered .plant (after (.refillEnd 1 1) refilling) = [1, 0] := by
  decide +kernel

theorem test_emergencyStop :
    (after (.emergencyStop .plant 1) (drawing delivering)).site.haltCause = some .plant
      ∧ ((after (.emergencyStop .plant 1) (drawing delivering)).session 0).endReason = some .emergencyStop
      ∧ ((after (.emergencyStop .plant 1) (drawing delivering)).session 0).bankSum = 0 := by
  decide +kernel

/-- A stop that ends the refill of a bank still low, a forced proof, and two fills while a third closes. -/
theorem test_stopKeepsWhatItSays :
    let s := withBank (withBank (withSession (withSession (drawing delivering) 3 { opened with state := .opening }) 1
      { ended with state := .closing }) 2 { ready with holder := .refill, pressure := some 5999, overdue := true }) 3
      { ready with holder := .proof, proofState := .proving, proof := some ⟨.forced, 12051, .unproven, 6000⟩, mass := some 7 }
    let s : State :=
      { s with
        bm := { s.bm with refillInFlight := some 2, designation := some 3, refillList := [1] }
        sales := { s.sales with register := some 1, closingTimer := some 50 } }
    let u := s.emergencyStop .plant
    u.bm.refillList = [1, 2] ∧ Notice.refillStop 2 .aborted ∈ u.outbox ∧ u.bm.designation = none
      ∧ u.bank 2 = { ready with holder := .free, pressure := some 5999, overdue := true }
      ∧ u.bank 3 = { ready with holder := .free, proofState := .unproven, mass := some 7 }
      ∧ u.sales.pendingSessions = [1, 0, 3] ∧ (u.session 0).state = .ended
      ∧ u.session 0 = s.endedAs 0 .emergencyStop ∧ u.session 3 = s.endedAs 3 .emergencyStop := by
  decide +kernel

theorem test_readBanks :
    answered .supervisor (after (.readBanks .supervisor 1) site) = [0, 0] ++ site.banksBytes := by
  decide +kernel

theorem test_authorize :
    (after (.authorize 1 0 17 0 60000 0) site).sales.slots.get 0 = some ⟨⟨17, .prepaid 60000⟩, 1200⟩
      ∧ answered .terminal (after (.authorize 1 0 18 1 60000 10) (armed site)) = [0, 0, 1, 0, 0, 0, 17]
      ∧ answered .terminal (after (.authorize 1 1 17 1 60000 10) (armed site)) = [10, 0] := by
  decide +kernel

theorem test_cancelAuthorization :
    (after (.cancelAuthorization 1 0 17) (armed site)).sales.slots.get 0 = none
      ∧ answered .terminal (after (.cancelAuthorization 1 0 18) (armed site)) = [11, 0] := by
  decide +kernel

/-- A site that holds one sale record, and whose supervisor and terminal have been told. -/
def sold : State := after (.finalMeter 0 1 4351) closing

theorem test_readRecord :
    ((answered .supervisor (after (.readRecord .supervisor 1 0 1) sold)).take 6) = [0, 1, 0, 0, 0, 1]
      ∧ answered .supervisor (after (.readRecord .supervisor 1 0 2) sold) = [11, 1]
      ∧ answered .supervisor (after (.readRecord .supervisor 1 0 1) closing) = [12, 0] := by
  decide +kernel

theorem test_settle :
    (after (.settle 1 1) sold).sales.records = [] ∧ answered .terminal (after (.settle 1 1) closing) = [12, 0] := by
  decide +kernel

/-- Site parameter 7 becomes 8 in UNCONFIGURED, where the tariff is not loaded. -/
theorem test_loadTable :
    (after (.loadTable 1 4 7 ([0, 0, 0, 8] ++ List.replicate 28 0)) State.reset).config.param 7 = 8
      ∧ answered .supervisor (after (.loadTable 1 5 0 (List.replicate 32 0)) State.reset) = [1, 0]
      ∧ answered .supervisor (after (.loadTable 1 4 24 (List.replicate 32 0)) State.reset) = [6, 0] := by
  decide +kernel

/-- Nothing loaded: the density table's first entry is found. -/
theorem test_commission :
    answered .supervisor (after (.commission 1) State.reset) = [14, 0, 0, 0]
      ∧ answered .supervisor (after (.commission 1) site) = [1, 0] := by
  decide +kernel

theorem test_enterService :
    (after (.enterService 1) site).site.mode = .service
      ∧ (after (.enterService 1) site).site.working = some (config profile) := by
  decide +kernel

/-- A site in SERVICE. -/
def service : State := { site with site := { site.site with mode := .service, working := some (config profile) } }

theorem test_leaveService :
    answered .supervisor (after (.leaveService 1) service) = [14, 0, 0, 0] ∧ (after (.leaveService 1) service).site = service.site := by
  decide +kernel

theorem test_setBand :
    (after (.setBand 1 1) site).site.priceBand = .offPeak ∧ answered .supervisor (after (.setBand 1 2) site) = [6, 0] := by
  decide +kernel

theorem test_setTariff :
    (after (.setTariff 1 15 999999) site).sales.tariff.getD 15 0 = 999999
      ∧ answered .supervisor (after (.setTariff 1 16 0) site) = [6, 0] := by
  decide +kernel

theorem test_setSiteTime :
    (after (.setSiteTime 1 100) site).site.siteTime = 100 ∧ (after (.setSiteTime 1 28801) site).bm.banks.at0.overdue = true := by
  decide +kernel

theorem test_siteReset :
    ((after (.siteReset 1) (drawing delivering)).sales.records.map fun r => (r.endReason, r.flags.interrupted))
        = [(some .siteReset, true)]
      ∧ (after (.siteReset 1) (drawing delivering)).session 0 = Session.idle := by
  decide +kernel

/-- A reset that ends the refill of a bank still low and a fill, behind one that closes. -/
theorem test_resetSellsInOrder :
    let s := withBank (withSession (drawing delivering) 1 { ended with state := .closing, finalMass := some 4351 }) 2
      { ready with holder := .refill, pressure := some 5999, overdue := true }
    let s : State :=
      { s with
        bm := { s.bm with refillInFlight := some 2, refillList := [1] }
        sales := { s.sales with register := some 1, closingTimer := some 50 } }
    let u := s.siteReset
    let marked : PosId → Session := fun p =>
      let x := if (s.session p).running then s.endedAs p .siteReset else s.session p
      { x with flags := { x.flags with interrupted := true } }
    let v : State := { s with sessions := ⟨marked 0, marked 1, marked 2, marked 3⟩ }
    u.sales.records = [v.saleRecord 1, { v.saleRecord 0 with sequence := 2 }]
      ∧ (u.sales.records.map fun r => (r.position, r.sequence, r.metered, r.flags.estimated, r.flags.interrupted))
        = [(1, 1, 4351, false, true), (0, 2, 0, true, true)]
      ∧ Notice.recordReady 2 ∈ u.outbox ∧ Notice.refillStop 2 .aborted ∈ u.outbox ∧ u.bm.refillList = [1, 2]
      ∧ Notice.sessionState 0 .idle (some .siteReset) 17 ∈ u.outbox
      ∧ u.bank 2 = { ready with holder := .free, pressure := some 5999 } := by
  decide +kernel

theorem test_resumeSite :
    (after (.resumeSite 1) { site with site := { site.site with mode := .halted, haltCause := some .plant } }).site = site.site := by
  decide +kernel

theorem test_clearSuspect :
    ((after (.clearSuspect 1 3) (withBank site 3 { ready with proofState := .suspect })).bank 3).proofState = .unproven
      ∧ answered .supervisor (after (.clearSuspect 1 3) site) = [1, 0] := by
  decide +kernel

theorem test_readSite :
    answered .supervisor (after (.readSite 1 0 0 0 0) site) = [0, 0] ++ site.summaryBytes
      ∧ answered .supervisor (after (.readSite 1 1 0 0 0) site) = [11, 0]
      ∧ answered .supervisor (after (.readSite 1 2 0 0 0) site) = [6, 0] := by
  decide +kernel

theorem test_readCooling :
    answered .supervisor (after (.readCooling 1) site) = [0, 0] ++ site.coolingBytes := by
  decide +kernel

theorem test_siteTimeTick :
    (after .siteTimeTick { site with tenths := 10 }).site.siteTime = 1
      ∧ (after .siteTimeTick { site with site := { site.site with siteTime := 4294967295 } }).site.siteTime = 0 := by
  decide +kernel

theorem test_freshnessTimerExpiry :
    (after .freshnessTimerExpiry (drawing delivering)).bm.freshness = .stale
      ∧ ((after .freshnessTimerExpiry (drawing delivering)).session 0).factors.bank = true := by
  decide +kernel

/-- A refill of bank 2 for which position 0 waits. -/
def yielding : State :=
  let x := { opened with
    state := .connecting, phase := some .claim, kind := some .first, attempt := some .first, awaited := some 2,
    bankWaitTimer := some 300 }
  let s := withBank (apart x) 2 { ready with holder := .refill, queue := [0] }
  { s with bm := { s.bm with refillInFlight := some 2, yieldTimer := some 0 } }

theorem test_yieldTimerExpiry :
    ((after .yieldTimerExpiry yielding).bank 2).holder = .position 0
      ∧ ((after .yieldTimerExpiry yielding).session 0).phase = some .connect := by
  decide +kernel

/-- A bank under an opportunistic proof. -/
def proving : Bank := { ready with proofState := .proving, proof := some ⟨.opportunistic, 12050, .proven, 0⟩ }

theorem test_proofTimerExpiry :
    ((after (.proofTimerExpiry 1) (withBank (stored site) 1 proving)).bank 1).proofState = .proven
      ∧ ((after (.proofTimerExpiry 1) (withBank (stored site) 1
        { proving with proof := some ⟨.opportunistic, 12051, .proven, 0⟩ })).bank 1).proofState = .suspect := by
  decide +kernel

/-- Position 0 waits for cooling in OPENING. -/
def waiting (c : SiteConfig) : State :=
  { withSession (withMonitor (stored (serving c)) 0 connected) 0 { opened with cooling := .waiting } with
    cbu := { capacity := 1000, grants := [], queue := [⟨0, 1001, 300, 0⟩] } }

theorem test_coolingWaitExpiry :
    ((after (.coolingWaitExpiry 0) (waiting (config profile))).session 0).endReason = some .coolingUnavailable
      ∧ (after (.coolingWaitExpiry 0) (waiting (config profile))).cbu.queue = [] := by
  decide +kernel

theorem test_progressTimerExpiry :
    ((after (.progressTimerExpiry 0) (drawing delivering)).session 0).endReason = some .dispenserSilent
      ∧ ((after (.progressTimerExpiry 0) (apart opened)).session 0).state = .opening := by
  decide +kernel

/-- A report that comes together with the silence is answered with ENDED; the next one, and one that comes 0.1 s later,
with the state that stands. -/
theorem test_progressAfterSilence :
    let silent := after (.progressTimerExpiry 0) (drawing delivering)
    let first := after (.progress 0 1 2100 2400 50) silent
    let next := after (.progress 0 2 2100 2400 50) (after (.answerSent (.dispenser 0)) first)
    let late := after (.progress 0 1 2100 2400 50) silent.tick
    (silent.session 0).state = .closing
      ∧ (answered (.dispenser 0) first).drop 2
        = [0, 255, 0, 0, byteOf SessionState.ended.code, 255, byteOf EndReason.dispenserSilent.code]
      ∧ (answered (.dispenser 0) next).drop 2
        = [0, 255, 0, 0, byteOf SessionState.closing.code, 255, byteOf EndReason.dispenserSilent.code]
      ∧ (answered (.dispenser 0) late).drop 2
        = [0, 255, 0, 0, byteOf SessionState.closing.code, 255, byteOf EndReason.dispenserSilent.code] := by
  decide +kernel

/-- A session of demand 600 that stops, and behind it one of demand 500 that awaits its cooling. -/
def sharing (x : Session) : State :=
  let s := withSession (drawing delivering) 1 x
  { s with cbu := { capacity := 1000, grants := [⟨0, 600, 300⟩], queue := [⟨1, 500, 300, 20⟩] } }

/-- The end of one session grants the next; and where no bank serves that one, it ends in its turn, and takes the register
before the other. -/
theorem test_endGrantsTheNext :
    let next := { opened with cooling := .waiting }
    let s := sharing next
    let t := s.endWith 0 .customerStop
    let far := withMonitor (sharing next) 1 { connected with pressure := some 6701 }
    let u := far.endWith 0 .customerStop
    t.cbu.grants = [⟨1, 500, 300⟩] ∧ t.cbu.queue = [] ∧ (t.session 1).cooling = .granted ∧ (t.session 1).state = .connecting
      ∧ t.sales.register = some 0 ∧ t.session 0 = { s.endedAs 0 .customerStop with state := .closing }
      ∧ u.cbu.grants = [] ∧ u.cbu.queue = [] ∧ (u.session 1).endReason = some .banksExhausted
      ∧ u.sales.register = some 1 ∧ u.sales.closeQueue = [0] ∧ u.session 0 = far.endedAs 0 .customerStop := by
  decide +kernel

/-- A vehicle record that is VALID. -/
def inView : Monitor :=
  { connected with record := .valid, vehicle := some ⟨.h70, 1220, 3500, 2900, .run, 548, 2685⟩, ageTimer := some 10 }

theorem test_ageTimerExpiry :
    ((after (.ageTimerExpiry 0) (withMonitor (drawing { delivering with comm := some .comm }) 0 inView)).session 0).comm
        = some .nonComm
      ∧ ((after (.ageTimerExpiry 0) (withMonitor (drawing delivering) 0 inView)).monitor 0).record = .lost := by
  decide +kernel

/-- A session in a phase of its first connection, at bank 0. -/
def inPhase (f : Phase) : Session :=
  { opened with
    state := .connecting, phase := some f, phaseTimer := some 0, kind := some .first, attempt := some .first
    bank := some 0, cascadePos := some 0, leakStart := some 2050, cooling := .granted }

theorem test_connectPhaseEnd :
    ((after (.connectPhaseEnd 0) (drawing (inPhase .connect))).session 0).phase = some .leakCheck
      ∧ ((after (.connectPhaseEnd 0) (drawing (inPhase .connect))).session 0).leakStart = some 2000 := by
  decide +kernel

theorem test_leakCheckEnd :
    ((after (.leakCheckEnd 0) (drawing (inPhase .leakCheck))).session 0).rampBase = some 2000
      ∧ ((after (.leakCheckEnd 0) (drawing { inPhase .leakCheck with leakStart := some 2051 })).session 0).attempt
        = some .recheck := by
  decide +kernel

theorem test_settlePhaseEnd :
    ((after (.settlePhaseEnd 0) (drawing { inPhase .settle with kind := some .switch })).session 0).state = .delivering := by
  decide +kernel

theorem test_bankWaitExpiry :
    ((after (.bankWaitExpiry 0) yielding).session 0).endReason = some .bankTimeout
      ∧ ((after (.bankWaitExpiry 0) yielding).bank 2).queue = [] := by
  decide +kernel

/-- A segment that goes on, and one at whose boundary bank 0 no longer serves. -/
theorem test_segmentBoundary :
    ((after (.segmentBoundary 0) (drawing delivering)).session 0).segmentTimer = some 20
      ∧ ((after (.segmentBoundary 0) (withBank (drawing delivering) 0
        { ready with holder := .position 0, pressure := some 2299 })).session 0).bank = some 1 := by
  decide +kernel

theorem test_warmTimerExpiry :
    ((after (.warmTimerExpiry 0) (drawing { delivering with warmTimer := some 0 })).session 0).factors
      = { Factors.none with gasWarm := true } := by
  decide +kernel

theorem test_resumeTimerExpiry :
    ((after (.resumeTimerExpiry 0) (drawing { holding with factors := Factors.none, resumeTimer := some 0 })).session 0).state
      = .delivering := by
  decide +kernel

/-- The interval that has passed the hold limit of 60.0 s in this hold is not counted; earlier held time is. -/
theorem test_heldTimeAtResume :
    let x := { holding with factors := Factors.none, resumeTimer := some 0, heldTime := 601 }
    ((after (.resumeTimerExpiry 0) (drawing { x with heldBefore := 600 })).session 0).heldTime = 600
      ∧ ((after (.resumeTimerExpiry 0) (drawing { x with heldBefore := 601 })).session 0).heldTime = 601 := by
  decide +kernel

theorem test_keepTimerExpiry :
    ((after (.keepTimerExpiry 0) (drawing holding)).session 0).bank = none
      ∧ ((after (.keepTimerExpiry 0) (drawing holding)).bank 0).holder = .free := by
  decide +kernel

theorem test_holdLimitExpiry :
    ((after (.holdLimitExpiry 0) (drawing holding)).session 0).endReason = some .holdLimit := by
  decide +kernel

theorem test_authorizationExpiry :
    (after (.authorizationExpiry 0) (armed site)).sales.slots.get 0 = none
      ∧ ((after (.authorizationExpiry 0) (armed site)).port .terminal).queue = [.authorizationExpired 0 17] := by
  decide +kernel

theorem test_closingTimeout :
    ((after .closingTimeout closing).sales.records.map fun r => r.flags.estimated) = [true]
      ∧ (after .closingTimeout closing).sales.register = none := by
  decide +kernel


/-! ### States that meet the hypotheses of the statements

One theorem for each statement that has hypotheses, clause by clause. -/

/-- A port at rest with no request recorded takes any whole frame. -/
theorem takes_of {s : State} {f : Frame}
    (h : (s.port f.port).exchange = .listening ∧ (s.port f.port).collection = [] ∧ (s.port f.port).last = none
      ∧ s.outbox = []) : Takes s f :=
  ⟨h.1, h.2.1, fun l e => (by rw [h.2.2.1] at e; cases e), h.2.2.2⟩

/-- What Consistent says of claims, queues and cooling. -/
abbrev ClaimsAgree (s : State) : Prop :=
  (∀ b p, p ∈ (s.bank b).queue ↔ (s.session p).awaited = some b)
    ∧ (∀ b p, (s.bank b).holder = .position p ↔ (s.session p).bank = some b)
    ∧ (∀ p, (s.session p).bank = none ∨ (s.session p).awaited = none)
    ∧ (∀ b, (s.bank b).queue.Nodup)
    ∧ (∀ b, s.bm.refillInFlight = some b → (s.bank b).holder = .refill)
    ∧ (∀ b, ∀ f ∈ (s.bank b).proof, f.kind = .forced → (s.bank b).holder = .free ∨ (s.bank b).holder = .proof)
    ∧ s.cbu.positions.Nodup
    ∧ (∀ p ∈ s.cbu.positions, (s.session p).running = true)
    ∧ ∀ p, (s.session p).running = false →
        (s.session p).bank = none ∧ (s.session p).awaited = none ∧ (s.session p).awaitingFresh = false

/-- What Consistent says of the sessions that wait to be closed. -/
abbrev ClosingsAgree (s : State) : Prop :=
  (∀ p ∈ s.sales.pendingSessions, (s.session p).state = .ended ∨ (s.session p).state = .closing)
    ∧ s.sales.pendingSessions.Nodup
    ∧ (∀ p, (s.session p).finalMass.isSome = true → (s.session p).state = .ended ∨ (s.session p).state = .closing)
    ∧ (∀ p, (s.session p).state = .closing → s.sales.register = some p)
    ∧ (∀ p, (s.session p).state = .ended → p ∈ s.sales.closeQueue)
    ∧ (∀ p, s.sales.register = some p → (s.session p).state = .closing)
    ∧ (s.sales.register = none → s.sales.closeQueue = [])

/-- What Consistent says, in a form that can be evaluated. -/
def agrees (s : State) : Bool := decide (ClaimsAgree s) && decide (ClosingsAgree s)

theorem consistent_of {s : State} (h : agrees s = true) : Consistent s :=
  have h := (Bool.and_eq_true _ _).mp h
  let ⟨a, b, c, d, e, f, g, i, j⟩ := of_decide_eq_true h.1
  let ⟨l, m, n, o, q, r, u⟩ := of_decide_eq_true h.2
  ⟨a, b, c, d, e, fun x y z => f x y z, g, i, j, l, m, n, o, q, r, u⟩

/-- What BanksAgree says, in a form that can be evaluated. -/
theorem banksAgree_of {s : State}
    (h : (∀ b, (s.bank b).proof.isSome = true ↔ (s.bank b).proofState = .proving)
      ∧ (∀ b, ∀ f ∈ (s.bank b).proof, f.before = .proven ∨ f.before = .unproven)
      ∧ (∀ b, (∃ f ∈ (s.bank b).proof, f.kind = .forced) ↔ s.bm.designation = some b)
      ∧ (∀ b, (s.bank b).holder = .proof ↔ s.bm.designation = some b)
      ∧ (∀ b, ∀ f ∈ (s.bank b).proof, f.kind = .opportunistic → (s.bank b).holder = .free)
      ∧ (∀ b, (s.bank b).holder = .refill ↔ s.bm.refillInFlight = some b)
      ∧ ∀ b, (s.bank b).holder = .free ∨ (s.bank b).holder = .proof → (s.bank b).queue = []) : BanksAgree s :=
  let ⟨a, b, c, d, e, f, g⟩ := h
  ⟨a, fun x y z => b x y z, fun x => ⟨fun ⟨y, z, w⟩ => (c x).mp ⟨y, z, w⟩, (c x).mpr⟩, d, fun x y z => e x y z, f, g⟩

/-- What Coherent says of every session, in a form that can be evaluated. -/
theorem coherent_of {s : State}
    (h : ∀ p, ((s.session p).phase.isSome = true ↔ (s.session p).state = .connecting)
      ∧ ((s.session p).awaited.isSome = true ∨ (s.session p).awaitingFresh = true → (s.session p).phase = some .claim)
      ∧ ((s.session p).bank.isSome = true → (s.session p).phase ≠ some .claim ∧ (s.session p).resumePoint ≠ some .claim
        ∧ ((s.session p).state = .connecting ∨ (s.session p).state = .delivering ∨ (s.session p).state = .held))
      ∧ ((s.session p).resumePoint.isSome = true → (s.session p).state = .held)) : ∀ p, (s.session p).Coherent :=
  fun p => ⟨(h p).1, (h p).2.1, (h p).2.2.1, (h p).2.2.2⟩

/-- A configuration with every entry loaded. -/
def full : SiteConfig :=
  { config profile with
    density := (List.range 25).map fun i => some (List.replicate 16 (i * 2000))
    profiles := List.replicate 48 (some profile)
    cascadeH35 := some [2]
    params := some ((List.range 24).map SiteConfig.neverLoaded.param) }

/-- A site in a mode. -/
def modal (m : SiteMode) (c : SiteConfig) : State :=
  { site with site := { site.site with mode := m, config := c } }

theorem drawing_consistent : Consistent (drawing delivering) := consistent_of (by decide +kernel)

theorem holding_consistent : Consistent (drawing holding) := consistent_of (by decide +kernel)

theorem closing_consistent : Consistent closing := consistent_of (by decide +kernel)

theorem yielding_consistent : Consistent yielding := consistent_of (by decide +kernel)

/-- The hold limit of 60.0 s is not due at it and due above it. -/
theorem witness_IdleStepPassesTimeOrTakesOneExpiry :
    site.pending = [] ∧ site.due = [] ∧ ({ site with tenths := 10 }).due = [.siteTimeTick]
      ∧ ({ closing with tenths := 10, sales := { closing.sales with closingTimer := some 0 } }).due
        = .siteTimeTick :: .closingTimeout :: []
      ∧ (drawing { holding with keepTimer := none, heldTime := 600 }).due = []
      ∧ (drawing { holding with keepTimer := none, heldTime := 601 }).due = [.holdLimitExpiry 0] := by
  decide +kernel

/-- A frame of one byte of body, whose bytes come in one piece or in two. -/
theorem witness_BytesThatMakeNoFrameReachNoBlock :
    let s := after (.frameDiscarded .plant [0xC3, 1]) site
    ((after (.readBanks .plant 1) site).port .plant).exchange ≠ .listening
      ∧ (site.port .plant).exchange = .listening ∧ (site.port .plant).collection = []
      ∧ (∀ b ∈ ([0, 0xC2] : List Byte), b ≠ 0xC3#8)
      ∧ (s.port .plant).exchange = .listening ∧ (s.port .plant).collection = [0xC3, 1]
      ∧ (List.replicate 241 0#8).length = (241#8).toNat ∧ 240 < (241#8).toNat
      ∧ (s.port .plant).collection ++ [0x10, 241] = [0xC3, 1, 0x10, 241]
      ∧ ([2] : List Byte).length = (1#8).toNat ∧ (1#8).toNat ≤ 240 ∧ 0#8 ++ 0#8 ≠ crc (1 :: 0x10 :: 1 :: [2])
      ∧ (s.port .plant).collection ++ [0x10, 1, 2, 0, 0] = 0xC3 :: 1 :: 0x10 :: 1 :: ([2] ++ [0, 0])
      ∧ (s.port .plant).collection ++ [0x10, 1, 2, 0] = (0xC3#8 :: 1 :: 0x10 :: 1 :: ([2] ++ [0, 0])).take 6
      ∧ (s.port .plant).collection ++ [] = (0xC3#8 :: 1 :: 0x10 :: 1 :: ([2] ++ [0, 0])).take 2 := by
  decide +kernel

theorem witness_FrameBytesSpellTheRequest :
    Instr.wellFormed (.setBand 1 255) = true
      ∧ Instr.request? (.setBand 1 255) = some (setBandFrame 1 255, setBandRequest 255)
      ∧ (site.port (setBandFrame 1 255).port).exchange = .listening
      ∧ (site.port (setBandFrame 1 255).port).collection = [] :=
  ⟨by decide +kernel, rfl, by decide +kernel, by decide +kernel⟩

theorem witness_ByteGapAbandonsTheCollection :
    (List.replicate 240 0#8).length ≤ 240 ∧ 245 < (List.replicate 240 0#8).length + 6
      ∧ (site.port .plant).exchange = .listening ∧ (site.port .plant).collection = [] := by
  decide +kernel

theorem witness_ScreeningAnswersItself :
    (∀ q ∈ [PortId.plant, .terminal, .supervisor, .dispenser 0],
        (site.port q).exchange = .listening ∧ (site.port q).collection = [])
      ∧ bodyLength .plant 0x02 = none
      ∧ (0x23#8).toNat = 0x23 ∧ ([] : List Byte).length ≠ 1
      ∧ (0x30#8).toNat = 0x30 ∧ (List.replicate 12 0#8).length = 12 ∧ PortId.plant ∉ [PortId.terminal]
      ∧ (0x18#8).toNat = 0x18 ∧ ([0] : List Byte).length ≠ 0 := by
  decide +kernel

theorem witness_RepeatIsAnsweredFromTheRecord :
    (repeated.port .supervisor).exchange = .listening ∧ (repeated.port .supervisor).collection = []
      ∧ screen .supervisor 0x46 4 = none
      ∧ (repeated.port .supervisor).last = some ⟨5, 0x46, [0, 0, 0, 100], frameBytes 5 0x46 [0, 0]⟩ := by
  decide +kernel

theorem witness_SentAnswerFillsTheRecord :
    ((after (.readBanks .plant 1) site).port .plant).exchange = .answering ∧ (site.port .plant).exchange ≠ .answering := by
  decide +kernel

theorem witness_ReadNoticesGivesTheOldestEight :
    Takes site (readNoticesFrame .terminal 1) ∧ (site.port .terminal).queue = []
      ∧ Takes noticed (readNoticesFrame .terminal 1) ∧ (noticed.port .terminal).queue ≠ [] :=
  ⟨takes_of (by decide +kernel), by decide +kernel, takes_of (by decide +kernel), by decide +kernel⟩

theorem witness_PostsCoalesceInTheQueue :
    ([Notice.recordReady 1, .authorizationExpired 1 17].map Notice.key).Nodup := by
  decide +kernel

/-- A plant port whose queue is full. -/
def told : State :=
  site.modPort .plant fun x => { x with queue :=
    [.coolingDemand 1, .refillStop 3 .yield, .refillStop 2 .yield, .refillStop 1 .yield, .refillStop 0 .yield] }

theorem witness_QueuesFitTheirCapacity : Queues told ∧ (told.port .plant).queue.length = 5 := by
  refine ⟨fun q => ?_, by decide +kernel⟩
  cases q with
  | dispenser n => revert n; decide +kernel
  | plant => decide +kernel
  | terminal => decide +kernel
  | supervisor => decide +kernel

/-- Position 0 delivers, its port rests, and its customer's STOP waits. -/
def stopping : State := { drawing delivering with pending := [.stop 0 1] }

theorem stopping_steps : ∃ t, step stopping = .next t := ⟨_, rfl⟩

theorem stopping_port (q : PortId) : stopping.port q = Port.powerOn := reset_port q

theorem witness_StepsKeepPortsAtRest : AtRest stopping ∧ Queues stopping ∧ ∃ t, step stopping = .next t := by
  refine ⟨⟨by decide +kernel, fun q => ?_⟩, fun q => ?_, stopping_steps⟩ <;> rw [stopping_port] <;>
    simp [Port.rests, Port.powerOn]

theorem witness_StepsKeepSiteAndMonitorsSound :
    stopping.site.sound ∧ (∀ p, (stopping.monitor p).sound) ∧ ∃ t, step stopping = .next t :=
  ⟨by unfold SiteControl.sound; decide +kernel, by unfold Monitor.sound; decide +kernel, stopping_steps⟩

/-- The capacity is granted whole, to position 0. -/
def cooled : State := { stopping with cbu := { capacity := 1000, grants := [⟨0, 1000, 300⟩], queue := [] } }

theorem witness_StepsKeepGrantsWithinCapacity : WithinCapacity cooled ∧ ∃ t, step cooled = .next t :=
  ⟨by unfold WithinCapacity; decide +kernel, _, rfl⟩

/-- A bank under a forced proof, one given to the compressor for which a position waits, and one held by a position. -/
theorem witness_StepsKeepClaimsConsistent :
    let probing := withBank (stored site) 1
      { ready with holder := .proof, proofState := .proving, proof := some ⟨.forced, 12051, .proven, 6000⟩ }
    let proved : State := { probing with bm := { probing.bm with designation := some 1 } }
    (Consistent cooled ∧ OneClaim cooled ∧ (∀ p, (cooled.session p).Coherent) ∧ BanksAgree cooled)
      ∧ (Consistent yielding ∧ OneClaim yielding ∧ (∀ p, (yielding.session p).Coherent) ∧ BanksAgree yielding)
      ∧ (Consistent proved ∧ OneClaim proved ∧ (∀ p, (proved.session p).Coherent) ∧ BanksAgree proved)
      ∧ (∃ t, step cooled = .next t) ∧ (∃ t, step yielding = .next t) ∧ ∃ t, step proved = .next t :=
  ⟨⟨consistent_of (by decide +kernel), by unfold OneClaim; decide +kernel, coherent_of (by decide +kernel),
      banksAgree_of (by decide +kernel)⟩,
    ⟨yielding_consistent, by unfold OneClaim; decide +kernel, coherent_of (by decide +kernel),
      banksAgree_of (by decide +kernel)⟩,
    ⟨consistent_of (by decide +kernel), by unfold OneClaim; decide +kernel, coherent_of (by decide +kernel),
      banksAgree_of (by decide +kernel)⟩, ⟨_, rfl⟩, ⟨_, rfl⟩, _, rfl⟩

/-- A site with one sale record, and position 0 closing. -/
def selling : State :=
  { closing with
    sales := { closing.sales with records := sold.sales.records, counter := 2 }, pending := [.closingTimeout] }

theorem fair_of {s : State}
    (h : (∀ p, ∀ price ∈ (s.session p).unitPrice, (s.session p).massCeiling = some ((s.session p).ceilingAt price))
      ∧ ∀ r ∈ s.sales.records, r.metered = r.billed + r.overrun
        ∧ (match r.auth.kind with
          | .prepaid a => decide (r.amount ≤ a)
          | .fleet m => decide (r.billed ≤ m)) = true) : FairSales s := by
  refine ⟨fun p price e => h.1 p price e, fun r m => ?_⟩
  have ⟨a, b⟩ := h.2 r m
  refine ⟨a, fun x e => ?_, fun x e => ?_⟩ <;> rw [e] at b <;> exact of_decide_eq_true b

/-- What Numbered says, in a form that can be evaluated. -/
theorem numbered_of {s : State}
    (h : s.sales.records.Pairwise (fun a b => a.sequence < b.sequence)
      ∧ (s.sales.counter ≠ 0 → ∀ r ∈ s.sales.records, r.sequence < s.sales.counter)
      ∧ s.openPositions.length ≤ s.numbersLeft ∧ s.sales.records.length + s.openPositions.length ≤ 64) : Numbered s :=
  ⟨h.1, h.2.1, h.2.2.1, h.2.2.2⟩

/-- The next number to give, the last one, and none left. -/
theorem witness_StepsKeepSalesFairAndNumbered :
    let last : State := { selling with sales := { selling.sales with counter := 4294967295 } }
    let spent : State := { sold with sales := { sold.sales with counter := 0 } }
    (Consistent selling ∧ FairSales selling ∧ Numbered selling)
      ∧ (Consistent last ∧ FairSales last ∧ Numbered last) ∧ (Consistent spent ∧ FairSales spent ∧ Numbered spent)
      ∧ (∃ t, step selling = .next t) ∧ (∃ t, step last = .next t) ∧ ∃ t, step spent = .next t :=
  ⟨⟨consistent_of (by decide +kernel), fair_of (by decide +kernel), numbered_of (by decide +kernel)⟩,
    ⟨consistent_of (by decide +kernel), fair_of (by decide +kernel), numbered_of (by decide +kernel)⟩,
    ⟨consistent_of (by decide +kernel), fair_of (by decide +kernel), numbered_of (by decide +kernel)⟩,
    ⟨_, rfl⟩, ⟨_, rfl⟩, _, rfl⟩

theorem absent (n i : Nat) (α : Type) : (List.replicate n (none : Option α)).getD i none = none := by
  rw [List.getD_eq_getElem?_getD, List.getElem?_replicate]
  split <;> rfl

/-- A part at power-on whose first density row is loaded, with its greatest values. -/
def loaded : State :=
  { State.reset with
    site := { State.reset.site with
      config := { SiteConfig.neverLoaded with
        density := some (List.replicate 16 65535) :: List.replicate 24 none } }
    pending := [.commission 1] }

theorem loaded_steps : ∃ t, step loaded = .next t := ⟨_, rfl⟩

theorem loaded_active : ActiveWithin loaded := by
  unfold ActiveWithin
  decide +kernel

theorem loaded_inRange : loaded.site.config.InRange where
  rows := by decide +kernel
  density i row e := by
    cases i with
    | zero => cases e; decide +kernel
    | succ i => cases (absent 24 i _).symm.trans e
  profiles i f e := by cases (absent 48 i _).symm.trans e
  banks b e h := by cases (Quad.get_fill none b).symm.trans h
  cascades := ⟨nofun, nofun⟩
  params := nofun

theorem loaded_working : loaded.site.working = none := rfl

theorem witness_StepsKeepTablesInRange :
    TablesInRange loaded ∧ ActiveWithin loaded ∧ ∃ t, step loaded = .next t :=
  ⟨⟨loaded_inRange, fun c e => (by rw [loaded_working] at e; cases e), by decide +kernel, by decide +kernel⟩, loaded_active, loaded_steps⟩

theorem ceilings_of {s : State}
    (h : ∀ p, (∀ c ∈ (s.session p).flowCeiling, c ≤ (s.session p).mawp)
      ∧ ∀ c ∈ (s.session p).pulseCeiling, c ≤ (s.session p).mawp) : CeilingsWithin s :=
  fun p c e => e.elim (fun x => (h p).1 c x) fun x => (h p).2 c x

theorem witness_StepsKeepCeilingsWithinMawp : CeilingsWithin stopping ∧ ∃ t, step stopping = .next t :=
  ⟨ceilings_of (by decide +kernel), stopping_steps⟩

theorem witness_DensityIsInterpolatedAndRoundedOnce :
    corners corner 7240 2853 = [41030, 42860, 40020, 41830] ∧ corners corner 12001 3701 = [0, 0, 0, 51600] := by
  decide +kernel

theorem witness_DensityStaysWithinItsCorners :
    (∀ d ∈ corners corner 7240 2853, 40020 ≤ d ∧ d ≤ 42860) ∧ (∀ i < 25, densityRowFails full i = false)
      ∧ corner.density.getD 13 none = none := by
  decide +kernel

theorem witness_MassesChargeAndCeilingsByFormula :
    full.banks.get 3 = some ⟨300, 9000, 6000, 8500⟩ ∧ corner.banks.get 3 = none
      ∧ (site.session 0).rampBase = none ∧ ((drawing delivering).session 0).rampBase = some 1520 := by
  decide +kernel

/-- A part whose ports are as at power-on, with no event under way, takes any whole frame. -/
theorem takes_any {s : State} (h : s.ports = State.reset.ports) (o : s.outbox = []) (f : Frame) : Takes s f := by
  have e : s.port f.port = Port.powerOn := by
    unfold State.port
    rw [h]
    exact reset_port f.port
  exact takes_of ⟨by rw [e]; rfl, by rw [e]; rfl, by rw [e]; rfl, o⟩

theorem witness_ReadsGiveTheStateAsItStands :
    (∀ f, Takes site f) ∧ (3#8).toNat = (3 : PosId).val ∧ 4 ≤ (4#8).toNat
      ∧ (∀ b, (site.bank b).queue.length ≤ 4) ∧ site.bm.refillList.length ≤ 4 ∧ site.cbu.grants.length ≤ 4
      ∧ site.cbu.queue.length ≤ 4 :=
  ⟨takes_any rfl rfl, by decide +kernel⟩

/-- Numbers 1 to 3 at a site that holds record 1 and closes one session more. -/
theorem witness_ReadRecordAnswersByNumber :
    (∀ f, Takes selling f) ∧ (∀ f, Takes closing f) ∧ 1 < (2#8).toNat ∧ closing.sales.records = []
      ∧ (selling.sales.records.map (·.sequence) = [(1#32).toNat])
      ∧ (∀ r ∈ selling.sales.records, r.sequence ≠ (2#32).toNat ∧ r.sequence ≠ (3#32).toNat)
      ∧ 0 < selling.sales.pendingSessions.length ∧ selling.sales.counter ≠ 0
      ∧ (2#32).toNat = selling.sales.counter + 0
      ∧ ∀ k < selling.sales.pendingSessions.length, (3#32).toNat ≠ selling.sales.counter + k :=
  ⟨takes_any rfl rfl, takes_any rfl rfl, by decide +kernel⟩

/-- A site in SERVICE with a working configuration. -/
def inService (c : SiteConfig) : State := { site with site := { site.site with mode := .service, working := some c } }

theorem witness_ReadSiteGivesSummaryOrEntry :
    (∀ f, Takes (inService full) f) ∧ (∀ f, Takes site f)
      ∧ ((4#8).toNat ≤ 4 ∧ (1#8).toNat ≤ 1 ∧ (23#8).toNat < [25, 48, 6, 4, 24].getD (4#8).toNat 0)
      ∧ ¬(24#8).toNat < [25, 48, 6, 4, 24].getD (4#8).toNat 0
      ∧ (inService full).site.mode = .service ∧ (inService full).site.working = some full
      ∧ (config profile).entryBytes 4 23 = none ∧ (full.entryBytes 4 23).isSome = true
      ∧ site.site.working = none :=
  ⟨takes_any rfl rfl, takes_any rfl rfl, by decide +kernel⟩

theorem witness_CommissionPutsTheSiteToService :
    (∀ f, Takes (modal .unconfigured full) f) ∧ (∀ f, Takes State.reset f) ∧ (∀ f, Takes site f)
      ∧ (modal .unconfigured full).site.mode = .unconfigured ∧ validate (modal .unconfigured full).site.config = none
      ∧ State.reset.site.mode = .unconfigured ∧ validate State.reset.site.config = some (0, 0)
      ∧ site.site.mode ≠ .unconfigured :=
  ⟨takes_any rfl rfl, takes_any rfl rfl, takes_any rfl rfl, by decide +kernel⟩

theorem witness_ServiceTakesACopyAndPutsItInForce :
    (∀ f, Takes site f) ∧ (∀ f, Takes (inService full) f) ∧ (∀ f, Takes (inService (config profile)) f)
      ∧ site.site.mode = .serving ∧ (inService full).site.mode = .service ∧ validate full = none
      ∧ validate (config profile) = some (0, 0) :=
  ⟨takes_any rfl rfl, takes_any rfl rfl, takes_any rfl rfl, by decide +kernel⟩

/-- A site HALTED by the plant. -/
def halted : State := { site with site := { site.site with mode := .halted, haltCause := some .plant } }

theorem witness_ResumeSiteServesAgain :
    (∀ f, Takes halted f) ∧ (∀ f, Takes site f) ∧ halted.site.mode = .halted ∧ site.site.mode ≠ .halted :=
  ⟨takes_any rfl rfl, takes_any rfl rfl, by decide +kernel⟩

theorem witness_SetBandAndSetTariffReplaceOneValue :
    (∀ f, Takes site f) ∧ (∀ f, Takes State.reset f) ∧ (1#8).toNat = PriceBand.offPeak.code ∧ 1 < (2#8).toNat
      ∧ site.site.mode ≠ .unconfigured ∧ State.reset.site.mode = .unconfigured ∧ (15#8).toNat ≤ 15
      ∧ (999999#32).toNat ≤ 999999 ∧ 15 < (16#8).toNat ∧ 999999 < (1000000#32).toNat := by
  exact ⟨takes_any rfl rfl, takes_any rfl rfl, by decide +kernel⟩

/-- An entry of one number in four bytes. -/
def entryOf (n : Nat) : List Byte := be 4 n ++ List.replicate 28 0

theorem witness_LoadTableReplacesOneEntry :
    (∀ f, Takes State.reset f) ∧ (∀ f, Takes (inService full) f) ∧ (∀ f, Takes site f) ∧ (∀ f, Takes halted f)
      ∧ (∀ f, Takes (withSession (inService full) 3 delivering) f)
      ∧ (entryOf 20).length = 32 ∧ ¬(6#8).toNat ≤ 5 ∧ ¬(16#8).toNat < [25, 48, 6, 4, 24, 16].getD 5 0
      ∧ (7#8).toNat < [25, 48, 6, 4, 24, 16].getD (4#8).toNat 0 ∧ (15#8).toNat < [25, 48, 6, 4, 24, 16].getD 5 0
      ∧ State.reset.site.mode = .unconfigured ∧ (State.reset.site.config.load 4 7 (entryOf 20)).isSome = true
      ∧ State.reset.site.config.load 4 7 (entryOf 21) = none
      ∧ (inService full).site.working = some full ∧ (∀ p, ((inService full).session p).state = .idle)
      ∧ (full.load 4 7 (entryOf 20)).isSome = true ∧ full.load 4 7 (entryOf 21) = none
      ∧ ((withSession (inService full) 3 delivering).session 3).state ≠ .idle
      ∧ field (entryOf 999999) 0 4 ≤ 999999 ∧ 999999 < field (entryOf 1000000) 0 4 :=
  ⟨takes_any rfl rfl, takes_any rfl rfl, takes_any rfl rfl, takes_any rfl rfl, takes_any rfl rfl, by decide +kernel⟩

/-- A row, a profile, and the greatest and least fields of the other entries. -/
theorem witness_LoadedEntriesAreWritten :
    let bank : List Byte := be 2 20000 ++ be 2 12000 ++ be 2 11999 ++ be 2 12000 ++ List.replicate 24 0
    let list : List Byte := [4, 3, 2, 1, 0] ++ List.replicate 27 0
    let place : List Byte := [1, 1] ++ List.replicate 30 0
    SiteConfig.neverLoaded.density.length = 25 ∧ SiteConfig.neverLoaded.profiles.length = 48
      ∧ (24 : Nat) < [25, 48].getD 0 0 ∧ (47 : Nat) < [25, 48].getD 1 0 ∧ (profileBytes profile).length = 32
      ∧ (SiteConfig.neverLoaded.load 0 24 (List.replicate 32 255)).isSome = true
      ∧ (SiteConfig.neverLoaded.load 1 47 (profileBytes { profile with endPressure := 4375, nonCommEndPressure := 4375 })).isSome = true
      ∧ field (profileBytes profile) 0 1 ≤ 1 ∧ field (profileBytes profile) 30 1 ≤ 1
      ∧ ((SiteConfig.neverLoaded.load 1 5 (profileBytes profile)).map fun c => c.profiles.getD 5 none) = some (some profile)
      ∧ (SiteConfig.neverLoaded.load 1 5 (profileBytes { profile with rampRate := 1001 })).isNone = true
      ∧ bank.length = 32
      ∧ (field bank 0 2 = 20000 ∧ field bank 2 2 = 12000 ∧ field bank 4 2 = 11999 ∧ field bank 6 2 = 12000)
      ∧ list.length = 32 ∧ field list 0 1 = ([3, 2, 1, 0] : List BankId).length
      ∧ (list.drop 1).take 4 = ([3, 2, 1, 0] : List BankId).map (fun b => byteOf b.val)
      ∧ field (5#8 :: List.replicate 31 0) 0 1 = 5 ∧ (∃ x ∈ ([1#8, 4] ++ List.replicate 30 0).drop 1 |>.take 1, 4 ≤ x.toNat)
      ∧ place.length = 32 ∧ field place 1 1 = FuelClass.h35.code ∧ field place 0 1 ≤ 1
      ∧ 1 < field ([0, 2] ++ List.replicate 30 0) 1 1 ∧ field (entryOf 3600) 0 4 = 3600 ∧ (23 : Nat) < 24 := by
  decide +kernel

/-- A bank overdue by one second, and one at its proof period. -/
theorem witness_SiteTimeChangesAndBanksAreTested :
    let late : State := { stored site with site := { (stored site).site with siteTime := 28801 } }
    let mixed := withBank late 2 { ready with provenAt := some 1 }
    (∀ f, Takes site f) ∧ (∀ f, Takes State.reset f) ∧ late.TakesForced 0 ∧ ¬late.TakesForced 1
      ∧ mixed.isOverdue 2 = false ∧ mixed.isOverdue 3 = true ∧ State.reset.site.mode = .unconfigured
      ∧ site.site.mode ≠ .unconfigured ∧ (stored site).site.siteTime < 4294967295
      ∧ proving.proofState = .proving ∧ (proving.proof.map (·.before)) = some .proven := by
  exact ⟨takes_any rfl rfl, takes_any rfl rfl, by unfold State.TakesForced; decide +kernel,
    by unfold State.TakesForced; decide +kernel, by decide +kernel⟩

theorem witness_AuthorizeArmsASlot :
    (∀ f, Takes site f) ∧ (∀ f, Takes (armed site) f) ∧ (∀ f, Takes State.reset f) ∧ (∀ f, Takes (drawing delivering) f)
      ∧ (∀ f, Takes (serving SiteConfig.neverLoaded) f)
      ∧ (3#8).toNat < 4 ∧ (17#32).toNat ≠ 0 ∧ (3600#16).toNat ≤ 3600 ∧ (9999999#32).toNat ≤ 9999999
      ∧ (60000#32).toNat ≤ 60000 ∧ ¬(4#8).toNat < 4 ∧ ¬(3601#16).toNat ≤ 3600
      ∧ ¬(State.reset.site.mode = .serving ∨ State.reset.site.mode = .service)
      ∧ site.site.mode = .serving ∧ (inService full).site.mode = .service
      ∧ (armed site).sales.slots.get 0 = some ⟨⟨17, .prepaid 60000⟩, 1200⟩
      ∧ ((drawing delivering).session 0).state ≠ .idle ∧ ((drawing delivering).session 0).auth = some ⟨17, .prepaid 60000⟩
      ∧ (∀ q, site.sales.slots.get q = none) ∧ (∀ q, (site.session q).state = .idle)
      ∧ (serving SiteConfig.neverLoaded).config.enabled 3 = false ∧ site.config.enabled 3 = true :=
  ⟨takes_any rfl rfl, takes_any rfl rfl, takes_any rfl rfl, takes_any rfl rfl, takes_any rfl rfl, by decide +kernel⟩

theorem witness_CancelSettleAndExpiryTakeAway :
    (∀ f, Takes (armed site) f) ∧ (∀ f, Takes site f) ∧ (∀ f, Takes selling f)
      ∧ 4 ≤ (4#8).toNat ∧ (0#8).toNat = (0 : PosId).val ∧ (17#32).toNat ≠ 0
      ∧ (armed site).sales.slots.get 0 = some ⟨⟨17, .prepaid 60000⟩, 1200⟩ ∧ site.sales.slots.get 0 = none
      ∧ (∃ r ∈ selling.sales.records, r.sequence = (1#32).toNat)
      ∧ (∀ r ∈ selling.sales.records, r.sequence ≠ (2#32).toNat ∧ r.sequence ≠ (3#32).toNat)
      ∧ (selling.sales.counter ≠ 0 ∧ ∃ k < selling.sales.pendingSessions.length, (2#32).toNat = selling.sales.counter + k)
      ∧ ¬∃ k < selling.sales.pendingSessions.length, (3#32).toNat = selling.sales.counter + k :=
  ⟨takes_any rfl rfl, takes_any rfl rfl, takes_any rfl rfl, by decide +kernel⟩

theorem witness_ClearSuspectAndRefillNextChangeOneBank :
    let suspect := withBank site 3 { ready with proofState := .suspect }
    let held := withBank low 2 { ready with holder := .position 0 }
    (∀ f, Takes suspect f) ∧ (∀ f, Takes refilling f) ∧ (∀ f, Takes low f) ∧ (∀ f, Takes held f) ∧ (∀ f, Takes site f)
      ∧ 4 ≤ (4#8).toNat ∧ (3#8).toNat = (3 : BankId).val ∧ (suspect.bank 3).proofState = .suspect
      ∧ (site.bank 3).proofState ≠ .suspect ∧ refilling.bm.refillInFlight ≠ none
      ∧ site.bm.refillInFlight = none ∧ site.bm.freshness = .stale
      ∧ held.bm.refillInFlight = none ∧ held.bm.freshness = .fresh ∧ (∀ b ∈ held.bm.refillList, (held.bank b).holder ≠ .free)
      ∧ low.bm.refillInFlight = none ∧ low.bm.freshness = .fresh ∧ low.bm.refillList = [] ++ 2 :: []
      ∧ (low.bank 2).holder = .free :=
  ⟨takes_any rfl rfl, takes_any rfl rfl, takes_any rfl rfl, takes_any rfl rfl, takes_any rfl rfl, by decide +kernel⟩

theorem witness_RefillEndsHandTheBankOn :
    (∀ f, Takes refilling f) ∧ (∀ f, Takes yielding f) ∧ 4 ≤ (4#8).toNat ∧ (2#8).toNat = (2 : BankId).val
      ∧ refilling.bm.refillInFlight ≠ some 1 ∧ refilling.bm.refillInFlight = some 2 ∧ (refilling.bank 2).queue = []
      ∧ yielding.bm.refillInFlight = some 2 ∧ (yielding.bank 2).queue = 0 :: [] ∧ yielding.bm.yieldTimer ≠ none
      ∧ refilling.bm.yieldTimer = none ∧ site.bm.refillInFlight = none
      ∧ (refilling.config.banks.get 2).map (·.refillStart) = some 6000
      ∧ ((withBank refilling 2 { ready with pressure := some 5999 }).bank 2).pressure = some 5999
      ∧ (ready.proofState ≠ .suspect) ∧ 2 ∉ refilling.bm.refillList :=
  ⟨takes_any rfl rfl, takes_any rfl rfl, by decide +kernel⟩

/-- Position 0 awaits fresh data in CLAIM. -/
def expecting : State :=
  let s := apart { opened with
    state := .connecting, phase := some .claim, kind := some .first, attempt := some .first, awaitingFresh := true,
    bankWaitTimer := some 300, cooling := .granted }
  { s with bm := { s.bm with freshness := .stale, freshnessTimer := none } }

/-- A refill at its stop threshold; data that become FRESH for a session that awaits them, and for one held by BANK; and a
position whose awaited bank serves, or no longer does. -/
theorem witness_BankStatusIsTakenWhole :
    let held := drawing { holding with factors := { Factors.none with bank := true } }
    let stale : State :=
      { held with
        bm := { held.bm with freshness := .stale }, site := { held.site with config := config { profile with resumeDelay := 0 } } }
    (∀ f, Takes refilling f) ∧ (∀ f, Takes expecting f) ∧ (∀ f, Takes stale f) ∧ (∀ f, Takes yielding f)
      ∧ (Consistent expecting ∧ BanksAgree expecting ∧ ∀ q, (expecting.session q).Coherent)
      ∧ (Consistent stale ∧ BanksAgree stale ∧ ∀ q, (stale.session q).Coherent)
      ∧ (Consistent yielding ∧ BanksAgree yielding ∧ ∀ q, (yielding.session q).Coherent) ∧ BanksAgree refilling
      ∧ Aside 1 expecting ∧ Aside 0 stale
      ∧ ¬stale.ClearStays (stale.session 0) { (stale.session 0).factors with bank := false }
      ∧ refilling.bm.refillInFlight = some 2
      ∧ refilling.config.banks.get 2 = some ⟨300, 9000, 6000, 8500⟩ ∧ 8500 ≤ (8500#16).toNat ∧ (5999#16).toNat < 6000
      ∧ ((expecting.session 0).state = .connecting ∧ (expecting.session 0).awaitingFresh = true
        ∧ (expecting.session 0).bank = none ∧ (expecting.session 0).awaited = none
        ∧ (expecting.session 0).selectable = [] ++ 0 :: [1] ∧ (∀ c ∈ [0, 1], (expecting.bank c).holder ≠ .proof)
        ∧ ∀ w ∈ expecting.cbu.queue, w.pos ≠ 0)
      ∧ ((stale.session 0).running = true ∧ (stale.session 0).resumePoint = none ∧ (stale.session 0).bank.isSome = true
        ∧ (stale.session 0).kind = none ∧ (stale.session 0).attempt = none)
      ∧ ((yielding.session 0).awaitingFresh = false ∧ (yielding.session 0).awaited = some 2
        ∧ (yielding.bank 2).proofState ≠ .suspect
        ∧ yielding.nozzlePressure 0 + (yielding.profileOf 0).switchMargin = (2300#16).toNat) :=
  ⟨takes_any rfl rfl, takes_any rfl rfl, takes_any rfl rfl, takes_any rfl rfl,
    ⟨consistent_of (by decide +kernel), banksAgree_of (by decide +kernel), coherent_of (by decide +kernel)⟩,
    ⟨consistent_of (by decide +kernel), banksAgree_of (by decide +kernel), coherent_of (by decide +kernel)⟩,
    ⟨yielding_consistent, banksAgree_of (by decide +kernel), coherent_of (by decide +kernel)⟩,
    banksAgree_of (by decide +kernel), ⟨by decide +kernel, by decide +kernel, by decide +kernel, by decide +kernel⟩,
    ⟨by decide +kernel, by decide +kernel, by decide +kernel, by decide +kernel⟩,
    by unfold State.ClearStays; decide +kernel, by decide +kernel⟩

theorem witness_StaleDataHoldTheClaimHolders :
    let probed := withBank (drawing delivering) 1 proving
    probed.bm.freshnessTimer ≠ none ∧ site.bm.freshnessTimer = none ∧ (probed.bank 0).holder = .position 0
      ∧ (∀ b, (probed.bank b).holder ≠ .position 1) ∧ (probed.bank 1).proof.isSome = true
      ∧ ({ probed with bm := { probed.bm with designation := some 2 } }).bm.designation = some 2
      ∧ (probed.bank 2).proof = none := by
  decide +kernel

/-- A bank under a forced proof, with position 0 waiting for it. -/
def forcing (q : List PosId) : Bank :=
  { proving with holder := .proof, queue := q, proof := some ⟨.forced, 12051, .proven, 0⟩ }

theorem witness_ProofsAreJudgedByDecay :
    (site.bank 1).proof = none ∧ proving.proof = some ⟨.opportunistic, 12050, .proven, 0⟩
      ∧ 12050 - proving.mass.getD 0 ≤ site.config.param (16 + (1 : BankId).val)
      ∧ site.config.param (16 + (1 : BankId).val) < 12051 - proving.mass.getD 0
      ∧ (forcing []).proof = some ⟨.forced, 12051, .proven, 0⟩ ∧ (forcing []).queue = []
      ∧ (forcing [0]).queue = 0 :: [] := by
  decide +kernel

/-- Nothing, one waiter in HELD, or one in OPENING is granted; one grant is revoked, its wait limit 30.0 s or 0. -/
theorem witness_CoolingCapacityIsKept :
    let parked := drawing { holding with cooling := .waiting, factors := { Factors.none with cooling := true } }
    let held : State := { parked with cbu := { capacity := 0, grants := [], queue := [⟨0, 1001, 300, 0⟩] } }
    (∀ f, Takes cooled f) ∧ (∀ f, Takes (waiting (config profile)) f) ∧ (∀ f, Takes held f) ∧ 50000 < (50001#16).toNat
      ∧ (50000#16).toNat ≤ 50000 ∧ cooled.granted ≤ (1000#16).toNat
      ∧ (waiting (config profile)).cbu.queue = [] ++ ⟨0, 1001, 300, 0⟩ :: []
      ∧ HeadWaits 1000 ((waiting (config profile)).granted + 0) [⟨0, 1001, 300, 0⟩]
      ∧ held.cbu.queue = [⟨0, 1001, 300, 0⟩] ++ [] ∧ held.granted + 1001 ≤ (1001#16).toNat
      ∧ HeadWaits 1001 (held.granted + 1001) [] ∧ held.cbu.positions.Nodup ∧ (held.session 0).state ≠ .opening
      ∧ held.ClearStays (held.session 0) { (held.session 0).factors with cooling := false }
      ∧ (waiting (config profile)).granted + 1001 ≤ (1001#16).toNat
      ∧ cooled.cbu.grants = [] ++ ⟨0, 1000, 300⟩ :: [] ∧ (([] : List Grant).map Grant.demand).sum ≤ (999#16).toNat
      ∧ (999#16).toNat < (([] ++ [⟨0, 1000, 300⟩] : List Grant).map Grant.demand).sum
      ∧ (∀ x ∈ ([⟨0, 1000, 300⟩] : List Grant), x.limit ≠ 0) ∧ (⟨0, 1000, 0⟩ : Grant).limit = 0 :=
  ⟨takes_any rfl rfl, takes_any rfl rfl, takes_any rfl rfl, by decide +kernel, by decide +kernel, by decide +kernel,
    by decide +kernel, fun w rest e => (by cases e; decide +kernel), by decide +kernel, by decide +kernel, nofun,
    by decide +kernel, by decide +kernel, by unfold State.ClearStays; decide +kernel, by decide +kernel⟩

/-- A configuration whose profile 5 degrades to profile 11. -/
def degrading (f : Profile) : SiteConfig :=
  { config profile with
    profiles := ((List.replicate 48 none).set 5 (some { profile with degradeTo := some 11 })).set 11 (some f) }

/-- Position 0 waits for cooling in HELD. -/
def heldWaiting (n : Nat) : State :=
  let s := drawing { holding with cooling := .waiting, heldTime := n }
  { s with
    site := { s.site with config := degrading profile }
    cbu := { capacity := 1000, grants := [], queue := [⟨0, 1001, 300, 0⟩] } }

theorem witness_CoolingWaitEndsOrDegrades :
    Consistent (waiting (config profile)) ∧ Consistent (heldWaiting 601)
      ∧ (¬∃ w ∈ site.cbu.queue, w.pos = (0 : PosId)) ∧ (∃ w ∈ (waiting (config profile)).cbu.queue, w.pos = 0)
      ∧ ((waiting (config profile)).profileOf 0).degradeTo = none
      ∧ ((heldWaiting 601).profileOf 0).degradeTo = some 11
      ∧ ((heldWaiting 601).config.profile 11).permitted = true
      ∧ (((heldWaiting 601).session 0).state = .held
        ∧ ((heldWaiting 601).config.profile 11).holdLimit < ((heldWaiting 601).session 0).heldTime)
      ∧ ¬((heldWaiting 600).config.profile 11).holdLimit < ((heldWaiting 600).session 0).heldTime
      ∧ ((heldWaiting 600).config.profile 11).coolingDemand = 0
      ∧ ((degrading { profile with coolingDemand := 1001 }).profile 11).coolingDemand ≠ 0
      ∧ ((degrading { profile with coolingDemand := 1001 }).profile 11).coolingWaitLimit ≠ 0
      ∧ (waiting (degrading { profile with coolingDemand := 1001 })).cbu.capacity
        < (waiting (degrading { profile with coolingDemand := 1001 })).granted + 1001
      ∧ (waiting (degrading { profile with coolingDemand := 1000 })).granted + 1000
        ≤ (waiting (degrading { profile with coolingDemand := 1000 })).cbu.capacity
      ∧ ((degrading { profile with coolingDemand := 1, coolingWaitLimit := 0 }).profile 11).coolingWaitLimit = 0
      ∧ ((heldWaiting 600).cbu.queue.filter fun w => w.pos ≠ (0 : PosId)) = [] :=
  ⟨consistent_of (by decide +kernel), consistent_of (by decide +kernel), by decide +kernel⟩

/-- Two profiles of one ambient band, with every field in its range: the second has a wait limit of 0. -/
def unlimited : SiteConfig := degrading { profile with coolingDemand := 1, coolingWaitLimit := 0 }

theorem profile_inRange : ({ profile with degradeTo := some 11 } : Profile).InRange 5 where
  rampRate := by decide
  endPressure := by decide
  nonCommEndPressure := by decide
  socTarget := by decide
  segmentLength := by decide
  settleInterval := by decide
  leakCheckHold := by decide
  leakDropLimit := by decide
  overshoot := by decide
  switchMargin := by decide
  warmGrace := by decide
  resumeDelay := by decide
  holdLimit := by decide
  coolingDemand := by decide
  warmest := by decide
  coolingWaitLimit := by decide
  closingAnticipation := by decide
  degradeTo k c := by cases c; decide

theorem degraded_inRange : ({ profile with coolingDemand := 1, coolingWaitLimit := 0 } : Profile).InRange 11 :=
  { profile_inRange with
    endPressure := by decide, coolingDemand := by decide, warmest := by decide, coolingWaitLimit := by decide
    degradeTo := nofun }

theorem unlimited_inRange : unlimited.InRange where
  rows := by decide +kernel
  density i row e := by cases (absent 25 i _).symm.trans e
  profiles i f e := by
    have c : unlimited.profiles.getD i none = if i = 11 then some { profile with coolingDemand := 1, coolingWaitLimit := 0 }
        else if i = 5 then some { profile with degradeTo := some 11 } else none := by
      show (((List.replicate 48 none).set 5 (some { profile with degradeTo := some 11 })).set 11
        (some { profile with coolingDemand := 1, coolingWaitLimit := 0 })).getD i none = _
      simp only [List.getD_eq_getElem?_getD, List.getElem?_set, List.getElem?_replicate, List.length_set,
        List.length_replicate]
      split_ifs <;> first | rfl | omega
    rw [c] at e
    split_ifs at e with h k
    · cases e; exact h ▸ degraded_inRange
    · cases e; exact k ▸ profile_inRange
  banks b e h := by
    have h : some (⟨300, 9000, 6000, 8500⟩ : BankEntry) = some e := (Quad.get_fill _ b).symm.trans h
    cases h
    exact ⟨by decide, by decide, by decide⟩
  cascades := ⟨fun l e => (by cases e; unfold CascadeInRange; decide), nofun⟩
  params := nofun

theorem unlimited_working : (waiting unlimited).site.working = none := rfl

/-- A wait limit of 0 after a degrade. -/
theorem witness_CoolingWaitEndsAtOnce :
    TablesInRange (waiting unlimited) ∧ (∃ w ∈ (waiting unlimited).cbu.queue, w.pos = 0)
      ∧ ((waiting unlimited).profileOf 0).degradeTo = some 11 ∧ (unlimited.profile 11).permitted = true
      ∧ ((waiting unlimited).session 0).state ≠ .held ∧ (unlimited.profile 11).coolingDemand ≠ 0
      ∧ (unlimited.profile 11).coolingWaitLimit = 0 :=
  ⟨⟨unlimited_inRange, fun c e => (by rw [unlimited_working] at e; cases e), by decide +kernel, by decide +kernel⟩,
    by decide +kernel⟩

theorem witness_NozzleStatesAreKept :
    (∀ f, Takes (drawing delivering) f) ∧ (∀ f, Takes site f) ∧ Consistent (drawing delivering) ∧ 2 < (3#8).toNat
      ∧ (2#8).toNat = ((drawing delivering).monitor 0).nozzle.code
      ∧ (0#8).toNat = NozzleState.holstered.code ∧ NozzleState.holstered ≠ ((drawing delivering).monitor 0).nozzle
      ∧ ((drawing delivering).monitor 0).nozzle = .connected ∧ ((drawing delivering).session 0).running = true
      ∧ NozzleState.connected ≠ (site.monitor 0).nozzle ∧ (site.monitor 0).nozzle ≠ .connected :=
  ⟨takes_any rfl rfl, takes_any rfl rfl, drawing_consistent, by decide +kernel⟩

/-- A mass of 99,999 g, and a pressure above the working pressure, at it, and at the end pressures. -/
theorem witness_ProgressIsTakenByTheSessionState :
    let full := withMonitor (drawing { delivering with comm := some .comm }) 0
      { inView with vehicle := some ⟨.h70, 1220, 3500, 2900, .run, 980, 2685⟩ }
    let quick : State :=
      let s := drawing { holding with factors := { Factors.none with overRamp := true } }
      { s with site := { s.site with config := config { profile with resumeDelay := 0 } } }
    let met := withMonitor (apart { ended with state := .closing, endReason := some .dispenserSilent }) 0
      { connected with progressTimer := none, silenced := true }
    (∀ f, Takes quick f) ∧ (∀ f, Takes (drawing delivering) f) ∧ (∀ f, Takes (drawing holding) f) ∧ (∀ f, Takes (apart opened) f)
      ∧ (∀ f, Takes met f) ∧ met.metSilent 0 = true ∧ (∀ f, Takes full f) ∧ (∀ f, Takes (apart ended) f)
      ∧ Consistent (drawing delivering) ∧ Consistent full
      ∧ (drawing holding).ClearStays ((drawing holding).session 0) ((drawing holding).session 0).factors
      ∧ ¬quick.ClearStays (quick.session 0) { (quick.session 0).factors with overRamp := false }
      ∧ min (2100#16).toNat 12000 ≤ (quick.rampCeiling 0).getD 0
      ∧ 99999 < (100000#24).toNat ∧ (99999#24).toNat ≤ 99999 ∧ (site.monitor 0).nozzle ≠ .connected
      ∧ ((drawing delivering).monitor 0).nozzle = .connected ∧ delivering.running = true
      ∧ delivering.mawp < (8751#16).toNat ∧ (8750#16).toNat ≤ delivering.mawp
      ∧ (full.session 0).comm = some .comm ∧ (full.monitor 0).vehicle = some ⟨.h70, 1220, 3500, 2900, .run, 980, 2685⟩
      ∧ (full.profileOf 0).socTarget ≤ 980 ∧ delivering.comm ≠ some .comm
      ∧ ((drawing delivering).profileOf 0).nonCommEndPressure ≤ (7000#16).toNat
      ∧ ¬((drawing delivering).profileOf 0).nonCommEndPressure ≤ (6999#16).toNat
      ∧ delivering.massCeiling.getD 0 ≤ ((drawing delivering).profileOf 0).closingAnticipation + (4322#24).toNat
      ∧ ¬delivering.massCeiling.getD 0 ≤ ((drawing delivering).profileOf 0).closingAnticipation + (4321#24).toNat := by
  exact ⟨takes_any rfl rfl, takes_any rfl rfl, takes_any rfl rfl, takes_any rfl rfl, takes_any rfl rfl, by decide +kernel,
    takes_any rfl rfl, takes_any rfl rfl, drawing_consistent, consistent_of (by decide +kernel),
    by unfold State.ClearStays; decide +kernel, by unfold State.ClearStays; decide +kernel, by decide +kernel⟩

theorem witness_VehicleFramesAreCheckedAndCounted :
    let shown := withMonitor (drawing delivering) 0 inView
    let failing := withMonitor (drawing delivering) 0 { inView with errors := 4 }
    let parked := withMonitor (drawing { holding with factors := { Factors.none with vehicleHalt := true } }) 0 inView
    let quick : State := { parked with site := { parked.site with config := config { profile with resumeDelay := 0 } } }
    (∀ f, Takes quick f) ∧ (quick.session 0).running = true ∧ (quick.session 0).resumePoint = none
      ∧ (quick.session 0).bank.isSome = true ∧ (quick.session 0).kind = none ∧ (quick.session 0).attempt = none
      ∧ ({ holding with resumePoint := some .connect }).resumePoint = some .connect
      ∧ (quick.profileOf 0).settleInterval ≠ 0
      ∧ ¬quick.ClearStays (quick.session 0) { (quick.session 0).factors with vehicleHalt := false }
      ∧ (∀ f, Takes shown f) ∧ (∀ f, Takes failing f) ∧ (∀ f, Takes site f) ∧ (∀ f, Takes (drawing holding) f)
      ∧ Consistent shown ∧ Consistent failing
      ∧ (drawing holding).ClearStays holding { holding.factors with vehicleHalt := false }
      ∧ 1 < (2#8).toNat ∧ 2 < (3#8).toNat ∧ (0#8).toNat = FuelClass.h70.code
      ∧ (0#8).toNat = FuelCommand.run.code ∧ (1#8).toNat = FuelCommand.halt.code ∧ (2#8).toNat = FuelCommand.abort.code
      ∧ (site.monitor 0).nozzle = .holstered ∧ (shown.monitor 0).nozzle ≠ .holstered
      ∧ (shown.session 0).fuelClass = some .h70 ∧ site.config.positionClass 0 = some .h70 ∧ (1#16).toNat ≠ 0
      ∧ (12000#16).toNat ≤ 12000 ∧ 2000 ≤ (2000#16).toNat ∧ (3800#16).toNat ≤ 3800 ∧ ¬(0#8).toNat = 1
      ∧ (failing.monitor 0).errors + 1 = failing.config.param 7 ∧ (failing.monitor 0).record ≠ .lost
      ∧ (shown.monitor 0).errors + 1 < shown.config.param 7
      ∧ (shown.session 0).running = true ∧ (shown.session 0).state = .delivering ∧ (site.session 0).running = false
      ∧ shown.endCriterion 0 = none ∧ (withMonitor shown 0 { inView with pressure := some 7000 }).endCriterion 0
        = some .pressureReached
      ∧ (site.monitor 0).ageTimer = none ∧ (shown.monitor 0).ageTimer ≠ none :=
  ⟨takes_any rfl rfl, by decide +kernel, by decide +kernel, by decide +kernel, by decide +kernel, by decide +kernel, rfl,
    by decide +kernel, by unfold State.ClearStays; decide +kernel, takes_any rfl rfl, takes_any rfl rfl,
    takes_any rfl rfl, takes_any rfl rfl, consistent_of (by decide +kernel),
    consistent_of (by decide +kernel), by unfold State.ClearStays; decide +kernel, by decide +kernel⟩

/-- START by condition, with the greatest number of records, and by the bank found. -/
theorem witness_StartOpensASession :
    let ready := armed (stored site)
    let taken := withBank ready 0 { Tests.ready with holder := .position 2 }
    let empty : State := { armed site with bm := { (armed site).bm with freshness := .fresh } }
    let many : State := { ready with sales := { ready.sales with counter := 4294967295 } }
    let none : State := armed (serving (config { profile with permitted := false }))
    let data : State := armed (serving (config { profile with vehicleDataMandatory := true }))
    let cold : State := armed (serving (config { profile with coolingDemand := 1 }))
    let unlimited : State := armed (stored (serving (config { profile with coolingDemand := 1, coolingWaitLimit := 0 })))
    let probed := withBank ready 0 (forcing [])
    let refilled : State :=
      { withBank ready 0 { Tests.ready with holder := .refill } with
        bm := { (withBank ready 0 { Tests.ready with holder := .refill }).bm with refillInFlight := some 0 } }
    (∀ f, Takes ready f) ∧ (∀ f, Takes empty f) ∧ (∀ f, Takes (drawing delivering) f) ∧ (∀ f, Takes (apart ended) f)
      ∧ (∀ f, Takes cold f) ∧ Consistent ready ∧ Consistent empty
      ∧ Consistent (withSession taken 2 { delivering with bank := some 0 })
      ∧ service.site.mode ≠ .serving ∧ ((apart ended).session 0).state = .ended
      ∧ ((drawing delivering).session 0).running = true ∧ (serving SiteConfig.neverLoaded).config.enabled 0 = false
      ∧ (site.monitor 0).nozzle ≠ .connected ∧ (apart Session.idle).sales.slots.get 0 = .none
      ∧ (ready.session 0).state = .idle ∧ ready.config.enabled 0 = true ∧ (ready.monitor 0).nozzle = .connected
      ∧ ready.sales.slots.get 0 = some ⟨⟨17, .prepaid 60000⟩, 1200⟩ ∧ ready.config.positionClass 0 = some .h70
      ∧ (many.sales.records.length + many.openPositions.length < 64 ∧ many.sales.counter ≠ 0
        ∧ many.sales.counter + many.openPositions.length ≤ 4294967295)
      ∧ ¬(withSession many 3 ended).sales.counter + (withSession many 3 ended).openPositions.length ≤ 4294967295
      ∧ ready.selectProfile .h70 = some 5 ∧ none.selectProfile .h70 = .none
      ∧ (data.config.profile 5).vehicleDataMandatory = true ∧ (data.monitor 0).record ≠ .valid
      ∧ (ready.config.profile 5).vehicleDataMandatory = false ∧ (ready.config.profile 5).coolingDemand = 0
      ∧ cold.cbu.capacity < cold.granted + (cold.config.profile 5).coolingDemand
      ∧ (cold.config.profile 5).coolingWaitLimit ≠ 0 ∧ (armed site).bm.freshness = .stale ∧ ready.bm.freshness = .fresh
      ∧ (∀ b, ¬(empty.monitor 0).pressure.getD 0 + 300 ≤ (empty.bank b).pressure.getD 0)
      ∧ (ready.monitor 0).pressure.getD 0 + (ready.config.profile 5).switchMargin ≤ (ready.bank 0).pressure.getD 0
      ∧ (ready.bank 0).proofState ≠ .suspect ∧ (ready.bank 0).holder = .free ∧ (taken.bank 0).holder = .position 2
      ∧ (ready.config.profile 5).settleInterval ≠ 0
      ∧ (unlimited.config.profile 5).coolingDemand ≠ 0 ∧ (unlimited.config.profile 5).coolingWaitLimit = 0
      ∧ (probed.bank 0).holder = .proof ∧ (refilled.bank 0).holder = .refill ∧ (refilled.bank 0).queue = []
      ∧ refilled.bm.yieldTimer.getD (refilled.config.param 13) ≠ 0
      ∧ ((some 0 : Option Nat).getD (refilled.config.param 13) = 0) := by
  exact ⟨takes_any rfl rfl, takes_any rfl rfl, takes_any rfl rfl, takes_any rfl rfl, takes_any rfl rfl,
    consistent_of (by decide +kernel), consistent_of (by decide +kernel), consistent_of (by decide +kernel),
    by decide +kernel⟩

/-- Profiles 5, 11, 17 and 23, none permitted but the last. -/
def chain (n : Nat) : State :=
  serving
    { config profile with
      profiles := (List.range 48).map fun k =>
        some { profile with permitted := k == n, degradeTo := if k < 23 then some (k + 6) else none } }

theorem witness_StartProfileFollowsTheDegradeChain :
    FuelClass.h70.code * 24 + site.config.param 2 * 6 + site.site.ambientBand = 5
      ∧ ((chain 5).config.profile 5).permitted = true
      ∧ ((serving (config { profile with permitted := false })).config.profile 5).degradeTo = none
      ∧ ((chain 11).config.profile 5).permitted = false ∧ ((chain 11).config.profile 5).degradeTo = some 11
      ∧ ((chain 11).config.profile 11).permitted = true ∧ ((chain 17).config.profile 11).permitted = false
      ∧ ((chain 17).config.profile 11).degradeTo = some 17 ∧ ((chain 17).config.profile 17).permitted = true
      ∧ ((chain 23).config.profile 17).permitted = false ∧ ((chain 23).config.profile 17).degradeTo = some 23
      ∧ ((chain 23).config.profile 23).permitted = true
      ∧ ((serving (degrading { profile with permitted := false })).config.profile 11).degradeTo = none := by
  decide +kernel

/-- The third entry of the chain is not permitted and names no further one. -/
theorem witness_StartProfileFindsNone :
    let short := serving { config profile with
      profiles := (List.range 48).map fun k =>
        some { profile with permitted := false, degradeTo := if k < 17 then some (k + 6) else none } }
    (short.config.profile 5).degradeTo = some 11 ∧ (short.config.profile 11).degradeTo = some 17
      ∧ (short.config.profile 17).degradeTo = none ∧ (short.config.profile 17).permitted = false := by
  decide +kernel

theorem witness_StopsAndTimeoutsEndTheSession :
    (∀ f, Takes site f) ∧ (∀ f, Takes (drawing delivering) f) ∧ Consistent (drawing delivering) ∧ Consistent yielding
      ∧ Consistent (drawing holding)
      ∧ (site.session 0).running = false ∧ ((drawing delivering).session 0).running = true
      ∧ ((drawing delivering).monitor 0).progressTimer ≠ none ∧ ((drawing delivering).session 0).state = .delivering
      ∧ (site.monitor 0).progressTimer = none ∧ ((apart opened).monitor 0).progressTimer ≠ none
      ∧ ((apart opened).session 0).state = .opening ∧ (site.session 0).bankWaitTimer = none
      ∧ (yielding.session 0).bankWaitTimer ≠ none ∧ (yielding.session 0).running = true
      ∧ (site.session 0).state ≠ .held ∧ ((drawing holding).session 0).state = .held :=
  ⟨takes_any rfl rfl, takes_any rfl rfl, drawing_consistent, yielding_consistent, holding_consistent, by decide +kernel⟩

theorem witness_FactorsAreSetAndCleared :
    let s := drawing holding
    let u : State := { s with site := { s.site with config := config { profile with resumeDelay := 0 } } }
    (∀ f, Takes site f) ∧ (∀ f, Takes s f) ∧ (∀ f, Takes u f)
      ∧ s.ClearStays (s.session 0) { (s.session 0).factors with pause := false }
      ∧ ¬u.ClearStays (u.session 0) { (u.session 0).factors with pause := false }
      ∧ (site.session 0).running = false ∧ (s.session 0).running = true ∧ (u.session 0).running = true
      ∧ (site.session 0).warmTimer = none ∧ ({ delivering with warmTimer := some 0 }).warmTimer ≠ none := by
  exact ⟨takes_any rfl rfl, takes_any rfl rfl, takes_any rfl rfl, by unfold State.ClearStays; decide +kernel,
    by unfold State.ClearStays; decide +kernel, by decide +kernel⟩

theorem witness_ResumeLeavesTheHold :
    let x := { holding with factors := Factors.none, resumeTimer := some 0 }
    let y := { x with bank := none, kind := some .first, attempt := some .first }
    (¬(site.session 0).state = .held) ∧ x.state = .held ∧ x.resumeTimer ≠ none ∧ x.resumePoint = none
      ∧ x.bank.isSome = true ∧ x.kind = none ∧ x.attempt = none ∧ ({ x with bank := none }).bank = none
      ∧ site.bm.freshness = .stale ∧ ({ y with resumePoint := some .claim }).resumePoint = some .claim
      ∧ ({ y with resumePoint := some .connect }).resumePoint = some .connect
      ∧ ({ y with resumePoint := some .leakCheck }).resumePoint = some .leakCheck
      ∧ ({ y with resumePoint := some .settle }).resumePoint = some .settle
      ∧ ((drawing x).profileOf 0).settleInterval ≠ 0
      ∧ ((serving (config { profile with settleInterval := 0 })).config.profile 5).settleInterval = 0
      ∧ x.factors = Factors.none ∧ (apart y).bm.freshness = .fresh ∧ Consistent (apart y)
      ∧ y.selectable = [] ++ 0 :: [1] ∧ (apart y).Serves 0 0 ∧ ((apart y).bank 0).holder ≠ .proof := by
  exact ⟨by decide +kernel, rfl, by decide +kernel, rfl, rfl, rfl, rfl, rfl, by decide +kernel, rfl, rfl, rfl, rfl,
    by decide +kernel, by decide +kernel, rfl, by decide +kernel, consistent_of (by decide +kernel), rfl,
    by unfold State.Serves; decide +kernel, by decide +kernel⟩

/-- A leak of 0.50 MPa, the limit, and one above it. -/
theorem witness_PhaseEndsMoveTheConnectionOn :
    let s := drawing (inPhase .leakCheck)
    let leaking := drawing { inPhase .leakCheck with leakStart := some 2051, attempt := some .recheck }
    Consistent leaking
      ∧ (inPhase .connect).state = .connecting ∧ (inPhase .connect).phase = some .connect
      ∧ (inPhase .connect).phaseTimer ≠ none ∧ (inPhase .connect).factors = Factors.none
      ∧ holding.factors ≠ Factors.none ∧ ¬(site.session 0).state = .connecting
      ∧ (s.session 0).leakStart.getD 0 - s.nozzlePressure 0 ≤ (s.profileOf 0).leakDropLimit
      ∧ ¬(leaking.session 0).leakStart.getD 0 - leaking.nozzlePressure 0 ≤ (leaking.profileOf 0).leakDropLimit
      ∧ (leaking.session 0).attempt = some .recheck ∧ (inPhase .leakCheck).attempt ≠ some .recheck
      ∧ (s.profileOf 0).settleInterval ≠ 0
      ∧ ((serving (config { profile with settleInterval := 0 })).config.profile 5).settleInterval = 0 :=
  ⟨consistent_of (by decide +kernel), by decide +kernel⟩

/-- Bank 0 serves at the switch margin of 3.00 MPa, and not 0.01 MPa below; it is handed to position 1, or it is FREE. -/
theorem witness_BoundariesAndKeepTimersGiveBanksBack :
    let serves := withBank (drawing delivering) 0 { ready with holder := .position 0, pressure := some 2300 }
    let spent := withBank (drawing delivering) 0 { ready with holder := .position 0, pressure := some 2299 }
    let last := withBank spent 1 { ready with pressure := some 2299 }
    let follower : Session := { opened with
      state := .connecting, phase := some .claim, kind := some .first, attempt := some .first, awaited := some 0,
      bankWaitTimer := some 300 }
    let followed := withBank (withSession spent 1 follower) 0
      { ready with holder := .position 0, pressure := some 2299, queue := [1] }
    let stale : State := { spent with bm := { spent.bm with freshness := .stale } }
    Consistent spent ∧ Consistent last ∧ Consistent followed ∧ Consistent stale ∧ Consistent (drawing holding)
      ∧ ¬(site.session 0).state = .delivering ∧ delivering.segmentTimer ≠ none ∧ delivering.factors = Factors.none
      ∧ holding.factors ≠ Factors.none ∧ (serves.session 0).bank = some 0
      ∧ serves.nozzlePressure 0 + (serves.profileOf 0).switchMargin ≤ (serves.bank 0).pressure.getD 0
      ∧ ¬spent.nozzlePressure 0 + (spent.profileOf 0).switchMargin ≤ (spent.bank 0).pressure.getD 0
      ∧ (spent.bank 0).queue = [] ∧ (followed.bank 0).queue = 1 :: []
      ∧ spent.bm.freshness = .fresh ∧ stale.bm.freshness = .stale
      ∧ ({ delivering with kind := some .switch }).selectable = [] ++ 1 :: [] ∧ spent.Serves 0 1 ∧ ¬last.Serves 0 1
      ∧ (spent.bank 1).holder ≠ .proof ∧ ({ delivering with bank := none }).bank = none
      ∧ holding.state = .held ∧ holding.keepTimer ≠ none ∧ holding.bank = some 0
      ∧ ({ holding with bank := none }).bank = none ∧ ((drawing holding).bank 0).queue = [] :=
  ⟨consistent_of (by decide +kernel), consistent_of (by decide +kernel), consistent_of (by decide +kernel),
    consistent_of (by decide +kernel), holding_consistent, by decide +kernel, by decide +kernel, rfl, by decide +kernel,
    rfl, by decide +kernel, by decide +kernel, rfl, rfl, rfl, rfl, rfl, by unfold State.Serves; decide +kernel,
    by unfold State.Serves; decide +kernel, by decide +kernel⟩

theorem witness_EmergencyStopHaltsTheSite :
    (∀ f, Takes (drawing delivering) f) ∧ (∀ f, Takes halted f) ∧ (∀ f, Takes State.reset f) ∧ (∀ f, Takes refilling f)
      ∧ Consistent (drawing delivering) ∧ Consistent refilling
      ∧ (drawing delivering).site.mode = .serving ∧ (inService full).site.mode = .service ∧ halted.site.mode = .halted
      ∧ State.reset.site.mode = .unconfigured ∧ ((drawing delivering).session 0).running = true
      ∧ (refilling.bank 2).holder = .refill ∧ refilling.bm.refillInFlight = some 2
      ∧ (waiting (config profile)).cbu.queue ≠ [] :=
  ⟨takes_any rfl rfl, takes_any rfl rfl, takes_any rfl rfl, takes_any rfl rfl, drawing_consistent,
    consistent_of (by decide +kernel), by decide +kernel⟩

theorem witness_SiteResetClearsEveryBlock :
    let both := withBank (withSession closing 1 delivering) 0 { ready with holder := .position 1 }
    (∀ f, Takes both f) ∧ (∀ f, Takes State.reset f) ∧ Consistent both ∧ both.site.mode ≠ .unconfigured
      ∧ State.reset.site.mode = .unconfigured ∧ (both.session 1).running = true ∧ (both.session 0).running = false
      ∧ both.sales.pendingSessions = [0] :=
  ⟨takes_any rfl rfl, takes_any rfl rfl, consistent_of (by decide +kernel), by decide +kernel⟩

/-- Position 0 closes with nothing behind it, with position 3 behind it, and with position 2 between them, which has its
final mass already. -/
theorem witness_ClosingCommitsTheSale :
    let two : State :=
      { withSession closing 3 ended with sales := { closing.sales with closeQueue := [3] } }
    let three : State :=
      { withSession two 2 { ended with finalMass := some 4351 } with sales := { two.sales with closeQueue := [2, 3] } }
    (∀ f, Takes closing f) ∧ (∀ f, Takes (apart ended) f) ∧ (∀ f, Takes site f) ∧ Consistent closing ∧ Consistent two
      ∧ Consistent three
      ∧ 99999 < (100000#24).toNat ∧ (99999#24).toNat ≤ 99999 ∧ (site.session 0).state = .idle
      ∧ ((apart ended).session 0).state = .ended ∧ (closing.session 0).state = .closing
      ∧ site.sales.register = none ∧ closing.sales.register = some 0 ∧ closing.sales.closingTimer ≠ none
      ∧ (three.sales.closeQueue.takeWhile fun q => (three.session q).finalMass.isSome) = [2]
      ∧ (three.sales.closeQueue.dropWhile fun q => (three.session q).finalMass.isSome) = 3 :: []
      ∧ (closing.sales.closeQueue.dropWhile fun q => (closing.session q).finalMass.isSome) = []
      ∧ ((after .closingTimeout three).sales.records.map fun r => (r.position, r.sequence)) = [(0, 1), (2, 2)]
      ∧ (closing.session 0).banksUsed ≠ [] ∧ ended.auth = some ⟨17, .prepaid 60000⟩ ∧ ended.siteMaxMass = some 10000 :=
  ⟨takes_any rfl rfl, takes_any rfl rfl, takes_any rfl rfl, closing_consistent, consistent_of (by decide +kernel),
    consistent_of (by decide +kernel), by decide +kernel⟩

end Sys2Proof.Tests
end

section
/-! SUPPORT. READ NOTICES: what the Link Interface does with the request, and where the fields of a listed notice stand
(R12, R169). -/

namespace Sys2Proof.Machine

/-! ### Rows of fields in bytes -/

theorem stand_nil (body : List Byte) : Stand body [] := fun _ m => absurd m List.not_mem_nil

theorem stand_cons {body : List Byte} {off size n : Nat} {rows : List (Nat × Nat × Nat)} :
    Stand body ((off, size, n) :: rows) ↔ StandsAt body off size n ∧ Stand body rows :=
  List.forall_mem_cons

theorem standsAt_byteOf (n : Nat) (l : List Byte) : StandsAt (byteOf n :: l) 0 1 n :=
  (field_byte _ _).trans (BitVec.toNat_ofNat n 8)

theorem standsAt_cons {b : Byte} {l : List Byte} {off size n : Nat} :
    StandsAt (b :: l) (off + 1) size n ↔ StandsAt l off size n := Iff.rfl

theorem standsAt_be (w n : Nat) (l : List Byte) : StandsAt (be w n ++ l) 0 w n :=
  (field_start _ l w (be_length w n)).trans (unbe_be w n)

theorem standsAt_after_be {w m : Nat} {l : List Byte} {off size n : Nat} :
    StandsAt (be w m ++ l) (w + off) size n ↔ StandsAt l off size n := by
  unfold StandsAt
  rw [field_after]

theorem be_zero (w : Nat) : be w 0 = List.replicate w 0 := by
  induction w with
  | zero => rfl
  | succ w ih =>
    unfold be
    rw [ih, Nat.zero_div]
    rfl

theorem standsAt_zeros (w : Nat) : StandsAt (List.replicate w 0) 0 w 0 := by
  simpa [be_zero] using standsAt_be w 0 []

/-! ### The entry of a notice -/

namespace Notice

/-- An entry is laid out when its content, padded with zeros to 6 bytes, has its rows 2 bytes further on. -/
theorem laid_of_content {n : Notice} {padded : List Byte} {rows : List (Nat × Nat × Nat)}
    (pad : n.content ++ List.replicate (6 - n.content.length) 0 = padded) (long : padded.length = 6)
    (stand : Stand padded rows) :
    n.Laid n.code n.subject (rows.map fun r => (r.1 + 2, r.2)) := by
  have entry : n.entry = byteOf n.code :: byteOf n.subject :: padded := by
    rw [← pad]
    rfl
  unfold Laid
  rw [entry]
  refine ⟨congrArg (· + 2) long, stand_cons.mpr ⟨standsAt_byteOf _ _, stand_cons.mpr ⟨standsAt_byteOf _ _, ?_⟩⟩⟩
  exact List.forall_mem_map.mpr stand

/-- An entry whose content is one code. -/
theorem laid_of_code {n : Notice} {c : Nat} (h : n.content = [byteOf c]) :
    n.Laid n.code n.subject [(2, 1, c), (3, 5, 0)] :=
  laid_of_content (rows := [(0, 1, c), (1, 5, 0)]) (by rw [h]; rfl) rfl
    (stand_cons.mpr ⟨standsAt_byteOf c _, stand_cons.mpr ⟨standsAt_zeros 5, stand_nil _⟩⟩)

/-- An entry whose content is one number of 4 bytes. -/
theorem laid_of_number {n : Notice} {m : Nat} (h : n.content = be 4 m) :
    n.Laid n.code n.subject [(2, 4, m), (6, 2, 0)] :=
  laid_of_content (rows := [(0, 4, m), (4, 2, 0)]) (by rw [h]; rfl) rfl
    (stand_cons.mpr ⟨standsAt_be 4 m _, stand_cons.mpr ⟨standsAt_zeros 2, stand_nil _⟩⟩)

theorem laid_of_empty {n : Notice} (h : n.content = []) : n.Laid n.code n.subject [(2, 6, 0)] :=
  laid_of_content (rows := [(0, 6, 0)]) (by rw [h]; rfl) rfl (stand_cons.mpr ⟨standsAt_zeros 6, stand_nil _⟩)

theorem endReasonByte_eq (r : Option EndReason) : endReasonByte r = byteOf ((r.map EndReason.code).getD 0) := by
  cases r <;> rfl

theorem sessionState_laid (p : PosId) (st : SessionState) (r : Option EndReason) (n : Nat) :
    (sessionState p st r n).Laid 1 p.val [(2, 1, st.code), (3, 1, (r.map EndReason.code).getD 0), (4, 4, n)] :=
  laid_of_content (n := sessionState p st r n)
    (rows := [(0, 1, st.code), (1, 1, (r.map EndReason.code).getD 0), (2, 4, n)])
    (padded := byteOf st.code :: byteOf ((r.map EndReason.code).getD 0) :: be 4 n)
    (by rw [← endReasonByte_eq]; rfl) rfl
    (stand_cons.mpr ⟨standsAt_byteOf _ _, stand_cons.mpr ⟨standsAt_byteOf _ _,
      stand_cons.mpr ⟨standsAt_be 4 n [], stand_nil _⟩⟩⟩)

theorem proofOverdue_laid (b : BankId) (x : Option Nat) :
    (proofOverdue b x).Laid 9 b.val [(2, 1, if x.isSome = true then 1 else 0), (3, 4, x.getD 0), (7, 1, 0)] := by
  have pad : optField 4 x ++ [0] = byteOf (if x.isSome = true then 1 else 0) :: (be 4 (x.getD 0) ++ [0]) := by
    cases x <;> rfl
  refine laid_of_content (n := proofOverdue b x)
    (rows := [(0, 1, if x.isSome = true then 1 else 0), (1, 4, x.getD 0), (5, 1, 0)])
    (Eq.trans ?_ pad) rfl
    (stand_cons.mpr ⟨standsAt_byteOf _ _, stand_cons.mpr ⟨standsAt_be 4 _ _,
      stand_cons.mpr ⟨standsAt_zeros 1, stand_nil _⟩⟩⟩)
  cases x <;> rfl

end Notice

/-! ### The request -/

theorem readNoticesRequest_of_nil {s : State} {q : PortId} (h : (s.port q).queue = []) :
    readNoticesRequest q s = (s, ⟨.none, []⟩) := by
  unfold readNoticesRequest
  rw [h]
  rfl

theorem readNoticesRequest_of_ne_nil {s : State} {q : PortId} (h : (s.port q).queue ≠ []) :
    readNoticesRequest q s =
      (s.modPort q fun x => { x with queue := x.queue.drop 8 },
        ⟨.ok, byteOf (min 8 (s.port q).queue.length) :: ((s.port q).queue.take 8).flatMap Notice.entry⟩) := by
  unfold readNoticesRequest
  rw [← List.length_take]
  cases e : (s.port q).queue with
  | nil => exact absurd e h
  | cons n rest => rfl

theorem taking_queue (s : State) (f : Frame) : ((s.taking f).port f.port).queue = (s.port f.port).queue := by
  unfold State.taking
  rw [State.modPort_port_same]

/-- Removing notices from a queue does not touch the exchange of its port. -/
theorem taking_drop (s : State) (f : Frame) :
    (s.taking f).modPort f.port (fun x => { x with queue := x.queue.drop 8 }) =
      (s.modPort f.port fun x => { x with queue := x.queue.drop 8 }).taking f := by
  simp [State.taking, State.modPort]

/-- A port that takes READ NOTICES answers what the Link Interface gives, and nothing is posted (R2, R12). -/
theorem exec_readNotices {q : PortId} {tag : Byte} {s t : State} {r : Reply} (k : Takes s (readNoticesFrame q tag))
    (e : readNoticesRequest q (s.taking (readNoticesFrame q tag)) = (t.taking (readNoticesFrame q tag), r))
    (o : t.outbox = []) :
    exec (.readNotices q tag) s = .next (t.answerOwner (readNoticesFrame q tag) r) := by
  obtain ⟨fits, passes, -⟩ := Laws.WireForm.readNotices q tag rfl _ _ rfl
  exact (exec_request rfl s).trans (congrArg _ (State.request_quiet k passes fits e o))

theorem exec_readNotices_of_nil {q : PortId} {tag : Byte} {s : State} (k : Takes s (readNoticesFrame q tag))
    (h : (s.port q).queue = []) :
    exec (.readNotices q tag) s = .next (s.answerOwner (readNoticesFrame q tag) ⟨.none, []⟩) :=
  exec_readNotices k (readNoticesRequest_of_nil ((taking_queue s (readNoticesFrame q tag)).trans h)) k.quiet

theorem exec_readNotices_of_ne_nil {q : PortId} {tag : Byte} {s : State} (k : Takes s (readNoticesFrame q tag))
    (h : (s.port q).queue ≠ []) :
    exec (.readNotices q tag) s = .next
      ((s.modPort q fun x => { x with queue := x.queue.drop 8 }).answerOwner (readNoticesFrame q tag)
        ⟨.ok, byteOf (min 8 (s.port q).queue.length) :: ((s.port q).queue.take 8).flatMap Notice.entry⟩) := by
  have queue : ((s.taking (readNoticesFrame q tag)).port q).queue = (s.port q).queue :=
    taking_queue s (readNoticesFrame q tag)
  refine exec_readNotices k ?_ k.quiet
  rw [readNoticesRequest_of_ne_nil (by rw [queue]; exact h), queue]
  exact congrArg (·, _) (taking_drop s (readNoticesFrame q tag))

/-- Settles O13: the two outcomes of the request, then the layout of each kind of notice; the codes are finite tables. -/
theorem readNoticesGivesTheOldestEight : Obligations.ReadNoticesGivesTheOldestEight := by
  refine ⟨fun q tag s k => ⟨exec_readNotices_of_nil k, exec_readNotices_of_ne_nil k⟩,
    Notice.sessionState_laid, fun p c => ?vehicleDataLost, fun b r => ?refillStop, fun p n => ⟨?expired, ?consumed⟩,
    fun b n x => ⟨?suspect, Notice.proofOverdue_laid b x⟩, fun n => ⟨?demand, ?ready, ?mismatch⟩, fun c => ?halted,
    ?stale, rfl, rfl, rfl, rfl, rfl⟩
  case vehicleDataLost => exact Notice.laid_of_code (n := .vehicleDataLost p c) rfl
  case refillStop => exact Notice.laid_of_code (n := .refillStop b r) rfl
  case expired => exact Notice.laid_of_number (n := .authorizationExpired p n) rfl
  case consumed => exact Notice.laid_of_number (n := .authorizationConsumed p n) rfl
  case suspect => exact Notice.laid_of_number (n := .bankSuspect b n) rfl
  case demand => exact Notice.laid_of_number (n := .coolingDemand n) rfl
  case ready => exact Notice.laid_of_code (n := .recordReady n) rfl
  case mismatch => exact Notice.laid_of_number (n := .massMismatch n) rfl
  case halted => exact Notice.laid_of_code (n := .siteHalted c) rfl
  case stale => exact Notice.laid_of_empty (n := .bankDataStale) rfl

end Sys2Proof.Machine
end

section
/-! SUPPORT. The attention line of a port, through the end of an event, a site reset and power-on (R11). -/

namespace Sys2Proof.Machine

/-! ### When a queue is empty after an event -/

theorem updateNotice_eq_nil (q : List Notice) (n : Notice) : updateNotice q n = [] ↔ q = [] := List.map_eq_nil_iff

theorem foldl_updateNotice_eq_nil (posts q : List Notice) : posts.foldl updateNotice q = [] ↔ q = [] := by
  induction posts generalizing q with
  | nil => rfl
  | cons n posts ih => exact (ih (updateNotice q n)).trans (updateNotice_eq_nil q n)

theorem insertNotice_ne_nil (l : List Notice) (n : Notice) : insertNotice l n ≠ [] := by
  cases l with
  | nil => exact List.cons_ne_nil _ _
  | cons m rest =>
    unfold insertNotice
    split
    · exact List.cons_ne_nil _ _
    · split <;> exact List.cons_ne_nil _ _

theorem foldl_insertNotice_eq_nil (posts acc : List Notice) :
    posts.foldl insertNotice acc = [] ↔ posts = [] ∧ acc = [] := by
  induction posts generalizing acc with
  | nil => simp
  | cons n posts ih => simp [ih, insertNotice_ne_nil]

/-- In an empty queue every post is of a new pair, so posts leave the queue empty only when there are none (R10). -/
theorem mergeNotices_eq_nil (q posts : List Notice) : mergeNotices q posts = [] ↔ q = [] ∧ posts = [] := by
  unfold mergeNotices
  rw [List.append_eq_nil_iff, foldl_updateNotice_eq_nil, foldl_insertNotice_eq_nil]
  refine and_congr_right fun empty => ?_
  subst empty
  have new : posts.filter (fun n => !holdsPair [] n) = posts := List.filter_eq_self.mpr fun _ _ => rfl
  rw [new]
  exact and_iff_left rfl

/-! ### The line -/

theorem attention_iff (s : State) (q : PortId) : s.attention q = true ↔ (s.port q).queue ≠ [] := by
  simp [State.attention]

theorem attention_of_empty {s : State} {q : PortId} (h : (s.port q).queue = []) : s.attention q = false := by
  simp [State.attention, h]

theorem resetPorts_queue (s : State) (q : PortId) : (s.resetPorts.port q).queue = [] := by
  have reset : s.resetPorts.port q = Port.atReset q (s.port q) := Ports.get_map _ _ _
  rw [reset]
  unfold Port.atReset
  split <;> rfl

/-- The end of an event drives the line active for the posts to the port, and releases no line (R10, R11). -/
theorem flush_attention (s : State) (q : PortId) :
    s.flush.attention q = true ↔ s.attention q = true ∨ ∃ n ∈ s.outbox, n.port = q := by
  have posted : s.outbox.filter (fun n => n.port = q) = [] ↔ ¬∃ n ∈ s.outbox, n.port = q := by simp
  rw [attention_iff, attention_iff, State.flush_port, ne_eq, mergeNotices_eq_nil, posted, not_and_or,
    not_not]

/-- Settles O14: the line is computed from the queue, and each clause is what its event does to the queue. -/
theorem attentionFollowsTheQueue : Obligations.AttentionFollowsTheQueue := by
  intro s q
  have powerOn : (State.reset.port q).queue = [] := by rw [reset_port]; rfl
  exact ⟨attention_iff s q, flush_attention s q, attention_of_empty (resetPorts_queue s q), attention_of_empty powerOn⟩

end Sys2Proof.Machine
end

section
/-! SUPPORT. Validation: which entries fail, and that the entry named is the first of them (R18). -/

namespace Sys2Proof.Machine

/-! ### When an entry fails -/

theorem densityAt_eq (c : SiteConfig) (i j : Nat) :
    c.densityAt i j = ((c.density.getD i none).getD []).getD j 0 := by
  unfold SiteConfig.densityAt
  cases c.density.getD i none <;> rfl

theorem notBelow_eq_false_iff {row before : List Nat} :
    notBelow row before = false ↔ ∃ j < 16, row.getD j 0 < before.getD j 0 := by
  simp [notBelow]

theorem notRising_eq_false_iff {row : List Nat} :
    notRising row = false ↔ ∃ j < 15, row.getD j 0 < row.getD (j + 1) 0 := by
  simp [notRising]

/-- A density row passes only when it is loaded; the first is all 0, and a later one neither falls nor rises (R18). -/
theorem densityRowFails_iff (c : SiteConfig) (i : Nat) :
    densityRowFails c i = true ↔ ∀ row, c.density.getD i none = some row →
      (i = 0 ∧ ∃ j < 16, row.getD j 0 ≠ 0)
        ∨ (0 < i ∧ ((∃ j < 16, row.getD j 0 < c.densityAt (i - 1) j) ∨ ∃ j < 15, row.getD j 0 < row.getD (j + 1) 0)) := by
  simp only [densityAt_eq, ← notBelow_eq_false_iff, ← notRising_eq_false_iff]
  unfold densityRowFails
  cases c.density.getD i none with
  | none => simp
  | some row =>
    simp only [Option.some.injEq, forall_eq']
    rcases Nat.eq_zero_or_pos i with rfl | later
    · simp
    · simp [later, Nat.ne_of_gt later]

theorem bankEntryFails_bank (c : SiteConfig) : ∀ b : BankId, bankEntryFails c b.val = (c.banks.get b).isNone
  | 0 => rfl
  | 1 => rfl
  | 2 => rfl
  | 3 => rfl

theorem positionEntryFails_position (c : SiteConfig) :
    ∀ p : PosId, positionEntryFails c p.val = (c.positions.get p).isNone
  | 0 => rfl
  | 1 => rfl
  | 2 => rfl
  | 3 => rfl

/-- The six entries of the bank configuration: the four banks, then the two cascade lists (R29). -/
theorem bankEntryFails_iff (c : SiteConfig) (i : Nat) :
    i < 6 ∧ bankEntryFails c i = true ↔
      (∃ b : BankId, b.val = i ∧ c.banks.get b = none) ∨ (i = 4 ∧ c.cascadeH70 = none)
        ∨ (i = 5 ∧ c.cascadeH35 = none) := by
  constructor
  · rintro ⟨inTable, e⟩
    by_cases bank : i < 4
    · exact .inl ⟨⟨i, bank⟩, rfl, Option.isNone_iff_eq_none.mp ((bankEntryFails_bank c ⟨i, bank⟩).symm.trans e)⟩
    · obtain rfl | rfl : i = 4 ∨ i = 5 := by omega
      · exact .inr (.inl ⟨rfl, Option.isNone_iff_eq_none.mp e⟩)
      · exact .inr (.inr ⟨rfl, Option.isNone_iff_eq_none.mp e⟩)
  · rintro (⟨b, rfl, e⟩ | ⟨rfl, e⟩ | ⟨rfl, e⟩)
    · exact ⟨by omega, (bankEntryFails_bank c b).trans (Option.isNone_iff_eq_none.mpr e)⟩
    · exact ⟨by omega, Option.isNone_iff_eq_none.mpr e⟩
    · exact ⟨by omega, Option.isNone_iff_eq_none.mpr e⟩

theorem positionEntryFails_iff (c : SiteConfig) (i : Nat) :
    i < 4 ∧ positionEntryFails c i = true ↔ ∃ p : PosId, p.val = i ∧ c.positions.get p = none := by
  constructor
  · rintro ⟨inTable, e⟩
    exact ⟨⟨i, inTable⟩, rfl,
      Option.isNone_iff_eq_none.mp ((positionEntryFails_position c ⟨i, inTable⟩).symm.trans e)⟩
  · rintro ⟨p, rfl, e⟩
    exact ⟨p.isLt, (positionEntryFails_position c p).trans (Option.isNone_iff_eq_none.mpr e)⟩

/-! ### The order of the examination -/

/-- An entry is examined before another: in an earlier table, or in the same table at a lower index (R18). -/
def ExaminedBefore (x y : Nat × Nat × Bool) : Prop := x.1 < y.1 ∨ (x.1 = y.1 ∧ x.2.1 < y.2.1)

/-- The indexes of one table are examined in increasing order. -/
theorem pairwise_examinedBefore_table (table size : Nat) (fails : Nat → Bool) :
    ((List.range size).map fun i => (table, i, fails i)).Pairwise ExaminedBefore :=
  List.pairwise_map.mpr (List.pairwise_lt_range.imp fun lower => .inr ⟨rfl, lower⟩)

/-- A table whose entries all come before those of the tables that follow stands in front of them. -/
theorem pairwise_examinedBefore_append {front rest : List (Nat × Nat × Bool)} {table : Nat}
    (a : front.Pairwise ExaminedBefore) (b : rest.Pairwise ExaminedBefore) (first : ∀ x ∈ front, x.1 < table)
    (later : ∀ y ∈ rest, table ≤ y.1) : (front ++ rest).Pairwise ExaminedBefore :=
  List.pairwise_append.mpr ⟨a, b, fun x hx y hy => .inl (Nat.lt_of_lt_of_le (first x hx) (later y hy))⟩

theorem entryChecks_pairwise (c : SiteConfig) : (entryChecks c).Pairwise ExaminedBefore := by
  unfold entryChecks
  refine pairwise_examinedBefore_append (table := 4) (pairwise_examinedBefore_append (table := 3)
    (pairwise_examinedBefore_append (table := 2) (pairwise_examinedBefore_append (table := 1)
      (pairwise_examinedBefore_table _ _ _) (pairwise_examinedBefore_table _ _ _) ?_ ?_)
      (pairwise_examinedBefore_table _ _ _) ?_ ?_) (pairwise_examinedBefore_table _ _ _) ?_ ?_)
    (List.pairwise_singleton _ _) ?_ ?_
  all_goals simp [or_imp, forall_and]

/-- In a list in the order of the examination, the first entry found to fail is the one before which none fails. -/
theorem find_failing_iff {l : List (Nat × Nat × Bool)} (ordered : l.Pairwise ExaminedBefore) (table i : Nat) :
    (l.find? fun x => x.2.2) = some (table, i, true) ↔
      (table, i, true) ∈ l ∧ ∀ u j, u < table ∨ (u = table ∧ j < i) → (u, j, true) ∉ l := by
  constructor
  · intro found
    obtain ⟨-, front, rest, rfl, passing⟩ := List.find?_eq_some_iff_append.mp found
    obtain ⟨-, fromFound, -⟩ := List.pairwise_append.mp ordered
    refine ⟨List.mem_append_right _ List.mem_cons_self, fun u j before failing => ?_⟩
    rcases List.mem_append.mp failing with inFront | inTail
    · exact absurd (passing _ inFront) nofun
    · rcases List.mem_cons.mp inTail with same | inRest
      · cases same
        omega
      · have after : table < u ∨ (table = u ∧ i < j) := List.rel_of_pairwise_cons fromFound inRest
        omega
  · rintro ⟨failing, first⟩
    obtain ⟨front, rest, rfl⟩ := List.append_of_mem failing
    obtain ⟨-, -, ahead⟩ := List.pairwise_append.mp ordered
    refine List.find?_eq_some_iff_append.mpr ⟨rfl, front, rest, rfl, fun ⟨u, j, fails⟩ inFront => ?_⟩
    have before : u < table ∨ (u = table ∧ j < i) := ahead _ inFront _ List.mem_cons_self
    cases fails with
    | false => rfl
    | true => exact absurd (List.mem_append_left _ inFront) (first u j before)

/-! ### What validation answers -/

theorem mem_table_iff (t size : Nat) (fails : Nat → Bool) (table i : Nat) :
    (table, i, true) ∈ (List.range size).map (fun j => (t, j, fails j)) ↔
      table = t ∧ i < size ∧ fails i = true := by
  rw [List.mem_map]
  constructor
  · rintro ⟨j, inTable, same⟩
    obtain ⟨rfl, rfl, failing⟩ : t = table ∧ j = i ∧ fails j = true := by simpa using same
    exact ⟨rfl, List.mem_range.mp inTable, failing⟩
  · rintro ⟨rfl, inTable, failing⟩
    exact ⟨i, List.mem_range.mpr inTable, by rw [failing]⟩

theorem mem_entryChecks_iff (c : SiteConfig) (table i : Nat) :
    (table, i, true) ∈ entryChecks c ↔
      (table = 0 ∧ i < 25 ∧ densityRowFails c i = true)
        ∨ (table = 1 ∧ i < 48 ∧ c.profiles.getD i none = none)
        ∨ (table = 2 ∧ i < 6 ∧ bankEntryFails c i = true)
        ∨ (table = 3 ∧ i < 4 ∧ positionEntryFails c i = true)
        ∨ (table = 4 ∧ i = 0 ∧ c.params = none) := by
  unfold entryChecks
  simp only [List.mem_append, mem_table_iff, List.mem_singleton, Prod.mk.injEq, Bool.true_eq, Option.isNone_iff_eq_none,
    or_assoc]

theorem validate_eq_none_iff (c : SiteConfig) :
    validate c = none ↔ ∀ table i, (table, i, true) ∉ entryChecks c := by
  unfold validate
  rw [Option.map_eq_none_iff, List.find?_eq_none]
  refine ⟨fun passing table i failing => passing _ failing rfl, fun allPass ⟨table, i, fails⟩ entry e => ?_⟩
  cases (show fails = true from e)
  exact allPass table i entry

theorem validate_eq_some_iff (c : SiteConfig) (table i : Nat) :
    validate c = some (table, i) ↔
      (table, i, true) ∈ entryChecks c
        ∧ ∀ u j, u < table ∨ (u = table ∧ j < i) → (u, j, true) ∉ entryChecks c := by
  rw [← find_failing_iff (entryChecks_pairwise c)]
  unfold validate
  constructor
  · intro named
    obtain ⟨⟨u, j, fails⟩, found, place⟩ := Option.map_eq_some_iff.mp named
    have failing : fails = true := List.find?_some found
    cases place
    rw [found, failing]
  · intro found
    rw [found]
    rfl

/-- Settles O32: the entry named is the first failing one of the list examined, whose failing entries are those that R18
names. -/
theorem validationNamesTheFirstFailure : Obligations.ValidationNamesTheFirstFailure := by
  intro c fails
  have failing (table i : Nat) : (table, i, true) ∈ entryChecks c ↔ fails table i :=
    (mem_entryChecks_iff c table i).trans
      (or_congr (and_congr_right' (and_congr_right' (densityRowFails_iff c i)))
        (or_congr Iff.rfl
          (or_congr (and_congr_right' (bankEntryFails_iff c i))
            (or_congr (and_congr_right' (positionEntryFails_iff c i)) Iff.rfl))))
  simp only [← failing]
  exact ⟨validate_eq_none_iff c, validate_eq_some_iff c⟩

end Sys2Proof.Machine
end

section
/-! SUPPORT. The requests that change the site mode: what Site Control does with each, and what the port answers (R17, R19,
R20, R23). -/

namespace Sys2Proof.Machine

/-- A well-formed request command on a port that takes it is answered with what its owner answers. -/
theorem exec_answers_of_wireForm {i : Instr} {f : Frame} {h : Handler} {s t : State} {c : Code} {body : List Byte}
    (form : Laws.WireForm.Statement i) (w : i.wellFormed = true) (e : i.request? = some (f, h)) (k : Takes s f)
    (g : h (s.taking f) = (t.taking f, ⟨c, body⟩)) : exec i s = .next (t.answered f c body) := by
  obtain ⟨fits, passes, -⟩ := form w f h e
  exact exec_answers e k fits passes g

/-! ### COMMISSION -/

theorem commissionRequest_of_valid {s : State} (m : s.site.mode = .unconfigured) (v : validate s.site.config = none) :
    commissionRequest s =
      done { s with site := { s.site with mode := .serving, commissionedAt := some s.site.siteTime } } := by
  unfold commissionRequest
  rw [if_neg (not_not.mpr m), v]
  rfl

theorem commissionRequest_of_invalid {s : State} {table entry : Nat} (m : s.site.mode = .unconfigured)
    (v : validate s.site.config = some (table, entry)) :
    commissionRequest s = (s, ⟨.invalidTable, [byteOf table, byteOf entry]⟩) := by
  unfold commissionRequest
  rw [if_neg (not_not.mpr m), v]
  rfl

theorem commissionRequest_of_mode {s : State} (m : s.site.mode ≠ .unconfigured) :
    commissionRequest s = refuse .wrongState s := by
  unfold commissionRequest
  rw [if_pos m]

/-- Settles O31: one case for each outcome of the request. -/
theorem commissionPutsTheSiteToService : Obligations.CommissionPutsTheSiteToService := by
  intro tag s k
  have answers {t : State} {c : Code} {body : List Byte} :=
    exec_answers_of_wireForm (t := t) (c := c) (body := body) (Laws.WireForm.commission tag) rfl rfl k
  exact ⟨fun m v => answers (commissionRequest_of_valid m v), fun _ _ m v => answers (commissionRequest_of_invalid m v),
    fun m => answers (commissionRequest_of_mode m)⟩

/-! ### ENTER SERVICE and LEAVE SERVICE -/

theorem enterServiceRequest_of_serving {s : State} (m : s.site.mode = .serving) :
    enterServiceRequest s = done { s with site := { s.site with mode := .service, working := some s.site.config } } := by
  unfold enterServiceRequest
  rw [if_pos m]
  rfl

theorem enterServiceRequest_of_mode {s : State} (m : s.site.mode ≠ .serving) :
    enterServiceRequest s = refuse .wrongState s := by
  unfold enterServiceRequest
  rw [if_neg m]

theorem leaveServiceRequest_of_valid {s : State} {c : SiteConfig} (m : s.site.mode = .service)
    (w : s.site.working = some c) (v : validate c = none) :
    leaveServiceRequest s =
      done { s with site := { s.site with mode := .serving, config := c, working := none } } := by
  unfold leaveServiceRequest
  rw [m, w]
  dsimp only
  rw [v]
  rfl

theorem leaveServiceRequest_of_invalid {s : State} {c : SiteConfig} {table entry : Nat}
    (m : s.site.mode = .service) (w : s.site.working = some c) (v : validate c = some (table, entry)) :
    leaveServiceRequest s = (s, ⟨.invalidTable, [byteOf table, byteOf entry]⟩) := by
  unfold leaveServiceRequest
  rw [m, w]
  dsimp only
  rw [v]
  rfl

theorem leaveServiceRequest_of_mode {s : State} (m : s.site.mode ≠ .service) :
    leaveServiceRequest s = refuse .wrongState s := by
  unfold leaveServiceRequest
  split
  case h_1 inService _ => exact absurd inService m
  case h_2 => rfl

/-- Settles O33: the two outcomes of ENTER SERVICE, then the three of LEAVE SERVICE. -/
theorem serviceTakesACopyAndPutsItInForce : Obligations.ServiceTakesACopyAndPutsItInForce := by
  refine ⟨fun tag s k => ?enter, fun tag s k => ?leave⟩
  case enter =>
    have answers {t : State} {c : Code} {body : List Byte} :=
      exec_answers_of_wireForm (t := t) (c := c) (body := body) (Laws.WireForm.enterService tag) rfl rfl k
    exact ⟨fun m => answers (enterServiceRequest_of_serving m), fun m => answers (enterServiceRequest_of_mode m)⟩
  case leave =>
    have answers {t : State} {c : Code} {body : List Byte} :=
      exec_answers_of_wireForm (t := t) (c := c) (body := body) (Laws.WireForm.leaveService tag) rfl rfl k
    exact ⟨fun c m w => ⟨fun v => answers (leaveServiceRequest_of_valid m w v),
      fun _ _ v => answers (leaveServiceRequest_of_invalid m w v)⟩, fun m => answers (leaveServiceRequest_of_mode m)⟩

/-! ### RESUME SITE -/

theorem resumeSiteRequest_of_halted {s : State} (m : s.site.mode = .halted) :
    resumeSiteRequest s = done { s with site := { s.site with mode := .serving, haltCause := none } } := by
  unfold resumeSiteRequest
  rw [if_pos m]
  rfl

theorem resumeSiteRequest_of_mode {s : State} (m : s.site.mode ≠ .halted) :
    resumeSiteRequest s = refuse .wrongState s := by
  unfold resumeSiteRequest
  rw [if_neg m]

/-- Settles O34: one case for each outcome of the request. -/
theorem resumeSiteServesAgain : Obligations.ResumeSiteServesAgain := by
  intro tag s k
  have answers {t : State} {c : Code} {body : List Byte} :=
    exec_answers_of_wireForm (t := t) (c := c) (body := body) (Laws.WireForm.resumeSite tag) rfl rfl k
  exact ⟨fun m => answers (resumeSiteRequest_of_halted m), fun m => answers (resumeSiteRequest_of_mode m)⟩

end Sys2Proof.Machine
end

section
/-! SUPPORT. The density as an interpolation along temperature of interpolations along pressure: its bounds and its
monotonicity (R41). -/

namespace Sys2Proof.Machine

/-! ### The weighted sum of two neighbours -/

/-- The weights of R40, steps 1 and 3: `f` parts of `w` from `a` towards `b`, scaled by `w`. -/
def blend (w a b f : Nat) : Nat := a * (w - f) + b * f

theorem blend_self {w f : Nat} (hf : f ≤ w) (a : Nat) : blend w a a f = a * w := by
  rw [blend, ← Nat.mul_add, Nat.sub_add_cancel hf]

theorem blend_zero (w a b : Nat) : blend w a b 0 = a * w := by simp [blend]

theorem blend_full (w a b : Nat) : blend w a b w = b * w := by simp [blend]

theorem blend_le_blend {a b a' b' : Nat} (w f : Nat) (ha : a ≤ a') (hb : b ≤ b') :
    blend w a b f ≤ blend w a' b' f :=
  Nat.add_le_add (Nat.mul_le_mul_right _ ha) (Nat.mul_le_mul_right _ hb)

theorem blend_swap {w f : Nat} (hf : f ≤ w) (a b : Nat) : blend w a b f = blend w b a (w - f) := by
  rw [blend, blend, Nat.sub_sub_self hf, Nat.add_comm]

/-- Moving weight to the greater neighbour does not make the sum fall. -/
theorem blend_mono {w a b f g : Nat} (hab : a ≤ b) (hfg : f ≤ g) (hg : g ≤ w) : blend w a b f ≤ blend w a b g := by
  obtain ⟨d, rfl⟩ := Nat.exists_eq_add_of_le hab
  have parts (h : Nat) (hh : h ≤ w) : blend w a (a + d) h = a * w + d * h := by
    rw [← blend_self hh a, blend, blend, Nat.add_mul, Nat.add_assoc]
  rw [parts f (hfg.trans hg), parts g hg]
  exact Nat.add_le_add_left (Nat.mul_le_mul_left d hfg) _

theorem blend_anti {w a b f g : Nat} (hba : b ≤ a) (hfg : f ≤ g) (hg : g ≤ w) : blend w a b g ≤ blend w a b f := by
  rw [blend_swap hg, blend_swap (hfg.trans hg)]
  exact blend_mono hba (Nat.sub_le_sub_left hfg w) (Nat.sub_le w f)

/-! ### Interpolation along one axis -/

/-- The cell of R39 on an axis of `n + 1` cells of width `w`: the last one for every `x` past its start. -/
def cell (w n x : Nat) : Nat := min (x / w) n

/-- The fraction of R39 within that cell; `w` for every `x` past the end of the axis (R38). -/
def fraction (w n x : Nat) : Nat := min (x - w * cell w n x) w

theorem fraction_le (w n x : Nat) : fraction w n x ≤ w := Nat.min_le_right _ _

/-- The entries `d` at the multiples of `w`, interpolated at `x` and scaled by `w`. -/
def interpolate (w n : Nat) (d : Nat → Nat) (x : Nat) : Nat :=
  blend w (d (cell w n x)) (d (cell w n x + 1)) (fraction w n x)

/-- The next point can be read in the cell of `x`: on the line between two cells both give the same value. -/
theorem interpolate_succ {w : Nat} (n : Nat) (d : Nat → Nat) (x : Nat) :
    interpolate w n d (x + 1) =
      blend w (d (cell w n x)) (d (cell w n x + 1)) (min (x + 1 - w * cell w n x) w) := by
  by_cases same : cell w n (x + 1) = cell w n x
  case pos => rw [interpolate, fraction, same]
  case neg =>
    have crosses : w ∣ x + 1 ∧ x / w < n := by
      unfold cell at same
      rw [Nat.succ_div] at same
      split at same
      case isTrue onLine => exact ⟨onLine, by omega⟩
      case isFalse => exact absurd rfl same
    obtain ⟨onLine, inside⟩ := crosses
    have here : cell w n x = x / w := Nat.min_eq_left inside.le
    have next : (x + 1) / w = x / w + 1 := by rw [Nat.succ_div, if_pos onLine]
    have there : cell w n (x + 1) = x / w + 1 := by rw [cell, next, Nat.min_eq_left inside]
    have line : x + 1 = w * (x / w) + w := by rw [← Nat.mul_add_one, ← next, Nat.mul_div_cancel' onLine]
    have before : min (x + 1 - w * (x / w)) w = w := by omega
    have after : fraction w n (x + 1) = 0 := by
      rw [fraction, there, Nat.mul_add_one, ← line, Nat.sub_self, Nat.zero_min]
    rw [interpolate, after, blend_zero, here, before, blend_full, there]

/-- Interpolation follows entries that do not fall along the axis. -/
theorem interpolate_monotone {w n : Nat} {d : Nat → Nat} (rises : ∀ k ≤ n, d k ≤ d (k + 1)) :
    Monotone (interpolate w n d) := by
  refine monotone_nat_of_le_succ fun x => ?_
  rw [interpolate_succ]
  exact blend_mono (rises _ (Nat.min_le_right _ _)) (by unfold fraction; omega) (Nat.min_le_right _ _)

/-- Interpolation follows entries that do not rise along the axis. -/
theorem interpolate_antitone {w n : Nat} {d : Nat → Nat} (falls : ∀ k ≤ n, d (k + 1) ≤ d k) :
    Antitone (interpolate w n d) := by
  refine antitone_nat_of_succ_le fun x => ?_
  rw [interpolate_succ]
  exact blend_anti (falls _ (Nat.min_le_right _ _)) (by unfold fraction; omega) (Nat.min_le_right _ _)

theorem interpolate_le_interpolate {w n : Nat} {d e : Nat → Nat} (below : ∀ k ≤ n + 1, d k ≤ e k) (x : Nat) :
    interpolate w n d x ≤ interpolate w n e x :=
  have inside : cell w n x ≤ n := Nat.min_le_right _ _
  blend_le_blend _ _ (below _ (by omega)) (below _ (by omega))

/-- An interpolation lies between any bounds of the two entries it reads. -/
theorem interpolate_between {w n x lo hi : Nat} {d : Nat → Nat} (here : lo ≤ d (cell w n x) ∧ d (cell w n x) ≤ hi)
    (next : lo ≤ d (cell w n x + 1) ∧ d (cell w n x + 1) ≤ hi) :
    lo * w ≤ interpolate w n d x ∧ interpolate w n d x ≤ hi * w := by
  rw [← blend_self (fraction_le w n x) lo, ← blend_self (fraction_le w n x) hi]
  exact ⟨blend_le_blend _ _ here.1 next.1, blend_le_blend _ _ here.2 next.2⟩

/-! ### Density -/

/-- The density in column `j`, scaled by 500 (R40, steps 1 and 2). -/
def columnDensity (c : SiteConfig) (pressure j : Nat) : Nat := interpolate 500 23 (c.densityAt · j) pressure

theorem pressureRow_clampPressure (p : Nat) : pressureRow (clampPressure p) = cell 500 23 p := by
  unfold pressureRow clampPressure cell
  omega

theorem temperatureColumn_clampTemperature (t : Nat) :
    temperatureColumn (clampTemperature t) = cell 100 14 (t - 2200) := by
  unfold temperatureColumn clampTemperature cell
  omega

theorem pressure_fraction (p : Nat) : clampPressure p - 500 * cell 500 23 p = fraction 500 23 p := by
  unfold clampPressure fraction cell
  omega

theorem temperature_fraction (t : Nat) :
    clampTemperature t - 2200 - 100 * cell 100 14 (t - 2200) = fraction 100 14 (t - 2200) := by
  unfold clampTemperature fraction cell
  omega

/-- Density interpolates along temperature what the columns interpolate along pressure, and rounds once (R40). -/
theorem density_eq (c : SiteConfig) (p t : Nat) :
    density c p t = (interpolate 100 14 (columnDensity c p) (t - 2200) + 25000) / 50000 := by
  unfold density
  dsimp only
  rw [pressureRow_clampPressure, temperatureColumn_clampTemperature, pressure_fraction, temperature_fraction]
  rfl

theorem corners_eq (c : SiteConfig) (p t : Nat) :
    corners c p t =
      [c.densityAt (cell 500 23 p) (cell 100 14 (t - 2200)), c.densityAt (cell 500 23 p + 1) (cell 100 14 (t - 2200)),
        c.densityAt (cell 500 23 p) (cell 100 14 (t - 2200) + 1),
        c.densityAt (cell 500 23 p + 1) (cell 100 14 (t - 2200) + 1)] := by
  have row : (if min p 12000 / 500 = 24 then 23 else min p 12000 / 500) = cell 500 23 p := by
    unfold cell
    split <;> omega
  have column : (if (max 2200 (min t 3700) - 2200) / 100 = 15 then 14
      else (max 2200 (min t 3700) - 2200) / 100) = cell 100 14 (t - 2200) := by
    unfold cell
    split <;> omega
  unfold corners
  dsimp only
  rw [row, column]

/-- The rounding of R40 does not carry a scaled mean past a bound that is an integer (R41). -/
theorem density_between {c : SiteConfig} {p t lo hi : Nat} (between : ∀ d ∈ corners c p t, lo ≤ d ∧ d ≤ hi) :
    lo ≤ density c p t ∧ density c p t ≤ hi := by
  simp only [corners_eq, List.forall_mem_cons] at between
  obtain ⟨d00, d10, d01, d11, -⟩ := between
  have scaled : lo * 500 * 100 ≤ interpolate 100 14 (columnDensity c p) (t - 2200)
      ∧ interpolate 100 14 (columnDensity c p) (t - 2200) ≤ hi * 500 * 100 :=
    interpolate_between (interpolate_between d00 d10) (interpolate_between d01 d11)
  rw [density_eq]
  omega

/-! ### A table that has passed validation -/

/-- In a valid table no column falls from one row to the next (R18). -/
theorem densityAt_le_succ_row {c : SiteConfig} (valid : ∀ i < 25, densityRowFails c i = false) {i j : Nat}
    (hi : i < 24) (hj : j < 16) : c.densityAt i j ≤ c.densityAt (i + 1) j := by
  by_contra falls
  refine absurd ((densityRowFails_iff c (i + 1)).mpr fun row loaded => ?_) (by simp [valid (i + 1) (by omega)])
  refine .inr ⟨i.succ_pos, .inl ⟨j, hj, ?_⟩⟩
  rw [densityAt_eq c (i + 1), loaded] at falls
  exact not_le.mp falls

/-- In a valid table no row rises from one column to the next: row 0 is all 0, and a later one does not rise (R18). -/
theorem densityAt_succ_column_le {c : SiteConfig} (valid : ∀ i < 25, densityRowFails c i = false) {i j : Nat}
    (hi : i < 25) (hj : j < 15) : c.densityAt i (j + 1) ≤ c.densityAt i j := by
  by_contra rises
  refine absurd ((densityRowFails_iff c i).mpr fun row loaded => ?_) (by simp [valid i hi])
  rw [densityAt_eq, densityAt_eq, loaded, not_le] at rises
  obtain rfl | later := i.eq_zero_or_pos
  · exact .inl ⟨rfl, j + 1, by omega, Nat.ne_zero_of_lt rises⟩
  · exact .inr ⟨later, .inr ⟨j, hj, rises⟩⟩

/-- The least corner of a cell is the warmer lower one, the greatest the colder upper one (R41). -/
theorem corner_between {c : SiteConfig} (valid : ∀ i < 25, densityRowFails c i = false) {i j : Nat}
    (hi : i < 24) (hj : j < 15) :
    ∀ d ∈ [c.densityAt i j, c.densityAt (i + 1) j, c.densityAt i (j + 1), c.densityAt (i + 1) (j + 1)],
      c.densityAt i (j + 1) ≤ d ∧ d ≤ c.densityAt (i + 1) j := by
  have colder := densityAt_le_succ_row valid hi (j := j) (by omega)
  have warmer := densityAt_le_succ_row valid hi (j := j + 1) (by omega)
  have lower := densityAt_succ_column_le valid (i := i) (by omega) hj
  have upper := densityAt_succ_column_le valid (i := i + 1) (by omega) hj
  simp only [List.forall_mem_cons]
  exact ⟨⟨lower, colder⟩, ⟨lower.trans colder, le_rfl⟩, ⟨le_rfl, lower.trans colder⟩, ⟨warmer, upper⟩, nofun⟩

theorem columnDensity_mono {c : SiteConfig} (valid : ∀ i < 25, densityRowFails c i = false) {j p q : Nat}
    (hj : j < 16) (hpq : p ≤ q) : columnDensity c p j ≤ columnDensity c q j :=
  have rises : ∀ i ≤ 23, c.densityAt i j ≤ c.densityAt (i + 1) j := fun _ hi =>
    densityAt_le_succ_row valid (by omega) hj
  interpolate_monotone rises hpq

theorem columnDensity_succ_le {c : SiteConfig} (valid : ∀ i < 25, densityRowFails c i = false) {j : Nat}
    (hj : j < 15) (p : Nat) : columnDensity c p (j + 1) ≤ columnDensity c p j :=
  interpolate_le_interpolate (fun _ hi => densityAt_succ_column_le valid (by omega) hj) p

/-- Each column rises with pressure, and so does what lies between two of them. -/
theorem density_mono_pressure {c : SiteConfig} (valid : ∀ i < 25, densityRowFails c i = false) {p q : Nat} (t : Nat)
    (hpq : p ≤ q) : density c p t ≤ density c q t := by
  rw [density_eq, density_eq]
  have scaled : interpolate 100 14 (columnDensity c p) (t - 2200) ≤ interpolate 100 14 (columnDensity c q) (t - 2200) :=
    interpolate_le_interpolate (fun j hj => columnDensity_mono valid (by omega) hpq) _
  exact Nat.div_le_div_right (Nat.add_le_add_right scaled _)

/-- At one pressure the columns fall as they get warmer, and so does what lies between them. -/
theorem density_anti_temperature {c : SiteConfig} (valid : ∀ i < 25, densityRowFails c i = false) (p : Nat) {t u : Nat}
    (htu : t ≤ u) : density c p u ≤ density c p t := by
  rw [density_eq, density_eq]
  have scaled : interpolate 100 14 (columnDensity c p) (u - 2200) ≤ interpolate 100 14 (columnDensity c p) (t - 2200) :=
    interpolate_antitone (fun j hj => columnDensity_succ_le valid (by omega) p) (Nat.sub_le_sub_right htu _)
  exact Nat.div_le_div_right (Nat.add_le_add_right scaled _)

theorem densityAt_of_neverLoaded {c : SiteConfig} {i : Nat} (absent : c.density.getD i none = none) (j : Nat) :
    c.densityAt i j = 0 := by
  rw [densityAt_eq, absent]
  rfl

/-- Settles O26: density is a weighted mean of its corners, rounded to the nearest integer, and interpolation along an
axis keeps the order that validation asks of the entries. -/
theorem densityStaysWithinItsCorners : Obligations.DensityStaysWithinItsCorners := by
  refine ⟨fun c p t lo hi between => density_between between, fun c valid => ⟨?corners, ?pressure, ?temperature⟩,
    fun c i j absent => densityAt_of_neverLoaded absent j⟩
  case corners => exact fun i hi j hj => corner_between valid hi hj
  case pressure => exact fun p q t => density_mono_pressure valid t
  case temperature => exact fun p t u => density_anti_temperature valid p

end Sys2Proof.Machine
end

section
/-! SUPPORT. CLEAR SUSPECT and REFILL NEXT: what the Bank Manager does with each, and what the port answers (R70, R80,
R83). -/

namespace Sys2Proof.Machine

/-! ### A bank named by a byte -/

theorem fourOf?_eq_none {n : Nat} (h : 4 ≤ n) : fourOf? n = none := dif_neg (Nat.not_lt.mpr h)

theorem fourOf?_val (i : Fin 4) : fourOf? i.val = some i := dif_pos i.isLt

/-! ### CLEAR SUSPECT -/

theorem clearSuspectRequest_of_unknown {s : State} {n : Nat} (h : 4 ≤ n) :
    clearSuspectRequest n s = refuse .outOfRange s := by
  unfold clearSuspectRequest
  rw [fourOf?_eq_none h]

theorem clearSuspectRequest_of_suspect {s : State} {b : BankId} (h : (s.bank b).proofState = .suspect) :
    clearSuspectRequest b.val s =
      done (s.modBank b fun x => { x with proofState := .unproven, provenAt := none, overdue := false }) := by
  unfold clearSuspectRequest
  rw [fourOf?_val]
  exact if_pos h

theorem clearSuspectRequest_of_not_suspect {s : State} {b : BankId} (h : (s.bank b).proofState ≠ .suspect) :
    clearSuspectRequest b.val s = refuse .wrongState s := by
  unfold clearSuspectRequest
  rw [fourOf?_val]
  exact if_neg h

/-! ### Giving a bank to the compressor -/

/-- Abandonment changes the record of the bank and the designation, whether or not a proof is in progress. -/
theorem State.abandonProof_eq (s : State) (b : BankId) :
    s.abandonProof b =
      { s with
        bm :=
          { s.bm with
            banks :=
              s.bm.banks.set b
                { s.bank b with
                  proofState := ((s.bank b).proof.map (·.before)).getD (s.bank b).proofState
                  proof := none }
            designation :=
              if (s.bank b).proof.isSome = true ∧ s.bm.designation = some b then none else s.bm.designation } } := by
  have record := s.abandonProof_bank b
  unfold abandonProof at record ⊢
  cases e : (s.bank b).proof with
  | none =>
    rw [e] at record
    have unchanged := s.bm.banks.set_get b
    simp only [Option.isSome_none, Bool.false_eq_true, false_and, if_false]
    rw [← record]
    exact congrArg (fun q => { s with bm := { s.bm with banks := q } }) unchanged.symm
  | some f => simp only [Option.isSome_some, true_and]; rfl

theorem State.beginRefill_eq (s : State) (b : BankId) :
    s.beginRefill b =
      { s with
        bm :=
          { s.bm with
            banks :=
              s.bm.banks.set b
                { s.bank b with
                  holder := .refill
                  proofState := ((s.bank b).proof.map (·.before)).getD (s.bank b).proofState
                  proof := none }
            designation :=
              if (s.bank b).proof.isSome = true ∧ s.bm.designation = some b then none else s.bm.designation
            refillList := s.bm.refillList.filter (· ≠ b)
            refillInFlight := some b
            yieldTimer := none } } := by
  have unlisted : (fun x : BankId => x != b) = fun x => decide (x ≠ b) := funext fun x => (decide_not ..).symm
  unfold beginRefill leaveRefillList modBm modBank
  rw [abandonProof_eq, unlisted]
  simp only [Quad.get_set_same, Quad.set_set]

/-! ### REFILL NEXT -/

theorem State.refillCandidate_eq_none {s : State} (h : ∀ b ∈ s.bm.refillList, (s.bank b).holder ≠ .free) :
    s.refillCandidate = none :=
  List.find?_eq_none.mpr fun b m => by simpa using h b m

theorem State.refillCandidate_eq_some {s : State} {before after : List BankId} {b : BankId}
    (list : s.bm.refillList = before ++ b :: after) (taken : ∀ a ∈ before, (s.bank a).holder ≠ .free)
    (free : (s.bank b).holder = .free) : s.refillCandidate = some b :=
  List.find?_eq_some_iff_append.mpr ⟨by simpa using free, before, after, list, fun a m => by simpa using taken a m⟩

theorem refillNextRequest_of_inFlight {s : State} (h : s.bm.refillInFlight ≠ none) :
    refillNextRequest s = refuse .busy s := by
  unfold refillNextRequest
  rw [if_pos (Option.isSome_iff_ne_none.mpr h)]

theorem refillNextRequest_of_stale {s : State} (idle : s.bm.refillInFlight = none) (stale : s.bm.freshness = .stale) :
    refillNextRequest s = refuse .none s := by
  unfold refillNextRequest
  rw [idle, if_neg (by simp), if_pos stale]

theorem refillNextRequest_of_no_candidate {s : State} (idle : s.bm.refillInFlight = none)
    (fresh : s.bm.freshness = .fresh) (h : s.refillCandidate = none) : refillNextRequest s = refuse .none s := by
  unfold refillNextRequest
  rw [idle, fresh, h]
  rfl

theorem refillNextRequest_of_candidate {s : State} {b : BankId} (idle : s.bm.refillInFlight = none)
    (fresh : s.bm.freshness = .fresh) (h : s.refillCandidate = some b) :
    refillNextRequest s = doneWith [byteOf b.val] (s.beginRefill b) := by
  unfold refillNextRequest
  rw [idle, fresh, h]
  rfl

/-- Settles O41: the three outcomes of CLEAR SUSPECT, then the four of REFILL NEXT. -/
theorem clearSuspectAndRefillNextChangeOneBank : Obligations.ClearSuspectAndRefillNextChangeOneBank := by
  refine ⟨fun tag bank s k => ?clear, fun tag s k => ?next⟩
  case clear =>
    have answers {t : State} {c : Code} {body : List Byte} :=
      exec_answers_of_wireForm (t := t) (c := c) (body := body) (Laws.WireForm.clearSuspect tag bank) rfl rfl k
    refine ⟨fun unknown => answers (clearSuspectRequest_of_unknown unknown), fun b named => ?_⟩
    rw [named] at answers
    exact ⟨fun h => answers (clearSuspectRequest_of_not_suspect h), fun h => answers (clearSuspectRequest_of_suspect h)⟩
  case next =>
    have answers {t : State} {c : Code} {body : List Byte} :=
      exec_answers_of_wireForm (t := t) (c := c) (body := body) (Laws.WireForm.refillNext tag) rfl rfl k
    refine ⟨fun h => answers (refillNextRequest_of_inFlight h),
      fun idle stale => answers (refillNextRequest_of_stale idle stale),
      fun idle fresh taken =>
        answers (refillNextRequest_of_no_candidate idle fresh (State.refillCandidate_eq_none taken)),
      fun before b after idle fresh list taken free => ?_⟩
    have candidate := State.refillCandidate_eq_some list taken free
    have request := refillNextRequest_of_candidate (s := s.taking (refillNextFrame tag)) idle fresh candidate
    exact answers (request.trans (congrArg (doneWith [byteOf b.val]) (State.beginRefill_eq _ b)))

end Sys2Proof.Machine
end

section
/-! SUPPORT. READ RECORD: where the numbers of a body written row after row stand, the rows of a sale record as read, and
what the Sales Unit does with the request (R163, R171). -/

namespace Sys2Proof.Machine

/-! ### A body written row after row -/

/-- Numbers written one after another, each row a size in bytes and a number (R167). -/
def packed (rows : List (Nat × Nat)) : List Byte := rows.flatMap fun r => be r.1 r.2

/-- The same rows with the offset at which each begins, the first at the offset given. -/
def placed : Nat → List (Nat × Nat) → List (Nat × Nat × Nat)
  | _, [] => []
  | off, (w, n) :: rows => (off, w, n) :: placed (off + w) rows

@[simp] theorem packed_cons (w n : Nat) (rows : List (Nat × Nat)) : packed ((w, n) :: rows) = be w n ++ packed rows :=
  rfl

theorem packed_append (rows more : List (Nat × Nat)) : packed (rows ++ more) = packed rows ++ packed more :=
  List.flatMap_append

theorem packed_length (rows : List (Nat × Nat)) : (packed rows).length = (rows.map Prod.fst).sum := by
  induction rows with
  | nil => rfl
  | cons r rows ih => rw [packed_cons, List.length_append, be_length, ih, List.map_cons, List.sum_cons]

theorem stand_append_packed (front : List Byte) (rows : List (Nat × Nat)) :
    Stand (front ++ packed rows) (placed front.length rows) := by
  induction rows generalizing front with
  | nil => exact stand_nil _
  | cons r rows ih =>
    obtain ⟨w, n⟩ := r
    have here : StandsAt (front ++ packed ((w, n) :: rows)) front.length w n :=
      (field_at front (be w n) (packed rows) _ w rfl (be_length w n)).trans (unbe_be w n)
    have beyond := ih (front ++ be w n)
    rw [List.append_assoc, List.length_append, be_length] at beyond
    exact stand_cons.mpr ⟨here, beyond⟩

/-- Every row of a packed body stands at the sum of the sizes before it. -/
theorem stand_packed (rows : List (Nat × Nat)) : Stand (packed rows) (placed 0 rows) := stand_append_packed [] rows

theorem Stand.mono {body : List Byte} {rows more : List (Nat × Nat × Nat)} (h : Stand body more) (sub : rows ⊆ more) :
    Stand body rows := fun r m => h r (sub m)

/-! ### Bytes that are not written as numbers -/

theorem be_one (n : Nat) : be 1 n = [byteOf n] := by
  unfold be
  rw [pow_zero, Nat.div_one]
  rfl

/-- The rows of `w` places of one byte (R171, R173). -/
def placeRows (w : Nat) (l : List (Fin 4)) : List (Nat × Nat) :=
  (List.range w).map fun i => (1, (l[i]?.map Fin.val).getD 255)

theorem placeRows_succ (w : Nat) (l : List (Fin 4)) :
    placeRows (w + 1) l = (1, (l[0]?.map Fin.val).getD 255) :: placeRows w l.tail := by
  simp [placeRows, List.range_succ_eq_map]

theorem placeRows_sizes_sum (w : Nat) (l : List (Fin 4)) : ((placeRows w l).map Prod.fst).sum = w := by
  simp [placeRows, Function.comp_def]

theorem places_eq_packed {w : Nat} {l : List (Fin 4)} (h : l.length ≤ w) : places w l = packed (placeRows w l) := by
  induction w generalizing l with
  | zero =>
    rw [List.length_eq_zero_iff.mp (Nat.le_zero.mp h)]
    rfl
  | succ w ih =>
    rw [placeRows_succ, packed_cons, be_one]
    cases l with
    | nil => exact congrArg ((255 : Byte) :: ·) (ih (l := []) (Nat.zero_le w))
    | cons b l =>
      rw [List.tail_cons, ← ih (Nat.le_of_succ_le_succ h)]
      simp [places]

/-- A signed number as the number that its four bytes give (R171). -/
def twosComplement (n : Int) : Nat := (n % 4294967296).toNat

theorem signedBytes_eq (n : Int) : signedBytes n = be 4 (twosComplement n) := rfl

theorem twosComplement_mod (n : Int) : ((twosComplement n % 256 ^ 4 : Nat) : Int) = n % 4294967296 := by
  unfold twosComplement
  omega

theorem boolCode_pair (a b : Bool) : boolCode a + 2 * boolCode b = bitsOf [a, b] := rfl

theorem SaleFlags.code_eq_bitsOf (x : SaleFlags) :
    x.code = bitsOf [x.degradedCooling, x.nonComm, x.estimated, x.interrupted, x.unchecked, x.mismatch] := by
  simp only [SaleFlags.code, boolCode, bitsOf, List.foldr_cons, List.foldr_nil]
  ring

/-! ### The rows of a sale record -/

/-- The code of an authorization's kind in a record (R171). -/
def AuthKind.code : AuthKind → Nat
  | .prepaid _ => 0
  | .fleet _ => 1

/-- The authorized amount or the mass cap (R171). -/
def AuthKind.number : AuthKind → Nat
  | .prepaid amount => amount
  | .fleet cap => cap

theorem AuthKind.bytes_eq (k : AuthKind) : k.bytes = be 1 k.code ++ be 4 k.number := by
  rw [be_one]
  cases k <;> rfl

/-- The sizes and the numbers of a sale record as read, in the order of R171. -/
def SaleRecord.rows (r : SaleRecord) : List (Nat × Nat) :=
  [(4, r.sequence), (1, r.position.val), (4, r.auth.reference), (1, r.auth.kind.code), (4, r.auth.kind.number),
    (1, r.fuelClass.code), (1, r.precoolAtStart.code), (1, r.precoolAtEnd.code), (1, r.profileAtStart),
    (1, r.profileAtEnd), (4, r.startTime), (4, r.endTime), (1, bitsOf [r.startPressure.isSome, r.bankSide.isSome]),
    (2, r.startPressure.getD 0), (2, r.endNozzle), (3, r.metered), (3, r.billed), (3, r.overrun),
    (4, twosComplement (r.bankSide.getD 0)), (4, r.unitPrice), (4, r.amount),
    (1, (r.endReason.map EndReason.code).getD 0),
    (1, bitsOf [r.flags.degradedCooling, r.flags.nonComm, r.flags.estimated, r.flags.interrupted, r.flags.unchecked,
      r.flags.mismatch]),
    (4, r.activeTime), (4, r.heldTime), (1, r.banksUsed.length)] ++ placeRows 4 r.banksUsed

theorem SaleRecord.sizes_sum (r : SaleRecord) : (r.rows.map Prod.fst).sum = 68 := by
  unfold rows
  simp only [List.map_append, List.sum_append, placeRows_sizes_sum, List.map_cons, List.sum_cons, List.map_nil,
    List.sum_nil, Nat.reduceAdd]

theorem SaleRecord.bytes_eq_packed {r : SaleRecord} (h : r.banksUsed.length ≤ 4) : r.bytes = packed r.rows := by
  unfold SaleRecord.bytes SaleRecord.rows
  rw [places_eq_packed h, packed_append, AuthKind.bytes_eq, Notice.endReasonByte_eq, ← be_one, boolCode_pair,
    SaleFlags.code_eq_bitsOf]
  simp only [packed_cons, List.append_assoc, signedBytes_eq]
  rfl

theorem SaleRecord.stand_rows {r : SaleRecord} (h : r.banksUsed.length ≤ 4) : Stand r.bytes (placed 0 r.rows) := by
  rw [bytes_eq_packed h]
  exact stand_packed r.rows

theorem SaleRecord.standsAt_of_mem {r : SaleRecord} (h : r.banksUsed.length ≤ 4) {off size n : Nat}
    (m : (off, size, n) ∈ placed 0 r.rows) : StandsAt r.bytes off size n := stand_rows h _ m

/-- The rows that `SaleRecord.Laid` lists as numbers are all but those of the authorization's kind and number, of the
bank-side mass, and of the banks used, which it describes apart. -/
theorem SaleRecord.laid_bytes (r : SaleRecord) (h : r.banksUsed.length ≤ 4) : r.Laid r.bytes where
  length := by
    rw [bytes_eq_packed h, packed_length, sizes_sum]
  numbers := by
    have stands := stand_rows h
    simp only [rows, placed, List.cons_append, List.nil_append, Nat.reduceAdd] at stands
    refine stands.mono (List.Sublist.subset ?_)
    simp only [List.cons_sublist_cons]
    refine .cons (9, 1, r.auth.kind.code) (.cons (10, 4, r.auth.kind.number) ?_)
    simp only [List.cons_sublist_cons]
    refine .cons (41, 4, twosComplement (r.bankSide.getD 0)) ?_
    simp only [List.cons_sublist_cons]
    exact List.nil_sublist (placed 64 (placeRows 4 r.banksUsed))
  prepaid n k := (stand_rows h).mono (by simp [rows, placed, k, AuthKind.code, AuthKind.number])
  fleet n k := (stand_rows h).mono (by simp [rows, placed, k, AuthKind.code, AuthKind.number])
  bankSide := by
    have stands : StandsAt r.bytes 41 4 (twosComplement (r.bankSide.getD 0)) :=
      standsAt_of_mem h (by simp [rows, placed])
    exact (congrArg Nat.cast stands).trans (twosComplement_mod _)
  banks i lt := by
    refine standsAt_of_mem h ?_
    interval_cases i <;> simp [rows, placed, placeRows, List.range_succ]

/-! ### The request -/

theorem SalesUnit.foreseen_iff (u : SalesUnit) (n : Nat) :
    u.foreseen n = true ↔ ∃ k, k < u.pendingSessions.length ∧ u.counter ≠ 0 ∧ n = u.counter + k := by
  simp only [foreseen, Bool.and_eq_true, decide_eq_true_eq, bne_iff_ne]
  constructor
  · rintro ⟨⟨ge, lt⟩, counts⟩
    exact ⟨n - u.counter, by omega, counts, by omega⟩
  · rintro ⟨k, lt, counts, rfl⟩
    exact ⟨⟨by omega, by omega⟩, counts⟩

theorem SalesUnit.missing_of_foreseen {u : SalesUnit} {n : Nat}
    (h : ∃ k, k < u.pendingSessions.length ∧ u.counter ≠ 0 ∧ n = u.counter + k) : u.missing n = .notYet :=
  if_pos ((foreseen_iff u n).mpr h)

theorem SalesUnit.missing_of_not_foreseen {u : SalesUnit} {n : Nat}
    (h : u.counter = 0 ∨ ∀ k, k < u.pendingSessions.length → n ≠ u.counter + k) : u.missing n = .notFound := by
  refine if_neg fun foreseen => ?_
  obtain ⟨k, lt, counts, number⟩ := (foreseen_iff u n).mp foreseen
  exact h.elim counts fun other => other k lt number

theorem SalesUnit.record?_eq_none {u : SalesUnit} {n : Nat} (h : ∀ r ∈ u.records, r.sequence ≠ n) :
    u.record? n = none :=
  List.find?_eq_none.mpr fun r m => by simpa using h r m

theorem SalesUnit.record?_eq_some {u : SalesUnit} {n : Nat} {before after : List SaleRecord} {r : SaleRecord}
    (list : u.records = before ++ r :: after) (number : r.sequence = n) (others : ∀ x ∈ before, x.sequence ≠ n) :
    u.record? n = some r :=
  List.find?_eq_some_iff_append.mpr ⟨by simpa using number, before, after, list, fun x m => by simpa using others x m⟩

theorem readRecordRequest_of_selector {s : State} {k n : Nat} (h : 1 < k) :
    readRecordRequest k n s = refuse .outOfRange s := if_pos h

theorem readRecordRequest_oldest_of_nil {s : State} {n : Nat} (h : s.sales.records = []) :
    readRecordRequest 1 n s = refuse .notFound s := by
  unfold readRecordRequest
  rw [h]
  rfl

theorem readRecordRequest_oldest_of_cons {s : State} {n : Nat} {r : SaleRecord} {rest : List SaleRecord}
    (h : s.sales.records = r :: rest) : readRecordRequest 1 n s = doneWith r.bytes s := by
  unfold readRecordRequest
  rw [h]
  rfl

theorem readRecordRequest_of_zero (s : State) : readRecordRequest 0 0 s = refuse .outOfRange s := rfl

theorem readRecordRequest_of_record {s : State} {n : Nat} {r : SaleRecord} (n0 : n ≠ 0)
    (h : s.sales.record? n = some r) : readRecordRequest 0 n s = doneWith r.bytes s := by
  unfold readRecordRequest
  rw [if_neg (by decide), if_neg (by decide), if_neg n0, h]

theorem readRecordRequest_of_missing {s : State} {n : Nat} (n0 : n ≠ 0) (h : s.sales.record? n = none) :
    readRecordRequest 0 n s = refuse (s.sales.missing n) s := by
  unfold readRecordRequest
  rw [if_neg (by decide), if_neg (by decide), if_neg n0, h]

theorem readRecordRequest_of_foreseen {s : State} {n : Nat} (n0 : n ≠ 0)
    (unheld : ∀ r ∈ s.sales.records, r.sequence ≠ n)
    (h : ∃ k, k < s.sales.pendingSessions.length ∧ s.sales.counter ≠ 0 ∧ n = s.sales.counter + k) :
    readRecordRequest 0 n s = refuse .notYet s := by
  rw [readRecordRequest_of_missing n0 (SalesUnit.record?_eq_none unheld), SalesUnit.missing_of_foreseen h]

theorem readRecordRequest_of_unforeseen {s : State} {n : Nat} (n0 : n ≠ 0)
    (unheld : ∀ r ∈ s.sales.records, r.sequence ≠ n)
    (h : s.sales.counter = 0 ∨ ∀ k, k < s.sales.pendingSessions.length → n ≠ s.sales.counter + k) :
    readRecordRequest 0 n s = refuse .notFound s := by
  rw [readRecordRequest_of_missing n0 (SalesUnit.record?_eq_none unheld), SalesUnit.missing_of_not_foreseen h]

/-- Settles O29: the layout is that of the rows packed in the order of R171; then one case for each outcome of the
request, by the selector and the number. -/
theorem readRecordAnswersByNumber : Obligations.ReadRecordAnswersByNumber := by
  refine ⟨SaleRecord.laid_bytes, rfl, fun q tag selector number s port k => ?_⟩
  have sent : (Instr.readRecord q tag selector number).wellFormed = true := by
    obtain rfl | rfl := port <;> rfl
  have answers {c : Code} {body : List Byte} :=
    exec_answers_of_wireForm (t := s) (c := c) (body := body) (Laws.WireForm.readRecord q tag selector number) sent rfl k
  refine ⟨fun h => answers (readRecordRequest_of_selector h), fun oldest => ?oldest, fun byNumber zero => ?zero,
    fun byNumber n0 => ?number⟩
  case oldest =>
    rw [oldest] at answers
    exact ⟨fun h => answers (readRecordRequest_oldest_of_nil h),
      fun _ _ h => answers (readRecordRequest_oldest_of_cons h)⟩
  case zero =>
    rw [byNumber, zero] at answers
    exact answers (readRecordRequest_of_zero _)
  case number =>
    rw [byNumber] at answers
    refine ⟨fun before r after list number others =>
        answers (readRecordRequest_of_record n0 (SalesUnit.record?_eq_some list number others)), fun unheld => ?_⟩
    exact ⟨fun foreseen => answers (readRecordRequest_of_foreseen n0 unheld foreseen),
      fun unforeseen => answers (readRecordRequest_of_unforeseen n0 unheld unforeseen)⟩

end Sys2Proof.Machine
end

section
/-! SUPPORT. The invariants of every step, put together from what the commands keep. -/

namespace Sys2Proof.Machine

set_option Elab.async false

/-- Settles O19: the demands granted stay within the capacity at every command and at every tick. -/
theorem stepsKeepGrantsWithinCapacity : Obligations.StepsKeepGrantsWithinCapacity := by
  intro s t h e
  obtain ⟨_, _, k⟩ := upheld_of_step e
  exact k.within h

/-- Settles O20, from the agreement that every command keeps (`step_linked`) and the places counted in `Upheld`. -/
theorem stepsKeepClaimsConsistent : Obligations.StepsKeepClaimsConsistent := by
  intro s t consistent claims coherent agreed e
  obtain ⟨_, _, k⟩ := upheld_of_step e
  exact ⟨step_consistent e consistent, k.claims claims, step_coherent e consistent coherent,
    step_agreed e consistent agreed⟩

/-- Settles O21, from the sales that every command keeps fair and the agreement that keeps them numbered. -/
theorem stepsKeepSalesFairAndNumbered : Obligations.StepsKeepSalesFairAndNumbered := by
  intro s t consistent fair numbered e
  obtain ⟨_, _, k⟩ := upheld_of_step e
  exact ⟨k.fair fair, step_numbered e consistent numbered⟩

/-- Settles O17: each command ends with its notices in the queues and its port at rest. -/
theorem stepsKeepPortsAtRest : Obligations.StepsKeepPortsAtRest := by
  intro s t ⟨outbox, rest⟩ queues e
  obtain ⟨_, _, k⟩ := upheld_of_step e
  exact ⟨⟨k.outbox outbox, fun p => k.rest p (rest p)⟩, k.queues queues⟩

/-- Settles O18: each command keeps the site record and the monitors sound. -/
theorem stepsKeepSiteAndMonitorsSound : Obligations.StepsKeepSiteAndMonitorsSound := by
  intro s t site monitors e
  obtain ⟨_, _, k⟩ := upheld_of_step e
  exact ⟨k.site site, k.monitors monitors⟩

/-- Settles O22: each command keeps the tables in range and the active times within their greatest value. -/
theorem stepsKeepTablesInRange : Obligations.StepsKeepTablesInRange := by
  intro s t tables active e
  obtain ⟨_, _, k⟩ := upheld_of_step e
  exact ⟨k.tables tables, k.active active⟩

/-- Settles O4: a command answers a next state in every state, and no operation writes the queue of commands. -/
theorem everyCommandGoesOn : Obligations.EveryCommandGoesOn := by
  intro i s
  obtain ⟨t, e, k⟩ := exec_upheld i s
  exact ⟨t, e, k.pending⟩

/-- Settles O1: it is the definition of a step. -/
theorem stepRunsTheFrontCommand : Obligations.StepRunsTheFrontCommand := fun _ _ _ => rfl

end Sys2Proof.Machine
end

section
/-! SUPPORT. Power-on, the tick, and what has run out. -/

namespace Sys2Proof.Machine

set_option Elab.async false

/-! ### Power-on -/

theorem reset_within : WithinCapacity State.reset := Nat.le_refl _

theorem reset_claims : OneClaim State.reset := by
  intro p
  revert p
  decide

theorem reset_fair : FairSales State.reset := by
  refine ⟨fun p price h => ?_, fun r m => absurd m List.not_mem_nil⟩
  rw [reset_session] at h
  exact nomatch h

theorem reset_active : ActiveWithin State.reset := by
  intro p
  rw [reset_session]
  exact Nat.zero_le _

theorem reset_ceilings : CeilingsWithin State.reset := by
  intro p c h
  rw [reset_session] at h
  exact h.elim nofun nofun

theorem reset_monitorSound (p : PosId) : (State.reset.monitor p).sound := by
  rw [reset_monitor]
  exact ⟨⟨nofun, nofun⟩, ⟨nofun, nofun⟩, rfl, rfl⟩

theorem reset_siteSound : State.reset.site.sound := ⟨⟨nofun, nofun⟩, ⟨nofun, nofun⟩, nofun, fun h => absurd rfl h⟩

theorem reset_atRest : AtRest State.reset := by
  refine ⟨rfl, fun p => ?_⟩
  rw [reset_port]
  exact ⟨nofun, fun _ => ⟨rfl, rfl⟩, nofun⟩

theorem reset_queues : Queues State.reset := by
  intro p
  rw [reset_port]
  exact ⟨nofun, .nil⟩

theorem neverLoaded_inRange : SiteConfig.neverLoaded.InRange where
  rows := ⟨rfl, rfl⟩
  density i row h := absurd h (getD_replicate_none 25 i row)
  profiles i f h := absurd h (getD_replicate_none 48 i f)
  banks b _ h := nomatch (Quad.get_fill (none : Option BankEntry) b).symm.trans h
  cascades := ⟨nofun, nofun⟩
  params := nofun

theorem reset_tables : TablesInRange State.reset := by
  refine TablesInRange.plain neverLoaded_inRange rfl ⟨rfl, fun x m => ?_⟩
  have m : x ∈ List.replicate 16 0 := m
  rw [List.eq_of_mem_replicate m]
  exact Nat.zero_le _

/-- Settles O24: every invariant holds of the power-on values. -/
theorem powerOnHoldsWhatStepsKeep : Obligations.PowerOnHoldsWhatStepsKeep :=
  ⟨reset_atRest, reset_queues, reset_siteSound, reset_monitorSound, reset_within, reset_consistent, reset_claims,
    reset_coherent, reset_agreed, reset_fair, reset_numbered, reset_tables, reset_active, reset_ceilings⟩

/-- Settles O5: POWER_ON is the power-on state beside the commands that wait, and each value is read off it. -/
theorem powerOnSetsEveryBlock : Obligations.PowerOnSetsEveryBlock := by
  refine ⟨fun s => rfl, fun q => ⟨reset_port q, ?_⟩, rfl, rfl, rfl, rfl, rfl, rfl, rfl, rfl, reset_bank,
    rfl, rfl, rfl, rfl, rfl, rfl, rfl, rfl, reset_monitor, reset_session, rfl⟩
  rw [State.attention, reset_port]
  rfl

/-! ### The tick -/

/-- Settles O3: the tick is written field by field, and a position or a bank is read back through its place. -/
theorem tickAdvancesTimersAndTimes : Obligations.TickAdvancesTimersAndTimes := by
  intro s
  refine ⟨rfl, fun b => Quad.get_map .., rfl, rfl, fun p => Quad.get_map .., fun p => ?_, fun p => Quad.get_map ..,
    rfl, rfl⟩
  have held (x : Session) :
      (if x.state = .held then x.heldTime + 1 else x.heldTime) = x.heldTime + if x.state = .held then 1 else 0 := by
    split <;> rfl
  rw [← held]
  exact Quad.get_map ..

/-! ### What has run out -/

theorem out_iff (t : Timer) : t.out = true ↔ t = some 0 := beq_iff_eq

theorem mem_eventIf (c : Bool) (i j : Instr) : i ∈ eventIf c j ↔ i = j ∧ c = true := by
  cases c <;> simp [eventIf]

theorem mem_phaseEnd (i : Instr) (p : PosId) (x : Option Phase) :
    i ∈ phaseEnd p x ↔ i = .connectPhaseEnd p ∧ x = some .connect ∨ i = .leakCheckEnd p ∧ x = some .leakCheck
      ∨ i = .settlePhaseEnd p ∧ x = some .settle := by
  rcases x with _ | ⟨⟨⟩⟩ <;> simp [phaseEnd]

theorem mem_dueOn (s : State) (i : Instr) (b : BankId) :
    i ∈ s.dueOn b ↔ ∃ f, i = .proofTimerExpiry b ∧ (s.bank b).proof = some f ∧ f.timer = 0 := by
  rw [State.dueOn, mem_eventIf]
  simp [Option.any_eq_true]

theorem mem_dueAt (s : State) (i : Instr) (p : PosId) :
    i ∈ s.dueAt p ↔
      (i = .connectPhaseEnd p ∧ (s.session p).phase = some .connect ∧ (s.session p).phaseTimer = some 0)
        ∨ (i = .leakCheckEnd p ∧ (s.session p).phase = some .leakCheck ∧ (s.session p).phaseTimer = some 0)
        ∨ (i = .settlePhaseEnd p ∧ (s.session p).phase = some .settle ∧ (s.session p).phaseTimer = some 0)
        ∨ (i = .coolingWaitExpiry p ∧ ∃ w ∈ s.cbu.queue, w.pos = p ∧ w.timer = 0)
        ∨ (i = .progressTimerExpiry p ∧ (s.monitor p).progressTimer = some 0)
        ∨ (i = .ageTimerExpiry p ∧ (s.monitor p).ageTimer = some 0)
        ∨ (i = .bankWaitExpiry p ∧ (s.session p).bankWaitTimer = some 0)
        ∨ (i = .segmentBoundary p ∧ (s.session p).segmentTimer = some 0)
        ∨ (i = .warmTimerExpiry p ∧ (s.session p).warmTimer = some 0)
        ∨ (i = .resumeTimerExpiry p ∧ (s.session p).resumeTimer = some 0)
        ∨ (i = .keepTimerExpiry p ∧ (s.session p).keepTimer = some 0)
        ∨ (i = .holdLimitExpiry p ∧ (s.session p).state = .held
          ∧ (s.profileOf p).holdLimit < (s.session p).heldTime)
        ∨ (i = .authorizationExpiry p ∧ ∃ a, s.sales.slots.get p = some a ∧ a.lifetime = 0) := by
  have phases : i ∈ (if (s.session p).phaseTimer.out = true then phaseEnd p (s.session p).phase else []) ↔
      (i = .connectPhaseEnd p ∧ (s.session p).phase = some .connect ∧ (s.session p).phaseTimer = some 0)
        ∨ (i = .leakCheckEnd p ∧ (s.session p).phase = some .leakCheck ∧ (s.session p).phaseTimer = some 0)
        ∨ (i = .settlePhaseEnd p ∧ (s.session p).phase = some .settle ∧ (s.session p).phaseTimer = some 0) := by
    simp only [out_iff]
    by_cases out : (s.session p).phaseTimer = some 0
    · simp [mem_phaseEnd, out]
    · simp [out]
  unfold State.dueAt
  simp only [List.mem_append, phases, or_assoc]
  simp only [mem_eventIf, out_iff]
  simp [Option.any_eq_true]

theorem mem_due (s : State) (i : Instr) :
    i ∈ s.due ↔ (i = .siteTimeTick ∧ 10 ≤ s.tenths)
      ∨ (i = .freshnessTimerExpiry ∧ s.bm.freshnessTimer = some 0)
      ∨ (i = .yieldTimerExpiry ∧ s.bm.yieldTimer = some 0)
      ∨ (i = .closingTimeout ∧ s.sales.closingTimer = some 0)
      ∨ (∃ b, i ∈ s.dueOn b) ∨ ∃ p, i ∈ s.dueAt p := by
  simp [State.due, mem_eventIf, out_iff, mem_fourIds]

/-- The command taken among several is one of them. -/
theorem chosen_mem (s : State) (i : Instr) (l : List Instr) (h : l ≠ []) : s.chosen i l ∈ l := by
  have short : Config.expiryChoice s.choices % l.length < l.length := Nat.mod_lt _ (List.length_pos_iff.mpr h)
  rw [State.chosen, List.getD_eq_getElem _ _ short]
  exact List.getElem_mem short

/-- Settles O2: the three cases of an idle step, and the list of what has run out read event by event. -/
theorem idleStepPassesTimeOrTakesOneExpiry : Obligations.IdleStepPassesTimeOrTakesOneExpiry := by
  refine ⟨fun s quiet => ?_, fun s i => ?_⟩
  · have idles : step s = idle s := by rw [step, quiet]
    refine ⟨fun none => ?_, fun i one => ?_, fun i j more several => ⟨s.chosen i (i :: j :: more), ?_, ?_⟩⟩
    · rw [idles, idle, none]
    · rw [idles, idle, one]
    · rw [several]
      exact chosen_mem s i _ nofun
    · rw [idles, idle, several]
  · rw [mem_due]
    simp only [mem_dueOn, mem_dueAt]

end Sys2Proof.Machine
end

section
/-! SUPPORT. Bytes, frames and answers at a port: what makes no request, what the Link Interface answers itself, and that
the bytes of a request's frame are the request (R2, R3, R4, R7, R167, R168). -/

namespace Sys2Proof.Machine

set_option Elab.async false

/-! ### Bytes into a collection -/

theorem setCollection_held (s : State) (q : PortId) : s.setCollection q (s.port q).collection = s :=
  ext_of_ports rfl fun x => by
    unfold State.setCollection
    rw [State.modPort_port]
    split
    · rename_i e
      rw [e]
    · rfl

theorem receiveBytes_append (s : State) (q : PortId) (a b : List Byte) :
    s.receiveBytes q (a ++ b) = (s.receiveBytes q a).receiveBytes q b := List.foldl_append

/-- A port that is hunting passes over every byte but a sync byte. -/
theorem receiveBytes_hunting {s : State} {q : PortId} (listens : (s.port q).exchange = .listening)
    (hunts : (s.port q).collection = []) (bytes : List Byte) (other : ∀ b ∈ bytes, b ≠ 0xC3#8) :
    s.receiveBytes q bytes = s := by
  induction bytes with
  | nil => rfl
  | cons b rest ih =>
    have passed : s.receiveByte q b = s := by
      rw [receive_discard listens, setCollection_self _ _ hunts]
      rw [hunts]
      exact if_neg (other b List.mem_cons_self)
    have tail := ih fun c m => other c (List.mem_cons_of_mem _ m)
    unfold State.receiveBytes at tail ⊢
    rw [List.foldl_cons, passed, tail]

/-- The bytes that follow a beginning of a frame in collection do what the beginning and they would do together on the
port hunting. -/
theorem receiveBytes_from_hunting {s : State} {q : PortId} (listens : (s.port q).exchange = .listening)
    {tag kind len : Byte} {r : List Byte} (short : len.toNat ≤ 240) (whole : r.length = len.toNat + 2)
    (held : (s.port q).collection <+: 0xC3#8 :: tag :: kind :: len :: r)
    (unfinished : (s.port q).collection.length < 4 + r.length) (more : List Byte) :
    s.receiveBytes q more = (s.setCollection q []).receiveBytes q ((s.port q).collection ++ more) := by
  have hunting := setCollection_port s q []
  have taken := List.prefix_iff_eq_take.mp held
  have beginning : (s.setCollection q []).receiveBytes q (s.port q).collection = s := by
    conv_lhs => rw [taken]
    rw [receive_beginning (by rw [hunting]; exact listens) (by rw [hunting]) tag kind len r short whole _ unfinished,
      setCollection_twice, ← taken, setCollection_held]
  rw [receiveBytes_append, beginning]

/-- The bytes of an unfinished frame stand in collection, those held before them included. -/
theorem receiveBytes_unfinished {s : State} {q : PortId} (listens : (s.port q).exchange = .listening)
    {tag kind len : Byte} {r : List Byte} (short : len.toNat ≤ 240) (whole : r.length = len.toNat + 2) {n : Nat}
    (unfinished : n < 4 + r.length) {more : List Byte}
    (reached : (s.port q).collection ++ more = (0xC3#8 :: tag :: kind :: len :: r).take n) :
    s.receiveBytes q more = s.setCollection q ((0xC3#8 :: tag :: kind :: len :: r).take n) := by
  have hunting := setCollection_port s q []
  have held : (s.port q).collection <+: (0xC3#8 :: tag :: kind :: len :: r).take n := ⟨more, reached⟩
  have within : (s.port q).collection.length ≤ n := held.length_le.trans (List.length_take_le _ _)
  rw [receiveBytes_from_hunting listens short whole (held.trans (List.take_prefix _ _)) (by omega), reached,
    receive_beginning (by rw [hunting]; exact listens) (by rw [hunting]) tag kind len r short whole n unfinished,
    setCollection_twice]

/-- A frame that ends with a failed check leaves the collection empty. -/
theorem receiveBytes_failedCheck {s : State} {q : PortId} (listens : (s.port q).exchange = .listening)
    {tag kind len hi lo : Byte} {body : List Byte} (short : len.toNat ≤ 240) (fits : body.length = len.toNat)
    (fails : hi ++ lo ≠ crc (tag :: kind :: len :: body)) {more : List Byte} (some : more ≠ [])
    (reached : (s.port q).collection ++ more = 0xC3#8 :: tag :: kind :: len :: (body ++ [hi, lo])) :
    s.receiveBytes q more = s.setCollection q [] := by
  have hunting := setCollection_port s q []
  have whole : (body ++ [hi, lo]).length = len.toNat + 2 := by rw [List.length_append, fits]; rfl
  have ends : (s.port q).collection.length + more.length = 4 + (body ++ [hi, lo]).length := by
    rw [← List.length_append, reached]
    simp only [List.length_cons]
    omega
  have some : 0 < more.length := List.length_pos_iff.mpr some
  rw [receiveBytes_from_hunting listens short whole ⟨more, reached⟩ (by omega), reached,
    receive_whole (by rw [hunting]; exact listens) (by rw [hunting]) tag kind len hi lo body short fits, if_neg]
  rw [unbe_two]
  exact fun e => fails (BitVec.eq_of_toNat_eq e)

/-- A collection that reaches a length byte above 240 is abandoned. -/
theorem receiveBytes_tooLong {s : State} {q : PortId} (listens : (s.port q).exchange = .listening) {tag kind len : Byte}
    (long : 240 < len.toNat) {more : List Byte} (some : more ≠ [])
    (reached : (s.port q).collection ++ more = [0xC3#8, tag, kind, len]) :
    s.receiveBytes q more = s.setCollection q [] := by
  have hunting := setCollection_port s q []
  have ends : (s.port q).collection.length + more.length = 4 := by rw [← List.length_append, reached]; rfl
  have some : 0 < more.length := List.length_pos_iff.mpr some
  have three : (s.port q).collection <+: [0xC3#8, tag, kind] :=
    List.prefix_of_prefix_length_le ⟨more, reached⟩ ⟨[len], rfl⟩ (show _ ≤ 3 by omega)
  have zero : ((0 : Byte).toNat) ≤ 240 := Nat.zero_le _
  have whole : [(0 : Byte), 0].length = (0 : Byte).toNat + 2 := rfl
  have held : (s.port q).collection <+: 0xC3#8 :: tag :: kind :: 0 :: [0, 0] := three.trans ⟨[0, 0, 0], rfl⟩
  have beginning := receive_beginning (s := s.setCollection q []) (q := q) (by rw [hunting]; exact listens)
    (by rw [hunting]) tag kind 0 [0, 0] zero whole 3 (by decide)
  have discards : collect [0xC3#8, tag, kind] len = .discard := if_pos long
  rw [receiveBytes_from_hunting listens zero whole held (show _ < 6 by omega), reached,
    show [0xC3#8, tag, kind, len] = [0xC3#8, tag, kind] ++ [len] from rfl, receive_snoc,
    show [0xC3#8, tag, kind] = (0xC3#8 :: tag :: kind :: 0 :: [(0 : Byte), 0]).take 3 from rfl, beginning,
    setCollection_twice, receive_discard (by rw [setCollection_port]; exact listens)
      (by rw [setCollection_port]; exact discards), setCollection_twice]

/-- Settles O6: a deaf port, a hunting one, and the three ways in which the bytes of a frame end without a request. -/
theorem bytesThatMakeNoFrameReachNoBlock : Obligations.BytesThatMakeNoFrameReachNoBlock := by
  intro q s
  refine ⟨fun deaf bytes => ?_, fun listens hunts bytes other => ?_,
    fun listens tag kind len hi lo body more fits => ⟨fun some long reached => ?_, fun some short fails reached => ?_,
      fun n short unfinished reached => ?_⟩⟩
  · exact congrArg _ (receiveBytes_deaf deaf bytes)
  · exact congrArg _ (receiveBytes_hunting listens hunts bytes other)
  · exact congrArg _ (receiveBytes_tooLong listens long some reached)
  · exact congrArg _ (receiveBytes_failedCheck listens short fits fails some reached)
  · have whole : (body ++ [hi, lo]).length = len.toNat + 2 := by rw [List.length_append, fits]; rfl
    have unfinished : n < 4 + (body ++ [hi, lo]).length := by
      simp only [List.length_cons] at unfinished
      omega
    exact congrArg _ (receiveBytes_unfinished listens short whole unfinished reached)

/-- Settles O8: the gap empties the collection, and a frame begun on a hunting port leaves nothing else behind. -/
theorem byteGapAbandonsTheCollection : Obligations.ByteGapAbandonsTheCollection := by
  intro q s
  refine ⟨rfl, fun tag kind body n fits unfinished listens hunts => ?_⟩
  have len : (byteOf body.length).toNat = body.length := byteOf_toNat _ (by omega)
  have whole : (body ++ be 2 (crc (tag :: kind :: byteOf body.length :: body)).toNat).length
      = (byteOf body.length).toNat + 2 := by rw [List.length_append, be_length, len]
  show Host.Outcome.next ((s.receiveBytes q _).setCollection q []) = _
  rw [frame_shape, receive_beginning listens hunts _ _ _ _ (by omega) whole n (by omega), setCollection_twice,
    setCollection_self _ _ hunts]

/-! ### Requests as their frames -/

/-- Every well-formed request command has a frame that the screening lets pass and that spells its request. -/
theorem wireForm (i : Instr) : Laws.WireForm.Statement i := by
  cases i with
  | readNotices q t => exact Laws.WireForm.readNotices q t
  | nozzle p t x => exact Laws.WireForm.nozzle p t x
  | start p t => exact Laws.WireForm.start p t
  | stop p t => exact Laws.WireForm.stop p t
  | pause p t => exact Laws.WireForm.pause p t
  | continueFill p t => exact Laws.WireForm.continueFill p t
  | progress p t x y m => exact Laws.WireForm.progress p t x y m
  | finalMeter p t m => exact Laws.WireForm.finalMeter p t m
  | vehicleFrame p t k c v x y m => exact Laws.WireForm.vehicleFrame p t k c v x y m
  | readPosition q t x => exact Laws.WireForm.readPosition q t x
  | bankStatus t b a => exact Laws.WireForm.bankStatus t b a
  | coolingCapacity t c => exact Laws.WireForm.coolingCapacity t c
  | refillNext t => exact Laws.WireForm.refillNext t
  | refillEnd t b => exact Laws.WireForm.refillEnd t b
  | emergencyStop q t => exact Laws.WireForm.emergencyStop q t
  | readBanks q t => exact Laws.WireForm.readBanks q t
  | authorize t p r k a l => exact Laws.WireForm.authorize t p r k a l
  | cancelAuthorization t p r => exact Laws.WireForm.cancelAuthorization t p r
  | readRecord q t k n => exact Laws.WireForm.readRecord q t k n
  | settle t n => exact Laws.WireForm.settle t n
  | loadTable t k i l => exact Laws.WireForm.loadTable t k i l
  | commission t => exact Laws.WireForm.commission t
  | enterService t => exact Laws.WireForm.enterService t
  | leaveService t => exact Laws.WireForm.leaveService t
  | setBand t b => exact Laws.WireForm.setBand t b
  | setTariff t i p => exact Laws.WireForm.setTariff t i p
  | setSiteTime t n => exact Laws.WireForm.setSiteTime t n
  | siteReset t => exact Laws.WireForm.siteReset t
  | resumeSite t => exact Laws.WireForm.resumeSite t
  | clearSuspect t b => exact Laws.WireForm.clearSuspect t b
  | readSite t k i j c => exact Laws.WireForm.readSite t k i j c
  | readCooling t => exact Laws.WireForm.readCooling t
  | _ => exact fun _ _ _ e => nomatch e

/-- A frame of a fitting body, sent to a port that hunts, is taken. -/
theorem request_takeFrame {s : State} {f : Frame} (listens : (s.port f.port).exchange = .listening)
    (hunts : (s.port f.port).collection = []) (fits : f.body.length ≤ 240) (h : Handler) :
    s.request f h = s.takeFrame f h := by
  unfold State.request
  rw [listens]
  exact if_pos ⟨hunts, fits⟩

/-- Settles O7: the frame's bytes end in the frame, whose request is the command's (`wireForm`). -/
theorem frameBytesSpellTheRequest : Obligations.FrameBytesSpellTheRequest := by
  intro i f h formed sent s listens hunts
  obtain ⟨fits, -, spelt⟩ := wireForm i formed f h sent
  rw [exec_request sent, request_takeFrame listens hunts fits, ← spelt]
  exact congrArg _ (receive_frameBytes listens hunts f.tag f.kind f.body fits)

/-! ### What the Link Interface answers itself -/

/-- Kind, ports and length of every request but READ POSITION, whose length is not the same on every port. -/
def requestKinds : List (Nat × List PortId × Nat) :=
  let dispensers := [PortId.dispenser 0, .dispenser 1, .dispenser 2, .dispenser 3]
  [(0x01, dispensers ++ [.plant, .terminal, .supervisor], 0),
    (0x10, dispensers, 1), (0x11, dispensers, 0), (0x12, dispensers, 0), (0x13, dispensers, 0),
    (0x14, dispensers, 0), (0x15, dispensers, 7), (0x16, dispensers, 3), (0x17, dispensers, 9),
    (0x20, [.plant], 18), (0x21, [.plant], 2), (0x22, [.plant], 0), (0x23, [.plant], 1),
    (0x24, [.plant, .supervisor], 0), (0x25, [.plant, .supervisor], 0),
    (0x30, [.terminal], 12), (0x31, [.terminal], 5), (0x32, [.terminal, .supervisor], 5), (0x33, [.terminal], 4),
    (0x40, [.supervisor], 34), (0x41, [.supervisor], 0), (0x42, [.supervisor], 0), (0x43, [.supervisor], 0),
    (0x44, [.supervisor], 1), (0x45, [.supervisor], 5), (0x46, [.supervisor], 4), (0x47, [.supervisor], 0),
    (0x48, [.supervisor], 0), (0x49, [.supervisor], 1), (0x4A, [.supervisor], 4), (0x4B, [.supervisor], 0)]

/-- The seven ports. -/
def everyPort : List PortId :=
  [.dispenser 0, .dispenser 1, .dispenser 2, .dispenser 3, .plant, .terminal, .supervisor]

theorem mem_everyPort (q : PortId) : q ∈ everyPort := by
  cases q with
  | dispenser n =>
    revert n
    decide
  | plant => decide
  | terminal => decide
  | supervisor => decide

theorem requestKinds_screened : ∀ row ∈ requestKinds, ∀ q ∈ everyPort,
    bodyLength q row.1 = some row.2.2 ∧ row.1 ≠ readPositionKind ∧ (takenOn q row.1 = true ↔ q ∈ row.2.1) := by
  decide

/-- A kind without a row, and not READ POSITION, is no request kind. -/
theorem bodyLength_unknown {q : PortId} {kind : Nat} (other : kind ≠ 0x18) (unlisted : ∀ row ∈ requestKinds, row.1 ≠ kind) :
    bodyLength q kind = none := by
  have absent : kind ∉ requestKinds.map Prod.fst := fun listed => by
    obtain ⟨row, m, e⟩ := List.mem_map.mp listed
    exact unlisted row m e
  unfold bodyLength
  split
  case h_10 => exact absurd rfl other
  case h_33 => rfl
  all_goals exact absurd (by decide) absent

theorem screen_unknown {q : PortId} {kind : Nat} (other : kind ≠ 0x18) (unlisted : ∀ row ∈ requestKinds, row.1 ≠ kind)
    (length : Nat) : screen q kind length = some .unknownKind := by
  rw [screen, bodyLength_unknown other unlisted]

/-- The screening of a kind with a row: its length first, then its port. -/
theorem screen_listed {q : PortId} {kind : Nat} {ports : List PortId} {n : Nat} (listed : (kind, ports, n) ∈ requestKinds)
    (length : Nat) :
    screen q kind length = if length ≠ n then some .badLength else if q ∉ ports then some .notOnThisPort else none := by
  obtain ⟨given, other, taken⟩ := requestKinds_screened _ listed q (mem_everyPort q)
  simp only [screen, given, if_neg (fun h : _ ∧ _ => other h.1), ← taken, Bool.not_eq_true]

/-- The screening of READ POSITION: its port first, then the length it has there (R168). -/
theorem screen_readPosition (q : PortId) (length : Nat) :
    screen q 0x18 length =
      if q = .plant ∨ q = .terminal then some .notOnThisPort
      else if length ≠ (if q = .supervisor then 1 else 0) then some .badLength else none := by
  cases q <;> simp [screen, bodyLength, takenOn, readPositionKind, isDispenserPort]

/-- A frame that the screening answers is answered by the Link Interface. -/
theorem linkScreenAnswer_of_screen {s : State} {q : PortId} {tag kind : Byte} {body : List Byte} {c : Code}
    (listens : (s.port q).exchange = .listening) (hunts : (s.port q).collection = []) (fits : body.length ≤ 240)
    (screened : screen q kind.toNat body.length = some c) :
    exec (.linkScreenAnswer q tag kind body) s = .next (s.answerLink ⟨q, tag, kind, body⟩ c) := by
  show Host.Outcome.next (s.request ⟨q, tag, kind, body⟩ (Frame.handler ⟨q, tag, kind, body⟩)) = _
  rw [request_takeFrame listens hunts fits, State.takeFrame, screened]

/-- Settles O9: the outcome of the screening, kind by kind, is the code of the answer. -/
theorem screeningAnswersItself : Obligations.ScreeningAnswersItself := by
  intro q tag kind body s listens hunts fits answers dispensers table
  have answer {c : Code} (screened : screen q kind.toNat body.length = some c) : answers c :=
    linkScreenAnswer_of_screen listens hunts fits screened
  refine ⟨fun other unlisted => answer (screen_unknown other unlisted _), fun ports n listed => ⟨fun length => ?_,
    fun length elsewhere => ?_⟩, fun position => ⟨fun elsewhere => ?_, fun dispenser length => ?_, fun supervisor length => ?_⟩⟩
  · exact answer (by rw [screen_listed listed, if_pos length])
  · exact answer (by rw [screen_listed listed, if_neg (not_not.mpr length), if_pos elsewhere])
  · exact answer (by rw [position, screen_readPosition, if_pos elsewhere])
  · refine answer ?_
    rw [position, screen_readPosition]
    have named : ∃ n, q = .dispenser n := by
      simp only [dispensers, List.mem_cons, List.not_mem_nil, or_false] at dispenser
      rcases dispenser with h | h | h | h <;> exact ⟨_, h⟩
    obtain ⟨n, rfl⟩ := named
    simp [length]
  · exact answer (by rw [position, screen_readPosition, supervisor]; simp [length])

/-- Settles O10: the frame passes the screening and is the one recorded, so the port sends the stored answer. -/
theorem repeatIsAnsweredFromTheRecord : Obligations.RepeatIsAnsweredFromTheRecord := by
  intro q tag kind body answer s listens hunts fits passes recorded
  have same : LastAnswer.isRepeat ⟨tag, kind, body, answer⟩ ⟨q, tag, kind, body⟩ = true := by simp [LastAnswer.isRepeat]
  show Host.Outcome.next (s.request ⟨q, tag, kind, body⟩ (Frame.handler ⟨q, tag, kind, body⟩)) = _
  rw [request_takeFrame listens hunts fits, State.takeFrame, passes]
  dsimp only
  rw [recorded]
  exact congrArg _ (if_pos same)

/-! ### The end of an answer -/

theorem sent_of_answering {x : Port} (h : x.exchange = .answering) :
    x.sent = { x with
      exchange := .listening, answer := none, toRecord := none, last := x.toRecord.orElse fun _ => x.last } := by
  unfold Port.sent
  rw [h]
  cases x.toRecord <;> rfl

theorem sent_of_quiet {x : Port} (h : x.exchange ≠ .answering) : x.sent = x := by
  unfold Port.sent
  split
  · exact absurd ‹_› h
  · rfl
  · rfl

/-- A change of a port counts only at the port as it stands. -/
theorem modPort_congr {s : State} {q : PortId} {f g : Port → Port} (h : f (s.port q) = g (s.port q)) :
    s.modPort q f = s.modPort q g := by
  show ({ s with ports := s.ports.set q (f (s.port q)) } : State) = _
  rw [h]
  rfl

theorem modPort_self {s : State} {q : PortId} {f : Port → Port} (h : f (s.port q) = s.port q) : s.modPort q f = s :=
  ext_of_ports rfl fun x => by
    rw [State.modPort_port]
    split
    · rename_i e
      rw [h, e]
    · rfl

/-- Settles O11: ANSWER_SENT is `Port.sent` at one port, in its two cases. -/
theorem sentAnswerFillsTheRecord : Obligations.SentAnswerFillsTheRecord := by
  intro q s
  exact ⟨fun answering => congrArg _ (modPort_congr (sent_of_answering answering)),
    fun quiet => congrArg _ (modPort_self (sent_of_quiet quiet))⟩

end Sys2Proof.Machine
end

section
/-! SUPPORT. Notices in the queues: how an event's posts are taken in, how many a queue can hold, and the count that an
answer gives (R5, R9, R10). -/

namespace Sys2Proof.Machine

set_option Elab.async false

/-! ### Posts taken into a queue -/

theorem holdsPair_iff (q : List Notice) (n : Notice) : holdsPair q n = true ↔ n.key ∈ q.map Notice.key := by
  simp [holdsPair, List.mem_map]

/-- A post found by its pair among a list of posts and one more. -/
theorem lastOfPair_append (l : List Notice) (m n : Notice) :
    ((l ++ [m]).filter fun x => decide (x.key = n.key)).getLast? =
      if m.key = n.key then some m else (l.filter fun x => decide (x.key = n.key)).getLast? := by
  rw [List.filter_append]
  by_cases same : m.key = n.key
  · simp [same]
  · simp [same]

/-- A queued notice takes the content of the last post of its pair, and keeps its own where none concerns it. -/
theorem mem_foldl_updateNotice (q l : List Notice) : ∀ n ∈ l.foldl updateNotice q,
    (l.filter fun m => decide (m.key = n.key)).getLast? = some n ∨ n ∈ q ∧ ∀ m ∈ l, m.key ≠ n.key := by
  induction l using List.reverseRecOn with
  | nil => exact fun n m => .inr ⟨m, nofun⟩
  | append_singleton l m ih =>
    intro n mem
    rw [List.foldl_append] at mem
    obtain ⟨x, held, rfl⟩ := List.mem_map.mp mem
    by_cases same : x.key = m.key
    · rw [if_pos same, lastOfPair_append, if_pos rfl]
      exact .inl rfl
    · rw [if_neg same, lastOfPair_append, if_neg (Ne.symm same)]
      refine (ih x held).imp id fun ⟨old, others⟩ => ⟨old, fun y mem => ?_⟩
      rcases List.mem_append.mp mem with earlier | last
      · exact others y earlier
      · rw [List.mem_singleton.mp last]
        exact Ne.symm same

/-- Among sorted new pairs an insertion leaves no other notice of its pair. -/
theorem mem_insertNotice_of_sorted {l : List Notice} {n x : Notice} (sorted : l.Pairwise fun a b => a.key < b.key)
    (mem : x ∈ insertNotice l n) : x = n ∨ x ∈ l ∧ x.key ≠ n.key := by
  induction l with
  | nil => exact .inl (List.mem_singleton.mp mem)
  | cons m rest ih =>
    obtain ⟨first, tail⟩ := List.pairwise_cons.mp sorted
    unfold insertNotice at mem
    split at mem
    next before =>
      rcases List.mem_cons.mp mem with rfl | old
      · exact .inl rfl
      · refine .inr ⟨old, ?_⟩
        rcases List.mem_cons.mp old with rfl | later
        · omega
        · have := first x later
          omega
    next =>
      split at mem
      next same =>
        rcases List.mem_cons.mp mem with rfl | later
        · exact .inl rfl
        · have := first x later
          exact .inr ⟨List.mem_cons_of_mem _ later, by omega⟩
      next different =>
        rcases List.mem_cons.mp mem with rfl | later
        · exact .inr ⟨List.mem_cons_self, Ne.symm different⟩
        · exact (ih tail later).imp id fun ⟨old, other⟩ => ⟨List.mem_cons_of_mem _ old, other⟩

theorem sorted_foldl_insertNotice (l : List Notice) :
    (l.foldl insertNotice []).Pairwise fun a b => a.key < b.key := (foldl_insertNotice l [] .nil).1

/-- A new notice has the content of the last post of its pair. -/
theorem mem_foldl_insertNotice (l : List Notice) : ∀ n ∈ l.foldl insertNotice [],
    (l.filter fun m => decide (m.key = n.key)).getLast? = some n := by
  induction l using List.reverseRecOn with
  | nil => exact nofun
  | append_singleton l m ih =>
    intro n mem
    rw [List.foldl_append] at mem
    rw [lastOfPair_append]
    rcases mem_insertNotice_of_sorted (sorted_foldl_insertNotice l) mem with rfl | ⟨old, other⟩
    · exact if_pos rfl
    · rw [if_neg (Ne.symm other)]
      exact ih n old

theorem keys_insertNotice (l : List Notice) (n : Notice) (k : Nat) (h : k = n.key ∨ k ∈ l.map Notice.key) :
    k ∈ (insertNotice l n).map Notice.key := by
  induction l with
  | nil => simpa [insertNotice] using h
  | cons m rest ih =>
    unfold insertNotice
    split
    · simpa using h
    · split
      next same =>
        rw [List.map_cons, same]
        rw [List.map_cons, same, List.mem_cons, or_self_left] at h
        exact List.mem_cons.mpr h
      next =>
        rw [List.map_cons, List.mem_cons] at h ⊢
        rcases h with rfl | rfl | tail
        · exact .inr (ih (.inl rfl))
        · exact .inl rfl
        · exact .inr (ih (.inr tail))

theorem keys_foldl_insertNotice (l : List Notice) : ∀ m ∈ l, m.key ∈ (l.foldl insertNotice []).map Notice.key := by
  induction l using List.reverseRecOn with
  | nil => exact nofun
  | append_singleton l n ih =>
    intro m mem
    rw [List.foldl_append]
    refine keys_insertNotice _ n _ ?_
    rcases List.mem_append.mp mem with earlier | last
    · exact .inr (ih m earlier)
    · exact .inl (congrArg _ (List.mem_singleton.mp last))

theorem foldl_updateNotice_keys (q l : List Notice) : (l.foldl updateNotice q).map Notice.key = q.map Notice.key := by
  induction l generalizing q with
  | nil => rfl
  | cons m l ih => rw [List.foldl_cons, ih, updateNotice_keys]

/-- The posts of an event whose pair no notice in the queue has. -/
def newPosts (q posts : List Notice) : List Notice := posts.filter fun m => !holdsPair q m

/-- The posts of a pair that no notice in the queue has are all among the new ones. -/
theorem filter_pair_of_new {q posts : List Notice} {n : Notice} (new : n.key ∉ q.map Notice.key) :
    (newPosts q posts).filter (fun m => decide (m.key = n.key)) =
      posts.filter fun m => decide (m.key = n.key) := by
  rw [newPosts, List.filter_filter]
  refine List.filter_congr fun m _ => ?_
  by_cases same : m.key = n.key
  · have out : holdsPair q m = false := by
      rw [← Bool.not_eq_true, holdsPair_iff, same]
      exact new
    simp [out]
  · simp [same]

/-- Settles O15: the queue's own pairs are updated in place, the new ones follow sorted, and each notice has the content of
the last post of its pair. -/
theorem postsCoalesceInTheQueue : Obligations.PostsCoalesceInTheQueue := by
  refine ⟨fun s q => by rw [State.flush_port], fun q posts _ => ?_⟩
  have ofNew : ∀ n ∈ (newPosts q posts).foldl insertNotice [], n.key ∉ q.map Notice.key := fun n mem => by
    have posted := ((foldl_insertNotice (newPosts q posts) [] .nil).2 n mem).resolve_right List.not_mem_nil
    rw [← holdsPair_iff]
    simpa using (List.mem_filter.mp posted).2
  refine ⟨(newPosts q posts).foldl insertNotice [], rfl, foldl_updateNotice_keys q posts, sorted_foldl_insertNotice _, ofNew,
    fun n mem => ?_, fun m mem => ?_⟩
  · rcases List.mem_append.mp mem with updated | added
    · exact mem_foldl_updateNotice q posts n updated
    · rw [← filter_pair_of_new (ofNew n added)]
      exact .inl (mem_foldl_insertNotice _ n added)
  · have found : m.key ∈ (mergeNotices q posts).map Notice.key := by
      rw [mergeNotices, List.map_append, List.mem_append, foldl_updateNotice_keys, ← holdsPair_iff]
      by_cases held : holdsPair q m = true
      · exact .inl held
      · exact .inr (keys_foldl_insertNotice _ m (List.mem_filter.mpr ⟨mem, by simpa using held⟩))
    obtain ⟨n, mem, e⟩ := List.mem_map.mp found
    exact ⟨n, mem, e⟩

/-! ### How many notices a queue can hold -/

/-- The pairs of the notices that are posted to a port, as their keys (R9). -/
def portKeys : PortId → List Nat
  | .dispenser p => [1 * 256 + p.val, 2 * 256 + p.val]
  | .plant => (fourIds.map fun b => 3 * 256 + b.val) ++ [4 * 256 + 255]
  | .terminal =>
    (fourIds.map fun p => 5 * 256 + p.val) ++ (fourIds.map fun p => 6 * 256 + p.val) ++ [7 * 256 + 255]
  | .supervisor =>
    (fourIds.map fun b => 8 * 256 + b.val) ++ (fourIds.map fun b => 9 * 256 + b.val)
      ++ [10 * 256 + 255, 11 * 256 + 255, 12 * 256 + 255]

theorem key_mem_portKeys (n : Notice) : n.key ∈ portKeys n.port := by
  have listed (c : Nat) (b : Fin 4) : c * 256 + b.val ∈ fourIds.map fun b : Fin 4 => c * 256 + b.val :=
    List.mem_map.mpr ⟨b, mem_fourIds b, rfl⟩
  cases n with
  | sessionState p => exact List.mem_cons_self
  | vehicleDataLost p => exact List.mem_cons_of_mem _ List.mem_cons_self
  | refillStop b => exact List.mem_append_left _ (listed 3 b)
  | coolingDemand => exact List.mem_append_right _ List.mem_cons_self
  | authorizationExpired p => exact List.mem_append_left _ (List.mem_append_left _ (listed 5 p))
  | authorizationConsumed p => exact List.mem_append_left _ (List.mem_append_right _ (listed 6 p))
  | recordReady => exact List.mem_append_right _ List.mem_cons_self
  | bankSuspect b => exact List.mem_append_left _ (List.mem_append_left _ (listed 8 b))
  | proofOverdue b => exact List.mem_append_left _ (List.mem_append_right _ (listed 9 b))
  | massMismatch => exact List.mem_append_right _ List.mem_cons_self
  | siteHalted => exact List.mem_append_right _ (List.mem_cons_of_mem _ List.mem_cons_self)
  | bankDataStale => exact List.mem_append_right _ (List.mem_cons_of_mem _ (List.mem_cons_of_mem _ List.mem_cons_self))

/-- A queue of one port's notices, one of each pair, is no longer than the list of the port's pairs. -/
theorem queue_length_le {s : State} (h : Queues s) (q : PortId) : (s.port q).queue.length ≤ (portKeys q).length := by
  obtain ⟨own, nodup⟩ := h q
  have keys : (s.port q).queue.map Notice.key ⊆ portKeys q := fun k mem => by
    obtain ⟨n, queued, rfl⟩ := List.mem_map.mp mem
    rw [← own n queued]
    exact key_mem_portKeys n
  have := (nodup.subperm keys).length_le
  rwa [List.length_map] at this

/-- Settles O16: the pairs of each port are counted. -/
theorem queuesFitTheirCapacity : Obligations.QueuesFitTheirCapacity := fun _ h =>
  ⟨fun n => queue_length_le h (.dispenser n), queue_length_le h .plant, queue_length_le h .terminal,
    queue_length_le h .supervisor⟩

/-! ### The answer of an owning block -/

/-- Settles O12: an answer is sent at the port of its request, once the event's notices are in the queues. -/
theorem answerCarriesCodeCountAndBody : Obligations.AnswerCarriesCodeCountAndBody := by
  refine ⟨rfl, fun s f c body => ⟨State.modPort_port_same _ _ _, fun q other => State.modPort_port_ne _ _ other, rfl⟩⟩

end Sys2Proof.Machine
end

section
/-! SUPPORT. The formulas of the gas state, and the requests of Site Control and the Sales Unit that replace one value (R34,
R38 to R49, R120, R153, R154, R156, R164). -/

namespace Sys2Proof.Machine

set_option Elab.async false

/-! ### The gas state -/

/-- Settles O25: the clamped values, the cell and the fractions are those of the definition, whose bounds are cut
differently. -/
theorem densityIsInterpolatedAndRoundedOnce : Obligations.DensityIsInterpolatedAndRoundedOnce := by
  intro c pressure temperature d00 d10 d01 d11 P T i j fp ft read
  have clampedP : P = clampPressure pressure := by
    unfold P clampPressure
    split <;> omega
  have clampedT : T = clampTemperature temperature := by
    unfold T clampTemperature
    split
    · omega
    · split <;> omega
  have boundP : P ≤ 12000 := by rw [clampedP]; exact Nat.min_le_right _ _
  have boundT : T ≤ 3700 := by rw [clampedT]; exact Nat.min_le_right _ _
  have row : i = pressureRow P := by
    unfold i pressureRow
    split <;> omega
  have column : j = temperatureColumn T := by
    unfold j temperatureColumn
    split <;> omega
  have inRow : i ≤ 23 := by rw [row]; exact Nat.min_le_right _ _
  have inColumn : j ≤ 14 := by rw [column]; exact Nat.min_le_right _ _
  have alongRow : fp ≤ 500 := by
    unfold fp
    rw [row, pressureRow]
    omega
  have alongColumn : ft ≤ 100 := by
    unfold ft
    rw [column, temperatureColumn]
    omega
  rw [corners_eq, ← pressureRow_clampPressure, ← temperatureColumn_clampTemperature, ← clampedP, ← clampedT, ← row,
    ← column] at read
  simp only [List.cons.injEq, and_true] at read
  obtain ⟨e00, e10, e01, e11⟩ := read
  refine ⟨inRow, inColumn, alongRow, alongColumn, ?_⟩
  unfold density
  dsimp only
  rw [← clampedP, ← clampedT, ← row, ← column, e00, e10, e01, e11]

theorem volume_of_loaded {c : SiteConfig} {b : BankId} {e : BankEntry} (h : c.banks.get b = some e) :
    c.volume b = e.volume := by rw [SiteConfig.volume, h]

theorem volume_of_missing {c : SiteConfig} {b : BankId} (h : c.banks.get b = none) : c.volume b = 0 := by
  rw [SiteConfig.volume, h]

/-- Settles O27: each formula is the model's, its bounds taken in another order. -/
theorem massesChargeAndCeilingsByFormula : Obligations.MassesChargeAndCeilingsByFormula := by
  refine ⟨fun c b p t => ⟨fun e loaded => ?_, fun missing => ?_⟩, fun c p t v => rfl, fun rho ref => Nat.min_comm _ _,
    fun s p => ⟨fun unbased => ?_, fun base based => ?_, ?_⟩⟩
  · rw [bankMass, volume_of_loaded loaded]
  · rw [bankMass, volume_of_missing missing, Nat.mul_zero]
  · rw [State.rampCeiling, unbased]
    rfl
  · rw [State.rampCeiling, based, ← Nat.min_assoc]
    rfl
  · rw [State.pulseCeiling, Nat.min_assoc, Nat.min_assoc]
    rfl

/-! ### The profile of a START -/

section
variable {c : SiteConfig} {n i k : Nat}

theorem findPermitted_of_permitted (h : (c.profile i).permitted = true) : findPermitted c (n + 1) i = some i := if_pos h

theorem findPermitted_of_last (h : ¬(c.profile i).permitted = true) (e : (c.profile i).degradeTo = none) :
    findPermitted c (n + 1) i = none := by
  rw [findPermitted, if_neg h, e]

theorem findPermitted_of_next (h : ¬(c.profile i).permitted = true) (e : (c.profile i).degradeTo = some k) :
    findPermitted c (n + 1) i = findPermitted c n k := by
  rw [findPermitted, if_neg h, e]

/-- Only a permitted entry is found. -/
theorem permitted_of_findPermitted (h : findPermitted c n i = some k) : (c.profile k).permitted = true := by
  induction n generalizing i with
  | zero => exact nomatch h
  | succ n ih =>
    by_cases here : (c.profile i).permitted = true
    · rw [findPermitted_of_permitted here] at h
      cases h
      exact here
    · cases next : (c.profile i).degradeTo with
      | none => exact nomatch (findPermitted_of_last here next).symm.trans h
      | some j => exact ih ((findPermitted_of_next here next).symm.trans h)

end

/-- Settles O52: the chain is followed entry by entry, four at most. -/
theorem startProfileFollowsTheDegradeChain : Obligations.StartProfileFollowsTheDegradeChain := by
  intro s c first allowed next
  have chosen : s.selectProfile c = findPermitted s.config 4 first := by cases c <;> rfl
  rw [chosen]
  refine ⟨fun h => findPermitted_of_permitted h, fun h e => findPermitted_of_last h e, fun k h e a => ?_,
    fun j h e g f => ?_, fun j k h e g f a => ?_, fun k found => permitted_of_findPermitted found,
    fun j k h e g f a z => ?_, fun j k l h e g f a z => ?_⟩
  · rw [findPermitted_of_next h e, findPermitted_of_permitted a]
  · rw [findPermitted_of_next h e, findPermitted_of_last g f]
  · rw [findPermitted_of_next h e, findPermitted_of_next g f, findPermitted_of_permitted a]
  · rw [findPermitted_of_next h e, findPermitted_of_next g f, findPermitted_of_last a z]
  · rw [findPermitted_of_next h e, findPermitted_of_next g f, findPermitted_of_next a z]
    unfold findPermitted
    split
    · rfl
    · split <;> rfl

/-! ### SET BAND and SET TARIFF -/

theorem setBandRequest_of_band {s : State} (b : PriceBand) (m : s.site.mode ≠ .unconfigured) :
    setBandRequest b.code s = done { s with site := { s.site with priceBand := b } } := by
  cases b <;> exact if_neg m

theorem setBandRequest_of_unknown {s : State} {n : Nat} (h : 1 < n) : setBandRequest n s = refuse .outOfRange s := by
  obtain ⟨m, rfl⟩ := Nat.exists_eq_add_of_le' h
  rfl

theorem setBandRequest_of_mode {s : State} {n : Nat} (h : n ≤ 1) (m : s.site.mode = .unconfigured) :
    setBandRequest n s = refuse .wrongState s := by
  obtain rfl | rfl := Nat.le_one_iff_eq_zero_or_eq_one.mp h <;> exact if_pos m

theorem readPrice_of_le {n : Nat} (h : n ≤ 999999) : readPrice n = some n := if_pos ⟨Nat.zero_le n, h⟩

theorem readPrice_of_lt {n : Nat} (h : 999999 < n) : readPrice n = none := if_neg fun k => by omega

theorem setTariffRequest_of_price {s : State} {i n : Nat} (hi : i ≤ 15) (hn : n ≤ 999999)
    (m : s.site.mode ≠ .unconfigured) :
    setTariffRequest i n s = done { s with sales := { s.sales with tariff := s.sales.tariff.set i n } } := by
  unfold setTariffRequest
  rw [if_neg (by omega), readPrice_of_le hn]
  exact if_neg m

theorem setTariffRequest_of_range {s : State} {i n : Nat} (h : 15 < i ∨ 999999 < n) :
    setTariffRequest i n s = refuse .outOfRange s := by
  unfold setTariffRequest
  by_cases hi : 15 < i
  · exact if_pos hi
  · rw [if_neg hi, readPrice_of_lt (h.resolve_left hi)]

theorem setTariffRequest_of_mode {s : State} {i n : Nat} (hi : i ≤ 15) (hn : n ≤ 999999)
    (m : s.site.mode = .unconfigured) : setTariffRequest i n s = refuse .wrongState s := by
  unfold setTariffRequest
  rw [if_neg (by omega), readPrice_of_le hn]
  exact if_pos m

/-- Settles O35: one case for each outcome of the two requests. -/
theorem setBandAndSetTariffReplaceOneValue : Obligations.SetBandAndSetTariffReplaceOneValue := by
  refine ⟨fun tag band s k => ?_, fun tag index price s k => ?_⟩
  · have answers {t : State} {c : Code} {body : List Byte} :=
      exec_answers_of_wireForm (t := t) (c := c) (body := body) (Laws.WireForm.setBand tag band) rfl rfl k
    refine ⟨fun b e m => ?_, fun h => answers (setBandRequest_of_unknown h), fun h m => answers (setBandRequest_of_mode h m)⟩
    rw [e] at answers
    exact answers (setBandRequest_of_band b m)
  · have answers {t : State} {c : Code} {body : List Byte} :=
      exec_answers_of_wireForm (t := t) (c := c) (body := body) (Laws.WireForm.setTariff tag index price) rfl rfl k
    exact ⟨fun hi hn m => answers (setTariffRequest_of_price hi hn m), fun h => answers (setTariffRequest_of_range h),
      fun hi hn m => answers (setTariffRequest_of_mode hi hn m)⟩

/-! ### AUTHORIZE -/

/-- The kinds and amounts that are no authorization (R152, R170). -/
theorem authKindOf?_eq_none {kind amount : Nat}
    (h : ¬(kind = 0 ∧ 1 ≤ amount ∧ amount ≤ 9999999 ∨ kind = 1 ∧ 1 ≤ amount ∧ amount ≤ 60000)) :
    authKindOf? kind amount = none := by
  match kind with
  | 0 => exact if_neg fun k => h (.inl ⟨rfl, k⟩)
  | 1 => exact if_neg fun k => h (.inr ⟨rfl, k⟩)
  | _ + 2 => rfl

theorem authKindOf?_of_inRange {kind amount : Nat}
    (h : kind = 0 ∧ 1 ≤ amount ∧ amount ≤ 9999999 ∨ kind = 1 ∧ 1 ≤ amount ∧ amount ≤ 60000) :
    authKindOf? kind amount = some (if kind = 0 then .prepaid amount else .fleet amount) := by
  rcases h with ⟨rfl, k⟩ | ⟨rfl, k⟩ <;> exact if_pos k

theorem closesSlots_iff (m : SiteMode) : m.closesSlots = false ↔ m = .serving ∨ m = .service := by
  cases m <;> decide

theorem armedReference_eq_some {u : SalesUnit} {p : PosId} {n : Nat} :
    u.armedReference p = some n ↔ ∃ a, u.slots.get p = some a ∧ a.auth.reference = n := Option.map_eq_some_iff

theorem isOpen_iff (x : Session) : x.isOpen = true ↔ x.state ≠ .idle := bne_iff_ne

theorem referenceInUse_iff (s : State) (p : PosId) (n : Nat) :
    s.referenceInUse p n = true ↔
      (∃ q a, q ≠ p ∧ s.sales.slots.get q = some a ∧ a.auth.reference = n)
        ∨ ∃ q a, (s.session q).state ≠ .idle ∧ (s.session q).auth = some a ∧ a.reference = n := by
  unfold State.referenceInUse
  simp only [List.any_eq_true, mem_fourIds, true_and, Bool.or_eq_true, Bool.and_eq_true, bne_iff_ne, beq_iff_eq,
    isOpen_iff, armedReference_eq_some, Option.map_eq_some_iff, exists_or, exists_and_left]

section
variable {s : State} {p : PosId} {n kind amount lifetime : Nat} (n0 : n ≠ 0) (short : lifetime ≤ 3600)
  (known : kind = 0 ∧ 1 ≤ amount ∧ amount ≤ 9999999 ∨ kind = 1 ∧ 1 ≤ amount ∧ amount ≤ 60000)
include n0 short known

/-- An AUTHORIZE whose fields lie in their ranges: the mode, the reference and the position are examined. -/
theorem authorizeRequest_of_inRange :
    authorizeRequest p.val n kind amount lifetime s =
      if s.site.mode.closesSlots then refuse .wrongState s
      else if s.referenceInUse p n then refuse .duplicate s
      else if !s.config.enabled p then refuse .notPermitted s
      else doneWith (optField 4 (s.sales.armedReference p))
        (s.arm p ⟨n, if kind = 0 then .prepaid amount else .fleet amount⟩ lifetime) := by
  unfold authorizeRequest
  rw [fourOf?_val, authKindOf?_of_inRange known]
  exact if_neg (by omega)

theorem authorizeRequest_of_mode (closed : s.site.mode.closesSlots = true) :
    authorizeRequest p.val n kind amount lifetime s = refuse .wrongState s := by
  rw [authorizeRequest_of_inRange n0 short known, if_pos closed]

theorem authorizeRequest_of_used (opened : s.site.mode.closesSlots = false) (used : s.referenceInUse p n = true) :
    authorizeRequest p.val n kind amount lifetime s = refuse .duplicate s := by
  rw [authorizeRequest_of_inRange n0 short known, opened, used]
  rfl

theorem authorizeRequest_of_disabled (opened : s.site.mode.closesSlots = false) (free : s.referenceInUse p n = false)
    (disabled : s.config.enabled p = false) :
    authorizeRequest p.val n kind amount lifetime s = refuse .notPermitted s := by
  rw [authorizeRequest_of_inRange n0 short known, opened, free, disabled]
  rfl

theorem authorizeRequest_of_enabled (opened : s.site.mode.closesSlots = false) (free : s.referenceInUse p n = false)
    (enabled : s.config.enabled p = true) :
    authorizeRequest p.val n kind amount lifetime s =
      doneWith (optField 4 (s.sales.armedReference p))
        (s.arm p ⟨n, if kind = 0 then .prepaid amount else .fleet amount⟩ lifetime) := by
  rw [authorizeRequest_of_inRange n0 short known, opened, free, enabled]
  rfl

end

theorem authorizeRequest_of_range {s : State} {position n kind amount lifetime : Nat}
    (h : ¬(position < 4 ∧ n ≠ 0 ∧ lifetime ≤ 3600
      ∧ (kind = 0 ∧ 1 ≤ amount ∧ amount ≤ 9999999 ∨ kind = 1 ∧ 1 ≤ amount ∧ amount ≤ 60000))) :
    authorizeRequest position n kind amount lifetime s = refuse .outOfRange s := by
  unfold authorizeRequest
  split
  next p k named known =>
    refine if_pos ?_
    by_contra fits
    refine h ⟨?_, by omega, by omega, ?_⟩
    · by_contra large
      exact nomatch (fourOf?_eq_none (by omega)).symm.trans named
    · by_contra unknown
      exact nomatch (authKindOf?_eq_none unknown).symm.trans known
  next => rfl

/-- Settles O39: the outcomes of the request in the order in which they are examined. -/
theorem authorizeArmsASlot : Obligations.AuthorizeArmsASlot := by
  intro tag position kind reference amount lifetime s k answers n inRange takes
  have answer {t : State} {c : Code} {body : List Byte} :=
    exec_answers_of_wireForm (t := t) (c := c) (body := body)
      (Laws.WireForm.authorize tag position reference kind amount lifetime) rfl rfl k
  refine ⟨fun h => answer (authorizeRequest_of_range h), fun ⟨four, n0, short, known⟩ closed => ?_, ?_⟩
  · have shut : s.site.mode.closesSlots = true := by
      rw [← Bool.not_eq_false]
      exact (closesSlots_iff _).not.mpr closed
    exact answer (authorizeRequest_of_mode (p := ⟨position.toNat, four⟩) n0 short known shut)
  · intro p ⟨_, n0, short, known⟩ named taking used armed t
    rw [named] at answer
    have opened : s.site.mode.closesSlots = false := (closesSlots_iff _).mpr taking
    have unused (free : ¬used) : s.referenceInUse p n = false := by
      rw [← Bool.not_eq_true]
      exact (referenceInUse_iff s p n).not.mpr free
    refine ⟨fun duplicate =>
        answer (authorizeRequest_of_used n0 short known opened ((referenceInUse_iff s p n).mpr duplicate)),
      fun free disabled => answer (authorizeRequest_of_disabled n0 short known opened (unused free) disabled),
      fun free enabled => ?_⟩
    have given {r : Option Nat} (held : s.sales.armedReference p = r) : answers t .ok (optField 4 r) := by
      rw [← held]
      exact answer (authorizeRequest_of_enabled n0 short known opened (unused free) enabled)
    refine ⟨fun empty => given (r := none) ?_, fun a full => given (r := some a.auth.reference) ?_⟩
    · rw [SalesUnit.armedReference, empty]
      rfl
    · exact armedReference_eq_some.mpr ⟨a, full, rfl⟩

/-! ### CANCEL AUTHORIZATION, SETTLE and the expiry of an authorization -/

theorem cancelRequest_of_range {s : State} {position n : Nat} (h : 4 ≤ position ∨ n = 0) :
    cancelRequest position n s = refuse .outOfRange s := by
  unfold cancelRequest
  split
  next => rfl
  next p named =>
    refine if_pos (h.resolve_left fun large => ?_)
    exact nomatch (fourOf?_eq_none large).symm.trans named

theorem cancelRequest_of_armed {s : State} {p : PosId} {n : Nat} (n0 : n ≠ 0) (h : s.sales.armedReference p = some n) :
    cancelRequest p.val n s = done { s with sales := { s.sales with slots := s.sales.slots.set p none } } := by
  unfold cancelRequest
  rw [fourOf?_val]
  exact (if_neg n0).trans (if_pos h)

theorem cancelRequest_of_other {s : State} {p : PosId} {n : Nat} (n0 : n ≠ 0) (h : s.sales.armedReference p ≠ some n) :
    cancelRequest p.val n s = refuse .notFound s := by
  unfold cancelRequest
  rw [fourOf?_val]
  exact (if_neg n0).trans (if_neg h)

theorem settleRequest_of_zero (s : State) : settleRequest 0 s = refuse .outOfRange s := rfl

theorem settleRequest_of_record {s : State} {n : Nat} (n0 : n ≠ 0) (h : ∃ r ∈ s.sales.records, r.sequence = n) :
    settleRequest n s =
      doneWith [byteOf (s.sales.records.filter fun r => r.sequence ≠ n).length]
        { s with sales := { s.sales with records := s.sales.records.filter fun r => r.sequence ≠ n } } := by
  obtain ⟨r, found⟩ : ∃ r, s.sales.record? n = some r :=
    Option.isSome_iff_exists.mp (List.find?_isSome.mpr (by simpa using h))
  have left : (s.sales.records.filter fun r => r.sequence != n) = s.sales.records.filter fun r => r.sequence ≠ n :=
    List.filter_congr fun r _ => by simp [bne, beq_eq_decide]
  unfold settleRequest
  rw [if_neg n0, found]
  dsimp only [State.removeRecord, State.modSales]
  rw [left]

theorem settleRequest_of_missing {s : State} {n : Nat} (n0 : n ≠ 0) (h : ∀ r ∈ s.sales.records, r.sequence ≠ n) :
    settleRequest n s = refuse (s.sales.missing n) s := by
  unfold settleRequest
  rw [if_neg n0, SalesUnit.record?_eq_none h]

theorem settleRequest_of_foreseen {s : State} {n : Nat} (n0 : n ≠ 0) (unheld : ∀ r ∈ s.sales.records, r.sequence ≠ n)
    (h : s.sales.counter ≠ 0 ∧ ∃ k, k < s.sales.pendingSessions.length ∧ n = s.sales.counter + k) :
    settleRequest n s = refuse .notYet s := by
  obtain ⟨counts, k, lt, e⟩ := h
  rw [settleRequest_of_missing n0 unheld, SalesUnit.missing_of_foreseen ⟨k, lt, counts, e⟩]

theorem settleRequest_of_unforeseen {s : State} {n : Nat} (n0 : n ≠ 0) (unheld : ∀ r ∈ s.sales.records, r.sequence ≠ n)
    (h : ¬(s.sales.counter ≠ 0 ∧ ∃ k, k < s.sales.pendingSessions.length ∧ n = s.sales.counter + k)) :
    settleRequest n s = refuse .notFound s := by
  rw [settleRequest_of_missing n0 unheld,
    SalesUnit.missing_of_not_foreseen (or_iff_not_imp_left.mpr fun counts k lt e => h ⟨counts, k, lt, e⟩)]

/-- Settles O40: the outcomes of the two requests, and the expiry of an armed slot and of an empty one. -/
theorem cancelSettleAndExpiryTakeAway : Obligations.CancelSettleAndExpiryTakeAway := by
  refine ⟨fun tag position reference s k => ?_, fun tag number s k => ?_, fun p s => ⟨fun a armed => ?_, fun empty => ?_⟩⟩
  · have answer {t : State} {c : Code} {body : List Byte} :=
      exec_answers_of_wireForm (t := t) (c := c) (body := body) (Laws.WireForm.cancelAuthorization tag position reference)
        rfl rfl k
    refine ⟨fun h => answer (cancelRequest_of_range h), fun p named n0 => ?_⟩
    rw [named] at answer
    exact ⟨fun a armed same => answer (cancelRequest_of_armed n0 (armedReference_eq_some.mpr ⟨a, armed, same⟩)),
      fun other => answer (cancelRequest_of_other n0 fun armed => by
        obtain ⟨a, held, same⟩ := armedReference_eq_some.mp armed
        exact other a held same)⟩
  · have answer {t : State} {c : Code} {body : List Byte} :=
      exec_answers_of_wireForm (t := t) (c := c) (body := body) (Laws.WireForm.settle tag number) rfl rfl k
    refine ⟨fun zero => ?_, fun n0 held => answer (settleRequest_of_record n0 held), fun n0 unheld =>
      ⟨fun foreseen => answer (settleRequest_of_foreseen n0 unheld foreseen),
        fun unforeseen => answer (settleRequest_of_unforeseen n0 unheld unforeseen)⟩⟩
    rw [show number.toNat = 0 from zero] at answer
    exact answer (settleRequest_of_zero _)
  · show Host.Outcome.next (s.authorizationExpires p).flush = _
    rw [State.authorizationExpires, armed]
    rfl
  · show Host.Outcome.next (s.authorizationExpires p).flush = _
    rw [State.authorizationExpires, empty]

end Sys2Proof.Machine
end

section
/-! SUPPORT. LOAD TABLE: where an accepted entry goes (R26). -/

namespace Sys2Proof.Machine

set_option Elab.async false

theorem indexInTable_iff (table index : Nat) :
    indexInTable table index = true ↔ table ≤ 5 ∧ index < [25, 48, 6, 4, 24, 16].getD table 0 := by
  unfold indexInTable tableSize
  match table with
  | 0 | 1 | 2 | 3 | 4 | 5 => simp
  | n + 6 => simp

theorem allIdle_iff (s : State) : s.allIdle = true ↔ ∀ p, (s.session p).state = .idle := by
  simp [State.allIdle, State.openPositions, mem_fourIds, Session.isOpen]

section
variable {s : State} {table index : Nat} {entry : List Byte}

theorem loadTableRequest_of_unknown (h : ¬(table ≤ 5 ∧ index < [25, 48, 6, 4, 24, 16].getD table 0)) :
    loadTableRequest table index entry s = refuse .outOfRange s := by
  unfold loadTableRequest
  rw [if_pos]
  simpa using (indexInTable_iff table index).not.mpr h

theorem loadTableRequest_of_configTable (h : table ≤ 5 ∧ index < [25, 48, 6, 4, 24, 16].getD table 0) (t : table < 5) :
    loadTableRequest table index entry s = loadConfigTable table index entry s := by
  unfold loadTableRequest
  rw [(indexInTable_iff table index).mpr h]
  exact if_neg (show table ≠ 5 by omega)

theorem loadTableRequest_of_tariff (h : table ≤ 5 ∧ index < [25, 48, 6, 4, 24, 16].getD table 0) (t : table = 5) :
    loadTableRequest table index entry s = loadTariff index entry s := by
  unfold loadTableRequest
  rw [(indexInTable_iff table index).mpr h]
  exact if_pos t

theorem loadConfigTable_of_none (h : s.loadTarget = none) : loadConfigTable table index entry s = refuse .wrongState s := by
  rw [loadConfigTable, h]

theorem loadConfigTable_of_failing {c : SiteConfig} (h : s.loadTarget = some c) (e : c.load table index entry = none) :
    loadConfigTable table index entry s = refuse .outOfRange s := by
  rw [loadConfigTable, h]
  dsimp only
  rw [e]

theorem loadConfigTable_of_loaded {c d : SiteConfig} (h : s.loadTarget = some c)
    (e : c.load table index entry = some d) : loadConfigTable table index entry s = done (s.storeLoaded d) := by
  rw [loadConfigTable, h]
  dsimp only
  rw [e]

theorem loadTarget_of_unconfigured (m : s.site.mode = .unconfigured) : s.loadTarget = some s.site.config := by
  rw [State.loadTarget, m]

theorem loadTarget_of_service {w : SiteConfig} (m : s.site.mode = .service) (e : s.site.working = some w)
    (idle : ∀ p, (s.session p).state = .idle) : s.loadTarget = some w := by
  rw [State.loadTarget, m, ← e]
  exact if_pos ((allIdle_iff s).mpr idle)

theorem loadTarget_of_closed (h : s.site.mode = .serving ∨ s.site.mode = .halted
    ∨ s.site.mode = .service ∧ ¬∀ p, (s.session p).state = .idle) : s.loadTarget = none := by
  rcases h with m | m | ⟨m, busy⟩
  · rw [State.loadTarget, m]
  · rw [State.loadTarget, m]
  · rw [State.loadTarget, m]
    exact if_neg ((allIdle_iff s).not.mpr busy)

theorem storeLoaded_of_unconfigured (m : s.site.mode = .unconfigured) (c : SiteConfig) :
    s.storeLoaded c = { s with site := { s.site with config := c } } := by
  exact congrArg (fun x => ({ s with site := x } : State)) (if_pos m)

theorem storeLoaded_of_service (m : s.site.mode = .service) (c : SiteConfig) :
    s.storeLoaded c = { s with site := { s.site with working := some c } } := by
  exact congrArg (fun x => ({ s with site := x } : State)) (if_neg (by rw [m]; decide))

theorem loadTariff_of_mode (m : s.site.mode = .unconfigured) : loadTariff index entry s = refuse .wrongState s := if_pos m

theorem loadTariff_of_range (m : s.site.mode ≠ .unconfigured) (h : 999999 < field entry 0 4) :
    loadTariff index entry s = refuse .outOfRange s := by
  rw [loadTariff, if_neg m, readPrice_of_lt h]

theorem loadTariff_of_price (m : s.site.mode ≠ .unconfigured) (h : field entry 0 4 ≤ 999999) :
    loadTariff index entry s =
      done { s with sales := { s.sales with tariff := s.sales.tariff.set index (field entry 0 4) } } := by
  rw [loadTariff, if_neg m, readPrice_of_le h]
  rfl

end

/-- Settles O36: the outcomes of the request in the order in which they are examined, for the five configuration tables and
for the tariff. -/
theorem loadTableReplacesOneEntry : Obligations.LoadTableReplacesOneEntry := by
  intro tag table index entry s whole k answers known idle
  have sent : (Instr.loadTable tag table index entry).wellFormed = true := by
    show decide _ = true
    exact decide_eq_true whole
  have answer {t : State} {c : Code} {body : List Byte} :=
    exec_answers_of_wireForm (t := t) (c := c) (body := body) (Laws.WireForm.loadTable tag table index entry) sent rfl k
  refine ⟨fun h => answer (loadTableRequest_of_unknown h), fun known config => ?_, fun known tariff => ?_⟩
  · have loads {t : State} {c : Code} (e : loadConfigTable table.toNat index.toNat entry
        (s.taking (loadTableFrame tag table index entry)) = (t.taking (loadTableFrame tag table index entry), ⟨c, []⟩)) :
        answers t c := answer ((loadTableRequest_of_configTable known config).trans e)
    refine ⟨fun m => ?_, fun w m held idle => ?_, fun closed => loads (loadConfigTable_of_none (loadTarget_of_closed closed))⟩
    · have target := loadTarget_of_unconfigured (s := s.taking (loadTableFrame tag table index entry)) m
      refine ⟨fun c e => loads ?_, fun e => loads (loadConfigTable_of_failing target e)⟩
      exact (loadConfigTable_of_loaded target e).trans (congrArg done (storeLoaded_of_unconfigured (s := s.taking _) m c))
    · have target := loadTarget_of_service (s := s.taking (loadTableFrame tag table index entry)) m held idle
      refine ⟨fun c e => loads ?_, fun e => loads (loadConfigTable_of_failing target e)⟩
      exact (loadConfigTable_of_loaded target e).trans (congrArg done (storeLoaded_of_service (s := s.taking _) m c))
  · have loads {t : State} {c : Code} (e : loadTariff index.toNat entry
        (s.taking (loadTableFrame tag table index entry)) = (t.taking (loadTableFrame tag table index entry), ⟨c, []⟩)) :
        answers t c := answer ((loadTableRequest_of_tariff known tariff).trans e)
    exact ⟨fun m => loads (loadTariff_of_mode m), fun m h => loads (loadTariff_of_range m h),
      fun m h => loads (loadTariff_of_price m h)⟩

end Sys2Proof.Machine
end

section
/-! SUPPORT. The bodies of READ POSITION, READ BANKS, READ COOLING and READ SITE, written row after row (R35, R66, R98,
R115, R173). -/

namespace Sys2Proof.Machine

set_option Elab.async false

/-! ### Rows within a body -/

/-- Rows packed between other bytes stand behind those before them. -/
theorem stand_within (front : List Byte) (rows : List (Nat × Nat)) (tail : List Byte) :
    Stand (front ++ (packed rows ++ tail)) (placed front.length rows) := by
  induction rows generalizing front with
  | nil => exact stand_nil _
  | cons r rows ih =>
    obtain ⟨w, n⟩ := r
    have here : StandsAt (front ++ (packed ((w, n) :: rows) ++ tail)) front.length w n := by
      rw [packed_cons, List.append_assoc]
      exact (field_at front (be w n) (packed rows ++ tail) _ w rfl (be_length w n)).trans (unbe_be w n)
    have beyond := ih (front ++ be w n)
    rw [List.append_assoc, List.length_append, be_length, ← List.append_assoc (be w n)] at beyond
    exact stand_cons.mpr ⟨here, beyond⟩

/-- The rows of one of several chunks of the same length stand behind the chunks before it. -/
theorem stand_chunk {k : Nat} {chunks : List (List Byte)} (len : ∀ c ∈ chunks, c.length = k) {i : Nat}
    {rows : List (Nat × Nat)} (e : chunks[i]? = some (packed rows)) (front tail : List Byte) :
    Stand (front ++ (chunks.flatten ++ tail)) (placed (front.length + k * i) rows) := by
  induction chunks generalizing i front with
  | nil => exact nomatch e
  | cons c chunks ih =>
    rw [List.flatten_cons, List.append_assoc]
    cases i with
    | zero =>
      cases Option.some.inj e
      exact stand_within front rows _
    | succ i =>
      have long : c.length = k := len c List.mem_cons_self
      have beyond := ih (fun d m => len d (List.mem_cons_of_mem _ m)) e (front ++ c)
      rw [List.append_assoc, List.length_append, long] at beyond
      rw [Nat.mul_add_one, Nat.add_comm (k * i), ← Nat.add_assoc]
      exact beyond

/-- Any of the rows that stand in a body, by their places in the list of rows. -/
theorem Stand.pick {body : List Byte} {rows : List (Nat × Nat × Nat)} (h : Stand body rows) (places : List Nat) :
    Stand body (places.map fun i => rows.getD i (0, 0, 0)) := by
  intro r m
  obtain ⟨i, -, rfl⟩ := List.mem_map.mp m
  rw [List.getD_eq_getElem?_getD]
  cases e : rows[i]? with
  | none => rfl
  | some r => exact h r (List.mem_of_getElem? e)

/-- The rows of an optional number: its presence byte, and the number behind it. -/
theorem standMarked_of_stand {body : List Byte} {rows : List (Nat × Nat × Option Nat)}
    (h : Stand body (rows.flatMap fun r =>
      [(r.1, 1, if r.2.2.isSome = true then 1 else 0), (r.1 + 1, r.2.1, r.2.2.getD 0)])) : StandMarked body rows := by
  intro r m
  exact ⟨h _ (List.mem_flatMap.mpr ⟨r, m, List.mem_cons_self⟩),
    h _ (List.mem_flatMap.mpr ⟨r, m, List.mem_cons_of_mem _ List.mem_cons_self⟩)⟩

theorem standsIf_of_stand {body : List Byte} {off w : Nat} {x : Option Nat}
    (h : Stand body [(off, 1, if x.isSome = true then 1 else 0), (off + 1, w, x.getD 0)]) : StandsIf body off w x :=
  ⟨h (off, 1, if x.isSome = true then 1 else 0) List.mem_cons_self,
    h (off + 1, w, x.getD 0) (List.mem_cons_of_mem _ List.mem_cons_self)⟩

/-- The rows of an optional number of `w` bytes (R169). -/
def optionRows (w : Nat) (x : Option Nat) : List (Nat × Nat) := [(1, if x.isSome = true then 1 else 0), (w, x.getD 0)]

theorem optField_eq (w : Nat) (x : Option Nat) :
    optField w x = byteOf (if x.isSome = true then 1 else 0) :: be w (x.getD 0) := by
  cases x with
  | none =>
    rw [optField, be, Nat.zero_div]
    rfl
  | some n => rfl

theorem optCode_eq (x : Option Nat) : optCode x = byteOf (x.getD 255) := by cases x <;> rfl

theorem packed_nil : packed [] = [] := rfl

theorem packed_optionRows (w : Nat) (x : Option Nat) : packed (optionRows w x) = optField w x := by
  rw [optField_eq, optionRows, packed_cons, packed_cons, packed_nil, List.append_nil, be_one]
  rfl

/-- One byte and the rows behind it. -/
theorem packed_byte (n : Nat) (rows : List (Nat × Nat)) : packed ((1, n) :: rows) = byteOf n :: packed rows := by
  rw [packed_cons, be_one]
  rfl

theorem packed_singleton (w n : Nat) : packed [(w, n)] = be w n := by rw [packed_cons, packed_nil, List.append_nil]

theorem factors_code_eq_bitsOf (x : Factors) :
    x.code = bitsOf [x.cooling, x.bank, x.vehicleHalt, x.overRamp, x.gasWarm, x.pause] := by
  simp only [Factors.code, boolCode, bitsOf, List.foldr_cons, List.foldr_nil]
  ring

theorem sessionFlags_code_eq_bitsOf (x : SessionFlags) :
    x.code = bitsOf [x.degradedCooling, x.nonComm, x.estimated, x.interrupted, x.unchecked] := by
  simp only [SessionFlags.code, boolCode, bitsOf, List.foldr_cons, List.foldr_nil]
  ring

/-! ### The command of a session -/

/-- The sizes and the numbers of a command (R170). -/
def Command.rows : Command → List (Nat × Nat)
  | .closed => [(1, 0), (1, 255), (2, 0)]
  | .pulse b c => [(1, 1), (1, b.val), (2, c)]
  | .flow b c => [(1, 2), (1, b.val), (2, c)]

theorem Command.bytes_eq_packed (c : Command) : c.bytes = packed c.rows := by
  cases c <;> simp only [bytes, rows, packed_byte, packed_singleton] <;> rfl

theorem command_of_connect {x : Session} {b : BankId} {c : Nat} (state : x.state = .connecting)
    (phase : x.phase = some .connect) (bank : x.bank = some b) (ceiling : x.pulseCeiling = some c) :
    x.command = .pulse b c := by
  rw [Session.command, state, phase, bank, ceiling]
  rfl

theorem command_of_delivering {x : Session} {b : BankId} {c : Nat} (state : x.state = .delivering)
    (bank : x.bank = some b) (ceiling : x.flowCeiling = some c) : x.command = .flow b c := by
  rw [Session.command, state, bank, ceiling]
  rfl

theorem command_closed {x : Session} (connect : ¬(x.state = .connecting ∧ x.phase = some .connect))
    (delivering : x.state ≠ .delivering) : x.command = .closed := by
  unfold Session.command
  split
  · exact absurd ⟨‹_›, ‹_›⟩ connect
  · exact absurd ‹_› delivering
  · rfl

theorem commandAt_of_stand {body : List Byte} {off : Nat} {x : Session} (h : Stand body (placed off x.command.rows)) :
    CommandAt body off x where
  pulse b c state phase bank ceiling := by
    rw [command_of_connect state phase bank ceiling] at h
    exact h
  flow b c state bank ceiling := by
    rw [command_of_delivering state bank ceiling] at h
    exact h
  closed connect delivering := by
    rw [command_closed connect delivering] at h
    exact h

theorem commandAt_bytes (x : Session) : CommandAt x.command.bytes 0 x :=
  commandAt_of_stand (by rw [Command.bytes_eq_packed]; exact stand_packed _)

/-! ### READ POSITION -/

/-- The sizes and the numbers of the Position Monitor's part (R173). -/
def Monitor.rows (m : Monitor) : List (Nat × Nat) :=
  (1, m.nozzle.code) :: (optionRows 2 m.pressure ++ (optionRows 2 m.temperature ++ (optionRows 3 m.mass
    ++ (optionRows 2 m.progressTimer ++ ([(1, m.record.code), (1, (m.vehicle.map (·.fuelClass.code)).getD 255)]
    ++ (optionRows 2 (m.vehicle.map (·.volume)) ++ (optionRows 2 (m.vehicle.map (·.pressure))
    ++ (optionRows 2 (m.vehicle.map (·.temperature)) ++ ([(1, (m.vehicle.map (·.command.code)).getD 255)]
    ++ (optionRows 2 (m.vehicle.map (·.soc)) ++ (optionRows 4 (m.vehicle.map (·.tankMass)) ++ ([(1, m.errors)]
    ++ optionRows 2 m.ageTimer))))))))))))

/-- The sizes and the numbers of the session's part (R173). -/
def Session.rows (x : Session) : List (Nat × Nat) :=
  (1, x.state.code) :: (1, (x.phase.map Phase.code).getD 255) :: (x.command.rows
    ++ ([(1, x.factors.code), (1, (x.comm.map CommFlag.code).getD 255), (1, x.profileAtStart.getD 255),
        (1, x.profile.getD 255), (1, (x.endReason.map EndReason.code).getD 0), (1, x.cooling.code),
        (1, (x.kind.map ConnKind.code).getD 255), (1, (x.attempt.map Attempt.code).getD 255),
        (1, (x.resumePoint.map Phase.code).getD 255), (1, (x.bank.map Fin.val).getD 255),
        (1, (x.awaited.map Fin.val).getD 255), (1, x.cascadePos.getD 255)]
    ++ (optionRows 4 (x.auth.map (·.reference)) ++ ([(1, x.flags.code), (4, x.activeTime), (4, x.heldTime)]
    ++ (optionRows 4 x.unitPrice ++ (optionRows 3 x.massCeiling ++ [(3, x.lastMass)]))))))

theorem Monitor.bytes_eq_packed (m : Monitor) : m.bytes = packed m.rows := by
  simp only [bytes, rows, optOf, optCode_eq, packed_append, packed_optionRows, packed_byte, be_one,
    List.append_assoc, List.cons_append, List.nil_append]

theorem Session.bytes_eq_packed (x : Session) : x.bytes = packed x.rows := by
  simp only [bytes, rows, optOf, optCode_eq, Notice.endReasonByte_eq, Command.bytes_eq_packed, packed_append,
    packed_optionRows, packed_cons, packed_nil, be_one, List.append_assoc, List.cons_append, List.nil_append,
    List.append_nil]

theorem Command.sizes_sum (c : Command) : (c.rows.map Prod.fst).sum = 4 := by cases c <;> rfl

theorem optionRows_sizes_sum (w : Nat) (x : Option Nat) : ((optionRows w x).map Prod.fst).sum = w + 1 :=
  Nat.add_comm 1 w

theorem stand_positionBytes (s : State) (p : PosId) :
    Stand (s.positionBytes p) (placed 0 ((s.monitor p).rows ++ (s.session p).rows)) := by
  rw [State.positionBytes, Monitor.bytes_eq_packed, Session.bytes_eq_packed, ← packed_append]
  exact stand_packed _

theorem positionBytes_length (s : State) (p : PosId) : (s.positionBytes p).length = 82 := by
  rw [State.positionBytes, Monitor.bytes_eq_packed, Session.bytes_eq_packed, List.length_append, packed_length,
    packed_length]
  simp [Monitor.rows, Session.rows, optionRows, Command.sizes_sum]

theorem Command.three_rows (c : Command) : ∃ code bank ceiling, c.rows = [(1, code), (1, bank), (2, ceiling)] := by
  cases c <;> exact ⟨_, _, _, rfl⟩

/-- The fields of READ POSITION, by their places among the rows of the body. -/
theorem positionLaid (s : State) (p : PosId) : PositionLaid (s.positionBytes p) (s.monitor p) (s.session p) := by
  have stands := stand_positionBytes s p
  obtain ⟨code, bank, ceiling, command⟩ := (s.session p).command.three_rows
  simp only [Session.rows, command] at stands
  refine ⟨positionBytes_length s p, ?_, standMarked_of_stand ?_, commandAt_of_stand ?_⟩
  · rw [← factors_code_eq_bitsOf, ← sessionFlags_code_eq_bitsOf]
    exact stands.pick [0, 9, 10, 17, 22, 25, 26, 30, 31, 32, 33, 34, 35, 36, 37, 38, 39, 40, 41, 44, 45, 46, 51]
  · exact stands.pick [1, 2, 3, 4, 5, 6, 7, 8, 11, 12, 13, 14, 15, 16, 18, 19, 20, 21, 23, 24, 42, 43, 47, 48, 49, 50]
  · rw [command]
    exact stands.pick [27, 28, 29]

/-! ### READ BANKS -/

/-- The sizes and the numbers of one bank's 26 bytes (R173). -/
def State.bankRows (s : State) (b : BankId) : List (Nat × Nat) :=
  (1, b.val) :: (optionRows 2 (s.bank b).pressure ++ (optionRows 2 (s.bank b).temperature
    ++ (optionRows 4 (s.bank b).mass
    ++ ((1, s.bm.freshness.code) :: (1, (s.bank b).holder.code) :: (1, (s.bank b).queue.length)
    :: (placeRows 4 (s.bank b).queue ++ ((1, (s.bank b).proofState.code) :: (optionRows 4 (s.bank b).provenAt
    ++ [(1, if b ∈ s.bm.refillList then 1 else 0)])))))))

theorem bankBytes_eq_packed {s : State} {b : BankId} (h : (s.bank b).queue.length ≤ 4) :
    s.bankBytes b = packed (s.bankRows b) := by
  simp only [State.bankBytes, State.bankRows, places_eq_packed h, packed_append, packed_optionRows, packed_byte, packed_nil,
    be_one, boolCode, decide_eq_true_eq, List.append_assoc, List.cons_append, List.nil_append]

theorem bankBytes_length {s : State} {b : BankId} (h : (s.bank b).queue.length ≤ 4) : (s.bankBytes b).length = 26 := by
  rw [bankBytes_eq_packed h, packed_length]
  simp [State.bankRows, optionRows, placeRows_sizes_sum]

/-- The sizes and the numbers of the site's part of READ BANKS (R173). -/
def State.siteRows (s : State) : List (Nat × Nat) :=
  optionRows 2 s.bm.ambient ++ ((1, (s.bm.refillInFlight.map Fin.val).getD 255)
    :: (1, (s.bm.designation.map Fin.val).getD 255) :: (1, s.bm.refillList.length) :: placeRows 4 s.bm.refillList)

theorem banksBytes_eq {s : State} (h : s.bm.refillList.length ≤ 4) :
    s.banksBytes = (fourIds.map s.bankBytes).flatten ++ packed s.siteRows := by
  simp only [State.banksBytes, State.siteRows, optOf, optCode_eq, places_eq_packed h, packed_append, packed_optionRows,
    packed_byte, be_one, List.append_assoc, List.cons_append, List.nil_append]
  rfl

theorem fourIds_get (b : Fin 4) : fourIds[b.val]? = some b := by
  revert b
  decide

/-- Rows of one byte stand at successive offsets. -/
theorem mem_placed_bytes {n i : Nat} (lt : i < n) (off : Nat) (f : Nat → Nat) :
    (off + i, 1, f i) ∈ placed off ((List.range n).map fun i => (1, f i)) := by
  induction n generalizing off i f with
  | zero => omega
  | succ n ih =>
    rw [List.range_succ_eq_map, List.map_cons, List.map_map, placed]
    cases i with
    | zero => exact List.mem_cons_self
    | succ i =>
      rw [← Nat.add_assoc, Nat.add_right_comm]
      exact List.mem_cons_of_mem _ (ih (Nat.lt_of_succ_lt_succ lt) (off + 1) (f ∘ Nat.succ))

theorem placesAt_of_stand {body : List Byte} {off : Nat} {l : List (Fin 4)} (h : Stand body (placed off (placeRows 4 l))) :
    PlacesAt body off l := fun _ lt => h _ (mem_placed_bytes lt off fun i => (l[i]?.map Fin.val).getD 255)

section
variable {s : State} {b : BankId} {body : List Byte} {off : Nat} (h : Stand body (placed off (s.bankRows b)))
include h

theorem bankRows_numbers :
    Stand body
      [(off, 1, b.val), (off + 12, 1, s.bm.freshness.code), (off + 13, 1, (s.bank b).holder.code),
        (off + 14, 1, (s.bank b).queue.length), (off + 19, 1, (s.bank b).proofState.code),
        (off + 25, 1, if b ∈ s.bm.refillList then 1 else 0)] := h.pick [0, 7, 8, 9, 14, 17]

theorem bankRows_marked :
    StandMarked body
      [(off + 1, 2, (s.bank b).pressure), (off + 4, 2, (s.bank b).temperature), (off + 7, 4, (s.bank b).mass),
        (off + 20, 4, (s.bank b).provenAt)] := standMarked_of_stand (h.pick [1, 2, 3, 4, 5, 6, 15, 16])

theorem bankRows_places : PlacesAt body (off + 15) (s.bank b).queue := placesAt_of_stand (h.pick [10, 11, 12, 13])

end

section
variable {s : State} (queues : ∀ b, (s.bank b).queue.length ≤ 4)
include queues

theorem banks_flatten_length : (fourIds.map s.bankBytes).flatten.length = 104 := by
  simp [fourIds, bankBytes_length (queues _)]

variable (list : s.bm.refillList.length ≤ 4)
include list

theorem stand_bankRows (b : BankId) : Stand s.banksBytes (placed (26 * b.val) (s.bankRows b)) := by
  have chunk : (fourIds.map s.bankBytes)[b.val]? = some (packed (s.bankRows b)) := by
    rw [List.getElem?_map, fourIds_get]
    exact congrArg some (bankBytes_eq_packed (queues b))
  have len : ∀ c ∈ fourIds.map s.bankBytes, c.length = 26 := by
    intro c m
    obtain ⟨d, -, rfl⟩ := List.mem_map.mp m
    exact bankBytes_length (queues d)
  have stands := stand_chunk len chunk [] (packed s.siteRows)
  rwa [List.nil_append, ← banksBytes_eq list, List.length_nil, Nat.zero_add] at stands

theorem stand_siteRows : Stand s.banksBytes (placed 104 s.siteRows) := by
  rw [banksBytes_eq list, ← banks_flatten_length queues]
  exact stand_append_packed _ _

theorem banksBytes_length : s.banksBytes.length = 114 := by
  rw [banksBytes_eq list, List.length_append, banks_flatten_length queues, packed_length]
  simp [State.siteRows, optionRows, placeRows_sizes_sum]

/-- The fields of READ BANKS, by their places among the rows of each bank and of the site. -/
theorem banksLaid : BanksLaid s.banksBytes s where
  length := banksBytes_length queues list
  numbers b := bankRows_numbers (stand_bankRows queues list b)
  marked b := bankRows_marked (stand_bankRows queues list b)
  waiters b := bankRows_places (stand_bankRows queues list b)
  site := (stand_siteRows queues list).pick [2, 3, 4]
  ambient := standsIf_of_stand ((stand_siteRows queues list).pick [0, 1])
  list := placesAt_of_stand ((stand_siteRows queues list).pick [5, 6, 7, 8])

end

/-! ### READ COOLING -/

/-- The sizes and the numbers of a grant entry (R173). -/
def Grant.rows (g : Grant) : List (Nat × Nat) := [(1, g.pos.val), (2, g.demand), (2, g.limit)]

/-- The sizes and the numbers of a queue entry (R173). -/
def Waiter.rows (w : Waiter) : List (Nat × Nat) := [(1, w.pos.val), (2, w.demand), (2, w.limit), (2, w.timer)]

theorem Grant.bytes_eq_packed (g : Grant) : g.bytes = packed g.rows := by
  simp only [bytes, rows, packed_cons, packed_nil, List.append_assoc, List.append_nil]

theorem Waiter.bytes_eq_packed (w : Waiter) : w.bytes = packed w.rows := by
  simp only [bytes, rows, packed_cons, packed_nil, List.append_assoc, List.append_nil]

/-- The four chunks of a list of entries: those there are, then unused ones. -/
def entryChunks (size : Nat) (l : List (List Byte)) : List (List Byte) :=
  l ++ List.replicate (4 - l.length) (255 :: List.replicate (size - 1) 0)

theorem fourEntries_eq (size : Nat) (l : List (List Byte)) : fourEntries size l = (entryChunks size l).flatten := rfl

theorem entryChunks_lengths {size : Nat} {l : List (List Byte)} (pos : 1 ≤ size) (h : ∀ c ∈ l, c.length = size) :
    ∀ c ∈ entryChunks size l, c.length = size := by
  intro c m
  rcases List.mem_append.mp m with m | m
  · exact h c m
  · rw [List.eq_of_mem_replicate m, List.length_cons, List.length_replicate]
    omega

theorem entryChunks_used {size : Nat} {l : List (List Byte)} {i : Nat} {c : List Byte} (h : l[i]? = some c) :
    (entryChunks size l)[i]? = some c := by
  rw [entryChunks, List.getElem?_append_left (List.getElem?_eq_some_iff.mp h).1, h]

theorem entryChunks_unused {size : Nat} {l : List (List Byte)} {i : Nat} (lt : i < 4) (h : l[i]? = none) :
    (entryChunks size l)[i]? = some (packed [(1, 255), (size - 1, 0)]) := by
  have beyond := List.getElem?_eq_none_iff.mp h
  rw [entryChunks, List.getElem?_append_right beyond, List.getElem?_replicate, if_pos (by omega), packed_byte,
    packed_singleton, be_zero]
  rfl

theorem entryChunks_flatten_length {size : Nat} {l : List (List Byte)} (pos : 1 ≤ size) (short : l.length ≤ 4)
    (h : ∀ c ∈ l, c.length = size) : (entryChunks size l).flatten.length = 4 * size := by
  rw [List.length_flatten, List.map_congr_left (entryChunks_lengths pos h), List.map_const', List.sum_replicate,
    entryChunks, List.length_append, List.length_replicate, smul_eq_mul]
  congr 1
  omega

section
variable {s : State} (grants : s.cbu.grants.length ≤ 4) (queue : s.cbu.queue.length ≤ 4)

theorem grant_lengths (l : List Grant) : ∀ c ∈ l.map Grant.bytes, c.length = 5 := by
  intro c m
  obtain ⟨g, -, rfl⟩ := List.mem_map.mp m
  rw [Grant.bytes_eq_packed, packed_length]
  rfl

theorem waiter_lengths (l : List Waiter) : ∀ c ∈ l.map Waiter.bytes, c.length = 7 := by
  intro c m
  obtain ⟨g, -, rfl⟩ := List.mem_map.mp m
  rw [Waiter.bytes_eq_packed, packed_length]
  rfl

/-- The numbers before the grant entries. -/
def State.coolingRows (s : State) : List (Nat × Nat) :=
  [(2, s.cbu.capacity), (2, s.granted), (4, s.waitingDemand), (1, s.cbu.grants.length)]

/-- The bytes before the queue entries. -/
def State.coolingFront (s : State) : List Byte :=
  packed s.coolingRows ++ ((entryChunks 5 (s.cbu.grants.map Grant.bytes)).flatten ++ packed [(1, s.cbu.queue.length)])

theorem coolingBytes_grants (s : State) :
    s.coolingBytes = packed s.coolingRows ++ ((entryChunks 5 (s.cbu.grants.map Grant.bytes)).flatten
      ++ (packed [(1, s.cbu.queue.length)] ++ (entryChunks 7 (s.cbu.queue.map Waiter.bytes)).flatten)) := by
  simp only [State.coolingBytes, State.coolingRows, fourEntries_eq, packed_cons, packed_nil, List.append_assoc,
    List.append_nil]

theorem coolingBytes_queue (s : State) :
    s.coolingBytes = s.coolingFront ++ ((entryChunks 7 (s.cbu.queue.map Waiter.bytes)).flatten ++ []) := by
  rw [coolingBytes_grants, State.coolingFront, List.append_nil, List.append_assoc, List.append_assoc]

theorem coolingRows_length (s : State) : (packed s.coolingRows).length = 9 := by
  rw [packed_length]
  rfl

include grants in
theorem coolingFront_length : s.coolingFront.length = 30 := by
  rw [State.coolingFront, List.length_append, coolingRows_length, List.length_append,
    entryChunks_flatten_length (by decide) (by rwa [List.length_map]) (grant_lengths _), packed_length]
  rfl

include grants in
theorem stand_queueLength : StandsAt s.coolingBytes 29 1 s.cbu.queue.length := by
  have front : (packed s.coolingRows ++ (entryChunks 5 (s.cbu.grants.map Grant.bytes)).flatten).length = 29 := by
    rw [List.length_append, coolingRows_length,
      entryChunks_flatten_length (by decide) (by rwa [List.length_map]) (grant_lengths _)]
  have stands := stand_within (packed s.coolingRows ++ (entryChunks 5 (s.cbu.grants.map Grant.bytes)).flatten)
    [(1, s.cbu.queue.length)] (entryChunks 7 (s.cbu.queue.map Waiter.bytes)).flatten
  rw [front, List.append_assoc, ← coolingBytes_grants] at stands
  exact stands _ List.mem_cons_self

theorem stand_grantChunk {i : Nat} {rows : List (Nat × Nat)}
    (e : (entryChunks 5 (s.cbu.grants.map Grant.bytes))[i]? = some (packed rows)) :
    Stand s.coolingBytes (placed (9 + 5 * i) rows) := by
  rw [coolingBytes_grants, ← coolingRows_length s]
  exact stand_chunk (entryChunks_lengths (by decide) (grant_lengths _)) e _ _

include grants in
theorem stand_waiterChunk {i : Nat} {rows : List (Nat × Nat)}
    (e : (entryChunks 7 (s.cbu.queue.map Waiter.bytes))[i]? = some (packed rows)) :
    Stand s.coolingBytes (placed (30 + 7 * i) rows) := by
  rw [coolingBytes_queue, ← coolingFront_length grants]
  exact stand_chunk (entryChunks_lengths (by decide) (waiter_lengths _)) e _ _

include grants queue in
/-- The fields of READ COOLING: the numbers before the entries, and the entries one by one. -/
theorem coolingLaid : CoolingLaid s.coolingBytes s.cbu where
  length := by
    rw [coolingBytes_queue, List.append_nil, List.length_append, coolingFront_length grants,
      entryChunks_flatten_length (by decide) (by rwa [List.length_map]) (waiter_lengths _)]
  numbers := by
    have stands := stand_within [] s.coolingRows ((entryChunks 5 (s.cbu.grants.map Grant.bytes)).flatten
      ++ (packed [(1, s.cbu.queue.length)] ++ (entryChunks 7 (s.cbu.queue.map Waiter.bytes)).flatten))
    rw [List.nil_append, ← coolingBytes_grants] at stands
    intro r m
    rcases List.mem_append.mp (show r ∈ placed 0 s.coolingRows ++ [(29, 1, s.cbu.queue.length)] from m) with m | m
    · exact stands r m
    · rw [List.mem_singleton.mp m]
      exact stand_queueLength grants
  grants i lt := by
    have second : 10 + 5 * i = 9 + 5 * i + 1 := by omega
    have third : 12 + 5 * i = 9 + 5 * i + 1 + 2 := by omega
    rw [second, third]
    cases e : s.cbu.grants[i]? with
    | some g =>
      refine stand_grantChunk (s := s) (rows := g.rows) (entryChunks_used ?_)
      rw [List.getElem?_map, e, ← Grant.bytes_eq_packed]
      rfl
    | none =>
      refine stand_grantChunk (s := s) (rows := [(1, 255), (4, 0)]) (entryChunks_unused lt ?_)
      rw [List.getElem?_map, e]
      rfl
  waiters i lt := by
    have second : 31 + 7 * i = 30 + 7 * i + 1 := by omega
    have third : 33 + 7 * i = 30 + 7 * i + 1 + 2 := by omega
    have fourth : 35 + 7 * i = 30 + 7 * i + 1 + 2 + 2 := by omega
    rw [second, third, fourth]
    cases e : s.cbu.queue[i]? with
    | some w =>
      refine stand_waiterChunk grants (rows := w.rows) (entryChunks_used ?_)
      rw [List.getElem?_map, e, ← Waiter.bytes_eq_packed]
      rfl
    | none =>
      refine stand_waiterChunk grants (rows := [(1, 255), (6, 0)]) (entryChunks_unused lt ?_)
      rw [List.getElem?_map, e]
      rfl

end

/-! ### The requests that give them -/

theorem readPositionNamed_of_position (s : State) (p : PosId) :
    readPositionNamed p.val s = doneWith (s.positionBytes p) s := by
  rw [readPositionNamed, fourOf?_val]

theorem readPositionNamed_of_unknown {s : State} {n : Nat} (h : 4 ≤ n) :
    readPositionNamed n s = refuse .outOfRange s := by
  rw [readPositionNamed, fourOf?_eq_none h]

/-- Settles O28: each request gives its body, and the body's rows stand where R173 puts them. -/
theorem readsGiveTheStateAsItStands : Obligations.ReadsGiveTheStateAsItStands := by
  refine ⟨fun p tag s k => ?_, fun x tag s k => ?_, fun q tag s port k => ?_, fun tag s k => ?_,
    fun s => ⟨positionLaid s, banksLaid, coolingLaid⟩, rfl, rfl, rfl, rfl, rfl, rfl, rfl, rfl, rfl, rfl, rfl,
    fun p => rfl, rfl⟩
  · exact exec_answers_of_wireForm (Laws.WireForm.readPosition (.dispenser p) tag none) rfl rfl k rfl
  · have answers {c : Code} {body : List Byte} :=
      exec_answers_of_wireForm (t := s) (c := c) (body := body) (Laws.WireForm.readPosition .supervisor tag (some x)) rfl
        rfl k
    refine ⟨fun p named => ?_, fun large => answers (readPositionNamed_of_unknown large)⟩
    have given := readPositionNamed_of_position (s.taking (readPositionFrame .supervisor tag (some x))) p
    rw [← named] at given
    exact answers given
  · have sent : (Instr.readBanks q tag).wellFormed = true := by
      obtain rfl | rfl := port <;> rfl
    exact exec_answers_of_wireForm (Laws.WireForm.readBanks q tag) sent rfl k rfl
  · exact exec_answers_of_wireForm (Laws.WireForm.readCooling tag) rfl rfl k rfl

/-! ### READ SITE -/

theorem countP_toList {α : Type} (q : Quad (Option α)) :
    q.toList.countP (·.isSome) = (fourIds.filter fun i => (q.get i).isSome).length := by
  have listed : q.toList = fourIds.map q.get := rfl
  rw [listed, List.countP_map, List.countP_eq_length_filter]
  rfl

theorem boolCodes_eq {α : Type} (a b : Option α) :
    boolCode a.isSome + boolCode b.isSome = ([a, b].filter (·.isSome)).length := by cases a <;> cases b <;> rfl

theorem loadedCounts_eq (c : SiteConfig) : c.loadedCounts = c.loaded := by
  simp only [SiteConfig.loadedCounts, SiteConfig.loaded, countP_toList, Nat.add_assoc, boolCodes_eq]
  rw [List.countP_eq_length_filter, List.countP_eq_length_filter]

/-- Five counts of loaded entries, 255 each where there is no such configuration (R173). -/
def countRows (c : Option SiteConfig) : List (Nat × Nat) :=
  (List.range 5).map fun i => (1, (c.map fun c => c.loaded.getD i 0).getD 255)

theorem countBytes_eq_packed (c : Option SiteConfig) : countBytes c = packed (countRows c) := by
  cases c with
  | none => rfl
  | some c =>
    have rows : countRows (some c) = c.loaded.map fun n => (1, n) := rfl
    have bytes (l : List Nat) : packed (l.map fun n => (1, n)) = l.map byteOf := by
      induction l with
      | nil => rfl
      | cons n l ih => rw [List.map_cons, packed_byte, ih, List.map_cons]
    rw [countBytes, loadedCounts_eq, rows, bytes]

/-- The sizes and the numbers of the summary (R173). -/
def State.summaryRows (s : State) : List (Nat × Nat) :=
  (1, s.site.mode.code) :: (1, (s.site.haltCause.map HaltCause.code).getD 255)
    :: (countRows (some s.site.config) ++ (countRows s.site.working ++ (optionRows 4 s.site.commissionedAt
    ++ ((4, s.site.siteTime) :: (1, s.site.priceBand.code) :: (1, s.site.ambientBand) :: optionRows 2 s.bm.ambient))))

theorem summaryBytes_eq_packed (s : State) : s.summaryBytes = packed s.summaryRows := by
  simp only [State.summaryBytes, State.summaryRows, optOf, optCode_eq, countBytes_eq_packed, packed_append,
    packed_optionRows, packed_cons, be_one, List.append_assoc, List.cons_append, List.nil_append]

theorem stand_summaryRows (s : State) : Stand s.summaryBytes (placed 0 s.summaryRows) := by
  rw [summaryBytes_eq_packed]
  exact stand_packed _

/-- The fields of the summary, by their places among the rows of the body. -/
theorem summaryLaid (s : State) : SummaryLaid s.summaryBytes s where
  length := by
    rw [summaryBytes_eq_packed, packed_length]
    simp [State.summaryRows, countRows, optionRows, Function.comp_def]
  numbers := (stand_summaryRows s).pick [0, 1, 14, 15, 16]
  inForce i lt := by
    have stands : Stand s.summaryBytes (placed 2 (countRows (some s.site.config))) :=
      (stand_summaryRows s).pick [2, 3, 4, 5, 6]
    exact stands _ (mem_placed_bytes lt 2 fun i => s.site.config.loaded.getD i 0)
  working i lt := by
    have stands : Stand s.summaryBytes (placed 7 (countRows s.site.working)) :=
      (stand_summaryRows s).pick [7, 8, 9, 10, 11]
    exact stands _ (mem_placed_bytes lt 7 fun i => (s.site.working.map fun c => c.loaded.getD i 0).getD 255)
  marked := standMarked_of_stand ((stand_summaryRows s).pick [12, 13, 17, 18])

theorem readableEntry_iff (table index : Nat) :
    readableEntry table index = true ↔ table ≤ 4 ∧ index < [25, 48, 6, 4, 24].getD table 0 := by
  unfold readableEntry tableSize
  match table with
  | 0 | 1 | 2 | 3 | 4 | 5 => simp
  | n + 6 => simp

section
variable {s : State} {table index copy : Nat}

theorem readSiteRequest_of_selector {n : Nat} (h : 1 < n) : readSiteRequest n table index copy s = refuse .outOfRange s := by
  unfold readSiteRequest
  rw [if_neg (by omega), if_pos h]

theorem readSiteRequest_of_unknown
    (h : ¬(table ≤ 4 ∧ copy ≤ 1 ∧ index < [25, 48, 6, 4, 24].getD table 0)) :
    readSiteRequest 1 table index copy s = refuse .outOfRange s := by
  unfold readSiteRequest
  rw [if_neg (by decide), if_neg (by decide), if_pos]
  by_contra known
  simp only [Bool.or_eq_true, Bool.not_eq_true', decide_eq_true_eq, not_or, Bool.not_eq_false, not_lt,
    readableEntry_iff] at known
  exact h ⟨known.1.1, known.2, known.1.2⟩

variable (known : table ≤ 4 ∧ copy ≤ 1 ∧ index < [25, 48, 6, 4, 24].getD table 0)
include known

theorem readable_of_known : ¬(!readableEntry table index || decide (1 < copy)) = true := by
  have readable : readableEntry table index = true := (readableEntry_iff _ _).mpr ⟨known.1, known.2.2⟩
  simp [readable, known.2.1]

theorem readSiteRequest_inForce (h : copy = 0) :
    readSiteRequest 1 table index copy s = readEntry s.site.config table index s := by
  unfold readSiteRequest
  rw [if_neg (by decide), if_neg (by decide), if_neg (readable_of_known known), if_pos h]

theorem readSiteRequest_working {c : SiteConfig} (h : copy = 1) (mode : s.site.mode = .service)
    (working : s.site.working = some c) : readSiteRequest 1 table index copy s = readEntry c table index s := by
  unfold readSiteRequest
  rw [if_neg (by decide), if_neg (by decide), if_neg (readable_of_known known), if_neg (by omega), mode, working]

theorem readSiteRequest_noWorking (h : copy = 1) (closed : s.site.mode ≠ .service ∨ s.site.working = none) :
    readSiteRequest 1 table index copy s = refuse .wrongState s := by
  unfold readSiteRequest
  rw [if_neg (by decide), if_neg (by decide), if_neg (readable_of_known known), if_neg (by omega)]
  split
  next c mode working => exact absurd (closed.resolve_left (not_not.mpr mode)) (by rw [working]; nofun)
  next => rfl

end

theorem readEntry_of_loaded {c : SiteConfig} {table index : Nat} {e : List Byte} {s : State}
    (h : c.entryBytes table index = some e) : readEntry c table index s = doneWith e s := by rw [readEntry, h]

theorem readEntry_of_missing {c : SiteConfig} {table index : Nat} {s : State} (h : c.entryBytes table index = none) :
    readEntry c table index s = refuse .notFound s := by rw [readEntry, h]

/-- Settles O30: the summary's rows, and one case for each outcome of the request. -/
theorem readSiteGivesSummaryOrEntry : Obligations.ReadSiteGivesSummaryOrEntry := by
  refine ⟨summaryLaid, rfl, rfl, fun tag selector table index copy s k => ?_⟩
  intro answers gives known
  have answer {c : Code} {body : List Byte} :=
    exec_answers_of_wireForm (t := s) (c := c) (body := body) (Laws.WireForm.readSite tag selector table index copy) rfl
      rfl k
  have entry (c : SiteConfig) (e : readSiteRequest selector.toNat table.toNat index.toNat copy.toNat
      (s.taking (readSiteFrame tag selector table index copy)) = readEntry c table.toNat index.toNat
        (s.taking (readSiteFrame tag selector table index copy))) : gives c :=
    ⟨fun b loaded => answer (e.trans (readEntry_of_loaded loaded)),
      fun missing => answer (e.trans (readEntry_of_missing missing))⟩
  refine ⟨fun summary => ?_, fun h => answer (readSiteRequest_of_selector h), fun one unknown => ?_,
    fun one known force => entry _ ?_, fun one known working => ⟨fun c mode held => entry _ ?_, fun closed => ?_⟩⟩
  · rw [summary] at answer
    exact answer rfl
  · rw [one] at answer
    exact answer (readSiteRequest_of_unknown unknown)
  · rw [one]
    exact readSiteRequest_inForce known force
  · rw [one]
    exact readSiteRequest_working known working mode held
  · rw [one] at answer
    exact answer (readSiteRequest_noWorking known working closed)

end Sys2Proof.Machine
end

section
/-! SUPPORT. What LOAD TABLE writes, and that a density row and a profile are read back as they were loaded (R26 to R31,
R173). -/

namespace Sys2Proof.Machine

set_option Elab.async false

/-! ### Fields of an entry -/

/-- The bytes of a number are those of its remainder. -/
theorem be_add_mul (w a n : Nat) : be w (a * 256 ^ w + n) = be w n := by
  induction w generalizing a with
  | zero => rfl
  | succ w ih =>
    have shift : a * 256 ^ (w + 1) = a * 256 * 256 ^ w := by ring
    have byte : byteOf (a * 256 + n / 256 ^ w) = byteOf (n / 256 ^ w) := by
      refine BitVec.eq_of_toNat_eq ?_
      simp only [byteOf, BitVec.toNat_ofNat]
      omega
    have pos : 0 < 256 ^ w := Nat.pow_pos (by decide)
    rw [be, be, shift, ih, Nat.add_comm, Nat.add_mul_div_right _ _ pos, Nat.add_comm, byte]

theorem unbe_cons (b : Byte) (l : List Byte) : unbe (b :: l) = b.toNat * 256 ^ l.length + unbe l := by
  have one : unbe [b] = b.toNat := by simp [unbe]
  rw [show b :: l = [b] ++ l from rfl, unbe_append, one]

theorem unbe_lt (l : List Byte) : unbe l < 256 ^ l.length := by
  induction l with
  | nil => exact Nat.one_pos
  | cons b l ih =>
    rw [unbe_cons, List.length_cons, pow_succ]
    have small : b.toNat < 256 := b.isLt
    calc b.toNat * 256 ^ l.length + unbe l < (b.toNat + 1) * 256 ^ l.length := by
          rw [Nat.add_mul, Nat.one_mul]
          exact Nat.add_lt_add_left ih _
      _ ≤ 256 ^ l.length * 256 := by
          rw [Nat.mul_comm]
          exact Nat.mul_le_mul_left _ small

theorem be_unbe (l : List Byte) : be l.length (unbe l) = l := by
  induction l with
  | nil => rfl
  | cons b l ih =>
    have pos : 0 < 256 ^ l.length := Nat.pow_pos (by decide)
    have byte : byteOf ((b.toNat * 256 ^ l.length + unbe l) / 256 ^ l.length) = b := by
      rw [Nat.add_comm, Nat.add_mul_div_right _ _ pos, Nat.div_eq_of_lt (unbe_lt l), Nat.zero_add]
      simp [byteOf]
    rw [unbe_cons, List.length_cons, be, be_add_mul, ih, byte]

/-- The rows of a body from an offset on, with fields of the sizes given. -/
def fieldRows (e : List Byte) : Nat → List Nat → List (Nat × Nat)
  | _, [] => []
  | off, w :: sizes => (w, field e off w) :: fieldRows e (off + w) sizes

theorem packed_fieldRows (e : List Byte) (sizes : List Nat) (off : Nat) (fits : off + sizes.sum ≤ e.length) :
    packed (fieldRows e off sizes) = (e.drop off).take sizes.sum := by
  induction sizes generalizing off with
  | nil => rfl
  | cons w sizes ih =>
    rw [List.sum_cons] at fits ⊢
    have chunk : be w (field e off w) = (e.drop off).take w := by
      have len : ((e.drop off).take w).length = w := by
        rw [List.length_take, List.length_drop]
        omega
      have spelt := be_unbe ((e.drop off).take w)
      rwa [len] at spelt
    rw [fieldRows, packed_cons, chunk, ih (off + w) (by omega), List.take_add, List.drop_drop]

theorem packed_fieldRows_all {e : List Byte} {sizes : List Nat} (fits : sizes.sum = e.length) :
    packed (fieldRows e 0 sizes) = e := by
  rw [packed_fieldRows e sizes 0 (by omega), List.drop_zero, fits, List.take_length]

theorem padEntry_full {l : List Byte} (h : l.length = 32) : padEntry l = l := by
  rw [padEntry, h]
  exact List.append_nil l

/-! ### Density rows and profiles -/

theorem densityRowBytes_read {e : List Byte} (whole : e.length = 32) : densityRowBytes (readDensityRow e) = e := by
  have rows : (readDensityRow e).flatMap (be 2) = packed (fieldRows e 0 (List.replicate 16 2)) := rfl
  have spelt : packed (fieldRows e 0 (List.replicate 16 2)) = e := packed_fieldRows_all whole.symm
  rw [densityRowBytes, rows, spelt, padEntry_full whole]

/-- The profile whose fields an entry gives (R28, R173). -/
def givenProfile (entry : List Byte) : Profile where
  permitted := decide (field entry 0 1 = 1)
  rampRate := field entry 1 2
  endPressure := field entry 3 2
  nonCommEndPressure := field entry 5 2
  socTarget := field entry 7 2
  segmentLength := field entry 9 1
  settleInterval := field entry 10 1
  leakCheckHold := field entry 11 1
  leakDropLimit := field entry 12 2
  overshoot := field entry 14 2
  switchMargin := field entry 16 2
  warmGrace := field entry 18 2
  resumeDelay := field entry 20 2
  holdLimit := field entry 22 2
  coolingDemand := field entry 24 2
  coolingWaitLimit := field entry 26 2
  closingAnticipation := field entry 28 2
  vehicleDataMandatory := decide (field entry 30 1 = 1)
  degradeTo := if field entry 31 1 = 255 then none else some (field entry 31 1)

theorem boolOf?_some {n : Nat} {b : Bool} (h : boolOf? n = some b) : n ≤ 1 ∧ b = decide (n = 1) := by
  match n with
  | 0 | 1 =>
    cases h
    exact ⟨by decide, rfl⟩
  | _ + 2 => exact nomatch h

theorem boolOf?_of_le {n : Nat} (h : n ≤ 1) : boolOf? n = some (decide (n = 1)) := by
  obtain rfl | rfl := Nat.le_one_iff_eq_zero_or_eq_one.mp h <;> rfl

theorem boolCode_decide {n : Nat} (h : n ≤ 1) : boolCode (decide (n = 1)) = n := by
  obtain rfl | rfl := Nat.le_one_iff_eq_zero_or_eq_one.mp h <;> rfl

theorem inRange_eq {lo hi n m : Nat} (h : inRange lo hi n = some m) : m = n := by
  unfold inRange at h
  split at h
  · exact (Option.some.inj h).symm
  · exact nomatch h

theorem inRange_of {lo hi n : Nat} (low : lo ≤ n) (high : n ≤ hi) : inRange lo hi n = some n := if_pos ⟨low, high⟩

theorem readDegrade_eq {i n : Nat} {o : Option Nat} (h : readDegrade i n = some o) :
    o = if n = 255 then none else some n := by
  unfold readDegrade at h
  split at h
  next absent =>
    rw [if_pos absent]
    exact (Option.some.inj h).symm
  next present =>
    rw [if_neg present]
    split at h
    · exact (Option.some.inj h).symm
    · exact nomatch h

theorem readDegrade_of {i n : Nat} (h : ∀ k, (if n = 255 then none else some n) = some k →
    i < k ∧ k % 6 = i % 6 ∧ k / 24 = i / 24 ∧ k < 48) :
    readDegrade i n = some (if n = 255 then none else some n) := by
  unfold readDegrade
  split
  next => rfl
  next present =>
    obtain ⟨later, band, cls, bound⟩ := h n (if_neg present)
    rw [if_pos]
    simp only [degradeAccepted, Bool.and_eq_true, decide_eq_true_eq, beq_iff_eq]
    omega

/-- A profile read from an entry is the one that its fields give. -/
theorem readProfile_given {i : Nat} {e : List Byte} {f : Profile} (h : readProfile i e = some f) :
    f = givenProfile e ∧ field e 0 1 ≤ 1 ∧ field e 30 1 ≤ 1 := by
  unfold readProfile at h
  obtain ⟨permitted, h0, h⟩ := Option.bind_eq_some_iff.mp h
  obtain ⟨rampRate, h1, h⟩ := Option.bind_eq_some_iff.mp h
  obtain ⟨endPressure, h2, h⟩ := Option.bind_eq_some_iff.mp h
  obtain ⟨nonComm, h3, h⟩ := Option.bind_eq_some_iff.mp h
  obtain ⟨soc, h4, h⟩ := Option.bind_eq_some_iff.mp h
  obtain ⟨segment, h5, h⟩ := Option.bind_eq_some_iff.mp h
  obtain ⟨settle, h6, h⟩ := Option.bind_eq_some_iff.mp h
  obtain ⟨leak, h7, h⟩ := Option.bind_eq_some_iff.mp h
  obtain ⟨drop, h8, h⟩ := Option.bind_eq_some_iff.mp h
  obtain ⟨shoot, h9, h⟩ := Option.bind_eq_some_iff.mp h
  obtain ⟨switch, h10, h⟩ := Option.bind_eq_some_iff.mp h
  obtain ⟨warm, h11, h⟩ := Option.bind_eq_some_iff.mp h
  obtain ⟨resume, h12, h⟩ := Option.bind_eq_some_iff.mp h
  obtain ⟨hold, h13, h⟩ := Option.bind_eq_some_iff.mp h
  obtain ⟨demand, h14, h⟩ := Option.bind_eq_some_iff.mp h
  obtain ⟨wait, h15, h⟩ := Option.bind_eq_some_iff.mp h
  obtain ⟨anticipation, h16, h⟩ := Option.bind_eq_some_iff.mp h
  obtain ⟨mandatory, h17, h⟩ := Option.bind_eq_some_iff.mp h
  obtain ⟨degrade, h18, h⟩ := Option.bind_eq_some_iff.mp h
  cases h
  rw [givenProfile, ← (boolOf?_some h0).2, ← inRange_eq h1, ← inRange_eq h2, ← inRange_eq h3, ← inRange_eq h4,
    ← inRange_eq h5, ← inRange_eq h6, ← inRange_eq h7, ← inRange_eq h8, ← inRange_eq h9, ← inRange_eq h10,
    ← inRange_eq h11, ← inRange_eq h12, ← inRange_eq h13, ← inRange_eq h14, ← inRange_eq h15, ← inRange_eq h16,
    ← (boolOf?_some h17).2, ← readDegrade_eq h18]
  exact ⟨rfl, (boolOf?_some h0).1, (boolOf?_some h17).1⟩

/-- An entry whose fields lie in their ranges is read as the profile that they give. -/
theorem readProfile_of_inRange {i : Nat} {e : List Byte} (permitted : field e 0 1 ≤ 1) (mandatory : field e 30 1 ≤ 1)
    (h : (givenProfile e).InRange i) : readProfile i e = some (givenProfile e) := by
  have demand : field e 24 2 ≤ demandLimit i := by
    unfold demandLimit
    split
    next warmest => exact (h.warmest warmest).le
    next => exact h.coolingDemand
  have degrade := readDegrade_of (i := i) (n := field e 31 1) h.degradeTo
  have rampRate := inRange_of h.rampRate.1 h.rampRate.2
  have endPressure := inRange_of h.endPressure.1 h.endPressure.2
  have nonComm := inRange_of h.nonCommEndPressure.1 h.nonCommEndPressure.2
  have soc := inRange_of h.socTarget.1 h.socTarget.2
  have segment := inRange_of h.segmentLength.1 h.segmentLength.2
  have settle := inRange_of (Nat.zero_le _) h.settleInterval
  have leak := inRange_of h.leakCheckHold.1 h.leakCheckHold.2
  have drop := inRange_of h.leakDropLimit.1 h.leakDropLimit.2
  have shoot := inRange_of (Nat.zero_le _) h.overshoot
  have switch := inRange_of h.switchMargin.1 h.switchMargin.2
  have warm := inRange_of (Nat.zero_le _) h.warmGrace
  have resume := inRange_of (Nat.zero_le _) h.resumeDelay
  have hold := inRange_of h.holdLimit.1 h.holdLimit.2
  have wait := inRange_of (Nat.zero_le _) h.coolingWaitLimit
  have anticipation := inRange_of (Nat.zero_le _) h.closingAnticipation
  simp only [givenProfile] at rampRate endPressure nonComm soc segment settle leak drop shoot switch warm resume hold wait
  simp only [givenProfile] at anticipation
  simp only [readProfile, boolOf?_of_le permitted, rampRate, endPressure, nonComm, soc, segment, settle, leak, drop, shoot,
    switch, warm, resume, hold, inRange_of (Nat.zero_le _) demand, wait, anticipation, boolOf?_of_le mandatory, degrade,
    Option.bind_eq_bind, Option.bind_some, Option.pure_def]
  rfl

theorem readProfile_eq_none {i : Nat} {e : List Byte}
    (h : ¬(field e 0 1 ≤ 1 ∧ field e 30 1 ≤ 1 ∧ (givenProfile e).InRange i)) : readProfile i e = none := by
  rw [Option.eq_none_iff_forall_ne_some]
  intro f read
  obtain ⟨rfl, permitted, mandatory⟩ := readProfile_given read
  exact h ⟨permitted, mandatory, readProfile_inRange read⟩

theorem profileBytes_given {e : List Byte} (whole : e.length = 32) (permitted : field e 0 1 ≤ 1)
    (mandatory : field e 30 1 ≤ 1) : profileBytes (givenProfile e) = e := by
  have degrade : [optCode (givenProfile e).degradeTo] = be 1 (field e 31 1) := by
    rw [optCode_eq, be_one, givenProfile]
    by_cases absent : field e 31 1 = 255
    · simp only [if_pos absent]
      rw [absent]
      rfl
    · simp only [if_neg absent]
      rfl
  have spelt : packed (fieldRows e 0 [1, 2, 2, 2, 2, 1, 1, 1, 2, 2, 2, 2, 2, 2, 2, 2, 2, 1, 1]) = e :=
    packed_fieldRows_all whole.symm
  rw [profileBytes, degrade]
  simp only [givenProfile, boolCode_decide permitted, boolCode_decide mandatory]
  simp only [fieldRows, packed_cons, packed_nil, Nat.reduceAdd, List.append_nil] at spelt
  simp only [List.append_assoc, spelt]
  exact padEntry_full whole

/-! ### Bank entries, cascade lists, positions and parameters -/

/-- A bank entry read from an entry is the one that its fields give. -/
theorem readBankEntry_given {e : List Byte} {x : BankEntry} (h : readBankEntry e = some x) :
    x = ⟨field e 0 2, field e 2 2, field e 4 2, field e 6 2⟩ := by
  unfold readBankEntry at h
  simp only [Option.bind_eq_bind, Option.bind_eq_some_iff, Option.pure_def, Option.some.injEq] at h
  obtain ⟨volume, h1, rated, h2, stop, h3, start, h4, rfl⟩ := h
  rw [← inRange_eq h1, ← inRange_eq h2, ← inRange_eq h3, ← inRange_eq h4]

theorem readBankEntry_of_inRange {e : List Byte} (h : BankEntry.InRange ⟨field e 0 2, field e 2 2, field e 4 2, field e 6 2⟩) :
    readBankEntry e = some ⟨field e 0 2, field e 2 2, field e 4 2, field e 6 2⟩ := by
  obtain ⟨⟨v1, v2⟩, ⟨r1, r2⟩, below, within⟩ := h
  dsimp only at v1 v2 r1 r2 below within
  have stop : inRange 1 (field e 2 2) (field e 6 2) = some (field e 6 2) := inRange_of (by omega) within
  have start : inRange 0 (field e 6 2 - 1) (field e 4 2) = some (field e 4 2) := inRange_of (Nat.zero_le _) (by omega)
  simp only [readBankEntry, inRange_of v1 v2, inRange_of r1 r2, stop, start, Option.bind_eq_bind, Option.bind_some,
    Option.pure_def]

theorem mapM_fourOf_of {bytes : List Byte} {l : List BankId} (h : bytes = l.map fun b => byteOf b.val) :
    bytes.mapM (fun b => fourOf? b.toNat) = some l := by
  subst h
  induction l with
  | nil => rfl
  | cons b l ih =>
    have named : fourOf? (byteOf b.val).toNat = some b := by rw [byteOf_toNat _ (by omega), fourOf?_val]
    simp [List.mapM_cons, named, ih]

theorem mapM_fourOf_eq_none {bytes : List Byte} (h : ∃ x ∈ bytes, 4 ≤ x.toNat) :
    bytes.mapM (fun b => fourOf? b.toNat) = none := by
  induction bytes with
  | nil =>
    obtain ⟨x, m, -⟩ := h
    exact absurd m List.not_mem_nil
  | cons b bytes ih =>
    obtain ⟨x, m, large⟩ := h
    rw [List.mapM_cons]
    rcases List.mem_cons.mp m with rfl | tail
    · rw [fourOf?_eq_none large]
      rfl
    · rw [ih ⟨x, tail, large⟩]
      cases fourOf? b.toNat <;> rfl

theorem readCascade_of {e : List Byte} {l : List BankId} (some : 1 ≤ l.length) (short : l.length ≤ 4)
    (count : field e 0 1 = l.length) (named : (e.drop 1).take l.length = l.map fun b => byteOf b.val) :
    readCascade e = if l.Nodup then Option.some l else none := by
  have counted : inRange 1 4 (field e 0 1) = Option.some l.length := by rw [count]; exact inRange_of some short
  simp only [readCascade, counted, Option.bind_eq_bind, Option.bind_some, mapM_fourOf_of named]

theorem readCascade_eq_none {e : List Byte} (h : field e 0 1 = 0 ∨ 4 < field e 0 1
    ∨ ∃ x ∈ (e.drop 1).take (field e 0 1), 4 ≤ x.toNat) : readCascade e = none := by
  unfold readCascade
  by_cases counted : 1 ≤ field e 0 1 ∧ field e 0 1 ≤ 4
  · have unnamed : ∃ x ∈ (e.drop 1).take (field e 0 1), 4 ≤ x.toNat := by
      rcases h with h | h | h
      · omega
      · omega
      · exact h
    simp only [inRange_of counted.1 counted.2, Option.bind_eq_bind, Option.bind_some, mapM_fourOf_eq_none unnamed,
      Option.bind_none]
  · have out : inRange 1 4 (field e 0 1) = none := if_neg counted
    simp only [out, Option.bind_eq_bind, Option.bind_none]

theorem fuelClassOf?_code (f : FuelClass) : fuelClassOf? f.code = some f := by cases f <;> rfl

theorem fuelClassOf?_eq_none {n : Nat} (h : 1 < n) : fuelClassOf? n = none := by
  obtain ⟨m, rfl⟩ := Nat.exists_eq_add_of_le' h
  rfl

theorem boolOf?_eq_none {n : Nat} (h : 1 < n) : boolOf? n = none := by
  obtain ⟨m, rfl⟩ := Nat.exists_eq_add_of_le' h
  rfl

theorem readPositionEntry_of {e : List Byte} {f : FuelClass} (enabled : field e 0 1 ≤ 1) (cls : field e 1 1 = f.code) :
    readPositionEntry e = some ⟨decide (field e 0 1 = 1), f⟩ := by
  simp only [readPositionEntry, boolOf?_of_le enabled, cls, fuelClassOf?_code, Option.bind_eq_bind, Option.bind_some,
    Option.pure_def]

theorem readPositionEntry_eq_none {e : List Byte} (h : 1 < field e 0 1 ∨ 1 < field e 1 1) : readPositionEntry e = none := by
  unfold readPositionEntry
  rcases h with h | h
  · simp only [boolOf?_eq_none h, Option.bind_eq_bind, Option.bind_none]
  · simp only [fuelClassOf?_eq_none h, Option.bind_eq_bind, Option.bind_none]
    cases boolOf? (field e 0 1) <;> rfl

theorem readParam_eq {i : Nat} (lt : i < 24) (e : List Byte) :
    readParam i e = inRange (paramRanges.getD i (0, 0)).1 (paramRanges.getD i (0, 0)).2 (field e 0 4) := by
  have listed : paramRanges[i]? = some (paramRanges.getD i (0, 0)) := by
    rw [List.getD_eq_getElem _ _ lt, List.getElem?_eq_getElem lt]
  rw [readParam, listed]

/-! ### One entry loaded -/

section
variable {c : SiteConfig} {i : Nat} {e : List Byte}

theorem load_profile : c.load 1 i e = (readProfile i e).map fun x => { c with profiles := c.profiles.set i (some x) } := rfl

theorem load_bank (b : BankId) :
    c.load 2 b.val e = (readBankEntry e).map fun x => { c with banks := c.banks.set b (some x) } := by
  show (match fourOf? b.val with | some b => _ | none => _) = _
  rw [fourOf?_val]

theorem load_cascade (h : i = 4 ∨ i = 5) :
    c.load 2 i e =
      (readCascade e).map fun l => if i = 4 then { c with cascadeH70 := some l } else { c with cascadeH35 := some l } := by
  show (match fourOf? i with | some b => _ | none => _) = _
  rw [fourOf?_eq_none (by omega)]

theorem load_position (p : PosId) :
    c.load 3 p.val e = (readPositionEntry e).map fun x => { c with positions := c.positions.set p (some x) } := by
  show (match fourOf? p.val with | some p => _ | none => _) = _
  rw [fourOf?_val]

theorem load_param :
    c.load 4 i e = (readParam i e).map fun v => { c with params := some ((c.params.getD paramDefaults).set i v) } := rfl

/-- A load that an entry's checks decide. -/
theorem load_of_checks {α : Type} {d : Option SiteConfig} {r : Option α} {f : α → SiteConfig} {x : α} {fits : Prop}
    (load : d = r.map f) (accepts : fits → r = some x) (refuses : ¬fits → r = none) :
    (fits → d = some (f x)) ∧ (¬fits → d = none) :=
  ⟨fun h => by rw [load, accepts h]; rfl, fun h => by rw [load, refuses h]; rfl⟩

/-- The entries of the other tables, and of the other indexes, are read as before. -/
theorem entryBytes_set_density {row : List Nat} {t j : Nat} (other : (t, j) ≠ (0, i)) :
    ({ c with density := c.density.set i (some row) }).entryBytes t j = c.entryBytes t j := by
  match t with
  | 0 =>
    have apart : i ≠ j := fun e => other (by rw [e])
    show ((c.density.set i (some row)).getD j none).map densityRowBytes = _
    rw [List.getD_eq_getElem?_getD, List.getElem?_set_ne apart, ← List.getD_eq_getElem?_getD]
    rfl
  | 1 | 2 | 3 | 4 => rfl
  | _ + 5 => rfl

theorem entryBytes_set_profile {f : Profile} {t j : Nat} (other : (t, j) ≠ (1, i)) :
    ({ c with profiles := c.profiles.set i (some f) }).entryBytes t j = c.entryBytes t j := by
  match t with
  | 1 =>
    have apart : i ≠ j := fun e => other (by rw [e])
    show ((c.profiles.set i (some f)).getD j none).map profileBytes = _
    rw [List.getD_eq_getElem?_getD, List.getElem?_set_ne apart, ← List.getD_eq_getElem?_getD]
    rfl
  | 0 | 2 | 3 | 4 => rfl
  | _ + 5 => rfl

theorem entryBytes_density_same {row : List Nat} (lt : i < c.density.length) :
    ({ c with density := c.density.set i (some row) }).entryBytes 0 i = some (densityRowBytes row) := by
  show ((c.density.set i (some row)).getD i none).map densityRowBytes = _
  rw [List.getD_eq_getElem?_getD, List.getElem?_set_self lt]
  rfl

theorem entryBytes_profile_same {f : Profile} (lt : i < c.profiles.length) :
    ({ c with profiles := c.profiles.set i (some f) }).entryBytes 1 i = some (profileBytes f) := by
  show ((c.profiles.set i (some f)).getD i none).map profileBytes = _
  rw [List.getD_eq_getElem?_getD, List.getElem?_set_self lt]
  rfl

end

/-- A density row and a profile are read back byte for byte. -/
theorem entryBytes_of_load {c d : SiteConfig} {table index : Nat} {entry : List Byte} (whole : entry.length = 32)
    (rows : c.density.length = 25) (profiles : c.profiles.length = 48) (two : table ≤ 1)
    (known : index < [25, 48].getD table 0) (loaded : c.load table index entry = some d) :
    d.entryBytes table index = some entry
      ∧ ∀ t i, (t, i) ≠ (table, index) → d.entryBytes t i = c.entryBytes t i := by
  obtain rfl | rfl := Nat.le_one_iff_eq_zero_or_eq_one.mp two
  · cases loaded
    refine ⟨?_, fun t i other => entryBytes_set_density other⟩
    rw [entryBytes_density_same (by rw [rows]; exact known), densityRowBytes_read whole]
  · rw [load_profile] at loaded
    obtain ⟨f, read, rfl⟩ := Option.map_eq_some_iff.mp loaded
    obtain ⟨rfl, permitted, mandatory⟩ := readProfile_given read
    refine ⟨?_, fun t i other => entryBytes_set_profile other⟩
    rw [entryBytes_profile_same (by rw [profiles]; exact known), profileBytes_given whole permitted mandatory]

/-- Settles O37: the entry read back, and, table by table, the checks of the entry against the fields it gives. -/
theorem loadedEntriesAreWritten : Obligations.LoadedEntriesAreWritten := by
  refine ⟨fun c d table index entry => entryBytes_of_load, fun c entry whole => ?_⟩
  intro takes
  refine ⟨fun i _ => ⟨fun _ => rfl, fun no => absurd trivial no⟩, fun i _ => ?profile, ?bank, ?cascade, ?noCascade,
    ?position, ?noPosition, ?param⟩
  case profile =>
    exact load_of_checks (x := givenProfile entry) load_profile
      (fun h => readProfile_of_inRange h.1 h.2.1 h.2.2) readProfile_eq_none
  case bank =>
    intro b
    refine load_of_checks (x := (⟨field entry 0 2, field entry 2 2, field entry 4 2, field entry 6 2⟩ : BankEntry))
      (load_bank b) (fun fits => ?_) fun unfit => ?_
    · obtain ⟨v1, v2, r1, r2, below, within⟩ := fits
      exact readBankEntry_of_inRange ⟨⟨v1, v2⟩, ⟨r1, r2⟩, below, within⟩
    · rw [Option.eq_none_iff_forall_ne_some]
      intro x read
      cases readBankEntry_given read
      obtain ⟨⟨v1, v2⟩, ⟨r1, r2⟩, below, within⟩ := readBankEntry_inRange read
      exact unfit ⟨v1, v2, r1, r2, below, within⟩
  case cascade =>
    intro l some short count named
    have read := readCascade_of some short count named
    exact ⟨load_of_checks (x := l) (load_cascade (.inl rfl)) (fun h => by rw [read, if_pos h])
        fun h => by rw [read, if_neg h],
      load_of_checks (x := l) (load_cascade (.inr rfl)) (fun h => by rw [read, if_pos h]) fun h => by rw [read, if_neg h]⟩
  case noCascade =>
    intro i list unread
    rw [load_cascade list, readCascade_eq_none unread]
    rfl
  case position =>
    intro p f cls
    exact load_of_checks (x := ⟨decide (field entry 0 1 = 1), f⟩) (load_position p)
      (fun enabled => readPositionEntry_of enabled cls) fun h => readPositionEntry_eq_none (.inl (not_le.mp h))
  case noPosition =>
    intro p cls
    rw [load_position, readPositionEntry_eq_none (.inr cls)]
    rfl
  case param =>
    intro i lt
    exact load_of_checks (x := field entry 0 4) load_param (fun h => by rw [readParam_eq lt]; exact if_pos h)
      fun h => by rw [readParam_eq lt]; exact if_neg h

end Sys2Proof.Machine
end

section
/-! SUPPORT. The ceilings a session issues stay within its class MAWP (R46, R48, R49): the relation that every operation
within an event keeps. -/

namespace Sys2Proof.Machine

set_option Elab.async false

/-- The ceilings that a session issues, with FLOW or with PULSE, are within its maximum working pressure. -/
def Session.capped (x : Session) : Prop := ∀ c, x.flowCeiling = some c ∨ x.pulseCeiling = some c → c ≤ x.mawp

/-- No session's ceilings come to stand above its maximum working pressure. -/
def Capped (s t : State) : Prop := ∀ p, (s.session p).capped → (t.session p).capped

/-- A session that issues no ceiling. -/
theorem Session.capped_of_none {x : Session} (f : x.flowCeiling = none) (q : x.pulseCeiling = none) : x.capped :=
  fun c h => by simp [f, q] at h

namespace Capped

variable {s t u : State}

theorem refl (s : State) : Capped s s := fun _ => id

theorem trans (h : Capped s t) (k : Capped t u) : Capped s u := fun p => k p ∘ h p

theorem ite {c : Prop} [Decidable c] (h : c → Capped s t) (k : ¬c → Capped s u) : Capped s (if c then t else u) := by
  split
  · exact h ‹_›
  · exact k ‹_›

/-- What leaves the session records as they are. -/
theorem same (h : t.sessions = s.sessions) : Capped s t := fun p k => by
  unfold State.session
  rwa [h]

theorem bank {b : BankId} {f : Bank → Bank} (k : Capped s t) : Capped s (t.modBank b f) := k

theorem bm {f : BankManager → BankManager} (k : Capped s t) : Capped s (t.modBm f) := k

theorem monitor {p : PosId} {f : Monitor → Monitor} (k : Capped s t) : Capped s (t.modMonitor p f) := k

theorem site {f : SiteControl → SiteControl} (k : Capped s t) : Capped s (t.modSite f) := k

theorem cbu {f : CoolingUnit → CoolingUnit} (k : Capped s t) : Capped s (t.modCbu f) := k

theorem sales {f : SalesUnit → SalesUnit} (k : Capped s t) : Capped s (t.modSales f) := k

theorem port {q : PortId} {f : Port → Port} (k : Capped s t) : Capped s (t.modPort q f) := k

theorem posted {n : Notice} (k : Capped s t) : Capped s (t.post n) := k

theorem shown {p : PosId} (k : Capped s t) : Capped s (t.postSession p) := k

/-- What changes one session record. -/
theorem sessionAt {p : PosId} {f : Session → Session} (k : Capped s t)
    (h : (t.session p).capped → (f (t.session p)).capped) : Capped s (t.modSession p f) := k.trans fun q c => by
  rw [State.modSession_session]
  split
  · rename_i e
    exact h (e ▸ c)
  · exact c

theorem session {p : PosId} {f : Session → Session} (k : Capped s t)
    (h : ∀ x : Session, x.capped → (f x).capped := by exact fun _ => id) : Capped s (t.modSession p f) :=
  k.sessionAt (h _)

theorem ordered (f : Fin 4 → State → State) (h : ∀ i s, Capped s (f i s)) (s : State) : Capped s (inOrder f s) := inOrder_induct Capped Capped.trans f h s

theorem foldl {α : Type} (f : State → α → State) (h : ∀ s a, Capped s (f s a)) (l : List α) (s : State) :
    Capped s (l.foldl f s) := by
  induction l generalizing s with
  | nil => exact .refl s
  | cons a l ih => exact (h s a).trans (ih _)

end Capped

namespace State

/-! ### The two ceilings -/

/-- A ramp ceiling is within the class MAWP (R46). -/
theorem rampCeiling_le (s : State) (p : PosId) {c : Nat} (h : s.rampCeiling p = some c) : c ≤ (s.session p).mawp := by
  unfold rampCeiling at h
  obtain ⟨base, _, rfl⟩ := Option.map_eq_some_iff.mp h
  exact Nat.min_le_right _ _

/-- The pulse ceiling is within the class MAWP (R49). -/
theorem pulseCeiling_le (s : State) (p : PosId) : s.pulseCeiling p ≤ (s.session p).mawp := Nat.min_le_right _ _

/-! ### Proofs of banks: no session is touched -/

variable (s : State) (b : BankId) (p : PosId)

theorem forcedExamination_sessions : s.forcedExamination.sessions = s.sessions := by
  unfold forcedExamination
  split
  · split
    · rfl
    · split
      · split <;> rfl
      · rfl
  · rfl

theorem opportunisticExamination_sessions : (s.opportunisticExamination b).sessions = s.sessions := by
  unfold opportunisticExamination
  split <;> rfl

theorem becameFree_sessions : (s.becameFree b).sessions = s.sessions :=
  (opportunisticExamination_sessions _ b).trans (forcedExamination_sessions s)

theorem abandonProof_sessions : (s.abandonProof b).sessions = s.sessions := by
  unfold abandonProof
  split <;> rfl

theorem proofExaminations_capped : Capped s s.proofExaminations :=
  (Capped.same (forcedExamination_sessions s)).trans
    (.ordered _ (fun b s => .same (opportunisticExamination_sessions s b)) _)

theorem overdueTestOf_capped : Capped s (s.overdueTestOf b) := by
  unfold overdueTestOf
  refine .ite (fun _ => .ite (fun _ => .same (forcedExamination_sessions s)) fun _ => ?_) fun _ => .same rfl
  exact .same (forcedExamination_sessions _)

theorem overdueTest_capped : Capped s s.overdueTest :=
  .ite (fun _ => .refl s) fun _ => .ordered _ (fun b s => overdueTestOf_capped s b) _

/-! ### Phases of a session -/

theorem snapshotClaim_capped : Capped s (s.snapshotClaim b p) := (Capped.refl s).session

theorem snapshotRelease_capped : Capped s (s.snapshotRelease b p) := (Capped.refl s).session

theorem setFactor_capped (f : Factor) : Capped s (s.setFactor p f) := (Capped.refl s).session

theorem enterHeld_capped (r : Option Phase) : Capped s (s.enterHeld p r) :=
  have held : Capped s (s.modSession p fun x =>
      { x.quiet with
        state := .held
        resumePoint := r
        heldBefore := x.heldTime
        keepTimer := if x.bank.isSome then some s.config.bankKeepInterval else none }) :=
    (Capped.refl s).session fun _ _ => Session.capped_of_none rfl rfl
  held.shown

theorem capture_capped : Capped s (s.capture p) := by
  unfold capture
  split
  · exact .refl s
  · exact (Capped.refl s).session

/-- A FLOW begins with the ramp ceiling (R134). -/
theorem enterDelivering_capped : Capped s (s.enterDelivering p) := by
  have flows : Capped s (s.modSession p fun x =>
      { x.quiet with
        state := .delivering, flowCeiling := s.rampCeiling p, segmentTimer := some (s.profileOf p).segmentLength }) :=
    (Capped.refl s).sessionAt fun _ _ h => s.rampCeiling_le p (h.elim id nofun)
  exact flows.shown.trans (capture_capped _ _)

theorem connected_capped : Capped s (s.connected p) := by
  have done : Capped s (s.finishConnection p) := (Capped.refl s).session
  exact done.trans (.ite (fun _ => enterDelivering_capped _ _) fun _ => enterHeld_capped _ _ _)

theorem beginLeakCheck_capped : Capped s (s.beginLeakCheck p) :=
  (Capped.refl s).session fun _ _ => Session.capped_of_none rfl rfl

theorem endConnect_capped : Capped s (s.endConnect p) :=
  .ite (fun _ => beginLeakCheck_capped _ _) fun _ => enterHeld_capped _ _ _

/-- A CONNECT begins with the pulse ceiling (R128). -/
theorem beginConnect_capped : Capped s (s.beginConnect p) := by
  refine ((Capped.refl s).sessionAt fun _ c h => ?_).trans (.ite (fun _ => endConnect_capped _ _) fun _ => .refl _)
  have e : some (s.pulseCeiling p) = some c := h.elim nofun id
  exact Option.some.inj e ▸ s.pulseCeiling_le p

theorem beginSettle_capped : Capped s (s.beginSettle p) :=
  ((Capped.refl s).session fun _ _ => Session.capped_of_none rfl rfl).trans
    (.ite (fun _ => connected_capped _ _) fun _ => .refl _)

theorem enterClaim_capped : Capped s (s.enterClaim p) :=
  (Capped.refl s).session fun _ _ => Session.capped_of_none rfl rfl

theorem endClaim_capped : Capped s (s.endClaim p) :=
  .ite (fun _ => .ite (fun _ => beginSettle_capped _ _) fun _ => beginConnect_capped _ _) fun _ => enterHeld_capped _ _ _

theorem claimGranted_capped : Capped s (s.claimGranted b p) := by
  have held : Capped s ((s.snapshotClaim b p).modSession p fun x => x.holdBank b) := (snapshotClaim_capped s b p).session
  exact (held.trans (.ite (fun _ => setFactor_capped _ _ _) fun _ => .refl _)).trans (endClaim_capped _ _)

/-! ### Claims -/

theorem handOff_capped : Capped s (s.handOff b) := by
  unfold handOff
  split
  · exact (Capped.refl s).bank
  · exact (Capped.refl s).bank.trans (claimGranted_capped _ _ _)

theorem handOn_capped : Capped s (s.handOn b) :=
  (handOff_capped s b).trans (.ite (fun _ => .same (becameFree_sessions _ _)) fun _ => .refl _)

theorem forgetBank_capped : Capped s (s.forgetBank p) := (Capped.refl s).session

theorem releaseClaim_capped : Capped s (s.releaseClaim p) := by
  unfold releaseClaim
  split
  · exact .refl s
  · exact .ite (fun _ => ((snapshotRelease_capped s _ p).trans (forgetBank_capped _ p)).trans (handOn_capped _ _))
      fun _ => forgetBank_capped _ _

theorem settleYield_capped : Capped s s.settleYield := by
  unfold settleYield
  split
  · exact .ite (fun _ => (Capped.refl s).bm) fun _ => .refl s
  · exact .refl s

theorem leaveQueue_capped : Capped s (s.leaveQueue p) := by
  unfold leaveQueue
  split
  · exact .refl s
  · exact (Capped.refl s).bank.session.trans (settleYield_capped _)

theorem relist_sessions : (s.relist b).sessions = s.sessions := by
  unfold relist enterRefillList
  split
  · split <;> rfl
  · rfl

theorem refillEnds_capped (r : RefillReason) : Capped s (s.refillEnds b r) := by
  unfold refillEnds
  exact ((Capped.refl s).bm.trans (handOff_capped _ b)).posted.trans (.same (relist_sessions _ b))

theorem endRefill_capped (r : RefillReason) : Capped s (s.endRefill b r) :=
  (refillEnds_capped s b r).trans (.ite (fun _ => .same (becameFree_sessions _ _)) fun _ => .refl _)

theorem joinQueue_sessions : (s.joinQueue b p).sessions = s.sessions := by
  unfold joinQueue
  dsimp only
  split <;> rfl

theorem claimRequest_sessions : (s.claimRequest b p).1.sessions = s.sessions := by
  unfold claimRequest
  split
  · rfl
  · split
    · rfl
    · split
      · exact abandonProof_sessions s b
      · exact abandonProof_sessions s b
      · exact joinQueue_sessions s b p
      · exact joinQueue_sessions s b p

theorem claim_capped : Capped s (s.claim b p) := by
  have h := Capped.same (claimRequest_sessions s b p)
  unfold claim
  generalize s.claimRequest b p = r at h
  obtain ⟨t, a⟩ := r
  cases a with
  | refused => exact h
  | granted => exact h.trans (claimGranted_capped _ _ _)
  | waits =>
    have waits : Capped s (t.awaitBank b p) := h.session
    exact waits.trans (.ite (fun _ => endRefill_capped _ _ _) fun _ => .refl _)

end State

/-! ### The cascade of one event -/

/-- An ender that keeps the ceilings within. -/
def Ender.CapsKept (endK : Ender) : Prop := ∀ p r s, Capped s (endK p r s)

namespace State

theorem newConnection_capped (s : State) (p : PosId) (k : ConnKind) (a : Option Attempt) :
    Capped s (s.newConnection p k a) := (Capped.refl s).session

section
variable {endK : Ender} (hE : endK.CapsKept)
include hE

theorem selectBank_capped (s : State) (p : PosId) : Capped s (s.selectBank endK p) := by
  unfold selectBank
  refine .ite (fun _ => (Capped.refl s).session) fun _ => ?_
  split
  · exact claim_capped _ _ _
  · exact hE _ _ _

theorem claimAndSelect_capped (s : State) (p : PosId) : Capped s (((s.enterClaim p).postSession p).selectBank endK p) :=
  (enterClaim_capped s p).shown.trans (selectBank_capped hE _ _)

theorem leaveOpening_capped (s : State) (p : PosId) : Capped s (s.leaveOpening endK p) := by
  have begun : Capped s ((s.newConnection p .first (some .first)).restartProgress p) :=
    (newConnection_capped s p _ _).monitor
  exact begun.trans (.ite (fun _ => claimAndSelect_capped hE _ _) fun _ => enterHeld_capped _ _ _)

theorem reconnect_capped (s : State) (p : PosId) : Capped s (s.reconnect endK p) :=
  (newConnection_capped s p _ _).trans (claimAndSelect_capped hE _ _)

theorem resumeConnection_capped (s : State) (p : PosId) (f : Phase) : Capped s (s.resumeConnection endK p f) := by
  have cleared : Capped s (s.modSession p fun x => { x with resumePoint := none }) := (Capped.refl s).session
  have back := (cleared.trans (enterClaim_capped _ p)).shown (p := p)
  unfold resumeConnection
  cases f
  · exact back.trans (selectBank_capped hE _ _)
  · exact back.trans (beginConnect_capped _ _)
  · exact back.trans (beginLeakCheck_capped _ _)
  · exact back.trans (beginSettle_capped _ _)

theorem resume_capped (s : State) (p : PosId) : Capped s (s.resume endK p) := by
  have left : Capped s (s.modSession p fun x => x.leaveHold (s.profileOf p).holdLimit) := (Capped.refl s).session
  unfold resume
  refine left.trans ?_
  dsimp only
  split
  · exact resumeConnection_capped hE _ _ _
  · exact .ite (fun _ => enterDelivering_capped _ _) fun _ => reconnect_capped hE _ _

theorem clearFactor_capped (s : State) (p : PosId) (f : Factor) : Capped s (s.clearFactor endK p f) := by
  have start : ∀ t : State, Capped t (t.startResume endK p) := fun t =>
    .ite (fun _ => resume_capped hE _ _) fun _ => (Capped.refl t).session
  have put : Capped s (s.modSession p fun x => { x with factors := x.factors.put f false }) := (Capped.refl s).session
  exact .ite (fun _ => put.trans (.ite (fun _ => start _) fun _ => .refl _)) fun _ => .refl s

theorem coolingGranted_capped (s : State) (p : PosId) : Capped s (s.coolingGranted endK p) := by
  have told : Capped s (s.modSession p fun x => { x with cooling := .granted }) := (Capped.refl s).session
  exact told.trans (.ite (fun _ => leaveOpening_capped hE _ _) fun _ => clearFactor_capped hE _ _ _)

theorem grantFromHead_capped (n : Nat) (s : State) : Capped s (grantFromHead endK n s) := by
  induction n generalizing s with
  | zero => exact .refl s
  | succ n ih =>
    unfold grantFromHead
    split
    · exact .refl s
    · rename_i w rest _
      have granted : Capped s (s.grantHead w rest) := .same rfl
      exact .ite (fun _ => .refl s) fun _ => (granted.trans (coolingGranted_capped hE _ _)).trans (ih _)

theorem grantWaiters_capped (s : State) : Capped s (s.grantWaiters endK) := grantFromHead_capped hE _ _

theorem leaveCooling_capped (s : State) (p : PosId) : Capped s (s.leaveCooling endK p) := by
  unfold leaveCooling
  refine .ite (fun _ => ?_) fun _ => .ite (fun _ => ?_) fun _ => .refl s
  · exact (Capped.refl s).cbu.trans (grantWaiters_capped hE _)
  · exact (Capped.refl s).cbu.posted.trans (grantWaiters_capped hE _)

theorem endSteps_capped (s : State) (p : PosId) (r : EndReason) : Capped s (s.endSteps endK p r) := by
  have marked : Capped s (s.modSession p fun x => x.markEnded r s.site.siteTime (s.endingNozzle p)) :=
    (Capped.refl s).session fun _ _ => Session.capped_of_none rfl rfl
  unfold endSteps
  exact ((((marked.trans (releaseClaim_capped _ p)).trans (leaveQueue_capped _ p)).trans
    (leaveCooling_capped hE _ p)).session).shown

end

/-! ### Closing -/

variable (s : State) (p : PosId)

theorem commit_capped : Capped s (s.commit p) := by
  unfold commit
  have recorded : ∀ r, Capped s ((s.modSales fun u =>
      { u with records := u.records ++ [r], counter := nextCounter u.counter }).postMismatch r) :=
    fun r => (Capped.refl s).sales.trans (.same (postMismatch_sessions _ r))
  exact ((recorded _).posted.session (f := fun _ => Session.idle)
    fun _ _ => Session.capped_of_none rfl rfl).posted

theorem completeClosing_capped : Capped s (s.completeClosing p) := (commit_capped s p).sales

theorem serveRegister_capped (n : Nat) (s : State) : Capped s (serveRegister n s) := by
  induction n generalizing s with
  | zero => exact .refl s
  | succ n ih =>
    unfold serveRegister
    split
    · rename_i p rest _ _
      have taken : Capped s (s.takeRegister p rest) :=
        ((Capped.refl s).sales (f := fun u => { u with closeQueue := rest, register := some p })).session
          (f := fun x => { x with state := .closing })
      exact taken.trans (.ite (fun _ => (completeClosing_capped _ _).trans (ih _)) fun _ => (Capped.refl _).sales)
    · exact .refl s

theorem serveCloseQueue_capped : Capped s s.serveCloseQueue := serveRegister_capped _ _

theorem joinCloseQueue_capped : Capped s (s.joinCloseQueue p) :=
  (Capped.refl s).sales.trans (serveCloseQueue_capped _)

end State

theorem endSession_capsKept (n : Nat) : (endSession n).CapsKept := by
  induction n with
  | zero => exact fun _ _ s => .refl s
  | succ n ih =>
    intro p r s
    exact .ite (fun _ => (State.endSteps_capped ih s p r).trans (State.joinCloseQueue_capped _ _)) fun _ => .refl s

theorem endNow_capsKept : endNow.CapsKept := endSession_capsKept 4

theorem State.endWith_capped (s : State) (p : PosId) (r : EndReason) : Capped s (s.endWith p r) := endNow_capsKept _ _ _

end Sys2Proof.Machine
end

section
/-! SUPPORT. Every command keeps the ceilings within the class MAWP (R46, R48, R49): cooling, reports, the Bank Manager,
requests and expiries. -/

namespace Sys2Proof.Machine

set_option Elab.async false

namespace State

variable (s : State) (p : PosId)

/-! ### Cooling -/

theorem clearNow_capped (f : Factor) : Capped s (s.clearFactor endNow p f) := clearFactor_capped endNow_capsKept s p f

theorem grantNow_capped : Capped s (s.coolingGranted endNow p) := coolingGranted_capped endNow_capsKept s p

theorem grantWaitersNow_capped : Capped s (s.grantWaiters endNow) := grantWaiters_capped endNow_capsKept s

theorem selectNow_capped : Capped s (s.selectBank endNow p) := selectBank_capped endNow_capsKept s p

theorem setCoolingQueue_capped (q : List Waiter) : Capped s (s.setCoolingQueue q) := .same rfl

theorem degrade_capped (k : Nat) : Capped s (s.degrade p k) := by
  have rebased : Capped s (s.rebase p k) := (Capped.refl s).session
  unfold degrade recapture
  refine rebased.trans ?_
  split
  · exact .refl _
  · exact (Capped.refl _).session

theorem expireCooling_capped (n : Nat) (s : State) : Capped s (expireCooling n p s) := by
  induction n generalizing s with
  | zero => exact .refl s
  | succ n ih =>
    unfold expireCooling
    refine .ite (fun _ => ?_) fun _ => .refl s
    split
    · exact (endWith_capped _ _ _).trans (grantWaitersNow_capped _)
    · rename_i k _
      refine (degrade_capped s p k).trans (.ite (fun _ => ?_) fun _ => .ite (fun _ => ?_) fun _ => ?_)
      · exact (endWith_capped _ _ _).trans (grantWaitersNow_capped _)
      · exact ((setCoolingQueue_capped _ _).trans (grantNow_capped _ _)).trans (grantWaitersNow_capped _)
      · exact (setCoolingQueue_capped _ _).trans (.ite (fun _ => ih _) fun _ => grantWaitersNow_capped _)

theorem coolingWaitRunsOut_capped : Capped s (s.coolingWaitRunsOut p) := expireCooling_capped p 4 s

theorem joinCooling_capped (d l : Nat) : Capped s (s.joinCooling p d l) := by
  have waits : Capped s (s.modSession p fun x => { x with cooling := .waiting }) := (Capped.refl s).session
  unfold joinCooling
  exact ((waits.trans (setCoolingQueue_capped _ _)).trans (grantWaitersNow_capped _)).trans
    (.ite (fun _ => coolingWaitRunsOut_capped _ _) fun _ => .refl _)

theorem requestCooling_capped (d l : Nat) : Capped s (s.requestCooling p d l) := by
  have added : Capped s (s.addGrant p d l) := (Capped.refl s).cbu
  exact .ite (fun _ => grantNow_capped _ _) fun _ => .ite (fun _ => added.trans (grantNow_capped _ _))
    fun _ => joinCooling_capped _ _ _ _

theorem coolingRevoked_capped : Capped s (s.coolingRevoked p) := by
  have waits : Capped s (s.modSession p fun x => { x with cooling := .waiting }) := (Capped.refl s).session
  exact waits.trans (setFactor_capped _ _ _)

theorem takeCapacity_capped (c : Nat) : Capped s (s.takeCapacity c) := by
  have revoked : ∀ t : State, Capped t t.revoke := fun t => by
    unfold revoke
    split
    · exact .refl t
    · refine Capped.trans ?_ ((Capped.foldl _ (fun s (g : Grant) => coolingRevoked_capped s g.pos) _ _).trans
        (Capped.foldl _ (fun s (g : Grant) => .ite (fun _ => coolingWaitRunsOut_capped _ _) fun _ => .refl s) _ _))
      exact (Capped.refl t).cbu.trans (setCoolingQueue_capped _ _)
  have given : Capped s (s.modCbu fun x => { x with capacity := c }) := (Capped.refl s).cbu
  exact (given.trans (revoked _)).trans (grantWaitersNow_capped _)

/-! ### Reports -/

theorem noteReport_capped (x m : Nat) : Capped s (s.noteReport p x m) := (Capped.refl s).session

theorem clearOverRamp_capped (x : Nat) : Capped s (s.clearOverRamp p x) := by
  unfold clearOverRamp
  split
  · exact .ite (fun _ => clearNow_capped _ _ _) fun _ => .refl s
  · exact .refl s

theorem clearGasWarm_capped (x : Nat) : Capped s (s.clearGasWarm p x) :=
  .ite (fun _ => .refl s) fun _ => clearNow_capped _ _ _

theorem gasWarmTest_capped (x : Nat) : Capped s (s.gasWarmTest p x) := by
  unfold gasWarmTest
  refine .ite (fun _ => .ite (fun _ => .refl s) fun _ => .ite (fun _ => setFactor_capped _ _ _) fun _ => ?_) fun _ => ?_
  · exact (Capped.refl s).session
  · exact (Capped.refl s).session.trans (clearGasWarm_capped _ _ _)

/-- A report in DELIVERING takes the ramp ceiling as the FLOW's (R136, step 3). -/
theorem deliveryReport_capped (x t : Nat) : Capped s (s.deliveryReport p x t) := by
  have flows : Capped s (s.modSession p fun y => { y with flowCeiling := s.rampCeiling p }) :=
    (Capped.refl s).sessionAt fun k c h => h.elim (s.rampCeiling_le p) fun e => k c (.inr e)
  unfold deliveryReport
  refine flows.trans ?_
  dsimp only
  split
  · exact endWith_capped _ _ _
  · exact Capped.trans (.ite (fun _ => setFactor_capped _ _ _) fun _ => clearOverRamp_capped _ _ _)
      (gasWarmTest_capped _ _ _)

theorem takeReport_capped (x t m : Nat) : Capped s (s.takeReport p x t m) := by
  have n := noteReport_capped s p x m
  unfold takeReport
  split
  · exact .refl s
  · exact n
  · exact n
  · exact n.trans (.ite (fun _ => endWith_capped _ _ _) fun _ => .refl _)
  · exact n.trans (.ite (fun _ => endWith_capped _ _ _) fun _ =>
      (clearOverRamp_capped _ _ _).trans (clearGasWarm_capped _ _ _))
  · exact n.trans (.ite (fun _ => endWith_capped _ _ _) fun _ =>
      (clearOverRamp_capped _ _ _).trans (clearGasWarm_capped _ _ _))
  · exact n.trans (.ite (fun _ => endWith_capped _ _ _) fun _ => deliveryReport_capped _ _ _ _)

/-! ### Vehicle data -/

theorem obeyVehicle_capped (c : FuelCommand) : Capped s (s.obeyVehicle p c) := by
  refine .ite (fun _ => ?_) fun _ => .refl s
  cases c
  · exact clearNow_capped _ _ _
  · exact setFactor_capped _ _ _
  · exact endWith_capped _ _ _

theorem frameCriteria_capped : Capped s (s.frameCriteria p) := by
  refine .ite (fun _ => ?_) fun _ => .refl s
  split
  · exact endWith_capped _ _ _
  · exact .refl s

theorem vehicleLost_capped (c : LossCause) : Capped s (s.vehicleLost p c) := by
  unfold vehicleLost
  refine (Capped.refl s).monitor.posted.trans (.ite (fun _ => .ite (fun _ => endWith_capped _ _ _) fun _ => ?_)
    fun _ => .refl _)
  exact (Capped.refl _).session

theorem takeValidFrame_capped (f : VehicleReport) : Capped s (s.takeValidFrame p f) := by
  have recorded : Capped s (s.recordFrame p f) := (Capped.refl s).monitor
  exact (recorded.trans (obeyVehicle_capped _ _ _)).trans (frameCriteria_capped _ _)

theorem takeInvalidFrame_capped : Capped s (s.takeInvalidFrame p) := by
  unfold takeInvalidFrame
  exact (Capped.refl s).monitor.trans (.ite (fun _ => vehicleLost_capped _ _ _) fun _ => .refl _)

/-! ### Segments, leak checks and holds -/

theorem boundary_capped : Capped s (s.boundary p) := by
  unfold boundary
  refine .ite (fun _ => enterHeld_capped _ _ _) fun _ => .ite (fun _ => ?_) fun _ => (Capped.refl s).session
  exact ((releaseClaim_capped s p).trans (newConnection_capped _ p _ _)).trans
    (claimAndSelect_capped endNow_capsKept _ p)

theorem leakFailed_capped : Capped s (s.leakFailed p) := by
  have again : Capped s (s.modSession p fun x => { x with attempt := some .recheck }) := (Capped.refl s).session
  exact .ite (fun _ => endWith_capped _ _ _) fun _ => again.trans
    (.ite (fun _ => beginConnect_capped _ _) fun _ => enterHeld_capped _ _ _)

theorem leakPassed_capped (r : Nat) : Capped s (s.leakPassed p r) := by
  unfold leakPassed
  refine ((Capped.refl s).session fun x k => ?_).trans (connected_capped _ _)
  split
  · exact k
  · exact k

theorem endLeakCheck_capped : Capped s (s.endLeakCheck p) := by
  unfold endLeakCheck
  exact (Capped.refl s).session.trans (.ite (fun _ => leakPassed_capped _ _ _) fun _ => leakFailed_capped _ _)

theorem keepRelease_capped : Capped s (s.keepRelease p) := by
  unfold keepRelease
  refine ((Capped.refl s).session.trans (releaseClaim_capped _ p)).session fun x k => ?_
  unfold Session.keepReleased
  split <;> exact k

/-! ### The Position Monitor -/

theorem nozzleChange_capped (n : NozzleState) : Capped s (s.nozzleChange p n) := by
  have leaves : ∀ t : State, Capped t (t.nozzleLeaves p) := fun t => by
    unfold nozzleLeaves
    exact (Capped.refl t).monitor.trans (endWith_capped _ _ _)
  have moved : Capped s (s.modMonitor p fun x => { x with nozzle := n }) := (Capped.refl s).monitor
  have cleared : ∀ t : State, Capped t (t.modMonitor p Monitor.clearRecord) := fun t => (Capped.refl t).monitor
  have restarted : ∀ t : State, Capped t (t.restartProgress p) := fun t => (Capped.refl t).monitor
  unfold nozzleChange
  exact ((moved.trans (.ite (fun _ => leaves _) fun _ => .refl _)).trans
    (.ite (fun _ => cleared _) fun _ => .refl _)).trans (.ite (fun _ => restarted _) fun _ => .refl _)

theorem takeProgress_capped (x t m : Nat) : Capped s (s.takeProgress p x t m) := by
  have kept : Capped s ((s.modMonitor p fun y => y.keepReport x t m).restartProgress p) := .same rfl
  exact kept.trans (takeReport_capped _ _ _ _ _)

theorem openSession_capped (a : Authorization) (f : FuelClass) (k : Nat) : Capped s (s.openSession p a f k) := by
  have consumed : Capped s (s.consume p a) := .same rfl
  have opened : Capped s ((s.consume p a).modSession p fun _ => s.opened p a f k) :=
    consumed.session fun _ _ => Session.capped_of_none rfl rfl
  exact opened.shown.trans (requestCooling_capped _ _ _ _)

/-! ### The Bank Manager -/

theorem toldFresh_capped : Capped s (s.toldFresh p) := by
  have selects : ∀ t : State, Capped t (t.selectOnFresh p) := fun t =>
    .ite (fun _ => ((Capped.refl t).session (f := fun x => { x with awaitingFresh := false, bankWaitTimer := none })).trans
      (selectNow_capped _ _)) fun _ => .refl t
  exact .ite (fun _ => (clearNow_capped _ _ _).trans (selects _)) fun _ => .refl s

theorem becomeFresh_capped : Capped s s.becomeFresh := by
  unfold becomeFresh
  split
  · exact .refl s
  · exact (Capped.refl s).bm.trans (.ordered _ (fun p s => toldFresh_capped s p) _)

theorem testQueue_capped (b : BankId) : Capped s (s.testQueue b) :=
  .foldl _ (fun s p => .ite (fun _ => (leaveQueue_capped s p).trans (selectNow_capped _ _)) fun _ => .refl s) _ _

theorem completeRefill_capped : Capped s s.completeRefill := by
  unfold completeRefill
  split
  · exact .refl s
  · split
    · exact .refl s
    · exact .ite (fun _ => endRefill_capped _ _ _) fun _ => .refl s

theorem listIfLow_sessions (b : BankId) : (s.listIfLow b).sessions = s.sessions := by
  unfold listIfLow enterRefillList
  split
  · split <;> rfl
  · rfl

theorem takeBankStatus_capped (r : Quad Reading) (t : Nat) : Capped s (s.takeBankStatus r t) := by
  unfold takeBankStatus
  have reported : Capped s (inOrder (fun b s => s.reportBank b (r.get b)) s) := .ordered _ (fun b s => .same rfl) s
  have ambient : ∀ u : State, Capped u (u.reportAmbient t) := fun u => .same rfl
  have fresh := (reported.trans (ambient _)).trans (becomeFresh_capped _)
  exact (((fresh.bm.trans (.ordered _ (fun b s => testQueue_capped s b) _)).trans (completeRefill_capped _)).trans
    (.ordered _ (fun b s => .same (listIfLow_sessions s b)) _)).trans (proofExaminations_capped _)

theorem freshnessRunsOut_capped : Capped s s.freshnessRunsOut := by
  unfold freshnessRunsOut
  refine ((Capped.refl s).bm.posted.trans (.ordered _ (fun b s => ?_) _)).trans
    (.ordered _ (fun b s => .same (abandonAndFree_sessions s b)) _)
  unfold tellStale
  split
  · exact setFactor_capped _ _ _
  · exact .refl s

theorem yieldRunsOut_capped : Capped s s.yieldRunsOut := by
  unfold yieldRunsOut
  split
  · exact endRefill_capped _ _ _
  · exact (Capped.refl s).bm

theorem proofRunsOut_capped (b : BankId) (f : ProofFields) : Capped s (s.proofRunsOut b f) := by
  have released : ∀ (t : State) (k : ProofKind), Capped t (t.releaseProof b k) := fun t k => by
    cases k
    · exact .refl t
    · exact (Capped.refl t).bm.trans (handOn_capped _ _)
  have failed : Capped s (s.failProof b ((s.bank b).decay f) f.kind) :=
    ((Capped.refl s).bank.bank.posted.bm).trans (released _ _)
  have passed : Capped s (s.passProof b f.kind) := (Capped.refl s).bank.bank.trans (released _ _)
  exact .ite (fun _ => failed) fun _ => passed

theorem beginRefill_capped (b : BankId) : Capped s (s.beginRefill b) := .same (abandonProof_sessions s b)

theorem clearClaim_capped (b : BankId) : Capped s (s.clearClaim b) := by
  unfold clearClaim
  split
  · exact ((snapshotRelease_capped s b _).trans (forgetBank_capped _ _)).bank
  · exact .refl s

theorem clearClaims_capped : Capped s s.clearClaims := by
  unfold clearClaims
  exact (((Capped.ordered _ (fun b s => clearClaim_capped s b) s).trans
    (.ordered _ (fun b s => (Capped.refl s).bank) _)).trans
    (.ordered _ (fun p s => (Capped.refl s).session) _)).trans (settleYield_capped _)

theorem stopBanks_capped : Capped s s.stopBanks := by
  have aborted : ∀ t : State, Capped t t.abortRefill := fun t => by
    unfold abortRefill
    split
    · exact refillEnds_capped _ _ _
    · exact .refl t
  exact ((clearClaims_capped s).trans (aborted _)).trans
    (.ordered _ (fun b s => .same (abandonAndFree_sessions s b)) _)

/-! ### Emergency stop and site reset -/

theorem emergencyStop_capped (c : HaltCause) : Capped s (s.emergencyStop c) := by
  have cool : ∀ t : State, Capped t t.stopCooling := fun t =>
    (Capped.refl t).cbu.trans (.ite (fun _ => .same rfl) fun _ => .refl _)
  have halted : Capped s (s.haltSite c) := .same rfl
  exact (((halted.trans (stopBanks_capped _)).trans (cool _)).sales).trans
    (.ordered _ (fun p s => endWith_capped s p _) _)

theorem siteReset_capped : Capped s s.siteReset := by
  have sessions : ∀ t : State, Capped t t.resetSessions := fun t =>
    (Capped.ordered _ (fun p s => .ite (fun _ => endSteps_capped (fun _ _ s => .refl s) s p _) fun _ => .refl s) t).trans
      (.ordered _ (fun p s => .ite (fun _ => (Capped.refl s).session) fun _ => .refl s) _)
  have sales : ∀ (t : State) (l : List PosId), Capped t (t.resetSales l) := fun t l =>
    ((Capped.refl t).sales.trans (.foldl State.commit commit_capped l _)).sales.trans
      (.ite (fun _ => .refl _) fun _ => .same rfl)
  have banks : ∀ t : State, Capped t t.resetBanks := fun t =>
    (stopBanks_capped t).trans (.ordered _ (fun _ s => (Capped.refl s).bank) _)
  have site : Capped s s.resetSite.resetPorts := .same rfl
  have cooled : ∀ t : State, Capped t t.resetCooling := fun t => .same rfl
  exact (((site.trans (banks _)).trans (cooled _)).trans (sessions _)).trans (sales _ _)

/-! ### Time and expiries -/

theorem tick_capped : Capped s s.tick := fun p k => by
  rw [tick_session]
  exact k

theorem tickExpires_capped : Capped s s.tickExpires := by
  have later : Capped s (({ s with tenths := s.tenths - 10 } : State).modSite fun x =>
      { x with siteTime := if x.siteTime = Config.maxWord then 0 else x.siteTime + 1 }) := .same rfl
  exact later.trans (overdueTest_capped _)

theorem proofExpires_capped (b : BankId) : Capped s (s.proofExpires b) := by
  unfold proofExpires
  split
  · exact proofRunsOut_capped _ _ _
  · exact .refl s

theorem progressExpires_capped : Capped s (s.progressExpires p) :=
  .ite (fun _ => (Capped.refl s).monitor.trans (.ite (fun _ => endWith_capped _ _ _) fun _ => .refl _)) fun _ => .refl s

theorem warmExpires_capped : Capped s (s.warmExpires p) := by
  have stopped : Capped s (s.modSession p fun x => { x with warmTimer := none }) := (Capped.refl s).session
  exact .ite (fun _ => stopped.trans (setFactor_capped _ _ _)) fun _ => .refl s

theorem holdLimitExpires_capped : Capped s (s.holdLimitExpires p) := by
  have beyond : Capped s (s.modSession p fun x =>
      { x with heldTime := max x.heldTime ((s.profileOf p).holdLimit + 1) }) := (Capped.refl s).session
  exact .ite (fun _ => beyond.trans (endWith_capped _ _ _)) fun _ => .refl s

theorem authorizationExpires_capped : Capped s (s.authorizationExpires p) := by
  unfold authorizationExpires
  split
  · exact .same rfl
  · exact .refl s

theorem closingExpires_capped : Capped s s.closingExpires := by
  unfold closingExpires
  split
  · exact (completeClosing_capped _ _).trans (serveCloseQueue_capped _)
  · exact .refl s

theorem poweredOn_capped : Capped s s.poweredOn := fun p _ => by
  have e : s.poweredOn.session p = Session.idle := reset_session p
  rw [e]
  exact Session.capped_of_none rfl rfl

end State
end Sys2Proof.Machine
end

section
/-! SUPPORT. Every request, and so every step, keeps the ceilings within the class MAWP (R46, R48, R49). -/

namespace Sys2Proof.Machine

set_option Elab.async false

/-- A request that keeps the ceilings within, whatever the state. -/
def Handler.CapsKept (h : Handler) : Prop := ∀ s, Capped s (h s).1

open Handler

namespace Handler

theorem capped_ite {c : Prop} [Decidable c] {s : State} {x y : State × Reply} (h : c → Capped s x.1)
    (k : ¬c → Capped s y.1) : Capped s (if c then x else y).1 := by
  split
  · exact h ‹_›
  · exact k ‹_›

theorem capped_of_done {s t : State} (h : Capped s t) : Capped s (done t).1 := h

/-- A request that leaves the session records as they are. -/
theorem CapsKept.of_sessions {h : Handler} (k : ∀ s, (h s).1.sessions = s.sessions) : h.CapsKept :=
  fun s => .same (k s)

end Handler

variable (p : PosId)

/-! ### Requests that reach no session -/

theorem readNotices_capped (q : PortId) : (readNoticesRequest q).CapsKept := .of_sessions fun s => by
  unfold readNoticesRequest
  dsimp only
  split <;> rfl

theorem readPositionNamed_capped (n : Nat) : (readPositionNamed n).CapsKept := .of_sessions fun s => by
  unfold readPositionNamed
  split <;> rfl

theorem refillNext_capped : refillNextRequest.CapsKept := fun s => by
  unfold refillNextRequest
  refine capped_ite (fun _ => .refl s) fun _ => capped_ite (fun _ => .refl s) fun _ => ?_
  split
  · exact .refl s
  · exact State.beginRefill_capped _ _

theorem clearSuspect_capped (b : Nat) : (clearSuspectRequest b).CapsKept := fun s => by
  unfold clearSuspectRequest
  split
  · exact .refl s
  · exact capped_ite (fun _ => .same rfl) fun _ => .refl s

theorem authorize_capped (n r k a l : Nat) : (authorizeRequest n r k a l).CapsKept := fun s => by
  unfold authorizeRequest
  split
  · exact capped_ite (fun _ => .refl s) fun _ => capped_ite (fun _ => .refl s) fun _ => capped_ite (fun _ => .refl s)
      fun _ => capped_ite (fun _ => .refl s) fun _ => .same rfl
  · exact .refl s

theorem cancel_capped (n r : Nat) : (cancelRequest n r).CapsKept := fun s => by
  unfold cancelRequest
  split
  · exact .refl s
  · exact capped_ite (fun _ => .refl s) fun _ => capped_ite (fun _ => .same rfl) fun _ => .refl s

theorem readRecord_capped (k n : Nat) : (readRecordRequest k n).CapsKept := fun s => by
  unfold readRecordRequest
  refine capped_ite (fun _ => .refl s) fun _ => capped_ite (fun _ => ?_) fun _ => capped_ite (fun _ => .refl s) fun _ => ?_
  · split <;> exact .refl s
  · split <;> exact .refl s

theorem settle_capped (n : Nat) : (settleRequest n).CapsKept := fun s => by
  unfold settleRequest
  refine capped_ite (fun _ => .refl s) fun _ => ?_
  split
  · exact .refl s
  · exact .same rfl

theorem setTariff_capped (i n : Nat) : (setTariffRequest i n).CapsKept := fun s => by
  unfold setTariffRequest
  refine capped_ite (fun _ => .refl s) fun _ => ?_
  split
  · exact .refl s
  · exact capped_ite (fun _ => .refl s) fun _ => .same rfl

theorem loadTable_capped (t i : Nat) (e : List Byte) : (loadTableRequest t i e).CapsKept := fun s => by
  have tariff : Capped s (loadTariff i e s).1 := capped_ite (fun _ => .refl s) fun _ => by
    split
    · exact .refl s
    · exact .same rfl
  have config : Capped s (loadConfigTable t i e s).1 := by
    unfold loadConfigTable
    split
    · exact .refl s
    · split
      · exact .refl s
      · exact .same rfl
  exact capped_ite (fun _ => .refl s) fun _ => capped_ite (fun _ => tariff) fun _ => config

theorem commission_capped : commissionRequest.CapsKept := fun s => capped_ite (fun _ => .refl s) fun _ => by
  split
  · exact .refl s
  · exact .same rfl

theorem enterService_capped : enterServiceRequest.CapsKept := fun s =>
  capped_ite (fun _ => .same rfl) fun _ => .refl s

theorem leaveService_capped : leaveServiceRequest.CapsKept := fun s => by
  unfold leaveServiceRequest
  split
  · split
    · exact .refl s
    · exact .same rfl
  · exact .refl s

theorem resumeSite_capped : resumeSiteRequest.CapsKept := fun s => capped_ite (fun _ => .same rfl) fun _ => .refl s

theorem setBand_capped (b : Nat) : (setBandRequest b).CapsKept := fun s => by
  unfold setBandRequest
  split
  · exact .refl s
  · exact capped_ite (fun _ => .refl s) fun _ => .same rfl

theorem readSite_capped (k t i c : Nat) : (readSiteRequest k t i c).CapsKept := fun s => by
  have entry : ∀ c, Capped s (readEntry c t i s).1 := fun c => by
    unfold readEntry
    split <;> exact .refl s
  unfold readSiteRequest
  refine capped_ite (fun _ => .refl s) fun _ => capped_ite (fun _ => .refl s) fun _ => capped_ite (fun _ => .refl s)
    fun _ => capped_ite (fun _ => entry _) fun _ => ?_
  split
  · exact entry _
  · exact .refl s

/-! ### Requests that reach the sessions -/

theorem nozzle_capped (v : Nat) : (nozzleRequest p v).CapsKept := fun s => by
  unfold nozzleRequest
  split
  · exact .refl s
  · exact capped_ite (fun _ => .refl s) fun _ => State.nozzleChange_capped _ _ _

theorem progress_capped (x t m : Nat) : (progressRequest p x t m).CapsKept := fun s =>
  capped_ite (fun _ => .refl s) fun _ => capped_ite (fun _ => .refl s) fun _ => State.takeProgress_capped _ _ _ _ _

theorem finalMeter_capped (m : Nat) : (finalMeterRequest p m).CapsKept := fun s => by
  have massed : Capped s (s.modSession p fun x => { x with finalMass := some m }) := (Capped.refl s).session
  unfold finalMeterRequest
  refine capped_ite (fun _ => .refl s) fun _ => ?_
  split
  · exact massed
  · exact (massed.trans (State.completeClosing_capped _ _)).trans (State.serveCloseQueue_capped _)
  all_goals exact .refl s

theorem vehicleFrame_capped (k c v x t f : Nat) : (vehicleFrameRequest p k c v x t f).CapsKept := fun s => by
  unfold vehicleFrameRequest
  split
  · exact capped_ite (fun _ => .refl s) fun _ =>
      Capped.ite (fun _ => State.takeValidFrame_capped _ _ _) fun _ => State.takeInvalidFrame_capped _ _
  · exact .refl s

theorem start_capped : (startRequest p).CapsKept := fun s => by
  unfold startRequest
  split
  · exact .refl s
  · split
    · split
      · exact .refl s
      · exact capped_ite (fun _ => .refl s) fun _ => State.openSession_capped _ _ _ _ _
    · exact .refl s

theorem stop_capped : (stopRequest p).CapsKept := fun s =>
  capped_ite (fun _ => State.endWith_capped _ _ _) fun _ => .refl s

theorem pause_capped : (pauseRequest p).CapsKept := fun s =>
  capped_ite (fun _ => State.setFactor_capped _ _ _) fun _ => .refl s

theorem continue_capped : (continueRequest p).CapsKept := fun s =>
  capped_ite (fun _ => State.clearNow_capped _ _ _) fun _ => .refl s

theorem bankStatus_capped (r : Quad Reading) (t : Nat) : (bankStatusRequest r t).CapsKept := fun s =>
  capped_of_done (State.takeBankStatus_capped s r t)

theorem coolingCapacity_capped (c : Nat) : (coolingCapacityRequest c).CapsKept := fun s =>
  capped_ite (fun _ => .refl s) fun _ => State.takeCapacity_capped s c

theorem refillEnd_capped (b : Nat) : (refillEndRequest b).CapsKept := fun s => by
  unfold refillEndRequest
  split
  · exact .refl s
  · exact capped_ite (fun _ => State.endRefill_capped _ _ _) fun _ => .refl s

theorem setSiteTime_capped (t : Nat) : (setSiteTimeRequest t).CapsKept := fun s =>
  (Capped.refl s).site.trans (State.overdueTest_capped _)

theorem emergencyStop_capped (q : PortId) : (emergencyStopRequest q).CapsKept := fun s => by
  unfold emergencyStopRequest
  split
  · exact .refl s
  · exact .refl s
  · exact State.emergencyStop_capped s _
  · exact State.emergencyStop_capped s _

theorem siteReset_capped : siteResetRequest.CapsKept := fun s =>
  capped_ite (fun _ => .refl s) fun _ => State.siteReset_capped s

/-- Every request that reads and answers alone. -/
theorem answer_capped (f : State → State × Reply) (h : ∀ s, (f s).1 = s) : Handler.CapsKept f := fun s => by
  rw [h s]
  exact .refl s

/-! ### The request of a frame -/

/-- Whatever frame spells it, a request keeps the ceilings within. -/
theorem handlerOf_capped (q : PortId) (kind : Nat) (body : List Byte) :
    (handlerOf q kind body).CapsKept := by
  unfold handlerOf
  split
  · unfold dispenserHandler
    split
    · exact readNotices_capped _
    · exact nozzle_capped _ _
    · exact start_capped _
    · exact stop_capped _
    · exact pause_capped _
    · exact continue_capped _
    · exact progress_capped _ _ _ _
    · exact finalMeter_capped _ _
    · exact vehicleFrame_capped _ _ _ _ _ _ _
    · exact answer_capped _ fun _ => rfl
    · exact answer_capped _ fun _ => rfl
  · unfold plantHandler
    split
    · exact readNotices_capped _
    · exact bankStatus_capped _ _
    · exact coolingCapacity_capped _
    · exact refillNext_capped
    · exact refillEnd_capped _
    · exact emergencyStop_capped _
    · exact answer_capped _ fun _ => rfl
    · exact answer_capped _ fun _ => rfl
  · unfold terminalHandler
    split
    · exact readNotices_capped _
    · exact authorize_capped _ _ _ _ _
    · exact cancel_capped _ _
    · exact readRecord_capped _ _
    · exact settle_capped _
    · exact answer_capped _ fun _ => rfl
  · unfold supervisorHandler
    split
    · exact readNotices_capped _
    · exact readPositionNamed_capped _
    · exact emergencyStop_capped _
    · exact answer_capped _ fun _ => rfl
    · exact readRecord_capped _ _
    · exact loadTable_capped _ _ _
    · exact commission_capped
    · exact enterService_capped
    · exact leaveService_capped
    · exact setBand_capped _
    · exact setTariff_capped _ _
    · exact setSiteTime_capped _
    · exact siteReset_capped
    · exact resumeSite_capped
    · exact clearSuspect_capped _
    · exact readSite_capped _ _ _ _
    · exact answer_capped _ fun _ => rfl
    · exact answer_capped _ fun _ => rfl

/-- The request of a READ POSITION, on whatever port and with whatever body. -/
theorem readPositionRequest_capped (q : PortId) (x : Option Byte) : (readPositionRequest q x).CapsKept := by
  match q, x with
  | .dispenser _, none => exact answer_capped _ fun _ => rfl
  | .supervisor, some _ => exact readPositionNamed_capped _
  | .dispenser _, some _ => exact answer_capped _ fun _ => rfl
  | .supervisor, none => exact answer_capped _ fun _ => rfl
  | .plant, none => exact answer_capped _ fun _ => rfl
  | .plant, some _ => exact readPositionNamed_capped _
  | .terminal, none => exact answer_capped _ fun _ => rfl
  | .terminal, some _ => exact readPositionNamed_capped _

/-- Every request command keeps the ceilings within. -/
theorem capped_of_request {i : Instr} {f : Frame} {h : Handler} (e : i.request? = some (f, h)) : h.CapsKept := by
  cases i with
  | readNotices q t => cases e; exact readNotices_capped _
  | nozzle p t x => cases e; exact nozzle_capped _ _
  | start p t => cases e; exact start_capped _
  | stop p t => cases e; exact stop_capped _
  | pause p t => cases e; exact pause_capped _
  | continueFill p t => cases e; exact continue_capped _
  | progress p t x y m => cases e; exact progress_capped _ _ _ _
  | finalMeter p t m => cases e; exact finalMeter_capped _ _
  | vehicleFrame p t k c v x y m => cases e; exact vehicleFrame_capped _ _ _ _ _ _ _
  | readPosition q t x => cases e; exact readPositionRequest_capped _ _
  | bankStatus t b a => cases e; exact bankStatus_capped _ _
  | coolingCapacity t c => cases e; exact coolingCapacity_capped _
  | refillNext t => cases e; exact refillNext_capped
  | refillEnd t b => cases e; exact refillEnd_capped _
  | emergencyStop q t => cases e; exact emergencyStop_capped _
  | readBanks q t => cases e; exact answer_capped _ fun _ => rfl
  | authorize t p r k a l => cases e; exact authorize_capped _ _ _ _ _
  | cancelAuthorization t p r => cases e; exact cancel_capped _ _
  | readRecord q t k n => cases e; exact readRecord_capped _ _
  | settle t n => cases e; exact settle_capped _
  | loadTable t k i l => cases e; exact loadTable_capped _ _ _
  | commission t => cases e; exact commission_capped
  | enterService t => cases e; exact enterService_capped
  | leaveService t => cases e; exact leaveService_capped
  | setBand t b => cases e; exact setBand_capped _
  | setTariff t i p => cases e; exact setTariff_capped _ _
  | setSiteTime t n => cases e; exact setSiteTime_capped _
  | siteReset t => cases e; exact siteReset_capped
  | resumeSite t => cases e; exact resumeSite_capped
  | clearSuspect t b => cases e; exact clearSuspect_capped _
  | readSite t k i j c => cases e; exact readSite_capped _ _ _ _
  | readCooling t => cases e; exact answer_capped _ fun _ => rfl
  | _ => exact nomatch e

namespace State

/-! ### Frames and commands -/

variable (s : State)

theorem takeFrame_capped (f : Frame) {h : Handler} (k : h.CapsKept) : Capped s (s.takeFrame f h) := by
  have served : Capped s (s.serve f h) := k (s.modPort f.port fun x => { x with exchange := .taking })
  unfold takeFrame
  split
  · exact .same rfl
  · split
    · exact .ite (fun _ => .same rfl) fun _ => served
    · exact served

theorem receiveBytes_capped (q : PortId) (l : List Byte) : Capped s (s.receiveBytes q l) := by
  refine .foldl _ (fun s b => ?_) l s
  unfold receiveByte
  split
  · exact .refl s
  · exact .refl s
  · split
    · exact .same rfl
    · exact .same rfl
    · exact (Capped.refl s).port.trans (takeFrame_capped _ _ (handlerOf_capped _ _ _))

theorem request_capped (f : Frame) {h : Handler} (k : h.CapsKept) : Capped s (s.request f h) := by
  unfold request
  split
  · exact .refl s
  · exact .refl s
  · exact .ite (fun _ => takeFrame_capped _ _ k) fun _ => receiveBytes_capped _ _ _

end State

open State

/-- A request command keeps the ceilings within. -/
theorem capped_of_exec_request {i : Instr} {f : Frame} {k : Handler} (e : i.request? = some (f, k)) {s t : State}
    (h : exec i s = .next t) : Capped s t := by
  rw [exec_request e s] at h
  cases h
  exact request_capped s f (capped_of_request e)

/-- Every command keeps the ceilings within. -/
theorem exec_capped (i : Instr) (s t : State) (h : exec i s = .next t) : Capped s t := by
  cases i with
  | powerOn => cases h; exact poweredOn_capped s
  | frameDiscarded q l => cases h; exact receiveBytes_capped s q l
  | byteGapExceeded q l => cases h; exact (receiveBytes_capped s q l).port
  | linkScreenAnswer q t k b => cases h; exact request_capped s _ (handlerOf_capped _ _ _)
  | repeatedRequest q t k b => cases h; exact request_capped s _ (handlerOf_capped _ _ _)
  | answerSent q => cases h; exact .same rfl
  | siteTimeTick => cases h; exact tickExpires_capped s
  | freshnessTimerExpiry => cases h; exact Capped.ite (fun _ => freshnessRunsOut_capped s) fun _ => .refl s
  | yieldTimerExpiry => cases h; exact Capped.ite (fun _ => yieldRunsOut_capped s) fun _ => .refl s
  | proofTimerExpiry b => cases h; exact proofExpires_capped s b
  | coolingWaitExpiry p => cases h; exact coolingWaitRunsOut_capped s p
  | progressTimerExpiry p => cases h; exact progressExpires_capped s p
  | ageTimerExpiry p => cases h; exact Capped.ite (fun _ => vehicleLost_capped s p _) fun _ => .refl s
  | connectPhaseEnd p => cases h; exact Capped.ite (fun _ => endConnect_capped s p) fun _ => .refl s
  | leakCheckEnd p => cases h; exact Capped.ite (fun _ => endLeakCheck_capped s p) fun _ => .refl s
  | settlePhaseEnd p => cases h; exact Capped.ite (fun _ => connected_capped s p) fun _ => .refl s
  | bankWaitExpiry p => cases h; exact Capped.ite (fun _ => endWith_capped s p _) fun _ => .refl s
  | segmentBoundary p => cases h; exact Capped.ite (fun _ => boundary_capped s p) fun _ => .refl s
  | warmTimerExpiry p => cases h; exact warmExpires_capped s p
  | resumeTimerExpiry p => cases h; exact Capped.ite (fun _ => resume_capped endNow_capsKept s p) fun _ => .refl s
  | keepTimerExpiry p => cases h; exact Capped.ite (fun _ => keepRelease_capped s p) fun _ => .refl s
  | holdLimitExpiry p => cases h; exact holdLimitExpires_capped s p
  | authorizationExpiry p => cases h; exact authorizationExpires_capped s p
  | closingTimeout => cases h; exact closingExpires_capped s
  | _ => exact capped_of_exec_request rfl h

/-- Settles O23: a step is a command or 0.1 s, and each keeps every session's ceilings within its class MAWP. -/
theorem stepsKeepCeilingsWithinMawp : Obligations.StepsKeepCeilingsWithinMawp := by
  intro s t within e p
  rcases step_cases s with ⟨i, r, c, taken⟩ | ⟨_, passes⟩
  · exact exec_capped i _ t (taken.symm.trans e) p (within p)
  · have : t = s.tick := by
      rw [passes] at e
      exact (Host.Outcome.next.inj e).symm
    exact this ▸ tick_capped s p (within p)

end Sys2Proof.Machine
end

section
/-! SUPPORT. What ends a running session outright (R107, R126, R140, R143), and the nozzle that leaves CONNECTED
(R103, R104). -/

namespace Sys2Proof.Machine

set_option Elab.async false

/-- An expiry leaves what its running out comes to, the notices taken into the queues. -/
theorem event_of {i : Instr} {s t u : State} (x : exec i s = .next t.flush) (e : t = u) : exec i s = .next u.flush :=
  e ▸ x

theorem Consistent.untaken {s : State} {f : Frame} (h : Consistent (s.taking f)) : Consistent s :=
  ⟨h.queued, h.held, h.sole, h.once, h.refill, h.forced, h.listed, h.cooled, h.away, h.closing, h.closingOnce, h.massed,
    h.registered, h.filed, h.closes, h.served⟩

/-- The end of a session leaves the queues, lists and registers in agreement. -/
theorem State.endWith_consistent {s : State} (h : Consistent s) (p : PosId) (r : EndReason) : Consistent (s.endWith p r) :=
  (endWith_linked h.bare p r).consistent

/-- A session that an event has ended does not run. -/
theorem EndsWith.running {s t : State} {p : PosId} {r : EndReason} (h : EndsWith s t p r) :
    (t.session p).running = false := by
  unfold Session.running
  rcases h.filed with ⟨e, _⟩ | ⟨e, _⟩
  · rw [e]
  · rw [e]

/-- A position whose session does not run stands at no bank and is not listed for cooling. -/
theorem Consistent.nowhere {s : State} (h : Consistent s) {p : PosId} (r : (s.session p).running = false) :
    (∀ b, (s.bank b).holder ≠ .position p ∧ p ∉ (s.bank b).queue) ∧ p ∉ s.cbu.positions := by
  obtain ⟨noBank, noWait, _⟩ := h.away p r
  refine ⟨fun b => ⟨fun e => ?_, fun m => ?_⟩, fun m => ?_⟩
  · exact nomatch noBank.symm.trans ((h.held b p).mp e)
  · exact nomatch noWait.symm.trans ((h.queued b p).mp m)
  · exact nomatch r.symm.trans (h.cooled p m)

theorem State.endsSilent_iff (x : Session) :
    State.endsSilent x = true ↔ x.state = .connecting ∨ x.state = .delivering ∨ x.state = .held := by
  unfold State.endsSilent
  cases x.state <;> decide

theorem Session.running_of_endsSilent {x : Session} (h : State.endsSilent x = true) : x.running = true := by
  unfold Session.running
  rcases (State.endsSilent_iff x).mp h with e | e | e <;> rw [e]

/-- A session whose held time alone is changed is where it was. -/
theorem Consistent.heldTime {s : State} (h : Consistent s) (p : PosId) (n : Nat) :
    Consistent (s.becomes p { s.session p with heldTime := n }) := h.becomes rfl

/-- What a Position Monitor holds does not enter the agreement of the state. -/
theorem Consistent.monitor {s : State} (h : Consistent s) (m : Quad Monitor) : Consistent { s with monitors := m } :=
  ⟨h.queued, h.held, h.sole, h.once, h.refill, h.forced, h.listed, h.cooled, h.away, h.closing, h.closingOnce, h.massed,
    h.registered, h.filed, h.closes, h.served⟩

section
variable {s : State} {p : PosId}

/-! ### The running out of the progress timer -/

theorem progressExpires_none (h : (s.monitor p).progressTimer = none) : s.progressExpires p = s :=
  if_neg (by rw [h]; nofun)

/-- A session that the running out does not end: the timer is stopped. -/
theorem progressExpires_idle (h : (s.monitor p).progressTimer ≠ none) (e : State.endsSilent (s.session p) = false) :
    s.progressExpires p = { s with monitors := s.monitors.set p { s.monitor p with progressTimer := none } } := by
  refine (if_pos (Option.isSome_iff_ne_none.mpr h)).trans ?_
  rw [e]
  refine (if_neg nofun).trans ?_
  unfold State.modMonitor
  simp only [Bool.or_false]
  rfl

/-- A session that it ends: the silence is noted with the timer stopped. -/
theorem progressExpires_ends (h : (s.monitor p).progressTimer ≠ none) (e : State.endsSilent (s.session p) = true) :
    s.progressExpires p =
      ({ s with monitors := s.monitors.set p { s.monitor p with progressTimer := none, silenced := true } }).endWith p
        .dispenserSilent := by
  refine (if_pos (Option.isSome_iff_ne_none.mpr h)).trans ?_
  rw [e]
  refine (if_pos rfl).trans ?_
  unfold State.modMonitor
  simp only [Bool.or_true]
  rfl

end

/-- Settles O53: each end is the end of R148 (`State.endWith_Ends`), of the state the running out leaves. -/
theorem stopsAndTimeoutsEndTheSession : Obligations.StopsAndTimeoutsEndTheSession := by
  refine ⟨fun p tag s k => ⟨fun run => ?_, fun run h => ?_⟩, fun p s => ?_⟩
  · exact exec_answers_of_wireForm (wireForm _) rfl rfl k (if_neg (by rw [show ((s.taking _).session p).running = false from run]; nofun))
  · obtain ⟨u, e, ends⟩ := State.taking_endWith (f := stopFrame p tag) h run .customerStop
    have agrees : Consistent u := (e ▸ State.endWith_consistent (h.taken _) p _ : Consistent (u.taking _)).untaken
    obtain ⟨away, unlisted⟩ := agrees.nowhere ends.ended.running
    refine ⟨u, ?_, ends, away, unlisted⟩
    exact exec_answers_of_wireForm (wireForm _) rfl rfl k ((if_pos run).trans (congrArg (·, (⟨.ok, []⟩ : Reply)) e))
  · intro x stopped quiet silent beyond listens
    refine ⟨fun none => ?_, fun runs idle => ?_, fun runs busy h => ?_, fun none => ?_, fun runs run h => ?_,
      fun free => ?_, fun held h => ?_⟩
    · exact event_of rfl (progressExpires_none none)
    · exact event_of rfl
        (progressExpires_idle runs (Bool.eq_false_iff.mpr ((State.endsSilent_iff x).not.mpr idle)))
    · have ends := (State.endsSilent_iff x).mpr busy
      exact ⟨_, event_of rfl (progressExpires_ends runs ends),
        State.endWith_Ends (s := silent) (h.monitor _) (Session.running_of_endsSilent ends) _⟩
    · exact event_of rfl
        (if_neg (Option.isSome_iff_ne_none.not.mpr (not_not.mpr none)))
    · exact ⟨_, event_of rfl (if_pos (Option.isSome_iff_ne_none.mpr runs)),
        State.endWith_Ends h run _⟩
    · exact event_of rfl (if_neg free)
    · refine ⟨_, event_of rfl (if_pos held), State.endWith_Ends (h.heldTime p _) ?_ _⟩
      rw [State.becomes_session]
      exact Session.running_of_endsSilent ((State.endsSilent_iff x).mpr (.inr (.inr held)))

end Sys2Proof.Machine
end

section
/-! SUPPORT. NOZZLE (R103, R104): the Position Monitor's part, and the end of a session whose nozzle leaves CONNECTED. -/

namespace Sys2Proof.Machine

set_option Elab.async false

/-! ### A vehicle record cleared after the end

The nozzle that leaves CONNECTED for HOLSTERED ends its session before the vehicle record is cleared; the end does not
see the record. -/

namespace State

/-- The state with the vehicle record of a position cleared (R103, step 2). -/
def cleared (s : State) (p : PosId) : State := s.modMonitor p Monitor.clearRecord

variable (s : State) (p q : PosId)

theorem cleared_pressure : ((s.cleared p).monitor q).pressure = (s.monitor q).pressure := by
  unfold cleared
  rw [modMonitor_monitor]
  split
  · rename_i e
    rw [e]
    rfl
  · rfl

theorem cleared_nozzlePressure : (s.cleared p).nozzlePressure q = s.nozzlePressure q := by
  unfold nozzlePressure
  rw [cleared_pressure]

theorem cleared_markedAs (r : EndReason) : (s.cleared p).markedAs q r = s.markedAs q r := by
  unfold markedAs
  rw [cleared_pressure]
  rfl

theorem cleared_endedAs (r : EndReason) : (s.cleared p).endedAs q r = s.endedAs q r := by
  unfold endedAs
  rw [cleared_markedAs]
  rfl

theorem cleared_afterClaim (x : Session) : (s.cleared p).afterClaim q x = s.afterClaim q x := by
  have pulse : (s.cleared p).pulseCeiling q = s.pulseCeiling q := by
    unfold pulseCeiling
    rw [cleared_nozzlePressure]
    rfl
  unfold afterClaim connectsAs
  rw [pulse]
  rfl

end State

section
variable {s u : State} {p : PosId} (z : PosId)

theorem Undisturbed.cleared (h : Undisturbed s u) : Undisturbed (s.cleared z) (u.cleared z) where
  pending := h.pending
  tenths := h.tenths
  ports := h.ports
  site := h.site
  capacity := h.capacity
  slots := h.slots
  tariff := h.tariff
  freshness := h.freshness
  ambient := h.ambient
  reports := h.reports
  monitors q := by
    unfold State.cleared
    rw [State.modMonitor_monitor, State.modMonitor_monitor]
    have k := h.monitors q
    unfold Monitor.held at k ⊢
    split
    · rename_i e
      rw [e] at k
      unfold Monitor.clearRecord
      simp_all
    · exact k
  sessions := h.sessions
  posts := h.posts
  records := h.records

theorem Examined.cleared {l : List BankId} (h : Examined s u l) : Examined (s.cleared z) (u.cleared z) l :=
  ⟨h.forced, h.opportunistic, h.others, h.designation, congrArg (fun w : State => w.cleared z) h.rest, h.manager⟩

theorem HoldsBank.cleared {b : BankId} (h : HoldsBank s u p b) : HoldsBank (s.cleared z) (u.cleared z) p b :=
  ⟨h.holder, h.bank, fun e => (h.session e).trans (s.cleared_afterClaim z p _).symm⟩

theorem Releases.cleared {b : BankId} (h : Releases s u p b) : Releases (s.cleared z) (u.cleared z) p b :=
  ⟨fun e => Examined.cleared z (h.free e), fun q rest e =>
    have ⟨holds, queue, mine, others, still, banks, manager, cbu, sales⟩ := h.handed q rest e
    ⟨holds.cleared z, queue, mine, others, still.cleared z, banks, manager, cbu, sales⟩⟩

theorem GivesBack.cleared {r : EndReason} (h : GivesBack s u p r) : GivesBack (s.cleared z) (u.cleared z) p r where
  holds b e := by
    rw [State.cleared_markedAs]
    exact Releases.cleared z (h.holds b e)
  waits b c a := by
    rw [State.cleared_markedAs]
    have ⟨eq, rest⟩ := h.waits b c a
    exact ⟨congrArg (fun w : State => w.cleared z) eq, rest⟩
  neither c a := by
    rw [State.cleared_markedAs]
    exact congrArg (fun w : State => w.cleared z) (h.neither c a)

theorem LeavesOthers.cleared (h : LeavesOthers s u p) : LeavesOthers (s.cleared z) (u.cleared z) p :=
  fun q n a => h q n ⟨a.bankQueues, a.coolingQueue, a.closeQueue, a.register⟩

theorem Ends.cleared {r : EndReason} (h : Ends s u p r) : Ends (s.cleared z) (u.cleared z) p r := by
  obtain ⟨ended, ⟨v, gives, leaves, none⟩, ⟨taken, rest, more, c⟩, others, still⟩ := h
  refine ⟨⟨?_, ended.filed, ended.shown⟩, ⟨v.cleared z, gives.cleared z, leaves.cleared z, none⟩, ⟨taken, rest, more, ?_⟩,
    others.cleared z, still.cleared z⟩
  · rw [State.cleared_endedAs]
    exact ended.record
  · exact ⟨c.queue, c.grants, c.unlisted, c.granting, c.demand, c.told, c.also, c.joined, c.free, c.busy, c.records⟩

end

/-! ### NOZZLE -/

theorem nozzleOf?_code (n : NozzleState) : nozzleOf? n.code = some n := by cases n <;> rfl

theorem nozzleOf?_of_lt {n : Nat} (h : 2 < n) : nozzleOf? n = none := by
  match n with
  | 0 => omega
  | 1 => omega
  | 2 => omega
  | n + 3 => rfl

/-- The Position Monitor's record of a nozzle state that has changed (R103): the progress values are forgotten where
CONNECTED is left, the vehicle record is cleared in HOLSTERED, and the progress timer starts in CONNECTED. -/
def Monitor.moved (m : Monitor) (n : NozzleState) (timeout : Nat) : Monitor :=
  { nozzle := n
    pressure := if m.nozzle = .connected then none else m.pressure
    temperature := if m.nozzle = .connected then none else m.temperature
    mass := if m.nozzle = .connected then none else m.mass
    progressTimer := if n = .connected then some timeout else if m.nozzle = .connected then none else m.progressTimer
    record := if n = .holstered then .empty else m.record
    vehicle := if n = .holstered then none else m.vehicle
    errors := if n = .holstered then 0 else m.errors
    ageTimer := if n = .holstered then none else m.ageTimer
    silenced := if m.nozzle = .connected then false else m.silenced }

namespace State

/-- A position's Position Monitor holds another record. -/
def watches (s : State) (p : PosId) (m : Monitor) : State := { s with monitors := s.monitors.set p m }

variable {s : State} {p : PosId}

theorem modMonitor_watches (s : State) (p : PosId) (f : Monitor → Monitor) :
    s.modMonitor p f = s.watches p (f (s.monitor p)) := rfl

theorem watches_monitor (s : State) (p : PosId) (m : Monitor) : (s.watches p m).monitor p = m := Quad.get_set_same _ _ _

theorem watches_watches (s : State) (p : PosId) (m n : Monitor) : (s.watches p m).watches p n = s.watches p n := by
  unfold watches
  congr 1
  exact Quad.set_set _ _ _ _

/-- What follows the end of a session, at a change of nozzle state (R103 step 2, R107). -/
def settlesNozzle (s : State) (p : PosId) (n : NozzleState) : State :=
  match n with
  | .holstered => s.cleared p
  | .lifted => s
  | .connected => s.restartProgress p

/-- A nozzle that was not CONNECTED. -/
theorem nozzleChange_of_away (n : NozzleState) (h : (s.monitor p).nozzle ≠ .connected) :
    s.nozzleChange p n = (s.watches p { s.monitor p with nozzle := n }).settlesNozzle p n := by
  unfold nozzleChange
  dsimp only
  rw [if_neg h]
  cases n <;> rfl

/-- A nozzle that leaves CONNECTED. -/
theorem nozzleChange_of_left (n : NozzleState) (h : (s.monitor p).nozzle = .connected) :
    s.nozzleChange p n =
      ((s.watches p { (s.monitor p).forgetProgress with nozzle := n }).endWith p .disconnected).settlesNozzle p n := by
  have leaves : (s.modMonitor p fun x => { x with nozzle := n }).nozzleLeaves p =
      (s.watches p { (s.monitor p).forgetProgress with nozzle := n }).endWith p .disconnected := by
    unfold nozzleLeaves
    rw [modMonitor_watches, modMonitor_watches, watches_watches, watches_monitor]
    rfl
  unfold nozzleChange
  dsimp only
  rw [if_pos h, leaves]
  cases n <;> rfl

theorem settlesNozzle_watches (n : NozzleState) (m : Monitor) : (s.watches p m).settlesNozzle p n =
    s.watches p (match n with
      | .holstered => m.clearRecord
      | .lifted => m
      | .connected => { m with progressTimer := some (s.config.param 8) }) := by
  cases n with
  | holstered =>
    show (s.watches p m).cleared p = _
    unfold cleared
    rw [modMonitor_watches, watches_watches, watches_monitor]
  | lifted => rfl
  | connected =>
    show (s.watches p m).restartProgress p = _
    unfold restartProgress
    rw [modMonitor_watches, watches_watches, watches_monitor]
    rfl

/-- A change of nozzle state that does not leave CONNECTED with a session under way. -/
theorem nozzleChange_of_stays (n : NozzleState)
    (h : (s.monitor p).nozzle ≠ .connected ∨ (s.session p).running = false) :
    s.nozzleChange p n = s.watches p ((s.monitor p).moved n (s.config.param 8)) := by
  by_cases left : (s.monitor p).nozzle = .connected
  · have idle := h.resolve_left fun k => k left
    have still : ∀ m : Monitor, (s.watches p m).endWith p .disconnected = s.watches p m := fun m =>
      if_neg (by rw [show ((s.watches p m).session p).running = false from idle]; nofun)
    rw [nozzleChange_of_left n left, still, settlesNozzle_watches]
    unfold Monitor.moved
    cases n <;> simp only [left] <;> rfl
  · rw [nozzleChange_of_away n left, settlesNozzle_watches]
    unfold Monitor.moved
    cases n <;> simp only [left, if_false] <;> rfl

/-- A nozzle that leaves CONNECTED with a session under way ends it (R104). -/
theorem nozzleChange_ends (n : NozzleState) (h : Consistent s) (left : (s.monitor p).nozzle = .connected)
    (ne : n ≠ .connected) (run : (s.session p).running = true) :
    Ends (s.watches p ((s.monitor p).moved n (s.config.param 8))) (s.nozzleChange p n) p .disconnected := by
  have ends : Ends (s.watches p { (s.monitor p).forgetProgress with nozzle := n })
      ((s.watches p { (s.monitor p).forgetProgress with nozzle := n }).endWith p .disconnected) p .disconnected :=
    endWith_Ends (s := s.watches p { (s.monitor p).forgetProgress with nozzle := n }) (h.monitor _) run _
  have moved : (s.watches p { (s.monitor p).forgetProgress with nozzle := n }).settlesNozzle p n =
      s.watches p ((s.monitor p).moved n (s.config.param 8)) := by
    rw [settlesNozzle_watches]
    unfold Monitor.moved
    cases n <;> simp only [left] <;> rfl
  rw [nozzleChange_of_left n left, ← moved]
  cases n with
  | holstered => exact ends.cleared p
  | lifted => exact ends
  | connected => exact absurd rfl ne

end State

/-- Settles O48: the change of nozzle state is the record `Monitor.moved`, and the end of a session that leaves
CONNECTED is the end of R148, the vehicle record cleared after it or not. -/
theorem nozzleStatesAreKept : Obligations.NozzleStatesAreKept := by
  intro p tag value s k answers m
  have answer {t : State} {c : Code} {body : List Byte} :=
    exec_answers_of_wireForm (t := t) (c := c) (body := body) (Laws.WireForm.nozzle p tag value) rfl rfl k
  refine ⟨fun h => answer ?_, fun h => answer ?_, ?_⟩
  · unfold nozzleRequest
    rw [nozzleOf?_of_lt h]
    rfl
  · unfold nozzleRequest
    rw [h, nozzleOf?_code]
    exact if_pos rfl
  · intro n code ne left away kept
    have taken : nozzleRequest p value.toNat (s.taking (nozzleFrame p tag value)) =
        done ((s.taking (nozzleFrame p tag value)).nozzleChange p n) := by
      unfold nozzleRequest
      rw [code, nozzleOf?_code]
      exact if_neg ne
    refine ⟨fun h => answer ?_, fun isLeft run h => ?_⟩
    · exact taken.trans (congrArg done (State.nozzleChange_of_stays (s := s.taking (nozzleFrame p tag value)) n h))
    · have ends := State.nozzleChange_ends (s := s.taking (nozzleFrame p tag value)) n (h.taken _) isLeft
        (fun e => ne (e.trans isLeft.symm)) run
      refine ⟨{ (s.taking (nozzleFrame p tag value)).nozzleChange p n with ports := s.ports }, answer ?_,
        Ends.untaken (s := { s with monitors := s.monitors.set p kept }) (f := nozzleFrame p tag value) ends⟩
      rw [taken]
      exact congrArg done 
        (Undisturbed.taking (s := { s with monitors := s.monitors.set p kept }) (f := nozzleFrame p tag value) ends.rest)

end Sys2Proof.Machine
end

section
/-! SUPPORT. The ends of CONNECT, LEAK CHECK and SETTLE (R123, R128 to R131, R134). -/

namespace Sys2Proof.Machine

set_option Elab.async false

namespace State

variable (s : State) (p : PosId)

/-! ### Phases that a settle interval of 0 ends at once -/

theorem checksAs_connectsAs (x : Session) : s.checksAs p (s.connectsAs p x) = s.checksAs p x := rfl

theorem connectedAs_settlesAs (x : Session) : s.connectedAs (s.settlesAs p x) = s.connectedAs x := rfl

/-- What CONNECT is computed from stands in a few fields of the session. -/
theorem becomes_connectsAs (x y : Session) (h : x.profile = (s.session p).profile)
    (b : x.rampBase = (s.session p).rampBase) (a : x.activeTime = (s.session p).activeTime)
    (c : x.fuelClass = (s.session p).fuelClass) : (s.becomes p x).connectsAs p y = s.connectsAs p y := by
  unfold connectsAs
  rw [becomes_pulseCeiling s p x h b a c, becomes_profileOf s p x h]

theorem becomes_checksAs (x y : Session) (h : x.profile = (s.session p).profile) :
    (s.becomes p x).checksAs p y = s.checksAs p y := by
  unfold checksAs
  rw [becomes_profileOf s p x h]
  rfl

/-- A CONNECT phase of a settle interval of 0, no factor set: LEAK CHECK follows at once. -/
theorem beginConnect_atOnce (zero : (s.profileOf p).settleInterval = 0) (clear : (s.session p).factors = Factors.none) :
    s.beginConnect p = s.becomes p (s.checksAs p (s.session p)) := by
  refine (if_pos zero).trans ?_
  rw [modSession_becomes]
  refine (if_pos ?_).trans ?_
  · rw [becomes_session]
    exact (Factors.isEmpty_iff _).mpr clear
  · rw [beginLeakCheck_eq, becomes_session, becomes_becomes]
    exact congrArg (s.becomes p) (becomes_checksAs s p (s.connectsAs p (s.session p)) _ rfl)

/-- A SETTLE phase of a settle interval of 0: the connection ends at once. -/
theorem beginSettle_atOnce (zero : (s.profileOf p).settleInterval = 0) :
    s.beginSettle p = s.shows p (s.connectedAs (s.session p)) := by
  refine (if_pos zero).trans ?_
  rw [modSession_becomes, connected_eq, becomes_session, becomes_shows]
  exact congrArg (s.shows p) (connectedAs_settlesAs s p _)

/-! ### The phase in progress -/

variable {s p}

theorem phaseRuns_iff {f : Phase} : s.phaseRuns p f = true ↔
    (s.session p).state = .connecting ∧ (s.session p).phase = some f ∧ (s.session p).phaseTimer ≠ none := by
  unfold phaseRuns
  rw [Bool.and_eq_true, Bool.and_eq_true, decide_eq_true_iff, decide_eq_true_iff, and_assoc, Option.isSome_iff_ne_none]

theorem endConnect_clear (clear : (s.session p).factors = Factors.none) :
    s.endConnect p = s.becomes p (s.checksAs p (s.session p)) := if_pos ((Factors.isEmpty_iff _).mpr clear)

theorem endConnect_held (set : (s.session p).factors ≠ Factors.none) :
    s.endConnect p = s.shows p (s.heldAs (s.session p) (some .leakCheck)) :=
  (if_neg fun e => set ((Factors.isEmpty_iff _).mp e)).trans (enterHeld_eq _ _ _)

/-! ### The end of a leak check -/

/-- The record whose LEAK CHECK has been read. -/
def leakRead (x : Session) : Session := { x with leakStart := none, phaseTimer := none }

/-- The record of a LEAK CHECK that passes: the first reading is the start pressure and the ramp base. -/
def leakBased (s : State) (p : PosId) (x : Session) : Session :=
  if x.rampBase.isSome then x
  else
    { x with startPressure := some (s.nozzlePressure p), rampBase := some (min (s.nozzlePressure p) 12000), activeTime := 0 }

theorem leakPassed_eq (s : State) (p : PosId) :
    s.leakPassed p (s.nozzlePressure p) = s.shows p (s.connectedAs (leakBased s p (s.session p))) := by
  have based : s.leakPassed p (s.nozzlePressure p) = (s.becomes p (leakBased s p (s.session p))).connected p := by
    unfold leakPassed leakBased
    dsimp only
    rw [modSession_becomes]
    cases (s.session p).rampBase <;> rfl
  rw [based, connected_eq, becomes_session, becomes_shows]
  rfl

theorem endLeakCheck_passes
    (h : (s.session p).leakStart.getD 0 - s.nozzlePressure p ≤ (s.profileOf p).leakDropLimit) :
    s.endLeakCheck p = s.shows p (s.connectedAs (leakBased s p (leakRead (s.session p)))) := by
  refine (if_pos (Eq.trans_ge ?_ h)).trans ?_
  · rw [modSession_becomes, becomes_profileOf]
    rfl
  · refine (leakPassed_eq (s.becomes p (leakRead (s.session p))) p).trans ?_
    rw [becomes_session, becomes_shows]
    rfl

theorem endLeakCheck_fails
    (h : ¬(s.session p).leakStart.getD 0 - s.nozzlePressure p ≤ (s.profileOf p).leakDropLimit) :
    s.endLeakCheck p = (s.becomes p (leakRead (s.session p))).leakFailed p := by
  refine (if_neg fun e => h (Eq.trans_ge ?_ e)).trans rfl
  rw [modSession_becomes, becomes_profileOf]
  rfl

theorem leakFailed_again (h : (s.session p).attempt ≠ some .recheck) (clear : (s.session p).factors = Factors.none) :
    s.leakFailed p = (s.becomes p { s.session p with attempt := some .recheck }).beginConnect p := by
  refine (if_neg h).trans (if_pos ?_)
  rw [modSession_becomes, becomes_session]
  exact (Factors.isEmpty_iff _).mpr clear

theorem leakFailed_held (h : (s.session p).attempt ≠ some .recheck) (set : (s.session p).factors ≠ Factors.none) :
    s.leakFailed p = s.shows p (s.heldAs { s.session p with attempt := some .recheck } (some .connect)) := by
  refine (if_neg h).trans ((if_neg ?_).trans ?_)
  · rw [modSession_becomes, becomes_session]
    exact fun e => set ((Factors.isEmpty_iff _).mp e)
  · rw [enterHeld_eq, modSession_becomes, becomes_session, becomes_shows]
    rfl

end State

/-- Settles O56: each phase end is the transition of a Fill Engine that the record says (`connected_eq`,
`beginConnect_eq`), and a failed RECHECK the end of R148. -/
theorem phaseEndsMoveTheConnectionOn : Obligations.PhaseEndsMoveTheConnectionOn := by
  intro p s x runs goes clear reading passes checked based again
  have idle : ∀ f, ¬runs f → ¬s.phaseRuns p f = true := fun f n e => n (State.phaseRuns_iff.mp e)
  have here : (s.becomes p checked).session p = checked := State.becomes_session _ _ _
  have anew : (s.becomes p again).session p = again := State.becomes_session _ _ _
  have fails : runs .leakCheck → ¬passes → s.leakCheckExpires p = (s.becomes p checked).leakFailed p := fun r f =>
    (if_pos (State.phaseRuns_iff.mpr r)).trans (State.endLeakCheck_fails f)
  have repeats : runs .leakCheck → ¬passes → x.attempt ≠ some .recheck → clear →
      s.leakCheckExpires p = (s.becomes p again).beginConnect p := fun r f a c => by
    rw [fails r f, State.leakFailed_again (by rw [here]; exact a) (by rw [here]; exact c), here, State.becomes_becomes]
  have profile : (s.becomes p again).profileOf p = s.profileOf p := State.becomes_profileOf s p again rfl
  refine ⟨fun n => ?_, fun r c => ?_, fun r c => ?_, fun n => ?_, fun r ok => ?_, fun r f a h => ?_, fun r f a c z => ?_,
    fun r f a c => ?_, fun r f a c z => ?_, fun n => ?_, fun r => ?_⟩
  · exact event_of rfl (if_neg (idle _ n))
  · exact event_of rfl ((if_pos (State.phaseRuns_iff.mpr r)).trans (State.endConnect_clear c))
  · exact event_of rfl ((if_pos (State.phaseRuns_iff.mpr r)).trans (State.endConnect_held c))
  · exact event_of rfl (if_neg (idle _ n))
  · exact event_of rfl ((if_pos (State.phaseRuns_iff.mpr r)).trans (State.endLeakCheck_passes ok))
  · refine ⟨_, event_of rfl ((fails r f).trans (if_pos (by rw [here]; exact a))),
      State.endWith_Ends (s := s.becomes p checked) (h.becomes rfl) ?_ _⟩
    rw [here]
    exact Session.running_of_endsSilent ((State.endsSilent_iff _).mpr (.inl r.1))
  · refine event_of rfl ((repeats r f a c).trans ?_)
    rw [State.beginConnect_eq _ _ (by rw [profile]; exact z), anew, State.becomes_becomes,
      State.becomes_connectsAs s p again again rfl rfl rfl rfl]
  · refine event_of rfl ((fails r f).trans ?_)
    rw [State.leakFailed_held (by rw [here]; exact a) (by rw [here]; exact c), here, State.becomes_shows]
    rfl
  · refine event_of rfl ((repeats r f a c).trans ?_)
    rw [State.beginConnect_atOnce _ _ (by rw [profile]; exact z) (by rw [anew]; exact c), anew, State.becomes_becomes,
      State.becomes_checksAs s p again again rfl]
  · exact event_of rfl (if_neg (idle _ n))
  · exact event_of rfl ((if_pos (State.phaseRuns_iff.mpr r)).trans (State.connected_eq s p))

end Sys2Proof.Machine
end

section
/-! SUPPORT. What four things done in order come to; proofs abandoned on every bank (R80); stale data (R54). -/

namespace Sys2Proof.Machine

set_option Elab.async false

/-! ### Four things done in order -/

/-- A property that one of the four things brings about, the others keeping what comes before it and after it. -/
theorem inOrder_reaches {σ : Type} {P Q : σ → Prop} {f : Fin 4 → σ → σ} (b : Fin 4)
    (before : ∀ i, i ≠ b → ∀ t, P t → P (f i t)) (here : ∀ t, P t → Q (f b t))
    (after : ∀ i, i ≠ b → ∀ t, Q t → Q (f i t)) {s : σ} (h : P s) : Q (inOrder f s) :=
  match b with
  | 0 => after 3 (by decide) _ (after 2 (by decide) _ (after 1 (by decide) _ (here _ h)))
  | 1 => after 3 (by decide) _ (after 2 (by decide) _ (here _ (before 0 (by decide) _ h)))
  | 2 => after 3 (by decide) _ (here _ (before 1 (by decide) _ (before 0 (by decide) _ h)))
  | 3 => here _ (before 2 (by decide) _ (before 1 (by decide) _ (before 0 (by decide) _ h)))

/-- Where each of the four things changes its own part only, each part is changed once. -/
theorem inOrder_part {σ α : Type} (g : σ → Fin 4 → α) (G : Fin 4 → α → α) {f : Fin 4 → σ → σ}
    (own : ∀ t b, g (f b t) b = G b (g t b)) (other : ∀ t b c, c ≠ b → g (f b t) c = g t c) (s : σ) (b : Fin 4) :
    g (inOrder f s) b = G b (g s b) :=
  inOrder_reaches (P := fun t => g t b = g s b) (Q := fun t => g t b = G b (g s b)) b
    (fun i n t e => (other t i b (Ne.symm n)).trans e) (fun t e => (own t b).trans (congrArg (G b) e))
    (fun i n t e => (other t i b (Ne.symm n)).trans e) rfl

/-! ### Proofs abandoned -/

/-- A bank whose proof has been abandoned, FREE when PROOF held it (R80). -/
def Bank.unproving (x : Bank) : Bank :=
  { x with
    holder := if x.holder = .proof then .free else x.holder
    proofState := (x.proof.map (·.before)).getD x.proofState
    proof := none }

namespace State

variable (s : State)

theorem abandonAndFree_eq (b : BankId) :
    s.abandonAndFree b =
      { s with
        bm :=
          { s.bm with
            banks := s.bm.banks.set b (s.bank b).unproving
            designation :=
              if (s.bank b).proof.isSome = true ∧ s.bm.designation = some b then none else s.bm.designation } } := by
  unfold abandonAndFree Bank.unproving
  dsimp only
  rw [abandonProof_eq]
  by_cases c : (s.bank b).holder = .proof
  · rw [if_pos c]
    refine (if_pos ?_).trans ?_
    · unfold bank
      rw [Quad.get_set_same]
      exact c
    · unfold modBank
      simp only [Quad.get_set_same, Quad.set_set]
  · rw [if_neg c]
    refine if_neg ?_
    unfold bank
    rw [Quad.get_set_same]
    exact c

/-- Every proof is abandoned. -/
def abandonAll : State := inOrder (fun b s => s.abandonAndFree b) s

theorem abandonAll_bank (b : BankId) : s.abandonAll.bank b = (s.bank b).unproving :=
  inOrder_part (fun t : State => t.bank) (fun _ => Bank.unproving)
    (fun t b => by rw [abandonAndFree_eq]; exact Quad.get_set_same _ _ _)
    (fun t b c n => by rw [abandonAndFree_eq]; exact Quad.get_set_ne _ _ n) s b

theorem abandonAll_designation (b : BankId) :
    s.abandonAll.bm.designation = some b ↔ s.bm.designation = some b ∧ (s.bank b).proof.isSome = false := by
  have each : ∀ t : State, ∀ c d : BankId, (t.abandonAndFree c).bm.designation = some d ↔
      t.bm.designation = some d ∧ ((t.bank c).proof.isSome = true → c ≠ d) := fun t c d => by
    rw [abandonAndFree_eq]
    dsimp only
    split
    · rename_i e
      exact ⟨nofun, fun k => absurd (Option.some.inj (e.2.symm.trans k.1)) (k.2 e.1)⟩
    · rename_i e
      exact ⟨fun k => ⟨k, fun i m => e ⟨i, m ▸ k⟩⟩, And.left⟩
  have bank : ∀ t : State, ∀ c d : BankId, d ≠ c → (t.abandonAndFree c).bank d = t.bank d := fun t c d n => by
    rw [abandonAndFree_eq]
    exact Quad.get_set_ne _ _ n
  refine inOrder_reaches
    (P := fun t : State => t.bank b = s.bank b ∧ (t.bm.designation = some b ↔ s.bm.designation = some b))
    (Q := fun t : State => t.bm.designation = some b ↔ s.bm.designation = some b ∧ (s.bank b).proof.isSome = false)
    b (fun i n t k => ?_) (fun t k => ?_) (fun i n t k => ?_) ⟨rfl, Iff.rfl⟩
  · exact ⟨(bank t i b (Ne.symm n)).trans k.1,
      (each t i b).trans ((and_iff_left fun _ => n).trans k.2)⟩
  · rw [each, k.1, k.2]
    cases (s.bank b).proof.isSome <;> simp
  · exact (each t i b).trans ((and_iff_left fun _ => n).trans k)

/-- Beside the banks and the designation nothing is changed. -/
theorem abandonAll_rest : { s.abandonAll with bm := s.bm } = s
    ∧ { s.abandonAll.bm with banks := s.bm.banks, designation := s.bm.designation } = s.bm :=
  inOrder_keeps
    (fun t : State => { t with bm := s.bm } = s
      ∧ { t.bm with banks := s.bm.banks, designation := s.bm.designation } = s.bm)
    _ (fun b t k => by rw [abandonAndFree_eq]; exact k) s ⟨rfl, rfl⟩

/-! ### The claim holders told of stale data -/

/-- A session with its BANK factor set, its resume timer cancelled (R54, R142). -/
def unbanked (x : Session) : Session := { x with factors := { x.factors with bank := true }, resumeTimer := none }

theorem tellStale_eq (b : BankId) :
    s.tellStale b =
      match (s.bank b).holder.position? with
      | some p => s.becomes p (unbanked (s.session p))
      | none => s := rfl

theorem position?_eq_some {h : Holder} {p : PosId} : h.position? = some p ↔ h = .position p := by
  unfold Holder.position?
  cases h <;> simp

/-- The claim holders are told in the order of their banks. -/
def tellAll : State := inOrder (fun b s => s.tellStale b) s

theorem tellAll_rest : { s.tellAll with sessions := s.sessions } = s :=
  inOrder_keeps (fun t : State => { t with sessions := s.sessions } = s) _
    (fun b t k => by
      rw [tellStale_eq]
      split <;> exact k) s rfl

variable {s}

/-- What one claim holder's session is told: nothing, or to set its factor. -/
theorem tellStale_session (b : BankId) (p : PosId) :
    ((s.bank b).holder = .position p → (s.tellStale b).session p = unbanked (s.session p))
      ∧ ((s.bank b).holder ≠ .position p → (s.tellStale b).session p = s.session p) := by
  rw [tellStale_eq]
  cases e : (s.bank b).holder.position? with
  | none =>
    refine ⟨fun k => ?_, fun _ => rfl⟩
    rw [position?_eq_some.mpr k] at e
    exact nomatch e
  | some q =>
    have at_q := position?_eq_some.mp e
    refine ⟨fun k => ?_, fun k => ?_⟩
    · obtain rfl : q = p := Holder.position.inj (at_q.symm.trans k)
      exact becomes_session _ _ _
    · exact Quad.get_set_ne _ _ fun i => k (i ▸ at_q)

theorem tellStale_bank (b c : BankId) : (s.tellStale b).bank c = s.bank c := by
  unfold bank
  rw [tellStale_bm]

theorem tellAll_session_of_holder {b : BankId} {p : PosId} (h : (s.bank b).holder = .position p) :
    s.tellAll.session p = unbanked (s.session p) := by
  have step : ∀ i (t : State), t.session p = unbanked (s.session p) → (t.tellStale i).session p = unbanked (s.session p) :=
    fun i t k => by
      by_cases c : (t.bank i).holder = .position p
      · rw [(tellStale_session i p).1 c, k]
        rfl
      · rw [(tellStale_session i p).2 c, k]
  refine inOrder_reaches
    (P := fun t : State => (t.bank b).holder = .position p
      ∧ (t.session p = s.session p ∨ t.session p = unbanked (s.session p)))
    (Q := fun t : State => t.session p = unbanked (s.session p)) b (fun i _ t k => ?_) (fun t k => ?_)
    (fun i _ t k => step i t k) ⟨h, .inl rfl⟩
  · refine ⟨by rw [tellStale_bank]; exact k.1, ?_⟩
    rcases k.2 with e | e
    · by_cases c : (t.bank i).holder = .position p
      · exact .inr (((tellStale_session i p).1 c).trans (congrArg unbanked e))
      · exact .inl (((tellStale_session i p).2 c).trans e)
    · exact .inr (step i t e)
  · rw [(tellStale_session b p).1 k.1]
    rcases k.2 with e | e <;> rw [e]
    rfl

theorem tellAll_session_of_none {p : PosId} (h : ∀ b, (s.bank b).holder ≠ .position p) :
    s.tellAll.session p = s.session p :=
  (inOrder_keeps (fun t : State => (∀ b, (t.bank b).holder ≠ .position p) ∧ t.session p = s.session p) _
    (fun i t k => ⟨fun b => by rw [tellStale_bank]; exact k.1 b, ((tellStale_session i p).2 (k.1 i)).trans k.2⟩)
    s ⟨h, rfl⟩).2

end State

/-- Settles O44: the claim holders are told (`State.tellAll_session_of_holder`), and then every proof is abandoned
(`State.abandonAll_bank`). -/
theorem staleDataHoldTheClaimHolders : Obligations.StaleDataHoldTheClaimHolders := by
  intro s
  refine ⟨fun none => event_of rfl (if_neg (by rw [none]; nofun)), fun runs => ?_⟩
  let t : State := { s with
    bm := { s.bm with freshness := .stale, freshnessTimer := none }
    outbox := s.outbox ++ [.bankDataStale] }
  have told : { t.tellAll with sessions := t.sessions } = t := t.tellAll_rest
  have bm : t.tellAll.bm = t.bm := id (congrArg State.bm told :)
  have bank : ∀ b, t.tellAll.bank b = s.bank b := fun b => id (congrArg (fun m : BankManager => m.banks.get b) bm :)
  obtain ⟨rest, manager⟩ := t.tellAll.abandonAll_rest
  have session : ∀ p, t.tellAll.abandonAll.session p = t.tellAll.session p := fun p => congrArg (·.session p) rest
  have designation : ∀ b, t.tellAll.abandonAll.bm.designation = some b ↔
      s.bm.designation = some b ∧ (s.bank b).proof.isSome = false := fun b => by
    rw [State.abandonAll_designation, bm, bank]
  rw [bm] at manager
  refine ⟨t.tellAll.abandonAll, event_of rfl (if_pos (Option.isSome_iff_ne_none.mpr runs)), ?_, ?_, ?_, fun p h => ?_,
    fun p h => ?_, fun b => ?_, fun b h e => ?_, fun b d h => ?_, ?_, ?_⟩
  · exact congrArg (·.freshness) manager
  · exact congrArg (·.freshnessTimer) manager
  · exact (congrArg State.outbox rest).trans (congrArg State.outbox told)
  · obtain ⟨b, holds⟩ := h
    exact (session p).trans (State.tellAll_session_of_holder (s := t) (b := b) holds)
  · exact (session p).trans (State.tellAll_session_of_none (s := t) h)
  · rw [State.abandonAll_bank, bank]
    rfl
  · exact nomatch h.symm.trans ((designation b).mp e).2
  · exact (designation b).mpr ⟨d, by rw [h]; rfl⟩
  · have whole := rest.trans (congrArg (fun v : State => { v with sessions := t.tellAll.sessions }) told)
    exact congrArg (fun v : State => { v with outbox := s.outbox, sessions := s.sessions, bm := s.bm }) whole
  · exact congrArg (fun m : BankManager => { m with freshness := s.bm.freshness, freshnessTimer := s.bm.freshnessTimer })
      manager

end Sys2Proof.Machine
end

section
/-! SUPPORT. The overdue test of every bank and the forced examinations within it (R33, R77, R78). -/

namespace Sys2Proof.Machine

set_option Elab.async false

namespace State

variable (s : State)

/-! ### The overdue flag of one bank -/

/-- PROOF OVERDUE of a bank newly overdue (R77). -/
def overdueNews (b : BankId) : List Notice :=
  if (s.isOverdue b && !(s.bank b).overdue) = true then
    [.proofOverdue b (if (s.bank b).baseIsProven then (s.bank b).provenAt else none)]
  else []

/-- The overdue test of a bank without the examination that follows it. -/
def flagged (b : BankId) : State :=
  { s with
    bm := { s.bm with banks := s.bm.banks.set b { s.bank b with overdue := s.isOverdue b } }
    outbox := s.outbox ++ s.overdueNews b }

theorem flagged_bank_same (b : BankId) : (s.flagged b).bank b = { s.bank b with overdue := s.isOverdue b } :=
  Quad.get_set_same _ _ _

theorem flagged_bank_ne {b c : BankId} (h : c ≠ b) : (s.flagged b).bank c = s.bank c := Quad.get_set_ne _ _ h

/-- The flag is not what the flag is set by. -/
theorem flagged_proofAge (b c : BankId) : (s.flagged b).proofAge c = s.proofAge c := by
  by_cases e : c = b
  · subst e
    unfold proofAge proofBase
    rw [flagged_bank_same]
    rfl
  · unfold proofAge proofBase
    rw [flagged_bank_ne _ e]
    rfl

theorem isOverdue_congr {t : State} {b : BankId} (age : t.proofAge b = s.proofAge b) (config : t.config = s.config) :
    t.isOverdue b = s.isOverdue b := by
  unfold isOverdue
  rw [age, config]

theorem flagged_isOverdue (b c : BankId) : (s.flagged b).isOverdue c = s.isOverdue c :=
  isOverdue_congr s (flagged_proofAge s b c) rfl

theorem flagged_holder (b c : BankId) : ((s.flagged b).bank c).holder = (s.bank c).holder := by
  by_cases e : c = b
  · rw [e, flagged_bank_same]
  · rw [flagged_bank_ne _ e]

theorem flagged_takesForced (b c : BankId) : (s.flagged b).TakesForced c ↔ s.TakesForced c := by
  unfold TakesForced
  simp only [flagged_isOverdue, flagged_proofAge, flagged_holder]
  rfl

/-- The bank that a forced examination takes, with the flag that a test before it has set. -/
theorem forcedBank_flag {t : State} {b : BankId} {o : Bool} (bank : t.bank b = { s.bank b with overdue := o })
    (config : t.config = s.config) : t.forcedBank b = { s.forcedBank b with overdue := o } := by
  unfold forcedBank provingBank
  rw [bank, config]
  dsimp only
  split <;> rfl

theorem flagged_forcedBank_same (b : BankId) :
    (s.flagged b).forcedBank b = { s.forcedBank b with overdue := s.isOverdue b } :=
  forcedBank_flag s (flagged_bank_same s b) rfl

theorem flagged_forcedBank_ne {b c : BankId} (h : c ≠ b) : (s.flagged b).forcedBank c = s.forcedBank c := by
  unfold forcedBank provingBank
  rw [flagged_bank_ne _ h]
  rfl

theorem overdueTestOf_eq (b : BankId) :
    s.overdueTestOf b = if s.isOverdue b = true then (s.flagged b).forcedExamination else s.flagged b := by
  unfold overdueTestOf flagged overdueNews
  by_cases late : s.isOverdue b = true
  · rw [if_pos late, if_pos late]
    by_cases known : (s.bank b).overdue = true
    · have same : ({ s.bank b with overdue := true } : Bank) = s.bank b := by rw [← known]
      have unchanged : s.bm.banks.set b (s.bank b) = s.bm.banks := s.bm.banks.set_get b
      rw [if_pos known, late, known, same, unchanged]
      simp
    · rw [if_neg known, late]
      simp only [Bool.not_eq_true] at known
      rw [known]
      rfl
  · rw [if_neg late, if_neg late]
    simp only [Bool.not_eq_true] at late
    rw [late]
    simp [modBank]

/-! ### A test after a forced examination -/

/-- The state with a bank held for a forced proof (R78). -/
def takenForced (c : BankId) : State :=
  { s with bm := { s.bm with banks := s.bm.banks.set c (s.forcedBank c), designation := some c } }

theorem forced_or_none : (s.forcedExamination = s ∧ ∀ b, ¬s.TakesForced b)
    ∨ ∃ c, s.TakesForced c ∧ (∀ d, s.TakesForced d → d = c) ∧ s.forcedExamination = s.takenForced c :=
  s.forcedExamination_cases

theorem takenForced_bank_same (c : BankId) : (s.takenForced c).bank c = s.forcedBank c := Quad.get_set_same _ _ _

theorem takenForced_bank_ne {b c : BankId} (h : b ≠ c) : (s.takenForced c).bank b = s.bank b := Quad.get_set_ne _ _ h

/-- A bank whose age is known keeps it under the proof that begins. -/
theorem takenForced_age {c : BankId} (late : s.isOverdue c = true) (b : BankId) :
    (s.takenForced c).proofAge b = s.proofAge b ∧ ((s.takenForced c).bank b).baseIsProven = (s.bank b).baseIsProven := by
  by_cases e : b = c
  · subst e
    have known : s.proofBase b ≠ none := fun n => by
      unfold isOverdue proofAge at late
      rw [n] at late
      exact nomatch late
    have based : (s.takenForced b).proofBase b = s.proofBase b
        ∧ ((s.takenForced b).bank b).baseIsProven = (s.bank b).baseIsProven := by
      unfold proofBase Bank.baseIsProven at *
      rw [takenForced_bank_same]
      unfold forcedBank provingBank
      generalize s.bank b = x at known ⊢
      obtain ⟨_, _, _, _, _, state, _, proof, _⟩ := x
      cases state with
      | proving =>
        cases proof with
        | none => exact absurd rfl known
        | some f => exact ⟨rfl, rfl⟩
      | proven => exact ⟨rfl, rfl⟩
      | unproven => exact ⟨rfl, rfl⟩
      | suspect => exact absurd rfl known
    refine ⟨?_, based.2⟩
    unfold proofAge
    rw [based.1]
    rfl
  · unfold proofAge proofBase
    rw [takenForced_bank_ne _ e]
    exact ⟨rfl, rfl⟩

theorem forcedBank_kept (c : BankId) :
    (s.forcedBank c).overdue = (s.bank c).overdue ∧ (s.forcedBank c).provenAt = (s.bank c).provenAt := by
  unfold forcedBank provingBank
  split <;> exact ⟨rfl, rfl⟩

theorem takenForced_kept (b c : BankId) : ((s.takenForced c).bank b).overdue = (s.bank b).overdue
    ∧ ((s.takenForced c).bank b).provenAt = (s.bank b).provenAt := by
  by_cases e : b = c
  · rw [e, takenForced_bank_same]
    exact forcedBank_kept s c
  · rw [takenForced_bank_ne _ e]
    exact ⟨rfl, rfl⟩

/-- A test after the examination comes to the examination after the test. -/
theorem takenForced_flagged {c : BankId} (late : s.isOverdue c = true) (b : BankId) :
    (s.takenForced c).flagged b = (s.flagged b).takenForced c := by
  have tested : (s.takenForced c).isOverdue b = s.isOverdue b :=
    isOverdue_congr s (takenForced_age s late b).1 rfl
  have news : (s.takenForced c).overdueNews b = s.overdueNews b := by
    unfold overdueNews
    rw [tested, (takenForced_age s late b).2, (takenForced_kept s b c).1, (takenForced_kept s b c).2]
  have banks : (s.takenForced c).bm.banks.set b { (s.takenForced c).bank b with overdue := (s.takenForced c).isOverdue b }
      = (s.flagged b).bm.banks.set c ((s.flagged b).forcedBank c) := by
    refine Quad.ext_get fun d => ?_
    rw [tested]
    by_cases bc : b = c
    · subst bc
      rw [flagged_forcedBank_same, takenForced_bank_same]
      by_cases db : d = b
      · rw [db, Quad.get_set_same, Quad.get_set_same]
      · rw [Quad.get_set_ne _ _ db, Quad.get_set_ne _ _ db]
        exact (takenForced_bank_ne s db).trans (flagged_bank_ne s db).symm
    · rw [flagged_forcedBank_ne _ (Ne.symm bc), takenForced_bank_ne _ bc]
      by_cases db : d = b
      · rw [db, Quad.get_set_same, Quad.get_set_ne _ _ bc]
        exact (flagged_bank_same s b).symm
      · rw [Quad.get_set_ne _ _ db]
        by_cases dc : d = c
        · rw [dc, Quad.get_set_same]
          exact takenForced_bank_same s c
        · rw [Quad.get_set_ne _ _ dc]
          exact (takenForced_bank_ne s dc).trans (flagged_bank_ne s db).symm
  unfold flagged at banks ⊢
  unfold takenForced at banks news ⊢
  rw [news, banks]

theorem flagged_forcedExamination (b : BankId) :
    (s.flagged b).forcedExamination = s.forcedExamination.flagged b := by
  rcases s.forced_or_none with ⟨e, none⟩ | ⟨c, takes, only, e⟩
  · rcases (s.flagged b).forced_or_none with ⟨k, _⟩ | ⟨d, t, _⟩
    · rw [k, e]
    · exact absurd ((flagged_takesForced s b d).mp t) (none d)
  · rcases (s.flagged b).forced_or_none with ⟨_, none⟩ | ⟨d, t, _, k⟩
    · exact absurd ((flagged_takesForced s b c).mpr takes) (none c)
    · rw [k, e, only d ((flagged_takesForced s b d).mp t), takenForced_flagged s takes.2.2.2.2.1]

theorem forcedExamination_forced : s.forcedExamination.forcedExamination = s.forcedExamination := by
  rcases s.forced_or_none with ⟨e, _⟩ | ⟨c, _, _, e⟩
  · rw [e, e]
  · rw [e]
    rcases (s.takenForced c).forced_or_none with ⟨k, _⟩ | ⟨d, t, _⟩
    · exact k
    · exact nomatch t.2.2.1

theorem forcedExamination_of_none (h : ∀ b, s.isOverdue b = false) : s.forcedExamination = s := by
  rcases s.forced_or_none with ⟨e, _⟩ | ⟨c, t, _⟩
  · exact e
  · exact nomatch (h c).symm.trans t.2.2.2.2.1

/-! ### The test of every bank -/

/-- Every overdue flag is set as the test has it. -/
def flaggedAll : State := inOrder (fun b s => s.flagged b) s

/-- The test of one bank, after the examinations so far or before any. -/
theorem overdueTestOf_flagged {t : State} (h : t = s ∨ t = s.forcedExamination) (b : BankId) :
    (t.overdueTestOf b = s.flagged b ∨ t.overdueTestOf b = (s.flagged b).forcedExamination)
      ∧ (s.isOverdue b = true → t.overdueTestOf b = (s.flagged b).forcedExamination) := by
  rw [overdueTestOf_eq]
  rcases h with e | e
  · rw [e]
    refine ⟨?_, fun late => if_pos late⟩
    split
    · exact .inr rfl
    · exact .inl rfl
  · have same : (s.forcedExamination.flagged b) = (s.flagged b).forcedExamination := (flagged_forcedExamination s b).symm
    rw [e, same, forcedExamination_forced, ite_self]
    exact ⟨.inr rfl, fun _ => rfl⟩

/-- The examinations within the tests come to one examination after them. -/
theorem inOrder_overdueTestOf : inOrder (fun b s => s.overdueTestOf b) s = s.flaggedAll.forcedExamination := by
  by_cases any : ∃ c, s.isOverdue c = true
  · obtain ⟨c, late⟩ := any
    exact inOrder_reaches (f := fun b (x : State × State) => (x.1.overdueTestOf b, x.2.flagged b))
      (P := fun x => (x.1 = x.2 ∨ x.1 = x.2.forcedExamination) ∧ x.2.isOverdue c = true)
      (Q := fun x => x.1 = x.2.forcedExamination) c
      (fun b _ x k => ⟨(overdueTestOf_flagged x.2 k.1 b).1, (flagged_isOverdue x.2 b c).trans k.2⟩)
      (fun x k => (overdueTestOf_flagged x.2 k.1 c).2 k.2)
      (fun b _ x k => by
        show x.1.overdueTestOf b = (x.2.flagged b).forcedExamination
        rw [flagged_forcedExamination, overdueTestOf_eq, k, ← flagged_forcedExamination, forcedExamination_forced, ite_self])
      (s := (s, s)) ⟨.inl rfl, late⟩
  · have none : ∀ c, s.isOverdue c = false := fun c => Bool.eq_false_iff.mpr fun e => any ⟨c, e⟩
    have run := inOrder_keeps (fun x : State × State => x.1 = x.2 ∧ ∀ c, x.2.isOverdue c = false)
      (fun b x => (x.1.overdueTestOf b, x.2.flagged b))
      (fun b x k => ⟨by
        show x.1.overdueTestOf b = x.2.flagged b
        rw [k.1, overdueTestOf_eq]
        exact if_neg (by rw [k.2 b]; nofun), fun c => (flagged_isOverdue x.2 b c).trans (k.2 c)⟩) (s, s) ⟨rfl, none⟩
    have calm : s.flaggedAll.forcedExamination = s.flaggedAll := forcedExamination_of_none _ run.2
    exact run.1.trans calm.symm

theorem flaggedAll_bank (b : BankId) : s.flaggedAll.bank b = { s.bank b with overdue := s.isOverdue b } := by
  have k := inOrder_part (fun (t : State) b => (t.bank b, t.isOverdue b)) (fun _ x => ({ x.1 with overdue := x.2 }, x.2))
    (f := fun b t => t.flagged b)
    (fun t b => Prod.ext (flagged_bank_same t b) (flagged_isOverdue t b b))
    (fun t b c n => Prod.ext (flagged_bank_ne t n) (flagged_isOverdue t b c)) s b
  exact congrArg Prod.fst k

theorem flaggedAll_takesForced (c : BankId) : s.flaggedAll.TakesForced c ↔ s.TakesForced c :=
  inOrder_keeps (fun t : State => t.TakesForced c ↔ s.TakesForced c) _
    (fun b t k => (flagged_takesForced t b c).trans k) s Iff.rfl

/-- Beside the flags and the notices nothing is changed. -/
theorem flaggedAll_rest : { s.flaggedAll with bm := s.bm, outbox := s.outbox } = s
    ∧ { s.flaggedAll.bm with banks := s.bm.banks } = s.bm :=
  inOrder_keeps (fun t : State => { t with bm := s.bm, outbox := s.outbox } = s ∧ { t.bm with banks := s.bm.banks } = s.bm) _
    (fun _ _ k => k) s ⟨rfl, rfl⟩

theorem flagged_news {b c : BankId} (h : c ≠ b) : (s.flagged b).overdueNews c = s.overdueNews c := by
  unfold overdueNews
  rw [flagged_isOverdue, flagged_bank_ne _ h]

theorem flaggedAll_outbox : s.flaggedAll.outbox = s.outbox ++ fourIds.flatMap s.overdueNews := by
  show ((((s.outbox ++ s.overdueNews 0) ++ (s.flagged 0).overdueNews 1) ++ ((s.flagged 0).flagged 1).overdueNews 2)
    ++ (((s.flagged 0).flagged 1).flagged 2).overdueNews 3) = _
  simp only [flagged_news _ (show (1 : BankId) ≠ 0 by decide), flagged_news _ (show (2 : BankId) ≠ 1 by decide),
    flagged_news _ (show (2 : BankId) ≠ 0 by decide), flagged_news _ (show (3 : BankId) ≠ 2 by decide),
    flagged_news _ (show (3 : BankId) ≠ 1 by decide), flagged_news _ (show (3 : BankId) ≠ 0 by decide)]
  simp [fourIds]

/-- The notices of the banks newly overdue, as a list of banks. -/
theorem overdueNews_eq (l : List BankId) : l.flatMap s.overdueNews
    = (l.filter fun b => s.isOverdue b && !(s.bank b).overdue).map fun b =>
        Notice.proofOverdue b (if (s.bank b).baseIsProven then (s.bank b).provenAt else none) := by
  induction l with
  | nil => rfl
  | cons b l ih =>
    rw [List.flatMap_cons, ih, List.filter_cons]
    unfold overdueNews
    split <;> rfl

end State

/-- The overdue test at a new site time (R33, R77, R78). -/
theorem overdueTest_tested (s : State) {x : SiteControl} (config : x.config = s.site.config)
    (mode : x.mode = s.site.mode) : TimeTested s ({ s with site := x }).overdueTest := by
  generalize ev : ({ s with site := x } : State) = v
  have vm : v.site.mode = s.site.mode := by rw [← ev]; exact mode
  have vb : v.bm = s.bm := by rw [← ev]
  have vo : v.outbox = s.outbox := by rw [← ev]
  have bank : ∀ b, v.bank b = s.bank b := fun b => congrArg (fun m : BankManager => m.banks.get b) vb
  by_cases un : s.site.mode = .unconfigured
  · have e : v.overdueTest = v := if_pos (vm.trans un)
    rw [e]
    refine ⟨fun _ => ⟨vb, vo⟩, fun n => absurd un n, fun n => absurd un n, fun n => absurd un n,
      fun _ => congrArg BankManager.designation vb, by rw [vb], ?_⟩
    rw [← ev]
    exact ⟨rfl, rfl, rfl, rfl, rfl, rfl, rfl⟩
  · have e : v.overdueTest = v.flaggedAll.forcedExamination :=
      (if_neg (by rw [vm]; exact un)).trans v.inOrder_overdueTestOf
    rw [e]
    obtain ⟨rest, manager⟩ := v.flaggedAll_rest
    have same : v.flaggedAll.forcedExamination.site = v.flaggedAll.site
        ∧ v.flaggedAll.forcedExamination.outbox = v.flaggedAll.outbox
        ∧ { v.flaggedAll.forcedExamination with bm := v.flaggedAll.bm } = v.flaggedAll
        ∧ { v.flaggedAll.forcedExamination.bm with
            banks := v.flaggedAll.bm.banks, designation := v.flaggedAll.bm.designation } = v.flaggedAll.bm := by
      rcases v.flaggedAll.forced_or_none with ⟨k, _⟩ | ⟨c, _, _, k⟩ <;> rw [k] <;> exact ⟨rfl, rfl, rfl, rfl⟩
    have site : v.flaggedAll.forcedExamination.site = x := by
      refine same.1.trans (Eq.trans (congrArg State.site rest :) ?_)
      rw [← ev]
    have shown : v.flaggedAll.outbox = s.outbox ++ fourIds.flatMap v.overdueNews := by rw [v.flaggedAll_outbox, vo]
    have flag : ∀ b, v.flaggedAll.bank b = { s.bank b with overdue := v.isOverdue b } := fun b => by
      rw [v.flaggedAll_bank, bank]
    have taken : ∀ b, v.flaggedAll.forcedBank b = { s.forcedBank b with overdue := v.isOverdue b } := fun b => by
      refine State.forcedBank_flag s (flag b) ?_
      refine Eq.trans (congrArg State.config rest :) ?_
      rw [← ev]
      exact config
    refine ⟨fun n => absurd n un, fun _ => ?_, fun _ b t => ?_, fun _ b t => ?_, fun t => ?_, ?_, ?_⟩
    · rw [site, ev, same.2.1, shown, v.overdueNews_eq]
      simp only [bank]
    · rw [site, ev] at t
      rcases v.flaggedAll.forced_or_none with ⟨_, none⟩ | ⟨c, _, only, k⟩
      · exact absurd ((v.flaggedAll_takesForced b).mpr t) (none b)
      · obtain rfl := only b ((v.flaggedAll_takesForced b).mpr t)
        rw [k, State.takenForced_bank_same, taken, t.2.2.2.2.1]
        exact ⟨rfl, rfl⟩
    · rw [site, ev] at t ⊢
      rcases v.flaggedAll.forced_or_none with ⟨k, _⟩ | ⟨c, f, _, k⟩
      · rw [k, flag]
      · have ne : b ≠ c := fun i => t (i ▸ (v.flaggedAll_takesForced c).mp f)
        rw [k, State.takenForced_bank_ne _ ne, flag]
    · rw [site, ev] at t
      have des : v.flaggedAll.bm.designation = s.bm.designation := by
        rw [← vb]
        exact (congrArg BankManager.designation manager :)
      rcases v.flaggedAll.forced_or_none with ⟨k, _⟩ | ⟨c, f, _⟩
      · rw [k, des]
      · exact absurd ((v.flaggedAll_takesForced c).mp f) (t c)
    · have m := congrArg (fun m : BankManager => { m with banks := s.bm.banks, designation := s.bm.designation }) same.2.2.2
      have n := congrArg (fun m : BankManager => { m with banks := s.bm.banks, designation := s.bm.designation }) manager
      refine Eq.trans (m :) (Eq.trans (n :) ?_)
      rw [vb]
    · have r := congrArg (fun w : State => { w with bm := v.bm, outbox := v.outbox }) same.2.2.1
      have whole : ({ v.flaggedAll.forcedExamination with bm := v.bm, outbox := v.outbox } : State) = v :=
        Eq.trans (r :) rest
      subst ev
      exact ⟨(congrArg State.pending whole :), (congrArg State.choices whole :), (congrArg State.ports whole :),
        (congrArg State.cbu whole :), (congrArg State.monitors whole :), (congrArg State.sessions whole :),
        (congrArg State.sales whole :)⟩

/-- A port taking the command does not enter the test. -/
theorem TimeTested.untaken {s u : State} {f : Frame} (h : TimeTested (s.taking f) u) :
    TimeTested s { u with ports := s.ports } :=
  ⟨h.unconfigured, h.notices, h.taken, h.flags, h.designation, h.manager,
    have ⟨pending, choices, _, others⟩ := h.rest
    ⟨pending, choices, rfl, others⟩⟩

/-- The tenths counted do not enter the test. -/
theorem TimeTested.counted {s u : State} {n : Nat} (h : TimeTested { s with tenths := n } u) : TimeTested s u :=
  ⟨h.unconfigured, h.notices, h.taken, h.flags, h.designation, h.manager, h.rest⟩

/-- The test changes the banks' records and the notices alone. -/
theorem State.overdueTest_rest (s : State) :
    s.overdueTest.site = s.site ∧ s.overdueTest.tenths = s.tenths ∧ s.overdueTest.ports = s.ports :=
  have h := State.overdueTest_steady s
  ⟨h.site, h.tenths, h.ports⟩

/-- The proof age and the overdue test of R77. -/
theorem State.proofAge_cases (s : State) (b : BankId) :
    let x := s.bank b
    let since := fun base => s.proofAge b = base.map (s.site.siteTime - ·)
    (x.proofState = .proven → since x.provenAt)
      ∧ (x.proofState = .unproven → since s.site.commissionedAt)
      ∧ (∀ f, x.proofState = .proving → x.proof = some f → f.before = .proven → since x.provenAt)
      ∧ (∀ f, x.proofState = .proving → x.proof = some f → f.before = .unproven → since s.site.commissionedAt)
      ∧ (x.proofState = .suspect → s.proofAge b = none) := by
  unfold proofAge proofBase
  dsimp only
  refine ⟨fun e => by rw [e], fun e => by rw [e], fun f e p g => ?_, fun f e p g => ?_, fun e => by rw [e]; rfl⟩
  · rw [e, p]
    dsimp only
    rw [if_pos g]
  · rw [e, p]
    dsimp only
    rw [if_neg (by rw [g]; nofun)]

theorem State.isOverdue_iff (s : State) (b : BankId) :
    s.isOverdue b = true ↔ ∃ age, s.proofAge b = some age ∧ s.config.param 15 < age := by
  unfold isOverdue
  cases s.proofAge b with
  | none => simp
  | some age =>
    dsimp only
    rw [decide_eq_true_iff]
    exact ⟨fun h => ⟨age, rfl, h⟩, fun ⟨a, e, h⟩ => Option.some.inj e ▸ h⟩

/-- Settles O38: the examinations made within the tests come to one after them (`State.inOrder_overdueTestOf`). -/
theorem siteTimeChangesAndBanksAreTested : Obligations.SiteTimeChangesAndBanksAreTested := by
  refine ⟨fun s => ⟨fun tag time k => ?_, ?_⟩, fun s b => ?_⟩
  · let f := setSiteTimeFrame tag time
    let v : State := { s.taking f with site := { s.site with siteTime := time.toNat } }
    obtain ⟨site, tenths, ports⟩ := v.overdueTest_rest
    refine ⟨{ v.overdueTest with ports := s.ports }, ?_, site, tenths,
      (overdueTest_tested (s.taking f) (x := { s.site with siteTime := time.toNat }) rfl rfl).untaken⟩
    exact exec_answers_of_wireForm (t := { v.overdueTest with ports := s.ports }) (wireForm _) rfl rfl k
      (congrArg (·, (⟨.ok, []⟩ : Reply)) (State.of_taking (s := s) (f := f) ports))
  · let x : SiteControl := { s.site with
      siteTime := if s.site.siteTime = 4294967295 then 0 else s.site.siteTime + 1 }
    obtain ⟨site, tenths, _⟩ := ({ s with tenths := s.tenths - 10, site := x } : State).overdueTest_rest
    exact ⟨_, event_of rfl rfl, site, tenths,
      (overdueTest_tested { s with tenths := s.tenths - 10 } (x := x) rfl rfl).counted⟩
  · obtain ⟨proven, unproven, wasProven, wasUnproven, suspect⟩ := s.proofAge_cases b
    exact ⟨proven, unproven, wasProven, wasUnproven, suspect, s.isOverdue_iff b⟩

end Sys2Proof.Machine
end

section
/-! SUPPORT. A bank handed on (R62, R127): what stands at the session that comes to hold it, the end of a refill
(R72, R73, R75), and the verdict on a proof (R81, R82). -/

namespace Sys2Proof.Machine

set_option Elab.async false

namespace State

variable (s : State) (p : PosId) (b : BankId)

/-! ### The bank of a session in a phase -/

theorem heldAs_standing (x : Session) (r : Option Phase) :
    (s.heldAs x r).bank = x.bank ∧ (s.heldAs x r).awaited = x.awaited := ⟨rfl, rfl⟩

theorem connectedAs_standing (x : Session) :
    (s.connectedAs x).bank = x.bank ∧ (s.connectedAs x).awaited = x.awaited := by
  unfold connectedAs
  split <;> exact ⟨rfl, rfl⟩

theorem connected_standing : ((s.connected p).session p).bank = (s.session p).bank
    ∧ ((s.connected p).session p).awaited = (s.session p).awaited := by
  rw [connected_eq, shows_session]
  exact connectedAs_standing s _

theorem endConnect_standing : ((s.endConnect p).session p).bank = (s.session p).bank
    ∧ ((s.endConnect p).session p).awaited = (s.session p).awaited := by
  by_cases c : (s.session p).factors = Factors.none
  · rw [endConnect_clear c, becomes_session]
    exact ⟨rfl, rfl⟩
  · rw [endConnect_held c, shows_session]
    exact heldAs_standing s _ _

theorem beginConnect_standing : ((s.beginConnect p).session p).bank = (s.session p).bank
    ∧ ((s.beginConnect p).session p).awaited = (s.session p).awaited := by
  by_cases z : (s.profileOf p).settleInterval = 0
  · have e : s.beginConnect p = (s.becomes p (s.connectsAs p (s.session p))).endConnect p := if_pos z
    have k := endConnect_standing (s.becomes p (s.connectsAs p (s.session p))) p
    rw [becomes_session] at k
    rw [e]
    exact k
  · rw [beginConnect_eq _ _ z, becomes_session]
    exact ⟨rfl, rfl⟩

theorem beginSettle_standing : ((s.beginSettle p).session p).bank = (s.session p).bank
    ∧ ((s.beginSettle p).session p).awaited = (s.session p).awaited := by
  by_cases z : (s.profileOf p).settleInterval = 0
  · rw [beginSettle_atOnce _ _ z, shows_session]
    exact connectedAs_standing s _
  · rw [beginSettle_eq _ _ z, becomes_session]
    exact ⟨rfl, rfl⟩

theorem endClaim_standing : ((s.endClaim p).session p).bank = (s.session p).bank
    ∧ ((s.endClaim p).session p).awaited = (s.session p).awaited := by
  unfold endClaim
  dsimp only
  split
  · split
    · exact beginSettle_standing s p
    · exact beginConnect_standing s p
  · rw [enterHeld_eq, shows_session]
    exact heldAs_standing s _ _

theorem claimGranted_standing : ((s.claimGranted b p).session p).bank = some b
    ∧ ((s.claimGranted b p).session p).awaited = none := by
  have k := endClaim_standing (s.becomes p (s.grantedAs b (s.session p))) p
  rw [becomes_session] at k
  rw [claimGranted_eq]
  exact k

/-! ### A bank handed to the head of its wait queue -/

/-- The state in which a bank has been handed to a position, with the queue that is left (R62). -/
def handed (rest : List PosId) : State :=
  (s.modBank b fun x => { x with holder := .position p, queue := rest }).claimGranted b p

variable {p b} {rest : List PosId}

theorem handed_bm : (s.handed p b rest).bm
    = { s.bm with banks := s.bm.banks.set b { s.bank b with holder := .position p, queue := rest } } :=
  claimGranted_bm _ _ _

theorem handed_bank_same : (s.handed p b rest).bank b = { s.bank b with holder := .position p, queue := rest } := by
  unfold bank
  rw [handed_bm]
  exact Quad.get_set_same _ _ _

theorem handed_bank_ne {c : BankId} (h : c ≠ b) : (s.handed p b rest).bank c = s.bank c := by
  unfold bank
  rw [handed_bm]
  exact Quad.get_set_ne _ _ h

theorem handed_session_ne {q : PosId} (h : q ≠ p) : (s.handed p b rest).session q = s.session q :=
  (claimGranted_spares (Ne.symm h) _ b).1

variable {s} in
/-- A position that has been given a bank holds it, whatever of the bank but its mass was changed for it. -/
theorem claimGranted_holdsBank {v : State} (holder : (v.bank b).holder = .position p) (site : v.site = s.site)
    (monitors : v.monitors = s.monitors) (session : v.session p = s.session p)
    (mass : (v.bank b).mass = (s.bank b).mass) (freshness : v.bm.freshness = s.bm.freshness) :
    HoldsBank s (v.claimGranted b p) p b where
  holder := by
    unfold bank at holder ⊢
    rw [claimGranted_bm]
    exact holder
  bank := claimGranted_standing v p b
  session n := by
    have profile : v.profileOf p = s.profileOf p := by
      unfold profileOf config
      rw [session, site]
    have granted : v.grantedAs b (v.session p) = s.grantedAs b (s.session p) := by
      unfold grantedAs
      rw [session, mass, freshness]
    rw [claimGranted_session v b p (by rw [profile, granted]; exact n), granted]
    exact afterClaim_congr site monitors session _

theorem handed_holdsBank : HoldsBank s (s.handed p b rest) p b :=
  claimGranted_holdsBank (by rw [modBank_bank_same]) rfl rfl rfl (by rw [modBank_bank_same]) rfl

theorem handOff_free (h : (s.bank b).queue = []) : s.handOff b = s.modBank b fun x => { x with holder := .free } := by
  unfold handOff
  rw [h]

theorem handOff_handed (h : (s.bank b).queue = p :: rest) : s.handOff b = s.handed p b rest := by
  unfold handOff
  rw [h]
  rfl

theorem handOn_free (h : (s.bank b).queue = []) :
    s.handOn b = (s.modBank b fun x => { x with holder := .free }).becameFree b := by
  unfold handOn
  rw [handOff_free s h]
  exact if_pos (by rw [modBank_bank_same])

theorem handOn_handed (h : (s.bank b).queue = p :: rest) : s.handOn b = s.handed p b rest := by
  unfold handOn
  rw [handOff_handed s h]
  exact if_neg (by rw [handed_bank_same]; nofun)

/-! ### The end of a refill -/

variable (b) in
/-- A bank returns to the refill list: it is still low, not SUSPECT, and not in the list (R73, step 4). -/
def Returns : Prop :=
  (∃ e x, s.config.banks.get b = some e ∧ (s.bank b).pressure = some x ∧ x < e.refillStart)
    ∧ (s.bank b).proofState ≠ .suspect ∧ b ∉ s.bm.refillList

theorem belowStart_iff : s.belowStart b = true ↔
    ∃ e x, s.config.banks.get b = some e ∧ (s.bank b).pressure = some x ∧ x < e.refillStart := by
  unfold belowStart
  cases s.config.banks.get b with
  | none => simp
  | some e =>
    cases (s.bank b).pressure with
    | none => simp
    | some x => simp

theorem relist_returns (h : s.Returns b) :
    s.relist b = s.modBm fun m => { m with refillList := m.refillList ++ [b] } :=
  (if_pos ⟨(belowStart_iff s).mpr h.1, h.2.1⟩).trans (if_neg h.2.2)

theorem relist_stays (h : ¬s.Returns b) : s.relist b = s := by
  unfold relist enterRefillList
  split
  · rename_i low
    exact if_pos (by_contra fun n => h ⟨(belowStart_iff s).mp low.1, low.2, n⟩)
  · rfl

/-- A relisting changes the refill list alone. -/
theorem relist_list : ∃ l, s.relist b = s.modBm fun m => { m with refillList := l } := by
  by_cases h : s.Returns b
  · exact ⟨_, relist_returns s h⟩
  · exact ⟨s.bm.refillList, relist_stays s h⟩

theorem returns_congr {t : State} (config : t.config = s.config) (pressure : (t.bank b).pressure = (s.bank b).pressure)
    (proof : (t.bank b).proofState = (s.bank b).proofState) (list : t.bm.refillList = s.bm.refillList) :
    t.Returns b ↔ s.Returns b := by
  unfold Returns
  rw [config, pressure, proof, list]

end State

/-- A refill of a bank has ended in an event that has come from a first state to a second (R72, R73, R75). -/
def RefillEnded (s u : State) (b : BankId) (r : RefillReason) : Prop :=
  u.bm.refillInFlight = none ∧ u.bm.yieldTimer = none ∧ Notice.refillStop b r ∈ u.outbox
    ∧ (s.Returns b → u.bm.refillList = s.bm.refillList ++ [b])
    ∧ (¬s.Returns b → u.bm.refillList = s.bm.refillList)
    ∧ ((s.bank b).queue = [] →
      Examined
        { s with
          bm :=
            { s.bm with
              banks := s.bm.banks.set b { s.bank b with holder := .free }
              refillInFlight := none
              refillList := u.bm.refillList
              yieldTimer := none }
          outbox := s.outbox ++ [Notice.refillStop b r] }
        u [b])
    ∧ (∀ p rest, (s.bank b).queue = p :: rest →
      HoldsBank s u p b ∧ (u.bank b).queue = rest
        ∧ (∀ q, q ≠ p → u.session q = s.session q) ∧ ∀ c, c ≠ b → u.bank c = s.bank c)
    ∧ Undisturbed s u

theorem RefillEnded.untaken {s u : State} {f : Frame} {b : BankId} {r : RefillReason}
    (h : RefillEnded (s.taking f) u b r) : RefillEnded s { u with ports := s.ports } b r := by
  obtain ⟨flight, timer, told, returns, stays, free, handed, rest⟩ := h
  refine ⟨flight, timer, told, returns, stays, fun q => Examined.untaken (f := f) (free q), fun p l q => ?_,
    rest.untaken⟩
  obtain ⟨holds, queue, others, banks⟩ := handed p l q
  exact ⟨holds.untaken, queue, others, banks⟩

namespace State

variable (s : State) (b : BankId) (r : RefillReason)

/-- The bank manager with no refill in flight and the yield timer stopped (R73, step 1). -/
def unrefilled : State := s.modBm fun m => { m with refillInFlight := none, yieldTimer := none }

/-- The list after a refill has ended, the bank's other fields as they were. -/
theorem relist_ended {t : State} (config : t.config = s.config)
    (pressure : (t.bank b).pressure = (s.bank b).pressure) (proof : (t.bank b).proofState = (s.bank b).proofState)
    (list : t.bm.refillList = s.bm.refillList) :
    ∃ l, t.relist b = t.modBm (fun m => { m with refillList := l }) ∧ (s.Returns b → l = s.bm.refillList ++ [b])
      ∧ (¬s.Returns b → l = s.bm.refillList) := by
  have same := returns_congr s config pressure proof list
  by_cases h : s.Returns b
  · refine ⟨s.bm.refillList ++ [b], ?_, fun _ => rfl, fun n => absurd h n⟩
    rw [relist_returns t (same.mpr h), ← list]
    rfl
  · refine ⟨s.bm.refillList, ?_, fun k => absurd k h, fun _ => rfl⟩
    rw [relist_stays t fun k => h (same.mp k)]
    unfold modBm
    rw [← list]

theorem endRefill_ended : RefillEnded s (s.endRefill b r) b r := by
  have still := (endRefill_steady s b r).undisturbed
  cases q : (s.bank b).queue with
  | nil =>
    let v : State := (s.unrefilled.modBank b fun x => { x with holder := .free }).post (.refillStop b r)
    have at_b : v.bank b = { s.bank b with holder := .free } :=
      modBank_bank_same s.unrefilled b fun x => { x with holder := .free }
    obtain ⟨l, e, returns, stays⟩ := s.relist_ended b (t := v) rfl (by rw [at_b]) (by rw [at_b]) rfl
    have whole : s.endRefill b r = (v.modBm fun m => { m with refillList := l }).becameFree b := by
      have ends : s.refillEnds b r = v.modBm fun m => { m with refillList := l } := by
        refine Eq.trans ?_ e
        exact congrArg (fun t : State => (t.post (.refillStop b r)).relist b) (handOff_free s.unrefilled q)
      unfold endRefill
      rw [ends]
      exact if_pos (by rw [show (v.modBm fun m => { m with refillList := l }).bank b = _ from at_b])
    have k := becameFree_examined (v.modBm fun m => { m with refillList := l }) b
    rw [← whole] at k
    have list : (s.endRefill b r).bm.refillList = l := (congrArg BankManager.refillList k.manager :)
    refine ⟨(congrArg BankManager.refillInFlight k.manager :), (congrArg BankManager.yieldTimer k.manager :), ?_,
      fun h => list.trans (returns h), fun h => list.trans (stays h), fun _ => ?_, fun p rest n => (nomatch q.symm.trans n),
      still⟩
    · rw [(congrArg State.outbox k.rest :)]
      exact List.mem_append_right _ (List.mem_singleton.mpr rfl)
    · rw [list]
      exact k
  | cons p rest =>
    let v : State := (s.unrefilled.handed p b rest).post (.refillStop b r)
    have at_b : v.bank b = { s.bank b with holder := .position p, queue := rest } := handed_bank_same s.unrefilled
    have same : v.bm = { s.unrefilled.bm with
        banks := s.unrefilled.bm.banks.set b { s.bank b with holder := .position p, queue := rest } } :=
      handed_bm s.unrefilled
    obtain ⟨l, e, returns, stays⟩ := s.relist_ended b (t := v)
      (congrArg SiteControl.config (claimGranted_steady _ b p).site) (by rw [at_b]) (by rw [at_b])
      (congrArg BankManager.refillList same :)
    have whole : s.endRefill b r = v.modBm fun m => { m with refillList := l } := by
      have ends : s.refillEnds b r = v.modBm fun m => { m with refillList := l } := by
        refine Eq.trans ?_ e
        exact congrArg (fun t : State => (t.post (.refillStop b r)).relist b) (handOff_handed s.unrefilled q)
      unfold endRefill
      rw [ends]
      exact if_neg (by rw [show (v.modBm fun m => { m with refillList := l }).bank b = _ from at_b]; nofun)
    rw [whole] at still ⊢
    have holds := handed_holdsBank s.unrefilled (p := p) (b := b) (rest := rest)
    refine ⟨(congrArg BankManager.refillInFlight same :), (congrArg BankManager.yieldTimer same :), ?_, returns, stays,
      fun n => (nomatch q.symm.trans n), fun p' rest' n => ?_, still⟩
    · exact List.mem_append_right _ (List.mem_singleton.mpr rfl)
    · injection q.symm.trans n with hp hr
      subst hp hr
      exact ⟨⟨holds.holder, holds.bank, holds.session⟩, congrArg Bank.queue at_b,
        fun z n => handed_session_ne s.unrefilled n, fun c n => handed_bank_ne s.unrefilled n⟩

theorem yieldExpires_none (h : s.bm.yieldTimer = none) : s.yieldExpires = s := if_neg (by rw [h]; nofun)

theorem yieldExpires_idle (h : s.bm.refillInFlight = none) :
    s.yieldExpires = { s with bm := { s.bm with yieldTimer := none } } := by
  unfold yieldExpires yieldRunsOut
  rw [h]
  split
  · rfl
  · rename_i c
    rw [← Option.not_isSome_iff_eq_none.mp c]

variable {s b} in
theorem yieldExpires_ends (runs : s.bm.yieldTimer ≠ none) (h : s.bm.refillInFlight = some b) :
    s.yieldExpires = s.endRefill b .yield := by
  unfold yieldExpires yieldRunsOut
  rw [h]
  exact if_pos (Option.isSome_iff_ne_none.mpr runs)

end State

theorem refillEndRequest_of_unknown {s : State} {n : Nat} (h : 4 ≤ n) : refillEndRequest n s = refuse .outOfRange s := by
  unfold refillEndRequest
  rw [fourOf?_eq_none h]

theorem refillEndRequest_of_other {s : State} {b : BankId} (h : s.bm.refillInFlight ≠ some b) :
    refillEndRequest b.val s = refuse .wrongState s := by
  unfold refillEndRequest
  rw [fourOf?_val]
  exact if_neg h

theorem refillEndRequest_of_flight {s : State} {b : BankId} (h : s.bm.refillInFlight = some b) :
    refillEndRequest b.val s = done (s.endRefill b .aborted) := by
  unfold refillEndRequest
  rw [fourOf?_val]
  exact if_pos h

/-- Settles O42: a refill ends by `State.endRefill_ended`, for the request and for the running out alike. -/
theorem refillEndsHandTheBankOn : Obligations.RefillEndsHandTheBankOn := by
  unfold Obligations.RefillEndsHandTheBankOn
  intro returns ended
  refine ⟨fun tag bank s k => ⟨fun h => ?_, fun b e => ⟨fun h => ?_, fun h => ?_⟩⟩, fun s => ⟨fun h => ?_, fun h => ?_,
    fun b runs h => ?_⟩⟩
  · exact exec_answers_of_wireForm (wireForm _) rfl rfl k (refillEndRequest_of_unknown h)
  · exact exec_answers_of_wireForm (wireForm _) rfl rfl k (e ▸ refillEndRequest_of_other (s := s.taking _) h)
  · have ended := (s.taking (refillEndFrame tag bank)).endRefill_ended b .aborted
    refine ⟨_, exec_answers_of_wireForm (wireForm _) rfl rfl k ?_, ended.untaken⟩
    obtain ⟨_, _, _, _, _, _, _, rest⟩ := ended
    refine (e ▸ refillEndRequest_of_flight (s := s.taking (refillEndFrame tag bank)) h).trans ?_
    exact congrArg (·, (⟨.ok, []⟩ : Reply)) rest.taking
  · exact event_of rfl (State.yieldExpires_none s h)
  · exact event_of rfl (State.yieldExpires_idle s h)
  · exact ⟨_, event_of rfl (State.yieldExpires_ends runs h), s.endRefill_ended b .yield⟩

end Sys2Proof.Machine
end

section
/-! SUPPORT. The verdict on a proof (R81, R82), and what follows a forced one (R62, R78, R79). -/

namespace Sys2Proof.Machine

set_option Elab.async false

namespace State

variable (s : State) (b : BankId)

/-! ### The verdict -/

/-- The state in which a bank's proof has been judged: its record, the refill list and the notices (R81). -/
def judged (after : ProofState) (at_ : Option Nat) (list : List BankId) (posts : List Notice) : State :=
  { s with
    bm :=
      { s.bm with
        banks :=
          s.bm.banks.set b { s.bank b with proofState := after, provenAt := at_, proof := none, overdue := false }
        refillList := list }
    outbox := posts }

theorem passProof_eq (k : ProofKind) :
    s.passProof b k = (s.judged b .proven (some s.site.siteTime) s.bm.refillList s.outbox).releaseProof b k := by
  unfold passProof endProof judged modBank
  simp

theorem failProof_eq (d : Nat) (k : ProofKind) :
    s.failProof b d k = (s.judged b .suspect (s.bank b).provenAt (s.bm.refillList.filter (· ≠ b))
      (s.outbox ++ [.bankSuspect b d])).releaseProof b k := by
  have unlisted : (fun x : BankId => x != b) = fun x => decide (x ≠ b) := funext fun x => (decide_not ..).symm
  unfold failProof endProof judged modBank post leaveRefillList modBm
  simp only [Quad.get_set_same, Quad.set_set, unlisted]
  rfl

theorem releaseProof_steady (k : ProofKind) : Steady s (s.releaseProof b k) := by
  cases k
  · exact .refl s
  · exact (undesignate_steady s b).trans (handOn_steady _ b)

theorem proofRunsOut_steady (f : ProofFields) : Steady s (s.proofRunsOut b f) := by
  unfold proofRunsOut
  refine .ite (fun _ => ?_) fun _ => ?_
  · exact (((endProof_steady s b _).bank.posted).trans (leaveRefillList_steady _ _)).trans (releaseProof_steady _ _ _)
  · exact ((endProof_steady s b _).bank).trans (releaseProof_steady _ _ _)

variable {s b}

theorem judged_bank_same {a : ProofState} {t : Option Nat} {l : List BankId} {o : List Notice} :
    (s.judged b a t l o).bank b = { s.bank b with proofState := a, provenAt := t, proof := none, overdue := false } :=
  Quad.get_set_same _ _ _

theorem judged_bank_ne {a : ProofState} {t : Option Nat} {l : List BankId} {o : List Notice} {c : BankId} (h : c ≠ b) :
    (s.judged b a t l o).bank c = s.bank c := Quad.get_set_ne _ _ h

end State

/-- What the verdict on a proof leaves, in an event that has come from a first state to a second (R81): the bank's record,
and after a forced proof the bank handed on. -/
structure Judged (s u : State) (b : BankId) (kind : ProofKind) (after : ProofState) (at_ : Option Nat)
    (list : List BankId) (posts : List Notice) : Prop where
  proof : (u.bank b).proof = none
  overdue : (u.bank b).overdue = false
  state : (u.bank b).proofState = after
  provenAt : (u.bank b).provenAt = at_
  list : u.bm.refillList = list
  posts : ∀ n ∈ posts, n ∈ u.outbox
  opportunistic : kind = .opportunistic →
    (u.bank b).holder = (s.bank b).holder ∧ (u.bank b).queue = (s.bank b).queue ∧ u.sessions = s.sessions
      ∧ u.bm.designation = s.bm.designation ∧ ∀ c, c ≠ b → u.bank c = s.bank c
  undesignated : kind = .forced → u.bm.designation ≠ some b
  freed : kind = .forced → (s.bank b).queue = [] →
    Examined
      { s with
        bm :=
          { s.bm with
            banks :=
              s.bm.banks.set b
                { s.bank b with holder := .free, proof := none, overdue := false, proofState := after, provenAt := at_ }
            designation := if s.bm.designation = some b then none else s.bm.designation
            refillList := u.bm.refillList }
        outbox := u.outbox }
      u [b]
  handed : kind = .forced → ∀ p rest, (s.bank b).queue = p :: rest →
    (u.bank b).holder = .position p ∧ (u.bank b).queue = rest ∧ (u.session p).bank = some b
      ∧ ∀ q, q ≠ p → u.session q = s.session q

/-- What the examinations leave of a bank that neither of them takes. -/
theorem Examined.untouched {v u : State} {b : BankId} {l : List BankId} (h : Examined v u l) (f : ¬v.TakesForced b)
    (o : ¬v.TakesOpportunistic b) (d : v.bm.designation ≠ some b) : u.bank b = v.bank b ∧ u.bm.designation ≠ some b := by
  refine ⟨h.others b f fun k => o k.2, ?_⟩
  by_cases any : ∃ c, v.TakesForced c
  · obtain ⟨c, t⟩ := any
    rw [(h.forced c t).2]
    exact fun e => f (Option.some.inj e ▸ t)
  · rw [h.designation fun c t => any ⟨c, t⟩]
    exact d

namespace State

variable {s : State} {b : BankId}

/-- A bank just judged is due for no proof: it is PROVEN from now on, or SUSPECT. -/
theorem not_due_of_judged (h : (s.bank b).proofState = .proven ∧ (s.bank b).provenAt = some s.site.siteTime
    ∨ (s.bank b).proofState = .suspect) : ¬s.TakesForced b ∧ ¬s.TakesOpportunistic b := by
  obtain ⟨proven, _, _, _, suspect⟩ := s.proofAge_cases b
  rcases h with ⟨e, t⟩ | e
  · have age : s.proofAge b = some 0 := by
      rw [proven e, t]
      simp
    refine ⟨fun f => ?_, fun o => ?_⟩
    · obtain ⟨a, k, late⟩ := (s.isOverdue_iff b).mp f.2.2.2.2.1
      have : a = 0 := Option.some.inj (k.symm.trans age)
      omega
    · rcases o.2.2.2.2 with u | ⟨_, late⟩
      · exact nomatch e.symm.trans u
      · rw [age] at late
        exact absurd late (Nat.not_lt_zero _)
  · refine ⟨fun f => ?_, fun o => ?_⟩
    · obtain ⟨a, k, _⟩ := (s.isOverdue_iff b).mp f.2.2.2.2.1
      exact nomatch (suspect e).symm.trans k
    · rcases o.2.2.2.2 with u | ⟨u, _⟩ <;> exact nomatch e.symm.trans u

theorem releaseProof_judged (k : ProofKind) {a : ProofState} {t : Option Nat} {l : List BankId} {o : List Notice}
    (h : a = .proven ∧ t = some s.site.siteTime ∨ a = .suspect) :
    Judged s ((s.judged b a t l o).releaseProof b k) b k a t l o := by
  have at_b : (s.judged b a t l o).bank b = _ := judged_bank_same
  cases k with
  | opportunistic =>
    show Judged s (s.judged b a t l o) b _ a t l o
    refine ⟨by rw [at_b], by rw [at_b], by rw [at_b], by rw [at_b], rfl, fun _ => id, fun _ => ⟨by rw [at_b],
      by rw [at_b], rfl, rfl, fun c n => judged_bank_ne n⟩, nofun, nofun, nofun⟩
  | forced =>
    show Judged s (((s.judged b a t l o).undesignate b).handOn b) b _ a t l o
    have same : ((s.judged b a t l o).undesignate b).bank b = _ := at_b
    have bare : ((s.judged b a t l o).undesignate b).bm.designation ≠ some b := by
      show (if s.bm.designation = some b then none else s.bm.designation) ≠ some b
      split
      · nofun
      · assumption
    cases q : (s.bank b).queue with
    | nil =>
      rw [handOn_free _ (by rw [same]; exact q)]
      have k := becameFree_examined
        (((s.judged b a t l o).undesignate b).modBank b fun x => { x with holder := .free }) b
      have free : (((s.judged b a t l o).undesignate b).modBank b fun x => { x with holder := .free }).bank b
          = { s.bank b with holder := .free, proofState := a, provenAt := t, proof := none, overdue := false } :=
        (modBank_bank_same _ b _).trans (by rw [same])
      have idle := not_due_of_judged
        (s := ((s.judged b a t l o).undesignate b).modBank b fun x => { x with holder := .free }) (b := b)
        (by rw [free]; exact h)
      generalize State.becameFree _ b = u at k ⊢
      obtain ⟨unchanged, undesignated⟩ := k.untouched idle.1 idle.2 bare
      have list : u.bm.refillList = l := (congrArg BankManager.refillList k.manager :)
      have posts : u.outbox = o := (congrArg State.outbox k.rest :)
      refine ⟨by rw [unchanged, free], by rw [unchanged, free], by rw [unchanged, free], by rw [unchanged, free], list,
        fun n m => posts ▸ m, nofun, fun _ => undesignated, fun _ _ => ?_, fun _ p rest n => (nomatch q.symm.trans n)⟩
      rw [list, posts]
      refine Eq.mp (congrArg (fun v => Examined v _ [b]) ?_) k
      unfold modBank undesignate judged modBm
      simp
    | cons p rest =>
      rw [handOn_handed _ (by rw [same]; exact q)]
      have bm := handed_bm ((s.judged b a t l o).undesignate b) (p := p) (b := b) (rest := rest)
      have record := handed_bank_same ((s.judged b a t l o).undesignate b) (p := p) (b := b) (rest := rest)
      rw [same] at record
      refine ⟨by rw [record], by rw [record], by rw [record], by rw [record], (congrArg BankManager.refillList bm :),
        fun n m => (claimGranted_steady _ b p).posts.subset m, nofun, fun _ => ?_,
        fun _ n => (nomatch q.symm.trans n), fun _ p' rest' n => ?_⟩
      · rw [(congrArg BankManager.designation bm :)]
        exact bare
      · injection q.symm.trans n with hp hr
        subst hp hr
        exact ⟨by rw [record], by rw [record], (claimGranted_standing _ p b).1,
          fun z n => handed_session_ne _ n⟩

end State

/-- Settles O45: the verdict is `State.releaseProof_judged`, of the record that the decay gives. -/
theorem proofsAreJudgedByDecay : Obligations.ProofsAreJudgedByDecay := by
  intro b s
  refine ⟨fun none => event_of rfl ?_, fun f e => ?_⟩
  · unfold State.proofExpires
    rw [none]
  · intro decay
    have expires : s.proofExpires b = s.proofRunsOut b f := by
      unfold State.proofExpires
      rw [e]
    have still := (s.proofRunsOut_steady b f).undisturbed
    refine ⟨s.proofRunsOut b f, event_of rfl expires, ?_⟩
    by_cases fails : s.config.param (16 + b.val) < decay
    · have run : s.proofRunsOut b f = s.failProof b decay f.kind := if_pos fails
      rw [run, s.failProof_eq] at still ⊢
      have k := State.releaseProof_judged (s := s) (b := b) f.kind (a := .suspect) (t := (s.bank b).provenAt)
        (l := s.bm.refillList.filter (· ≠ b)) (o := s.outbox ++ [.bankSuspect b decay]) (.inr rfl)
      rw [if_neg (Nat.not_le.mpr fails), if_neg (Nat.not_le.mpr fails)]
      exact ⟨k.proof, k.overdue, still, fun n => absurd fails (Nat.not_lt.mpr n),
        fun _ => ⟨k.state, k.provenAt, k.list, k.posts _ (List.mem_append_right _ (List.mem_singleton.mpr rfl))⟩,
        k.opportunistic, fun n => ⟨k.undesignated n, k.freed n, k.handed n⟩⟩
    · have run : s.proofRunsOut b f = s.passProof b f.kind := if_neg fails
      have passes := Nat.not_lt.mp fails
      rw [run, s.passProof_eq] at still ⊢
      have k := State.releaseProof_judged (s := s) (b := b) f.kind (a := .proven) (t := some s.site.siteTime)
        (l := s.bm.refillList) (o := s.outbox) (.inl ⟨rfl, rfl⟩)
      rw [if_pos passes, if_pos passes]
      exact ⟨k.proof, k.overdue, still, fun _ => ⟨k.state, k.provenAt, k.list⟩, fun n => absurd n fails,
        k.opportunistic, fun n => ⟨k.undesignated n, k.freed n, k.handed n⟩⟩

end Sys2Proof.Machine
end

section
/-! SUPPORT. What a selection in phase CLAIM comes to (R57, R59, R74, R80, R124, R125). -/

namespace Sys2Proof.Machine

set_option Elab.async false

namespace State

variable {s : State} {p : PosId} {b : BankId}

/-! ### Which bank is chosen -/

theorem usable_iff (fresh : s.bm.freshness = .fresh) : s.usable b p = true ↔ s.Serves p b := by
  unfold usable Serves
  rw [Bool.and_eq_true, Bool.and_eq_true, decide_eq_true_iff, decide_eq_true_iff]
  unfold pressureServes
  rw [decide_eq_true_iff]
  exact ⟨fun h => ⟨h.1.2, h.2⟩, fun h => ⟨⟨fresh, h.1⟩, h.2⟩⟩

theorem candidates_eq (x : Session) : x.candidates = x.selectable := by
  unfold Session.candidates Session.selectable
  cases x.cascadePos with
  | none => rfl
  | some i => exact (apply_ite (fun n => x.cascade.drop n) (x.kind = some .switch) (i + 1) i).symm

theorem chooseBank_none (fresh : s.bm.freshness = .fresh) (h : ∀ d ∈ (s.session p).selectable, ¬s.Serves p d) :
    s.chooseBank p = none := by
  have none : ((s.session p).candidates.filter fun b => s.usable b p) = [] := by
    rw [List.filter_eq_nil_iff, candidates_eq]
    exact fun d m u => h d m ((usable_iff fresh).mp u)
  unfold chooseBank
  rw [none]
  rfl

/-- A bank whose holder is not PROOF is passed over in the first search exactly when PROOF holds it. -/
theorem chooseBank_some (fresh : s.bm.freshness = .fresh) (h : s.Chooses p (s.session p).selectable b) :
    s.chooseBank p = some b := by
  obtain ⟨before, after, split, serves, which⟩ := h
  have usable : s.usable b p = true := (usable_iff fresh).mpr serves
  have filtered : ((s.session p).candidates.filter fun b => s.usable b p)
      = before.filter (fun b => s.usable b p) ++ b :: after.filter fun b => s.usable b p := by
    rw [candidates_eq, split, List.filter_append, List.filter_cons_of_pos (p := fun b => s.usable b p) usable]
  unfold chooseBank
  rw [filtered]
  dsimp only
  rcases which with ⟨free, probed⟩ | ⟨none, probed⟩
  · have first : (before.filter (fun b => s.usable b p) ++ b :: after.filter fun b => s.usable b p).find?
        (fun b => (s.bank b).holder != .proof) = some b := by
      rw [List.find?_append, List.find?_eq_none.mpr, List.find?_cons_of_pos]
      · rfl
      · exact bne_iff_ne.mpr free
      · intro d m
        obtain ⟨at_d, u⟩ := List.mem_filter.mp m
        rw [probed d at_d ((usable_iff fresh).mp u)]
        decide
    rw [first]
  · have all : (before.filter (fun b => s.usable b p) ++ b :: after.filter fun b => s.usable b p).find?
        (fun b => (s.bank b).holder != .proof) = Option.none := by
      rw [List.find?_eq_none, ← List.filter_cons_of_pos (p := fun b => s.usable b p) usable, ← List.filter_append, ← split]
      intro d m
      obtain ⟨at_d, u⟩ := List.mem_filter.mp m
      rw [probed d at_d ((usable_iff fresh).mp u)]
      decide
    have head : before.filter (fun b => s.usable b p) = [] := by
      rw [List.filter_eq_nil_iff]
      exact fun d m u => none d m ((usable_iff fresh).mp u)
    rw [all, head]
    rfl

/-! ### The claim request -/

/-- A position that stands at no bank. -/
theorem holdsOrWaits_eq_false (h : Consistent s) (bank : (s.session p).bank = none)
    (awaited : (s.session p).awaited = none) : s.holdsOrWaits p = false := by
  unfold holdsOrWaits
  rw [List.any_eq_false]
  intro c _
  have holder : (s.bank c).holder ≠ .position p := fun e => nomatch bank.symm.trans ((h.held c p).mp e)
  have queue : p ∉ (s.bank c).queue := fun m => nomatch awaited.symm.trans ((h.queued c p).mp m)
  simp [holder, queue]

theorem claim_granted (aside : s.holdsOrWaits p = false) (usable : s.usable b p = true)
    (holder : (s.bank b).holder = .free ∨ (s.bank b).holder = .proof) :
    s.claim b p = (s.takeBank b p).claimGranted b p := by
  have e : s.claimRequest b p = (s.takeBank b p, .granted) := by
    unfold claimRequest
    rw [aside, usable]
    rcases holder with h | h <;> rw [h] <;> rfl
  unfold claim
  rw [e]

theorem claim_waits (aside : s.holdsOrWaits p = false) (usable : s.usable b p = true)
    (holder : (∃ q, (s.bank b).holder = .position q) ∨ (s.bank b).holder = .refill) :
    s.claim b p = ((s.joinQueue b p).awaitBank b p).yieldAtOnce b (s.bank b).queue.isEmpty := by
  have e : s.claimRequest b p = (s.joinQueue b p, .waits) := by
    unfold claimRequest
    rw [aside, usable]
    rcases holder with ⟨q, h⟩ | h <;> rw [h] <;> rfl
  unfold claim
  rw [e]

/-- A FREE bank, or one whose proof is abandoned, granted (R59, R80). -/
theorem takeBank_holds :
    HoldsBank s ((s.takeBank b p).claimGranted b p) p b
      ∧ (((s.takeBank b p).claimGranted b p).bank b).proof = none
      ∧ (((s.takeBank b p).claimGranted b p).bank b).proofState
        = ((s.bank b).proof.map (·.before)).getD (s.bank b).proofState
      ∧ ((s.bank b).proof.isSome = true → ((s.takeBank b p).claimGranted b p).bm.designation ≠ some b) := by
  have bank : ∀ v : State, (v.claimGranted b p).bank b = v.bank b := fun v => by
    unfold State.bank
    rw [claimGranted_bm]
  have taken : (s.takeBank b p).bank b = { s.bank b with
      holder := .position p
      proofState := ((s.bank b).proof.map (·.before)).getD (s.bank b).proofState
      proof := none } := by
    unfold takeBank
    rw [modBank_bank_same, abandonProof_bank]
  refine ⟨claimGranted_holdsBank ?_ ?_ ?_ ?_ ?_ ?_, ?_, ?_, fun proving => ?_⟩
  · rw [taken]
  · unfold takeBank
    rw [abandonProof_eq]
    rfl
  · unfold takeBank
    rw [abandonProof_eq]
    rfl
  · unfold takeBank
    rw [abandonProof_eq]
    rfl
  · rw [taken]
  · unfold takeBank
    rw [abandonProof_eq]
    rfl
  · rw [bank, taken]
  · rw [bank, taken]
  · rw [claimGranted_bm]
    unfold takeBank
    rw [abandonProof_eq]
    show (if (s.bank b).proof.isSome = true ∧ s.bm.designation = some b then none else s.bm.designation) ≠ some b
    split
    · nofun
    · rename_i n
      exact fun e => n ⟨proving, e⟩

variable (s p b)

/-- A position in the wait queue of a bank, its session told: R59 step 5, R124, R126. -/
def queued (timer : Option Nat) : State :=
  { s.becomes p { s.session p with awaited := some b, bankWaitTimer := some (s.config.param 12) } with
    bm :=
      { s.bm with
        banks := s.bm.banks.set b { s.bank b with queue := (s.bank b).queue ++ [p] }
        yieldTimer := timer } }

variable {s p b}

theorem queued_bank (t : Option Nat) :
    (s.queued p b t).bank b = { s.bank b with queue := (s.bank b).queue ++ [p] } := Quad.get_set_same _ _ _

theorem queued_session (t : Option Nat) : (s.queued p b t).session p
    = { s.session p with awaited := some b, bankWaitTimer := some (s.config.param 12) } := Quad.get_set_same _ _ _

theorem queued_session_ne (t : Option Nat) {q : PosId} (h : q ≠ p) : (s.queued p b t).session q = s.session q :=
  Quad.get_set_ne _ _ h

theorem queued_waits (t : Option Nat) : WaitsForBank s (s.queued p b t) p b :=
  ⟨by rw [queued_bank], by rw [queued_bank], queued_session t⟩

/-- On a bank held by REFILL the yield timer runs, from the first waiter's arrival (R74). -/
theorem joinQueue_refill (holder : (s.bank b).holder = .refill) :
    (s.joinQueue b p).awaitBank b p = s.queued p b (some (s.bm.yieldTimer.getD (s.config.param 13))) := by
  have e : s.joinQueue b p = (s.modBank b fun x => { x with queue := x.queue ++ [p] }).modBm fun m =>
      { m with yieldTimer := some (m.yieldTimer.getD (s.config.param 13)) } :=
    if_pos (by rw [modBank_bank_same]; exact holder)
  rw [e]
  rfl

theorem joinQueue_busy (holder : (s.bank b).holder ≠ .refill) :
    (s.joinQueue b p).awaitBank b p = s.queued p b s.bm.yieldTimer := by
  have e : s.joinQueue b p = s.modBank b fun x => { x with queue := x.queue ++ [p] } :=
    if_neg (by rw [modBank_bank_same]; exact holder)
  rw [e]
  rfl

/-- The head of a queue that a refill makes room for holds the bank as if it had been granted at once. -/
theorem HoldsBank.of_queued {t : Option Nat} {u : State} (h : HoldsBank (s.queued p b t) u p b) : HoldsBank s u p b where
  holder := h.holder
  bank := h.bank
  session n := by
    have profile : (s.queued p b t).profileOf p = s.profileOf p := by
      unfold profileOf
      rw [queued_session]
      rfl
    have granted : (s.queued p b t).grantedAs b ((s.queued p b t).session p) = s.grantedAs b (s.session p) := by
      unfold grantedAs
      rw [queued_session, queued_bank]
      rfl
    have pulse : (s.queued p b t).pulseCeiling p = s.pulseCeiling p :=
      becomes_pulseCeiling s p { s.session p with awaited := some b, bankWaitTimer := some (s.config.param 12) }
        rfl rfl rfl rfl
    have k := h.session (by rw [profile, granted]; exact n)
    rw [granted] at k
    rw [k]
    unfold afterClaim settlesAs connectsAs
    rw [profile, pulse]
    rfl

/-- What a claim request comes to, of a position that stands at no bank (R59, R74, R80). -/
theorem claim_claims (aside : s.holdsOrWaits p = false) (usable : s.usable b p = true) :
    ClaimsBank s (s.claim b p) p b ∧ ∀ q, q ≠ p → (s.claim b p).session q = s.session q := by
  cases o : (s.bank b).holder with
  | free =>
    rw [claim_granted aside usable (.inl o)]
    refine ⟨⟨fun _ => takeBank_holds, fun ⟨q, e⟩ => (nomatch o.symm.trans e), fun e => (nomatch o.symm.trans e),
      fun e => (nomatch o.symm.trans e)⟩, fun q n => ?_⟩
    rw [(claimGranted_spares (Ne.symm n) _ b).1]
    unfold takeBank
    rw [abandonProof_eq]
    rfl
  | proof =>
    rw [claim_granted aside usable (.inr o)]
    refine ⟨⟨fun _ => takeBank_holds, fun ⟨q, e⟩ => (nomatch o.symm.trans e), fun e => (nomatch o.symm.trans e),
      fun e => (nomatch o.symm.trans e)⟩, fun q n => ?_⟩
    rw [(claimGranted_spares (Ne.symm n) _ b).1]
    unfold takeBank
    rw [abandonProof_eq]
    rfl
  | position z =>
    have e : s.claim b p = s.queued p b s.bm.yieldTimer := by
      rw [claim_waits aside usable (.inl ⟨z, o⟩), joinQueue_busy (by rw [o]; nofun)]
      exact if_neg fun h => by
        rw [queued_bank] at h
        exact nomatch o.symm.trans h.2.1
    rw [e]
    exact ⟨⟨fun h => (h.elim (fun h => nomatch o.symm.trans h) fun h => nomatch o.symm.trans h),
      fun _ => ⟨queued_waits _, rfl⟩, fun h => (nomatch o.symm.trans h), fun h => (nomatch o.symm.trans h)⟩,
      fun q n => queued_session_ne _ n⟩
  | refill =>
    have e : s.claim b p = (s.queued p b (some (s.bm.yieldTimer.getD (s.config.param 13)))).yieldAtOnce b
        (s.bank b).queue.isEmpty := by
      rw [claim_waits aside usable (.inr o), joinQueue_refill o]
    have notGranted : ¬((s.bank b).holder = .free ∨ (s.bank b).holder = .proof) := by
      rw [o]
      rintro (h | h) <;> exact nomatch h
    by_cases c : (s.bank b).queue = [] ∧ s.bm.yieldTimer.getD (s.config.param 13) = 0
    · have ends : s.claim b p
          = (s.queued p b (some (s.bm.yieldTimer.getD (s.config.param 13)))).endRefill b .yield := by
        rw [e]
        refine if_pos ⟨List.isEmpty_iff.mpr c.1, ?_, congrArg some c.2⟩
        rw [queued_bank]
        exact o
      rw [ends]
      obtain ⟨flight, timer, told, _, _, _, handed, _⟩ :=
        (s.queued p b (some (s.bm.yieldTimer.getD (s.config.param 13)))).endRefill_ended b .yield
      obtain ⟨holds, _, others, _⟩ := handed p [] (by rw [queued_bank, c.1]; rfl)
      exact ⟨⟨fun h => absurd h notGranted, fun ⟨q, h⟩ => (nomatch o.symm.trans h),
        fun _ h => (h.elim (fun n => absurd c.1 n) fun n => absurd c.2 n),
        fun _ _ _ => ⟨HoldsBank.of_queued holds, flight, timer, told⟩⟩,
        fun q n => (others q n).trans (queued_session_ne _ n)⟩
    · have waits : s.claim b p = s.queued p b (some (s.bm.yieldTimer.getD (s.config.param 13))) := by
        rw [e]
        refine if_neg fun h => c ⟨List.isEmpty_iff.mp h.1, ?_⟩
        exact Option.some.inj h.2.2
      rw [waits]
      exact ⟨⟨fun h => absurd h notGranted, fun ⟨q, h⟩ => (nomatch o.symm.trans h), fun _ _ => ⟨queued_waits _, rfl⟩,
        fun _ q z => absurd ⟨q, z⟩ c⟩, fun q n => queued_session_ne _ n⟩

/-! ### The selection -/

theorem selectBank_stale (endK : Ender) (h : s.bm.freshness = .stale) :
    s.selectBank endK p = s.becomes p (s.awaitsAs (s.session p)) := if_pos h

/-- A selection while the data are FRESH, of a session that runs and stands at no bank (R57, R124). -/
theorem selectBank_selects (h : Consistent s) (run : (s.session p).running = true) (fresh : s.bm.freshness = .fresh)
    (bank : (s.session p).bank = none) (awaited : (s.session p).awaited = none) :
    Selects s (s.selectBank endNow p) p (s.session p).selectable := by
  have live : ¬s.bm.freshness = .stale := fun e => nomatch e.symm.trans fresh
  have still := (selectBank_steady endNow_steady s p).undisturbed
  refine ⟨fun none => ?_, fun b chosen => ?_⟩
  · have e : s.selectBank endNow p = s.endWith p .banksExhausted := by
      refine (if_neg live).trans ?_
      rw [chooseBank_none fresh none]
      rfl
    rw [e]
    exact endWith_Ends h run _
  · have e : s.selectBank endNow p = s.claim b p := by
      refine (if_neg live).trans ?_
      rw [chooseBank_some fresh chosen]
    obtain ⟨_, _, _, serves, _⟩ := chosen
    rw [e] at still ⊢
    obtain ⟨claims, others⟩ :=
      claim_claims (holdsOrWaits_eq_false h bank awaited) ((usable_iff fresh).mpr serves)
    exact ⟨claims, others, still⟩

end State

/-- A session that runs goes to phase CLAIM. -/
theorem Consistent.claims {s : State} (h : Consistent s) {p : PosId} (run : (s.session p).running = true) {y : Session}
    (e : (y.bank, y.awaited, y.finalMass) = ((s.session p).bank, (s.session p).awaited, (s.session p).finalMass)) :
    Consistent (s.shows p y.claims) :=
  (h.bare.moves (f := fun _ => y.claims) run nofun rfl e).posted.consistent

/-- A session that enters phase CLAIM and selects. -/
theorem selects_claiming (s : State) (p : PosId) (y : Session) (run : (s.session p).running = true)
    (e : (y.bank, y.awaited, y.finalMass) = ((s.session p).bank, (s.session p).awaited, (s.session p).finalMass)) :
    Claiming s p y fun u => (s.shows p y.claims).selectBank endNow p = u := by
  have here : (s.shows p y.claims).session p = y.claims := State.shows_session _ _ _
  refine ⟨fun stale => ?_, fun fresh h bank awaited => ⟨_, rfl, ?_⟩⟩
  · rw [State.selectBank_stale endNow (show (s.shows p y.claims).bm.freshness = .stale from stale), here]
    rfl
  · have k := State.selectBank_selects (s := s.shows p y.claims) (h.claims run e) (by rw [here]; rfl) fresh
      (by rw [here]; exact bank) (by rw [here]; exact awaited)
    rw [here] at k
    exact k

end Sys2Proof.Machine
end

section
/-! SUPPORT. Leaving OPENING and HELD, a factor cleared, and cooling granted (R90, R122, R123, R132, R139, R142), as
what they come to. -/

namespace Sys2Proof.Machine

set_option Elab.async false

namespace State

variable {s : State} {p : PosId}

/-! ### Leaving HELD -/

theorem shows_connectsAs (s : State) (p : PosId) (x y : Session) (h : x.profile = (s.session p).profile)
    (b : x.rampBase = (s.session p).rampBase) (a : x.activeTime = (s.session p).activeTime)
    (c : x.fuelClass = (s.session p).fuelClass) : (s.shows p x).connectsAs p y = s.connectsAs p y :=
  becomes_connectsAs s p x y h b a c

theorem shows_checksAs (s : State) (p : PosId) (x y : Session) (h : x.profile = (s.session p).profile) :
    (s.shows p x).checksAs p y = s.checksAs p y :=
  becomes_checksAs s p x y h

theorem shows_settlesAs (s : State) (p : PosId) (x y : Session) (h : x.profile = (s.session p).profile) :
    (s.shows p x).settlesAs p y = s.settlesAs p y := by
  unfold settlesAs
  rw [shows_profileOf s p x h]

theorem unheld_eq : (s.modSession p fun x => x.leaveHold (s.profileOf p).holdLimit) = s.becomes p (s.unheldAs p) := rfl

theorem resume_delivers (endK : Ender) (point : (s.session p).resumePoint = none)
    (bank : (s.session p).bank.isSome = true) (kind : (s.session p).kind = none)
    (attempt : (s.session p).attempt = none) : s.resume endK p = s.shows p (s.deliversAs (s.unheldAs p)) := by
  have here : (s.becomes p (s.unheldAs p)).session p = s.unheldAs p := becomes_session _ _ _
  have e : s.resume endK p = (s.becomes p (s.unheldAs p)).enterDelivering p := by
    unfold resume
    dsimp only
    rw [unheld_eq, here, show (s.unheldAs p).resumePoint = none from point]
    exact if_pos (show (s.unheldAs p).bank.isSome = true from bank)
  rw [e, enterDelivering_eq _ _ (by rw [here]; exact kind) (by rw [here]; exact attempt) (by rw [here]; exact point), here,
    becomes_shows]
  rfl

theorem resume_anew (endK : Ender) (point : (s.session p).resumePoint = none) (bank : (s.session p).bank = none) :
    s.resume endK p = (s.shows p (s.unheldAs p).anew.claims).selectBank endK p := by
  have here : (s.becomes p (s.unheldAs p)).session p = s.unheldAs p := becomes_session _ _ _
  have e : s.resume endK p = (s.becomes p (s.unheldAs p)).reconnect endK p := by
    unfold resume
    dsimp only
    rw [unheld_eq, here, show (s.unheldAs p).resumePoint = none from point]
    exact if_neg (by rw [show (s.unheldAs p).bank = none from bank]; nofun)
  rw [e]
  unfold reconnect newConnection
  dsimp only
  rw [modSession_becomes, here, becomes_becomes, enterClaim_eq, becomes_session, becomes_shows]
  rfl

/-- The phase begins at which a connection resumes (R123). -/
def beginPhase (s : State) (endK : Ender) (p : PosId) : Phase → State
  | .claim => s.selectBank endK p
  | .connect => s.beginConnect p
  | .leakCheck => s.beginLeakCheck p
  | .settle => s.beginSettle p

/-- An unfinished connection that resumes is in CLAIM before its phase begins. -/
theorem resume_point (endK : Ender) {f : Phase} (point : (s.session p).resumePoint = some f) :
    s.resume endK p = (s.shows p (s.unheldAs p).resumed.claims).beginPhase endK p f := by
  have here : (s.becomes p (s.unheldAs p)).session p = s.unheldAs p := becomes_session _ _ _
  have e : s.resume endK p = (s.becomes p (s.unheldAs p)).resumeConnection endK p f := by
    unfold resume
    dsimp only
    rw [unheld_eq, here, show (s.unheldAs p).resumePoint = some f from point]
  have claims : (((s.becomes p (s.unheldAs p)).modSession p fun x => { x with resumePoint := none }).enterClaim p).postSession p
      = s.shows p (s.unheldAs p).resumed.claims := by
    rw [modSession_becomes, here, becomes_becomes, enterClaim_eq, becomes_session, becomes_shows]
    rfl
  rw [e]
  unfold resumeConnection
  dsimp only
  rw [claims]
  cases f <;> rfl

theorem resume_leavesHold (held : (s.session p).state = .held) :
    LeavesHold s p fun u => s.resume endNow p = u := by
  have run : (s.session p).running = true :=
    Session.running_of_endsSilent ((endsSilent_iff _).mpr (.inr (.inr held)))
  let w := (s.unheldAs p).resumed.claims
  have here : (s.shows p w).session p = w := shows_session _ _ _
  have profile : (s.shows p w).profileOf p = s.profileOf p := shows_profileOf s p w rfl
  refine ⟨fun point bank kind attempt => resume_delivers endNow point bank kind attempt, fun point bank => ?_,
    fun point => ?_, fun point n => ?_, fun point z clear => ?_, fun point => ?_, fun point n => ?_,
    fun point z clear => ?_, ⟨_, rfl, (resume_steady endNow_steady s p).undisturbed⟩⟩
  · rw [resume_anew endNow point bank]
    exact selects_claiming s p _ run rfl
  · rw [resume_point endNow point]
    exact selects_claiming s p _ run rfl
  · rw [resume_point endNow point]
    refine (beginConnect_eq _ _ (by rw [profile]; exact n)).trans ?_
    rw [here, shows_connectsAs s p w w rfl rfl rfl rfl]
    rfl
  · rw [resume_point endNow point]
    refine (beginConnect_atOnce _ _ (by rw [profile]; exact z) (by rw [here]; exact clear)).trans ?_
    rw [here, shows_checksAs s p w w rfl]
    rfl
  · rw [resume_point endNow point]
    refine (beginLeakCheck_eq _ _).trans ?_
    rw [here, shows_checksAs s p w w rfl]
    rfl
  · rw [resume_point endNow point]
    refine (beginSettle_eq _ _ (by rw [profile]; exact n)).trans ?_
    rw [here, shows_settlesAs s p w w rfl]
    rfl
  · rw [resume_point endNow point]
    refine (beginSettle_atOnce _ _ (by rw [profile]; exact z)).trans ?_
    rw [here]
    refine congrArg ((s.shows p w).shows p) ?_
    exact if_pos clear

/-! ### A factor cleared -/

theorem not_clearStays {x : Session} {y : Factors} (h : ¬s.ClearStays x y) :
    x.state = .held ∧ y = Factors.none ∧ x.factors ≠ y ∧ (s.config.profile x.profileIndex).resumeDelay = 0 := by
  unfold ClearStays at h
  refine ⟨?_, ?_, ?_, ?_⟩
  · exact by_contra fun n => h fun e => absurd e n
  · exact by_contra fun n => h fun _ e => absurd e n
  · exact fun n => h fun _ _ e => absurd n e
  · exact by_contra fun n => h fun _ _ _ => n

/-- A factor cleared, where the session leaves HELD for it. -/
theorem clearFactor_leaves_held (endK : Ender) (f : Factor)
    (h : ¬s.ClearStays (s.session p) ((s.session p).factors.put f false)) :
    s.clearFactor endK p f
      = (s.becomes p { s.session p with factors := (s.session p).factors.put f false }).resume endK p := by
  obtain ⟨held, none, changed, delay⟩ := not_clearStays h
  have set : (s.session p).factors.has f = true := by
    by_contra n
    exact changed (Factors.put_same (by simpa using n)).symm
  have profile : (s.becomes p { s.session p with factors := (s.session p).factors.put f false }).profileOf p
      = s.profileOf p := becomes_profileOf s p _ rfl
  unfold clearFactor
  rw [if_pos set]
  dsimp only
  rw [modSession_becomes, becomes_session]
  refine (if_pos ⟨held, (Factors.isEmpty_iff _).mpr none⟩).trans ?_
  refine if_pos ?_
  rw [profile]
  exact delay

theorem clearFactor_clears (f : Factor) :
    Clears s p ((s.session p).factors.put f false) fun u => s.clearFactor endNow p f = u := by
  refine ⟨fun stays => clearFactor_eq s endNow p f stays, fun leaves => ?_⟩
  rw [clearFactor_leaves_held endNow f leaves]
  refine resume_leavesHold ?_
  rw [becomes_session]
  exact (not_clearStays leaves).1

/-! ### Leaving OPENING, and cooling granted -/

theorem leaveOpening_leavesOpening (opening : (s.session p).state = .opening) :
    LeavesOpening s p fun u => s.leaveOpening endNow p = u := by
  let y : Session := { s.session p with kind := some .first, attempt := some .first, resumePoint := none }
  let t : State := { s with monitors := s.monitors.set p { s.monitor p with progressTimer := some (s.config.param 8) } }
  have run : (t.session p).running = true := by
    show (s.session p).running = true
    unfold Session.running
    rw [opening]
  have e : (s.newConnection p .first (some .first)).restartProgress p = t.becomes p y := rfl
  have here : (t.becomes p y).session p = y := becomes_session _ _ _
  refine ⟨fun clear => ?_, fun set => ?_⟩
  · have connects : s.leaveOpening endNow p = (t.shows p y.claims).selectBank endNow p := by
      unfold leaveOpening
      dsimp only
      rw [e, here]
      refine (if_pos ((Factors.isEmpty_iff _).mpr clear)).trans ?_
      rw [enterClaim_eq, here, becomes_shows]
    rw [connects]
    exact selects_claiming t p y run rfl
  · show s.leaveOpening endNow p = t.shows p (s.heldAs y (some .claim))
    unfold leaveOpening
    dsimp only
    rw [e, here]
    refine (if_neg fun k => set ((Factors.isEmpty_iff _).mp k)).trans ?_
    rw [enterHeld_eq, here, becomes_shows]
    rfl

theorem coolingGranted_cooled : Cooled s p fun u => s.coolingGranted endNow p = u := by
  have e : ∀ t : State, t = s.becomes p { s.session p with cooling := .granted } → s.coolingGranted endNow p
      = if (s.session p).state = .opening then t.leaveOpening endNow p else t.clearFactor endNow p .cooling :=
    fun t h => by
      unfold coolingGranted
      dsimp only
      rw [modSession_becomes, becomes_session, h]
  refine ⟨fun opening => ?_, fun later => ?_⟩
  · rw [e _ rfl, if_pos opening]
    exact leaveOpening_leavesOpening (by rw [becomes_session]; exact opening)
  · rw [e _ rfl, if_neg later]
    have k := clearFactor_clears (s := s.becomes p { s.session p with cooling := .granted }) (p := p) .cooling
    rw [becomes_session] at k
    exact k

end State

end Sys2Proof.Machine
end

section
/-! SUPPORT. What a transition of a Fill Engine comes to, taken from one way of saying how the event goes to another, and
from a port TAKING the request to the port as it stood. -/

namespace Sys2Proof.Machine

set_option Elab.async false

section Imp

variable {s : State} {p : PosId} {goes goes' : State → Prop} (i : ∀ u, goes u → goes' u)

include i

theorem Claiming.imp {y : Session} (h : Claiming s p y goes) : Claiming s p y goes' :=
  ⟨fun e => i _ (h.stale e), fun e c b a => (h.fresh e c b a).imp fun u k => ⟨i u k.1, k.2⟩⟩

theorem LeavesOpening.imp (h : LeavesOpening s p goes) : LeavesOpening s p goes' :=
  ⟨fun e => (h.connects e).imp i, fun e => i _ (h.held e)⟩

theorem LeavesHold.imp (h : LeavesHold s p goes) : LeavesHold s p goes' where
  delivers r b k a := i _ (h.delivers r b k a)
  anew r b := (h.anew r b).imp i
  claim r := (h.claim r).imp i
  connect r n := i _ (h.connect r n)
  connectAtOnce r z c := i _ (h.connectAtOnce r z c)
  leakCheck r := i _ (h.leakCheck r)
  settle r n := i _ (h.settle r n)
  settleAtOnce r z c := i _ (h.settleAtOnce r z c)
  any := h.any.imp fun u k => ⟨i u k.1, k.2⟩

theorem Clears.imp {y : Factors} (h : Clears s p y goes) : Clears s p y goes' :=
  ⟨fun e => i _ (h.stays e), fun e => (h.leaves e).imp i⟩

theorem Cooled.imp (h : Cooled s p goes) : Cooled s p goes' :=
  ⟨fun e => (h.opening e).imp i, fun e => (h.later e).imp i⟩

end Imp

section Untaken

variable {s u : State} {f : Frame} {p : PosId}

theorem WaitsForBank.untaken {b : BankId} (h : WaitsForBank (s.taking f) u p b) :
    WaitsForBank s { u with ports := s.ports } p b := ⟨h.holder, h.queue, h.session⟩

theorem ClaimsBank.untaken {b : BankId} (h : ClaimsBank (s.taking f) u p b) :
    ClaimsBank s { u with ports := s.ports } p b where
  granted e :=
    have ⟨holds, proof⟩ := h.granted e
    ⟨holds.untaken, proof⟩
  busy e :=
    have ⟨waits, timer⟩ := h.busy e
    ⟨waits.untaken, timer⟩
  refilled e t :=
    have ⟨waits, timer⟩ := h.refilled e t
    ⟨waits.untaken, timer⟩
  yielded e q t :=
    have ⟨holds, rest⟩ := h.yielded e q t
    ⟨holds.untaken, rest⟩

theorem Selects.untaken {l : List BankId} (h : Selects (s.taking f) u p l) :
    Selects s { u with ports := s.ports } p l :=
  ⟨fun e => (h.exhausted e).untaken, fun b c =>
    have ⟨claims, others, rest⟩ := h.chosen b c
    ⟨claims.untaken, others, rest.untaken⟩⟩

variable {goes : State → Prop} (ports : ∀ u, goes u → u.ports = (s.taking f).ports)

include ports

theorem Claiming.untaken {y : Session} (h : Claiming (s.taking f) p y goes) :
    Claiming s p y fun u => goes (u.taking f) := by
  refine ⟨fun e => h.stale e, fun e c b a => ?_⟩
  obtain ⟨u, went, selects⟩ := h.fresh e (c.taken f) b a
  refine ⟨{ u with ports := s.ports }, ?_, Selects.untaken (s := s.shows p y.claims) (f := f) selects⟩
  rw [← State.of_taking (ports u went)]
  exact went

theorem LeavesOpening.untaken (h : LeavesOpening (s.taking f) p goes) :
    LeavesOpening s p fun u => goes (u.taking f) :=
  ⟨fun e => Claiming.untaken (s := { s with
      monitors := s.monitors.set p { s.monitor p with progressTimer := some (s.config.param 8) } }) ports (h.connects e),
    fun e => h.held e⟩

theorem LeavesHold.untaken (h : LeavesHold (s.taking f) p goes) : LeavesHold s p fun u => goes (u.taking f) where
  delivers r b k a := h.delivers r b k a
  anew r b := Claiming.untaken ports (h.anew r b)
  claim r := Claiming.untaken ports (h.claim r)
  connect r n := h.connect r n
  connectAtOnce r z c := h.connectAtOnce r z c
  leakCheck r := h.leakCheck r
  settle r n := h.settle r n
  settleAtOnce r z c := h.settleAtOnce r z c
  any := by
    obtain ⟨u, went, rest⟩ := h.any
    refine ⟨{ u with ports := s.ports }, ?_, rest.untaken⟩
    rw [← State.of_taking (ports u went)]
    exact went

theorem Clears.untaken {y : Factors} (h : Clears (s.taking f) p y goes) : Clears s p y fun u => goes (u.taking f) :=
  ⟨fun e => h.stays e, fun e =>
    LeavesHold.untaken (s := s.becomes p { s.session p with factors := y }) ports (h.leaves e)⟩

theorem Cooled.untaken (h : Cooled (s.taking f) p goes) : Cooled s p fun u => goes (u.taking f) :=
  ⟨fun e => LeavesOpening.untaken (s := s.becomes p { s.session p with cooling := .granted }) ports (h.opening e),
    fun e => Clears.untaken (s := s.becomes p { s.session p with cooling := .granted }) ports (h.later e)⟩

end Untaken

end Sys2Proof.Machine
end

section
/-! SUPPORT. PAUSE, CONTINUE and the warm timer (R137, R139, R140), the resume timer (R142), segment boundaries (R135) and
the keep timer (R144). -/

namespace Sys2Proof.Machine

set_option Elab.async false

/-- Settles O54: PAUSE and GAS WARM are set by `State.setFactor_eq`; what the clearing of PAUSE comes to is
`State.clearFactor_clears`. -/
theorem factorsAreSetAndCleared : Obligations.FactorsAreSetAndCleared := by
  refine ⟨fun p tag s k => ⟨fun idle => ?_, fun run => ?_⟩, fun p tag s k => ⟨fun idle => ?_, fun run => ?_⟩,
    fun p s => ⟨fun stopped => ?_, fun runs => ?_⟩⟩
  · exact exec_answers_of_wireForm (wireForm _) rfl rfl k
      (if_neg (by rw [show ((s.taking _).session p).running = false from idle]; nofun))
  · exact exec_answers_of_wireForm (t := s.becomes p { s.session p with
      factors := { (s.session p).factors with pause := true }, resumeTimer := none }) (wireForm _) rfl rfl k (if_pos run)
  · exact exec_answers_of_wireForm (wireForm _) rfl rfl k
      (if_neg (by rw [show ((s.taking _).session p).running = false from idle]; nofun))
  · let f := continueFrame p tag
    have clears : Clears (s.taking f) p { (s.session p).factors with pause := false }
        fun u => (s.taking f).clearFactor endNow p .pause = u := State.clearFactor_clears .pause
    refine (clears.untaken fun u e => e ▸ (State.clearFactor_steady endNow_steady (s.taking f) p .pause).ports).imp fun u e => ?_
    exact exec_answers_of_wireForm (wireForm _) rfl rfl k
      ((if_pos run).trans (congrArg (·, (⟨.ok, []⟩ : Reply)) e))
  · exact event_of rfl (if_neg (by rw [show (s.session p).warmTimer = none from stopped]; nofun))
  · refine event_of rfl ((if_pos (Option.isSome_iff_ne_none.mpr runs)).trans ?_)
    rw [State.modSession_becomes, State.setFactor_eq, State.becomes_becomes, State.becomes_session]
    rfl

/-- Settles O55: what the end of a hold comes to is `State.resume_leavesHold`. -/
theorem resumeLeavesTheHold : Obligations.ResumeLeavesTheHold := by
  intro p s x goes
  refine ⟨fun idle => ?_, fun held runs => ?_⟩
  · refine event_of rfl (if_neg fun k => ?_)
    rcases idle with free | stopped
    · exact free k.1
    · exact Option.isSome_iff_ne_none.mp k.2 stopped
  · have expires : s.resumeExpires p = s.resume endNow p := if_pos ⟨held, Option.isSome_iff_ne_none.mpr runs⟩
    exact (State.resume_leavesHold held).imp fun u e => event_of rfl (expires.trans e)

/-! ### Segment boundaries -/

namespace State

variable {s : State} {p : PosId} {b : BankId}

theorem becomes_session_ne (x : Session) {q : PosId} (h : q ≠ p) : (s.becomes p x).session q = s.session q :=
  Quad.get_set_ne _ _ h

theorem switchNeeded_of_bank (h : (s.session p).bank = some b) : s.switchNeeded p = false ↔
    s.nozzlePressure p + (s.profileOf p).switchMargin ≤ (s.bank b).pressure.getD 0 := by
  unfold switchNeeded
  rw [h]
  dsimp only
  unfold pressureServes neededPressure
  simp

theorem switchNeeded_of_none (h : (s.session p).bank = none) : s.switchNeeded p = true := by
  unfold switchNeeded
  rw [h]

/-- A session in a switch, its claim given up (R131). -/
def switching (x : Session) : Session := { x with kind := some .switch, attempt := none, resumePoint := none }

theorem boundary_held (set : (s.session p).factors ≠ Factors.none) :
    s.boundary p = s.shows p (s.heldAs (s.session p) none) :=
  (if_pos (by rw [Bool.not_eq_true']; exact Bool.eq_false_iff.mpr fun e => set ((Factors.isEmpty_iff _).mp e))).trans
    (enterHeld_eq _ _ _)

theorem not_held_of_clear (clear : (s.session p).factors = Factors.none) :
    ¬(!(s.session p).factors.isEmpty) = true := by
  rw [(Factors.isEmpty_iff _).mpr clear]
  nofun

theorem boundary_serves (clear : (s.session p).factors = Factors.none) (h : s.switchNeeded p = false) :
    s.boundary p = s.becomes p { s.session p with segmentTimer := some (s.profileOf p).segmentLength } :=
  (if_neg (not_held_of_clear clear)).trans (if_neg (by rw [h]; nofun))

theorem boundary_switches (clear : (s.session p).factors = Factors.none) (h : s.switchNeeded p = true) :
    s.boundary p =
      ((s.releaseClaim p).shows p (switching ((s.releaseClaim p).session p)).claims).selectBank endNow p := by
  refine (if_neg (not_held_of_clear clear)).trans ((if_pos h).trans ?_)
  unfold switchBanks newConnection
  dsimp only
  rw [modSession_becomes, enterClaim_eq, becomes_session, becomes_shows]
  rfl

/-! ### The keep timer -/

/-- A held session whose keep timer has run out (R123, R144), its connection as it was before. -/
def keptAs (x z : Session) : Session :=
  { z with
    keepTimer := none
    resumePoint := if x.kind = none then x.resumePoint else some .claim
    kind := if x.kind = none then none else some (if x.rampBase.isSome then .reconnect else .first)
    attempt := if x.kind = none then x.attempt else some (x.attempt.getD .first) }

theorem keepReleased_eq (z : Session) (h : z.keepTimer = none) : z.keepReleased = keptAs z z := by
  unfold Session.keepReleased keptAs
  cases k : z.kind with
  | none => simp [← h, ← k]
  | some c => simp [← h]

theorem keepRelease_none (h : (s.session p).bank = none) :
    s.keepRelease p = s.becomes p (keptAs (s.session p) (s.session p)) := by
  unfold keepRelease
  dsimp only
  rw [modSession_becomes s, releaseClaim_none (by rw [becomes_session]; exact h), modSession_becomes, becomes_becomes,
    becomes_session, keepReleased_eq _ rfl]
  rfl

/-- The state in which the keep timer of a session is stopped. -/
def unkept (s : State) (p : PosId) : State := s.becomes p { s.session p with keepTimer := none }

/-- A release of a claim does not see the keep timer. -/
theorem unkept_releases {w : State} (h : Releases (s.unkept p) w p b) (queue : p ∉ (s.bank b).queue) :
    Releases s (w.becomes p (s.releasedAs b (s.session p))) p b := by
  refine ⟨fun e => ?_, fun q rest e => ?_⟩
  · have k := h.free e
    refine ⟨k.forced, k.opportunistic, k.others, k.designation, ?_, k.manager⟩
    refine Eq.trans (congrArg (fun v : State => v.becomes p (s.releasedAs b (s.session p))) k.rest :) ?_
    unfold unkept becomes
    simp only [Quad.set_set]
    rfl
  · obtain ⟨holds, left, _, others, still, banks, manager, cbu, sales⟩ := h.handed q rest e
    have qp : q ≠ p := fun i => queue (i ▸ e ▸ List.mem_cons_self)
    have same : (s.unkept p).session q = s.session q := becomes_session_ne _ qp
    have profile : (s.unkept p).profileOf q = s.profileOf q := by
      unfold profileOf
      rw [same]
      rfl
    have after : ∀ y, (s.unkept p).afterClaim q y = s.afterClaim q y := afterClaim_congr rfl rfl same
    refine ⟨⟨holds.holder, ?_, fun n => ?_⟩, left, becomes_session _ _ _, fun z zp zq => ?_, ?_, banks, manager, cbu, sales⟩
    · rw [becomes_session_ne _ qp]
      exact holds.bank
    · rw [becomes_session_ne _ qp, ← after]
      have k := holds.session (by rw [profile, same]; exact n)
      rw [same] at k
      exact k
    · rw [becomes_session_ne _ zp]
      exact (others z zp zq).trans (becomes_session_ne _ zp)
    · refine ⟨still.pending, still.tenths, still.ports, still.site, still.capacity, still.slots, still.tariff,
        still.freshness, still.ambient, still.reports, still.monitors, fun z m => ?_, still.posts, still.records⟩
      by_cases zp : z = p
      · rw [zp, becomes_session]
        rfl
      · rw [becomes_session_ne _ zp]
        have unchanged : (s.unkept p).session z = s.session z := becomes_session_ne _ zp
        have k := still.sessions z (by rw [unchanged]; exact m)
        rw [unchanged] at k
        exact k

/-- The keep timer of a session that holds a bank runs out: the bank is released, and what is left of the session starts
again from CLAIM. -/
theorem keepRelease_releases (h : Consistent s) (e : (s.session p).bank = some b) :
    ∃ v : State, Releases s v p b ∧ Consistent v ∧ s.keepRelease p = v.becomes p (keptAs (s.session p) (v.session p)) := by
  have l : Linked .none none (s.unkept p) := (Consistent.becomes h (p := p) (x := { s.session p with keepTimer := none }) rfl).bare
  have bank : ((s.unkept p).session p).bank = some b := by
    unfold unkept
    rw [becomes_session]
    exact e
  have record : ((s.unkept p).releaseClaim p).session p = { s.releasedAs b (s.session p) with keepTimer := none } := by
    rw [releaseClaim_session l bank]
    unfold unkept
    rw [becomes_session]
    rfl
  have agrees : Consistent ((s.unkept p).releaseClaim p) := (releaseClaim_linked l (.inl rfl)).consistent
  refine ⟨((s.unkept p).releaseClaim p).becomes p (s.releasedAs b (s.session p)),
    unkept_releases (releaseClaim_releases l (.inl rfl) bank) (not_queued h.bare e b), agrees.becomes ?_, ?_⟩
  · rw [record]
    rfl
  · have step : s.keepRelease p = ((s.unkept p).releaseClaim p).modSession p Session.keepReleased := rfl
    rw [step, modSession_becomes, becomes_becomes, becomes_session, record, keepReleased_eq _ rfl]
    rfl

end State

/-- Settles O57: a boundary that switches releases by `State.releaseClaim_releases` and selects by `selects_claiming`; the
keep timer's release is `State.keepRelease_releases`. -/
theorem boundariesAndKeepTimersGiveBanksBack : Obligations.BoundariesAndKeepTimersGiveBanksBack := by
  intro p s x f ends serves boundary switching kept keeps again
  have runs : ends → (s.session p).running = true := fun e =>
    Session.running_of_endsSilent ((State.endsSilent_iff _).mpr (.inr (.inl e.1)))
  have expires : ends → ∀ {u}, s.boundary p = u → boundary u := fun e _ k =>
    event_of rfl ((if_pos ⟨e.1, Option.isSome_iff_ne_none.mpr e.2⟩).trans k)
  have keepExpires : keeps → ∀ {u}, s.keepRelease p = u → kept u := fun e _ k =>
    event_of rfl ((if_pos ⟨e.1, Option.isSome_iff_ne_none.mpr e.2⟩).trans k)
  refine ⟨fun n => event_of rfl (if_neg fun k => n ⟨k.1, Option.isSome_iff_ne_none.mp k.2⟩),
    fun e set => expires e (State.boundary_held set), fun b e clear bank ok => ?_, fun b e clear bank fails h => ?_,
    fun e clear none => ?_, fun n => event_of rfl (if_neg fun k => n ⟨k.1, Option.isSome_iff_ne_none.mp k.2⟩),
    fun e none => keepExpires e (State.keepRelease_none none), fun b e bank h => ?_⟩
  · exact expires e (State.boundary_serves clear ((State.switchNeeded_of_bank bank).mpr ok))
  · have record := State.releaseClaim_session h.bare bank
    have run : ((s.releaseClaim p).session p).running = true := by
      rw [record]
      exact runs e
    have switches : s.switchNeeded p = true :=
      Bool.not_eq_false _ ▸ fun k => fails ((State.switchNeeded_of_bank bank).mp k)
    refine ⟨s.releaseClaim p, State.releaseClaim_releases h.bare (.inl rfl) bank,
      (State.releaseClaim_linked h.bare (.inl rfl)).consistent, ?_⟩
    exact (selects_claiming (s.releaseClaim p) p (State.switching ((s.releaseClaim p).session p)) run rfl).imp fun u k =>
      expires e ((State.boundary_switches clear switches).trans k)
  · have none : (s.session p).bank = Option.none := none
    have stays : s.releaseClaim p = s := State.releaseClaim_none none
    have k := State.boundary_switches clear (State.switchNeeded_of_none none)
    rw [stays] at k
    exact (selects_claiming s p (State.switching (s.session p)) (runs e) rfl).imp fun u l => expires e (k.trans l)
  · obtain ⟨v, releases, agrees, k⟩ := State.keepRelease_releases h bank
    exact ⟨v, releases, agrees, keepExpires e k⟩

end Sys2Proof.Machine
end

section
/-! SUPPORT. The head of the cooling wait queue that does not fit goes on waiting, whatever a grant or an end brings with
it (R90): the queue grows no longer and grants are made until the head does not fit. -/

namespace Sys2Proof.Machine

set_option Elab.async false

/-- The head of the cooling wait queue does not fit beside what is granted. -/
def State.Stuck (s : State) : Prop := HeadWaits s.cbu.capacity s.granted s.cbu.queue

/-- The cooling wait queue has not grown, and its head waits on if it waited. -/
structure HeadStays (s t : State) : Prop where
  queue : t.cbu.queue.length ≤ s.cbu.queue.length
  stuck : s.Stuck → t.Stuck

/-- An ender under which the head waits on. -/
def Ender.StuckEnd (endK : Ender) : Prop := ∀ p r s, HeadStays s (endK p r s)

namespace HeadStays

variable {s t u : State}

theorem refl (s : State) : HeadStays s s := ⟨le_refl _, id⟩

theorem trans (h : HeadStays s t) (k : HeadStays t u) : HeadStays s u := ⟨k.queue.trans h.queue, k.stuck ∘ h.stuck⟩

theorem of_apart (h : Apart s t) : HeadStays s t := by
  refine ⟨by rw [h.cbu], fun k => ?_⟩
  unfold State.Stuck State.granted at *
  rw [h.cbu]
  exact k

theorem ite {c : Prop} [Decidable c] (h : c → HeadStays s t) (k : ¬c → HeadStays s u) :
    HeadStays s (if c then t else u) := by
  split
  · exact h ‹_›
  · exact k ‹_›

/-- A change of one session's record. -/
theorem session (h : HeadStays s t) {p : PosId} {f : Session → Session} : HeadStays s (t.modSession p f) :=
  ⟨h.queue, h.stuck⟩

theorem posted (h : HeadStays s t) {n : Notice} : HeadStays s (t.post n) := ⟨h.queue, h.stuck⟩

theorem of_cbu (h : t.cbu = s.cbu) : HeadStays s t := by
  refine ⟨by rw [h], fun k => ?_⟩
  unfold State.Stuck State.granted at *
  rw [h]
  exact k

end HeadStays

namespace State

variable {endK : Ender} (hE : endK.StuckEnd) (s : State) (p : PosId)

include hE

theorem selectBank_headStays : HeadStays s (s.selectBank endK p) := by
  unfold selectBank
  refine .ite (fun _ => .of_apart (awaitFresh_apart _ _)) fun _ => ?_
  split
  · exact .of_apart (claim_apart _ _ _)
  · exact hE _ _ _

/-- A session that enters phase CLAIM and selects. -/
theorem claimPhase_headStays : HeadStays s (((s.enterClaim p).postSession p).selectBank endK p) :=
  ((HeadStays.of_apart ((enterClaim_apart s p).trans (postSession_apart _ p)))).trans (selectBank_headStays hE _ _)

theorem leaveOpening_headStays : HeadStays s (s.leaveOpening endK p) :=
  (HeadStays.of_apart ((newConnection_apart s p _ _).trans (restartProgress_apart _ _))).trans
    (.ite (fun _ => claimPhase_headStays hE _ _) fun _ => .of_apart (enterHeld_apart _ _ _))

theorem resumeConnection_headStays (f : Phase) : HeadStays s (s.resumeConnection endK p f) := by
  unfold resumeConnection
  refine ((HeadStays.refl s).session (p := p) (f := fun x => { x with resumePoint := none })).trans ?_
  refine HeadStays.trans (.of_apart ((enterClaim_apart _ p).trans (postSession_apart _ p))) ?_
  cases f
  · exact selectBank_headStays hE _ _
  · exact .of_apart (beginConnect_apart _ _)
  · exact .of_apart (beginLeakCheck_apart _ _)
  · exact .of_apart (beginSettle_apart _ _)

theorem resume_headStays : HeadStays s (s.resume endK p) := by
  unfold resume
  refine ((HeadStays.refl s).session (p := p) (f := fun x => x.leaveHold (s.profileOf p).holdLimit)).trans ?_
  dsimp only
  split
  · exact resumeConnection_headStays hE _ _ _
  · refine .ite (fun _ => .of_apart (enterDelivering_apart _ _)) fun _ => ?_
    exact (HeadStays.of_apart (newConnection_apart _ p _ _)).trans (claimPhase_headStays hE _ _)

theorem clearFactor_headStays (f : Factor) : HeadStays s (s.clearFactor endK p f) := by
  unfold clearFactor
  refine .ite (fun _ => ?_) fun _ => .refl s
  refine ((HeadStays.refl s).session (p := p) (f := fun x => { x with factors := x.factors.put f false })).trans ?_
  refine .ite (fun _ => ?_) fun _ => .refl _
  exact .ite (fun _ => resume_headStays hE _ _) fun _ => (HeadStays.refl _).session

theorem coolingGranted_headStays : HeadStays s (s.coolingGranted endK p) :=
  (HeadStays.refl s).session.trans
    (.ite (fun _ => leaveOpening_headStays hE _ _) fun _ => clearFactor_headStays hE _ _ _)

/-- Grants are made until the head does not fit: the number given is enough when it is the queue's length. -/
theorem grantFromHead_stuck (n : Nat) : (grantFromHead endK n s).cbu.queue.length ≤ s.cbu.queue.length
    ∧ (s.cbu.queue.length ≤ n → (grantFromHead endK n s).Stuck) := by
  induction n generalizing s with
  | zero => exact ⟨le_refl _, fun l w rest e => by
      have e : s.cbu.queue = w :: rest := e
      rw [e] at l
      exact nomatch l⟩
  | succ n ih =>
    unfold grantFromHead
    split
    · rename_i e
      exact ⟨le_refl _, fun _ w rest k => nomatch e.symm.trans k⟩
    · rename_i w rest e
      split
      · rename_i full
        refine ⟨le_refl _, fun _ v more k => ?_⟩
        obtain ⟨rfl, _⟩ := List.cons.inj (e.symm.trans k)
        exact full
      · have granted : (s.grantHead w rest).cbu.queue = rest := rfl
        have shorter := (coolingGranted_headStays hE (s.grantHead w rest) w.pos).queue
        rw [granted] at shorter
        obtain ⟨length, stuck⟩ := ih ((s.grantHead w rest).coolingGranted endK w.pos)
        rw [e]
        exact ⟨(length.trans shorter).trans (Nat.le_succ _),
          fun l => stuck (shorter.trans (Nat.le_of_succ_le_succ l))⟩

theorem grantWaiters_stuck : (s.grantWaiters endK).cbu.queue.length ≤ s.cbu.queue.length ∧ (s.grantWaiters endK).Stuck :=
  have h := grantFromHead_stuck hE s s.cbu.queue.length
  ⟨h.1, h.2 (le_refl _)⟩

theorem leaveCooling_headStays : HeadStays s (s.leaveCooling endK p) := by
  unfold leaveCooling
  refine .ite (fun _ => ?_) fun _ => .ite (fun _ => ?_) fun _ => .refl s
  · have h := grantWaiters_stuck hE (s.modCbu fun c => { c with grants := c.grants.filter fun g => g.pos != p })
    exact ⟨h.1, fun _ => h.2⟩
  · have h := grantWaiters_stuck hE (s.setCoolingQueue (s.cbu.queue.filter fun w => w.pos != p))
    exact ⟨h.1.trans (List.length_filter_le _ _), fun _ => h.2⟩

theorem endSteps_headStays (r : EndReason) : HeadStays s (s.endSteps endK p r) := by
  unfold endSteps
  refine HeadStays.posted (HeadStays.session (HeadStays.trans ?_ (leaveCooling_headStays hE _ p)))
  refine (HeadStays.refl s).session.trans (.of_apart ((releaseClaim_apart _ p).trans (leaveQueue_apart _ p)))

end State

theorem State.commit_cbu (s : State) (p : PosId) : (s.commit p).cbu = s.cbu := by
  have posted : ∀ (t : State) (r : SaleRecord), (t.postMismatch r).cbu = t.cbu := fun t r => by
    unfold State.postMismatch
    split <;> rfl
  exact posted (s.modSales fun u => { u with
    records := u.records ++ [s.saleRecord p], counter := nextCounter u.counter }) (s.saleRecord p)

theorem State.serveRegister_cbu (n : Nat) (s : State) : (serveRegister n s).cbu = s.cbu := by
  induction n generalizing s with
  | zero => rfl
  | succ n ih =>
    unfold serveRegister
    split
    · dsimp only
      split
      · exact (ih _).trans (commit_cbu _ _)
      · rfl
    · rfl

theorem endSession_stuck (n : Nat) : (endSession n).StuckEnd := by
  induction n with
  | zero => exact fun _ _ s => .refl s
  | succ n ih =>
    intro p r s
    refine .ite (fun _ => ?_) fun _ => .refl s
    exact (State.endSteps_headStays ih s p r).trans (.of_cbu (State.serveRegister_cbu _ _))

theorem endNow_stuck : endNow.StuckEnd := endSession_stuck 4

namespace State

variable {s : State} {p : PosId}

/-- Cooling granted while the head waits: no waiter is granted after it. -/
theorem coolingGranted_then (h : s.Stuck) :
    (s.coolingGranted endNow p).grantWaiters endNow = s.coolingGranted endNow p :=
  grantWaiters_none ((coolingGranted_headStays endNow_stuck s p).stuck h)

/-- The head that fits is granted, and the next does not fit. -/
theorem grantWaiters_head {w : Waiter} {rest : List Waiter} (e : s.cbu.queue = w :: rest)
    (fits : s.granted + w.demand ≤ s.cbu.capacity) (next : HeadWaits s.cbu.capacity (s.granted + w.demand) rest) :
    s.grantWaiters endNow = (s.grantHead w rest).coolingGranted endNow w.pos := by
  have stuck : (s.grantHead w rest).Stuck := by
    have total : (s.grantHead w rest).granted = s.granted + w.demand := by
      show ((s.cbu.grants ++ [(⟨w.pos, w.demand, w.limit⟩ : Grant)]).map (·.demand)).sum = _
      simp [granted]
    unfold Stuck
    rw [total]
    exact next
  have after := (coolingGranted_headStays endNow_stuck (s.grantHead w rest) w.pos).stuck stuck
  have idle : ∀ (n : Nat) (t : State), t.Stuck → grantFromHead endNow n t = t := fun n t k => by
    cases n with
    | zero => rfl
    | succ n =>
      unfold grantFromHead
      split
      · rfl
      · rename_i v more q
        exact if_pos (k v more q)
  have step : s.grantWaiters endNow
      = grantFromHead endNow rest.length ((s.grantHead w rest).coolingGranted endNow w.pos) := by
    have one : ∀ n, grantFromHead endNow (n + 1) s
        = grantFromHead endNow n ((s.grantHead w rest).coolingGranted endNow w.pos) := fun n => by
      conv_lhs => unfold grantFromHead
      rw [e]
      exact if_neg (Nat.not_lt.mpr fits)
    unfold grantWaiters
    rw [e]
    exact one _
  rw [step, idle _ _ after]

theorem grantWaiters_grantsHead {w : Waiter} {rest : List Waiter} (e : s.cbu.queue = w :: rest)
    (fits : s.granted + w.demand ≤ s.cbu.capacity) (next : HeadWaits s.cbu.capacity (s.granted + w.demand) rest) :
    GrantsHead s w rest fun u => s.grantWaiters endNow = u := by
  rw [grantWaiters_head e fits next]
  exact coolingGranted_cooled (s := s.grantHead w rest)

end State

end Sys2Proof.Machine
end

section
/-! SUPPORT. The running out of a cooling wait timer (R94, R95, R145, R47, R158). -/

namespace Sys2Proof.Machine

set_option Elab.async false

namespace State

variable {s : State} {p : PosId} {k : Nat}

theorem waitsForCooling_iff : s.waitsForCooling p = true ↔ ∃ w ∈ s.cbu.queue, w.pos = p := by
  unfold waitsForCooling
  rw [List.any_eq_true]
  exact exists_congr fun w => and_congr_right fun _ => beq_iff_eq

/-! ### The degrade -/

theorem degradeTarget_none (h : ∀ k, ¬((s.profileOf p).degradeTo = some k ∧ (s.config.profile k).permitted = true)) :
    s.degradeTarget p = none := by
  unfold degradeTarget
  cases e : (s.profileOf p).degradeTo with
  | none => rfl
  | some k => exact if_neg fun permitted => h k ⟨e, permitted⟩

theorem degradeTarget_some (h : (s.profileOf p).degradeTo = some k ∧ (s.config.profile k).permitted = true) :
    s.degradeTarget p = some k := by
  unfold degradeTarget
  rw [h.1]
  exact if_pos h.2

theorem degradeTarget_spec (h : s.degradeTarget p = some k) : (s.profileOf p).degradeTo = some k := by
  unfold degradeTarget at h
  cases e : (s.profileOf p).degradeTo with
  | none => rw [e] at h; exact nomatch h
  | some j =>
    rw [e] at h
    dsimp only at h
    split at h
    · rw [Option.some.inj h]
    · exact nomatch h

/-- The tariff price of a session's fuel class under a profile (R158). -/
def degradedPrice (s : State) (p : PosId) (k : Nat) : Nat :=
  s.sales.tariff.getD ((s.session p).cls.code * 8 + (precoolOfProfile k).code * 2 + s.site.priceBand.code) 0

/-- A session that has degraded to a profile: the ramp based anew at the ceiling in force, and the price held no higher
than the tariff (R47, R145, R158). -/
def degradedAs (s : State) (p : PosId) (k : Nat) : Session :=
  { s.session p with
    profile := some k
    rampBase := s.rampCeiling p
    activeTime := if (s.session p).rampBase.isSome then 0 else (s.session p).activeTime
    flags := { (s.session p).flags with degradedCooling := true }
    warmTimer := none
    unitPrice := (s.session p).unitPrice.map fun held => min held (s.degradedPrice p k)
    massCeiling :=
      match (s.session p).unitPrice with
      | none => (s.session p).massCeiling
      | some held => some ((s.session p).ceilingAt (min held (s.degradedPrice p k))) }

theorem degrade_eq (s : State) (p : PosId) (k : Nat) : s.degrade p k = s.becomes p (s.degradedAs p k) := by
  unfold degrade rebase recapture degradedAs
  dsimp only
  rw [modSession_becomes, becomes_session]
  cases (s.session p).unitPrice with
  | none => rfl
  | some held =>
    dsimp only
    rw [modSession_becomes, becomes_session, becomes_becomes, tariffPrice_eq, becomes_session]
    rfl

theorem degraded_profileOf : (s.becomes p (s.degradedAs p k)).profileOf p = s.config.profile k := by
  unfold profileOf
  rw [becomes_session]
  rfl

theorem degraded_heldTooLong : (s.becomes p (s.degradedAs p k)).heldTooLong p = true ↔
    (s.session p).state = .held ∧ (s.config.profile k).holdLimit < (s.session p).heldTime := by
  unfold heldTooLong
  rw [decide_eq_true_iff, degraded_profileOf, becomes_session]
  rfl

/-- The state with another cooling wait queue, and COOLING DEMAND posted (R97). -/
theorem setCoolingQueue_eq (s : State) (q : List Waiter) : s.setCoolingQueue q =
    { s with cbu := { s.cbu with queue := q }, outbox := s.outbox ++ [.coolingDemand (q.map (·.demand)).sum] } := rfl

/-! ### One step of the running out -/

section Step

variable (n : Nat)

theorem expireCooling_idle (h : ¬∃ w ∈ s.cbu.queue, w.pos = p) : expireCooling n p s = s := by
  cases n with
  | zero => rfl
  | succ n => exact if_neg fun e => h (waitsForCooling_iff.mp e)

variable (h : ∃ w ∈ s.cbu.queue, w.pos = p)

include h

theorem expireCooling_unavailable (none : s.degradeTarget p = none) :
    expireCooling (n + 1) p s = (s.endWith p .coolingUnavailable).grantWaiters endNow := by
  refine (if_pos (waitsForCooling_iff.mpr h)).trans ?_
  rw [none]

/-- A waiter that degrades, the hold limit tested before its demand is handed over. -/
theorem expireCooling_degrades (target : s.degradeTarget p = some k) :
    expireCooling (n + 1) p s =
      if (s.becomes p (s.degradedAs p k)).heldTooLong p = true then
        ((s.becomes p (s.degradedAs p k)).endWith p .holdLimit).grantWaiters endNow
      else if (s.config.profile k).coolingDemand = 0 then
        ((s.becomes p (s.degradedAs p k)).grantWithoutEntry p).grantWaiters endNow
      else if (s.config.profile k).coolingWaitLimit = 0 then
        expireCooling n p ((s.becomes p (s.degradedAs p k)).replaceDemand p (s.config.profile k).coolingDemand
          (s.config.profile k).coolingWaitLimit)
      else
        ((s.becomes p (s.degradedAs p k)).replaceDemand p (s.config.profile k).coolingDemand
          (s.config.profile k).coolingWaitLimit).grantWaiters endNow := by
  refine (if_pos (waitsForCooling_iff.mpr h)).trans ?_
  rw [target]
  dsimp only
  rw [degrade_eq, degraded_profileOf]

end Step

/-- The end of a session that is listed for cooling leaves no waiter that fits. -/
theorem endWith_then (h : Consistent s) (m : p ∈ s.cbu.positions) (r : EndReason) :
    Ends s ((s.endWith p r).grantWaiters endNow) p r := by
  have ends := endWith_Ends h (h.cooled p m) r
  obtain ⟨taken, rest, more, places⟩ := ends.places
  rw [grantWaiters_none (places.granting m)]
  exact ends

/-! ### A wait limit of 0 after a degrade -/

/-- How far along its class's degrade chain a profile stands: each entry degrades to a later one (R28). -/
def chainRank (i : Nat) : Nat := i % 24 / 6

theorem chainRank_lt {c : SiteConfig} (h : c.InRange) {i : Nat} (e : (c.profile i).degradeTo = some k) :
    chainRank i < chainRank k := by
  unfold SiteConfig.profile at e
  cases f : c.profiles.getD i none with
  | none => rw [f] at e; exact nomatch e
  | some x =>
    rw [f] at e
    obtain ⟨later, column, cls, _⟩ := (h.profiles i x f).degradeTo k e
    unfold chainRank
    omega

theorem chainRank_le (i : Nat) : chainRank i ≤ 3 := by
  unfold chainRank
  omega

/-- The number of steps is enough: what is left of the chain fits it. -/
theorem expireCooling_enough (n : Nat) : ∀ (s : State), s.site.config.InRange →
    4 ≤ n + chainRank (s.session p).profileIndex → expireCooling n p s = expireCooling (n + 1) p s := by
  induction n with
  | zero =>
    intro s _ enough
    have := chainRank_le (s.session p).profileIndex
    omega
  | succ n ih =>
    intro s ranges enough
    by_cases h : ∃ w ∈ s.cbu.queue, w.pos = p
    · cases target : s.degradeTarget p with
      | none => rw [expireCooling_unavailable n h target, expireCooling_unavailable (n + 1) h target]
      | some k =>
        have further := chainRank_lt ranges (degradeTarget_spec target)
        have step := ih ((s.becomes p (s.degradedAs p k)).replaceDemand p (s.config.profile k).coolingDemand
          (s.config.profile k).coolingWaitLimit) ranges (by
            have record : (((s.becomes p (s.degradedAs p k)).replaceDemand p (s.config.profile k).coolingDemand
              (s.config.profile k).coolingWaitLimit).session p) = s.degradedAs p k := becomes_session _ _ _
            rw [record]
            show 4 ≤ n + chainRank k
            omega)
        rw [expireCooling_degrades n h target, expireCooling_degrades (n + 1) h target, step]
    · rw [expireCooling_idle _ h, expireCooling_idle _ h]

end State

/-- Settles O47: a wait that runs out takes one step (`State.expireCooling_degrades`); the head then waits
(`State.coolingGranted_then`) or is granted (`State.grantWaiters_grantsHead`), and the chain fits the number of steps
(`State.expireCooling_enough`). -/
theorem coolingWaitEndsOrDegrades : Obligations.CoolingWaitEndsOrDegrades := by
  intro p s x permitted waits goes
  have listed : waits → p ∈ s.cbu.positions := fun ⟨w, m, e⟩ =>
    List.mem_append_right _ (List.mem_map.mpr ⟨w, m, e⟩)
  refine ⟨fun n => event_of rfl (State.expireCooling_idle 4 n), fun w none h => ?_, fun k w ok => ?_⟩
  · exact ⟨_, event_of rfl (State.expireCooling_unavailable 3 w (State.degradeTarget_none none)),
      State.endWith_then h (listed w) _⟩
  · intro price y demand limit tooLong queue others queued
    have degraded : s.degradedAs p k = y := rfl
    have step := State.expireCooling_degrades 3 w (State.degradeTarget_some ok)
    have steps : ¬tooLong → expireCooling 4 p s = _ := fun n =>
      step.trans (if_neg fun e => n (State.degraded_heldTooLong.mp e))
    have frees : ¬tooLong → demand = 0 → expireCooling 4 p s
        = ((s.becomes p (s.degradedAs p k)).grantWithoutEntry p).grantWaiters endNow :=
      fun n zero => (steps n).trans (if_pos zero)
    have waiting : ¬tooLong → demand ≠ 0 → limit ≠ 0 → expireCooling 4 p s = (queued queue).grantWaiters endNow :=
      fun n d l => (steps n).trans ((if_neg d).trans (if_neg l))
    have unlisted : (s.cbu.queue.filter fun w => w.pos != p) = others :=
      List.filter_congr fun w _ => by by_cases e : w.pos = p <;> simp [e]
    refine ⟨fun long h => ?_, fun n d l head => ?_, fun w' rest n d l e fits next => ?_, fun n d l ranges => ?_,
      fun n zero => ?_, fun n zero head => ?_⟩
    · have agrees : Consistent (s.becomes p (s.degradedAs p k)) := h.becomes rfl
      exact ⟨_, event_of rfl (step.trans (if_pos (State.degraded_heldTooLong.mpr long))),
        State.endWith_then agrees (listed w) _⟩
    · exact event_of rfl ((waiting n d l).trans (State.grantWaiters_none head))
    · exact (State.grantWaiters_grantsHead (s := queued queue) e fits next).imp fun u k =>
        event_of rfl ((waiting n d l).trans k)
    · have at_once : expireCooling 4 p s = expireCooling 3 p (queued queue) :=
        (steps n).trans ((if_neg d).trans (if_pos l))
      have further := State.chainRank_lt ranges.1 ok.1
      have enough := State.expireCooling_enough (p := p) 3 (queued queue) ranges.1 (by
        have record : (queued queue).session p = y := State.becomes_session _ _ _
        rw [record]
        show 4 ≤ 3 + State.chainRank k
        omega)
      exact congrArg (fun u : State => Host.Outcome.next u.flush) (at_once.trans enough)
    · refine ⟨_, event_of rfl (frees n zero), Steady.undisturbed ?_⟩
      exact ((State.setCoolingQueue_steady _ _).trans (State.coolingGranted_steady endNow_steady _ _)).trans
        (State.grantWaiters_steady endNow_steady _)
    · refine (State.coolingGranted_cooled (s := queued others) (p := p)).imp fun u told => event_of rfl ((frees n zero).trans ?_)
      have entry : (s.becomes p (s.degradedAs p k)).grantWithoutEntry p = (queued others).coolingGranted endNow p := by
        unfold State.grantWithoutEntry
        rw [show ((s.becomes p (s.degradedAs p k)).cbu.queue.filter fun w => w.pos != p) = others from unlisted]
        rfl
      rw [entry, State.coolingGranted_then (s := queued others) head]
      exact told

end Sys2Proof.Machine
end

section
/-! SUPPORT. What the blocks do within an event does not see the ports: with other ports it is the same, the ports kept. -/

namespace Sys2Proof.Machine

set_option Elab.async false

namespace State

/-- The state with other ports. -/
def onPorts (s : State) (P : Ports) : State := { s with ports := P }

variable {P : Ports} (s : State) (p : PosId) (b : BankId)

theorem over_ite {c : Prop} [Decidable c] {t u t' u' : State} (h : t' = t.onPorts P) (k : u' = u.onPorts P) :
    (if c then t' else u') = (if c then t else u).onPorts P := by
  split
  · exact h
  · exact k

/-! ### Proofs -/

theorem forcedExamination_over : (s.onPorts P).forcedExamination = s.forcedExamination.onPorts P := by
  unfold forcedExamination
  refine over_ite ?_ rfl
  show (match s.longestOverdue with | none => s.onPorts P | some _ => _) = _
  cases s.longestOverdue with
  | none => rfl
  | some b => exact over_ite (over_ite rfl rfl) rfl

theorem opportunisticExamination_over : (s.onPorts P).opportunisticExamination b = (s.opportunisticExamination b).onPorts P :=
  over_ite rfl rfl

theorem becameFree_over : (s.onPorts P).becameFree b = (s.becameFree b).onPorts P := by
  unfold becameFree
  rw [forcedExamination_over, opportunisticExamination_over]

theorem abandonProof_over : (s.onPorts P).abandonProof b = (s.abandonProof b).onPorts P := by
  rw [abandonProof_eq, abandonProof_eq]
  rfl

/-! ### Phases of a session -/

theorem capture_over : (s.onPorts P).capture p = (s.capture p).onPorts P := by
  unfold capture
  show (match (s.session p).unitPrice with | some _ => s.onPorts P | none => _) = _
  cases (s.session p).unitPrice <;> rfl

theorem enterDelivering_over : (s.onPorts P).enterDelivering p = (s.enterDelivering p).onPorts P :=
  capture_over ((s.modSession p fun x =>
    { x.quiet with state := .delivering, flowCeiling := s.rampCeiling p,
                   segmentTimer := some (s.profileOf p).segmentLength }).postSession p) p

theorem connected_over : (s.onPorts P).connected p = (s.connected p).onPorts P :=
  over_ite (enterDelivering_over (s.finishConnection p) p) rfl

theorem endConnect_over : (s.onPorts P).endConnect p = (s.endConnect p).onPorts P := over_ite rfl rfl

theorem beginConnect_over : (s.onPorts P).beginConnect p = (s.beginConnect p).onPorts P :=
  over_ite (endConnect_over (s.modSession p fun _ => s.connectsAs p (s.session p)) p) rfl

theorem beginSettle_over : (s.onPorts P).beginSettle p = (s.beginSettle p).onPorts P :=
  over_ite (connected_over (s.modSession p fun _ => s.settlesAs p (s.session p)) p) rfl

theorem endClaim_over : (s.onPorts P).endClaim p = (s.endClaim p).onPorts P :=
  over_ite (over_ite (beginSettle_over s p) (beginConnect_over s p)) rfl

theorem claimGranted_over : (s.onPorts P).claimGranted b p = (s.claimGranted b p).onPorts P := by
  rw [claimGranted_eq, claimGranted_eq]
  exact endClaim_over (s.becomes p (s.grantedAs b (s.session p))) p

/-! ### Claims -/

theorem settleYield_over : (s.onPorts P).settleYield = s.settleYield.onPorts P := by
  unfold settleYield
  show (match s.bm.refillInFlight with | some _ => _ | none => s.onPorts P) = _
  cases s.bm.refillInFlight with
  | none => rfl
  | some b => exact over_ite rfl rfl

theorem handOff_over : (s.onPorts P).handOff b = (s.handOff b).onPorts P := by
  cases q : (s.bank b).queue with
  | nil =>
    rw [handOff_free s q, handOff_free (s.onPorts P) q]
    rfl
  | cons p rest =>
    rw [handOff_handed s q, handOff_handed (s.onPorts P) q]
    exact claimGranted_over (s.modBank b fun x => { x with holder := .position p, queue := rest }) p b

theorem freed_over (t : State) : (if ((t.onPorts P).bank b).holder = .free then (t.onPorts P).becameFree b else t.onPorts P)
    = (if (t.bank b).holder = .free then t.becameFree b else t).onPorts P :=
  over_ite (becameFree_over t b) rfl

theorem handOn_over : (s.onPorts P).handOn b = (s.handOn b).onPorts P := by
  unfold handOn
  rw [handOff_over]
  exact freed_over b _

theorem releaseClaim_over : (s.onPorts P).releaseClaim p = (s.releaseClaim p).onPorts P := by
  unfold releaseClaim
  show (match (s.session p).bank with | none => s.onPorts P | some _ => _) = _
  cases (s.session p).bank with
  | none => rfl
  | some b => exact over_ite (handOn_over ((s.snapshotRelease b p).forgetBank p) b) rfl

theorem leaveQueue_over : (s.onPorts P).leaveQueue p = (s.leaveQueue p).onPorts P := by
  unfold leaveQueue
  show (match (s.session p).awaited with | none => s.onPorts P | some _ => _) = _
  cases (s.session p).awaited with
  | none => rfl
  | some b =>
    exact settleYield_over ((s.modBank b fun x => { x with queue := x.queue.filter fun q => q != p }).modSession p fun x =>
      { x with awaited := none, bankWaitTimer := none })

theorem relist_over : (s.onPorts P).relist b = (s.relist b).onPorts P := over_ite (over_ite rfl rfl) rfl

theorem endRefill_over (r : RefillReason) : (s.onPorts P).endRefill b r = (s.endRefill b r).onPorts P := by
  have ends : (s.onPorts P).refillEnds b r = (s.refillEnds b r).onPorts P := by
    unfold refillEnds
    dsimp only
    rw [show (s.onPorts P).modBm (fun m => { m with refillInFlight := none, yieldTimer := none }) = s.unrefilled.onPorts P from rfl,
      handOff_over]
    exact relist_over ((s.unrefilled.handOff b).post (.refillStop b r)) b
  unfold endRefill
  rw [ends]
  exact freed_over b _

theorem claim_over : (s.onPorts P).claim b p = (s.claim b p).onPorts P := by
  have aside : (s.onPorts P).holdsOrWaits p = s.holdsOrWaits p := rfl
  have usable : (s.onPorts P).usable b p = s.usable b p := rfl
  cases a : s.holdsOrWaits p with
  | true =>
    have refused : ∀ t : State, t.holdsOrWaits p = true → t.claim b p = t := fun t e => by
      unfold claim claimRequest
      rw [e]
      rfl
    rw [refused s a, refused (s.onPorts P) a]
  | false =>
    cases u : s.usable b p with
    | false =>
      have refused : ∀ t : State, t.holdsOrWaits p = false → t.usable b p = false → t.claim b p = t := fun t e f => by
        unfold claim claimRequest
        rw [e, f]
        rfl
      rw [refused s a u, refused (s.onPorts P) a u]
    | true =>
      have waits : (∃ q, (s.bank b).holder = .position q) ∨ (s.bank b).holder = .refill →
          (s.onPorts P).claim b p = (s.claim b p).onPorts P := fun o => by
        rw [claim_waits a u o, claim_waits (s := s.onPorts P) a u o]
        have joined : ((s.onPorts P).joinQueue b p).awaitBank b p = ((s.joinQueue b p).awaitBank b p).onPorts P :=
          congrArg (fun t : State => t.awaitBank b p) (over_ite rfl rfl : (s.onPorts P).joinQueue b p = (s.joinQueue b p).onPorts P)
        rw [joined]
        exact over_ite (endRefill_over _ b _) rfl
      have granted : (s.bank b).holder = .free ∨ (s.bank b).holder = .proof →
          (s.onPorts P).claim b p = (s.claim b p).onPorts P := fun o => by
        rw [claim_granted a u o, claim_granted (s := s.onPorts P) a u o]
        have taken : (s.onPorts P).takeBank b p = (s.takeBank b p).onPorts P :=
          congrArg (fun t : State => t.modBank b fun x => { x with holder := .position p }) (abandonProof_over s b)
        rw [taken]
        exact claimGranted_over _ p b
      cases o : (s.bank b).holder with
      | free => exact granted (.inl o)
      | proof => exact granted (.inr o)
      | position q => exact waits (.inl ⟨q, o⟩)
      | refill => exact waits (.inr o)

end State

/-! ### Selecting, granting and ending -/

/-- An ender that does not see the ports. -/
def Ender.Over (endK : Ender) (P : Ports) : Prop := ∀ p r s, endK p r (s.onPorts P) = (endK p r s).onPorts P

namespace State

variable {P : Ports} {endK : Ender} (hE : endK.Over P) (s : State) (p : PosId)

include hE

theorem selectBank_over : (s.onPorts P).selectBank endK p = (s.selectBank endK p).onPorts P := by
  unfold selectBank
  refine over_ite rfl ?_
  show (match s.chooseBank p with | some b => (s.onPorts P).claim b p | none => endK p .banksExhausted (s.onPorts P)) = _
  cases s.chooseBank p with
  | none => exact hE _ _ _
  | some b => exact claim_over s p b

theorem leaveOpening_over : (s.onPorts P).leaveOpening endK p = (s.leaveOpening endK p).onPorts P :=
  over_ite (selectBank_over hE ((((s.newConnection p .first (some .first)).restartProgress p).enterClaim p).postSession p) p)
    rfl

theorem resumeConnection_over (f : Phase) :
    (s.onPorts P).resumeConnection endK p f = (s.resumeConnection endK p f).onPorts P := by
  unfold resumeConnection
  cases f
  · exact selectBank_over hE (((s.modSession p fun x => { x with resumePoint := none }).enterClaim p).postSession p) p
  · exact beginConnect_over (((s.modSession p fun x => { x with resumePoint := none }).enterClaim p).postSession p) p
  · rfl
  · exact beginSettle_over (((s.modSession p fun x => { x with resumePoint := none }).enterClaim p).postSession p) p

theorem reconnect_over : (s.onPorts P).reconnect endK p = (s.reconnect endK p).onPorts P :=
  selectBank_over hE (((s.newConnection p (if (s.session p).rampBase.isSome then ConnKind.reconnect else ConnKind.first)
    (some .first)).enterClaim p).postSession p) p

omit hE in
theorem resume_at (endK : Ender) {point : Phase} (e : (s.session p).resumePoint = some point) :
    s.resume endK p = (s.becomes p (s.unheldAs p)).resumeConnection endK p point := by
  unfold resume
  dsimp only
  rw [unheld_eq, becomes_session, show (s.unheldAs p).resumePoint = some point from e]

omit hE in
theorem resume_nowhere (endK : Ender) (e : (s.session p).resumePoint = none) :
    s.resume endK p = if (s.session p).bank.isSome then (s.becomes p (s.unheldAs p)).enterDelivering p
      else (s.becomes p (s.unheldAs p)).reconnect endK p := by
  unfold resume
  dsimp only
  rw [unheld_eq, becomes_session, show (s.unheldAs p).resumePoint = none from e]
  rfl

theorem resume_over : (s.onPorts P).resume endK p = (s.resume endK p).onPorts P := by
  cases e : (s.session p).resumePoint with
  | some point =>
    rw [resume_at s p endK e, resume_at (s.onPorts P) p endK e]
    exact resumeConnection_over hE (s.becomes p (s.unheldAs p)) p point
  | none =>
    rw [resume_nowhere s p endK e, resume_nowhere (s.onPorts P) p endK e]
    have onward := enterDelivering_over (P := P) (s.becomes p (s.unheldAs p)) p
    have anew := reconnect_over hE (s.becomes p (s.unheldAs p)) p
    exact over_ite onward anew

theorem clearFactor_over (f : Factor) : (s.onPorts P).clearFactor endK p f = (s.clearFactor endK p f).onPorts P :=
  over_ite (over_ite (over_ite (resume_over hE (s.modSession p fun x => { x with factors := x.factors.put f false }) p) rfl)
    rfl) rfl

theorem coolingGranted_over : (s.onPorts P).coolingGranted endK p = (s.coolingGranted endK p).onPorts P :=
  over_ite (leaveOpening_over hE (s.modSession p fun x => { x with cooling := .granted }) p)
    (clearFactor_over hE (s.modSession p fun x => { x with cooling := .granted }) p .cooling)

theorem grantFromHead_over (n : Nat) : grantFromHead endK n (s.onPorts P) = (grantFromHead endK n s).onPorts P := by
  induction n generalizing s with
  | zero => rfl
  | succ n ih =>
    unfold grantFromHead
    show (match s.cbu.queue with | [] => s.onPorts P | w :: rest => _) = _
    cases s.cbu.queue with
    | nil => rfl
    | cons w rest =>
      refine over_ite rfl ?_
      refine (congrArg (grantFromHead endK n) (coolingGranted_over hE (s.grantHead w rest) w.pos)).trans (ih _)

theorem grantWaiters_over : (s.onPorts P).grantWaiters endK = (s.grantWaiters endK).onPorts P :=
  grantFromHead_over hE s s.cbu.queue.length

theorem leaveCooling_over : (s.onPorts P).leaveCooling endK p = (s.leaveCooling endK p).onPorts P :=
  over_ite (grantWaiters_over hE (s.modCbu fun c => { c with grants := c.grants.filter fun g => g.pos != p }))
    (over_ite (grantWaiters_over hE (s.setCoolingQueue (s.cbu.queue.filter fun w => w.pos != p))) rfl)

theorem endSteps_over (r : EndReason) : (s.onPorts P).endSteps endK p r = (s.endSteps endK p r).onPorts P := by
  unfold endSteps
  dsimp only
  rw [show ((s.onPorts P).modSession p fun x => x.markEnded r (s.onPorts P).site.siteTime ((s.onPorts P).endingNozzle p))
      = (s.modSession p fun x => x.markEnded r s.site.siteTime (s.endingNozzle p)).onPorts P from rfl,
    releaseClaim_over, leaveQueue_over, leaveCooling_over hE]
  rfl

omit hE in
theorem commit_over : (s.onPorts P).commit p = (s.commit p).onPorts P := by
  have posted : ∀ (t : State) (r : SaleRecord), (t.onPorts P).postMismatch r = (t.postMismatch r).onPorts P := fun t r =>
    over_ite rfl rfl
  have mismatch := posted (s.modSales fun u => { u with
    records := u.records ++ [s.saleRecord p], counter := nextCounter u.counter }) (s.saleRecord p)
  unfold commit
  dsimp only
  rw [show ((s.onPorts P).modSales fun u => { u with
      records := u.records ++ [(s.onPorts P).saleRecord p], counter := nextCounter u.counter })
    = (s.modSales fun u => { u with
      records := u.records ++ [s.saleRecord p], counter := nextCounter u.counter }).onPorts P from rfl,
    show (s.onPorts P).saleRecord p = s.saleRecord p from rfl, mismatch]
  rfl

omit hE in
theorem serveRegister_over (n : Nat) : serveRegister n (s.onPorts P) = (serveRegister n s).onPorts P := by
  induction n generalizing s with
  | zero => rfl
  | succ n ih =>
    unfold serveRegister
    show (match s.sales.register, s.sales.closeQueue with | none, p :: rest => _ | _, _ => s.onPorts P) = _
    cases s.sales.register with
    | some q => rfl
    | none =>
      cases s.sales.closeQueue with
      | nil => rfl
      | cons q rest =>
        refine over_ite ?_ rfl
        refine (congrArg (serveRegister n) ?_).trans (ih _)
        exact congrArg (fun t : State => t.modSales fun u => { u with register := none, closingTimer := none })
          (commit_over (s.takeRegister q rest) q)

omit hE in
theorem joinCloseQueue_over : (s.onPorts P).joinCloseQueue p = (s.joinCloseQueue p).onPorts P :=
  serveRegister_over (s.modSales fun u => { u with closeQueue := u.closeQueue ++ [p] }) _

end State

theorem endSession_over (P : Ports) (n : Nat) : (endSession n).Over P := by
  induction n with
  | zero => exact fun _ _ _ => rfl
  | succ n ih =>
    intro p r s
    refine State.over_ite ?_ rfl
    rw [State.endSteps_over ih, State.joinCloseQueue_over]

theorem endNow_over (P : Ports) : endNow.Over P := endSession_over P 4

namespace State

variable {P : Ports} (s : State) (p : PosId)

theorem endWith_over (r : EndReason) : (s.onPorts P).endWith p r = (s.endWith p r).onPorts P := endNow_over P p r s

/-- The running out of a cooling wait timer does not see the ports. -/
theorem expireCooling_over (n : Nat) : expireCooling n p (s.onPorts P) = (expireCooling n p s).onPorts P := by
  induction n generalizing s with
  | zero => rfl
  | succ n ih =>
    unfold expireCooling
    refine over_ite ?_ rfl
    show (match s.degradeTarget p with | none => _ | some k => _) = _
    cases s.degradeTarget p with
    | none =>
      dsimp only
      rw [endWith_over, grantWaiters_over (endNow_over P)]
    | some k =>
      dsimp only
      have degraded : (s.onPorts P).degrade p k = (s.degrade p k).onPorts P := by
        rw [degrade_eq, degrade_eq]
        rfl
      rw [degraded]
      refine over_ite ?_ (over_ite ?_ (over_ite ?_ ?_))
      · rw [endWith_over, grantWaiters_over (endNow_over P)]
      · have granted : ((s.degrade p k).onPorts P).grantWithoutEntry p = ((s.degrade p k).grantWithoutEntry p).onPorts P :=
          coolingGranted_over (endNow_over P) ((s.degrade p k).setCoolingQueue
            ((s.degrade p k).cbu.queue.filter fun w => w.pos != p)) p
        rw [granted, grantWaiters_over (endNow_over P)]
      · exact ih ((s.degrade p k).replaceDemand p ((s.degrade p k).profileOf p).coolingDemand
          ((s.degrade p k).profileOf p).coolingWaitLimit)
      · exact grantWaiters_over (endNow_over P) ((s.degrade p k).replaceDemand p
          ((s.degrade p k).profileOf p).coolingDemand ((s.degrade p k).profileOf p).coolingWaitLimit)

theorem coolingWaitRunsOut_over : (s.onPorts P).coolingWaitRunsOut p = (s.coolingWaitRunsOut p).onPorts P :=
  expireCooling_over s p 4

/-- What no grant, claim, hold or end changes, and no session's record, the running out does not change. -/
theorem expireCooling_keeps {α : Sort*} {F : State → α} (steady : ∀ t u, Steady t u → F u = F t)
    (record : ∀ (t : State) x, F (t.becomes p x) = F t) (n : Nat) : F (expireCooling n p s) = F s := by
  induction n generalizing s with
  | zero => rfl
  | succ n ih =>
    have ends : ∀ (t : State) r, F ((t.endWith p r).grantWaiters endNow) = F t := fun t r =>
      steady _ _ ((endNow_steady p r t).trans (grantWaiters_steady endNow_steady _))
    have degraded : ∀ k, F (s.degrade p k) = F s := fun k => by rw [degrade_eq, record]
    unfold expireCooling
    split
    · split
      · exact ends s .coolingUnavailable
      next k _ =>
        dsimp only
        split
        · exact (ends _ .holdLimit).trans (degraded k)
        · split
          · refine Eq.trans (steady _ _ ?_) (degraded k)
            exact ((setCoolingQueue_steady _ _).trans (coolingGranted_steady endNow_steady _ _)).trans
              (grantWaiters_steady endNow_steady _)
          · have replaced : ∀ d l, Steady (s.degrade p k) ((s.degrade p k).replaceDemand p d l) := fun _ _ =>
              setCoolingQueue_steady _ _
            split
            · exact (ih _).trans ((steady _ _ (replaced _ _)).trans (degraded k))
            · exact (steady _ _ ((replaced _ _).trans (grantWaiters_steady endNow_steady _))).trans (degraded k)
    · rfl

theorem coolingWaitRunsOut_ports : (s.coolingWaitRunsOut p).ports = s.ports :=
  expireCooling_keeps s p (fun _ _ k => k.ports) (fun _ _ => rfl) 4

theorem coolingWaitRunsOut_capacity : (s.coolingWaitRunsOut p).cbu.capacity = s.cbu.capacity :=
  expireCooling_keeps s p (fun _ _ k => k.capacity) (fun _ _ => rfl) 4

/-- The running out of a cooling wait timer while a port takes a frame. -/
theorem taking_coolingWaitRunsOut (f : Frame) :
    (s.taking f).coolingWaitRunsOut p = (s.coolingWaitRunsOut p).taking f := by
  refine (coolingWaitRunsOut_over (P := (s.taking f).ports) s p).trans ?_
  unfold taking modPort onPorts
  rw [coolingWaitRunsOut_ports]

end State

end Sys2Proof.Machine
end

section
/-! SUPPORT. A report of the cooling capacity (R88, R89, R90). -/

namespace Sys2Proof.Machine

set_option Elab.async false

/-! ### Which grants are revoked -/

/-- Grants are taken from the newest end as long as those beneath do not fit. -/
theorem popNewest_over {c : Nat} {g : Grant} {older : List Grant} (full : c < ((g :: older).map (·.demand)).sum)
    (newer revoked : List Grant) :
    popNewest c (newer ++ g :: older) revoked = popNewest c older (g :: (newer.reverse ++ revoked)) := by
  induction newer generalizing revoked with
  | nil =>
    conv_lhs => unfold popNewest
    exact if_neg (Nat.not_le.mpr full)
  | cons x newer ih =>
    have more : c < ((x :: (newer ++ g :: older)).map (·.demand)).sum := by
      rw [List.map_cons, List.sum_cons, List.map_append, List.sum_append]
      omega
    conv_lhs => unfold popNewest
    refine (if_neg (Nat.not_le.mpr more)).trans ((ih (x :: revoked)).trans ?_)
    rw [List.reverse_cons, List.append_assoc]
    rfl

theorem popNewest_fits {c : Nat} {l : List Grant} (fits : (l.map (·.demand)).sum ≤ c) (revoked : List Grant) :
    popNewest c l revoked = (l, revoked) := by
  cases l with
  | nil => rfl
  | cons g l => exact if_pos fits

theorem sum_demand_reverse (l : List Grant) : (l.reverse.map (·.demand)).sum = (l.map (·.demand)).sum := by
  rw [List.map_reverse, List.sum_reverse]

/-- The oldest grants that fit are kept, and the first that does not fit is revoked with all the newer ones. -/
theorem popNewest_revokes {c : Nat} {kept more : List Grant} {g : Grant} (fits : (kept.map (·.demand)).sum ≤ c)
    (full : c < ((kept ++ [g]).map (·.demand)).sum) :
    popNewest c (kept ++ g :: more).reverse [] = (kept.reverse, g :: more) := by
  have newest : (kept ++ g :: more).reverse = more.reverse ++ g :: kept.reverse := by simp
  have past : c < ((g :: kept.reverse).map (·.demand)).sum := by
    rw [List.map_cons, List.sum_cons, sum_demand_reverse]
    rw [List.map_append, List.sum_append] at full
    exact Nat.lt_of_lt_of_eq full (Nat.add_comm _ _)
  rw [newest, popNewest_over past, popNewest_fits (by rw [sum_demand_reverse]; exact fits)]
  simp

namespace State

variable (s : State) (p : PosId)

/-- The state with another cooling capacity. -/
def withCapacity (n : Nat) : State := { s with cbu := { s.cbu with capacity := n } }

/-! ### A report in which nothing is revoked -/

theorem takeCapacity_fits {n : Nat} (fits : s.granted ≤ n) :
    s.takeCapacity n = (s.withCapacity n).grantWaiters endNow := by
  have kept : popNewest n s.cbu.grants.reverse [] = (s.cbu.grants.reverse, []) :=
    popNewest_fits (by rw [sum_demand_reverse]; exact fits) []
  have none : (s.withCapacity n).revoke = s.withCapacity n := by
    unfold revoke
    rw [show popNewest (s.withCapacity n).cbu.capacity (s.withCapacity n).cbu.grants.reverse [] = _ from kept]
  exact congrArg (fun t : State => t.grantWaiters endNow) none

/-! ### Grants that are revoked -/

/-- A session whose grant is revoked (R89, step 4). -/
def revokedAs : Session :=
  { s.session p with
    cooling := .waiting
    factors := { (s.session p).factors with cooling := true }
    resumeTimer := none }

theorem coolingRevoked_eq : s.coolingRevoked p = s.becomes p (s.revokedAs p) := by
  unfold coolingRevoked
  rw [modSession_becomes, setFactor_eq, becomes_session, becomes_becomes]
  rfl

/-- The sessions of revoked grants are told, and nothing else changes. -/
theorem tellRevoked (l : List Grant) :
    (∀ q, (l.foldl (fun s g => s.coolingRevoked g.pos) s).session q
      = if q ∈ l.map (·.pos) then s.revokedAs q else s.session q)
    ∧ { l.foldl (fun s g => s.coolingRevoked g.pos) s with sessions := s.sessions } = s := by
  induction l generalizing s with
  | nil => exact ⟨fun q => (if_neg List.not_mem_nil).symm, rfl⟩
  | cons g l ih =>
    obtain ⟨told, rest⟩ := ih (s.coolingRevoked g.pos)
    have first : ∀ q, (s.coolingRevoked g.pos).session q = if q = g.pos then s.revokedAs q else s.session q := fun q => by
      rw [coolingRevoked_eq]
      by_cases e : q = g.pos
      · rw [if_pos e, e, becomes_session]
      · rw [if_neg e, becomes_session_ne _ e]
    refine ⟨fun q => ?_, ?_⟩
    · refine (told q).trans ?_
      unfold revokedAs
      rw [first q]
      unfold revokedAs
      by_cases e : q = g.pos <;> by_cases m : q ∈ l.map (·.pos) <;> simp [e, m]
    · refine (congrArg (fun t : State => { t with sessions := s.sessions }) rest).trans ?_
      rw [coolingRevoked_eq]
      rfl

/-- The grants kept, the revoked ones at the head of the wait queue, and COOLING DEMAND posted (R89, R97). -/
def withRevoked (kept revoked : List Grant) : State :=
  { s with
    cbu := { s.cbu with
      grants := kept
      queue := revoked.map (fun x => ⟨x.pos, x.demand, x.limit, x.limit⟩) ++ s.cbu.queue }
    outbox := s.outbox ++ [Notice.coolingDemand ((revoked.map Grant.demand).sum + s.waitingDemand)] }

section Revokes

variable {s} {n : Nat} {kept more : List Grant} {g : Grant} (grants : s.cbu.grants = kept ++ g :: more)
  (fits : (kept.map Grant.demand).sum ≤ n) (full : n < ((kept ++ [g]).map Grant.demand).sum)

include grants fits full

theorem takeCapacity_revokes : s.takeCapacity n =
    ((g :: more).foldl (fun s g => if g.limit = 0 then s.coolingWaitRunsOut g.pos else s)
      ((g :: more).foldl (fun s g => s.coolingRevoked g.pos)
        ((s.withCapacity n).withRevoked kept (g :: more)))).grantWaiters endNow := by
  have pops : popNewest (s.withCapacity n).cbu.capacity (s.withCapacity n).cbu.grants.reverse []
      = (kept.reverse, g :: more) := by
    show popNewest n s.cbu.grants.reverse [] = _
    rw [grants]
    exact popNewest_revokes fits full
  have queued : ((s.withCapacity n).modCbu fun c => { c with grants := kept.reverse.reverse }).setCoolingQueue
      ((g :: more).map (fun g => ⟨g.pos, g.demand, g.limit, g.limit⟩) ++ s.cbu.queue)
        = (s.withCapacity n).withRevoked kept (g :: more) := by
    have total : (((g :: more).map fun x => (⟨x.pos, x.demand, x.limit, x.limit⟩ : Waiter)) ++ s.cbu.queue).map
        (·.demand) = (g :: more).map Grant.demand ++ s.cbu.queue.map (·.demand) := by
      rw [List.map_append, List.map_map]
      rfl
    rw [setCoolingQueue_eq, total, List.sum_append, List.reverse_reverse]
    rfl
  have revoke : (s.withCapacity n).revoke
      = (g :: more).foldl (fun s g => if g.limit = 0 then s.coolingWaitRunsOut g.pos else s)
        ((g :: more).foldl (fun s g => s.coolingRevoked g.pos)
          ((s.withCapacity n).withRevoked kept (g :: more))) := by
    unfold revoke
    rw [pops, ← queued]
    rfl
  exact congrArg (fun t : State => t.grantWaiters endNow) revoke

end Revokes

variable {s} in
/-- The first that is revoked stands at the head, and does not fit. -/
theorem withRevoked_stuck {n : Nat} {kept more : List Grant} {g : Grant}
    (full : n < ((kept ++ [g]).map Grant.demand).sum) : ((s.withCapacity n).withRevoked kept (g :: more)).Stuck := by
  intro w rest e
  obtain ⟨rfl, _⟩ := List.cons.inj e
  rw [List.map_append, List.sum_append] at full
  exact full

/-! ### Waiters granted from the head -/

/-- A session that is told that its cooling is granted, neither in OPENING nor leaving HELD (R90, R139). -/
def toldAs : Session :=
  s.afterClear { s.session p with cooling := .granted } { (s.session p).factors with cooling := false }

/-- A position's session neither is in OPENING nor leaves HELD when its cooling is granted. -/
def TellStays : Prop :=
  (s.session p).state ≠ .opening ∧ s.ClearStays (s.session p) { (s.session p).factors with cooling := false }

variable {s p} in
theorem coolingGranted_stays (endK : Ender) (h : s.TellStays p) : s.coolingGranted endK p = s.becomes p (s.toldAs p) := by
  have here : (s.becomes p { s.session p with cooling := .granted }).session p
      = { s.session p with cooling := .granted } := becomes_session _ _ _
  have told : s.coolingGranted endK p
      = (s.becomes p { s.session p with cooling := .granted }).clearFactor endK p .cooling := by
    refine if_neg fun e => h.1 ?_
    rw [modSession_becomes, here] at e
    exact e
  have stays : (s.becomes p { s.session p with cooling := .granted }).ClearStays
      ((s.becomes p { s.session p with cooling := .granted }).session p)
      (((s.becomes p { s.session p with cooling := .granted }).session p).factors.put .cooling false) := by
    rw [here]
    exact h.2
  rw [told, clearFactor_eq _ _ _ _ stays, here, becomes_becomes]
  rfl

theorem grantFromHead_none {endK : Ender} (n : Nat) (h : s.Stuck) : grantFromHead endK n s = s := by
  cases n with
  | zero => rfl
  | succ n =>
    unfold grantFromHead
    split
    · rfl
    · rename_i w rest e
      exact if_pos (h w rest e)

/-- Waiters at the front of the cooling wait queue are granted (R90, R97): each takes the newest place in the grant list,
and each session is told. -/
structure GrantsFront (s : State) (front rest : List Waiter) (u : State) : Prop where
  cbu : u.cbu =
    { s.cbu with grants := s.cbu.grants ++ front.map (fun w => ⟨w.pos, w.demand, w.limit⟩), queue := rest }
  idle : front = [] → u.outbox = s.outbox
  last : front ≠ [] → u.outbox.getLast? = some (.coolingDemand (rest.map Waiter.demand).sum)
  posts : ∀ i ∈ u.outbox, i ∈ s.outbox ∨ i.key = (Notice.coolingDemand 0).key
  sessions : ∀ p, u.session p = if p ∈ front.map Waiter.pos then s.toldAs p else s.session p
  rest : { u with cbu := s.cbu, outbox := s.outbox, sessions := s.sessions } = s

theorem grantFromHead_front {rest : List Waiter} (front : List Waiter) : ∀ (n : Nat) (s : State),
    s.cbu.queue = front ++ rest → s.granted + (front.map Waiter.demand).sum ≤ s.cbu.capacity →
    HeadWaits s.cbu.capacity (s.granted + (front.map Waiter.demand).sum) rest → (front.map Waiter.pos).Nodup →
    (∀ w ∈ front, s.TellStays w.pos) → front.length ≤ n → GrantsFront s front rest (grantFromHead endNow n s) := by
  induction front with
  | nil =>
    intro n s queue _ waits _ _ _
    have stuck : s.Stuck := by
      unfold Stuck
      rw [queue]
      exact waits
    rw [grantFromHead_none s n stuck]
    refine ⟨?_, fun _ => rfl, fun e => (e rfl).elim, fun i m => .inl m, fun p => (if_neg List.not_mem_nil).symm, rfl⟩
    show s.cbu = { s.cbu with grants := s.cbu.grants ++ [], queue := rest }
    rw [List.append_nil, ← show s.cbu.queue = rest from queue]
  | cons w front ih =>
    intro n s queue fits waits once stays enough
    obtain ⟨n, rfl⟩ : ∃ m, n = m + 1 := ⟨n - 1, by simp at enough; omega⟩
    rw [List.map_cons, List.sum_cons] at fits waits
    rw [List.map_cons, List.nodup_cons] at once
    have step : grantFromHead endNow (n + 1) s
        = grantFromHead endNow n ((s.grantHead w (front ++ rest)).coolingGranted endNow w.pos) := by
      conv_lhs => unfold grantFromHead
      rw [queue]
      exact if_neg (by omega)
    have told : (s.grantHead w (front ++ rest)).coolingGranted endNow w.pos
        = (s.grantHead w (front ++ rest)).becomes w.pos (s.toldAs w.pos) :=
      coolingGranted_stays (s := s.grantHead w (front ++ rest)) endNow (stays w List.mem_cons_self)
    rw [step, told]
    let t := (s.grantHead w (front ++ rest)).becomes w.pos (s.toldAs w.pos)
    have other : ∀ q, q ≠ w.pos → t.session q = s.session q := fun q ne => becomes_session_ne _ ne
    have granted : t.granted = s.granted + w.demand := by
      show ((s.cbu.grants ++ [(⟨w.pos, w.demand, w.limit⟩ : Grant)]).map (·.demand)).sum = _
      simp [State.granted]
    have apart : ∀ v ∈ front, v.pos ≠ w.pos := fun v m e => once.1 (e ▸ List.mem_map_of_mem m)
    have further := ih n t rfl (by rw [granted]; exact (Nat.add_assoc _ _ _).trans_le fits)
      (by rw [granted, Nat.add_assoc]; exact waits) once.2 (fun v m => by
        have k := stays v (List.mem_cons_of_mem w m)
        unfold TellStays ClearStays at *
        rw [other v.pos (apart v m)]
        exact k) (by simp at enough; omega)
    have outbox : t.outbox = s.outbox ++ [.coolingDemand ((front ++ rest).map Waiter.demand).sum] := rfl
    refine ⟨further.cbu.trans ?_, fun e => (nomatch e), fun _ => ?_, fun i m => ?_, fun q => ?_, ?_⟩
    · show { s.cbu with
          grants := (s.cbu.grants ++ [(⟨w.pos, w.demand, w.limit⟩ : Grant)])
            ++ front.map (fun w : Waiter => (⟨w.pos, w.demand, w.limit⟩ : Grant)), queue := rest } = _
      rw [List.append_assoc]
      rfl
    · by_cases e : front = []
      · rw [further.idle e, outbox, List.getLast?_concat, e]
        rfl
      · exact further.last e
    · rcases further.posts i m with k | k
      · rw [outbox, List.mem_append, List.mem_singleton] at k
        exact k.imp_right fun e => by rw [e]; rfl
      · exact .inr k
    · refine (further.sessions q).trans ?_
      by_cases e : q = w.pos
      · subst e
        rw [if_neg once.1]
        exact (becomes_session _ _ _).trans (if_pos List.mem_cons_self).symm
      · have same : t.toldAs q = s.toldAs q := by
          unfold toldAs
          rw [other q e]
          rfl
        rw [same, other q e, List.map_cons]
        simp [e]
    · exact congrArg (fun t : State => { t with cbu := s.cbu, outbox := s.outbox, sessions := s.sessions }) further.rest

/-! ### The report does not see the ports -/

theorem foldl_over {P : Ports} {α : Type} {f : State → α → State}
    (h : ∀ (s : State) a, f (s.onPorts P) a = (f s a).onPorts P) (l : List α) (s : State) :
    l.foldl f (s.onPorts P) = (l.foldl f s).onPorts P := by
  induction l generalizing s with
  | nil => rfl
  | cons a l ih => exact (congrArg (l.foldl f) (h s a)).trans (ih _)

theorem foldl_keeps {α : Type} {β : Sort*} {F : State → β} (f : State → α → State) (h : ∀ s a, F (f s a) = F s)
    (l : List α) (s : State) : F (l.foldl f s) = F s := by
  induction l generalizing s with
  | nil => rfl
  | cons a l ih => exact (ih _).trans (h s a)

theorem foldl_same {α : Type} {f : State → α → State} {l : List α} (h : ∀ a ∈ l, ∀ s, f s a = s) (s : State) :
    l.foldl f s = s := by
  induction l with
  | nil => rfl
  | cons a l ih =>
    rw [List.foldl_cons, h a List.mem_cons_self]
    exact ih fun b m => h b (List.mem_cons_of_mem a m)

theorem revoke_over {P : Ports} : (s.onPorts P).revoke = s.revoke.onPorts P := by
  unfold revoke
  show (match popNewest s.cbu.capacity s.cbu.grants.reverse [] with | (_, []) => s.onPorts P | (kept, g :: more) => _) = _
  obtain ⟨kept, revoked⟩ := popNewest s.cbu.capacity s.cbu.grants.reverse []
  cases revoked with
  | nil => rfl
  | cons g more =>
    dsimp only
    rw [← foldl_over (P := P) fun s (g : Grant) => over_ite (coolingWaitRunsOut_over s g.pos) rfl]
    refine congrArg (List.foldl _ · _) ?_
    exact foldl_over (f := fun (s : State) (g : Grant) => s.coolingRevoked g.pos) (fun _ _ => rfl) _
      ((s.modCbu fun c => { c with grants := kept.reverse }).setCoolingQueue
        ((g :: more).map (fun g => ⟨g.pos, g.demand, g.limit, g.limit⟩) ++ s.cbu.queue))

theorem revoke_ports : s.revoke.ports = s.ports := by
  unfold revoke
  split
  · rfl
  · refine (foldl_keeps _ (fun s (g : Grant) => ?_) _ _).trans
      (foldl_keeps (fun s (g : Grant) => s.coolingRevoked g.pos) (fun _ _ => rfl) _ _)
    split
    · exact coolingWaitRunsOut_ports s g.pos
    · rfl

theorem revoke_capacity : s.revoke.cbu.capacity = s.cbu.capacity := by
  unfold revoke
  split
  · rfl
  · refine (foldl_keeps (F := fun s => s.cbu.capacity) _ (fun s (g : Grant) => ?_) _ _).trans
      (foldl_keeps (F := fun s => s.cbu.capacity) (fun s (g : Grant) => s.coolingRevoked g.pos) (fun _ _ => rfl) _ _)
    split
    · exact coolingWaitRunsOut_capacity s g.pos
    · rfl

theorem takeCapacity_capacity (n : Nat) : (s.takeCapacity n).cbu.capacity = n :=
  ((grantWaiters_steady endNow_steady _).capacity).trans (revoke_capacity (s.withCapacity n))

/-- The capacity held before the report is forgotten, so that the grants may be taken to have been within it. -/
theorem takeCapacity_within (n : Nat) : WithinCapacity (s.takeCapacity n) :=
  (takeCapacity_kept (s.withCapacity s.granted) n).within (le_refl _)

theorem taking_takeCapacity (f : Frame) (n : Nat) : (s.taking f).takeCapacity n = (s.takeCapacity n).taking f := by
  have blind : (s.taking f).takeCapacity n = (s.takeCapacity n).onPorts (s.taking f).ports :=
    (congrArg (fun t : State => t.grantWaiters endNow) (revoke_over (s.withCapacity n))).trans
      (grantWaiters_over (endNow_over _) _)
  have same : (s.takeCapacity n).ports = s.ports :=
    ((grantWaiters_steady endNow_steady _).ports).trans (revoke_ports _)
  rw [blind]
  unfold taking modPort onPorts
  rw [same]

end State

/-- Settles O46: a report does not see the ports, so that it is the report at the state before the request
(`State.taking_takeCapacity`); nothing is revoked where the grants fit (`State.takeCapacity_fits`), and otherwise the newest
(`popNewest_revokes`); waiters are granted by induction over those that fit (`State.grantFromHead_front`). -/
theorem coolingCapacityIsKept : Obligations.CoolingCapacityIsKept := by
  intro tag capacity s k answers n total asked granted
  have handled : ∀ {t : State} {c : Code}, coolingCapacityRequest n (s.taking (coolingCapacityFrame tag capacity))
      = (t.taking (coolingCapacityFrame tag capacity), ⟨c, []⟩) → answers t c := fun e =>
    exec_answers_of_wireForm (Laws.WireForm.coolingCapacity tag capacity) rfl rfl k e
  have taken : n ≤ 50000 → answers (s.takeCapacity n) .ok := fun m => handled
    ((if_neg (Nat.not_lt.mpr m)).trans (congrArg (·, (⟨.ok, []⟩ : Reply)) (s.taking_takeCapacity _ n)))
  have fitting : s.granted ≤ n → s.takeCapacity n = (s.withCapacity n).grantWaiters endNow := s.takeCapacity_fits
  refine ⟨fun m => handled (if_pos m), fun m => ?_, fun m fits => ?_, fun front rest m queue fits waits once stays => ?_,
    fun w rest m queue fits waits => ?_, fun kept g more m grants fits full => ?_⟩
  · exact ⟨_, taken m, s.takeCapacity_capacity n, (s.takeCapacity_within n).trans_eq (s.takeCapacity_capacity n)⟩
  · refine ⟨_, taken m, ?_⟩
    rw [fitting fits]
    exact (State.grantWaiters_steady endNow_steady (s.withCapacity n)).undisturbed
  · refine ⟨_, taken m, ?_⟩
    rw [fitting (le_trans (Nat.le_add_right _ _) fits)]
    have nodup : (front.map Waiter.pos).Nodup := by
      have all := (List.nodup_append.mp once).2.1
      rw [queue, List.map_append] at all
      exact (List.nodup_append.mp all).1
    have g := State.grantFromHead_front front s.cbu.queue.length (s.withCapacity n) queue fits waits nodup stays
      (by rw [queue]; simp)
    refine ⟨g.cbu, fun e => (g.idle e).trans k.quiet, g.last, fun i j => (g.posts i j).resolve_left fun e => ?_, g.sessions, ?_⟩
    · rw [show (s.withCapacity n).outbox = [] from k.quiet] at e
      exact nomatch e
    · exact congrArg (fun t : State => { t with cbu := s.cbu }) g.rest
  · refine (State.grantWaiters_grantsHead (s := s.withCapacity n) queue fits waits).imp fun u e => ?_
    rw [← e, ← fitting (le_trans (Nat.le_add_right _ _) fits)]
    exact taken m
  · intro t revoked
    have moved : (s.withCapacity n).withRevoked kept (g :: more) = t := by
      unfold State.withRevoked State.withCapacity
      rw [show s.outbox = [] from k.quiet]
      rfl
    have stuck : t.Stuck := moved ▸ State.withRevoked_stuck full
    have report := State.takeCapacity_revokes grants fits full
    rw [moved] at report
    obtain ⟨told, still⟩ := State.tellRevoked t (g :: more)
    refine ⟨fun limits => ⟨_, taken m, ?_⟩, fun e zero => ?_⟩
    · have waits : s.takeCapacity n = (g :: more).foldl (fun s g => s.coolingRevoked g.pos) t := by
        rw [report, State.foldl_same fun x mem u => if_neg (limits x mem)]
        refine State.grantWaiters_none ?_
        rw [← still] at stuck
        exact stuck
      rw [waits]
      exact ⟨told, still⟩
    · subst e
      have once : s.takeCapacity n
          = ((t.becomes g.pos (revoked g.pos)).coolingWaitRunsOut g.pos).grantWaiters endNow := by
        refine report.trans (congrArg (fun u : State => u.grantWaiters endNow) ?_)
        refine (if_pos zero).trans (congrArg (fun u : State => u.coolingWaitRunsOut g.pos) ?_)
        exact State.coolingRevoked_eq t g.pos
      refine ⟨_, event_of rfl rfl, fun waits => ?_⟩
      rw [← State.grantWaiters_none (endK := endNow) waits, ← once]
      exact taken m

end Sys2Proof.Machine
end

section
/-! SUPPORT. START (R119 to R122, R91). -/

namespace Sys2Proof.Machine

set_option Elab.async false

namespace State

variable {s : State} {p : PosId} {demand limit : Nat}

/-! ### The request for cooling -/

theorem requestCooling_fits (fits : demand = 0 ∨ s.cbu.queue = [] ∧ s.granted + demand ≤ s.cbu.capacity) :
    s.requestCooling p demand limit =
      ({ s with
        cbu :=
          if demand = 0 then s.cbu
          else { s.cbu with grants := s.cbu.grants ++ [(⟨p, demand, limit⟩ : Grant)] } }).coolingGranted endNow p := by
  unfold requestCooling
  by_cases zero : demand = 0
  · rw [if_pos zero, if_pos zero]
  · obtain ⟨empty, room⟩ := fits.resolve_left zero
    rw [if_neg zero, if_neg zero, if_pos ⟨List.isEmpty_iff.mpr empty, room⟩]
    rfl

theorem requestCooling_joins (full : ¬(demand = 0 ∨ s.cbu.queue = [] ∧ s.granted + demand ≤ s.cbu.capacity)) :
    s.requestCooling p demand limit = s.joinCooling p demand limit := by
  unfold requestCooling
  rw [if_neg fun e => full (.inl e), if_neg fun e => full (.inr ⟨List.isEmpty_iff.mp e.1, e.2⟩)]

/-- A position that has joined the tail of the cooling wait queue (R91 step 3, R97). -/
def joined (s : State) (p : PosId) (demand limit : Nat) : State :=
  (s.becomes p { s.session p with cooling := .waiting }).setCoolingQueue (s.cbu.queue ++ [⟨p, demand, limit, limit⟩])

theorem joinCooling_waits (waits : (s.joined p demand limit).Stuck) :
    s.joinCooling p demand limit
      = if limit = 0 then (s.joined p demand limit).coolingWaitRunsOut p else s.joined p demand limit :=
  congrArg (fun t : State => if limit = 0 then t.coolingWaitRunsOut p else t) (grantWaiters_none waits)

theorem requestCooling_over {P : Ports} (s : State) :
    (s.onPorts P).requestCooling p demand limit = (s.requestCooling p demand limit).onPorts P := by
  refine over_ite (coolingGranted_over (endNow_over P) s p)
    (over_ite (coolingGranted_over (endNow_over P) (s.addGrant p demand limit) p) ?_)
  have granted := grantWaiters_over (endNow_over P) (s.joined p demand limit)
  have at_once := (congrArg (fun t : State => t.coolingWaitRunsOut p) granted).trans (coolingWaitRunsOut_over _ p)
  exact over_ite at_once granted

theorem requestCooling_ports (s : State) : (s.requestCooling p demand limit).ports = s.ports := by
  have told : ∀ t : State, (t.coolingGranted endNow p).ports = t.ports := fun t =>
    (coolingGranted_steady endNow_steady t p).ports
  have granted : ((s.joined p demand limit).grantWaiters endNow).ports = s.ports :=
    (grantWaiters_steady endNow_steady _).ports
  unfold requestCooling
  split
  · exact told s
  · split
    · exact told (s.addGrant p demand limit)
    · unfold joinCooling
      dsimp only
      split
      · exact (coolingWaitRunsOut_ports _ _).trans granted
      · exact granted

/-! ### The session opened -/

variable (s p) in
/-- The session record with which a START opens (R121, R45, R117). -/
def opensAs (a : Authorization) (c : FuelClass) (k : Nat) : Session :=
  { Session.idle with
    state := .opening
    auth := some a
    fuelClass := some c
    refDensity := some (s.config.param (if c = .h70 then 0 else 1))
    siteMaxMass := some (s.config.param (if c = .h70 then 4 else 5))
    cascade := (if c = .h70 then s.config.cascadeH70 else s.config.cascadeH35).getD []
    profileAtStart := some k
    profile := some k
    precoolAtStart := some (precoolOfProfile k)
    comm := some (if (s.monitor p).record = .valid then .comm else .nonComm)
    startTime := some s.site.siteTime
    flags := { SessionFlags.none with nonComm := decide ((s.monitor p).record ≠ .valid) } }

theorem opened_eq (a : Authorization) (c : FuelClass) (k : Nat) : s.opened p a c k = s.opensAs p a c k := by
  have density : s.config.refDensity c = s.config.param (if c = .h70 then 0 else 1) := by cases c <;> rfl
  have mass : s.config.siteMaxMass c = s.config.param (if c = .h70 then 4 else 5) := by cases c <;> rfl
  have cascade : s.config.cascade c = (if c = .h70 then s.config.cascadeH70 else s.config.cascadeH35).getD [] := by
    cases c <;> rfl
  have flag : ((if (s.monitor p).record = .valid then CommFlag.comm else CommFlag.nonComm) == .nonComm)
      = decide ((s.monitor p).record ≠ .valid) := by
    by_cases v : (s.monitor p).record = .valid <;> simp [v]
  unfold opened opensAs
  dsimp only
  rw [density, mass, cascade, flag]

/-- The state in which the authorization is consumed and the session shown in OPENING (R121, R118). -/
def opens (s : State) (p : PosId) (a : Authorization) (c : FuelClass) (k : Nat) : State :=
  ({ s with
    sales := { s.sales with slots := s.sales.slots.set p none }
    outbox := s.outbox ++ [Notice.authorizationConsumed p a.reference] }).shows p (s.opensAs p a c k)

theorem openSession_eq (a : Authorization) (c : FuelClass) (k : Nat) : s.openSession p a c k =
    (s.opens p a c k).requestCooling p (s.config.profile k).coolingDemand (s.config.profile k).coolingWaitLimit := by
  have shown : ((s.consume p a).modSession p fun _ => s.opened p a c k).postSession p = s.opens p a c k := by
    rw [opened_eq, modSession_becomes]
    exact becomes_post _ _ _
  unfold openSession
  dsimp only
  rw [shown]
  rfl

theorem taking_openSession (f : Frame) (a : Authorization) (c : FuelClass) (k : Nat) :
    (s.taking f).openSession p a c k = (s.openSession p a c k).taking f := by
  have blind := requestCooling_over (P := (s.taking f).ports) (p := p) (demand := (s.config.profile k).coolingDemand)
    (limit := (s.config.profile k).coolingWaitLimit) (s.opens p a c k)
  rw [openSession_eq, openSession_eq]
  refine blind.trans ?_
  unfold taking modPort onPorts
  rw [requestCooling_ports]
  rfl

/-! ### The conditions of a START -/

theorem recordRoom_iff : s.recordRoom = true ↔
    s.sales.records.length + s.openPositions.length < 64 ∧ s.sales.counter ≠ 0
      ∧ s.sales.counter + s.openPositions.length ≤ 4294967295 := by
  unfold recordRoom Config.maxWord
  simp only [Bool.and_eq_true, decide_eq_true_eq, bne_iff_ne]
  omega

/-- The conditions of R119 in their order, of which each is tested once those before it hold. -/
theorem startRefusal_mode (m : s.site.mode ≠ .serving) : s.startRefusal p = some .wrongState := if_pos m

section Serving

variable (serving : s.site.mode = .serving)

include serving

theorem startRefusal_closed (e : (s.session p).state = .ended ∨ (s.session p).state = .closing) :
    s.startRefusal p = some .busy := (if_neg (not_not.mpr serving)).trans (if_pos e)

theorem startRefusal_running (run : (s.session p).running = true) : s.startRefusal p = some .wrongState := by
  have state : ∀ {st}, (s.session p).state = st → st = .idle ∨ st = .ended ∨ st = .closing → False := fun e k => by
    unfold Session.running at run
    rcases k with k | k | k <;> rw [e, k] at run <;> exact Bool.noConfusion run
  refine (if_neg (not_not.mpr serving)).trans ((if_neg fun e => ?_).trans (if_pos fun e => state e (.inl rfl)))
  exact e.elim (fun e => state e (.inr (.inl rfl))) fun e => state e (.inr (.inr rfl))

variable (idle : (s.session p).state = .idle)

include idle

theorem startRefusal_idle_eq : s.startRefusal p =
    if !s.config.enabled p then some .notPermitted
    else if (s.monitor p).nozzle ≠ .connected then some .wrongState
    else if (s.sales.slots.get p).isNone then some .noAuthorization
    else if !s.recordRoom then some .recordsFull
    else none := by
  unfold startRefusal
  rw [if_neg (not_not.mpr serving), idle]
  rfl

end Serving

/-- A START that nothing refuses before its profile is looked for. -/
structure MayStart (s : State) (p : PosId) (a : ArmedAuthorization) (c : FuelClass) : Prop where
  admitted : s.startRefusal p = none
  armed : s.sales.slots.get p = some a
  cls : s.config.positionClass p = some c

end State

theorem startRequest_refused {s : State} {p : PosId} {r : Code} (h : s.startRefusal p = some r) :
    startRequest p s = refuse r s := by
  unfold startRequest
  rw [h]

section Admitted

variable {s : State} {p : PosId} {a : ArmedAuthorization} {c : FuelClass} (h : s.MayStart p a c)

include h

theorem startRequest_noProfile (none : s.selectProfile c = none) : startRequest p s = refuse .notPermitted s := by
  unfold startRequest
  rw [h.admitted, h.cls, h.armed]
  dsimp only
  rw [none]

theorem startRequest_profile {k : Nat} (found : s.selectProfile c = some k) : startRequest p s =
    if (s.config.profile k).vehicleDataMandatory = true ∧ (s.monitor p).record ≠ .valid then refuse .notPermitted s
    else doneWith ((s.openSession p a.auth c k).startBody p a.auth.reference k) (s.openSession p a.auth c k) := by
  unfold startRequest
  rw [h.admitted, h.cls, h.armed]
  dsimp only
  rw [found]

end Admitted

/-- Settles O51: the conditions are tested in their order (`State.startRefusal_idle_eq` and the lemmas before it); the
session opened does not depend on the ports (`State.taking_openSession`), and requests cooling
(`State.requestCooling_fits`, `State.requestCooling_joins`). -/
theorem startOpensASession : Obligations.StartOpensASession := by
  intro p tag s k refuses state m opened room
  have handled : ∀ {t : State} {c : Code} {body : List Byte}, startRequest p (s.taking (startFrame p tag))
      = (t.taking (startFrame p tag), ⟨c, body⟩) → exec (.start p tag) s = .next (t.answered (startFrame p tag) c body) :=
    fun e => exec_answers_of_wireForm (Laws.WireForm.start p tag) rfl rfl k e
  have refused : ∀ {c : Code}, s.startRefusal p = some c → refuses c := fun e => handled (startRequest_refused e)
  have entered : s.site.mode = .serving → state = .idle → s.config.enabled p = true → s.startRefusal p = _ :=
    fun serving idle on => (State.startRefusal_idle_eq serving idle).trans (if_neg (by rw [on]; exact Bool.false_ne_true))
  have ready : ∀ {a}, s.site.mode = .serving → state = .idle → s.config.enabled p = true → m.nozzle = .connected →
      s.sales.slots.get p = some a → s.startRefusal p = _ := fun serving idle on here armed =>
    (entered serving idle on).trans ((if_neg (not_not.mpr here)).trans
      (if_neg (by rw [armed]; exact Bool.false_ne_true)))
  have admitted : ∀ {a c}, s.site.mode = .serving → state = .idle → s.config.enabled p = true → m.nozzle = .connected →
      s.sales.slots.get p = some a → s.config.positionClass p = some c → room → (s.taking (startFrame p tag)).MayStart p a c :=
    fun serving idle on here armed cls space => ⟨(ready serving idle on here armed).trans (if_neg (by
      rw [State.recordRoom_iff.mpr space]; exact Bool.false_ne_true)), armed, cls⟩
  refine ⟨fun mode => refused (State.startRefusal_mode mode), fun serving => ⟨fun closed => ?_, fun run => ?_, fun idle off => ?_,
    fun idle on => ⟨fun apart => ?_, fun here unarmed => ?_, fun a c here armed cls => ⟨fun full => ?_, fun some_room none => ?_,
      fun k some_room found => ?_⟩⟩⟩⟩
  · exact refused (State.startRefusal_closed serving closed)
  · exact refused (State.startRefusal_running serving run)
  · exact refused ((State.startRefusal_idle_eq serving idle).trans (if_pos (by rw [off]; rfl)))
  · exact refused ((entered serving idle on).trans (if_pos apart))
  · exact refused ((entered serving idle on).trans ((if_neg (not_not.mpr here)).trans (if_pos (by rw [unarmed]; rfl))))
  · have full : (!s.recordRoom) = true := by
      rw [Bool.not_eq_true', ← Bool.not_eq_true]
      exact State.recordRoom_iff.not.mpr full
    exact refused ((ready serving idle on here armed).trans (if_pos full))
  · exact handled (startRequest_noProfile (admitted serving idle on here armed cls some_room) none)
  · intro f
    have profile := startRequest_profile (admitted serving idle on here armed cls some_room) found
    refine ⟨fun mandatory away => handled (profile.trans (if_pos ⟨mandatory, away⟩)), fun supplied => ?_⟩
    intro taken x t demand limit fits queue waiting
    have opens : taken (s.openSession p a.auth c k) := by
      refine handled ((profile.trans (if_neg fun e => ?_)).trans ?_)
      · rcases supplied with off | valid
        · exact Bool.noConfusion (off.symm.trans e.1)
        · exact e.2 valid
      · rw [State.taking_openSession]
        rfl
    rw [State.openSession_eq] at opens
    have opens : taken (t.requestCooling p demand limit) := opens
    have joined : t.joined p demand limit = waiting := by
      unfold State.joined
      rw [show t.session p = x from State.shows_session _ _ _]
      rfl
    have joins : ¬fits → HeadWaits s.cbu.capacity s.granted queue →
        t.requestCooling p demand limit = if limit = 0 then waiting.coolingWaitRunsOut p else waiting := fun full waits => by
      rw [State.requestCooling_joins (s := t) full, State.joinCooling_waits (by rw [joined]; exact waits), joined]
    refine ⟨fun full long waits => ?_, fun full zero waits => ⟨_, event_of rfl rfl, ?_⟩, fun room => ?_⟩
    · rw [joins full waits, if_neg long] at opens
      exact opens
    · rw [joins full waits, if_pos zero] at opens
      exact opens
    · rw [State.requestCooling_fits (s := t) room] at opens
      refine Cooled.imp (fun u e => ?_) State.coolingGranted_cooled
      rw [← e]
      exact opens

end Sys2Proof.Machine
end

section
/-! SUPPORT. A hold factor that is not set stays so through the claims, grants, holds and ends of an event: of these only a
claim with STALE data sets a factor, which is BANK (R125, R139). -/

namespace Sys2Proof.Machine

set_option Elab.async false

/-- A hold factor that a session does not have, it does not come to have. -/
def Unset (f : Factor) (s t : State) : Prop :=
  ∀ p, (s.session p).factors.has f = false → (t.session p).factors.has f = false

namespace Unset

variable {f : Factor} {s t u : State}

theorem refl (s : State) : Unset f s s := fun _ => id

theorem trans (h : Unset f s t) (k : Unset f t u) : Unset f s u := fun p => k p ∘ h p

theorem ite {c : Prop} [Decidable c] (h : c → Unset f s t) (k : ¬c → Unset f s u) : Unset f s (if c then t else u) := by
  split
  · exact h ‹_›
  · exact k ‹_›

/-- What leaves the session records as they are. -/
theorem same (h : t.sessions = s.sessions) : Unset f s t := fun p k => by
  unfold State.session
  rwa [h]

theorem bank {b : BankId} {g : Bank → Bank} (k : Unset f s t) : Unset f s (t.modBank b g) := k

theorem bm {g : BankManager → BankManager} (k : Unset f s t) : Unset f s (t.modBm g) := k

theorem monitor {p : PosId} {g : Monitor → Monitor} (k : Unset f s t) : Unset f s (t.modMonitor p g) := k

theorem cbu {g : CoolingUnit → CoolingUnit} (k : Unset f s t) : Unset f s (t.modCbu g) := k

theorem sales {g : SalesUnit → SalesUnit} (k : Unset f s t) : Unset f s (t.modSales g) := k

theorem posted {n : Notice} (k : Unset f s t) : Unset f s (t.post n) := k

theorem shown {p : PosId} (k : Unset f s t) : Unset f s (t.postSession p) := k

/-- What changes one session record. -/
theorem session {p : PosId} {g : Session → Session} (k : Unset f s t)
    (h : ∀ x : Session, x.factors.has f = false → (g x).factors.has f = false := by exact fun _ => id) :
    Unset f s (t.modSession p g) := k.trans fun q c => by
  rw [State.modSession_session]
  split
  · rename_i e
    exact h _ (e ▸ c)
  · exact c

end Unset

theorem Factors.has_put (y : Factors) (f g : Factor) (b : Bool) : (y.put g b).has f = if f = g then b else y.has f := by
  cases f <;> cases g <;> rfl

theorem Factors.has_put_unset {y : Factors} {f g : Factor} {b : Bool} (h : y.has f = false) (k : b = false ∨ g ≠ f) :
    (y.put g b).has f = false := by
  rw [has_put]
  split
  · rename_i e
    exact k.resolve_right fun ne => ne e.symm
  · exact h

namespace State

section
variable {f : Factor} (s : State) (b : BankId) (p : PosId)

/-! ### Phases of a session -/

theorem snapshotClaim_unset : Unset f s (s.snapshotClaim b p) := (Unset.refl s).session

theorem snapshotRelease_unset : Unset f s (s.snapshotRelease b p) := (Unset.refl s).session

theorem setFactor_unset {g : Factor} (h : g ≠ f) : Unset f s (s.setFactor p g) :=
  (Unset.refl s).session fun _ k => Factors.has_put_unset k (.inr h)

theorem enterHeld_unset (r : Option Phase) : Unset f s (s.enterHeld p r) :=
  have held : Unset f s (s.modSession p fun x =>
      { x.quiet with
        state := .held
        resumePoint := r
        heldBefore := x.heldTime
        keepTimer := if x.bank.isSome then some s.config.bankKeepInterval else none }) :=
    (Unset.refl s).session
  held.shown

theorem capture_unset : Unset f s (s.capture p) := by
  unfold capture
  split
  · exact .refl s
  · exact (Unset.refl s).session

theorem enterDelivering_unset : Unset f s (s.enterDelivering p) := by
  have flows : Unset f s (s.modSession p fun x =>
      { x.quiet with
        state := .delivering, flowCeiling := s.rampCeiling p, segmentTimer := some (s.profileOf p).segmentLength }) :=
    (Unset.refl s).session
  exact flows.shown.trans (capture_unset _ _)

theorem connected_unset : Unset f s (s.connected p) := by
  have done : Unset f s (s.finishConnection p) := (Unset.refl s).session
  exact done.trans (.ite (fun _ => enterDelivering_unset _ _) fun _ => enterHeld_unset _ _ _)

theorem beginLeakCheck_unset : Unset f s (s.beginLeakCheck p) :=
  (Unset.refl s).session

theorem endConnect_unset : Unset f s (s.endConnect p) :=
  .ite (fun _ => beginLeakCheck_unset _ _) fun _ => enterHeld_unset _ _ _

theorem beginConnect_unset : Unset f s (s.beginConnect p) :=
  (Unset.refl s).session.trans (.ite (fun _ => endConnect_unset _ _) fun _ => .refl _)

theorem beginSettle_unset : Unset f s (s.beginSettle p) :=
  (Unset.refl s).session.trans
    (.ite (fun _ => connected_unset _ _) fun _ => .refl _)

theorem enterClaim_unset : Unset f s (s.enterClaim p) :=
  (Unset.refl s).session

theorem endClaim_unset : Unset f s (s.endClaim p) :=
  .ite (fun _ => .ite (fun _ => beginSettle_unset _ _) fun _ => beginConnect_unset _ _) fun _ => enterHeld_unset _ _ _

end

section
variable {f : Factor} (hf : f ≠ .bank) (s : State) (b : BankId) (p : PosId)
include hf

theorem claimGranted_unset : Unset f s (s.claimGranted b p) := by
  have held : Unset f s ((s.snapshotClaim b p).modSession p fun x => x.holdBank b) := (snapshotClaim_unset s b p).session
  exact (held.trans (.ite (fun _ => setFactor_unset _ _ hf.symm) fun _ => .refl _)).trans (endClaim_unset _ _)

/-! ### Claims -/

theorem handOff_unset : Unset f s (s.handOff b) := by
  unfold handOff
  split
  · exact (Unset.refl s).bank
  · exact (Unset.refl s).bank.trans (claimGranted_unset hf _ _ _)

theorem handOn_unset : Unset f s (s.handOn b) :=
  (handOff_unset hf s b).trans (.ite (fun _ => .same (becameFree_sessions _ _)) fun _ => .refl _)

omit hf in
theorem forgetBank_unset : Unset f s (s.forgetBank p) := (Unset.refl s).session

theorem releaseClaim_unset : Unset f s (s.releaseClaim p) := by
  unfold releaseClaim
  split
  · exact .refl s
  · exact .ite (fun _ => ((snapshotRelease_unset s _ p).trans (forgetBank_unset _ p)).trans (handOn_unset hf _ _))
      fun _ => forgetBank_unset _ _

omit hf in
theorem settleYield_unset : Unset f s s.settleYield := by
  unfold settleYield
  split
  · exact .ite (fun _ => (Unset.refl s).bm) fun _ => .refl s
  · exact .refl s

omit hf in
theorem leaveQueue_unset : Unset f s (s.leaveQueue p) := by
  unfold leaveQueue
  split
  · exact .refl s
  · exact (Unset.refl s).bank.session.trans (settleYield_unset _)

theorem refillEnds_unset (r : RefillReason) : Unset f s (s.refillEnds b r) := by
  unfold refillEnds
  exact ((Unset.refl s).bm.trans (handOff_unset hf _ b)).posted.trans (.same (relist_sessions _ b))

theorem endRefill_unset (r : RefillReason) : Unset f s (s.endRefill b r) :=
  (refillEnds_unset hf s b r).trans (.ite (fun _ => .same (becameFree_sessions _ _)) fun _ => .refl _)

theorem claim_unset : Unset f s (s.claim b p) := by
  have h := Unset.same (f := f) (claimRequest_sessions s b p)
  unfold claim
  generalize s.claimRequest b p = r at h
  obtain ⟨t, a⟩ := r
  cases a with
  | refused => exact h
  | granted => exact h.trans (claimGranted_unset hf _ _ _)
  | waits =>
    have waits : Unset f s (t.awaitBank b p) := h.session
    exact waits.trans (.ite (fun _ => endRefill_unset hf _ _ _) fun _ => .refl _)

end

end State

/-! ### The cascade of one event -/

/-- An ender that sets no factor but BANK. -/
def Ender.Unsets (endK : Ender) (f : Factor) : Prop := ∀ p r s, Unset f s (endK p r s)

namespace State

theorem newConnection_unset {f : Factor} (s : State) (p : PosId) (k : ConnKind) (a : Option Attempt) :
    Unset f s (s.newConnection p k a) := (Unset.refl s).session

section
variable {f : Factor} (hf : f ≠ .bank) {endK : Ender} (hE : endK.Unsets f)
include hf hE

theorem selectBank_unset (s : State) (p : PosId) : Unset f s (s.selectBank endK p) := by
  unfold selectBank
  refine .ite (fun _ => (Unset.refl s).session) fun _ => ?_
  split
  · exact claim_unset hf _ _ _
  · exact hE _ _ _

theorem claimAndSelect_unset (s : State) (p : PosId) : Unset f s (((s.enterClaim p).postSession p).selectBank endK p) :=
  (enterClaim_unset s p).shown.trans (selectBank_unset hf hE _ _)

theorem leaveOpening_unset (s : State) (p : PosId) : Unset f s (s.leaveOpening endK p) := by
  have begun : Unset f s ((s.newConnection p .first (some .first)).restartProgress p) :=
    (newConnection_unset s p _ _).monitor
  exact begun.trans (.ite (fun _ => claimAndSelect_unset hf hE _ _) fun _ => enterHeld_unset _ _ _)

theorem reconnect_unset (s : State) (p : PosId) : Unset f s (s.reconnect endK p) :=
  (newConnection_unset s p _ _).trans (claimAndSelect_unset hf hE _ _)

theorem resumeConnection_unset (s : State) (p : PosId) (g : Phase) :
    Unset f s (s.resumeConnection endK p g) := by
  have cleared : Unset f s (s.modSession p fun x => { x with resumePoint := none }) := (Unset.refl s).session
  have back := (cleared.trans (enterClaim_unset _ p)).shown (p := p)
  unfold resumeConnection
  cases g
  · exact back.trans (selectBank_unset hf hE _ _)
  · exact back.trans (beginConnect_unset _ _)
  · exact back.trans (beginLeakCheck_unset _ _)
  · exact back.trans (beginSettle_unset _ _)

theorem resume_unset (s : State) (p : PosId) : Unset f s (s.resume endK p) := by
  have left : Unset f s (s.modSession p fun x => x.leaveHold (s.profileOf p).holdLimit) := (Unset.refl s).session
  unfold resume
  refine left.trans ?_
  dsimp only
  split
  · exact resumeConnection_unset hf hE _ _ _
  · exact .ite (fun _ => enterDelivering_unset _ _) fun _ => reconnect_unset hf hE _ _

theorem clearFactor_unset (s : State) (p : PosId) (g : Factor) :
    Unset f s (s.clearFactor endK p g) := by
  have start : ∀ t : State, Unset f t (t.startResume endK p) := fun t =>
    .ite (fun _ => resume_unset hf hE _ _) fun _ => (Unset.refl t).session
  have put : Unset f s (s.modSession p fun x => { x with factors := x.factors.put g false }) :=
    (Unset.refl s).session fun x k => Factors.has_put_unset k (.inl rfl)
  exact .ite (fun _ => put.trans (.ite (fun _ => start _) fun _ => .refl _)) fun _ => .refl s

theorem coolingGranted_unset (s : State) (p : PosId) : Unset f s (s.coolingGranted endK p) := by
  have told : Unset f s (s.modSession p fun x => { x with cooling := .granted }) := (Unset.refl s).session
  exact told.trans (.ite (fun _ => leaveOpening_unset hf hE _ _) fun _ => clearFactor_unset hf hE _ _ _)

theorem grantFromHead_unset (n : Nat) (s : State) : Unset f s (grantFromHead endK n s) := by
  induction n generalizing s with
  | zero => exact .refl s
  | succ n ih =>
    unfold grantFromHead
    split
    · exact .refl s
    · rename_i w rest _
      have granted : Unset f s (s.grantHead w rest) := .same rfl
      exact .ite (fun _ => .refl s) fun _ => (granted.trans (coolingGranted_unset hf hE _ _)).trans (ih _)

theorem grantWaiters_unset (s : State) : Unset f s (s.grantWaiters endK) := grantFromHead_unset hf hE _ _

theorem leaveCooling_unset (s : State) (p : PosId) : Unset f s (s.leaveCooling endK p) := by
  unfold leaveCooling
  refine .ite (fun _ => ?_) fun _ => .ite (fun _ => ?_) fun _ => .refl s
  · exact (Unset.refl s).cbu.trans (grantWaiters_unset hf hE _)
  · exact (Unset.refl s).cbu.posted.trans (grantWaiters_unset hf hE _)

theorem endSteps_unset (s : State) (p : PosId) (r : EndReason) : Unset f s (s.endSteps endK p r) := by
  have marked : Unset f s (s.modSession p fun x => x.markEnded r s.site.siteTime (s.endingNozzle p)) :=
    (Unset.refl s).session
  unfold endSteps
  exact ((((marked.trans (releaseClaim_unset hf _ p)).trans (leaveQueue_unset _ p)).trans
    (leaveCooling_unset hf hE _ p)).session).shown

end

/-! ### Closing -/

variable {f : Factor} (s : State) (p : PosId)

theorem commit_unset : Unset f s (s.commit p) := by
  unfold commit
  have recorded : ∀ r, Unset f s ((s.modSales fun u =>
      { u with records := u.records ++ [r], counter := nextCounter u.counter }).postMismatch r) :=
    fun r => (Unset.refl s).sales.trans (.same (postMismatch_sessions _ r))
  exact ((recorded _).posted.session (g := fun _ => Session.idle)
    fun _ _ => by cases f <;> rfl).posted

theorem serveRegister_unset (n : Nat) (s : State) : Unset f s (serveRegister n s) := by
  induction n generalizing s with
  | zero => exact .refl s
  | succ n ih =>
    unfold serveRegister
    split
    · rename_i p rest _ _
      have taken : Unset f s (s.takeRegister p rest) :=
        ((Unset.refl s).sales (g := fun u => { u with closeQueue := rest, register := some p })).session
          (g := fun x => { x with state := .closing })
      have closed : Unset f (s.takeRegister p rest) ((s.takeRegister p rest).completeClosing p) :=
        (commit_unset _ p).sales
      exact taken.trans (.ite (fun _ => closed.trans (ih _)) fun _ => (Unset.refl _).sales)
    · exact .refl s

theorem serveCloseQueue_unset : Unset f s s.serveCloseQueue := serveRegister_unset _ _

theorem joinCloseQueue_unset : Unset f s (s.joinCloseQueue p) :=
  (Unset.refl s).sales.trans (serveCloseQueue_unset _)

end State

theorem endSession_unsets {f : Factor} (hf : f ≠ .bank) (n : Nat) : (endSession n).Unsets f := by
  induction n with
  | zero => exact fun _ _ s => .refl s
  | succ n ih =>
    intro p r s
    exact .ite (fun _ => (State.endSteps_unset hf ih s p r).trans (State.joinCloseQueue_unset _ _)) fun _ => .refl s

theorem endNow_unsets {f : Factor} (hf : f ≠ .bank) : endNow.Unsets f := endSession_unsets hf 4


end Sys2Proof.Machine
end

section
/-! SUPPORT. PROGRESS: the hold factors of a report, its end criteria, and its independence of the ports (R105, R133,
R136 to R139). -/

namespace Sys2Proof.Machine

set_option Elab.async false

namespace State

variable (s : State) (p : PosId)

/-! ### Factors that a report clears -/

section Clears

variable {s p} {y z : Factors} {goes : State → Prop}

theorem becomes_self : s.becomes p (s.session p) = s := by
  unfold becomes session
  rw [Quad.set_get]

/-- A session that stands on with the factors it has. -/
theorem clears_none (e : y = (s.session p).factors) (h : goes s) : Clears s p y goes := by
  subst e
  have same : s.afterClear (s.session p) (s.session p).factors = s.session p := by
    unfold afterClear
    rw [if_neg fun k => k.2.2 rfl]
  refine ⟨fun _ => ?_, fun leaves => ((not_clearStays leaves).2.2.1 rfl).elim⟩
  rw [same, becomes_self]
  exact h

/-- Factors cleared in two steps, of which the first does not end a hold. -/
theorem clears_after (stays : s.ClearStays (s.session p) y) (first : (s.session p).factors = Factors.none → y = Factors.none)
    (second : y = Factors.none → z = Factors.none)
    (h : Clears (s.becomes p (s.afterClear (s.session p) y)) p z goes) : Clears s p z goes := by
  have here : (s.becomes p (s.afterClear (s.session p) y)).session p = s.afterClear (s.session p) y := becomes_session _ _ _
  obtain ⟨stands, leaves⟩ := h
  rw [here] at stands leaves
  have timer : (s.afterClear (s.afterClear (s.session p) y) z).resumeTimer = (s.afterClear (s.session p) z).resumeTimer := by
    show (if (s.session p).state = .held ∧ z = Factors.none ∧ y ≠ z then some _ else (s.afterClear (s.session p) y).resumeTimer)
      = if (s.session p).state = .held ∧ z = Factors.none ∧ (s.session p).factors ≠ z then some _ else _
    unfold afterClear
    by_cases c : (s.session p).state = .held ∧ z = Factors.none ∧ (s.session p).factors ≠ z
    · rw [if_pos c]
      obtain ⟨held, none, ne⟩ := c
      by_cases e : y = z
      · rw [if_neg fun k => k.2.2 e, if_pos ⟨held, e.trans none, e ▸ ne⟩]
      · rw [if_pos ⟨held, none, e⟩]
        rfl
    · rw [if_neg c, if_neg fun k => c ⟨k.1, k.2.1, fun e => k.2.2 ((first (e.trans k.2.1)).trans k.2.1.symm)⟩,
        if_neg fun k => c ⟨k.1, second k.2.1, fun e => k.2.2 (e.trans ((second k.2.1).trans k.2.1.symm))⟩]
  have twice : s.afterClear (s.afterClear (s.session p) y) z = s.afterClear (s.session p) z :=
    congrArg (fun n => { s.session p with factors := z, resumeTimer := n }) timer
  refine ⟨fun k => ?_, fun k => ?_⟩
  · have t := stands fun held none ne => k held none fun e => ne ((first (e.trans none)).trans none.symm)
    rw [becomes_becomes] at t
    exact twice ▸ t
  · obtain ⟨held, none, ne, delay⟩ := not_clearStays k
    have some_left : y ≠ Factors.none := fun e => stays held e (fun c => ne (c.trans (e.trans none.symm))) delay
    have left := leaves fun k => k held none (fun e => some_left (e.trans none)) delay
    have unchanged : { s.afterClear (s.session p) y with factors := z } = { s.session p with factors := z } := by
      unfold afterClear
      rw [if_neg fun k => some_left k.2.1]
    rw [becomes_becomes, unchanged] at left
    exact left

end Clears

theorem isWarm_eq (x : Session) (t : Nat) : x.isWarm t = (warmLimit x.precool).any fun limit => decide (limit < t) := by
  unfold Session.isWarm
  cases warmLimit x.precool <;> rfl

/-- Whether a reported pressure is not above the ramp ceiling in force. -/
def withinRamp (pressure : Nat) : Bool := (s.rampCeiling p).any fun c => decide (clampPressure pressure ≤ c)

theorem clearOverRamp_eq (pressure : Nat) :
    s.clearOverRamp p pressure = if s.withinRamp p pressure then s.clearFactor endNow p .overRamp else s := by
  unfold clearOverRamp withinRamp
  cases s.rampCeiling p with
  | none => rfl
  | some c => simp

theorem clearOverRamp_clears (pressure : Nat) :
    Clears s p
      { (s.session p).factors with overRamp := (s.session p).factors.overRamp && !s.withinRamp p pressure }
      fun u => s.clearOverRamp p pressure = u := by
  rw [clearOverRamp_eq]
  cases s.withinRamp p pressure with
  | false =>
    rw [if_neg Bool.false_ne_true, Bool.not_false, Bool.and_true]
    exact clears_none rfl rfl
  | true =>
    rw [if_pos rfl, Bool.not_true, Bool.and_false]
    exact clearFactor_clears .overRamp

theorem clearGasWarm_clears (temperature : Nat) :
    Clears s p
      { (s.session p).factors with gasWarm := (s.session p).factors.gasWarm && (s.session p).isWarm temperature }
      fun u => s.clearGasWarm p temperature = u := by
  unfold clearGasWarm
  cases (s.session p).isWarm temperature with
  | true =>
    rw [if_pos rfl, Bool.and_true]
    exact clears_none rfl rfl
  | false =>
    rw [if_neg Bool.false_ne_true, Bool.and_false]
    exact clearFactor_clears .gasWarm

variable {s p} in
theorem clearGasWarm_unset {temperature : Nat} (h : (s.session p).factors.has .gasWarm = false) :
    s.clearGasWarm p temperature = s := by
  unfold clearGasWarm clearFactor
  rw [h]
  exact ite_self _

theorem clearOverRamp_unsets (pressure : Nat) : Unset .gasWarm s (s.clearOverRamp p pressure) := by
  have warm : Factor.gasWarm ≠ .bank := by decide
  rw [clearOverRamp_eq]
  exact .ite (fun _ => clearFactor_unset warm (endNow_unsets warm) s p .overRamp) fun _ => .refl s

/-- The factors that a report in CONNECTING or HELD leaves (R133, R139, R141). -/
def reportFactors (pressure temperature : Nat) : Factors :=
  { (s.session p).factors with
    overRamp := (s.session p).factors.overRamp && !s.withinRamp p pressure
    gasWarm := (s.session p).factors.gasWarm && (s.session p).isWarm temperature }

theorem report_clears (pressure temperature : Nat) :
    Clears s p (s.reportFactors p pressure temperature) fun u =>
      (s.clearOverRamp p pressure).clearGasWarm p temperature = u := by
  have first := clearOverRamp_clears s p pressure
  let y : Factors := { (s.session p).factors with overRamp := (s.session p).factors.overRamp && !s.withinRamp p pressure }
  by_cases stays : s.ClearStays (s.session p) y
  · have here : (s.becomes p (s.afterClear (s.session p) y)).session p = s.afterClear (s.session p) y :=
      becomes_session _ _ _
    have second := clearGasWarm_clears (s.becomes p (s.afterClear (s.session p) y)) p temperature
    rw [here] at second
    rw [first.stays stays]
    refine clears_after stays (fun e => ?_) (fun e => ?_) second
    · show ({ (s.session p).factors with overRamp := _ } : Factors) = _
      rw [e]
      rfl
    · show ({ y with gasWarm := y.gasWarm && _ } : Factors) = _
      rw [e]
      rfl
  · obtain ⟨held, none, ne, delay⟩ := not_clearStays stays
    have cool : (s.session p).factors.gasWarm = false := congrArg Factors.gasWarm none
    have same : s.reportFactors p pressure temperature = y := by
      unfold reportFactors
      rw [cool]
      exact congrArg (fun b => { y with gasWarm := b }) cool.symm
    rw [same]
    refine ⟨fun k => (stays k).elim, fun k => (first.leaves k).imp fun u e => ?_⟩
    exact (clearGasWarm_unset (clearOverRamp_unsets s p pressure p cool)).trans e

/-! ### A report in DELIVERING -/

/-- A session in FLOW with the ramp ceiling of this instant (R136, step 3). -/
def flowing : State := s.becomes p { s.session p with flowCeiling := s.rampCeiling p }

section

variable {p} (x y : Nat)

theorem deliveryReport_ends {r : EndReason} (e : (s.flowing p).endCriterion p = some r) :
    s.deliveryReport p x y = (s.flowing p).endWith p r := by
  unfold deliveryReport
  dsimp only
  rw [modSession_becomes, show s.becomes p _ = s.flowing p from rfl, e]

theorem deliveryReport_goesOn (e : (s.flowing p).endCriterion p = none) : s.deliveryReport p x y =
    ((s.flowing p).overRampCheck p x ((s.rampCeiling p).getD (s.session p).mawp)).gasWarmTest p y := by
  have mawp : ((s.flowing p).session p).mawp = (s.session p).mawp := by
    unfold flowing
    rw [becomes_session]
    rfl
  unfold deliveryReport
  dsimp only
  rw [modSession_becomes, show s.becomes p _ = s.flowing p from rfl, e, ← mawp]

end

/-! ### Reports do not see the ports -/

section Ports

variable {P : Ports}

theorem clearNow_over (f : Factor) : (s.onPorts P).clearFactor endNow p f = (s.clearFactor endNow p f).onPorts P :=
  clearFactor_over (endNow_over P) s p f

theorem clearOverRamp_over (x : Nat) : (s.onPorts P).clearOverRamp p x = (s.clearOverRamp p x).onPorts P := by
  rw [clearOverRamp_eq, clearOverRamp_eq]
  exact over_ite (clearNow_over s p .overRamp) rfl

theorem clearGasWarm_over (x : Nat) : (s.onPorts P).clearGasWarm p x = (s.clearGasWarm p x).onPorts P :=
  over_ite rfl (clearNow_over s p .gasWarm)

theorem report_over (x y : Nat) : ((s.onPorts P).clearOverRamp p x).clearGasWarm p y
    = ((s.clearOverRamp p x).clearGasWarm p y).onPorts P := by
  rw [clearOverRamp_over]
  exact clearGasWarm_over _ p y

theorem gasWarmTest_over (x : Nat) : (s.onPorts P).gasWarmTest p x = (s.gasWarmTest p x).onPorts P :=
  over_ite (over_ite rfl (over_ite rfl rfl)) (clearGasWarm_over (s.modSession p fun x => { x with warmTimer := none }) p x)

theorem deliveryReport_over (x y : Nat) : (s.onPorts P).deliveryReport p x y = (s.deliveryReport p x y).onPorts P := by
  cases e : (s.flowing p).endCriterion p with
  | some r =>
    rw [deliveryReport_ends s x y e, deliveryReport_ends (s.onPorts P) x y e]
    exact endWith_over (s.flowing p) p r
  | none =>
    have checked : ∀ c, ((s.flowing p).onPorts P).overRampCheck p x c = ((s.flowing p).overRampCheck p x c).onPorts P :=
      fun c => over_ite rfl (clearOverRamp_over (s.flowing p) p x)
    rw [deliveryReport_goesOn s x y e, deliveryReport_goesOn (s.onPorts P) x y e]
    exact (congrArg (fun t : State => t.gasWarmTest p y) (checked _)).trans (gasWarmTest_over _ p y)

theorem takeReport_over (x y m : Nat) : (s.onPorts P).takeReport p x y m = (s.takeReport p x y m).onPorts P := by
  have ends := endWith_over (P := P) (s.noteReport p x m) p .overPressure
  have clears := report_over (P := P) (s.noteReport p x m) p x y
  have delivers := deliveryReport_over (P := P) (s.noteReport p x m) p x y
  unfold takeReport
  rw [show ((s.onPorts P).session p).state = (s.session p).state from rfl]
  cases (s.session p).state with
  | idle => rfl
  | ended => rfl
  | closing => rfl
  | opening => exact over_ite ends rfl
  | connecting => exact over_ite ends clears
  | held => exact over_ite ends clears
  | delivering => exact over_ite ends delivers

end Ports

theorem takeReport_ports (x y m : Nat) : (s.takeReport p x y m).ports = s.ports := by
  have ends : ∀ (t : State) r, Steady t (t.endWith p r) := fun t r => endNow_steady p r t
  have clear : ∀ (t : State) f, Steady t (t.clearFactor endNow p f) := fun t f => clearFactor_steady endNow_steady t p f
  have ramp : ∀ t : State, Steady t (t.clearOverRamp p x) := fun t => by
    rw [clearOverRamp_eq]
    exact .ite (fun _ => clear t .overRamp) fun _ => .refl t
  have warm : ∀ t : State, Steady t (t.clearGasWarm p y) := fun t => .ite (fun _ => .refl t) fun _ => clear t .gasWarm
  have test : ∀ t : State, Steady t (t.gasWarmTest p y) := fun t =>
    .ite (fun _ => .ite (fun _ => .refl t) fun _ => .ite (fun _ => setFactor_steady t p _) fun _ => (Steady.refl t).session)
      fun _ => (Steady.refl t).session.trans (warm _)
  have delivers : ∀ t : State, Steady t (t.deliveryReport p x y) := fun t => by
    have flows : Steady t (t.flowing p) := (Steady.refl t).session (f := fun z => { z with flowCeiling := t.rampCeiling p })
    cases e : (t.flowing p).endCriterion p with
    | some r =>
      rw [deliveryReport_ends t x y e]
      exact flows.trans (ends _ r)
    | none =>
      rw [deliveryReport_goesOn t x y e]
      exact flows.trans (Steady.trans (.ite (fun _ => setFactor_steady _ p _) fun _ => ramp _) (test _))
  unfold takeReport
  cases (s.session p).state with
  | idle => rfl
  | ended => rfl
  | closing => rfl
  | opening => exact (Steady.ite (fun _ => ends (s.noteReport p x m) _) fun _ => .refl _).ports
  | connecting => exact (Steady.ite (fun _ => ends (s.noteReport p x m) _) fun _ => (ramp _).trans (warm _)).ports
  | held => exact (Steady.ite (fun _ => ends (s.noteReport p x m) _) fun _ => (ramp _).trans (warm _)).ports
  | delivering => exact (Steady.ite (fun _ => ends (s.noteReport p x m) _) fun _ => delivers _).ports

/-! ### The report taken -/

/-- A report that the Position Monitor has kept, the progress timer restarted (R105, R107). -/
def withReport (x y m : Nat) : State :=
  { s with
    monitors := s.monitors.set p
      { s.monitor p with
        pressure := some x
        temperature := some y
        mass := some m
        progressTimer := some (s.config.param 8)
        silenced := false } }

theorem takeProgress_eq (x y m : Nat) : s.takeProgress p x y m = (s.withReport p x y m).takeReport p x y m := by
  refine congrArg (fun t : State => t.takeReport p x y m) ?_
  unfold restartProgress modMonitor withReport
  dsimp only
  rw [Quad.get_set_same, Quad.set_set]
  rfl

theorem taking_takeProgress (f : Frame) (x y m : Nat) :
    (s.taking f).takeProgress p x y m = (s.takeProgress p x y m).taking f := by
  have blind := takeReport_over (P := (s.taking f).ports) (s.withReport p x y m) p x y m
  rw [takeProgress_eq, takeProgress_eq]
  refine blind.trans ?_
  unfold taking modPort onPorts
  rw [takeReport_ports (s.withReport p x y m) p x y m]
  rfl

/-- A session that has noted a report (R105, R148). -/
def notedAs (x m : Nat) : Session := { s.session p with lastMass := m, lastNozzle := some x }

theorem noteReport_eq (x m : Nat) : s.noteReport p x m = s.becomes p (s.notedAs p x m) := rfl

/-! ### The answer -/

theorem progressBody_eq (u : State) : u.progressBody p (s.namesEnded p) =
    (u.session p).command.bytes
      ++ [byteOf (if ((s.session p).running = true
            ∨ (s.monitor p).silenced = true ∧ (s.session p).endReason = some .dispenserSilent
              ∧ ((s.session p).state = .ended ∨ (s.session p).state = .closing))
            ∧ (u.session p).running = false then SessionState.ended else (u.session p).state).code,
        optCode ((u.session p).phase.map (·.code)), endReasonByte (u.session p).endReason] := by
  unfold progressBody shownState namesEnded metSilent
  simp only [Bool.and_eq_true, Bool.or_eq_true, beq_iff_eq, Bool.not_eq_true', and_assoc]

/-- The answer to a report that ends the session. -/
theorem progressBody_ended {t u : State} {r : EndReason} (run : (s.session p).running = true) (h : EndsWith t u p r) :
    u.progressBody p (s.namesEnded p) = [0, 255, 0, 0, byteOf SessionState.ended.code, 255, byteOf r.code] := by
  obtain ⟨record, filed, -⟩ := h
  have phase : (u.session p).phase = none := by
    rw [record]
    unfold endedAs
    cases (t.session p).bank <;> rfl
  have reason : (u.session p).endReason = some r := by
    rw [record]
    unfold endedAs
    cases (t.session p).bank <;> rfl
  have state : (u.session p).state = .ended ∨ (u.session p).state = .closing := filed.imp And.left And.left
  have stopped : (u.session p).running = false := by
    unfold Session.running
    rcases state with e | e <;> rw [e]
  have closed : (u.session p).command = .closed := by
    unfold Session.command
    rcases state with e | e <;> rw [e]
  rw [progressBody_eq, if_pos ⟨.inl run, stopped⟩, closed, phase, reason]
  rfl

end State

theorem progressRequest_taken {s : State} {p : PosId} {x y m : Nat} (fits : m ≤ 99999)
    (here : (s.monitor p).nozzle = .connected) : progressRequest p x y m s =
      doneWith ((s.takeProgress p x y m).progressBody p (s.namesEnded p)) (s.takeProgress p x y m) :=
  (if_neg (Nat.not_lt.mpr fits)).trans (if_neg (not_not.mpr here))

end Sys2Proof.Machine
end

section
/-! SUPPORT. A report taken in DELIVERING (R136, R137, R138), and PROGRESS as a whole. -/

namespace Sys2Proof.Machine

set_option Elab.async false

namespace State

variable {s : State} {p : PosId}

/-! ### The tests of a report outside HELD -/

section Away

variable (away : (s.session p).state ≠ .held)

include away

theorem clearFactor_away (f : Factor) :
    s.clearFactor endNow p f = s.becomes p { s.session p with factors := (s.session p).factors.put f false } := by
  refine (clearFactor_eq s endNow p f fun e => (away e).elim).trans (congrArg (s.becomes p) ?_)
  unfold afterClear
  rw [if_neg fun k => away k.1]

theorem overRampCheck_away (x c : Nat) : s.overRampCheck p x c =
    s.becomes p
      { s.session p with
        factors :=
          { (s.session p).factors with
            overRamp := decide (c + (s.profileOf p).overshoot < clampPressure x)
              || (s.session p).factors.overRamp && !s.withinRamp p x }
        resumeTimer :=
          if decide (c + (s.profileOf p).overshoot < clampPressure x) then none else (s.session p).resumeTimer } := by
  unfold overRampCheck
  by_cases above : c + (s.profileOf p).overshoot < clampPressure x
  · rw [if_pos above, decide_eq_true above, Bool.true_or]
    rfl
  · rw [if_neg above, decide_eq_false above, Bool.false_or, clearOverRamp_eq, if_neg Bool.false_ne_true]
    cases s.withinRamp p x with
    | true =>
      rw [if_pos rfl, Bool.not_true, Bool.and_false]
      exact clearFactor_away away .overRamp
    | false =>
      rw [if_neg Bool.false_ne_true, Bool.not_false, Bool.and_true]
      exact becomes_self.symm

/-- Whether a warm report finds neither the gas-warm timer running nor any grace (R137). -/
def warmAtOnce (s : State) (p : PosId) (y : Nat) : Bool :=
  (s.session p).isWarm y && ((s.session p).warmTimer.isNone && decide ((s.profileOf p).warmGrace = 0))

theorem gasWarmTest_away (y : Nat) : s.gasWarmTest p y =
    s.becomes p
      { s.session p with
        factors :=
          { (s.session p).factors with
            gasWarm := (s.session p).isWarm y && ((s.session p).factors.gasWarm || s.warmAtOnce p y) }
        resumeTimer := if s.warmAtOnce p y then none else (s.session p).resumeTimer
        warmTimer :=
          if (s.session p).isWarm y = false then none
          else if (s.session p).warmTimer = none ∧ (s.profileOf p).warmGrace ≠ 0 then some (s.profileOf p).warmGrace
          else (s.session p).warmTimer } := by
  unfold gasWarmTest warmAtOnce
  dsimp only
  cases warm : (s.session p).isWarm y with
  | false =>
    let t := s.becomes p { s.session p with warmTimer := none }
    have here : t.session p = { s.session p with warmTimer := none } := becomes_session _ _ _
    have cool : (t.session p).isWarm y = false := by
      rw [here]
      exact warm
    have stopped : t.clearGasWarm p y = t.becomes p { t.session p with factors := (t.session p).factors.put .gasWarm false } :=
      (if_neg (Bool.not_eq_true _ ▸ cool)).trans (clearFactor_away (by rw [here]; exact away) .gasWarm)
    refine (if_neg Bool.false_ne_true).trans (stopped.trans ?_)
    rw [here]
    exact becomes_becomes _ _ _ _
  | true =>
    refine (if_pos rfl).trans ?_
    cases timer : (s.session p).warmTimer with
    | some n =>
      refine (if_pos rfl).trans (becomes_self.symm.trans (congrArg (s.becomes p) ?_))
      simp only [Bool.true_and, Option.isNone_some, Bool.false_and, Bool.or_false, Bool.true_eq_false, Bool.false_eq_true,
        if_false, reduceCtorEq, false_and]
      rw [← timer]
    | none =>
      refine (if_neg Bool.false_ne_true).trans ?_
      by_cases grace : (s.profileOf p).warmGrace = 0
      · refine (if_pos grace).trans ((setFactor_eq s p .gasWarm).trans (congrArg (s.becomes p) ?_))
        simp [grace, timer, Factors.put]
      · refine (if_neg grace).trans (congrArg (s.becomes p) ?_)
        simp [grace]

end Away

/-- Whether a report is above the ceiling and the overshoot tolerance (R136, step 5). -/
def aboveRamp (s : State) (p : PosId) (x : Nat) : Bool :=
  decide ((s.rampCeiling p).getD (s.session p).mawp + (s.profileOf p).overshoot < clampPressure x)

/-- A report in DELIVERING that ends nothing (R136 steps 3 and 5, R137). -/
theorem deliveryReport_steps (delivering : (s.session p).state = .delivering) (x y : Nat)
    (goesOn : (s.flowing p).endCriterion p = none) : s.deliveryReport p x y =
      s.becomes p
        { s.session p with
          flowCeiling := s.rampCeiling p
          factors :=
            { (s.session p).factors with
              overRamp := s.aboveRamp p x || (s.session p).factors.overRamp && !s.withinRamp p x
              gasWarm := (s.session p).isWarm y && ((s.session p).factors.gasWarm || s.warmAtOnce p y) }
          resumeTimer := if s.warmAtOnce p y then none else if s.aboveRamp p x then none else (s.session p).resumeTimer
          warmTimer :=
            if (s.session p).isWarm y = false then none
            else if (s.session p).warmTimer = none ∧ (s.profileOf p).warmGrace ≠ 0 then some (s.profileOf p).warmGrace
            else (s.session p).warmTimer } := by
  have away : (s.session p).state ≠ .held := fun e => nomatch delivering.symm.trans e
  have here : (s.flowing p).session p = { s.session p with flowCeiling := s.rampCeiling p } := becomes_session _ _ _
  have profile : (s.flowing p).profileOf p = s.profileOf p := becomes_profileOf _ _ _ rfl
  have ramp : (s.flowing p).withinRamp p x = s.withinRamp p x := by
    unfold withinRamp
    rw [show (s.flowing p).rampCeiling p = s.rampCeiling p from becomes_rampCeiling _ _ _ rfl rfl rfl rfl]
  let checked : Session :=
    { s.session p with
      flowCeiling := s.rampCeiling p
      factors :=
        { (s.session p).factors with
          overRamp := s.aboveRamp p x || (s.session p).factors.overRamp && !s.withinRamp p x }
      resumeTimer := if s.aboveRamp p x then none else (s.session p).resumeTimer }
  have first : (s.flowing p).overRampCheck p x ((s.rampCeiling p).getD (s.session p).mawp) = s.becomes p checked := by
    rw [overRampCheck_away (by rw [here]; exact away), here, profile, ramp]
    exact becomes_becomes _ _ _ _
  have then_here : (s.becomes p checked).session p = checked := becomes_session _ _ _
  have then_profile : (s.becomes p checked).profileOf p = s.profileOf p := becomes_profileOf _ _ _ rfl
  have warm : (s.becomes p checked).warmAtOnce p y = s.warmAtOnce p y := by
    unfold warmAtOnce
    rw [then_here, then_profile]
    rfl
  rw [deliveryReport_goesOn s x y goesOn, first, gasWarmTest_away (by rw [then_here]; exact away), warm, then_here,
    then_profile]
  exact becomes_becomes _ _ _ _

/-! ### The end criteria (R138) -/

theorem socReached_iff : s.socReached p = true ↔
    (s.session p).comm = some .comm ∧ ∃ v, (s.monitor p).vehicle = some v ∧ (s.profileOf p).socTarget ≤ v.soc := by
  unfold socReached
  cases (s.session p).comm with
  | none => simp
  | some c =>
    cases c with
    | nonComm => simp
    | comm => cases (s.monitor p).vehicle <;> simp

theorem pressureReached_iff : s.pressureReached p = true ↔
    (if (s.session p).comm = some .comm then (s.profileOf p).endPressure else (s.profileOf p).nonCommEndPressure)
      ≤ s.nozzlePressure p := by
  unfold pressureReached
  cases (s.session p).comm with
  | none => simp
  | some c => cases c <;> simp

theorem massReached_iff : s.massReached p = true ↔
    (s.session p).massCeiling.getD 0 ≤ (s.profileOf p).closingAnticipation + (s.session p).lastMass := by
  unfold massReached
  simp only [Bool.or_eq_true, decide_eq_true_eq]
  omega

section Criteria

variable (soc : ¬s.socReached p = true)

theorem endCriterion_soc (h : s.socReached p = true) : s.endCriterion p = some .socReached := if_pos h

include soc

theorem endCriterion_pressure (h : s.pressureReached p = true) : s.endCriterion p = some .pressureReached :=
  (if_neg soc).trans (if_pos h)

variable (pressure : ¬s.pressureReached p = true)

include pressure

theorem endCriterion_mass (h : s.massReached p = true) : s.endCriterion p = some .massLimit :=
  (if_neg soc).trans ((if_neg pressure).trans (if_pos h))

theorem endCriterion_none (h : ¬s.massReached p = true) : s.endCriterion p = none :=
  (if_neg soc).trans ((if_neg pressure).trans (if_neg h))

end Criteria

/-! ### The report by the session state -/

theorem takeReport_over_pressure (run : (s.session p).running = true) {x : Nat} (high : (s.session p).mawp < x) (y m : Nat) :
    s.takeReport p x y m = (s.noteReport p x m).endWith p .overPressure := by
  have high : (s.noteReport p x m).overPressure p x = true := by
    rw [noteReport_eq]
    unfold overPressure
    rw [becomes_session]
    exact decide_eq_true high
  unfold Session.running at run
  unfold takeReport
  cases e : (s.session p).state with
  | idle => rw [e] at run; exact Bool.noConfusion run
  | ended => rw [e] at run; exact Bool.noConfusion run
  | closing => rw [e] at run; exact Bool.noConfusion run
  | opening => exact if_pos high
  | connecting => exact if_pos high
  | held => exact if_pos high
  | delivering => exact if_pos high

section Low

variable {x : Nat} (low : x ≤ (s.session p).mawp) (y m : Nat)

include low

theorem overPressure_low : ¬(s.noteReport p x m).overPressure p x = true := by
  rw [noteReport_eq]
  unfold overPressure
  rw [becomes_session, decide_eq_true_iff]
  exact Nat.not_lt.mpr low

theorem takeReport_opening (opening : (s.session p).state = .opening) :
    s.takeReport p x y m = s.becomes p (s.notedAs p x m) := by
  unfold takeReport
  rw [opening]
  exact if_neg (overPressure_low low m)

theorem takeReport_waiting (waiting : (s.session p).state = .connecting ∨ (s.session p).state = .held) :
    s.takeReport p x y m = ((s.becomes p (s.notedAs p x m)).clearOverRamp p x).clearGasWarm p y := by
  unfold takeReport
  rcases waiting with e | e <;> rw [e] <;> exact if_neg (overPressure_low low m)

theorem takeReport_delivering (delivering : (s.session p).state = .delivering) :
    s.takeReport p x y m = (s.becomes p (s.notedAs p x m)).deliveryReport p x y := by
  unfold takeReport
  rw [delivering]
  exact if_neg (overPressure_low low m)

end Low

end State

/-- Settles O49: the report does not see the ports (`State.taking_takeProgress`), and is taken by the session's state
(`State.takeReport_waiting` and its companions): outside DELIVERING it clears factors in two steps, taken as one
(`State.report_clears`); in DELIVERING it ends the session by the first criterion, or sets and clears
(`State.deliveryReport_steps`). -/
theorem progressIsTakenByTheSessionState : Obligations.ProgressIsTakenByTheSessionState := by
  intro p tag pressure temperature mass s k answers t x f met taken ends reported warm within above
  let m := mass.toNat
  have handled : ∀ {t : State} {c : Code} {body : List Byte},
      progressRequest p pressure.toNat temperature.toNat m (s.taking (progressFrame p tag pressure temperature mass))
        = (t.taking (progressFrame p tag pressure temperature mass), ⟨c, body⟩) → answers t c body := fun e =>
    exec_answers_of_wireForm (Laws.WireForm.progress p tag pressure temperature mass) rfl rfl k e
  have reports : m ≤ 99999 → (s.monitor p).nozzle = .connected → ∀ u : State,
      t.takeReport p pressure.toNat temperature.toNat m = u → answers u .ok (u.progressBody p (s.namesEnded p)) := by
    intro fits here u e
    have e : s.takeProgress p pressure.toNat temperature.toNat m = u := (State.takeProgress_eq s p _ _ _).trans e
    have request := progressRequest_taken (s := s.taking (progressFrame p tag pressure temperature mass))
      (x := pressure.toNat) (y := temperature.toNat) fits here
    rw [State.taking_takeProgress, e] at request
    exact handled request
  have stands : m ≤ 99999 → (s.monitor p).nozzle = .connected → ∀ u : State,
      t.takeReport p pressure.toNat temperature.toNat m = u → taken u := fun fits here u e => by
    have r := reports fits here u e
    rw [State.progressBody_eq] at r
    exact r
  have stops : m ≤ 99999 → (s.monitor p).nozzle = .connected → x.running = true → Consistent s → ∀ (z : Session) r,
      z.link = (s.session p).link → z.running = true →
      t.takeReport p pressure.toNat temperature.toNat m = (t.becomes p z).endWith p r → ends z r := by
    intro fits here run h z r link go e
    have agrees : Consistent (t.becomes p z) := (h.monitor _).becomes link
    have ended := State.endWith_Ends agrees (by rw [State.becomes_session]; exact go) r
    have answered := reports fits here ((t.becomes p z).endWith p r) e
    rw [State.progressBody_ended s p run ended.ended] at answered
    exact ⟨_, answered, ended⟩
  refine ⟨commandAt_bytes, fun m => handled (if_pos m), fun fits away => ?_, fun fits here => ?_⟩
  · exact handled ((if_neg (Nat.not_lt.mpr fits)).trans (if_pos away))
  have noted : t.notedAs p pressure.toNat m = x := rfl
  refine ⟨fun idle => ?_, fun past => ?_, fun run high h => ?_, fun opening low => ?_, fun waiting low => ?_,
    fun delivering low => ?_⟩
  · refine stands fits here _ ?_
    unfold State.takeReport
    rw [show (t.session p).state = .idle from idle]
  · refine stands fits here _ ?_
    unfold State.takeReport
    rcases past with e | e
    · rw [show (t.session p).state = .ended from e]
      rfl
    · rw [show (t.session p).state = .closing from e]
      rfl
  · exact stops fits here run h x _ rfl run (State.takeReport_over_pressure (s := t) run high _ _)
  · exact stands fits here _ (State.takeReport_opening (s := t) low _ _ opening)
  · have report := State.takeReport_waiting (s := t) low temperature.toNat m waiting
    have record : (t.becomes p x).session p = x := State.becomes_session _ _ _
    have clears := (State.report_clears (t.becomes p x) p pressure.toNat temperature.toNat).imp fun u e =>
      stands fits here u (report.trans e)
    have factors : (t.becomes p x).reportFactors p pressure.toNat temperature.toNat =
        { x.factors with overRamp := x.factors.overRamp && !within, gasWarm := x.factors.gasWarm && warm } := by
      unfold State.reportFactors State.withinRamp
      rw [record, State.becomes_rampCeiling t p x rfl rfl rfl rfl, State.isWarm_eq]
      rfl
    exact factors ▸ clears
  · intro z soc full sold
    have record : (t.becomes p x).session p = x := State.becomes_session _ _ _
    have ramp : (t.becomes p x).rampCeiling p = s.rampCeiling p := State.becomes_rampCeiling t p x rfl rfl rfl rfl
    have profile : (t.becomes p x).profileOf p = f := State.becomes_profileOf t p x rfl
    have flows : (t.becomes p x).flowing p = t.becomes p z := by
      unfold State.flowing
      rw [State.becomes_becomes, record, ramp]
    have report := State.takeReport_delivering (s := t) low temperature.toNat m delivering
    have held : (t.becomes p z).session p = z := State.becomes_session _ _ _
    have kept : (t.becomes p z).monitor p = _ := Quad.get_set_same _ _ _
    have under : (t.becomes p z).profileOf p = f := State.becomes_profileOf t p z rfl
    have soc_iff : ((t.becomes p x).flowing p).socReached p = true ↔ soc := by
      rw [flows, State.socReached_iff, held, kept, under]
    have full_iff : ((t.becomes p x).flowing p).pressureReached p = true ↔ full := by
      rw [flows, State.pressureReached_iff, held, State.nozzlePressure, kept, under]
      exact Iff.rfl
    have sold_iff : ((t.becomes p x).flowing p).massReached p = true ↔ sold := by
      rw [flows, State.massReached_iff, held, under]
    have run : x.running = true := by
      unfold Session.running
      rw [delivering]
    have ended : ∀ r, ((t.becomes p x).flowing p).endCriterion p = some r → Consistent s → ends z r := fun r e h =>
      stops fits here run h z r rfl run (report.trans (flows ▸ State.deliveryReport_ends _ _ _ e))
    refine ⟨fun a => ended _ (State.endCriterion_soc (soc_iff.mpr a)), fun a b => ended _
      (State.endCriterion_pressure (soc_iff.not.mpr a) (full_iff.mpr b)), fun a b c => ended _
      (State.endCriterion_mass (soc_iff.not.mpr a) (full_iff.not.mpr b) (sold_iff.mpr c)), fun a b c => ?_⟩
    intro late
    have steps := State.deliveryReport_steps (s := t.becomes p x) (by rw [record]; exact delivering) pressure.toNat
      temperature.toNat (State.endCriterion_none (soc_iff.not.mpr a) (full_iff.not.mpr b) (sold_iff.not.mpr c))
    refine stands fits here _ (report.trans (steps.trans ((State.becomes_becomes _ _ _ _).trans ?_)))
    have was_within : (t.becomes p x).withinRamp p pressure.toNat = within := by
      unfold State.withinRamp
      rw [ramp]
      rfl
    have was_warm : x.isWarm temperature.toNat = warm := State.isWarm_eq x _
    have was_late : (t.becomes p x).warmAtOnce p temperature.toNat = decide late := by
      unfold State.warmAtOnce
      rw [record, profile, was_warm, Bool.decide_and, Bool.decide_and, Bool.decide_eq_true]
      refine congrArg (fun b => warm && (b && decide (f.warmGrace = 0))) ?_
      cases x.warmTimer <;> rfl
    have was_above : (t.becomes p x).aboveRamp p pressure.toNat = decide above := by
      unfold State.aboveRamp
      rw [record, profile, ramp]
      rfl
    have timer : (if decide late = true then none else if decide above = true then none else x.resumeTimer)
        = if above ∨ late then none else x.resumeTimer := by
      by_cases l : late <;> by_cases a : above <;> simp [l, a]
    rw [was_within, was_late, was_above, record, profile, ramp, was_warm, timer]

end Sys2Proof.Machine
end

section
/-! SUPPORT. Vehicle frames and the loss of vehicle data (R109 to R112, R114, R146). -/

namespace Sys2Proof.Machine

set_option Elab.async false

theorem fuelClassOf_code (f : FuelClass) : fuelClassOf? f.code = some f := by cases f <;> rfl

theorem fuelCommandOf_code (k : FuelCommand) : fuelCommandOf? k.code = some k := by cases k <;> rfl

theorem fuelClassOf_none {n : Nat} (h : 1 < n) : fuelClassOf? n = none := by
  match n, h with
  | n + 2, _ => rfl

theorem fuelCommandOf_none {n : Nat} (h : 2 < n) : fuelCommandOf? n = none := by
  match n, h with
  | n + 3, _ => rfl

/-- The notices of the event do not enter the agreement of the state. -/
theorem Consistent.noticed {s : State} (h : Consistent s) (l : List Notice) : Consistent { s with outbox := l } :=
  ⟨h.queued, h.held, h.sole, h.once, h.refill, h.forced, h.listed, h.cooled, h.away, h.closing, h.closingOnce, h.massed,
    h.registered, h.filed, h.closes, h.served⟩

namespace State

variable (s : State) (p : PosId)

/-- The state with another Position Monitor for one position. -/
def withMonitor (m : Monitor) : State := { s with monitors := s.monitors.set p m }

theorem withMonitor_monitor (m : Monitor) : (s.withMonitor p m).monitor p = m := Quad.get_set_same _ _ _

/-! ### The loss of vehicle data -/

/-- A monitor whose vehicle record is LOST (R112). -/
def lostMonitor (m : Monitor) : Monitor := { m with record := .lost, vehicle := none, ageTimer := none }

/-- VEHICLE DATA LOST is posted, the vehicle record LOST (R112). -/
def losing (cause : LossCause) (lost : Monitor) : State :=
  { s with monitors := s.monitors.set p lost, outbox := s.outbox ++ [Notice.vehicleDataLost p cause] }

theorem vehicleLost_eq (cause : LossCause) (m : Monitor) :
    (s.withMonitor p m).vehicleLost p cause = (s.losing p cause (lostMonitor m)).loseVehicle p := by
  refine congrArg (fun t : State => t.loseVehicle p) ?_
  unfold modMonitor withMonitor post losing
  dsimp only [monitor]
  rw [Quad.get_set_same, Quad.set_set]
  rfl

theorem loseVehicle_loses (h : Consistent s) (cause : LossCause) (lost : Monitor) :
    LosesVehicle s ((s.losing p cause lost).loseVehicle p) p cause lost := by
  refine ⟨fun run comm mandatory => ?_, fun run comm optional => ?_, fun n => if_neg n⟩
  · have ends : (s.losing p cause lost).loseVehicle p = (s.losing p cause lost).endWith p .vehicleDataLost :=
      (if_pos ⟨run, comm⟩).trans (if_pos mandatory)
    have agrees : Consistent (s.losing p cause lost) :=
      (h.monitor (s.monitors.set p lost)).noticed (s.outbox ++ [Notice.vehicleDataLost p cause])
    rw [ends]
    exact endWith_Ends agrees run _
  · exact (if_pos ⟨run, comm⟩).trans (if_neg (Bool.eq_false_iff.mp optional))

/-! ### An invalid frame (R111) -/

/-- The error count after an invalid frame. -/
def countedErrors : Nat := if (s.monitor p).errors < s.config.param 7 then (s.monitor p).errors + 1 else s.config.param 7

/-- The monitor once an invalid frame is counted. -/
def countedMonitor : Monitor := { s.monitor p with errors := s.countedErrors p }

theorem takeInvalidFrame_eq : s.takeInvalidFrame p =
    if s.config.param 7 ≤ s.countedErrors p ∧ (s.monitor p).record ≠ .lost then
      (s.losing p .errors (lostMonitor (s.countedMonitor p))).loseVehicle p
    else s.withMonitor p (s.countedMonitor p) := by
  have counted : s.modMonitor p (fun x => { x with errors := errorsAfter x.errors s.config.vehicleErrorLimit })
      = s.withMonitor p (s.countedMonitor p) := rfl
  unfold takeInvalidFrame
  dsimp only
  rw [counted, withMonitor_monitor, vehicleLost_eq]
  rfl

/-! ### A valid frame (R109, R110) -/

theorem frameValid_iff (f : VehicleReport) : s.frameValid p f = true ↔
    f.checkPassed = true
      ∧ ((s.session p).state ≠ .idle → (s.session p).fuelClass = some f.fuelClass)
      ∧ (¬(s.session p).state ≠ .idle → s.config.positionClass p = some f.fuelClass)
      ∧ f.volume ≠ 0 ∧ f.pressure ≤ 12000 ∧ 2000 ≤ f.temperature ∧ f.temperature ≤ 3800 := by
  have cls : (s.frameClass p == some f.fuelClass) = true ↔
      ((s.session p).state ≠ .idle → (s.session p).fuelClass = some f.fuelClass)
        ∧ (¬(s.session p).state ≠ .idle → s.config.positionClass p = some f.fuelClass) := by
    unfold frameClass Session.isOpen
    rw [beq_iff_eq]
    by_cases e : (s.session p).state = .idle <;> simp [e]
  unfold frameValid
  simp only [Bool.and_eq_true, cls, bne_iff_ne, decide_eq_true_eq, and_assoc]

/-- The reference density of a frame (R44). -/
def referenceOf (f : FuelClass) : Nat :=
  if (s.session p).state ≠ .idle then (s.session p).refDensity.getD 0 else s.config.param (if f = .h70 then 0 else 1)

/-- The state with a valid frame in the vehicle record (R110). -/
def withFrame (f : VehicleReport) : State :=
  let rho := density s.config f.pressure f.temperature
  let reference := s.referenceOf p f.fuelClass
  s.withMonitor p
    { s.monitor p with
      record := .valid
      vehicle := some
        { fuelClass := f.fuelClass
          volume := f.volume
          pressure := f.pressure
          temperature := f.temperature
          command := f.command
          soc := min ((rho * 1000 + reference / 2) / reference) 1500
          tankMass := (rho * f.volume + 5000) / 10000 }
      errors := 0
      ageTimer := some (s.config.param 6) }

theorem recordFrame_eq (f : VehicleReport) : s.recordFrame p f = s.withFrame p f := by
  have reference : s.frameReference p f = s.referenceOf p f.fuelClass := by
    unfold frameReference referenceOf Session.isOpen
    by_cases e : (s.session p).state = .idle
    · rw [e]
      cases f.fuelClass <;> rfl
    · rw [if_pos (bne_iff_ne.mpr e), if_pos e]
  unfold recordFrame withFrame stateOfCharge
  dsimp only
  rw [reference, Nat.min_comm]
  rfl

/-! ### The command of a frame (R114), and the end criteria after it -/

section Command

variable {s p} {k : FuelCommand}

theorem obeyVehicle_stopped (n : (s.session p).running = false) : s.obeyVehicle p k = s :=
  if_neg (Bool.eq_false_iff.mp n)

theorem frameCriteria_away (n : (s.session p).state ≠ .delivering) : s.frameCriteria p = s := if_neg n

theorem frameCriteria_none (d : (s.session p).state = .delivering) (e : s.endCriterion p = none) :
    s.frameCriteria p = s := by
  unfold frameCriteria
  rw [if_pos d, e]

theorem frameCriteria_ends {r : EndReason} (d : (s.session p).state = .delivering) (e : s.endCriterion p = some r) :
    s.frameCriteria p = s.endWith p r := by
  unfold frameCriteria
  rw [if_pos d, e]

variable (run : (s.session p).running = true)

include run

theorem obeyVehicle_run : s.obeyVehicle p .run = s.clearFactor endNow p .vehicleHalt := if_pos run

theorem obeyVehicle_halt : s.obeyVehicle p .halt = s.setFactor p .vehicleHalt := if_pos run

theorem obeyVehicle_abort : s.obeyVehicle p .abort = s.endWith p .vehicleAbort := if_pos run

end Command

/-- A session whose criteria see nothing of what has changed. -/
theorem endCriterion_becomes {x : Session} (comm : x.comm = (s.session p).comm) (profile : x.profile = (s.session p).profile)
    (ceiling : x.massCeiling = (s.session p).massCeiling) (mass : x.lastMass = (s.session p).lastMass) :
    (s.becomes p x).endCriterion p = s.endCriterion p := by
  have f : (s.becomes p x).profileOf p = s.profileOf p := becomes_profileOf s p x profile
  have soc : (s.becomes p x).socReached p = s.socReached p := by
    unfold socReached
    rw [f, becomes_session, comm]
    rfl
  have pressure : (s.becomes p x).pressureReached p = s.pressureReached p := by
    unfold pressureReached
    rw [f, becomes_session, comm]
    rfl
  have sold : (s.becomes p x).massReached p = s.massReached p := by
    unfold massReached
    dsimp only
    rw [f, becomes_session, ceiling, mass]
  unfold endCriterion
  rw [soc, pressure, sold]

/-- How a running session stands after a frame that ends nothing and does not end its hold (R114). -/
def obeyedAs (k : FuelCommand) : Session :=
  if k = .halt then { s.session p with factors := { (s.session p).factors with vehicleHalt := true }, resumeTimer := none }
  else s.afterClear (s.session p) { (s.session p).factors with vehicleHalt := false }

variable {s p} in
theorem obeyVehicle_stays {k : FuelCommand} (run : (s.session p).running = true) (go : k ≠ .abort)
    (stays : k = .run → s.ClearStays (s.session p) { (s.session p).factors with vehicleHalt := false }) :
    s.obeyVehicle p k = s.becomes p (s.obeyedAs p k) := by
  cases k with
  | abort => exact (go rfl).elim
  | halt => exact obeyVehicle_halt run
  | run => exact (obeyVehicle_run run).trans (clearFactor_eq s endNow p .vehicleHalt (stays rfl))

variable {s p} in
theorem obeyedAs_state (k : FuelCommand) : (s.obeyedAs p k).state = (s.session p).state := by
  cases k <;> rfl

/-! ### The frame does not see the ports -/

section Ports

variable {P : Ports} (f : VehicleReport)

theorem loseVehicle_over : (s.onPorts P).loseVehicle p = (s.loseVehicle p).onPorts P :=
  over_ite (over_ite (endWith_over s p .vehicleDataLost) rfl) rfl

theorem takeInvalidFrame_over : (s.onPorts P).takeInvalidFrame p = (s.takeInvalidFrame p).onPorts P := by
  rw [takeInvalidFrame_eq, takeInvalidFrame_eq]
  exact over_ite (loseVehicle_over (s.losing p .errors (lostMonitor (s.countedMonitor p))) p) rfl

theorem obeyVehicle_over (k : FuelCommand) : (s.onPorts P).obeyVehicle p k = (s.obeyVehicle p k).onPorts P := by
  refine over_ite ?_ rfl
  cases k with
  | run => exact clearNow_over s p .vehicleHalt
  | halt => rfl
  | abort => exact endWith_over s p .vehicleAbort

theorem frameCriteria_over : (s.onPorts P).frameCriteria p = (s.frameCriteria p).onPorts P := by
  refine over_ite ?_ rfl
  show (match s.endCriterion p with | some r => (s.onPorts P).endWith p r | none => s.onPorts P) = _
  cases s.endCriterion p with
  | none => rfl
  | some r => exact endWith_over s p r

theorem takeValidFrame_over : (s.onPorts P).takeValidFrame p f = (s.takeValidFrame p f).onPorts P := by
  have obeyed := obeyVehicle_over (P := P) (s.recordFrame p f) p f.command
  exact (congrArg (fun t : State => t.frameCriteria p) obeyed).trans (frameCriteria_over _ p)

/-- What no end changes, and no session's record, the loss of vehicle data does not change. -/
theorem loseVehicle_keeps {α : Sort*} {F : State → α} (steady : ∀ t u, Steady t u → F u = F t)
    (record : ∀ (t : State) x, F (t.becomes p x) = F t) : F (s.loseVehicle p) = F s := by
  unfold loseVehicle
  split
  · split
    · exact steady _ _ (endNow_steady _ _ _)
    · exact record s _
  · rfl

theorem obeyVehicle_steady (k : FuelCommand) : Steady s (s.obeyVehicle p k) := by
  refine .ite (fun _ => ?_) fun _ => .refl s
  cases k with
  | run => exact clearFactor_steady endNow_steady _ _ _
  | halt => exact setFactor_steady _ _ _
  | abort => exact endNow_steady _ _ _

theorem frameCriteria_steady : Steady s (s.frameCriteria p) := by
  refine .ite (fun _ => ?_) fun _ => .refl s
  cases s.endCriterion p with
  | none => exact .refl s
  | some r => exact endNow_steady _ _ _

theorem takeValidFrame_steady : Steady (s.withFrame p f) (s.takeValidFrame p f) := by
  rw [← recordFrame_eq]
  exact (obeyVehicle_steady _ p f.command).trans (frameCriteria_steady _ p)

theorem takeInvalidFrame_ports : (s.takeInvalidFrame p).ports = s.ports := by
  rw [takeInvalidFrame_eq]
  split
  · exact loseVehicle_keeps (F := State.ports) _ p (fun _ _ k => k.ports) fun _ _ => rfl
  · rfl

end Ports

end State

end Sys2Proof.Machine
end

section
/-! SUPPORT. VEHICLE FRAME and the age timer as a whole (R109 to R112, R114). -/

namespace Sys2Proof.Machine

set_option Elab.async false

theorem Monitor.answer_of_held {x y : Monitor} (h : x.held = y.held) : x.record = y.record ∧ x.errors = y.errors := by
  unfold Monitor.held at h
  simp only [Prod.mk.injEq] at h
  obtain ⟨-, -, -, -, record, -, errors, -⟩ := h
  exact ⟨record, errors⟩

theorem State.obeyedAs_kept (s : State) (p : PosId) (k : FuelCommand) :
    (s.obeyedAs p k).comm = (s.session p).comm ∧ (s.obeyedAs p k).profile = (s.session p).profile
      ∧ (s.obeyedAs p k).massCeiling = (s.session p).massCeiling ∧ (s.obeyedAs p k).lastMass = (s.session p).lastMass
      ∧ (s.obeyedAs p k).link = (s.session p).link := by
  cases k <;> exact ⟨rfl, rfl, rfl, rfl, rfl⟩

/-- A session that leaves HELD for DELIVERING keeps the agreement of the state. -/
theorem Consistent.delivers {s : State} (h : Consistent s) {p : PosId} (run : (s.session p).running = true) {y : Session}
    (e : (y.bank, y.awaited, y.finalMass) = ((s.session p).bank, (s.session p).awaited, (s.session p).finalMass)) :
    Consistent (s.shows p (s.deliversAs y)) :=
  (h.bare.moves (f := fun _ => s.deliversAs y) run nofun rfl e).posted.consistent

namespace State

variable {s : State} {p : PosId} {f : VehicleReport}

theorem taking_takeValidFrame (g : Frame) : (s.taking g).takeValidFrame p f = (s.takeValidFrame p f).taking g := by
  refine (takeValidFrame_over (P := (s.taking g).ports) s p f).trans ?_
  unfold taking modPort onPorts
  rw [(takeValidFrame_steady s p f).ports]
  rfl

theorem taking_takeInvalidFrame (g : Frame) : (s.taking g).takeInvalidFrame p = (s.takeInvalidFrame p).taking g := by
  refine (takeInvalidFrame_over (P := (s.taking g).ports) s p).trans ?_
  unfold taking modPort onPorts
  rw [takeInvalidFrame_ports]

/-- The request for a frame, from the effect of the frame at the state before the request. -/
theorem takeVehicleFrame_taking (g : Frame) (here : (s.monitor p).nozzle ≠ .holstered) {u : State}
    (e : (if s.frameValid p f = true then s.takeValidFrame p f else s.takeInvalidFrame p) = u) :
    (s.taking g).takeVehicleFrame p f =
      (u.taking g,
        ⟨.ok, [byteOf (boolCode (s.frameValid p f)), byteOf (u.monitor p).record.code, byteOf (u.monitor p).errors]⟩) := by
  have effect : (if (s.taking g).frameValid p f = true then (s.taking g).takeValidFrame p f
      else (s.taking g).takeInvalidFrame p) = u.taking g := by
    rw [taking_takeValidFrame, taking_takeInvalidFrame, ← e, show (s.taking g).frameValid p f = s.frameValid p f from rfl]
    split <;> rfl
  unfold takeVehicleFrame
  refine (if_neg here).trans ?_
  dsimp only
  rw [effect]
  rfl

end State

/-- Settles O50: a frame does not see the ports (`State.takeVehicleFrame_taking`); a valid one obeys its command
(`State.obeyVehicle_stays`, `State.clearFactor_clears`) and is then examined (`State.frameCriteria_ends`), and the loss of
vehicle data is one for a frame and for the age timer (`State.loseVehicle_loses`). -/
theorem vehicleFramesAreCheckedAndCounted : Obligations.VehicleFramesAreCheckedAndCounted := by
  refine ⟨?_, fun p s => ⟨fun none => ?_, fun some h => ?_⟩⟩
  · intro p tag check cls command volume pressure temperature s taken answers m x opened
    let frame := vehicleFrameFrame p tag check cls volume pressure temperature command
    have handled : ∀ {t : State} {c : Code} {body : List Byte},
        vehicleFrameRequest p check.toNat cls.toNat volume.toNat pressure.toNat temperature.toNat command.toNat
          (s.taking frame) = (t.taking frame, ⟨c, body⟩) → answers t c body := fun e =>
      exec_answers_of_wireForm (Laws.WireForm.vehicleFrame p tag check cls volume pressure temperature command) rfl rfl
        taken e
    refine ⟨fun odd => handled ?_, fun f k class_code command_code => ?_⟩
    · unfold vehicleFrameRequest
      rcases odd with e | e
      · rw [fuelClassOf_none e]
        rfl
      · rw [fuelCommandOf_none e]
        cases fuelClassOf? cls.toNat <;> rfl
    let report : VehicleReport := ⟨check.toNat == 1, f, volume.toNat, pressure.toNat, temperature.toNat, k⟩
    have request : vehicleFrameRequest p check.toNat cls.toNat volume.toNat pressure.toNat temperature.toNat command.toNat
        (s.taking frame) = (s.taking frame).takeVehicleFrame p report := by
      unfold vehicleFrameRequest
      rw [class_code, command_code, fuelClassOf_code, fuelCommandOf_code]
    refine ⟨fun away => handled (request.trans (if_pos away)), fun here => ?_⟩
    intro fits limit errors counted lost
    have valid_iff : s.frameValid p report = true ↔ fits := by
      rw [State.frameValid_iff, beq_iff_eq]
    have invalid : ¬fits → ∀ u : State, s.takeInvalidFrame p = u →
        answers u .ok [0, byteOf (u.monitor p).record.code, byteOf (u.monitor p).errors] := fun n u e => by
      have off : s.frameValid p report = false := Bool.eq_false_iff.mpr (valid_iff.not.mpr n)
      have r := State.takeVehicleFrame_taking (f := report) frame here ((if_neg (valid_iff.not.mpr n)).trans e)
      rw [off] at r
      exact handled (request.trans r)
    refine ⟨fun n calm => ?_, fun n full known h => ?_, fun ok => ?_⟩
    · have r := invalid n (s.withMonitor p counted) ((State.takeInvalidFrame_eq s p).trans (if_neg fun e =>
        calm.elim (Nat.not_lt.mpr e.1) e.2))
      rw [State.withMonitor_monitor] at r
      exact r
    · have r := invalid n ((s.losing p .errors lost).loseVehicle p) ((State.takeInvalidFrame_eq s p).trans (if_pos ⟨full, known⟩))
      have held : (((s.losing p .errors lost).loseVehicle p).monitor p).held = lost.held :=
        (State.loseVehicle_keeps (F := fun t => (t.monitor p).held) _ p (fun _ _ k => k.monitors p) fun _ _ => rfl).trans
          (congrArg Monitor.held (Quad.get_set_same _ _ _))
      obtain ⟨record, count⟩ := Monitor.answer_of_held held
      rw [record, count] at r
      exact ⟨_, r, State.loseVehicle_loses s p h .errors lost⟩
    intro reference rho t valid y
    have agrees : Consistent s → Consistent t := fun h => h.monitor _
    have record : t.monitor p = _ := Quad.get_set_same _ _ _
    have follows : ∀ u : State, (t.obeyVehicle p k).frameCriteria p = u → answers u .ok valid := fun u e => by
      have steady := ((State.obeyVehicle_steady t p k).trans (State.frameCriteria_steady _ p)).monitors p
      obtain ⟨state, count⟩ := Monitor.answer_of_held steady
      rw [e, record] at state count
      have effect : s.takeValidFrame p report = u := by
        rw [← e]
        exact congrArg (fun t : State => (t.obeyVehicle p k).frameCriteria p) (State.recordFrame_eq s p report)
      have r := State.takeVehicleFrame_taking (f := report) frame here ((if_pos (valid_iff.mpr ok)).trans effect)
      rw [valid_iff.mpr ok, state, count] at r
      exact handled (request.trans r)
    have obeyed : x.running = true → k ≠ .abort → (k = .run → s.ClearStays x { x.factors with vehicleHalt := false }) →
        t.obeyVehicle p k = t.becomes p y := fun run go stays => State.obeyVehicle_stays (s := t) run go stays
    have y_state : y.state = x.state := State.obeyedAs_state (s := t) k
    have now : (t.becomes p y).session p = y := State.becomes_session _ _ _
    refine ⟨fun stopped => ?_, fun run e h => ?_, fun run go away stays => ?_, fun run e leaves => ?_, fun delivering go => ?_⟩
    · have away : x.state ≠ .delivering := fun e => by
        unfold Session.running at stopped
        rw [e] at stopped
        exact Bool.noConfusion stopped
      refine follows t ?_
      rw [State.obeyVehicle_stopped (s := t) stopped]
      exact State.frameCriteria_away (s := t) away
    · subst e
      have ended := State.endWith_Ends (agrees h) run .vehicleAbort
      have away : ((t.endWith p .vehicleAbort).session p).state ≠ .delivering := fun e => by
        rcases ended.ended.filed with ⟨state, -⟩ | ⟨state, -⟩ <;> exact SessionState.noConfusion (e.symm.trans state)
      refine ⟨_, follows (t.endWith p .vehicleAbort) ?_, ended⟩
      rw [State.obeyVehicle_abort (s := t) run]
      exact State.frameCriteria_away away
    · refine follows _ ?_
      rw [obeyed run go stays]
      exact State.frameCriteria_away (by rw [now, y_state]; exact away)
    · subst e
      intro h d
      have ends := State.obeyVehicle_run (s := t) run
      have hold : LeavesHold h p fun u => t.clearFactor endNow p .vehicleHalt = u :=
        (State.clearFactor_clears (s := t) (p := p) .vehicleHalt).leaves leaves
      have profile : h.profileOf p = s.profileOf p := State.becomes_profileOf t p _ rfl
      have nozzle : t.nozzlePressure p = s.nozzlePressure p := by
        unfold State.nozzlePressure
        rw [record]
      have pulse : h.pulseCeiling p = s.pulseCeiling p := by
        rw [show h.pulseCeiling p = t.pulseCeiling p from State.becomes_pulseCeiling t p _ rfl rfl rfl rfl]
        unfold State.pulseCeiling
        rw [nozzle]
        rfl
      have goes : ∀ v : State, t.clearFactor endNow p .vehicleHalt = v → ∀ u, v.frameCriteria p = u → answers u .ok valid :=
        fun v e u c => follows u (by rw [ends, e, c])
      refine ⟨⟨_, goes _ rfl _ rfl, ?_⟩, fun g point phase settle => ?_, fun point bank kind attempt => ?_⟩
      · rw [← ends]
        exact ((State.obeyVehicle_steady t p .run).trans (State.frameCriteria_steady _ p)).undisturbed
      · have settles : (h.profileOf p).settleInterval ≠ 0 := by rw [profile]; exact settle
        have point : (h.session p).resumePoint = some g := by
          rw [State.becomes_session]
          exact point
        rcases phase with rfl | rfl
        · have connects := hold.connect point settles
          have same : h.connectsAs p (h.unheldAs p).resumed = s.connectsAs p (h.unheldAs p).resumed := by
            unfold State.connectsAs
            rw [pulse, profile]
          rw [same] at connects
          refine goes _ connects _ (State.frameCriteria_away ?_)
          rw [State.becomes_session]
          nofun
        · have checks := hold.leakCheck point
          have same : h.checksAs p (h.unheldAs p).resumed = t.checksAs p (h.unheldAs p).resumed := by
            unfold State.checksAs
            rw [profile]
            rfl
          rw [same] at checks
          refine goes _ checks _ (State.frameCriteria_away ?_)
          rw [State.becomes_session]
          nofun
      · have here : h.session p = _ := State.becomes_session _ _ _
        have delivers : t.clearFactor endNow p .vehicleHalt = d :=
          hold.delivers (by rw [here]; exact point) (by rw [here]; exact bank) (by rw [here]; exact kind)
            (by rw [here]; exact attempt)
        have shown : d.session p = s.deliversAs (h.unheldAs p) := State.shows_session _ _ _
        have on : (d.session p).state = .delivering := by rw [shown]; rfl
        refine ⟨fun e => goes d delivers d (State.frameCriteria_none on e), fun r e c => ⟨_, goes d delivers _
          (State.frameCriteria_ends on e), State.endWith_Ends ?_ ?_ r⟩⟩
        · have held : Consistent h := (agrees c).becomes rfl
          exact held.delivers (by rw [here]; exact run) rfl
        · unfold Session.running
          rw [on]
    · have run : x.running = true := by
        unfold Session.running
        rw [delivering]
      have stands := obeyed run go fun _ held => SessionState.noConfusion (delivering.symm.trans held)
      have criterion : (t.becomes p y).endCriterion p = t.endCriterion p := by
        obtain ⟨comm, profile, ceiling, mass, -⟩ := t.obeyedAs_kept p k
        exact State.endCriterion_becomes t p comm profile ceiling mass
      have on : ((t.becomes p y).session p).state = .delivering := by rw [now, y_state]; exact delivering
      refine ⟨fun e => follows _ ?_, fun r e h => ⟨_, follows _ ?_, State.endWith_Ends ((agrees h).becomes ?_) ?_ r⟩⟩
      · rw [stands]
        exact State.frameCriteria_none on (criterion.trans e)
      · rw [stands]
        exact State.frameCriteria_ends on (criterion.trans e)
      · obtain ⟨-, -, -, -, link⟩ := t.obeyedAs_kept p k
        exact link
      · rw [now]
        unfold Session.running
        rw [y_state, delivering]
  · exact event_of rfl (if_neg (by rw [none]; exact Bool.false_ne_true))
  · have lost : s.ageExpires p
        = (s.losing p .age (State.lostMonitor (s.monitor p))).loseVehicle p := by
      have same : s.withMonitor p (s.monitor p) = s := by
        unfold State.withMonitor State.monitor
        rw [Quad.set_get]
      have lost := State.vehicleLost_eq s p .age (s.monitor p)
      rw [same] at lost
      exact (if_pos (Option.isSome_iff_ne_none.mpr some)).trans lost
    exact ⟨_, event_of rfl lost, State.loseVehicle_loses s p h .age _⟩

end Sys2Proof.Machine
end

section
/-! SUPPORT. Committing sales: what a commit does, a list of commits, and the register served from the close queue (R159 to
R162). -/

namespace Sys2Proof.Machine

set_option Elab.async false

/-! ### Sequence numbers -/

theorem sequenceAfter_zero (c : Nat) : sequenceAfter c 0 = c := by
  unfold sequenceAfter
  split <;> omega

theorem sequenceAfter_next (c n : Nat) : sequenceAfter (nextCounter c) n = sequenceAfter c (n + 1) := by
  unfold sequenceAfter nextCounter Config.maxWord
  split <;> split <;> split <;> omega

/-! ### The sale record -/

theorem mismatched_iff (c : SiteConfig) (m : Nat) (b : Int) : mismatched c m b = true ↔
    (m * c.param 20 + 500) / 1000 + c.param 21 < ((m : Int) - b).natAbs := decide_eq_true_iff

namespace State

variable (s : State) (p : PosId)

theorem saleRecord_sells : (s.saleRecord p).Sells s where
  auth a e := congrArg (Option.getD · _) e
  metered := rfl
  price price ceiling e k := by
    have billing : (s.session p).billing = (price, ceiling) := by
      unfold Session.billing
      rw [show (s.session p).unitPrice = some price from e, show (s.session p).massCeiling = some ceiling from k]
    exact ⟨congrArg Prod.fst billing, congrArg (fun b : Nat × Nat => min (s.session p).metered b.2) billing⟩
  unpriced e := by
    have billing : (s.session p).billing = (0, 0) := by
      unfold Session.billing
      rw [show (s.session p).unitPrice = none from e]
    exact ⟨congrArg Prod.fst billing,
      (congrArg (fun b : Nat × Nat => min (s.session p).metered b.2) billing).trans (Nat.min_zero _)⟩
  overrun := rfl
  amount := rfl
  bankSide := by
    show (if (!(s.session p).banksUsed.isEmpty) = true then some (s.session p).bankSum else none)
      = if (s.session p).banksUsed = [] then none else some (s.session p).bankSum
    cases (s.session p).banksUsed <;> rfl
  profiles := ⟨fun k e => congrArg (Option.getD · 0) e, fun k e =>
    ⟨congrArg (Option.getD · 0) e, congrArg (fun o : Option Nat => precoolOfProfile (o.getD 0)) e⟩⟩
  opened := ⟨fun c e => congrArg (Option.getD · _) e, fun c e => congrArg (Option.getD · _) e,
    fun n e => congrArg (Option.getD · 0) e⟩
  course := ⟨rfl, rfl, rfl, rfl⟩
  ended := ⟨rfl, fun n e => congrArg (Option.getD · 0) e, fun n e => congrArg (Option.getD · 0) e⟩
  marks := ⟨rfl, rfl, rfl, rfl⟩
  unchecked := by
    show ((s.session p).flags.unchecked || (!(s.session p).banksUsed.isEmpty && (s.session p).staleMark)) = true ↔ _
    simp only [Bool.or_eq_true, Bool.and_eq_true, Bool.not_eq_true', List.isEmpty_eq_false_iff]
    exact Iff.rfl
  mismatch := by
    show ((!(s.session p).banksUsed.isEmpty && !(s.session p).staleMark)
      && mismatched s.config (s.session p).metered (s.session p).bankSum) = true ↔ _
    simp only [Bool.and_eq_true, Bool.not_eq_true', List.isEmpty_eq_false_iff, mismatched_iff, and_assoc]
    exact Iff.rfl

end State

/-- What a sale record tells of its session it tells of the same session in another state. -/
theorem SaleRecord.Sells.of_session {r : SaleRecord} {s t : State} (h : r.Sells t)
    (e : t.session r.position = s.session r.position) (c : t.config = s.config) : r.Sells s := by
  obtain ⟨auth, metered, price, unpriced, overrun, amount, bankSide, profiles, opened, course, ended, marks, unchecked,
    mismatch⟩ := h
  rw [e] at auth metered price unpriced bankSide profiles opened course ended marks unchecked mismatch
  rw [c] at mismatch
  exact ⟨auth, metered, price, unpriced, overrun, amount, bankSide, profiles, opened, course, ended, marks, unchecked,
    mismatch⟩

/-! ### One commit -/

/-- A position's session has been committed in an event that came from one state to another (R149, R160). -/
structure Committed (s t : State) (p : PosId) : Prop where
  records : t.sales.records = s.sales.records ++ [s.saleRecord p]
  counter : t.sales.counter = nextCounter s.sales.counter
  ready : Notice.recordReady (s.sales.records.length + 1) ∈ t.outbox
  mismatch : (s.saleRecord p).flags.mismatch = true → Notice.massMismatch s.sales.counter ∈ t.outbox
  shown : Notice.sessionState p .idle (s.session p).endReason (s.session p).reference ∈ t.outbox
  idle : t.session p = Session.idle
  others : ∀ q, q ≠ p → t.session q = s.session q
  posts : ∀ n ∈ s.outbox, n ∈ t.outbox
  config : t.config = s.config

namespace State

variable (s : State) (p : PosId)

theorem commit_outbox : (s.commit p).outbox =
    s.outbox ++ ((if (s.saleRecord p).flags.mismatch then [Notice.massMismatch s.sales.counter] else [])
      ++ [Notice.recordReady (s.sales.records.length + 1),
        Notice.sessionState p .idle (s.session p).endReason (s.session p).reference]) := by
  have length : (s.sales.records ++ [s.saleRecord p]).length = s.sales.records.length + 1 := List.length_append
  have posts : ∀ (t : State) r, (t.postMismatch r).outbox
      = t.outbox ++ if r.flags.mismatch then [Notice.massMismatch r.sequence] else [] := fun t r => by
    unfold postMismatch
    split
    · rfl
    · exact (List.append_nil _).symm
  have kept : ∀ (t : State) r, (t.postMismatch r).sales = t.sales := fun t r => by
    unfold postMismatch
    split <;> rfl
  unfold commit
  show ((State.outbox (State.postMismatch _ _) ++ [_]) ++ [_]) = _
  rw [posts, kept, ← length, List.append_assoc, List.append_assoc]
  rfl

theorem commit_rest : { s.commit p with outbox := s.outbox, sessions := s.sessions, sales := s.sales } = s := by
  unfold commit postMismatch
  dsimp only
  split <;> rfl

theorem commit_committed : Committed s (s.commit p) p where
  records := congrArg SalesUnit.records (commit_sales s p)
  counter := congrArg SalesUnit.counter (commit_sales s p)
  ready := by rw [commit_outbox]; simp
  mismatch e := by rw [commit_outbox, if_pos e]; simp
  shown := by rw [commit_outbox]; simp
  idle := by
    unfold session
    rw [commit_sessions]
    exact Quad.get_set_same _ _ _
  others _ h := commit_session_ne s h
  posts n m := by rw [commit_outbox]; exact List.mem_append_left _ m
  config := (congrArg State.config (commit_rest s p) :)

end State

/-! ### Commits one after another -/

namespace Sold

variable {s t u : State} {p : PosId} {l : List PosId} {sold : List SaleRecord}

theorem nil (records : u.sales.records = s.sales.records) (counter : u.sales.counter = s.sales.counter) : Sold s u [] [] where
  records := by rw [records, List.append_nil]
  positions := rfl
  sells _ m := (nomatch m)
  sequences _ _ e := (nomatch e)
  counter := by rw [counter]; exact (sequenceAfter_zero _).symm
  ready _ h := (nomatch h)
  mismatches _ m := (nomatch m)
  shown _ m := (nomatch m)
  idle _ m := (nomatch m)

/-- A commit, and those that follow it. -/
theorem cons (c : Committed s t p) (h : Sold t u l sold) (apart : p ∉ l) (posts : ∀ n ∈ t.outbox, n ∈ u.outbox)
    (idle : u.session p = t.session p) : Sold s u (p :: l) (s.saleRecord p :: sold) := by
  have other : ∀ q ∈ l, t.session q = s.session q := fun q m => c.others q fun e => apart (e ▸ m)
  have listed : ∀ r ∈ sold, r.position ∈ l := fun r m => h.positions ▸ List.mem_map_of_mem m
  refine ⟨?_, ?_, fun r m => ?_, fun i r e => ?_, ?_, fun i m => ?_, fun r m e => ?_, fun q m => ?_, fun q m => ?_⟩
  · rw [h.records, c.records, List.append_assoc]
    rfl
  · rw [List.map_cons, h.positions]
    rfl
  · rcases List.mem_cons.mp m with rfl | m
    · exact s.saleRecord_sells p
    · exact (h.sells r m).of_session (other _ (listed r m)) c.config
  · cases i with
    | zero =>
      obtain rfl := Option.some.inj e
      exact (sequenceAfter_zero _).symm
    | succ i =>
      rw [← sequenceAfter_next, ← c.counter]
      exact h.sequences i r e
  · rw [List.length_cons, ← sequenceAfter_next, ← c.counter]
    exact h.counter
  · cases i with
    | zero => exact posts _ c.ready
    | succ i =>
      have r := h.ready i (Nat.lt_of_succ_lt_succ m)
      rw [c.records, List.length_append] at r
      rw [show s.sales.records.length + (i + 1) + 1 = s.sales.records.length + 1 + i + 1 by omega]
      exact r
  · rcases List.mem_cons.mp m with rfl | m
    · exact posts _ (c.mismatch e)
    · exact h.mismatches r m e
  · rcases List.mem_cons.mp m with rfl | m
    · exact posts _ c.shown
    · rw [← other q m]
      exact h.shown q m
  · rcases List.mem_cons.mp m with rfl | m
    · rw [idle, c.idle]
    · exact h.idle q m

end Sold

end Sys2Proof.Machine
end

section
/-! SUPPORT. The register served from the close queue, and a closing that completes (R159, R160). -/

namespace Sys2Proof.Machine

set_option Elab.async false

namespace State

variable {s : State} {p q : PosId} {rest : List PosId}

/-- What a commit and the register taken do not touch. -/
def SameBlocks (s t : State) : Prop :=
  { t with outbox := s.outbox, sessions := s.sessions, sales := s.sales } = s
    ∧ t.sales.slots = s.sales.slots ∧ t.sales.tariff = s.sales.tariff

theorem SameBlocks.trans {s t u : State} (h : SameBlocks s t) (k : SameBlocks t u) : SameBlocks s u :=
  ⟨(congrArg (fun x : State => { x with outbox := s.outbox, sessions := s.sessions, sales := s.sales }) k.1 :).trans h.1,
    k.2.1.trans h.2.1, k.2.2.trans h.2.2⟩

theorem completeClosing_blocks (s : State) (p : PosId) : SameBlocks s (s.completeClosing p) := by
  have sales := commit_sales s p
  refine ⟨commit_rest s p, ?_, ?_⟩
  · exact (congrArg SalesUnit.slots sales :)
  · exact (congrArg SalesUnit.tariff sales :)

theorem takeRegister_blocks (s : State) (p : PosId) (rest : List PosId) : SameBlocks s (s.takeRegister p rest) :=
  ⟨rfl, rfl, rfl⟩

/-- The register taken (R159): the session is CLOSING, and shows it. -/
theorem takeRegister_eq (s : State) (p : PosId) (rest : List PosId) : s.takeRegister p rest =
    ({ s with sales := { s.sales with closeQueue := rest, register := some p } }).shows p
      { s.session p with state := .closing } :=
  becomes_post _ _ _

theorem takeRegister_session : (s.takeRegister p rest).session p = { s.session p with state := .closing } := by
  rw [takeRegister_eq, shows_session]

theorem takeRegister_other (h : q ≠ p) : (s.takeRegister p rest).session q = s.session q := by
  rw [takeRegister_eq]
  exact Quad.get_set_ne _ _ h

theorem takeRegister_outbox : (s.takeRegister p rest).outbox =
    s.outbox ++ [Notice.sessionState p .closing (s.session p).endReason (s.session p).reference] := by
  rw [takeRegister_eq]
  rfl

theorem completeClosing_committed (s : State) (p : PosId) : Committed s (s.completeClosing p) p :=
  have c := commit_committed s p
  ⟨c.records, c.counter, c.ready, c.mismatch, c.shown, c.idle, c.others, c.posts, c.config⟩

/-- The head of the close queue takes the register and completes at once. -/
theorem passed_committed (s : State) (p : PosId) (rest : List PosId) :
    Committed s ((s.takeRegister p rest).completeClosing p) p := by
  have c := completeClosing_committed (s.takeRegister p rest) p
  have sale : (s.takeRegister p rest).saleRecord p = s.saleRecord p := by
    unfold saleRecord
    dsimp only
    rw [takeRegister_session]
    rfl
  obtain ⟨records, counter, ready, mismatch, shown, idle, others, posts, config⟩ := c
  rw [sale] at records mismatch
  rw [takeRegister_session] at shown
  refine ⟨records, counter, ready, mismatch, shown, idle, fun q h => (others q h).trans (takeRegister_other h),
    fun n m => posts n ?_, config⟩
  rw [takeRegister_outbox]
  exact List.mem_append_left _ m

theorem passed_sales (s : State) (p : PosId) (rest : List PosId) :
    ((s.takeRegister p rest).completeClosing p).sales.register = none
      ∧ ((s.takeRegister p rest).completeClosing p).sales.closeQueue = rest :=
  ⟨rfl, completeClosing_closeQueue _ _⟩

/-- The close queue is served (R159, R160 step 7): those at its head that have their final mass are committed, and the
first that has none takes the register. -/
structure ServesQueue (s u : State) (finished waiting : List PosId) : Prop where
  sold : ∃ sold, Sold s u finished sold
  free : waiting = [] → u.sales.register = none ∧ (s.sales.closingTimer = none → u.sales.closingTimer = none)
    ∧ u.sales.closeQueue = [] ∧ ∀ z, z ∉ finished → u.session z = s.session z
  taken : ∀ q rest, waiting = q :: rest →
    u.sales.register = some q ∧ u.sales.closeQueue = rest ∧ u.sales.closingTimer = some (s.config.param 9)
      ∧ u.session q = { s.session q with state := .closing }
      ∧ Notice.sessionState q .closing (s.session q).endReason (s.session q).reference ∈ u.outbox
      ∧ ∀ z, z ∉ finished → z ≠ q → u.session z = s.session z
  posts : ∀ n ∈ s.outbox, n ∈ u.outbox
  blocks : SameBlocks s u

theorem serveRegister_serves {waiting : List PosId} (finished : List PosId) : ∀ (n : Nat) (s : State),
    s.sales.register = none → s.sales.closeQueue = finished ++ waiting → (finished ++ waiting).length ≤ n →
    (finished ++ waiting).Nodup → (∀ q ∈ finished, (s.session q).finalMass.isSome = true) →
    (∀ q rest, waiting = q :: rest → ¬(s.session q).finalMass.isSome = true) →
    ServesQueue s (serveRegister n s) finished waiting := by
  induction finished with
  | nil =>
    intro n s register queue enough once _ short
    cases waiting with
    | nil =>
      have idle : serveRegister n s = s := by
        cases n with
        | zero => rfl
        | succ n =>
          unfold serveRegister
          rw [queue, register]
          rfl
      rw [idle]
      exact ⟨⟨[], Sold.nil rfl rfl⟩, fun _ => ⟨register, id, queue, fun _ _ => rfl⟩, fun _ _ e => (nomatch e), fun _ => id,
        rfl, rfl, rfl⟩
    | cons q rest =>
      obtain ⟨n, rfl⟩ : ∃ m, n = m + 1 := ⟨n - 1, by simp at enough; omega⟩
      have step : serveRegister (n + 1) s = (s.takeRegister q rest).startClosing := by
        conv_lhs => unfold serveRegister
        rw [queue, register]
        refine if_neg ?_
        rw [takeRegister_session]
        exact short q rest rfl
      rw [step]
      refine ⟨⟨[], Sold.nil rfl rfl⟩, fun e => (nomatch e), fun z l e => ?_, fun m k => ?_, rfl, rfl, rfl⟩
      · obtain ⟨rfl, rfl⟩ := List.cons.inj e
        refine ⟨rfl, rfl, rfl, takeRegister_session, ?_, fun z _ ne => takeRegister_other ne⟩
        show _ ∈ (s.takeRegister q rest).outbox
        rw [takeRegister_outbox]
        exact List.mem_append_right _ List.mem_cons_self
      · show m ∈ (s.takeRegister q rest).outbox
        rw [takeRegister_outbox]
        exact List.mem_append_left _ k
  | cons p finished ih =>
    intro n s register queue enough once massed short
    obtain ⟨n, rfl⟩ : ∃ m, n = m + 1 := ⟨n - 1, by simp at enough; omega⟩
    let t := (s.takeRegister p (finished ++ waiting)).completeClosing p
    have passed : Committed s t p := passed_committed s p _
    have step : serveRegister (n + 1) s = serveRegister n t := by
      conv_lhs => unfold serveRegister
      rw [queue, register]
      refine if_pos ?_
      rw [takeRegister_session]
      exact massed p List.mem_cons_self
    obtain ⟨apart, once⟩ := List.nodup_cons.mp once
    have other : ∀ q ∈ finished ++ waiting, t.session q = s.session q := fun q m => passed.others q fun e => apart (e ▸ m)
    obtain ⟨free, left⟩ := passed_sales s p (finished ++ waiting)
    have further := ih n t free left (Nat.le_of_succ_le_succ enough) once
      (fun q m => by rw [other q (List.mem_append_left _ m)]; exact massed q (List.mem_cons_of_mem _ m))
      (fun q rest e => by
        rw [other q (List.mem_append_right _ (e ▸ List.mem_cons_self))]
        exact short q rest e)
    rw [step]
    have untouched : (serveRegister n t).session p = t.session p := by
      cases waiting with
      | nil => exact (further.free rfl).2.2.2 p fun m => apart (List.mem_append_left _ m)
      | cons q rest =>
        obtain ⟨-, -, -, -, -, others⟩ := further.taken q rest rfl
        exact others p (fun m => apart (List.mem_append_left _ m)) fun e => apart (e ▸ List.mem_append_right _ List.mem_cons_self)
    have onward : ∀ z, z ∉ p :: finished → z ∉ finished ∧ t.session z = s.session z := fun z m =>
      ⟨fun k => m (List.mem_cons_of_mem p k), passed.others z fun e => m (e ▸ List.mem_cons_self)⟩
    obtain ⟨sold, sells⟩ := further.sold
    refine ⟨⟨_, Sold.cons passed sells (fun m => apart (List.mem_append_left _ m)) further.posts untouched⟩, fun e => ?_,
      fun q rest e => ?_, fun m k => further.posts m (passed.posts m k), SameBlocks.trans ?_ further.blocks⟩
    · obtain ⟨register, timer, queue, others⟩ := further.free e
      exact ⟨register, fun _ => timer rfl, queue, fun z m => (others z (onward z m).1).trans (onward z m).2⟩
    · obtain ⟨register, queue, timer, record, shown, others⟩ := further.taken q rest e
      rw [other q (List.mem_append_right _ (e ▸ List.mem_cons_self))] at record shown
      rw [passed.config] at timer
      exact ⟨register, queue, timer, record, shown, fun z m ne => (others z (onward z m).1 ne).trans (onward z m).2⟩
    · exact (takeRegister_blocks s p _).trans (completeClosing_blocks _ p)

end State

end Sys2Proof.Machine
end

section
/-! SUPPORT. FINAL METER and the closing timer (R108, R159, R160). -/

namespace Sys2Proof.Machine

set_option Elab.async false

namespace State

variable {s : State} {p : PosId}

/-- The closing of the session in the register completes. -/
theorem completes_closes (register : s.sales.register = some p) (once : s.sales.pendingSessions.Nodup) :
    let massed := fun q => (s.session q).finalMass.isSome
    Closes s ((s.completeClosing p).serveCloseQueue) p (s.sales.closeQueue.takeWhile massed)
      (s.sales.closeQueue.dropWhile massed) := by
  intro massed
  let t := s.completeClosing p
  have passed := completeClosing_committed s p
  have pending : p ∉ s.sales.closeQueue ∧ s.sales.closeQueue.Nodup := by
    unfold SalesUnit.pendingSessions at once
    rw [register] at once
    exact List.nodup_cons.mp once
  have other : ∀ q ∈ s.sales.closeQueue, t.session q = s.session q := fun q m =>
    passed.others q fun e => pending.1 (e ▸ m)
  have queue : t.sales.closeQueue = s.sales.closeQueue.takeWhile massed ++ s.sales.closeQueue.dropWhile massed :=
    (completeClosing_closeQueue s p).trans List.takeWhile_append_dropWhile.symm
  have drops : ∀ q ∈ s.sales.closeQueue.dropWhile massed, q ∈ s.sales.closeQueue := fun q m =>
    (List.dropWhile_suffix massed).mem m
  have takes : ∀ q ∈ s.sales.closeQueue.takeWhile massed, q ∈ s.sales.closeQueue := fun q m =>
    (List.takeWhile_prefix massed).mem m
  have serves := serveRegister_serves (waiting := s.sales.closeQueue.dropWhile massed)
    (s.sales.closeQueue.takeWhile massed) t.sales.closeQueue.length t rfl queue (by rw [queue])
    (by rw [List.takeWhile_append_dropWhile]; exact pending.2)
    (fun q m => by rw [other q (takes q m)]; exact List.mem_takeWhile_imp (p := massed) m)
    (fun q rest e => by
      rw [other q (drops q (e ▸ List.mem_cons_self))]
      have head := List.head?_dropWhile_not massed s.sales.closeQueue
      rw [e] at head
      exact Bool.eq_false_iff.mp head)
  obtain ⟨⟨sold, sells⟩, free, taken, posts, blocks⟩ := serves
  have onward : ∀ z, z ∉ p :: s.sales.closeQueue.takeWhile massed →
      z ∉ s.sales.closeQueue.takeWhile massed ∧ t.session z = s.session z := fun z m =>
    ⟨fun k => m (List.mem_cons_of_mem p k), passed.others z fun e => m (e ▸ List.mem_cons_self)⟩
  have apart : p ∉ s.sales.closeQueue.takeWhile massed := fun m => pending.1 (takes p m)
  have untouched : t.serveCloseQueue.session p = t.session p := by
    cases e : s.sales.closeQueue.dropWhile massed with
    | nil => exact (free e).2.2.2 p apart
    | cons q rest =>
      obtain ⟨-, -, -, -, -, others⟩ := taken q rest e
      exact others p apart fun c => pending.1 (drops p (e ▸ c ▸ List.mem_cons_self))
  obtain ⟨same, slots, tariff⟩ := (completeClosing_blocks s p).trans blocks
  refine ⟨⟨_, Sold.cons passed sells apart posts untouched⟩, fun e => ?_, fun q rest e => ?_,
    ⟨(congrArg State.bm same :), (congrArg State.cbu same :), (congrArg State.monitors same :), (congrArg State.site same :),
      (congrArg State.ports same :)⟩, slots, tariff⟩
  · obtain ⟨register, timer, queue, others⟩ := free e
    exact ⟨register, timer rfl, queue, fun z m => (others z (onward z m).1).trans (onward z m).2⟩
  · obtain ⟨register, queue, timer, record, shown, others⟩ := taken q rest e
    rw [other q (drops q (e ▸ List.mem_cons_self))] at record shown
    rw [passed.config] at timer
    exact ⟨register, queue, timer, record, shown, fun z m ne => (others z (onward z m).1 ne).trans (onward z m).2⟩

/-! ### The closing does not see the ports -/

theorem completes_over {P : Ports} (s : State) : ((s.onPorts P).completeClosing p).serveCloseQueue
    = ((s.completeClosing p).serveCloseQueue).onPorts P := by
  have closed : (s.onPorts P).completeClosing p = (s.completeClosing p).onPorts P :=
    congrArg (fun t : State => t.modSales fun u => { u with register := none, closingTimer := none }) (commit_over s p)
  rw [closed]
  exact serveRegister_over (s.completeClosing p) _

theorem taking_completes (f : Frame) : ((s.taking f).completeClosing p).serveCloseQueue
    = ((s.completeClosing p).serveCloseQueue).taking f := by
  have same : ((s.completeClosing p).serveCloseQueue).ports = s.ports :=
    (serveCloseQueue_steady _).ports.trans (commit_calm s p).ports
  refine (completes_over (P := (s.taking f).ports) s).trans ?_
  unfold taking modPort onPorts
  rw [same]

end State

/-- Settles O60: those at the head of the close queue that have their final mass are committed one after another
(`State.serveRegister_serves`), after the session in the register (`State.completes_closes`). -/
theorem closingCommitsTheSale : Obligations.ClosingCommitsTheSale := by
  unfold Obligations.ClosingCommitsTheSale
  intro closes
  refine ⟨fun p tag mass s k => ?_, fun s => ⟨fun none => ?_, fun p register timer h => ?_⟩, fun x a m price auth max => ?_⟩
  · intro answers x
    have handled : ∀ {t : State} {c : Code}, finalMeterRequest p mass.toNat (s.taking (finalMeterFrame p tag mass))
        = (t.taking (finalMeterFrame p tag mass), ⟨c, []⟩) → answers t c := fun e =>
      exec_answers_of_wireForm (Laws.WireForm.finalMeter p tag mass) rfl rfl k e
    have fits : mass.toNat ≤ 99999 → ¬99999 < mass.toNat := Nat.not_lt.mpr
    refine ⟨fun high => handled (if_pos high), fun m away => handled ((if_neg (fits m)).trans ?_),
      fun m ended => handled ((if_neg (fits m)).trans ?_), fun m closing h => ?_⟩
    · have state : x.state ≠ .ended ∧ x.state ≠ .closing := by
        rcases away with run | idle
        · unfold Session.running at run
          constructor <;> intro e <;> rw [e] at run <;> exact Bool.noConfusion run
        · rw [idle]
          exact ⟨nofun, nofun⟩
      rw [show ((s.taking (finalMeterFrame p tag mass)).session p).state = x.state from rfl]
      cases e : x.state with
      | ended => exact (state.1 e).elim
      | closing => exact (state.2 e).elim
      | idle => rfl
      | opening => rfl
      | connecting => rfl
      | delivering => rfl
      | held => rfl
    · rw [show ((s.taking (finalMeterFrame p tag mass)).session p).state = .ended from ended]
      rfl
    · refine ⟨_, handled ((if_neg (fits m)).trans ?_), State.completes_closes (s := s.becomes p x) (h.registered p closing)
        h.closingOnce⟩
      rw [show ((s.taking (finalMeterFrame p tag mass)).session p).state = .closing from closing]
      exact congrArg (·, (⟨.ok, []⟩ : Reply)) (State.taking_completes (s := s.becomes p x) (finalMeterFrame p tag mass))
  · refine event_of rfl ?_
    unfold State.closingExpires
    rcases none with e | e
    · rw [e]
    · rw [e]
      cases s.sales.register <;> rfl
  · refine ⟨_, event_of rfl ?_, State.completes_closes register h.closingOnce⟩
    obtain ⟨n, e⟩ := Option.ne_none_iff_exists'.mp timer
    unfold State.closingExpires
    rw [register, e]
  · unfold Session.ceilingAt
    rw [auth, max]
    refine ⟨fun n e => ?_, fun n e => ?_⟩ <;> dsimp only <;> rw [e] <;> rfl

end Sys2Proof.Machine
end

section
/-! SUPPORT. What an emergency stop and a site reset do to the banks (R67, R68, R84, R85). -/

namespace Sys2Proof.Machine

set_option Elab.async false

/-- A holder once the claims of positions are cleared (R67, step 1). -/
def Holder.unclaimed (h : Holder) : Holder := if h.position?.isSome then .free else h

theorem Holder.unclaimed_ne (h : Holder) (p : PosId) : h.unclaimed ≠ .position p := by
  cases h <;> exact nofun

/-- A bank once its claim and its wait queue are cleared (R67 steps 1 and 2). -/
def Bank.unclaimed (x : Bank) : Bank := { x with holder := x.holder.unclaimed, queue := [] }

namespace State

variable {s : State} {p : PosId} {b : BankId}

/-- A session once its claim is cleared with the snapshot at release, and it awaits no bank (R67 steps 1 and 2). -/
def unclaimedAs (s : State) (p : PosId) : Session :=
  { (match (s.session p).bank with
      | some b => s.releasedAs b (s.session p)
      | none => s.session p) with
    awaited := none }

/-! ### Claims and wait queues cleared -/

theorem clearClaim_eq (s : State) (b : BankId) : s.clearClaim b =
    match (s.bank b).holder.position? with
    | some p => (s.becomes p (s.releasedAs b (s.session p))).modBank b fun x => { x with holder := .free }
    | none => s := by
  have released : ∀ p, (s.snapshotRelease b p).forgetBank p = s.becomes p (s.releasedAs b (s.session p)) := fun p => by
    unfold forgetBank
    rw [modSession_becomes]
    unfold snapshotRelease
    rw [modSession_becomes, becomes_becomes, becomes_session]
    rfl
  unfold clearClaim
  cases (s.bank b).holder.position? with
  | none => rfl
  | some p => exact congrArg (fun t : State => t.modBank b fun x => { x with holder := .free }) (released p)

theorem clearClaim_bank (s : State) (b : BankId) :
    (s.clearClaim b).bank b = { s.bank b with holder := (s.bank b).holder.unclaimed } := by
  unfold Holder.unclaimed
  rw [clearClaim_eq]
  cases (s.bank b).holder.position? with
  | none => rfl
  | some p => exact modBank_bank_same _ _ _

theorem clearClaim_bank_ne (s : State) {b c : BankId} (h : c ≠ b) : (s.clearClaim b).bank c = s.bank c := by
  rw [clearClaim_eq]
  cases (s.bank b).holder.position? with
  | none => rfl
  | some p => exact modBank_bank_ne _ _ h

/-- Beside the banks and the sessions a cleared claim changes nothing. -/
theorem clearClaim_rest (s : State) (b : BankId) :
    { s.clearClaim b with sessions := s.sessions, bm := s.bm } = s
      ∧ { (s.clearClaim b).bm with banks := s.bm.banks } = s.bm := by
  rw [clearClaim_eq]
  cases (s.bank b).holder.position? with
  | none => exact ⟨rfl, rfl⟩
  | some p => exact ⟨rfl, rfl⟩

theorem clearClaim_session_ne (h : (s.bank b).holder ≠ .position p) : (s.clearClaim b).session p = s.session p := by
  rw [clearClaim_eq]
  cases e : (s.bank b).holder.position? with
  | none => rfl
  | some q =>
    have ne : p ≠ q := fun k => h (k ▸ position?_eq_some.mp e)
    exact becomes_session_ne (s.releasedAs b (s.session q)) ne

theorem clearClaim_session (h : (s.bank b).holder = .position p) :
    (s.clearClaim b).session p = s.releasedAs b (s.session p) := by
  rw [clearClaim_eq, position?_eq_some.mpr h]
  exact becomes_session _ _ _

/-- Every claim is cleared. -/
def unclaimAll (s : State) : State := inOrder (fun b s => s.clearClaim b) s

theorem unclaimAll_bank (s : State) (b : BankId) :
    s.unclaimAll.bank b = { s.bank b with holder := (s.bank b).holder.unclaimed } :=
  inOrder_part (fun t : State => t.bank) (fun _ x => { x with holder := x.holder.unclaimed })
    (fun t b => clearClaim_bank t b) (fun t _ _ n => clearClaim_bank_ne t n) s b

theorem unclaimAll_rest (s : State) : { s.unclaimAll with sessions := s.sessions, bm := s.bm } = s
    ∧ { s.unclaimAll.bm with banks := s.bm.banks } = s.bm :=
  inOrder_keeps
    (fun t : State => { t with sessions := s.sessions, bm := s.bm } = s ∧ { t.bm with banks := s.bm.banks } = s.bm) _
    (fun b t k => by
      obtain ⟨rest, bm⟩ := clearClaim_rest t b
      exact ⟨(congrArg (fun u : State => { u with sessions := s.sessions, bm := s.bm }) rest :).trans k.1,
        (congrArg (fun m : BankManager => { m with banks := s.bm.banks }) bm :).trans k.2⟩) s ⟨rfl, rfl⟩

/-- No bank but one is held by a position. -/
def HeldAtMost (s : State) (p : PosId) (o : Option BankId) : Prop := ∀ c, some c ≠ o → (s.bank c).holder ≠ .position p

theorem HeldAtMost.clearClaim {o : Option BankId} (h : s.HeldAtMost p o) (c : BankId) :
    (s.clearClaim c).HeldAtMost p o := fun d n => by
  by_cases e : d = c
  · rw [e, clearClaim_bank]
    exact Holder.unclaimed_ne _ p
  · rw [clearClaim_bank_ne s e]
    exact h d n

theorem unclaimAll_session (held : ∀ b, (s.bank b).holder = .position p ↔ (s.session p).bank = some b) :
    { s.unclaimAll.session p with awaited := none } = s.unclaimedAs p := by
  unfold unclaimedAs
  cases e : (s.session p).bank with
  | none =>
    have most : s.HeldAtMost p none := fun c _ k => nomatch e.symm.trans ((held c).mp k)
    have same : s.unclaimAll.HeldAtMost p none ∧ s.unclaimAll.session p = s.session p :=
      inOrder_keeps (fun t : State => t.HeldAtMost p none ∧ t.session p = s.session p) _
        (fun c t k => ⟨k.1.clearClaim c, (clearClaim_session_ne (k.1 c nofun)).trans k.2⟩) s ⟨most, rfl⟩
    rw [same.2]
  | some b =>
    have holds := (held b).mpr e
    have most : s.HeldAtMost p (some b) := fun c n k => n (e ▸ ((held c).mp k).symm)
    have freshness : ∀ (t : State) c, (t.clearClaim c).bm.freshness = t.bm.freshness := fun t c =>
      (congrArg BankManager.freshness (clearClaim_rest t c).2 :)
    have released : s.unclaimAll.HeldAtMost p (some b) ∧ s.unclaimAll.session p = s.releasedAs b (s.session p) := by
      refine inOrder_reaches
        (P := fun t : State => t.HeldAtMost p (some b) ∧ t.session p = s.session p ∧ t.bank b = s.bank b
          ∧ t.bm.freshness = s.bm.freshness)
        (Q := fun t : State => t.HeldAtMost p (some b) ∧ t.session p = s.releasedAs b (s.session p)) b
        (fun i n t k => ?_) (fun t k => ?_) (fun i n t k => ?_) ⟨most, rfl, rfl, rfl⟩
      · obtain ⟨most, session, bank, fresh⟩ := k
        exact ⟨most.clearClaim i, (clearClaim_session_ne (most i fun c => n (Option.some.inj c))).trans session,
          (clearClaim_bank_ne t n.symm).trans bank, (freshness t i).trans fresh⟩
      · obtain ⟨most, session, bank, fresh⟩ := k
        refine ⟨most.clearClaim b, (clearClaim_session (by rw [bank]; exact holds)).trans ?_⟩
        unfold releasedAs
        rw [session, bank, fresh]
      · exact ⟨k.1.clearClaim i, (clearClaim_session_ne (k.1 i fun c => n (Option.some.inj c))).trans k.2⟩
    rw [released.2]

/-- The yield timer is all that a settling changes. -/
theorem settleYield_timer (s : State) : ∃ y, s.settleYield = s.modBm fun m => { m with yieldTimer := y } := by
  unfold settleYield
  split
  · split
    · exact ⟨none, rfl⟩
    · exact ⟨s.bm.yieldTimer, rfl⟩
  · exact ⟨s.bm.yieldTimer, rfl⟩

/-- Every claim and every wait queue is cleared in the event that has come from a first state to a second. -/
structure ClaimsCleared (s t : State) : Prop where
  session : ∀ p, t.session p = s.unclaimedAs p
  bank : ∀ b, t.bank b = (s.bank b).unclaimed
  bm : { t.bm with banks := s.bm.banks, yieldTimer := s.bm.yieldTimer } = s.bm
  rest : { t with sessions := s.sessions, bm := s.bm } = s

theorem clearClaims_cleared (h : Consistent s) : ClaimsCleared s s.clearClaims := by
  obtain ⟨rest, bm⟩ := unclaimAll_rest s
  have session : ∀ p, s.unclaimAll.emptied.session p = s.unclaimedAs p := fun p => by
    rw [emptied_session]
    exact unclaimAll_session fun b => h.held b p
  have bank : ∀ b, s.unclaimAll.emptied.bank b = (s.bank b).unclaimed := fun b => by
    rw [emptied_bank, unclaimAll_bank]
    rfl
  have manager : { s.unclaimAll.emptied.bm with banks := s.bm.banks } = s.bm :=
    (emptied_keeps (fun t : State => { t.bm with banks := s.bm.banks }) (fun _ _ _ => rfl) (fun _ _ _ => rfl) _).trans bm
  have others : { s.unclaimAll.emptied with sessions := s.sessions, bm := s.bm } = s :=
    (emptied_keeps (fun t : State => { t with sessions := s.sessions, bm := s.bm }) (fun _ _ _ => rfl)
      (fun _ _ _ => rfl) _).trans rest
  have whole : s.clearClaims = s.unclaimAll.emptied.settleYield := rfl
  rw [whole]
  generalize s.unclaimAll.emptied = t at session bank manager others
  obtain ⟨y, e⟩ := settleYield_timer t
  rw [e]
  exact ⟨session, bank, (congrArg (fun m : BankManager => { m with yieldTimer := s.bm.yieldTimer }) manager :), others⟩

/-! ### A refill aborted -/

/-- A refill in flight has ended ABORTED, no position waiting for its bank. -/
structure RefillAborted (s t : State) : Prop where
  bank : ∀ b, t.bank b = if s.bm.refillInFlight = some b then { s.bank b with holder := .free } else s.bank b
  flight : t.bm.refillInFlight = none
  ends : ∀ b, s.bm.refillInFlight = some b → Notice.refillStop b .aborted ∈ t.outbox ∧ t.bm.yieldTimer = none
    ∧ (s.Returns b → t.bm.refillList = s.bm.refillList ++ [b]) ∧ (¬s.Returns b → t.bm.refillList = s.bm.refillList)
  still : s.bm.refillInFlight = none → t.bm.refillList = s.bm.refillList
  bm : t.bm.designation = s.bm.designation ∧ t.bm.freshness = s.bm.freshness
    ∧ t.bm.freshnessTimer = s.bm.freshnessTimer ∧ t.bm.ambient = s.bm.ambient
  rest : { t with bm := s.bm, outbox := s.outbox } = s
  posts : ∃ l, t.outbox = s.outbox ++ l

theorem abortRefill_aborted (empty : ∀ b, (s.bank b).queue = []) : RefillAborted s s.abortRefill := by
  unfold abortRefill
  cases e : s.bm.refillInFlight with
  | none =>
    refine ⟨fun b => ?_, e, fun b k => (nomatch e.symm.trans k), fun _ => rfl, ⟨rfl, rfl, rfl, rfl⟩, rfl, ⟨[], ?_⟩⟩
    · rw [if_neg (by rw [e]; nofun)]
    · exact (List.append_nil _).symm
  | some b =>
    let v : State := (s.unrefilled.modBank b fun x => { x with holder := .free }).post (.refillStop b .aborted)
    have at_b : v.bank b = { s.bank b with holder := .free } :=
      modBank_bank_same s.unrefilled b fun x => { x with holder := .free }
    obtain ⟨l, list, returns, stays⟩ := s.relist_ended b (t := v) rfl (by rw [at_b]) (by rw [at_b]) rfl
    have whole : s.refillEnds b .aborted = v.modBm fun m => { m with refillList := l } := by
      refine Eq.trans ?_ list
      exact congrArg (fun t : State => (t.post (.refillStop b .aborted)).relist b) (handOff_free s.unrefilled (empty b))
    dsimp only
    rw [whole]
    refine ⟨fun c => ?_, rfl, fun c k => ?_, fun k => (nomatch e.symm.trans k), ⟨rfl, rfl, rfl, rfl⟩, rfl, ⟨_, rfl⟩⟩
    · by_cases n : c = b
      · rw [n, if_pos e]
        exact at_b
      · rw [if_neg fun k => n (Option.some.inj (k.symm.trans e))]
        exact modBank_bank_ne s.unrefilled (fun x => { x with holder := .free }) n
    · obtain rfl := Option.some.inj (e.symm.trans k)
      exact ⟨List.mem_append_right _ List.mem_cons_self, rfl, returns, stays⟩

/-! ### The banks stopped -/

/-- The Bank Manager's part of an emergency stop, in the event that has come from a first state to a second (R67, R84). -/
structure BanksStopped (s t : State) : Prop where
  session : ∀ p, t.session p = s.unclaimedAs p
  bank : ∀ b, t.bank b =
      { s.bank b with
        holder := (t.bank b).holder
        queue := []
        proofState := ((s.bank b).proof.map (·.before)).getD (s.bank b).proofState
        proof := none }
    ∧ (((s.bank b).holder = .refill → s.bm.refillInFlight = some b) → (t.bank b).holder = .free)
  flight : t.bm.refillInFlight = none
  ends : ∀ b, s.bm.refillInFlight = some b → Notice.refillStop b .aborted ∈ t.outbox ∧ t.bm.yieldTimer = none
    ∧ (s.Returns b → t.bm.refillList = s.bm.refillList ++ [b]) ∧ (¬s.Returns b → t.bm.refillList = s.bm.refillList)
  still : s.bm.refillInFlight = none → t.bm.refillList = s.bm.refillList
  designation : BanksAgree s → t.bm.designation = none
  data : t.bm.freshness = s.bm.freshness ∧ t.bm.freshnessTimer = s.bm.freshnessTimer ∧ t.bm.ambient = s.bm.ambient
  rest : { t with bm := s.bm, outbox := s.outbox, sessions := s.sessions } = s
  posts : ∃ l, t.outbox = s.outbox ++ l

/-- A bank stopped, from what it was. -/
theorem stopped_bank (x : Bank) (y : Bank) (flight : Prop) [Decidable flight]
    (e : y = if flight then { x.unclaimed with holder := .free } else x.unclaimed) :
    y.unproving =
      { x with
        holder := y.unproving.holder
        queue := []
        proofState := (x.proof.map (·.before)).getD x.proofState
        proof := none }
    ∧ ((x.holder = .refill → flight) → y.unproving.holder = .free) := by
  subst e
  by_cases f : flight
  · rw [if_pos f]
    exact ⟨rfl, fun _ => rfl⟩
  · rw [if_neg f]
    refine ⟨rfl, fun k => ?_⟩
    unfold Bank.unproving Bank.unclaimed Holder.unclaimed
    cases e : x.holder with
    | refill => exact (f (k e)).elim
    | free => rfl
    | proof => rfl
    | position p => rfl

theorem stopBanks_stopped (h : Consistent s) : BanksStopped s s.stopBanks := by
  have cleared := clearClaims_cleared h
  have aborted := abortRefill_aborted (s := s.clearClaims) fun b => by rw [cleared.bank b]; rfl
  have whole : s.stopBanks = s.clearClaims.abortRefill.abandonAll := rfl
  have flight : s.clearClaims.bm.refillInFlight = s.bm.refillInFlight := (congrArg BankManager.refillInFlight cleared.bm :)
  have list : s.clearClaims.bm.refillList = s.bm.refillList := (congrArg BankManager.refillList cleared.bm :)
  have bank : ∀ b, s.clearClaims.abortRefill.bank b = if s.bm.refillInFlight = some b then
      { (s.bank b).unclaimed with holder := .free } else (s.bank b).unclaimed := fun b => by
    rw [aborted.bank b, flight, cleared.bank b]
  have returns : ∀ b, s.clearClaims.Returns b ↔ s.Returns b := fun b =>
    returns_congr (t := s.clearClaims) s (congrArg State.config cleared.rest :) (by rw [cleared.bank b]; rfl)
      (by rw [cleared.bank b]; rfl) list
  rw [whole]
  generalize s.clearClaims.abortRefill = t at aborted bank
  obtain ⟨rest, bm⟩ := t.abandonAll_rest
  refine ⟨fun p => ?_, fun b => ?_, ?_, fun b k => ?_, fun k => ?_, fun agree => ?_, ⟨?_, ?_, ?_⟩, ?_, ?_⟩
  · have sessions : t.abandonAll.session p = t.session p := (congrArg (fun u : State => u.session p) rest :)
    have kept : t.session p = s.clearClaims.session p := (congrArg (fun u : State => u.session p) aborted.rest :)
    rw [sessions, kept, cleared.session p]
  · rw [abandonAll_bank]
    exact stopped_bank (s.bank b) (t.bank b) _ (bank b)
  · exact (congrArg BankManager.refillInFlight bm :).trans aborted.flight
  · obtain ⟨told, timer, back, stays⟩ := aborted.ends b (flight.trans k)
    rw [returns, list] at back stays
    refine ⟨?_, (congrArg BankManager.yieldTimer bm :).trans timer, fun r => ?_, fun r => ?_⟩
    · rw [show t.abandonAll.outbox = t.outbox from (congrArg State.outbox rest :)]
      exact told
    · exact (congrArg BankManager.refillList bm :).trans (back r)
    · exact (congrArg BankManager.refillList bm :).trans (stays r)
  · exact (congrArg BankManager.refillList bm :).trans ((aborted.still (flight.trans k)).trans list)
  · cases d : t.abandonAll.bm.designation with
    | none => rfl
    | some b =>
      obtain ⟨designated, unproved⟩ := (abandonAll_designation t b).mp d
      obtain ⟨f, proof, -⟩ := (agree.forced b).mpr
        (((congrArg BankManager.designation cleared.bm :).symm.trans aborted.bm.1.symm).trans designated)
      have kept : (t.bank b).proof = (s.bank b).proof := by
        rw [bank b]
        split <;> rfl
      rw [kept, proof] at unproved
      exact nomatch unproved
  · exact (congrArg BankManager.freshness bm :).trans (aborted.bm.2.1.trans (congrArg BankManager.freshness cleared.bm :))
  · exact (congrArg BankManager.freshnessTimer bm :).trans
      (aborted.bm.2.2.1.trans (congrArg BankManager.freshnessTimer cleared.bm :))
  · exact (congrArg BankManager.ambient bm :).trans (aborted.bm.2.2.2.trans (congrArg BankManager.ambient cleared.bm :))
  · have first : { t.abandonAll with bm := s.bm, outbox := s.outbox, sessions := s.sessions }
        = { t with bm := s.bm, outbox := s.outbox, sessions := s.sessions } :=
      (congrArg (fun u : State => { u with bm := s.bm, outbox := s.outbox, sessions := s.sessions }) rest :)
    have second : { t with bm := s.bm, outbox := s.outbox, sessions := s.sessions }
        = { s.clearClaims with bm := s.bm, outbox := s.outbox, sessions := s.sessions } :=
      (congrArg (fun u : State => { u with bm := s.bm, outbox := s.outbox, sessions := s.sessions }) aborted.rest :)
    exact first.trans (second.trans (congrArg (fun u : State => { u with outbox := s.outbox }) cleared.rest :))
  · obtain ⟨l, posted⟩ := aborted.posts
    refine ⟨l, (congrArg State.outbox rest :).trans (posted.trans ?_)⟩
    rw [show s.clearClaims.outbox = s.outbox from (congrArg State.outbox cleared.rest :)]

end State

end Sys2Proof.Machine
end

section
/-! SUPPORT. Sessions that end one after another while nothing is claimed and nothing listed for cooling (R150, R165). -/

namespace Sys2Proof.Machine

set_option Elab.async false

namespace State

variable {s t u : State} {p q : PosId} {r : EndReason} {l : List PosId}

/-- No bank and no cooling is left to give back, and the close queue waits on the register only. -/
structure Quiet (s : State) : Prop where
  bank : ∀ p, (s.session p).bank = none
  awaited : ∀ p, (s.session p).awaited = none
  unlisted : s.cbu.positions = []
  massless : ∀ p, (s.session p).running = true → (s.session p).finalMass = none
  served : s.sales.register = none → s.sales.closeQueue = []

/-! ### One end -/

theorem endedAs_unheld (bank : (s.session p).bank = none) (awaited : (s.session p).awaited = none) :
    s.endedAs p r = { s.markedAs p r with cooling := .noCooling } := by
  unfold endedAs
  rw [bank]
  exact (congrArg (fun a => { s.markedAs p r with awaited := a, cooling := .noCooling }) awaited :).symm

/-- A session without a bank and a place in a queue ends alike in two states that have it alike. -/
theorem Quiet.endedAs_congr (h : s.Quiet) (e : t.session p = s.session p) (site : t.site = s.site)
    (monitor : (t.monitor p).held = (s.monitor p).held) : t.endedAs p r = s.endedAs p r := by
  rw [endedAs_unheld (h.bank p) (h.awaited p), endedAs_unheld (e ▸ h.bank p) (e ▸ h.awaited p)]
  have pressure : (t.monitor p).pressure = (s.monitor p).pressure := congrArg (fun m => m.2.1) monitor
  unfold markedAs
  rw [e, site, pressure]

theorem endSteps_quiet (h : s.Quiet) (endK : Ender) : s.endSteps endK p r = s.shows p (s.endedAs p r) := by
  have here : (s.becomes p (s.markedAs p r)).session p = s.markedAs p r := becomes_session _ _ _
  have marked : (s.modSession p fun x => x.markEnded r s.site.siteTime (s.endingNozzle p)) = s.becomes p (s.markedAs p r) := by
    rw [modSession_becomes, marked_eq]
  have released : (s.becomes p (s.markedAs p r)).releaseClaim p = s.becomes p (s.markedAs p r) :=
    releaseClaim_none (by rw [here]; exact h.bank p)
  have left : (s.becomes p (s.markedAs p r)).leaveQueue p = s.becomes p (s.markedAs p r) :=
    leaveQueue_none (by rw [here]; exact h.awaited p)
  have cooled : (s.becomes p (s.markedAs p r)).leaveCooling endK p = s.becomes p (s.markedAs p r) :=
    leaveCooling_unlisted (s := s.becomes p (s.markedAs p r)) h.unlisted endK p
  have shape : s.endSteps endK p r
      = ((((s.modSession p fun x => x.markEnded r s.site.siteTime (s.endingNozzle p)).releaseClaim p).leaveQueue
          p).leaveCooling endK p |>.modSession p fun x => { x with cooling := .noCooling }).postSession p := rfl
  rw [shape, marked, released, left, cooled, modSession_becomes, here, becomes_becomes, becomes_post,
    endedAs_unheld (h.bank p) (h.awaited p)]

/-- A position's session, that ran, has ended with no bank and no cooling to give back. -/
structure EndsAlone (s u : State) (p : PosId) (r : EndReason) : Prop where
  ended : EndsWith s u p r
  others : ∀ q, q ≠ p → u.session q = s.session q
  pending : u.sales.pendingSessions = s.sales.pendingSessions ++ [p]
  register : u.sales.register ≠ none
  busy : s.sales.register ≠ none → u.sales.register = s.sales.register ∧ u.sales.closingTimer = s.sales.closingTimer
  records : u.sales.records = s.sales.records
  bm : u.bm = s.bm
  cbu : u.cbu = s.cbu
  steady : Steady s u

theorem endWith_alone (h : s.Quiet) (run : (s.session p).running = true) : EndsAlone s (s.endWith p r) p r := by
  have step : s.endWith p r = (s.shows p (s.endedAs p r)).joinCloseQueue p := by
    refine (if_pos run).trans ?_
    rw [endSteps_quiet h]
  have here : (s.shows p (s.endedAs p r)).session p = s.endedAs p r := shows_session _ _ _
  have unheld := endedAs_unheld (r := r) (h.bank p) (h.awaited p)
  have state : (s.endedAs p r).state = .ended := by rw [unheld]; rfl
  have reason : (s.endedAs p r).endReason = some r := by rw [unheld]; rfl
  have reference : (s.endedAs p r).reference = (s.session p).reference := by rw [unheld]; rfl
  have massless : (s.endedAs p r).finalMass = none := by rw [unheld]; exact h.massless p run
  have shown : Notice.sessionState p .ended (some r) (s.session p).reference ∈ (s.shows p (s.endedAs p r)).outbox := by
    refine List.mem_append_right _ (List.mem_singleton.mpr ?_)
    rw [state, reason, reference]
  have j : Joins p (s.shows p (s.endedAs p r)) ((s.shows p (s.endedAs p r)).joinCloseQueue p) :=
    joinCloseQueue_joins h.served fun _ => by rw [here]; exact massless
  rw [← step] at j
  have file : EndsWith s (s.endWith p r) p r ∧ (s.endWith p r).sales.register ≠ none := by
    by_cases free : s.sales.register = none
    · obtain ⟨register, -, timer⟩ := j.free free
      obtain ⟨record, told⟩ := j.takes free
      rw [here] at record told
      rw [reason, reference] at told
      refine ⟨⟨?_, .inr ⟨?_, register, timer, told⟩, j.steady.posts.mem shown⟩, by rw [register]; nofun⟩
      · rw [record]
      · rw [record]
    · obtain ⟨record, filed⟩ := j.waits free
      rw [here] at record
      refine ⟨⟨?_, .inl ⟨?_, filed⟩, j.steady.posts.mem shown⟩, (j.busy free).1 ▸ free⟩
      · rw [record]
      · rw [record]
        exact state
  exact ⟨file.1, fun q n => (j.others q n).trans (Quad.get_set_ne _ _ n), j.joined, file.2, j.busy, j.records.1, j.bm,
    j.cbu, endWith_steady s p r⟩

/-- A session that has ended stays so while others end. -/
theorem EndsAlone.keeps_ended {e : EndReason} (k : EndsAlone t u q e) (h : EndsWith s t p r) (n : p ≠ q)
    (busy : t.sales.register ≠ none) : EndsWith s u p r := by
  obtain ⟨register, timer⟩ := k.busy busy
  have same := k.others p n
  have queued : p ∈ t.sales.closeQueue → p ∈ u.sales.closeQueue := fun m => by
    have pending := k.pending
    unfold SalesUnit.pendingSessions at pending
    rw [register, List.append_assoc] at pending
    rw [List.append_cancel_left pending]
    exact List.mem_append_left _ m
  refine ⟨by rw [same]; exact h.record, ?_, k.steady.posts.mem h.shown⟩
  rw [same, register, timer]
  rcases h.filed with ⟨state, m⟩ | ⟨state, mine, started, told⟩
  · exact .inl ⟨state, queued m⟩
  · exact .inr ⟨state, mine, started, k.steady.posts.mem told⟩

/-! ### Ends in turn -/

/-- Those of a list of positions whose session ran have ended in turn. -/
structure EndInTurn (s u : State) (r : EndReason) (l : List PosId) : Prop where
  ended : ∀ p ∈ l, (s.session p).running = true → EndsWith s u p r
  others : ∀ p, p ∉ l ∨ (s.session p).running = false → u.session p = s.session p
  pending : u.sales.pendingSessions = s.sales.pendingSessions ++ l.filter fun p => (s.session p).running
  register : (∃ p ∈ l, (s.session p).running = true) → u.sales.register ≠ none
  records : u.sales.records = s.sales.records
  bm : u.bm = s.bm
  cbu : u.cbu = s.cbu
  steady : Steady s u
  quiet : u.Quiet

theorem EndInTurn.nil (h : s.Quiet) : EndInTurn s s r [] :=
  ⟨fun _ m => (nomatch m), fun _ _ => rfl, (List.append_nil _).symm, fun ⟨_, m, _⟩ => (nomatch m), rfl, rfl, rfl, .refl s, h⟩

theorem EndInTurn.snoc (h : s.Quiet) (k : EndInTurn s t r l) (n : q ∉ l) : EndInTurn s (t.endWith q r) r (l ++ [q]) := by
  have same : t.session q = s.session q := k.others q (.inl n)
  by_cases run : (s.session q).running = true
  · have e : EndsAlone t (t.endWith q r) q r := endWith_alone k.quiet (same ▸ run)
    have here : (t.endWith q r).session q = { s.endedAs q r with state := ((t.endWith q r).session q).state } := by
      rw [← h.endedAs_congr same k.steady.site (k.steady.monitors q)]
      exact e.ended.record
    have apart : ∀ p ∈ l, p ≠ q := fun p m c => n (c ▸ m)
    refine ⟨fun p m run => ?_, fun p away => ?_, ?_, fun _ => e.register, e.records.trans k.records, e.bm.trans k.bm,
      e.cbu.trans k.cbu, k.steady.trans e.steady, ?_⟩
    · rcases List.mem_append.mp m with m | m
      · exact e.keeps_ended (k.ended p m run) (apart p m) (k.register ⟨p, m, run⟩)
      · obtain rfl := List.mem_singleton.mp m
        obtain ⟨-, filed, shown⟩ := e.ended
        rw [same] at filed shown
        exact ⟨here, by rw [show s.config = t.config from congrArg SiteControl.config k.steady.site.symm]; exact filed, shown⟩
    · have ne : p ≠ q := by
        rintro rfl
        rcases away with m | stopped
        · exact m (List.mem_append_right _ List.mem_cons_self)
        · exact Bool.noConfusion (run.symm.trans stopped)
      exact (e.others p ne).trans (k.others p (away.imp_left fun m c => m (List.mem_append_left _ c)))
    · have kept : ([q].filter fun p => (s.session p).running) = [q] :=
        List.filter_eq_self.mpr fun p m => by
          rw [List.mem_singleton.mp m]
          exact run
      rw [e.pending, k.pending, List.filter_append, kept, List.append_assoc]
    · have bank : ((t.endWith q r).session q).bank = none := by
        rw [here, endedAs_unheld (h.bank q) (h.awaited q)]
        exact h.bank q
      have awaited : ((t.endWith q r).session q).awaited = none := by
        rw [here]
        rfl
      have stopped : ((t.endWith q r).session q).running ≠ true := by
        unfold Session.running
        rcases e.ended.filed with ⟨state, -⟩ | ⟨state, -⟩ <;> rw [state] <;> exact Bool.noConfusion
      refine ⟨fun p => ?_, fun p => ?_, ?_, fun p run => ?_, fun free => (e.register free).elim⟩
      · by_cases c : p = q
        · exact c ▸ bank
        · rw [e.others p c]
          exact k.quiet.bank p
      · by_cases c : p = q
        · exact c ▸ awaited
        · rw [e.others p c]
          exact k.quiet.awaited p
      · rw [e.cbu]
        exact k.quiet.unlisted
      · by_cases c : p = q
        · exact (stopped (c ▸ run)).elim
        · rw [e.others p c] at run ⊢
          exact k.quiet.massless p run
  · have stays : t.endWith q r = t := if_neg (same ▸ run)
    have stopped : ([q].filter fun p => (s.session p).running) = [] :=
      List.filter_eq_nil_iff.mpr fun p m => List.mem_singleton.mp m ▸ run
    have inner : ∀ p, p ∈ l ++ [q] → (s.session p).running = true → p ∈ l := fun p m k =>
      (List.mem_append.mp m).resolve_right fun c => run (List.mem_singleton.mp c ▸ k)
    rw [stays]
    refine ⟨fun p m c => k.ended p (inner p m c) c, fun p away => k.others p ?_, ?_,
      fun ⟨p, m, c⟩ => k.register ⟨p, inner p m c, c⟩, k.records, k.bm, k.cbu, k.steady, k.quiet⟩
    · exact away.imp_left fun m c => m (List.mem_append_left _ c)
    · rw [List.filter_append, stopped, List.append_nil]
      exact k.pending

theorem stopSessions_inTurn (h : s.Quiet) : EndInTurn s s.stopSessions .emergencyStop fourIds :=
  ((((EndInTurn.nil h).snoc h (q := 0) (by decide)).snoc h (q := 1) (by decide)).snoc h (q := 2) (by decide)).snoc h (q := 3)
    (by decide)

end State

end Sys2Proof.Machine
end

section
/-! SUPPORT. EMERGENCY STOP (R16, R22, R67, R84, R99, R150, R165). -/

namespace Sys2Proof.Machine

set_option Elab.async false

namespace State

variable {s t u : State} {p : PosId} {r : EndReason} {c : HaltCause}

/-! ### Sessions whose claims and queue places are cleared -/

theorem unclaimedAs_bank (s : State) (p : PosId) : (s.unclaimedAs p).bank = none := by
  unfold unclaimedAs
  cases e : (s.session p).bank with
  | none => exact e
  | some b => rfl

theorem unclaimedAs_kept (s : State) (p : PosId) : (s.unclaimedAs p).fixed = (s.session p).fixed
    ∧ (s.unclaimedAs p).state = (s.session p).state ∧ (s.unclaimedAs p).reference = (s.session p).reference := by
  unfold unclaimedAs
  cases (s.session p).bank <;> exact ⟨rfl, rfl, rfl⟩

theorem unclaimedAs_congr (session : t.session p = s.session p) (bm : t.bm = s.bm) :
    t.unclaimedAs p = s.unclaimedAs p := by
  have bank : ∀ b, t.bank b = s.bank b := fun b => congrArg (fun m : BankManager => m.banks.get b) bm
  unfold unclaimedAs releasedAs
  rw [session]
  cases (s.session p).bank with
  | none => rfl
  | some b =>
    dsimp only
    rw [bank, bm]

theorem unclaimedAs_finalMass (s : State) (p : PosId) : (s.unclaimedAs p).finalMass = (s.session p).finalMass :=
  congrArg (fun y => y.2.2.1) (unclaimedAs_kept s p).1

theorem unclaimedAs_running (s : State) (p : PosId) : (s.unclaimedAs p).running = (s.session p).running := by
  unfold Session.running
  rw [(unclaimedAs_kept s p).2.1]

theorem unclaimedAs_away (h : Consistent s) (away : (s.session p).running = false) : s.unclaimedAs p = s.session p := by
  obtain ⟨bank, awaited, -⟩ := h.away p away
  unfold unclaimedAs
  rw [bank]
  exact congrArg (fun a => { s.session p with awaited := a }) awaited.symm

/-- A session whose claim is cleared ends as one that gives its bank back when it ends. -/
theorem endedAs_unclaimed (session : t.session p = s.unclaimedAs p) (time : t.site.siteTime = s.site.siteTime)
    (monitor : t.monitor p = s.monitor p) : t.endedAs p r = s.endedAs p r := by
  have bank : (t.session p).bank = none := session ▸ unclaimedAs_bank s p
  have awaited : (t.session p).awaited = none := by rw [session]; rfl
  rw [endedAs_unheld bank awaited]
  unfold markedAs
  rw [session, time, monitor]
  unfold unclaimedAs endedAs
  cases (s.session p).bank <;> rfl

theorem quiet_of_unclaimed (h : Consistent s) (session : ∀ p, t.session p = s.unclaimedAs p) (cbu : t.cbu.positions = [])
    (register : t.sales.register = s.sales.register) (queue : t.sales.closeQueue = s.sales.closeQueue) : t.Quiet where
  bank p := session p ▸ unclaimedAs_bank s p
  awaited p := by rw [session]; rfl
  unlisted := cbu
  massless p run := by
    rw [session, unclaimedAs_running] at run
    rw [session, unclaimedAs_finalMass]
    unfold Session.running at run
    refine Option.eq_none_iff_forall_ne_some.mpr fun m mass => ?_
    rcases h.massed p (by rw [mass]; rfl) with e | e <;> rw [e] at run <;> exact Bool.noConfusion run
  served free := queue.trans (h.served (register.symm.trans free))

theorem stopCooling_eq (s : State) : s.stopCooling =
    { s with
      cbu := { capacity := s.cbu.capacity, grants := [], queue := [] }
      outbox := s.outbox ++ if s.cbu.queue = [] then [] else [.coolingDemand 0] } := by
  unfold stopCooling
  cases e : s.cbu.queue with
  | nil => exact (congrArg (fun o => { s.modCbu CoolingUnit.cleared with outbox := o }) (List.append_nil s.outbox).symm :)
  | cons w l => rfl

/-! ### The stop -/

theorem Consistent.haltSite (h : Consistent s) (c : HaltCause) : Consistent (s.haltSite c) :=
  ⟨h.queued, h.held, h.sole, h.once, h.refill, h.forced, h.listed, h.cooled, h.away, h.closing, h.closingOnce, h.massed,
    h.registered, h.filed, h.closes, h.served⟩

/-- The site has been halted by an emergency stop. -/
structure SiteStopped (s u : State) (c : HaltCause) : Prop where
  site : u.site = { s.site with mode := .halted, haltCause := some c, working := none }
  told : Notice.siteHalted c ∈ u.outbox
  ended : ∀ p, (s.session p).running = true → EndsWith s u p .emergencyStop
  pending : u.sales.pendingSessions = s.sales.pendingSessions ++ fourIds.filter (fun p => (s.session p).running)
  records : u.sales.records = s.sales.records
  bank : ∀ b, u.bank b =
      { s.bank b with
        holder := (u.bank b).holder
        queue := []
        proofState := ((s.bank b).proof.map (·.before)).getD (s.bank b).proofState
        proof := none }
    ∧ (((s.bank b).holder = .refill → s.bm.refillInFlight = some b) → (u.bank b).holder = .free)
  ends : ∀ b, s.bm.refillInFlight = some b → Notice.refillStop b .aborted ∈ u.outbox ∧ u.bm.yieldTimer = none
    ∧ (s.Returns b → u.bm.refillList = s.bm.refillList ++ [b]) ∧ (¬s.Returns b → u.bm.refillList = s.bm.refillList)
  still : s.bm.refillInFlight = none → u.bm.refillList = s.bm.refillList
  flight : u.bm.refillInFlight = none
  designation : BanksAgree s → u.bm.designation = none
  cbu : u.cbu = { capacity := s.cbu.capacity, grants := [], queue := [] }
  demand : s.cbu.queue ≠ [] → Notice.coolingDemand 0 ∈ u.outbox
  slots : ∀ p, u.sales.slots.get p = none
  rest : Undisturbed { s with site := u.site, sales := { s.sales with slots := u.sales.slots } } u

theorem SiteStopped.untaken {f : Frame} (h : SiteStopped (s.taking f) u c) : SiteStopped s { u with ports := s.ports } c :=
  ⟨h.site, h.told, fun p run => (h.ended p run).untaken, h.pending, h.records, h.bank, h.ends, h.still, h.flight,
    fun agree => h.designation ⟨agree.proving, agree.before, agree.forced, agree.held, agree.opportunistic, agree.refill,
      agree.unawaited⟩, h.cbu, h.demand, h.slots, h.rest.untaken (f := f)⟩

/-- What is left of a stop once the banks are stopped. -/
theorem BanksStopped.halts (h : Consistent s) (banks : BanksStopped (s.haltSite c) t) :
    SiteStopped s (t.stopCooling.disarmAll).stopSessions c := by
  obtain ⟨session, bank, flight, ends, still, designation, data, rest, l, posts⟩ := banks
  have unclaimed : ∀ p, t.session p = s.unclaimedAs p := fun p => (session p).trans (unclaimedAs_congr rfl rfl)
  have cooling : t.cbu = s.cbu := (congrArg State.cbu rest :)
  have sales : t.sales = s.sales := (congrArg State.sales rest :)
  have site : t.site = { s.site with mode := .halted, haltCause := some c, working := none } := (congrArg State.site rest :)
  have monitors : t.monitors = s.monitors := (congrArg State.monitors rest :)
  have outbox : t.outbox = s.outbox ++ ([.siteHalted c] ++ l) := posts.trans (List.append_assoc _ _ _)
  rw [stopCooling_eq, cooling]
  let v : State :=
    { t with
      cbu := { capacity := s.cbu.capacity, grants := [], queue := [] }
      outbox := t.outbox ++ if s.cbu.queue = [] then [] else [.coolingDemand 0]
      sales := { t.sales with slots := Quad.fill none } }
  have quiet : v.Quiet := quiet_of_unclaimed h unclaimed rfl (congrArg SalesUnit.register sales :)
    (congrArg SalesUnit.closeQueue sales :)
  have k : EndInTurn v v.stopSessions .emergencyStop fourIds := stopSessions_inTurn quiet
  have posted : ∀ n ∈ t.outbox ++ (if s.cbu.queue = [] then [] else [.coolingDemand 0]), n ∈ v.stopSessions.outbox :=
    fun n m => k.steady.posts.mem m
  have ran : ∀ p, (v.session p).running = (s.session p).running := fun p =>
    (congrArg Session.running (unclaimed p)).trans (unclaimedAs_running s p)
  have running : (fun p => (v.session p).running) = fun p => (s.session p).running := funext ran
  have told : ∀ n ∈ [Notice.siteHalted c] ++ l, n ∈ v.stopSessions.outbox := fun n m =>
    posted n (List.mem_append_left _ (outbox ▸ List.mem_append_right _ m))
  have banks : ∀ b, v.stopSessions.bank b = t.bank b := fun b => congrArg (fun m : BankManager => m.banks.get b) k.bm
  have ended : ∀ p, v.endedAs p .emergencyStop = s.endedAs p .emergencyStop := fun p =>
    endedAs_unclaimed (t := v) (unclaimed p) (congrArg SiteControl.siteTime site :) (congrArg (fun m => m.get p) monitors :)
  have listed : ∀ p : PosId, p ∈ fourIds := by decide
  show SiteStopped s v.stopSessions c
  refine ⟨k.steady.site.trans site, told _ List.mem_cons_self, fun p run => ?_, ?_, ?_, fun b => ?_, fun b e => ?_, fun e => ?_,
    ?_, fun agree => ?_, k.cbu, fun waits => posted _ ?_, fun p => ?_, ?_⟩
  · obtain ⟨record, filed, shown⟩ := k.ended p (listed p) (ran p ▸ run)
    have reference : (v.session p).reference = (s.session p).reference :=
      (congrArg Session.reference (unclaimed p)).trans (unclaimedAs_kept s p).2.2
    have config : v.config = s.config := (congrArg SiteControl.config site :)
    rw [ended] at record
    rw [reference] at filed shown
    rw [config] at filed
    exact ⟨record, filed, shown⟩
  · exact running ▸ k.pending.trans (congrArg (fun u : SalesUnit => u.pendingSessions ++ _) sales :)
  · exact k.records.trans (congrArg SalesUnit.records sales :)
  · rw [banks b]
    exact bank b
  · obtain ⟨stopped, timer, back, stays⟩ := ends b e
    rw [k.bm]
    exact ⟨posted _ (List.mem_append_left _ stopped), timer, back, stays⟩
  · exact (congrArg BankManager.refillList k.bm).trans (still e)
  · exact (congrArg BankManager.refillInFlight k.bm).trans flight
  · refine (congrArg BankManager.designation k.bm).trans (designation ?_)
    exact ⟨agree.proving, agree.before, agree.forced, agree.held, agree.opportunistic, agree.refill, agree.unawaited⟩
  · rw [if_neg waits]
    exact List.mem_append_right _ List.mem_cons_self
  · rw [k.steady.slots]
    exact Quad.get_fill _ _
  · obtain ⟨pending, tenths, ports, siteKept, capacity, slots, tariff, fresh, ambient, reports, monitored, sessions, -, -⟩ :=
      k.steady.undisturbed
    obtain ⟨freshness, timer, outside⟩ := data
    refine ⟨?_, ?_, ?_, rfl, capacity, rfl, ?_, ?_, ?_, fun b => ?_, fun p => ?_, fun p massless => ?_, ?_, ?_⟩
    · exact pending.trans (congrArg State.pending rest :)
    · exact tenths.trans (congrArg State.tenths rest :)
    · exact ports.trans (congrArg State.ports rest :)
    · exact tariff.trans (congrArg SalesUnit.tariff sales :)
    · exact ⟨fresh.1.trans freshness, fresh.2.trans timer⟩
    · exact ambient.trans outside
    · exact (reports b).trans (congrArg Bank.report (bank b).1 :)
    · exact (monitored p).trans (congrArg (fun m : Quad Monitor => (m.get p).held) monitors :)
    · have none : (v.session p).finalMass = none :=
        (congrArg Session.finalMass (unclaimed p)).trans ((unclaimedAs_finalMass s p).trans massless)
      exact (sessions p none).trans ((congrArg Session.fixed (unclaimed p)).trans (unclaimedAs_kept s p).1)
    · obtain ⟨m, e⟩ := k.steady.posts
      refine ⟨[.siteHalted c] ++ l ++ (if s.cbu.queue = [] then [] else [.coolingDemand 0]) ++ m, e.symm.trans ?_⟩
      show t.outbox ++ _ ++ m = s.outbox ++ _
      rw [outbox]
      simp only [List.append_assoc]
    · exact ⟨[], (k.records.trans (congrArg SalesUnit.records sales :)).trans (List.append_nil _).symm⟩

theorem emergencyStop_stopped (h : Consistent s) (c : HaltCause) : SiteStopped s (s.emergencyStop c) c :=
  (stopBanks_stopped (Consistent.haltSite h c)).halts h

end State

/-- Settles O58: the banks stopped first (`State.stopBanks_stopped`), no session that then ends gives anything back, and
they end in their order (`State.stopSessions_inTurn`). -/
theorem emergencyStopHaltsTheSite : Obligations.EmergencyStopHaltsTheSite := by
  unfold Obligations.EmergencyStopHaltsTheSite
  intro q tag s port k answers cause returns
  have wellFormed : (Instr.emergencyStop q tag).wellFormed = true := by rcases port with rfl | rfl <;> rfl
  have answered : ∀ {t : State}, emergencyStopRequest q (s.taking (emergencyStopFrame q tag))
      = (t.taking (emergencyStopFrame q tag), ⟨.ok, []⟩) →
      exec (.emergencyStop q tag) s = .next (t.answered (emergencyStopFrame q tag) .ok []) := fun e =>
    exec_answers_of_wireForm (Laws.WireForm.emergencyStop q tag) wellFormed rfl k e
  refine ⟨fun idle => answered ?_, fun running h => ?_⟩
  · have mode : (s.taking (emergencyStopFrame q tag)).site.mode = s.site.mode := rfl
    unfold emergencyStopRequest
    rw [mode]
    rcases idle with e | e <;> rw [e] <;> rfl
  · have stopped := State.emergencyStop_stopped (h.taken (emergencyStopFrame q tag)) (haltCauseOf q)
    have step : emergencyStopRequest q (s.taking (emergencyStopFrame q tag))
        = done ((s.taking (emergencyStopFrame q tag)).emergencyStop (haltCauseOf q)) := by
      have mode : (s.taking (emergencyStopFrame q tag)).site.mode = s.site.mode := rfl
      unfold emergencyStopRequest
      rw [mode]
      rcases running with e | e <;> rw [e]
    have event := step.trans (congrArg (·, (⟨.ok, []⟩ : Reply)) (State.of_taking (s := s) stopped.rest.ports))
    generalize (s.taking (emergencyStopFrame q tag)).emergencyStop (haltCauseOf q) = u at stopped event
    obtain ⟨site, told, ended, pending, records, bank, ends, still, flight, designation, cbu, demand, slots, rest⟩ :=
      stopped.untaken
    refine ⟨_, answered event, site, told, ended, pending, records, bank, ends, still, flight, designation, cbu, demand,
      slots, rest⟩

end Sys2Proof.Machine
end

section
/-! SUPPORT. What a site reset does with the sessions and the sales (R151, R166). -/

namespace Sys2Proof.Machine

set_option Elab.async false

/-- A session at a reset: INTERRUPTED where it is open (R151). -/
def Session.interruptedIfOpen (x : Session) : Session :=
  if x.isOpen then { x with flags := { x.flags with interrupted := true } } else x

namespace State

variable {s t u : State} {p q : PosId} {r : EndReason} {l : List PosId}

/-! ### The sessions -/

/-- Those of a list of positions whose session ran have ended, without a place in the close queue. -/
structure ShownInTurn (s u : State) (r : EndReason) (l : List PosId) : Prop where
  ended : ∀ p ∈ l, (s.session p).running = true → u.session p = s.endedAs p r
  others : ∀ p, p ∉ l ∨ (s.session p).running = false → u.session p = s.session p
  rest : { u with outbox := s.outbox, sessions := s.sessions } = s
  posts : ∀ n ∈ s.outbox, n ∈ u.outbox

theorem ShownInTurn.nil : ShownInTurn s s r [] := ⟨fun _ m => (nomatch m), fun _ _ => rfl, rfl, fun _ => id⟩

theorem ShownInTurn.quiet (h : s.Quiet) (k : ShownInTurn s u r l) : u.Quiet := by
  have ended : ∀ p, u.session p = s.session p ∨ u.session p = { s.markedAs p r with cooling := .noCooling } := fun p => by
    by_cases m : p ∈ l
    · cases run : (s.session p).running with
      | false => exact .inl (k.others p (.inr run))
      | true => exact .inr ((k.ended p m run).trans (endedAs_unheld (h.bank p) (h.awaited p)))
    · exact .inl (k.others p (.inl m))
  have cbu : u.cbu = s.cbu := (congrArg State.cbu k.rest :)
  have sales : u.sales = s.sales := (congrArg State.sales k.rest :)
  refine ⟨fun p => ?_, fun p => ?_, cbu ▸ h.unlisted, fun p run => ?_, sales ▸ h.served⟩
  · rcases ended p with e | e <;> rw [e]
    · exact h.bank p
    · exact h.bank p
  · rcases ended p with e | e <;> rw [e]
    · exact h.awaited p
    · exact h.awaited p
  · rcases ended p with e | e <;> rw [e] at run ⊢
    · exact h.massless p run
    · exact nomatch run

theorem ShownInTurn.snoc (h : s.Quiet) (k : ShownInTurn s t .siteReset l) (n : q ∉ l) :
    ShownInTurn s (t.resetSession q) .siteReset (l ++ [q]) := by
  have same : t.session q = s.session q := k.others q (.inl n)
  have inner : ∀ p, p ∈ l ++ [q] → p ≠ q → p ∈ l := fun p m ne =>
    (List.mem_append.mp m).resolve_right fun c => ne (List.mem_singleton.mp c)
  unfold resetSession
  by_cases run : (s.session q).running = true
  · have site : t.site = s.site := (congrArg State.site k.rest :)
    have monitor : (t.monitor q).held = (s.monitor q).held := (congrArg (fun v : State => (v.monitor q).held) k.rest :)
    rw [if_pos (same ▸ run), endSteps_quiet (k.quiet h), h.endedAs_congr same site monitor]
    have other : ∀ p, p ≠ q → (t.shows q (s.endedAs q .siteReset)).session p = t.session p := fun p ne =>
      Quad.get_set_ne _ _ ne
    refine ⟨fun p m c => ?_, fun p away => ?_, ?_, fun m c => List.mem_append_left _ (k.posts m c)⟩
    · by_cases e : p = q
      · rw [e]
        exact shows_session _ _ _
      · exact (other p e).trans (k.ended p (inner p m e) c)
    · have ne : p ≠ q := by
        rintro rfl
        rcases away with m | stopped
        · exact m (List.mem_append_right _ List.mem_cons_self)
        · exact Bool.noConfusion (run.symm.trans stopped)
      exact (other p ne).trans (k.others p (away.imp_left fun m c => m (List.mem_append_left _ c)))
    · exact (congrArg (fun v : State => { v with outbox := s.outbox, sessions := s.sessions }) k.rest :)
  · rw [if_neg (same ▸ run)]
    exact ⟨fun p m c => k.ended p (inner p m fun e => run (e ▸ c)) c,
      fun p away => k.others p (away.imp_left fun m c => m (List.mem_append_left _ c)), k.rest, k.posts⟩

theorem interrupt_eq (s : State) (p : PosId) : s.interrupt p = s.modSession p Session.interruptedIfOpen := by
  rw [modSession_becomes]
  unfold interrupt Session.interruptedIfOpen
  by_cases o : (s.session p).isOpen = true
  · rw [if_pos o, if_pos o, modSession_becomes]
  · rw [if_neg o, if_neg o, becomes_self]

/-- The Fill Engines' part of a reset, with nothing claimed and nothing listed for cooling. -/
structure SessionsReset (s u : State) : Prop where
  session : ∀ p, u.session p
    = (if (s.session p).running = true then s.endedAs p .siteReset else s.session p).interruptedIfOpen
  rest : { u with outbox := s.outbox, sessions := s.sessions } = s
  posts : ∀ n ∈ s.outbox, n ∈ u.outbox

theorem resetSessions_reset (h : s.Quiet) : SessionsReset s s.resetSessions := by
  have shown : ShownInTurn s (inOrder (fun p s => s.resetSession p) s) .siteReset fourIds :=
    (((ShownInTurn.nil.snoc h (q := 0) (by decide)).snoc h (q := 1) (by decide)).snoc h (q := 2) (by decide)).snoc h
      (q := 3) (by decide)
  have whole : s.resetSessions = inOrder (fun p s => s.modSession p Session.interruptedIfOpen)
      (inOrder (fun p s => s.resetSession p) s) :=
    congrArg (fun f : PosId → State → State => inOrder f (inOrder (fun p s => s.resetSession p) s))
      (funext fun p => funext fun s => interrupt_eq s p)
  rw [whole]
  generalize inOrder (fun p (s : State) => s.resetSession p) s = t at shown
  refine ⟨fun p => ?_, ?_, fun n m => ?_⟩
  · rw [inOrder_session]
    cases run : (s.session p).running with
    | true => rw [if_pos rfl, shown.ended p (mem_fourIds p) run]
    | false => rw [if_neg Bool.false_ne_true, shown.others p (.inr run)]
  · exact (inOrder_session_keeps (fun v : State => { v with outbox := s.outbox, sessions := s.sessions }) _
      (fun _ _ => rfl) t).trans shown.rest
  · rw [inOrder_session_keeps State.outbox _ (fun _ _ => rfl) t]
    exact shown.posts n m

/-! ### The sales -/

end State

/-- What has been sold is told of the sessions committed, the records and the counter alone. -/
theorem Sold.of_same {s v u w : State} {l : List PosId} {sold : List SaleRecord} (h : Sold v u l sold)
    (sessions : ∀ p ∈ l, v.session p = s.session p) (config : v.config = s.config)
    (records : v.sales.records = s.sales.records) (counter : v.sales.counter = s.sales.counter)
    (sales : w.sales.records = u.sales.records ∧ w.sales.counter = u.sales.counter)
    (after : ∀ p ∈ l, w.session p = u.session p) (posts : ∀ n ∈ u.outbox, n ∈ w.outbox) : Sold s w l sold where
  records := by rw [sales.1, ← records]; exact h.records
  positions := h.positions
  sells r m := (h.sells r m).of_session (sessions _ (h.positions ▸ List.mem_map_of_mem m)) config
  sequences := counter ▸ h.sequences
  counter := by rw [sales.2, ← counter]; exact h.counter
  ready i m := posts _ (records ▸ h.ready i m)
  mismatches r m e := posts _ (h.mismatches r m e)
  shown p m := posts _ (sessions p m ▸ h.shown p m)
  idle p m := (after p m).trans (h.idle p m)

namespace State

variable {s t u : State} {p q : PosId} {l : List PosId}

theorem commit_blocks (s : State) (p : PosId) : SameBlocks s (s.commit p) := by
  have sales := commit_sales s p
  exact ⟨commit_rest s p, (congrArg SalesUnit.slots sales :), (congrArg SalesUnit.tariff sales :)⟩

/-- Sessions committed one after another. -/
theorem commits_sold (l : List PosId) (s : State) (once : l.Nodup) :
    (∃ sold, Sold s (l.foldl State.commit s) l sold) ∧ SameBlocks s (l.foldl State.commit s)
      ∧ ∀ n ∈ s.outbox, n ∈ (l.foldl State.commit s).outbox := by
  induction l generalizing s with
  | nil => exact ⟨⟨[], Sold.nil rfl rfl⟩, ⟨rfl, rfl, rfl⟩, fun _ => id⟩
  | cons p l ih =>
    obtain ⟨apart, once⟩ := List.nodup_cons.mp once
    obtain ⟨⟨sold, sells⟩, blocks, posts⟩ := ih (s.commit p) once
    have committed := commit_committed s p
    have untouched : (l.foldl State.commit (s.commit p)).session p = (s.commit p).session p := by
      rw [commits_session, if_neg apart]
    exact ⟨⟨_, Sold.cons committed sells apart posts untouched⟩, (commit_blocks s p).trans blocks,
      fun n m => posts n (committed.posts n m)⟩

/-- The Sales Unit's part of a reset (R166). -/
structure SalesReset (s u : State) (l : List PosId) : Prop where
  sold : ∃ sold, Sold s u l sold
  others : ∀ p, p ∉ l → u.session p = s.session p
  ready : u.sales.records ≠ [] → Notice.recordReady u.sales.records.length ∈ u.outbox
  closed : u.sales.closeQueue = [] ∧ u.sales.register = none ∧ u.sales.closingTimer = none
  slots : ∀ p, u.sales.slots.get p = none
  tariff : u.sales.tariff = s.sales.tariff
  rest : { u with outbox := s.outbox, sessions := s.sessions, sales := s.sales } = s
  posts : ∀ n ∈ s.outbox, n ∈ u.outbox

theorem postHeld_eq (s : State) : s.postHeld =
    { s with outbox := s.outbox ++ if s.sales.records = [] then [] else [.recordReady s.sales.records.length] } := by
  unfold postHeld
  cases e : s.sales.records with
  | nil => exact (congrArg (fun o => { s with outbox := o }) (List.append_nil s.outbox).symm :)
  | cons r rs => exact (congrArg (fun n => s.post (.recordReady n)) rfl :)

theorem resetSales_reset (s : State) (once : l.Nodup) : SalesReset s (s.resetSales l) l := by
  obtain ⟨⟨sold, sells⟩, ⟨rest, slots, tariff⟩, posts⟩ := commits_sold l s.disarmAll once
  have session := fun p => commits_session l s.disarmAll p
  have whole : s.resetSales l = ((l.foldl State.commit s.disarmAll).modSales SalesUnit.closed).postHeld := rfl
  rw [whole, postHeld_eq]
  generalize l.foldl State.commit s.disarmAll = t at sells rest slots tariff posts session
  refine ⟨⟨sold, ?_⟩, fun p m => ?_, fun held => ?_, ⟨rfl, rfl, rfl⟩, fun p => ?_, tariff, ?_,
    fun n m => List.mem_append_left _ (posts n m)⟩
  · exact sells.of_same (fun _ _ => rfl) rfl rfl rfl ⟨rfl, rfl⟩ (fun _ _ => rfl) fun n m => List.mem_append_left _ m
  · exact (session p).trans (if_neg m)
  · exact List.mem_append_right _ (by rw [if_neg held]; exact List.mem_cons_self)
  · exact (congrArg (fun m : Quad (Option _) => m.get p) slots).trans (Quad.get_fill _ _)
  · exact (congrArg (fun v : State => { v with sales := s.sales }) rest :)

end State

end Sys2Proof.Machine
end

section
/-! SUPPORT. SITE RESET (R15, R24, R68, R85, R100, R151, R160, R166). -/

namespace Sys2Proof.Machine

set_option Elab.async false

namespace State

variable {s t u : State} {p q : PosId} {b : BankId}

/-- Every overdue flag is cleared (R85, step 3). -/
def notOverdue (s : State) : State := inOrder (fun b s => s.modBank b fun x => { x with overdue := false }) s

theorem notOverdue_bank (s : State) (b : BankId) : s.notOverdue.bank b = { s.bank b with overdue := false } :=
  inOrder_bank _ s b

theorem notOverdue_rest (s : State) : { s.notOverdue with bm := s.bm } = s :=
  inOrder_bank_keeps (fun t : State => { t with bm := s.bm }) _ (fun _ _ => rfl) s

theorem notOverdue_bm (s : State) : { s.notOverdue.bm with banks := s.bm.banks } = s.bm :=
  inOrder_bank_keeps (fun t : State => { t.bm with banks := s.bm.banks }) _ (fun _ _ => rfl) s

/-- The sessions that a reset commits, as it commits them. -/
def resetAs (s : State) (p : PosId) : Session :=
  let x := if (s.session p).running = true then s.endedAs p .siteReset else s.session p
  { x with flags := { x.flags with interrupted := true } }

/-- The state whose sessions are as a reset commits them. -/
def atCommit (s : State) : State := { s with sessions := ⟨s.resetAs 0, s.resetAs 1, s.resetAs 2, s.resetAs 3⟩ }

/-- The site has been reset. -/
structure SiteIsReset (s u : State) : Prop where
  ports : u.ports = s.resetPorts.ports
  site : u.site = { s.site with mode := .serving, haltCause := none, working := none }
  sold : ∃ sold, Sold s.atCommit u s.resetOrder sold
  others : ∀ p, p ∉ s.resetOrder → u.session p = s.session p
  ready : u.sales.records ≠ [] → Notice.recordReady u.sales.records.length ∈ u.outbox
  closed : u.sales.closeQueue = [] ∧ u.sales.register = none ∧ u.sales.closingTimer = none
  slots : ∀ p, u.sales.slots.get p = none
  tariff : u.sales.tariff = s.sales.tariff
  cbu : u.cbu = { capacity := s.cbu.capacity, grants := [], queue := [] }
  demand : Notice.coolingDemand 0 ∈ u.outbox
  bank : ∀ b, u.bank b =
      { s.bank b with
        holder := (u.bank b).holder
        queue := []
        proofState := ((s.bank b).proof.map (·.before)).getD (s.bank b).proofState
        proof := none
        overdue := false }
    ∧ (((s.bank b).holder = .refill → s.bm.refillInFlight = some b) → (u.bank b).holder = .free)
  ends : ∀ b, s.bm.refillInFlight = some b → Notice.refillStop b .aborted ∈ u.outbox ∧ u.bm.yieldTimer = none
    ∧ (s.Returns b → u.bm.refillList = s.bm.refillList ++ [b]) ∧ (¬s.Returns b → u.bm.refillList = s.bm.refillList)
  still : s.bm.refillInFlight = none → u.bm.refillList = s.bm.refillList
  flight : u.bm.refillInFlight = none
  designation : BanksAgree s → u.bm.designation = none
  data : u.bm.freshness = s.bm.freshness ∧ u.bm.freshnessTimer = s.bm.freshnessTimer ∧ u.bm.ambient = s.bm.ambient
  monitors : u.monitors = s.monitors

theorem atCommit_session (s : State) : ∀ p, s.atCommit.session p = s.resetAs p
  | 0 => rfl
  | 1 => rfl
  | 2 => rfl
  | 3 => rfl

theorem resetOrder_nodup (h : Consistent s) : s.resetOrder.Nodup :=
  List.Nodup.append h.closingOnce (List.Nodup.filter _ (by decide)) fun p m k =>
    Session.running_state (List.mem_filter.mp k).2 (h.closing p m)

theorem mem_resetOrder (h : Consistent s) (p : PosId) : p ∈ s.resetOrder ↔ (s.session p).isOpen = true := by
  refine ⟨fun m => ?_, fun o => open_resetOrder h.bare id o⟩
  rcases List.mem_append.mp m with m | m
  · exact Session.closed_open (h.closing p m)
  · exact Session.running_open (List.mem_filter.mp m).2

/-- A session that neither runs nor is committed is IDLE, and a reset leaves it alone. -/
theorem not_running_of_not_mem (h : Consistent s) (m : p ∉ s.resetOrder) : (s.session p).running = false :=
  Bool.eq_false_iff.mpr fun run => m ((mem_resetOrder h p).mpr (Session.running_open run))

theorem resetAs_eq (o : (s.session p).isOpen = true) :
    (if (s.session p).running = true then s.endedAs p .siteReset else s.session p).interruptedIfOpen = s.resetAs p := by
  have still : (if (s.session p).running = true then s.endedAs p .siteReset else s.session p).isOpen = true := by
    split
    · refine Session.closed_open (.inl ?_)
      unfold endedAs
      cases (s.session p).bank <;> rfl
    · exact o
  exact if_pos still

/-- What is left of a reset once the banks are stopped. -/
theorem BanksStopped.resets (h : Consistent s) (banks : BanksStopped s.resetSite.resetPorts t) :
    SiteIsReset s (t.notOverdue.resetCooling.resetSessions.resetSales s.resetOrder) := by
  obtain ⟨session, bank, flight, ends, still, designation, data, rest, l, posts⟩ := banks
  have noted := t.notOverdue_rest
  have cleared := t.notOverdue_bank
  have manager := t.notOverdue_bm
  generalize t.notOverdue = x at noted cleared manager
  let w : State := x.resetCooling
  have unclaimed : ∀ p, w.session p = s.unclaimedAs p := fun p =>
    (congrArg (fun v : State => v.session p) noted :).trans ((session p).trans (unclaimedAs_congr rfl rfl))
  have whole : { x with bm := s.bm, outbox := s.outbox, sessions := s.sessions } = s.resetSite.resetPorts :=
    (congrArg (fun v : State => { v with bm := s.bm, outbox := s.outbox, sessions := s.sessions }) noted :).trans rest
  have sales : w.sales = s.sales := (congrArg State.sales whole :)
  have site : w.site = { s.site with mode := .serving, haltCause := none, working := none } :=
    (congrArg State.site whole :)
  have monitors : w.monitors = s.monitors := (congrArg State.monitors whole :)
  have cooling : w.cbu = { capacity := s.cbu.capacity, grants := [], queue := [] } :=
    (congrArg (fun v : State => ({ capacity := v.cbu.capacity, grants := [], queue := [] } : CoolingUnit)) whole :)
  have quiet : w.Quiet := quiet_of_unclaimed h unclaimed rfl (congrArg SalesUnit.register sales :)
    (congrArg SalesUnit.closeQueue sales :)
  have outbox : x.outbox = t.outbox := (congrArg State.outbox noted :)
  have reset : SessionsReset w w.resetSessions := resetSessions_reset quiet
  have ended : ∀ p, w.resetSessions.session p
      = (if (s.session p).running = true then s.endedAs p .siteReset else s.session p).interruptedIfOpen := fun p => by
    rw [reset.session p, unclaimed p, unclaimedAs_running]
    cases run : (s.session p).running with
    | true => rw [if_pos rfl, if_pos rfl, endedAs_unclaimed (unclaimed p) (congrArg SiteControl.siteTime site :) (congrArg (fun m => m.get p) monitors :)]
    | false => rw [if_neg Bool.false_ne_true, if_neg Bool.false_ne_true, unclaimedAs_away h run]
  have committed := resetSales_reset w.resetSessions (resetOrder_nodup h)
  show SiteIsReset s (w.resetSessions.resetSales s.resetOrder)
  generalize w.resetSessions = v at reset ended committed
  obtain ⟨⟨sold, sells⟩, others, ready, closed, slots, tariff, kept, told⟩ := committed
  generalize v.resetSales s.resetOrder = u at sells others ready closed slots tariff kept told
  have same : { u with outbox := s.outbox, sessions := s.sessions, sales := s.sales }
      = { w with outbox := s.outbox, sessions := s.sessions, sales := s.sales } :=
    (congrArg (fun v : State => { v with outbox := s.outbox, sessions := s.sessions, sales := s.sales }) kept :).trans
      (congrArg (fun v : State => { v with outbox := s.outbox, sessions := s.sessions, sales := s.sales }) reset.rest :)
  have bm : u.bm = x.bm := (congrArg State.bm same :)
  have posted : ∀ n ∈ t.outbox ++ [.coolingDemand 0], n ∈ u.outbox := fun n m =>
    told n (reset.posts n (show n ∈ x.outbox ++ _ from outbox ▸ m))
  have sold_from : v.sales = s.sales := (congrArg State.sales reset.rest :).trans sales
  have config : v.config = s.config := (congrArg State.config reset.rest :).trans (congrArg SiteControl.config site :)
  have list : u.bm.refillList = t.bm.refillList := (congrArg BankManager.refillList bm).trans
    (congrArg BankManager.refillList manager :)
  have ports : u.ports = s.resetPorts.ports := (congrArg State.ports same :).trans (congrArg State.ports whole :)
  refine ⟨ports, (congrArg State.site same :).trans site, ⟨sold, ?_⟩, fun p m => ?_, ready, closed, slots,
    tariff.trans (congrArg SalesUnit.tariff sold_from), (congrArg State.cbu same :).trans cooling,
    posted _ (List.mem_append_right _ List.mem_cons_self), fun b => ?_, fun b e => ?_,
    fun e => list.trans (still e), ?_, fun agree => ?_, ?_, (congrArg State.monitors same :).trans monitors⟩
  · refine sells.of_same (fun p m => ?_) config (congrArg SalesUnit.records sold_from) (congrArg SalesUnit.counter sold_from)
      ⟨rfl, rfl⟩ (fun _ _ => rfl) fun _ => id
    rw [atCommit_session, ended]
    exact resetAs_eq ((mem_resetOrder h p).mp m)
  · have away := not_running_of_not_mem h m
    rw [others p m, ended, if_neg (by rw [away]; exact Bool.false_ne_true)]
    exact if_neg fun o => m ((mem_resetOrder h p).mpr o)
  · have now : u.bank b = { t.bank b with overdue := false } :=
      (congrArg (fun m : BankManager => m.banks.get b) bm).trans (cleared b)
    obtain ⟨record, free⟩ := bank b
    rw [now]
    exact ⟨congrArg (fun y : Bank => { y with overdue := false }) record, free⟩
  · obtain ⟨stopped, timer, back, stays⟩ := ends b e
    rw [list]
    exact ⟨posted _ (List.mem_append_left _ stopped),
      ((congrArg BankManager.yieldTimer bm).trans (congrArg BankManager.yieldTimer manager :)).trans timer, back, stays⟩
  · exact (congrArg BankManager.refillInFlight bm).trans ((congrArg BankManager.refillInFlight manager :).trans flight)
  · refine (congrArg BankManager.designation bm).trans ((congrArg BankManager.designation manager :).trans (designation ?_))
    exact ⟨agree.proving, agree.before, agree.forced, agree.held, agree.opportunistic, agree.refill, agree.unawaited⟩
  · obtain ⟨freshness, timer, ambient⟩ := data
    exact ⟨(congrArg BankManager.freshness bm).trans ((congrArg BankManager.freshness manager :).trans freshness),
      (congrArg BankManager.freshnessTimer bm).trans ((congrArg BankManager.freshnessTimer manager :).trans timer),
      (congrArg BankManager.ambient bm).trans ((congrArg BankManager.ambient manager :).trans ambient)⟩

theorem siteReset_resets (h : Consistent s) : SiteIsReset s s.siteReset :=
  have agrees : Consistent s.resetSite.resetPorts := (resetPorts_linked (resetSite_linked h.bare)).consistent
  (stopBanks_stopped agrees).resets h

/-! ### The ports -/

theorem resetPorts_taking (s : State) (f : Frame) : (s.taking f).resetPorts = s.resetPorts.taking f := by
  refine ext_ports rfl fun q => ?_
  have exchanging : ∀ x : Port, Port.atReset q { x with exchange := .taking } = { Port.atReset q x with exchange := .taking } :=
    fun x => by
      unfold Port.atReset
      split <;> rfl
  show ((s.ports.set f.port _).map Port.atReset).get q = ((s.ports.map Port.atReset).set f.port _).get q
  rw [Ports.get_map, Ports.get_set, Ports.get_set]
  split
  · rename_i e
    rw [← e, exchanging]
    have reached : s.resetPorts.ports.get q = Port.atReset q (s.ports.get q) := Ports.get_map _ _ _
    rw [reached]
  · rw [Ports.get_map]

theorem SiteIsReset.untaken {f : Frame} (h : SiteIsReset (s.taking f) u) :
    SiteIsReset s { u with ports := s.resetPorts.ports } := by
  obtain ⟨-, site, ⟨sold, sells⟩, others, ready, closed, slots, tariff, cbu, demand, bank, ends, still, flight, designation,
    data, monitors⟩ := h
  exact ⟨rfl, site, ⟨sold, sells.of_same (fun _ _ => rfl) rfl rfl rfl ⟨rfl, rfl⟩ (fun _ _ => rfl) fun _ => id⟩, others,
    ready, closed, slots, tariff, cbu, demand, bank, ends, still, flight,
    fun agree => designation ⟨agree.proving, agree.before, agree.forced, agree.held, agree.opportunistic, agree.refill,
      agree.unawaited⟩, data, monitors⟩

end State

/-- Settles O59: the banks stopped first (`State.stopBanks_stopped`), the sessions end without a place in the close queue
(`State.resetSessions_reset`), and all that are open are committed in their order (`State.commits_sold`). -/
theorem siteResetClearsEveryBlock : Obligations.SiteResetClearsEveryBlock := by
  unfold Obligations.SiteResetClearsEveryBlock
  intro tag s k answers order ended marked returns
  have answered : ∀ {t : State} {c : Code}, siteResetRequest (s.taking (siteResetFrame tag))
      = (t.taking (siteResetFrame tag), ⟨c, []⟩) →
      exec (.siteReset tag) s = .next (t.answered (siteResetFrame tag) c []) := fun e =>
    exec_answers_of_wireForm (Laws.WireForm.siteReset tag) rfl rfl k e
  refine ⟨fun unset => answered (if_pos unset), fun set h => ?_⟩
  have reset := State.siteReset_resets (h.taken (siteResetFrame tag))
  have ports := reset.ports.trans (congrArg State.ports (State.resetPorts_taking s (siteResetFrame tag)))
  have event : siteResetRequest (s.taking (siteResetFrame tag)) = done (s.taking (siteResetFrame tag)).siteReset := if_neg set
  have step := event.trans (congrArg (·, (⟨.ok, []⟩ : Reply)) (State.of_taking (s := s.resetPorts) ports))
  generalize (s.taking (siteResetFrame tag)).siteReset = u at reset step
  obtain ⟨-, site, sold, others, ready, ⟨queue, register, timer⟩, slots, tariff, cbu, demand, bank, ends,
    still, flight, designation, ⟨freshness, since, ambient⟩, monitors⟩ := reset.untaken
  exact ⟨_, answered step, site, fun q => Ports.get_map _ _ _, sold, others, ready, queue, register, timer, slots, tariff,
    cbu, demand, bank, ends, still, flight, designation, freshness, since, ambient, monitors⟩

end Sys2Proof.Machine
end

section
/-! SUPPORT. The refill list and the refill in flight through the claims, grants, holds and ends of an event: the list only
grows, and a refill ends only because the compressor yields its bank (R69, R73, R74). -/

namespace Sys2Proof.Machine

set_option Elab.async false

/-- What an event does to the refill list and to the refill in flight before it looks at the refills itself. -/
structure Refills (s t : State) : Prop where
  posts : s.outbox <+: t.outbox
  list : s.bm.refillList <+: t.bm.refillList
  agree : BanksAgree s → BanksAgree t
  flight : BanksAgree s → t.bm.refillInFlight = s.bm.refillInFlight
    ∨ t.bm.refillInFlight = none ∧ ∀ b, s.bm.refillInFlight = some b → Notice.refillStop b .yield ∈ t.outbox

namespace Refills

variable {s t u : State}

theorem refl (s : State) : Refills s s := ⟨List.prefix_refl _, List.prefix_refl _, id, fun _ => .inl rfl⟩

theorem trans (h : Refills s t) (k : Refills t u) : Refills s u where
  posts := h.posts.trans k.posts
  list := h.list.trans k.list
  agree := k.agree ∘ h.agree
  flight a := by
    rcases h.flight a with e | ⟨e, told⟩
    · rcases k.flight (h.agree a) with d | ⟨d, later⟩
      · exact .inl (d.trans e)
      · exact .inr ⟨d, e ▸ later⟩
    · refine .inr ⟨?_, fun b m => k.posts.mem (told b m)⟩
      rcases k.flight (h.agree a) with d | ⟨d, -⟩
      · exact d.trans e
      · exact d

theorem ite {c : Prop} [Decidable c] (h : c → Refills s t) (k : ¬c → Refills s u) : Refills s (if c then t else u) := by
  split
  · exact h ‹_›
  · exact k ‹_›

/-- What leaves the refill list and the refill in flight as they are. -/
theorem kept (list : t.bm.refillList = s.bm.refillList) (flight : t.bm.refillInFlight = s.bm.refillInFlight)
    (agree : BanksAgree s → BanksAgree t) (posts : s.outbox <+: t.outbox := by exact List.prefix_refl _) : Refills s t :=
  ⟨posts, by rw [list], agree, fun _ => .inl flight⟩

/-- What leaves the Bank Manager as it is. -/
theorem same (h : t.bm = s.bm) (posts : s.outbox <+: t.outbox := by exact List.prefix_refl _) : Refills s t :=
  kept (by rw [h]) (by rw [h]) (fun a => a.of_bm h) posts

theorem session {p : PosId} {g : Session → Session} (k : Refills s t) : Refills s (t.modSession p g) := k.trans (.same rfl)

theorem monitor {p : PosId} {g : Monitor → Monitor} (k : Refills s t) : Refills s (t.modMonitor p g) := k.trans (.same rfl)

theorem cbu {g : CoolingUnit → CoolingUnit} (k : Refills s t) : Refills s (t.modCbu g) := k.trans (.same rfl)

theorem sales {g : SalesUnit → SalesUnit} (k : Refills s t) : Refills s (t.modSales g) := k.trans (.same rfl)

theorem posted {n : Notice} (k : Refills s t) : Refills s (t.post n) := k.trans (.same rfl (List.prefix_append _ _))

theorem shown {p : PosId} (k : Refills s t) : Refills s (t.postSession p) := k.posted

end Refills

namespace State

variable (s : State) (b : BankId) (p : PosId)

/-- What is kept of refills. -/
def refills : List BankId × Option BankId := (s.bm.refillList, s.bm.refillInFlight)

theorem refills_ite {c : Prop} [Decidable c] {t u : State} (h : t.refills = s.refills) (k : u.refills = s.refills) :
    (if c then t else u).refills = s.refills := by
  split
  · exact h
  · exact k

variable {s} in
theorem refills_of {t : State} (h : t.refills = s.refills) (agree : BanksAgree s → BanksAgree t)
    (posts : s.outbox <+: t.outbox) : Refills s t :=
  .kept (congrArg Prod.fst h) (congrArg Prod.snd h) agree posts

/-! ### What leaves the refills alone -/

theorem forcedExamination_refills : s.forcedExamination.refills = s.refills := by
  unfold forcedExamination
  refine refills_ite s ?_ rfl
  cases s.longestOverdue with
  | none => rfl
  | some b => exact refills_ite s (refills_ite s rfl rfl) rfl

theorem opportunisticExamination_refills : (s.opportunisticExamination b).refills = s.refills := refills_ite s rfl rfl

theorem becameFree_refills : (s.becameFree b).refills = s.refills :=
  (opportunisticExamination_refills _ b).trans (forcedExamination_refills s)

theorem abandonProof_refills : (s.abandonProof b).refills = s.refills := by
  unfold abandonProof
  split <;> rfl

theorem takeBank_refills : (s.takeBank b p).refills = s.refills := abandonProof_refills s b

theorem joinQueue_refills : (s.joinQueue b p).refills = s.refills := refills_ite s rfl rfl

theorem settleYield_refills : s.settleYield.refills = s.refills := by
  unfold settleYield
  split
  · exact refills_ite s rfl rfl
  · rfl

theorem leaveQueue_refills : (s.leaveQueue p).refills = s.refills := by
  unfold leaveQueue
  split
  · rfl
  · exact settleYield_refills _

theorem claimGranted_refills : (s.claimGranted b p).refills = s.refills := by
  unfold refills
  rw [claimGranted_bm]

theorem handOff_refills : (s.handOff b).refills = s.refills := by
  unfold handOff
  split
  · rfl
  · exact claimGranted_refills _ b _

theorem handOn_refills : (s.handOn b).refills = s.refills :=
  refills_ite s ((becameFree_refills _ b).trans (handOff_refills s b)) (handOff_refills s b)

theorem releaseClaim_refills : (s.releaseClaim p).refills = s.refills := by
  unfold releaseClaim
  split
  · rfl
  · rename_i b _
    exact refills_ite s (handOn_refills _ b) rfl

/-! ### The Bank Manager's part of a claim -/

theorem enterRefillList_list : s.bm.refillList <+: (s.enterRefillList b).bm.refillList := by
  unfold enterRefillList
  split
  · exact List.prefix_refl _
  · exact List.prefix_append _ _

/-- A refill in flight ends because the compressor yields its bank. -/
theorem endRefill_refills (held : (s.bank b).holder = .refill) : Refills s (s.endRefill b .yield) := by
  let t : State := s.modBm fun m => { m with refillInFlight := none, yieldTimer := none }
  have handed := handOff_refills t b
  have relisted : ((t.handOff b).post (.refillStop b .yield)).bm.refillList <+: (s.refillEnds b .yield).bm.refillList
      ∧ (s.refillEnds b .yield).bm.refillInFlight = (t.handOff b).bm.refillInFlight := by
    show _ <+: (State.relist _ b).bm.refillList ∧ (State.relist _ b).bm.refillInFlight = _
    unfold relist
    split
    · exact ⟨enterRefillList_list _ b, by unfold enterRefillList; split <;> rfl⟩
    · exact ⟨List.prefix_refl _, rfl⟩
  have last : (s.endRefill b .yield).refills = (s.refillEnds b .yield).refills :=
    refills_ite _ (becameFree_refills _ b) rfl
  have told : Notice.refillStop b .yield ∈ (s.endRefill b .yield).outbox := by
    obtain ⟨-, -, told, -⟩ := s.endRefill_ended b .yield
    exact told
  refine ⟨(endRefill_steady s b .yield).posts, ?_, fun a => endRefill_agree a held _, fun a => .inr ⟨?_, fun c e => ?_⟩⟩
  · rw [show (s.endRefill b .yield).bm.refillList = _ from congrArg Prod.fst last]
    have kept : (t.handOff b).bm.refillList = s.bm.refillList := congrArg Prod.fst handed
    exact kept ▸ relisted.1
  · exact (congrArg Prod.snd last).trans (relisted.2.trans (congrArg Prod.snd handed))
  · have mine : s.bm.refillInFlight = some b := (a.refill b).mp held
    rw [← Option.some.inj (mine.symm.trans e)]
    exact told

theorem joinQueue_posts : s.outbox <+: (s.joinQueue b p).outbox := by
  unfold joinQueue
  dsimp only
  split <;> exact List.prefix_refl _

theorem claimGranted_refilling : Refills s (s.claimGranted b p) :=
  .same (claimGranted_bm s b p) (claimGranted_steady s b p).posts

theorem claim_refills : Refills s (s.claim b p) := by
  unfold claim claimRequest
  by_cases held : s.holdsOrWaits p = true
  · rw [if_pos held]
    exact .refl s
  · rw [if_neg held]
    by_cases served : (!s.usable b p) = true
    · rw [if_pos served]
      exact .refl s
    · rw [if_neg served]
      have take : (s.bank b).holder ≠ .refill → Refills s ((s.takeBank b p).claimGranted b p) := fun n =>
        (refills_of (takeBank_refills s b p)
          (fun a => takeBank_agree a b p fun e => n ((a.refill b).mpr e)) (abandonProof_steady s b).posts).trans
          (claimGranted_refilling _ b p)
      have wait : (s.bank b).holder ≠ .free → (s.bank b).holder ≠ .proof → ∀ w,
          Refills s (((s.joinQueue b p).awaitBank b p).yieldAtOnce b w) := fun free proof w => by
        have waits : Refills s ((s.joinQueue b p).awaitBank b p) :=
          (refills_of (joinQueue_refills s b p) (fun a => joinQueue_agree a b p free proof)
            (joinQueue_posts s b p)).trans (.same rfl)
        exact waits.trans (.ite (fun c => endRefill_refills _ b c.2.1) fun _ => .refl _)
      cases o : (s.bank b).holder with
      | free => exact take (by rw [o]; nofun)
      | proof => exact take (by rw [o]; nofun)
      | position q => exact wait (by rw [o]; nofun) (by rw [o]; nofun) _
      | refill => exact wait (by rw [o]; nofun) (by rw [o]; nofun) _

end State

/-! ### The cascade of one event -/

/-- An ender that leaves the refills so. -/
def Ender.Refilling (endK : Ender) : Prop := ∀ p r s, Refills s (endK p r s)

namespace State

section
variable {endK : Ender} (hE : endK.Refilling) (s : State) (p : PosId)
include hE

theorem selectBank_refills : Refills s (s.selectBank endK p) := by
  unfold selectBank
  refine .ite (fun _ => .same rfl) fun _ => ?_
  split
  · exact claim_refills _ _ _
  · exact hE _ _ _

theorem claimAndSelect_refills : Refills s (((s.enterClaim p).postSession p).selectBank endK p) :=
  ((Refills.refl s).session.shown).trans (selectBank_refills hE _ p)

theorem leaveOpening_refills : Refills s (s.leaveOpening endK p) :=
  ((Refills.refl s).session.monitor).trans
    (.ite (fun _ => claimAndSelect_refills hE _ p) fun _ => (Refills.refl _).session.shown)

theorem reconnect_refills : Refills s (s.reconnect endK p) :=
  (Refills.refl s).session.trans (claimAndSelect_refills hE _ p)

omit hE in
theorem beginConnect_refills : Refills s (s.beginConnect p) :=
  .same (beginConnect_bm s p) (beginConnect_steady s p).posts

omit hE in
theorem beginSettle_refills : Refills s (s.beginSettle p) :=
  .same (beginSettle_bm s p) (beginSettle_steady s p).posts

theorem resumeConnection_refills (f : Phase) : Refills s (s.resumeConnection endK p f) := by
  have back : Refills s (((s.modSession p fun x => { x with resumePoint := none }).enterClaim p).postSession p) :=
    (Refills.refl s).session.session.shown
  unfold resumeConnection
  cases f
  · exact back.trans (selectBank_refills hE _ p)
  · exact back.trans (beginConnect_refills _ p)
  · exact back.trans (.same rfl)
  · exact back.trans (beginSettle_refills _ p)

theorem resume_refills : Refills s (s.resume endK p) := by
  have left : Refills s (s.modSession p fun x => x.leaveHold (s.profileOf p).holdLimit) := (Refills.refl s).session
  unfold resume
  refine left.trans ?_
  dsimp only
  split
  · exact resumeConnection_refills hE _ p _
  · exact .ite (fun _ => .same (enterDelivering_bm _ p) (enterDelivering_steady _ p).posts) fun _ =>
      reconnect_refills hE _ p

theorem clearFactor_refills (f : Factor) : Refills s (s.clearFactor endK p f) := by
  have start : ∀ t : State, Refills t (t.startResume endK p) := fun t =>
    .ite (fun _ => resume_refills hE t p) fun _ => (Refills.refl t).session
  have put : Refills s (s.modSession p fun x => { x with factors := x.factors.put f false }) := (Refills.refl s).session
  exact .ite (fun _ => put.trans (.ite (fun _ => start _) fun _ => .refl _)) fun _ => .refl s

theorem coolingGranted_refills : Refills s (s.coolingGranted endK p) := by
  have told : Refills s (s.modSession p fun x => { x with cooling := .granted }) := (Refills.refl s).session
  exact told.trans (.ite (fun _ => leaveOpening_refills hE _ p) fun _ => clearFactor_refills hE _ p _)

theorem grantFromHead_refills (n : Nat) : Refills s (grantFromHead endK n s) := by
  induction n generalizing s with
  | zero => exact .refl s
  | succ n ih =>
    unfold grantFromHead
    split
    · exact .refl s
    · rename_i w rest _
      have granted : Refills s (s.grantHead w rest) := (Refills.refl s).cbu.cbu.posted
      exact .ite (fun _ => .refl s) fun _ => (granted.trans (coolingGranted_refills hE _ _)).trans (ih _)

theorem grantWaiters_refills : Refills s (s.grantWaiters endK) := grantFromHead_refills hE s _

theorem leaveCooling_refills : Refills s (s.leaveCooling endK p) := by
  unfold leaveCooling
  refine .ite (fun _ => ?_) fun _ => .ite (fun _ => ?_) fun _ => .refl s
  · exact (Refills.refl s).cbu.trans (grantWaiters_refills hE _)
  · exact (Refills.refl s).cbu.posted.trans (grantWaiters_refills hE _)

omit hE in
theorem releaseClaim_refilling : Refills s (s.releaseClaim p) :=
  refills_of (releaseClaim_refills s p) (fun a => releaseClaim_agree a p) (releaseClaim_steady s p).posts

omit hE in
theorem leaveQueue_refilling : Refills s (s.leaveQueue p) :=
  refills_of (leaveQueue_refills s p) (fun a => leaveQueue_agree a p) (leaveQueue_steady s p).posts

theorem endSteps_refills (r : EndReason) : Refills s (s.endSteps endK p r) := by
  have marked : Refills s (s.modSession p fun x => x.markEnded r s.site.siteTime (s.endingNozzle p)) :=
    (Refills.refl s).session
  unfold endSteps
  exact ((((marked.trans (releaseClaim_refilling _ p)).trans (leaveQueue_refilling _ p)).trans
    (leaveCooling_refills hE _ p)).session).shown

end

theorem commit_bm (s : State) (p : PosId) : (s.commit p).bm = s.bm := (congrArg State.bm (commit_rest s p) :)

theorem serveRegister_bm (n : Nat) (s : State) : (serveRegister n s).bm = s.bm := by
  induction n generalizing s with
  | zero => rfl
  | succ n ih =>
    unfold serveRegister
    split
    · exact ite_bm ((ih _).trans (commit_bm (s.takeRegister _ _) _)) rfl
    · rfl

theorem joinCloseQueue_refills (s : State) (p : PosId) : Refills s (s.joinCloseQueue p) :=
  .same (serveRegister_bm _ _) (joinCloseQueue_steady s p).posts

end State

theorem endSession_refills (n : Nat) : (endSession n).Refilling := by
  induction n with
  | zero => exact fun _ _ s => .refl s
  | succ n ih =>
    intro p r s
    exact .ite (fun _ => (State.endSteps_refills ih s p r).trans (State.joinCloseQueue_refills _ p)) fun _ => .refl s

theorem endNow_refills : endNow.Refilling := endSession_refills 4

end Sys2Proof.Machine
end

section
/-! SUPPORT. The proof examinations of a report (R69, R78, R79): what they begin, and that they leave nothing to begin. -/

namespace Sys2Proof.Machine

set_option Elab.async false

namespace State

variable {s t u v : State} {b c : BankId}

/-! ### What an examination reads -/

/-- Two states alike in all but the bank records and the designation. -/
def AlikeButBanks (s t : State) : Prop :=
  { t with bm := { t.bm with banks := s.bm.banks, designation := s.bm.designation } } = s

theorem AlikeButBanks.config (h : AlikeButBanks s t) : t.config = s.config := (congrArg State.config h :)

theorem AlikeButBanks.site (h : AlikeButBanks s t) : t.site = s.site := (congrArg State.site h :)

theorem AlikeButBanks.age (h : AlikeButBanks s t)
    (bank : (t.bank b).provenAt = (s.bank b).provenAt
      ∧ ((t.bank b).proofState = (s.bank b).proofState ∧ (t.bank b).proof = (s.bank b).proof
        ∨ (t.bank b).proofState = .proving ∧ ((s.bank b).proofState = .unproven ∨ (s.bank b).proofState = .proven)
          ∧ ∃ f, (t.bank b).proof = some f ∧ f.before = (s.bank b).proofState)) :
    t.proofAge b = s.proofAge b := by
  have base : t.proofBase b = s.proofBase b := by
    obtain ⟨at_, ⟨state, proof⟩ | ⟨state, before, f, proof, was⟩⟩ := bank
    · unfold proofBase
      dsimp only
      rw [at_, state, proof, h.site]
    · unfold proofBase
      dsimp only
      rw [state, proof, at_, h.site]
      rcases before with e | e <;> rw [e] at was ⊢ <;> dsimp only
      · exact if_neg (by rw [was]; nofun)
      · exact if_pos was
  unfold proofAge
  rw [base, h.site]

theorem AlikeButBanks.age_same (h : AlikeButBanks s t) (bank : t.bank b = s.bank b) : t.proofAge b = s.proofAge b :=
  h.age ⟨by rw [bank], .inl ⟨by rw [bank], by rw [bank]⟩⟩

theorem AlikeButBanks.takesOpportunistic (h : AlikeButBanks s t) (bank : t.bank b = s.bank b) :
    t.TakesOpportunistic b ↔ s.TakesOpportunistic b := by
  have fresh : t.bm.freshness = s.bm.freshness := (congrArg (fun x : State => x.bm.freshness) h :)
  have list : t.bm.refillList = s.bm.refillList := (congrArg (fun x : State => x.bm.refillList) h :)
  unfold TakesOpportunistic
  rw [h.site, fresh, bank, list, h.config, h.age_same bank]

theorem AlikeButBanks.provingBank (h : AlikeButBanks s t) (bank : t.bank b = s.bank b) (k : ProofKind) :
    t.provingBank b k = s.provingBank b k := by
  unfold State.provingBank
  rw [bank, h.config]

/-! ### The examinations -/

/-- The opportunistic examinations of the banks in their order (R79). -/
def examineAll (s : State) : State := inOrder (fun b s => s.opportunisticExamination b) s

theorem opportunisticExamination_alike (s : State) (b : BankId) :
    { s.opportunisticExamination b with bm := { (s.opportunisticExamination b).bm with banks := s.bm.banks } } = s := by
  by_cases o : s.TakesOpportunistic b
  · rw [(s.opportunisticExamination_eq b).1 o]
    rfl
  · rw [(s.opportunisticExamination_eq b).2 o]

theorem examineAll_rest (s : State) : { s.examineAll with bm := { s.examineAll.bm with banks := s.bm.banks } } = s :=
  inOrder_keeps (fun t : State => { t with bm := { t.bm with banks := s.bm.banks } } = s)
    (fun b t => t.opportunisticExamination b)
    (fun b t k => (congrArg (fun x : State => { x with bm := { x.bm with banks := s.bm.banks } })
      (opportunisticExamination_alike t b) :).trans k) s rfl

theorem examineAll_bank (s : State) (b : BankId) :
    (s.TakesOpportunistic b → s.examineAll.bank b = s.provingBank b .opportunistic)
      ∧ (¬s.TakesOpportunistic b → s.examineAll.bank b = s.bank b) := by
  let Before (t : State) : Prop := AlikeButBanks s t ∧ t.bank b = s.bank b
  let After (t : State) : Prop := (s.TakesOpportunistic b → t.bank b = s.provingBank b .opportunistic)
    ∧ (¬s.TakesOpportunistic b → t.bank b = s.bank b)
  have alike : ∀ (t : State) c, AlikeButBanks s t → AlikeButBanks s (t.opportunisticExamination c) := fun t c k =>
    (congrArg (fun x : State => { x with bm := { x.bm with banks := s.bm.banks, designation := s.bm.designation } })
      (opportunisticExamination_alike t c) :).trans k
  have other : ∀ (t : State) c, c ≠ b → (t.opportunisticExamination c).bank b = t.bank b := fun t c n => by
    by_cases o : t.TakesOpportunistic c
    · rw [(t.opportunisticExamination_eq c).1 o]
      exact modBank_bank_ne _ _ n.symm
    · rw [(t.opportunisticExamination_eq c).2 o]
  refine inOrder_reaches (P := Before) (Q := After) b (fun c n t k => ⟨alike t c k.1, (other t c n).trans k.2⟩)
    (fun t k => ?_) (fun c n t k => ?_) ⟨rfl, rfl⟩
  · have takes := k.1.takesOpportunistic k.2
    refine ⟨fun o => ?_, fun o => ?_⟩
    · rw [(t.opportunisticExamination_eq b).1 (takes.mpr o), modBank_bank_same]
      exact k.1.provingBank k.2 _
    · rw [(t.opportunisticExamination_eq b).2 fun c => o (takes.mp c)]
      exact k.2
  · exact ⟨fun o => (other t c n).trans (k.1 o), fun o => (other t c n).trans (k.2 o)⟩

theorem proofExaminations_examined (s : State) : Examined s s.proofExaminations fourIds := by
  have whole : s.proofExaminations = s.forcedExamination.examineAll := rfl
  rw [whole]
  rcases s.forced_or_none with ⟨same, none⟩ | ⟨c, takes, only, forced⟩
  · rw [same]
    have rest := s.examineAll_rest
    refine ⟨fun b f => (none b f).elim, fun b _ _ o => (s.examineAll_bank b).1 o, fun b _ o =>
      (s.examineAll_bank b).2 fun k => o ⟨mem_fourIds b, k⟩, fun _ => (congrArg (fun x : State => x.bm.designation) rest :),
      (congrArg (fun x : State => { x with bm := s.bm }) rest :), ?_⟩
    exact (congrArg (fun x : State => { x.bm with designation := s.bm.designation }) rest :)
  · rw [forced]
    have rest := (s.takenForced c).examineAll_rest
    have alike : AlikeButBanks s (s.takenForced c) := rfl
    have held : ((s.takenForced c).bank c).holder = .proof := by
      rw [takenForced_bank_same]
      unfold forcedBank
      split <;> rfl
    refine ⟨fun b f => ?_, fun b f _ o => ?_, fun b f o => ?_, fun f => (f c takes).elim,
      (congrArg (fun x : State => { x with bm := s.bm }) rest :), ?_⟩
    · obtain rfl := only b f
      refine ⟨?_, (congrArg (fun x : State => x.bm.designation) rest :)⟩
      rw [((s.takenForced b).examineAll_bank b).2 fun o => nomatch held.symm.trans o.2.2.1]
      exact takenForced_bank_same s b
    · have bank := takenForced_bank_ne s fun e : b = c => f (e ▸ takes)
      rw [((s.takenForced c).examineAll_bank b).1 ((alike.takesOpportunistic bank).mpr o)]
      exact alike.provingBank bank _
    · have bank := takenForced_bank_ne s fun e : b = c => f (e ▸ takes)
      rw [((s.takenForced c).examineAll_bank b).2 fun k => o ⟨mem_fourIds b, (alike.takesOpportunistic bank).mp k⟩]
      exact bank
    · exact (congrArg (fun x : State => { x.bm with banks := s.bm.banks, designation := s.bm.designation }) rest :)

end State

namespace Examined

variable {v u : State} {b : BankId}

open State

theorem alike {l : List BankId} (h : Examined v u l) : AlikeButBanks v u :=
  (congrArg (fun m : BankManager => { u with bm := m }) h.manager :).trans h.rest

/-- Where no bank is taken for a forced proof, its age and its holder stand. -/
theorem of_no_forced (h : Examined v u fourIds) (f : ¬v.TakesForced b) :
    (u.bank b).holder = (v.bank b).holder ∧ u.proofAge b = v.proofAge b := by
  by_cases o : v.TakesOpportunistic b
  · have bank := h.opportunistic b f (mem_fourIds b) o
    refine ⟨by rw [bank]; rfl, h.alike.age ⟨by rw [bank]; rfl, .inr ⟨by rw [bank]; rfl, o.2.2.2.2.imp_right And.left, ?_⟩⟩⟩
    rw [bank]
    exact ⟨_, rfl, rfl⟩
  · have bank := h.others b f fun k => o k.2
    exact ⟨by rw [bank], h.alike.age_same bank⟩

/-- The examinations leave no proof to begin. -/
theorem settled (h : Examined v u fourIds) (b : BankId) : ¬u.TakesForced b ∧ ¬u.TakesOpportunistic b := by
  have fresh : u.bm.freshness = v.bm.freshness := (congrArg (fun x : State => x.bm.freshness) h.alike :)
  refine ⟨fun k => ?_, fun k => ?_⟩
  · obtain ⟨mode, now, free, holder, late, longest⟩ := k
    have none : ∀ c, ¬v.TakesForced c := fun c f => nomatch free.symm.trans (h.forced c f).2
    have ages : ∀ c, u.proofAge c = v.proofAge c := fun c => (h.of_no_forced (none c)).2
    have overdue : ∀ c, u.isOverdue c = v.isOverdue c := fun c => isOverdue_congr v (ages c) h.alike.config
    refine none b ⟨h.alike.site ▸ mode, fresh ▸ now, (h.designation none) ▸ free, ?_, ?_, fun c e => ?_⟩
    · rw [← (h.of_no_forced (none b)).1]
      exact holder
    · rw [← overdue]
      exact late
    · rw [← ages, ← ages]
      exact longest c ((overdue c).trans e)
  · obtain ⟨-, -, holder, -, due⟩ := id k
    by_cases f : v.TakesForced b
    · rw [(h.forced b f).1] at holder
      unfold forcedBank at holder
      split at holder <;> exact nomatch holder
    · by_cases o : v.TakesOpportunistic b
      · rw [h.opportunistic b f (mem_fourIds b) o] at due
        rcases due with e | ⟨e, -⟩ <;> exact nomatch e
      · exact o ((h.alike.takesOpportunistic (h.others b f fun k => o k.2)).mp k)

/-- A bank that is SUSPECT is not examined. -/
theorem suspect (h : Examined v u fourIds) (b : BankId) : (u.bank b).proofState = .suspect ↔ (v.bank b).proofState = .suspect := by
  by_cases f : v.TakesForced b
  · have late := isOverdue_suspect f.2.2.2.2.1
    rw [(h.forced b f).1]
    refine ⟨fun e => ?_, fun e => (late e).elim⟩
    unfold forcedBank at e
    split at e
    · rename_i proving
      exact nomatch proving.symm.trans e
    · exact nomatch e
  · by_cases o : v.TakesOpportunistic b
    · rw [h.opportunistic b f (mem_fourIds b) o]
      refine ⟨nofun, fun e => ?_⟩
      rcases o.2.2.2.2 with k | ⟨k, -⟩ <;> exact nomatch e.symm.trans k
    · rw [h.others b f fun k => o k.2]

end Examined

end Sys2Proof.Machine
end

section
/-! SUPPORT. The parts of a bank status report (R52, R63, R69, R71). -/

namespace Sys2Proof.Machine

set_option Elab.async false

namespace State

variable {s t u : State} {b : BankId} {p : PosId} {r : Quad Reading} {ambient : Nat}

/-! ### The report taken -/

/-- A bank record with a report taken (R52 step 1, R53). -/
def readAs (s : State) (b : BankId) (x : Reading) : Bank :=
  { s.bank b with
    pressure := some x.pressure
    temperature := some x.temperature
    mass := some (bankMass s.config b x.pressure x.temperature) }

/-- The bank records take their readings (R52 step 1). -/
def readAll (s : State) (r : Quad Reading) : State := inOrder (fun b s => s.reportBank b (r.get b)) s

theorem readAll_rest (s : State) (r : Quad Reading) :
    { s.readAll r with bm := { (s.readAll r).bm with banks := s.bm.banks } } = s :=
  inOrder_keeps (fun t : State => { t with bm := { t.bm with banks := s.bm.banks } } = s)
    (fun b t => t.reportBank b (r.get b)) (fun _ _ k => k) s rfl

theorem readAll_bank (s : State) (r : Quad Reading) (b : BankId) : (s.readAll r).bank b = s.readAs b (r.get b) := by
  refine inOrder_reaches (P := fun t : State => t.bank b = s.bank b ∧ t.config = s.config)
    (Q := fun t : State => t.bank b = s.readAs b (r.get b)) b (fun c n t k => ?_) (fun t k => ?_) (fun c n t k => ?_)
    ⟨rfl, rfl⟩
  · exact ⟨(modBank_bank_ne _ _ n.symm).trans k.1, k.2⟩
  · refine (modBank_bank_same _ _ _).trans ?_
    unfold readAs
    rw [k.1, k.2]
  · exact (modBank_bank_ne _ _ n.symm).trans k

theorem readAll_eq (s : State) (r : Quad Reading) : s.readAll r = { s with
    bm := { s.bm with
      banks := ⟨s.readAs 0 (r.get 0), s.readAs 1 (r.get 1), s.readAs 2 (r.get 2), s.readAs 3 (r.get 3)⟩ } } := by
  have banks : (s.readAll r).bm.banks
      = ⟨s.readAs 0 (r.get 0), s.readAs 1 (r.get 1), s.readAs 2 (r.get 2), s.readAs 3 (r.get 3)⟩ :=
    Quad.ext_get fun
      | 0 => readAll_bank s r 0
      | 1 => readAll_bank s r 1
      | 2 => readAll_bank s r 2
      | 3 => readAll_bank s r 3
  have rest := readAll_rest s r
  generalize s.readAll r = t at banks rest
  rw [← banks]
  exact (congrArg (fun x : State => { x with bm := { x.bm with banks := t.bm.banks } }) rest :)

/-- The readings and the ambient temperature are taken, and the data are FRESH (R52 steps 1 to 3). -/
def freshened (s : State) (r : Quad Reading) (ambient : Nat) : State :=
  ((s.readAll r).reportAmbient ambient).modBm fun m => { m with freshness := .fresh }

theorem freshened_eq (s : State) (r : Quad Reading) (ambient : Nat) : s.freshened r ambient =
    { s with
      site := { s.site with ambientBand := ambientBandOf ambient }
      bm :=
        { s.bm with
          banks := ⟨s.readAs 0 (r.get 0), s.readAs 1 (r.get 1), s.readAs 2 (r.get 2), s.readAs 3 (r.get 3)⟩
          freshness := .fresh
          ambient := some ambient } } := by
  unfold freshened
  rw [readAll_eq]
  rfl

theorem freshened_bank (s : State) (r : Quad Reading) (ambient : Nat) (b : BankId) :
    (s.freshened r ambient).bank b = s.readAs b (r.get b) := readAll_bank s r b

/-- The sessions are told, when the data were STALE (R52 step 3). -/
def informed (s : State) (r : Quad Reading) (ambient : Nat) : State :=
  if s.bm.freshness = .stale then inOrder (fun p s => s.toldFresh p) (s.freshened r ambient) else s.freshened r ambient

/-- The freshness timer is restarted (R52 step 4). -/
def timed (s : State) : State := s.modBm fun m => { m with freshnessTimer := some s.config.bankReportTimeout }

/-- The wait queues are tested (R63). -/
def retested (s : State) : State := inOrder (fun b s => s.testQueue b) s

theorem becomeFresh_fresh (h : s.bm.freshness = .fresh) : s.becomeFresh = s.modBm fun m => { m with freshness := .fresh } := by
  unfold becomeFresh modBm
  rw [h]
  dsimp only
  rw [← h]

theorem becomeFresh_stale (h : s.bm.freshness = .stale) :
    s.becomeFresh = inOrder (fun p s => s.toldFresh p) (s.modBm fun m => { m with freshness := .fresh }) := by
  unfold becomeFresh
  rw [h]

theorem takeBankStatus_eq (s : State) (r : Quad Reading) (ambient : Nat) :
    s.takeBankStatus r ambient = ((s.informed r ambient).timed.retested).reportConsequences := by
  have same : ((s.readAll r).reportAmbient ambient).bm.freshness = s.bm.freshness :=
    (congrArg (fun x : State => x.bm.freshness) (readAll_rest s r) :)
  have fresh : ((s.readAll r).reportAmbient ambient).becomeFresh = s.informed r ambient := by
    unfold informed
    cases e : s.bm.freshness with
    | stale => exact becomeFresh_stale (same.trans e)
    | fresh => exact becomeFresh_fresh (same.trans e)
  rw [← fresh]
  rfl

/-! ### What the parts leave alone -/

theorem foldl_steady {α : Type} (f : State → α → State) (h : ∀ s a, Steady s (f s a)) (l : List α) (s : State) :
    Steady s (l.foldl f s) := by
  induction l generalizing s with
  | nil => exact .refl s
  | cons a l ih => exact (h s a).trans (ih _)

theorem inOrder_steady (f : Fin 4 → State → State) (h : ∀ i s, Steady s (f i s)) (s : State) : Steady s (inOrder f s) :=
  inOrder_induct Steady Steady.trans f h s

theorem selectOnFresh_steady (s : State) (p : PosId) : Steady s (s.selectOnFresh p) :=
  .ite (fun _ => (Steady.refl s).session.trans (selectBank_steady endNow_steady _ p)) fun _ => .refl s

theorem toldFresh_steady (s : State) (p : PosId) : Steady s (s.toldFresh p) :=
  .ite (fun _ => (clearFactor_steady endNow_steady s p .bank).trans (selectOnFresh_steady _ p)) fun _ => .refl s

theorem removeWaiter_steady (s : State) (p : PosId) : Steady s (s.removeWaiter p) :=
  (leaveQueue_steady s p).trans (selectBank_steady endNow_steady _ p)

theorem testWaiter_steady (b : BankId) (s : State) (p : PosId) : Steady s (s.testWaiter b p) :=
  .ite (fun _ => removeWaiter_steady s p) fun _ => .refl s

theorem retested_steady (s : State) : Steady s s.retested :=
  inOrder_steady _ (fun b s => foldl_steady _ (testWaiter_steady b) _ s) s

theorem informed_steady (s : State) (r : Quad Reading) (ambient : Nat) : Steady (s.freshened r ambient) (s.informed r ambient) :=
  .ite (fun _ => inOrder_steady _ (fun p s => toldFresh_steady s p) _) fun _ => .refl _

theorem completeRefill_steady (s : State) : Steady s s.completeRefill := by
  unfold completeRefill
  split
  · exact .refl s
  · split
    · exact .refl s
    · exact .ite (fun _ => endRefill_steady _ _ _) fun _ => .refl s

theorem listIfLow_steady (s : State) (b : BankId) : Steady s (s.listIfLow b) :=
  .ite (fun _ => enterRefillList_steady _ _) fun _ => .refl s

/-- Low banks enter the refill list (R69). -/
def relisted (s : State) : State := inOrder (fun b s => s.listIfLow b) s

theorem relisted_steady (s : State) : Steady s s.relisted := inOrder_steady _ (fun b s => listIfLow_steady s b) s

theorem reportConsequences_eq (s : State) : s.reportConsequences = s.completeRefill.relisted.proofExaminations := rfl

theorem reportConsequences_steady (s : State) : Steady s s.reportConsequences :=
  ((completeRefill_steady s).trans (relisted_steady _)).trans (proofExaminations_steady _)

/-! ### The refills -/

theorem foldl_refills {α : Type} (f : State → α → State) (h : ∀ s a, Refills s (f s a)) (l : List α) (s : State) :
    Refills s (l.foldl f s) := by
  induction l generalizing s with
  | nil => exact .refl s
  | cons a l ih => exact (h s a).trans (ih _)

theorem selectNow_refills (s : State) (p : PosId) : Refills s (s.selectBank endNow p) := selectBank_refills endNow_refills s p

theorem toldFresh_refills (s : State) (p : PosId) : Refills s (s.toldFresh p) := by
  have cleared := clearFactor_refills endNow_refills s p .bank
  have selects : ∀ t : State, Refills t (t.selectOnFresh p) := fun t =>
    .ite (fun _ => (Refills.refl t).session.trans (selectNow_refills _ p)) fun _ => .refl t
  exact .ite (fun _ => cleared.trans (selects _)) fun _ => .refl s

theorem retested_refills (s : State) : Refills s s.retested := by
  have waiter : ∀ b (s : State) p, Refills s (s.testWaiter b p) := fun b s p =>
    .ite (fun _ => (leaveQueue_refilling s p).trans (selectNow_refills _ p)) fun _ => .refl s
  exact inOrder_induct Refills Refills.trans _ (fun b s => foldl_refills _ (waiter b) _ s) s

theorem informed_refills (s : State) (r : Quad Reading) (ambient : Nat) : Refills (s.freshened r ambient) (s.informed r ambient) :=
  .ite (fun _ => inOrder_induct Refills Refills.trans _ (fun p s => toldFresh_refills s p) _) fun _ => .refl _

theorem freshened_refills (s : State) (r : Quad Reading) (ambient : Nat) : Refills s (s.freshened r ambient) := by
  have bank := freshened_bank s r ambient
  rw [freshened_eq] at bank ⊢
  refine .kept rfl rfl fun a => (banksAgree_iff _).mpr fun b => ?_
  rw [bank]
  have x := a.bank b
  exact ⟨x.proving, x.before, x.forced, x.held, x.opportunistic, x.refill, x.unawaited⟩

theorem timed_refills (s : State) : Refills s s.timed := .kept rfl rfl fun a => modBm_agree a

/-- All that comes before the report looks at the refills. -/
theorem retested_report_refills (s : State) (r : Quad Reading) (ambient : Nat) :
    Refills s (s.informed r ambient).timed.retested :=
  (((freshened_refills s r ambient).trans (informed_refills s r ambient)).trans (timed_refills _)).trans (retested_refills _)

end State

end Sys2Proof.Machine
end

section
/-! SUPPORT. What a bank status report leaves of the banks, the refills and the proofs (R52, R53, R69, R71, R78, R79). -/

namespace Sys2Proof.Machine

set_option Elab.async false

namespace State

variable {s t u : State} {b : BankId} {p : PosId} {r : Quad Reading} {ambient : Nat}

theorem timed_reported_steady (s : State) (r : Quad Reading) (ambient : Nat) :
    Steady (s.informed r ambient).timed (s.takeBankStatus r ambient) := by
  rw [takeBankStatus_eq]
  exact (retested_steady _).trans (reportConsequences_steady _)

/-- The report is taken whole, whatever follows from it. -/
structure ReportTaken (s u : State) (r : Quad Reading) (ambient : Nat) : Prop where
  reports : ∀ b, (u.bank b).report = (s.readAs b (r.get b)).report
  freshness : u.bm.freshness = .fresh
  timer : u.bm.freshnessTimer = some (s.config.param 10)
  outside : u.bm.ambient = some ambient
  site : u.site = { s.site with ambientBand := ambientBandOf ambient }
  rest : Undisturbed { s with site := u.site, bm := u.bm } u

theorem takeBankStatus_taken (s : State) (r : Quad Reading) (ambient : Nat) :
    ReportTaken s (s.takeBankStatus r ambient) r ambient := by
  have told := informed_steady s r ambient
  have later := timed_reported_steady s r ambient
  have bank := freshened_bank s r ambient
  rw [freshened_eq] at told bank
  generalize s.informed r ambient = i at told later
  generalize s.takeBankStatus r ambient = u at later
  have before := told.undisturbed
  have after := later.undisturbed
  have site : i.site = { s.site with ambientBand := ambientBandOf ambient } := before.site
  have config : i.config = s.config := (congrArg SiteControl.config site :)
  refine ⟨fun b => (after.reports b).trans ((before.reports b).trans (congrArg Bank.report (bank b))),
    after.freshness.1.trans before.freshness.1, after.freshness.2.trans ?_, after.ambient.trans before.ambient,
    after.site.trans site, ?_⟩
  · exact congrArg (fun c : SiteConfig => some (c.param 10)) config
  · refine ⟨after.pending.trans before.pending, after.tenths.trans before.tenths, after.ports.trans before.ports, rfl,
      after.capacity.trans before.capacity, after.slots.trans before.slots, after.tariff.trans before.tariff, ⟨rfl, rfl⟩, rfl,
      fun _ => rfl, fun p => (after.monitors p).trans (before.monitors p), fun p massless => ?_, ?_, ?_⟩
    · have first := before.sessions p massless
      exact (after.sessions p ((Session.fixed_finalMass first).trans massless)).trans first
    · obtain ⟨l, e⟩ := before.posts
      obtain ⟨m, k⟩ := after.posts
      exact ⟨l ++ m, k.trans ((congrArg (· ++ m) e).trans (List.append_assoc _ _ _))⟩
    · obtain ⟨l, e⟩ := before.records
      obtain ⟨m, k⟩ := after.records
      exact ⟨l ++ m, k.trans ((congrArg (· ++ m) e).trans (List.append_assoc _ _ _))⟩

/-! ### The refill list -/

theorem listIfLow_alike (s : State) (b : BankId) :
    { s.listIfLow b with bm := { (s.listIfLow b).bm with refillList := s.bm.refillList } } = s := by
  unfold listIfLow enterRefillList
  split
  · split <;> rfl
  · rfl

theorem relisted_alike (s : State) : { s.relisted with bm := { s.relisted.bm with refillList := s.bm.refillList } } = s :=
  inOrder_keeps (fun t : State => { t with bm := { t.bm with refillList := s.bm.refillList } } = s)
    (fun b t => t.listIfLow b)
    (fun b t k => (congrArg (fun x : State => { x with bm := { x.bm with refillList := s.bm.refillList } })
      (listIfLow_alike t b) :).trans k) s rfl

theorem listIfLow_list (s : State) (b : BankId) : s.bm.refillList <+: (s.listIfLow b).bm.refillList := by
  unfold listIfLow
  split
  · exact enterRefillList_list s b
  · exact List.prefix_refl _

theorem relisted_list (s : State) : s.bm.refillList <+: s.relisted.bm.refillList :=
  inOrder_induct (fun s t : State => s.bm.refillList <+: t.bm.refillList) List.IsPrefix.trans _
    (fun b s => listIfLow_list s b) s

/-- A low bank is in the refill list once the banks have been looked through. -/
theorem relisted_low (s : State) (b : BankId) (low : s.belowStart b = true) (trusted : (s.bank b).proofState ≠ .suspect)
    (idle : s.bm.refillInFlight ≠ some b) : b ∈ s.relisted.bm.refillList := by
  let Alike (t : State) : Prop := { t with bm := { t.bm with refillList := s.bm.refillList } } = s
  have alike : ∀ (t : State) c, Alike t → Alike (t.listIfLow c) := fun t c k =>
    (congrArg (fun x : State => { x with bm := { x.bm with refillList := s.bm.refillList } }) (listIfLow_alike t c) :).trans k
  refine inOrder_reaches (P := Alike) (Q := fun t : State => b ∈ t.bm.refillList) b (fun c _ t k => alike t c k)
    (fun t k => ?_) (fun c _ t k => (listIfLow_list t c).mem k) (show Alike s from rfl)
  have bank : t.bank b = s.bank b := (congrArg (fun x : State => x.bank b) k :)
  have below : t.belowStart b = s.belowStart b := by
    have config : t.config = s.config := (congrArg State.config k :)
    unfold belowStart
    rw [bank, config]
  have flight : t.bm.refillInFlight = s.bm.refillInFlight := (congrArg (fun x : State => x.bm.refillInFlight) k :)
  have enters : t.listIfLow b = t.enterRefillList b := if_pos ⟨below.trans low, bank ▸ trusted, flight ▸ idle⟩
  rw [enters]
  unfold enterRefillList
  split
  · assumption
  · exact List.mem_append_right _ List.mem_cons_self

theorem proofExaminations_refills (s : State) : s.proofExaminations.refills = s.refills := by
  have manager := s.proofExaminations_examined.manager
  exact congrArg₂ Prod.mk (congrArg BankManager.refillList manager :) (congrArg BankManager.refillInFlight manager :)

theorem endRefill_list (s : State) (b : BankId) (e : RefillReason) :
    s.bm.refillList <+: (s.endRefill b e).bm.refillList ∧ (s.endRefill b e).bm.refillInFlight = none := by
  obtain ⟨flight, -, -, back, stays, -⟩ := s.endRefill_ended b e
  refine ⟨?_, flight⟩
  by_cases k : s.Returns b
  · rw [back k]
    exact List.prefix_append _ _
  · rw [stays k]

theorem completeRefill_list (s : State) : s.bm.refillList <+: s.completeRefill.bm.refillList := by
  unfold completeRefill
  split
  · exact List.prefix_refl _
  · split
    · exact List.prefix_refl _
    · split
      · exact (endRefill_list s _ _).1
      · exact List.prefix_refl _

/-! ### The consequences of a report -/

theorem proofExaminations_list (s : State) : s.proofExaminations.bm.refillList = s.bm.refillList :=
  congrArg Prod.fst (proofExaminations_refills s)

theorem proofExaminations_flight (s : State) : s.proofExaminations.bm.refillInFlight = s.bm.refillInFlight :=
  congrArg Prod.snd (proofExaminations_refills s)

theorem reportConsequences_list (s : State) : s.bm.refillList <+: s.reportConsequences.bm.refillList := by
  rw [reportConsequences_eq, proofExaminations_list]
  exact (completeRefill_list s).trans (relisted_list _)

theorem reportConsequences_settled (s : State) (b : BankId) :
    ¬s.reportConsequences.TakesForced b ∧ ¬s.reportConsequences.TakesOpportunistic b := by
  rw [reportConsequences_eq]
  exact (proofExaminations_examined _).settled b

theorem reportConsequences_flight (s : State) : s.reportConsequences.bm.refillInFlight = s.completeRefill.bm.refillInFlight := by
  rw [reportConsequences_eq, proofExaminations_flight]
  exact (congrArg (fun x : State => x.bm.refillInFlight) (relisted_alike s.completeRefill) :)

theorem reportConsequences_low (s : State) (b : BankId) (low : s.belowStart b = true)
    (trusted : (s.reportConsequences.bank b).proofState ≠ .suspect)
    (idle : s.reportConsequences.bm.refillInFlight ≠ some b) : b ∈ s.reportConsequences.bm.refillList := by
  rw [reportConsequences_flight] at idle
  rw [reportConsequences_eq] at trusted ⊢
  have state : (s.completeRefill.bank b).proofState ≠ .suspect := fun e => by
    have same : s.completeRefill.relisted.bank b = s.completeRefill.bank b :=
      (congrArg (fun x : State => x.bank b) (relisted_alike s.completeRefill) :)
    exact trusted (((proofExaminations_examined _).suspect b).mpr (same ▸ e))
  have below : s.completeRefill.belowStart b = s.belowStart b := by
    have k := completeRefill_steady s
    have pressure : (s.completeRefill.bank b).pressure = (s.bank b).pressure := congrArg Prod.fst (k.reports b)
    have config : s.completeRefill.config = s.config := congrArg SiteControl.config k.site
    unfold belowStart
    rw [config, pressure]
  rw [proofExaminations_list]
  exact relisted_low _ b (below.trans low) state idle

/-- A refill whose bank has reached its stop threshold is over (R71). -/
theorem reportConsequences_reached (s : State) (b : BankId) (runs : s.bm.refillInFlight = some b)
    (reached : ∃ e, s.config.banks.get b = some e ∧ e.refillStop ≤ (s.bank b).pressure.getD 0) :
    s.reportConsequences.bm.refillInFlight = none ∧ Notice.refillStop b .complete ∈ s.reportConsequences.outbox := by
  obtain ⟨e, equipped, high⟩ := reached
  have ends : s.completeRefill = s.endRefill b .complete := by
    unfold completeRefill
    rw [runs]
    dsimp only
    rw [equipped]
    exact if_pos high
  obtain ⟨flight, -, told, -⟩ := s.endRefill_ended b .complete
  refine ⟨(reportConsequences_flight s).trans (by rw [ends]; exact flight), ?_⟩
  rw [reportConsequences_eq, ends]
  exact ((relisted_steady _).trans (proofExaminations_steady _)).posts.mem told

theorem reportConsequences_idle (s : State) (idle : s.bm.refillInFlight = none) :
    s.reportConsequences.bm.refillInFlight = none := by
  rw [reportConsequences_flight]
  unfold completeRefill
  rw [idle]
  exact idle

/-- What a report does to the refills and the proofs. -/
structure ReportFollowed (s u : State) (r : Quad Reading) : Prop where
  reached : ∀ b, BanksAgree s → s.bm.refillInFlight = some b →
    (∃ e, s.config.banks.get b = some e ∧ e.refillStop ≤ (r.get b).pressure) →
    u.bm.refillInFlight = none ∧ (Notice.refillStop b .complete ∈ u.outbox ∨ Notice.refillStop b .yield ∈ u.outbox)
  low : ∀ b e, s.config.banks.get b = some e → (r.get b).pressure < e.refillStart →
    (u.bank b).proofState ≠ .suspect → u.bm.refillInFlight ≠ some b → b ∈ u.bm.refillList
  list : ∃ l, u.bm.refillList = s.bm.refillList ++ l
  settled : ∀ b, ¬u.TakesForced b ∧ ¬u.TakesOpportunistic b

theorem takeBankStatus_followed (s : State) (r : Quad Reading) (ambient : Nat) :
    ReportFollowed s (s.takeBankStatus r ambient) r := by
  have refills := retested_report_refills s r ambient
  have told := informed_steady s r ambient
  have tested := retested_steady (s.informed r ambient).timed
  have bank := freshened_bank s r ambient
  have begun : (s.freshened r ambient).config = s.config := by rw [freshened_eq]; rfl
  rw [takeBankStatus_eq]
  have pressure : ∀ b, ((s.informed r ambient).timed.retested.bank b).pressure = some (r.get b).pressure := fun b => by
    have first : ((s.informed r ambient).bank b).pressure = ((s.freshened r ambient).bank b).pressure :=
      congrArg Prod.fst (told.reports b)
    have second : ((s.informed r ambient).timed.retested.bank b).pressure = ((s.informed r ambient).bank b).pressure :=
      congrArg Prod.fst (tested.reports b)
    rw [second, first, bank b]
    rfl
  have config : (s.informed r ambient).timed.retested.config = s.config := by
    have first : (s.informed r ambient).config = (s.freshened r ambient).config := congrArg SiteControl.config told.site
    have second : (s.informed r ambient).timed.retested.config = (s.informed r ambient).config :=
      congrArg SiteControl.config tested.site
    rw [second, first, begun]
  generalize (s.informed r ambient).timed.retested = t at refills pressure config
  have steady := reportConsequences_steady t
  refine ⟨fun b agree runs reached => ?_, fun b e equipped low trusted idle => ?_, ?_, reportConsequences_settled t⟩
  · rcases refills.flight agree with same | ⟨over_, yields⟩
    · have stops := reportConsequences_reached t b (same.trans runs) (by rw [pressure, config]; exact reached)
      exact ⟨stops.1, .inl stops.2⟩
    · exact ⟨reportConsequences_idle t over_, .inr (steady.posts.mem (yields b runs))⟩
  · refine reportConsequences_low t b ?_ trusted idle
    unfold belowStart
    rw [config, equipped, pressure]
    exact decide_eq_true low
  · obtain ⟨l, e⟩ := refills.list.trans (reportConsequences_list t)
    exact ⟨l, e.symm⟩

end State

end Sys2Proof.Machine
end

section
/-! SUPPORT. A bank status report in which no session selects and no refill ends (R52, R63, R69, R71). -/

namespace Sys2Proof.Machine

set_option Elab.async false

namespace State

variable {s t u : State} {b : BankId} {p : PosId} {r : Quad Reading} {ambient : Nat}

/-! ### The sessions told -/

/-- A session once it has been told that the data are fresh, where it neither selects nor leaves HELD (R52, R139). -/
def informedAs (s : State) (p : PosId) : Session :=
  if s.bm.freshness = .stale ∧ (s.session p).running = true then
    s.afterClear (s.session p) { (s.session p).factors with bank := false }
  else s.session p

/-- Being told that the data are fresh makes a session neither select nor leave HELD. -/
def StandsOn (s : State) (p : PosId) : Prop :=
  s.bm.freshness = .stale → (s.session p).running = true →
    (s.session p).awaitingFresh = false ∧ s.ClearStays (s.session p) { (s.session p).factors with bank := false }

/-- What a session told depends on. -/
theorem toldFresh_stands (stale : s.bm.freshness = .stale) (stands : s.StandsOn p) (session : t.session p = s.session p)
    (config : t.config = s.config) : t.toldFresh p = t.becomes p (s.informedAs p) := by
  unfold toldFresh informedAs
  cases run : (s.session p).running with
  | false =>
    rw [if_neg (by rw [session, run]; exact Bool.false_ne_true), if_neg fun k => Bool.false_ne_true k.2, ← session, becomes_self]
  | true =>
    obtain ⟨settled, stays⟩ := stands stale run
    have after : t.afterClear (t.session p) { (t.session p).factors with bank := false }
        = s.afterClear (s.session p) { (s.session p).factors with bank := false } := by
      unfold afterClear
      rw [session, config]
    have cleared : t.clearFactor endNow p .bank
        = t.becomes p (s.afterClear (s.session p) { (s.session p).factors with bank := false }) := by
      rw [← after]
      refine (clearFactor_clears (s := t) (p := p) .bank).stays ?_
      unfold ClearStays at stays ⊢
      rw [session, config]
      exact stays
    have idle : ((t.becomes p (s.afterClear (s.session p) { (s.session p).factors with bank := false })).session
        p).awaitingFresh = false := by
      rw [becomes_session]
      exact settled
    rw [if_pos (session ▸ run), if_pos ⟨stale, rfl⟩, cleared]
    unfold selectOnFresh
    rw [if_neg (by rw [idle]; exact Bool.false_ne_true)]

theorem informed_stands (stands : ∀ p, s.StandsOn p) : s.informed r ambient =
    { s.freshened r ambient with sessions := ⟨s.informedAs 0, s.informedAs 1, s.informedAs 2, s.informedAs 3⟩ } := by
  have config : (s.freshened r ambient).config = s.config := by rw [freshened_eq]; rfl
  have sessions : (s.freshened r ambient).sessions = s.sessions := by rw [freshened_eq]
  unfold informed
  generalize s.freshened r ambient = f at config sessions
  by_cases stale : s.bm.freshness = .stale
  · have same : ∀ p, f.session p = s.session p := fun p => congrArg (fun q : Quad Session => q.get p) sessions
    have step : ∀ (t : State) p, t.session p = s.session p → t.config = s.config →
        t.toldFresh p = t.becomes p (s.informedAs p) := fun t p session config =>
      toldFresh_stands stale (stands p) session config
    rw [if_pos stale]
    unfold inOrder
    dsimp only
    have one : (f.becomes 0 (s.informedAs 0)).session 1 = s.session 1 := same 1
    have two : ((f.becomes 0 (s.informedAs 0)).becomes 1 (s.informedAs 1)).session 2 = s.session 2 := same 2
    have three : (((f.becomes 0 (s.informedAs 0)).becomes 1 (s.informedAs 1)).becomes 2 (s.informedAs 2)).session 3
        = s.session 3 := same 3
    rw [step f 0 (same 0) config, step _ 1 one config, step _ 2 two config, step _ 3 three config]
    rfl
  · have told : ∀ p, s.informedAs p = s.session p := fun p => if_neg fun k => stale k.1
    rw [if_neg stale, told, told, told, told]
    have whole : (⟨s.session 0, s.session 1, s.session 2, s.session 3⟩ : Quad Session) = f.sessions := sessions.symm
    rw [whole]

/-! ### The queues tested -/

theorem testWaiter_stays (h : (s.session p).awaited = some b → s.usable b p = true) : s.testWaiter b p = s := by
  refine if_neg fun k => ?_
  simp only [Bool.and_eq_true, decide_eq_true_eq, Bool.not_eq_true'] at k
  exact Bool.noConfusion (k.2.symm.trans (h k.1))

theorem retested_stays (h : ∀ b, ∀ p ∈ (s.bank b).queue, (s.session p).awaited = some b → s.usable b p = true) :
    s.retested = s := by
  have fold : ∀ b (l : List PosId), (∀ p ∈ l, (s.session p).awaited = some b → s.usable b p = true) →
      l.foldl (State.testWaiter b) s = s := fun b l k => by
    induction l with
    | nil => rfl
    | cons p l ih =>
      rw [List.foldl_cons, testWaiter_stays (k p List.mem_cons_self)]
      exact ih fun q m => k q (List.mem_cons_of_mem p m)
  have queue : ∀ b, s.testQueue b = s := fun b => fold b _ (h b)
  unfold retested inOrder
  dsimp only
  rw [queue, queue, queue, queue]

/-! ### The refill list -/

/-- A bank that a report brings into the refill list (R69). -/
def enters (s : State) (b : BankId) : Bool :=
  s.belowStart b && (s.bank b).proofState != .suspect && s.bm.refillInFlight != some b && !s.bm.refillList.contains b

/-- The state with more banks in its refill list. -/
def listing (s : State) (l : List BankId) : State := { s with bm := { s.bm with refillList := s.bm.refillList ++ l } }

theorem listing_listIfLow (l : List BankId) (b : BankId) (h : b ∉ l) :
    (s.listing l).listIfLow b = s.listing (l ++ [b].filter s.enters) := by
  have enters : s.enters b = true ↔ (s.belowStart b = true ∧ (s.bank b).proofState ≠ .suspect
      ∧ s.bm.refillInFlight ≠ some b) ∧ b ∉ s.bm.refillList := by
    unfold State.enters
    simp [and_assoc]
  have listed : b ∈ (s.listing l).bm.refillList ↔ b ∈ s.bm.refillList :=
    ⟨fun m => (List.mem_append.mp m).resolve_right h, List.mem_append_left _⟩
  have append : ∀ m, { s.listing l with bm := { (s.listing l).bm with refillList := (s.listing l).bm.refillList ++ m } }
      = s.listing (l ++ m) := fun m =>
    congrArg (fun n => { s with bm := { s.bm with refillList := n } }) (List.append_assoc _ _ _)
  unfold listIfLow enterRefillList
  by_cases c : s.belowStart b = true ∧ (s.bank b).proofState ≠ .suspect ∧ s.bm.refillInFlight ≠ some b
  · refine (if_pos c).trans ?_
    by_cases m : b ∈ s.bm.refillList
    · have out : ¬s.enters b = true := fun k => (enters.mp k).2 m
      rw [if_pos (listed.mpr m), List.filter_cons_of_neg out, List.filter_nil, List.append_nil]
    · rw [if_neg fun k => m (listed.mp k), List.filter_cons_of_pos (enters.mpr ⟨c, m⟩), List.filter_nil]
      exact append [b]
  · have out : ¬s.enters b = true := fun k => c (enters.mp k).1
    refine (if_neg c).trans ?_
    rw [List.filter_cons_of_neg out, List.filter_nil, List.append_nil]

theorem relisted_eq (s : State) : s.relisted = s.listing (fourIds.filter s.enters) := by
  have start : s = s.listing [] :=
    congrArg (fun l => { s with bm := { s.bm with refillList := l } }) (List.append_nil s.bm.refillList).symm
  have only : ∀ {l : List BankId} {b}, b ∉ l → b ∉ l.filter s.enters := fun h m => h (List.mem_filter.mp m).1
  have next : ∀ (l : List BankId) b, b ∉ l →
      (s.listing (l.filter s.enters)).listIfLow b = s.listing ((l ++ [b]).filter s.enters) := fun l b h => by
    rw [listing_listIfLow _ b (only h), List.filter_append]
  have first : s.listIfLow 0 = s.listing ([0].filter s.enters) := by
    conv_lhs => rw [start]
    exact next [] 0 List.not_mem_nil
  unfold relisted inOrder
  dsimp only
  rw [first, next [0] 1 (by decide)]
  exact (congrArg (fun t : State => t.listIfLow 3) (next [0, 1] 2 (by decide))).trans (next [0, 1, 2] 3 (by decide))

/-! ### The whole report -/

/-- The state in which a report has been taken with no session that selects and no refill that ends (R52, R69). -/
def reportTaken (s : State) (r : Quad Reading) (ambient : Nat) : State :=
  { s with
    site := { s.site with ambientBand := ambientBandOf ambient }
    sessions := ⟨s.informedAs 0, s.informedAs 1, s.informedAs 2, s.informedAs 3⟩
    bm :=
      { s.bm with
        banks := ⟨s.readAs 0 (r.get 0), s.readAs 1 (r.get 1), s.readAs 2 (r.get 2), s.readAs 3 (r.get 3)⟩
        freshness := .fresh
        freshnessTimer := some (s.config.param 10)
        ambient := some ambient } }

theorem reportTaken_session (s : State) (r : Quad Reading) (ambient : Nat) :
    ∀ p, (s.reportTaken r ambient).session p = s.informedAs p
  | 0 => rfl
  | 1 => rfl
  | 2 => rfl
  | 3 => rfl

theorem reportTaken_bank (s : State) (r : Quad Reading) (ambient : Nat) :
    ∀ b, (s.reportTaken r ambient).bank b = s.readAs b (r.get b)
  | 0 => rfl
  | 1 => rfl
  | 2 => rfl
  | 3 => rfl

/-- Being told leaves what a usable test and a wait queue read of a session. -/
theorem informedAs_kept (s : State) (p : PosId) : (s.informedAs p).awaited = (s.session p).awaited
    ∧ (s.informedAs p).profile = (s.session p).profile := by
  unfold informedAs
  split <;> exact ⟨rfl, rfl⟩

theorem takeBankStatus_quiet (stands : ∀ p, s.StandsOn p)
    (served : ∀ b, ∀ p ∈ (s.bank b).queue, (s.session p).awaited = some b →
      (s.bank b).proofState ≠ .suspect ∧ s.nozzlePressure p + (s.profileOf p).switchMargin ≤ (r.get b).pressure)
    (runs : ∀ b, s.bm.refillInFlight = some b → ¬∃ e, s.config.banks.get b = some e ∧ e.refillStop ≤ (r.get b).pressure) :
    Examined ((s.reportTaken r ambient).listing (fourIds.filter (s.reportTaken r ambient).enters))
      (s.takeBankStatus r ambient) fourIds := by
  have timed : (s.informed r ambient).timed = s.reportTaken r ambient := by
    rw [informed_stands stands, freshened_eq]
    rfl
  have session := reportTaken_session s r ambient
  have bank := reportTaken_bank s r ambient
  have tested : (s.reportTaken r ambient).retested = s.reportTaken r ambient := by
    refine retested_stays fun b p m waits => (usable_iff rfl).mpr ?_
    rw [bank] at m
    rw [session, (informedAs_kept s p).1] at waits
    obtain ⟨trusted, enough⟩ := served b p m waits
    have profile : (s.reportTaken r ambient).profileOf p = s.profileOf p := by
      unfold profileOf Session.profileIndex
      rw [session, (informedAs_kept s p).2]
      rfl
    unfold Serves
    rw [bank, profile]
    exact ⟨trusted, enough⟩
  have complete : (s.reportTaken r ambient).completeRefill = s.reportTaken r ambient := by
    unfold completeRefill
    have flight : (s.reportTaken r ambient).bm.refillInFlight = s.bm.refillInFlight := rfl
    have config : (s.reportTaken r ambient).config = s.config := rfl
    rw [flight, config]
    cases f : s.bm.refillInFlight with
    | none => rfl
    | some b =>
      dsimp only
      cases e : s.config.banks.get b with
      | none => rfl
      | some x => exact if_neg fun high => runs b f ⟨x, e, by rw [bank] at high; exact high⟩
  rw [takeBankStatus_eq, timed, tested, reportConsequences_eq, complete, relisted_eq]
  exact proofExaminations_examined _

end State

end Sys2Proof.Machine
end

section
/-! SUPPORT. An event in which no bank is given back: what it does to the sessions that do not act in it, and to the proofs
(R52, R63, R90, R124, R148). -/

namespace Sys2Proof.Machine

set_option Elab.async false

/-- A position's session runs, and holds a bank or awaits it. -/
def State.HasPlace (s : State) (p : PosId) (b : BankId) : Prop :=
  (s.session p).running = true ∧ ((s.session p).bank = some b ∨ (s.session p).awaited = some b)

/-- What an event that gives no bank back does from one state to another. The sessions of `X` act in it, beside those that
are granted cooling; those of `Y` leave phase CLAIM in it. -/
structure Mild (X Y : List PosId) (s t : State) : Prop where
  others : ∀ q, q ∉ X → (∀ w ∈ s.cbu.queue, w.pos ≠ q) → t.session q = s.session q
  claiming : ∀ q, q ∉ Y → (s.session q).phase = some .claim →
    ∃ f c, t.session q = { s.session q with factors := f, cooling := c }
  queue : ∀ w ∈ t.cbu.queue, w ∈ s.cbu.queue
  place : ∀ q b, s.HasPlace q b → t.HasPlace q b
  holder : ∀ b, (t.bank b).holder = .proof → (s.bank b).holder = .proof
  proof : ∀ b, ((t.bank b).proof = (s.bank b).proof ∧ (t.bank b).proofState = (s.bank b).proofState)
    ∨ ∃ f, (s.bank b).proof = some f ∧ (t.bank b).proof = none ∧ (t.bank b).proofState = f.before

namespace Mild

variable {X Y Z W : List PosId} {s t u : State} {p : PosId}

theorem refl (s : State) : Mild X Y s s where
  others _ _ _ := rfl
  claiming _ _ _ := ⟨_, _, rfl⟩
  queue _ := id
  place _ _ := id
  holder _ := id
  proof _ := .inl ⟨rfl, rfl⟩

theorem trans (h : Mild X Y s t) (k : Mild X Y t u) : Mild X Y s u where
  others q m w := (k.others q m fun v n => w v (h.queue v n)).trans (h.others q m w)
  claiming q m e := by
    obtain ⟨f, c, first⟩ := h.claiming q m e
    obtain ⟨g, d, second⟩ := k.claiming q m (by rw [first]; exact e)
    exact ⟨g, d, by rw [second, first]⟩
  queue w := h.queue w ∘ k.queue w
  place q b := k.place q b ∘ h.place q b
  holder b := h.holder b ∘ k.holder b
  proof b := by
    rcases k.proof b with ⟨same, state⟩ | ⟨f, some, none, state⟩
    · rw [same, state]
      exact h.proof b
    · rcases h.proof b with ⟨same, -⟩ | ⟨-, -, gone, -⟩
      · exact .inr ⟨f, same ▸ some, none, state⟩
      · exact nomatch gone.symm.trans some

theorem mono (h : Mild X Y s t) (x : ∀ q ∈ X, q ∈ Z) (y : ∀ q ∈ Y, q ∈ W) : Mild Z W s t :=
  { h with
    others := fun q m => h.others q fun n => m (x q n)
    claiming := fun q m => h.claiming q fun n => m (y q n) }

theorem ite {c : Prop} [Decidable c] (h : c → Mild X Y s t) (k : ¬c → Mild X Y s u) : Mild X Y s (if c then t else u) := by
  split
  · exact h ‹_›
  · exact k ‹_›

/-- Sessions that were not in phase CLAIM have not left it. -/
theorem unclaim (h : Mild X Y s t) (y : ∀ q ∈ Y, (s.session q).phase ≠ some .claim) : Mild X [] s t :=
  { h with claiming := fun q _ e => h.claiming q (fun m => y q m e) e }

/-- Sessions that were waiting for cooling need not be named. -/
theorem unlist (h : Mild X Y s t) (x : ∀ q ∈ X, ∃ w ∈ s.cbu.queue, w.pos = q) : Mild [] Y s t :=
  { h with others := fun q _ k => h.others q (fun m => by obtain ⟨w, n, e⟩ := x q m; exact k w n e) k }

end Mild

/-- A session acts on its own record alone, and keeps its bank and its place in a wait queue. -/
structure Moves (p : PosId) (s t : State) : Prop where
  others : ∀ q, q ≠ p → t.session q = s.session q
  bm : t.bm = s.bm
  cbu : t.cbu = s.cbu
  runs : (s.session p).running = true → (t.session p).running = true
  bank : (t.session p).bank = (s.session p).bank
  awaited : (t.session p).awaited = (s.session p).awaited

namespace Moves

variable {s t u : State} {p : PosId}

theorem refl (s : State) : Moves p s s := ⟨fun _ _ => rfl, rfl, rfl, id, rfl, rfl⟩

theorem trans (h : Moves p s t) (k : Moves p t u) : Moves p s u :=
  ⟨fun q n => (k.others q n).trans (h.others q n), k.bm.trans h.bm, k.cbu.trans h.cbu, k.runs ∘ h.runs,
    k.bank.trans h.bank, k.awaited.trans h.awaited⟩

theorem ite {c : Prop} [Decidable c] (h : c → Moves p s t) (k : ¬c → Moves p s u) : Moves p s (if c then t else u) := by
  split
  · exact h ‹_›
  · exact k ‹_›

theorem session {f : Session → Session} (k : Moves p s t)
    (runs : ∀ x : Session, x.running = true → (f x).running = true := by exact fun _ => id)
    (place : ∀ x : Session, ((f x).bank, (f x).awaited) = (x.bank, x.awaited) := by exact fun _ => rfl) :
    Moves p s (t.modSession p f) := by
  have mine : (t.modSession p f).session p = f (t.session p) := State.modSession_session_same _ _ _
  refine k.trans ⟨fun q n => State.modSession_session_ne _ _ n, rfl, rfl, ?_, ?_, ?_⟩
  · rw [mine]
    exact runs _
  · rw [mine]
    exact congrArg Prod.fst (place _)
  · rw [mine]
    exact congrArg Prod.snd (place _)

theorem posted {n : Notice} (k : Moves p s t) : Moves p s (t.post n) := k.trans ⟨fun _ _ => rfl, rfl, rfl, id, rfl, rfl⟩

theorem shown (k : Moves p s t) : Moves p s (t.postSession p) := k.posted

theorem monitor {f : Monitor → Monitor} (k : Moves p s t) : Moves p s (t.modMonitor p f) :=
  k.trans ⟨fun _ _ => rfl, rfl, rfl, id, rfl, rfl⟩

theorem mild (h : Moves p s t) : Mild [p] [p] s t where
  others q m _ := h.others q fun e => m (e ▸ List.mem_cons_self)
  claiming q m _ := ⟨_, _, h.others q fun e => m (e ▸ List.mem_cons_self)⟩
  queue w m := h.cbu ▸ m
  place q b k := by
    by_cases e : q = p
    · subst e
      exact ⟨h.runs k.1, by rw [h.bank, h.awaited]; exact k.2⟩
    · unfold State.HasPlace
      rw [h.others q e]
      exact k
  holder b e := by
    unfold State.bank at e ⊢
    rw [← h.bm]
    exact e
  proof b := by
    unfold State.bank
    rw [h.bm]
    exact .inl ⟨rfl, rfl⟩

end Moves

namespace State

variable {s t : State} {p : PosId} {b : BankId}

/-! ### Phases of a session -/

theorem capture_moves (s : State) (p : PosId) : Moves p s (s.capture p) := by
  unfold capture
  split
  · exact .refl s
  · exact (Moves.refl s).session

theorem enterHeld_moves (s : State) (p : PosId) (f : Option Phase) : Moves p s (s.enterHeld p f) :=
  ((Moves.refl s).session (f := fun x =>
    { x.quiet with
      state := .held
      resumePoint := f
      heldBefore := x.heldTime
      keepTimer := if x.bank.isSome then some s.config.bankKeepInterval else none }) (fun _ _ => rfl)).shown

theorem enterDelivering_moves (s : State) (p : PosId) : Moves p s (s.enterDelivering p) :=
  ((Moves.refl s).session (f := fun x =>
    { x.quiet with
      state := .delivering, flowCeiling := s.rampCeiling p, segmentTimer := some (s.profileOf p).segmentLength })
    (fun _ _ => rfl)).shown.trans (capture_moves _ p)

theorem connected_moves (s : State) (p : PosId) : Moves p s (s.connected p) :=
  have done : Moves p s (s.finishConnection p) := (Moves.refl s).session
  done.trans (.ite (fun _ => enterDelivering_moves _ p) fun _ => enterHeld_moves _ p _)

theorem beginLeakCheck_moves (s : State) (p : PosId) : Moves p s (s.beginLeakCheck p) := by
  unfold beginLeakCheck
  exact (Moves.refl s).session fun _ _ => rfl

theorem endConnect_moves (s : State) (p : PosId) : Moves p s (s.endConnect p) :=
  .ite (fun _ => beginLeakCheck_moves s p) fun _ => enterHeld_moves s p _

theorem beginConnect_moves (s : State) (p : PosId) : Moves p s (s.beginConnect p) := by
  unfold beginConnect
  exact ((Moves.refl s).session (fun _ _ => rfl)).trans (.ite (fun _ => endConnect_moves _ p) fun _ => .refl _)

theorem beginSettle_moves (s : State) (p : PosId) : Moves p s (s.beginSettle p) := by
  unfold beginSettle
  exact ((Moves.refl s).session (fun _ _ => rfl)).trans (.ite (fun _ => connected_moves _ p) fun _ => .refl _)

theorem enterClaim_moves (s : State) (p : PosId) : Moves p s ((s.enterClaim p).postSession p) := by
  have claims : Moves p s (s.enterClaim p) := (Moves.refl s).session (fun _ _ => rfl)
  exact claims.shown

theorem endClaim_moves (s : State) (p : PosId) : Moves p s (s.endClaim p) :=
  .ite (fun _ => .ite (fun _ => beginSettle_moves s p) fun _ => beginConnect_moves s p) fun _ => enterHeld_moves s p _

/-! ### Claims -/

theorem claimGranted_bank (s : State) (b : BankId) (p : PosId) : ((s.claimGranted b p).session p).bank = some b := by
  have held : ((((s.snapshotClaim b p).modSession p fun x => x.holdBank b)).session p).bank = some b := by
    rw [modSession_session_same]
    rfl
  have marked : ∀ t : State, (t.session p).bank = some b →
      ((if t.bm.freshness = .stale then t.setFactor p .bank else t).session p).bank = some b := fun t e => by
    split
    · unfold setFactor
      rw [modSession_session_same]
      exact e
    · exact e
  unfold claimGranted
  dsimp only
  rw [(endClaim_moves _ p).bank]
  exact marked _ held

/-- A bank granted to a session that awaits it or that has no place. -/
theorem claimGranted_mild (s : State) (b : BankId) (p : PosId) (only : ∀ c, s.HasPlace p c → c = b) :
    Mild [p] [p] s (s.claimGranted b p) := by
  have others : ∀ q, q ≠ p → (s.claimGranted b p).session q = s.session q := fun q n => (claimGranted_spares n.symm s b).1
  have bm := claimGranted_bm s b p
  have cbu : (s.claimGranted b p).cbu = s.cbu := (claimGranted_spares (another_ne p).symm s b).cbu
  refine ⟨fun q m _ => others q fun e => m (e ▸ List.mem_cons_self),
    fun q m _ => ⟨_, _, others q fun e => m (e ▸ List.mem_cons_self)⟩, fun w m => cbu ▸ m, fun q c k => ?_, fun c e => ?_,
    fun c => ?_⟩
  · by_cases e : q = p
    · subst e
      obtain rfl := only c k
      exact ⟨claimGranted_goesOn s c q q k.1, .inl (claimGranted_bank s c q)⟩
    · unfold HasPlace
      rw [others q e]
      exact k
  · unfold bank at e ⊢
    rw [← bm]
    exact e
  · unfold bank
    rw [bm]
    exact .inl ⟨rfl, rfl⟩

end State

end Sys2Proof.Machine
end

section
/-! SUPPORT. Claims, holds that end, cooling granted and sessions that end, where no bank is given back (R59, R74, R90, R123,
R124, R148). -/

namespace Sys2Proof.Machine

set_option Elab.async false

namespace State

variable {s t : State} {p : PosId} {b : BankId}

/-! ### Claims -/

/-- A session holds no bank and awaits none. -/
def Placeless (s : State) (p : PosId) : Prop := (s.session p).bank = none ∧ (s.session p).awaited = none

theorem Placeless.no_place (h : s.Placeless p) (b : BankId) : ¬s.HasPlace p b := fun k =>
  k.2.elim (fun e => nomatch h.1.symm.trans e) fun e => nomatch h.2.symm.trans e

theorem takeBank_mild (s : State) (b : BankId) (p : PosId) : Mild [p] [p] s (s.takeBank b p) := by
  have taken : (s.takeBank b p).bank b = { s.bank b with
      holder := .position p
      proofState := ((s.bank b).proof.map (·.before)).getD (s.bank b).proofState
      proof := none } := by
    unfold takeBank
    rw [modBank_bank_same, abandonProof_bank]
  have other : ∀ c, c ≠ b → (s.takeBank b p).bank c = s.bank c := fun c n =>
    (modBank_bank_ne _ _ n).trans (abandonProof_bank_ne s n)
  have session : ∀ q, (s.takeBank b p).session q = s.session q := fun q => by
    unfold takeBank
    rw [abandonProof_eq]
    rfl
  have cbu : (s.takeBank b p).cbu = s.cbu := by
    unfold takeBank
    rw [abandonProof_eq]
    rfl
  refine ⟨fun q _ _ => session q, fun q _ _ => ⟨_, _, session q⟩, fun w m => cbu ▸ m, fun q c k => ?_, fun c e => ?_,
    fun c => ?_⟩
  · unfold HasPlace
    rw [session]
    exact k
  · by_cases n : c = b
    · rw [n, taken] at e
      exact nomatch e
    · rw [other c n] at e
      exact e
  · by_cases n : c = b
    · rw [n, taken]
      cases e : (s.bank b).proof with
      | none => exact .inl ⟨rfl, rfl⟩
      | some f => exact .inr ⟨f, rfl, rfl, rfl⟩
    · rw [other c n]
      exact .inl ⟨rfl, rfl⟩

theorem queued_mild (h : s.Placeless p) (timer : Option Nat) : Mild [p] [p] s (s.queued p b timer) := by
  have other : ∀ q, q ≠ p → (s.queued p b timer).session q = s.session q := fun q n => queued_session_ne timer n
  have bank : ∀ c, ((s.queued p b timer).bank c).holder = (s.bank c).holder
      ∧ ((s.queued p b timer).bank c).proof = (s.bank c).proof
      ∧ ((s.queued p b timer).bank c).proofState = (s.bank c).proofState := fun c => by
    by_cases n : c = b
    · rw [n, queued_bank]
      exact ⟨rfl, rfl, rfl⟩
    · rw [show (s.queued p b timer).bank c = s.bank c from Quad.get_set_ne _ _ n]
      exact ⟨rfl, rfl, rfl⟩
  refine ⟨fun q m _ => other q fun e => m (e ▸ List.mem_cons_self),
    fun q m _ => ⟨_, _, other q fun e => m (e ▸ List.mem_cons_self)⟩, fun w => id, fun q c k => ?_,
    fun c e => (bank c).1.symm.trans e, fun c => .inl (bank c).2⟩
  by_cases e : q = p
  · exact (h.no_place c (e ▸ k)).elim
  · unfold HasPlace
    rw [other q e]
    exact k

theorem queued_place (run : (s.session p).running = true) (timer : Option Nat) : (s.queued p b timer).HasPlace p b := by
  unfold HasPlace
  rw [queued_session]
  exact ⟨run, .inr rfl⟩

/-- A refill ended hands its bank to the position that alone waits for it. -/
theorem endRefill_hands (queue : (s.bank b).queue = [p]) (r : RefillReason) :
    ∃ l n, s.endRefill b r =
      { (({ s with bm := { s.bm with refillInFlight := none, yieldTimer := none } }).modBank b fun x =>
          { x with holder := .position p, queue := [] }).claimGranted b p with
        bm :=
          { s.bm with
            banks := s.bm.banks.set b { s.bank b with holder := .position p, queue := [] }
            refillInFlight := none
            yieldTimer := none
            refillList := l }
        outbox := n } := by
  let g : State := (({ s with bm := { s.bm with refillInFlight := none, yieldTimer := none } }).modBank b fun x =>
    { x with holder := .position p, queue := [] }).claimGranted b p
  have handed : (({ s with bm := { s.bm with refillInFlight := none, yieldTimer := none } } : State).handOff b) = g := by
    unfold handOff
    rw [show ((({ s with bm := { s.bm with refillInFlight := none, yieldTimer := none } } : State).bank b).queue) = [p] from queue]
  have bm : g.bm = { s.bm with
      banks := s.bm.banks.set b { s.bank b with holder := .position p, queue := [] }
      refillInFlight := none
      yieldTimer := none } := claimGranted_bm _ _ _
  have relisted : ∃ l, (g.post (.refillStop b r)).relist b = { g with
      bm := { g.bm with refillList := l }, outbox := g.outbox ++ [.refillStop b r] } := by
    unfold relist enterRefillList
    split
    · split
      · exact ⟨_, rfl⟩
      · exact ⟨_, rfl⟩
    · exact ⟨_, rfl⟩
  obtain ⟨l, whole⟩ := relisted
  have ends : s.refillEnds b r = { g with
      bm := { g.bm with refillList := l }, outbox := g.outbox ++ [.refillStop b r] } :=
    (congrArg (fun x : State => (x.post (.refillStop b r)).relist b) handed).trans whole
  refine ⟨l, g.outbox ++ [.refillStop b r], ?_⟩
  have kept : ((s.refillEnds b r).bank b).holder ≠ .free := by
    rw [ends]
    show (g.bm.banks.get b).holder ≠ .free
    rw [bm]
    show ((s.bm.banks.set b { s.bank b with holder := .position p, queue := [] }).get b).holder ≠ .free
    rw [Quad.get_set_same]
    nofun
  refine (if_neg kept).trans (ends.trans ?_)
  rw [bm]

theorem endRefill_mild (queue : (s.bank b).queue = [p]) (only : ∀ c, s.HasPlace p c → c = b) (r : RefillReason) :
    Mild [p] [p] s (s.endRefill b r) := by
  obtain ⟨l, n, whole⟩ := endRefill_hands queue r
  rw [whole]
  let v : State := ({ s with bm := { s.bm with refillInFlight := none, yieldTimer := none } }).modBank b fun x =>
    { x with holder := .position p, queue := [] }
  have bank : ∀ c, ((v.bank c).holder = .proof → (s.bank c).holder = .proof)
      ∧ (v.bank c).proof = (s.bank c).proof ∧ (v.bank c).proofState = (s.bank c).proofState := fun c => by
    by_cases e : c = b
    · rw [e, show v.bank b = { s.bank b with holder := .position p, queue := [] } from modBank_bank_same _ _ _]
      exact ⟨nofun, rfl, rfl⟩
    · rw [show v.bank c = s.bank c from modBank_bank_ne _ _ e]
      exact ⟨id, rfl, rfl⟩
  have freed : Mild [p] [p] s v :=
    ⟨fun _ _ _ => rfl, fun _ _ _ => ⟨_, _, rfl⟩, fun _ => id, fun _ _ => id, fun c => (bank c).1, fun c => .inl (bank c).2⟩
  have granted : Mild [p] [p] v (v.claimGranted b p) := claimGranted_mild v b p only
  have both := freed.trans granted
  have bm : (v.claimGranted b p).bm.banks = s.bm.banks.set b { s.bank b with holder := .position p, queue := [] } :=
    congrArg BankManager.banks (claimGranted_bm v b p)
  refine ⟨both.others, both.claiming, both.queue, both.place, fun c e => both.holder c ?_, fun c => ?_⟩
  · unfold State.bank
    rw [bm]
    exact e
  · have k := both.proof c
    unfold State.bank at k
    rw [bm] at k
    exact k

/-- What a claim request comes to of a position without a place. -/
theorem claim_mild (h : s.Placeless p) (b : BankId) : Mild [p] [p] s (s.claim b p)
    ∧ (s.holdsOrWaits p = false → s.usable b p = true → (s.session p).running = true → (s.claim b p).HasPlace p b) := by
  by_cases aside : s.holdsOrWaits p = false
  case neg =>
    have refused : s.claim b p = s := by
      unfold claim claimRequest
      rw [if_pos (Bool.not_eq_false _ ▸ aside)]
    exact ⟨by rw [refused]; exact .refl s, fun k => (aside k).elim⟩
  by_cases usable : s.usable b p = true
  case neg =>
    have refused : s.claim b p = s := by
      unfold claim claimRequest
      rw [if_neg (by rw [aside]; exact Bool.false_ne_true), if_pos (by rw [Bool.eq_false_iff.mpr usable]; rfl)]
    exact ⟨by rw [refused]; exact .refl s, fun _ k => (usable k).elim⟩
  have takes : s.claim b p = (s.takeBank b p).claimGranted b p → Mild [p] [p] s (s.claim b p)
      ∧ ((s.session p).running = true → (s.claim b p).HasPlace p b) := fun e => by
    have session : (s.takeBank b p).session p = s.session p := by
      unfold takeBank
      rw [abandonProof_eq]
      rfl
    have placeless : (s.takeBank b p).Placeless p := by
      unfold Placeless
      rw [session]
      exact h
    rw [e]
    exact ⟨(takeBank_mild s b p).trans (claimGranted_mild _ b p fun c k => (placeless.no_place c k).elim), fun run =>
      ⟨claimGranted_goesOn _ b p p (session ▸ run), .inl (claimGranted_bank _ b p)⟩⟩
  have waits : ∀ timer, s.claim b p = s.queued p b timer → Mild [p] [p] s (s.claim b p)
      ∧ ((s.session p).running = true → (s.claim b p).HasPlace p b) := fun timer e => by
    rw [e]
    exact ⟨queued_mild h timer, fun run => queued_place run timer⟩
  have all : Mild [p] [p] s (s.claim b p) ∧ ((s.session p).running = true → (s.claim b p).HasPlace p b) := by
    cases o : (s.bank b).holder with
    | free => exact takes (claim_granted aside usable (.inl o))
    | proof => exact takes (claim_granted aside usable (.inr o))
    | position q =>
      refine waits s.bm.yieldTimer ?_
      rw [claim_waits aside usable (.inl ⟨q, o⟩), joinQueue_busy (by rw [o]; nofun)]
      exact if_neg fun k => by
        rw [queued_bank] at k
        exact nomatch o.symm.trans k.2.1
    | refill =>
      have e : s.claim b p = (s.queued p b (some (s.bm.yieldTimer.getD (s.config.param 13)))).yieldAtOnce b
          (s.bank b).queue.isEmpty := by
        rw [claim_waits aside usable (.inr o), joinQueue_refill o]
      by_cases c : (s.bank b).queue.isEmpty = true
        ∧ ((s.queued p b (some (s.bm.yieldTimer.getD (s.config.param 13)))).bank b).holder = .refill
        ∧ (s.queued p b (some (s.bm.yieldTimer.getD (s.config.param 13)))).bm.yieldTimer = some 0
      · have ends : s.claim b p = (s.queued p b (some (s.bm.yieldTimer.getD (s.config.param 13)))).endRefill b .yield :=
          e.trans (if_pos c)
        have alone : ((s.queued p b (some (s.bm.yieldTimer.getD (s.config.param 13)))).bank b).queue = [p] := by
          rw [queued_bank, List.isEmpty_iff.mp c.1]
          rfl
        have only : ∀ d, (s.queued p b (some (s.bm.yieldTimer.getD (s.config.param 13)))).HasPlace p d → d = b := fun d k => by
          have place := k.2
          rw [queued_session] at place
          rcases place with e | e
          · exact nomatch h.1.symm.trans e
          · exact (Option.some.inj e).symm
        have mild := endRefill_mild alone only .yield
        rw [ends]
        exact ⟨(queued_mild h _).trans mild, fun run => mild.place p b (queued_place run _)⟩
      · exact waits _ (e.trans (if_neg c))
  exact ⟨all.1, fun _ _ => all.2⟩

end State

/-! ### The cascade of one event -/

/-- An ender of sessions without a place that gives no bank back. -/
def Ender.Milds (A : Aspects) (endK : Ender) : Prop := ∀ p s, Linked A none s → (s.session p).running = true →
  s.Placeless p → Mild [p] [p] s (endK p .banksExhausted s)

namespace State

section
variable {A : Aspects} {endK : Ender} {s : State} {p : PosId} (hM : endK.Milds A)
include hM

theorem selectBank_mild (h : Linked A none s) (run : (s.session p).running = true) (free : s.Placeless p) :
    Mild [p] [p] s (s.selectBank endK p) := by
  unfold selectBank
  refine .ite (fun _ => ?_) fun _ => ?_
  · have waits : Moves p s (s.awaitFresh p) := by
      unfold awaitFresh
      exact (Moves.refl s).session
    exact waits.mild
  · split
    · exact (claim_mild free _).1
    · exact hM p s h run free

theorem enterClaim_mild (h : Linked A none s) (run : (s.session p).running = true) (free : s.Placeless p)
    (point : (s.session p).resumePoint = none) : Mild [p] [p] s (((s.enterClaim p).postSession p).selectBank endK p) := by
  have moves := enterClaim_moves s p
  refine moves.mild.trans (selectBank_mild hM
    (postSession_linked (enterClaim_linked h run fun _ _ => ⟨free.1, point⟩) p) (moves.runs run) ⟨?_, ?_⟩)
  · rw [moves.bank]
    exact free.1
  · rw [moves.awaited]
    exact free.2

omit hM in
/-- A session that the coherence of the sessions keeps out of phase CLAIM leaves it no more. -/
theorem coherent_unclaim {t : State} {X : List PosId} (co : A.coherent) (h : Linked A none s)
    (state : (s.session p).state ≠ .connecting) (k : Mild X [p] s t) : Mild X [] s t := by
  refine k.unclaim fun q m => ?_
  rw [List.mem_singleton.mp m, (h.coherent co p nofun).no_phase state]
  nofun

theorem leaveOpening_mild (co : A.coherent) (h : Linked A none s) (opening : (s.session p).state = .opening) :
    Mild [p] [] s (s.leaveOpening endK p) := by
  have c := h.coherent co p nofun
  have away := c.awaits (by rw [c.no_phase (by rw [opening]; nofun)]; nofun)
  have moves : Moves p s ((s.newConnection p .first (some .first)).restartProgress p) := by
    have begun : Moves p s (s.newConnection p .first (some .first)) := (Moves.refl s).session
    exact begun.monitor
  have linked : Linked A none ((s.newConnection p .first (some .first)).restartProgress p) :=
    Linked.monitor (newConnection_linked h p _ _)
  have run : (s.session p).running = true := by
    unfold Session.running
    rw [opening]
  have free : ((s.newConnection p .first (some .first)).restartProgress p).Placeless p := by
    refine ⟨moves.bank.trans (c.no_bank (by rw [opening]; nofun)), moves.awaited.trans away.1⟩
  have point : (((s.newConnection p .first (some .first)).restartProgress p).session p).resumePoint = none := by
    show ((s.newConnection p .first (some .first)).session p).resumePoint = none
    unfold newConnection
    rw [modSession_session_same]
  refine coherent_unclaim co h (by rw [opening]; nofun) (moves.mild.trans ?_)
  exact .ite (fun _ => enterClaim_mild hM linked (moves.runs run) free point) fun _ => (enterHeld_moves _ p _).mild

theorem reconnect_mild (h : Linked A none s) (run : (s.session p).running = true) (free : s.Placeless p) :
    Mild [p] [p] s (s.reconnect endK p) := by
  have moves : ∀ k a, Moves p s (s.newConnection p k a) := fun _ _ => (Moves.refl s).session
  refine (moves _ _).mild.trans (enterClaim_mild hM (newConnection_linked h p _ _) ((moves _ _).runs run)
    ⟨(moves _ _).bank.trans free.1, (moves _ _).awaited.trans free.2⟩ ?_)
  unfold newConnection
  rw [modSession_session_same]

theorem resumeConnection_mild (co : A.coherent) (h : Linked A none s) (held : (s.session p).state = .held) {f : Phase}
    (point : (s.session p).resumePoint = some f) : Mild [p] [p] s (s.resumeConnection endK p f) := by
  have cleared : Moves p s (s.modSession p fun x => { x with resumePoint := none }) := (Moves.refl s).session
  have back : Moves p s (((s.modSession p fun x => { x with resumePoint := none }).enterClaim p).postSession p) :=
    cleared.trans (enterClaim_moves _ p)
  unfold resumeConnection
  cases f with
  | claim =>
    have linked : Linked A none (s.modSession p fun x => { x with resumePoint := none }) :=
      h.session (k := fun _ _ c => ⟨c.phase, c.selects, fun b => ⟨(c.holds b).1, nofun, (c.holds b).2.2⟩, nofun⟩)
    have bank : (s.session p).bank = none := by
      cases b : (s.session p).bank with
      | none => rfl
      | some d => exact absurd point ((h.coherent co p nofun).holds (by rw [b]; rfl)).2.1
    refine cleared.mild.trans (enterClaim_mild hM linked (cleared.runs (held_runs held))
      ⟨cleared.bank.trans bank, cleared.awaited.trans (held_awaits h held co).1⟩ ?_)
    rw [modSession_session_same]
  | connect => exact (back.trans (beginConnect_moves _ p)).mild
  | leakCheck => exact (back.trans (beginLeakCheck_moves _ p)).mild
  | settle => exact (back.trans (beginSettle_moves _ p)).mild

theorem resume_mild (co : A.coherent) (h : Linked A none s) (held : (s.session p).state = .held) :
    Mild [p] [p] s (s.resume endK p) := by
  have left : Moves p s (s.modSession p fun x => x.leaveHold (s.profileOf p).holdLimit) := (Moves.refl s).session
  have linked : Linked A none (s.modSession p fun x => x.leaveHold (s.profileOf p).holdLimit) := h.session
  have still : ((s.modSession p fun x => x.leaveHold (s.profileOf p).holdLimit).session p).state = .held := by
    rw [modSession_session_same]
    exact held
  unfold resume
  refine left.mild.trans ?_
  dsimp only
  split
  · exact resumeConnection_mild hM co linked still ‹_›
  · refine .ite (fun _ => (enterDelivering_moves _ p).mild) fun none => reconnect_mild hM linked (held_runs still) ⟨?_, ?_⟩
    · simpa using none
    · exact (held_awaits linked still co).1

theorem clearFactor_mild (co : A.coherent) (h : Linked A none s) (p : PosId) (f : Factor) :
    Mild [p] [] s (s.clearFactor endK p f) := by
  unfold clearFactor
  refine .ite (fun _ => ?_) fun _ => .refl s
  have linked : Linked A none (s.modSession p fun x => { x with factors := x.factors.put f false }) := h.session
  have put : Mild [p] [] s (s.modSession p fun x => { x with factors := x.factors.put f false }) := by
    have moves : Moves p s (s.modSession p fun x => { x with factors := x.factors.put f false }) := (Moves.refl s).session
    refine { moves.mild with claiming := fun q _ _ => ?_ }
    by_cases e : q = p
    · exact ⟨_, (s.session q).cooling, by rw [e, modSession_session_same]⟩
    · exact ⟨_, _, moves.others q e⟩
  refine put.trans (.ite (fun c => ?_) fun _ => .refl _)
  refine coherent_unclaim co linked (by rw [c.1]; nofun) ?_
  have starts : ∀ (t : State) n, Moves p t (t.modSession p fun x => { x with resumeTimer := some n }) := fun t _ =>
    (Moves.refl t).session
  exact .ite (fun _ => resume_mild hM co linked c.1) fun _ => (starts _ _).mild

theorem coolingGranted_mild (co : A.coherent) (h : Linked A none s) (p : PosId) : Mild [p] [] s (s.coolingGranted endK p) := by
  have linked : Linked A none (s.modSession p fun x => { x with cooling := .granted }) := h.session
  have told : Mild [p] [] s (s.modSession p fun x => { x with cooling := .granted }) := by
    have moves : Moves p s (s.modSession p fun x => { x with cooling := .granted }) := (Moves.refl s).session
    refine { moves.mild with claiming := fun q _ _ => ?_ }
    by_cases e : q = p
    · exact ⟨(s.session q).factors, _, by rw [e, modSession_session_same]⟩
    · exact ⟨_, _, moves.others q e⟩
  exact told.trans (.ite (fun c => leaveOpening_mild hM co linked c) fun _ => clearFactor_mild hM co linked p _)

variable (hL : endK.Links A)
include hL

theorem grantFromHead_mild (co : A.coherent) (n : Nat) (s : State) (h : Linked A none s) :
    Mild [] [] s (grantFromHead endK n s) := by
  induction n generalizing s with
  | zero => exact .refl s
  | succ n ih =>
    unfold grantFromHead
    split
    · exact .refl s
    · rename_i w rest e
      refine .ite (fun _ => .refl s) fun _ => ?_
      have head : w ∈ s.cbu.queue := e ▸ List.mem_cons_self
      have granted : Mild [w.pos] [] s (s.grantHead w rest) :=
        ⟨fun _ _ _ => rfl, fun _ _ _ => ⟨_, _, rfl⟩, fun v (m : v ∈ rest) => e ▸ List.mem_cons_of_mem w m, fun _ _ => id,
          fun _ => id, fun _ => .inl ⟨rfl, rfl⟩⟩
      have linked : Linked A none (s.grantHead w rest) := by
        unfold grantHead setCoolingQueue
        refine Linked.posted ?_
        show Linked A none (s.modCbu fun c => { c with grants := c.grants ++ [⟨w.pos, w.demand, w.limit⟩], queue := rest })
        refine h.cbu ?_
        unfold CoolingUnit.positions
        rw [e]
        simp
      have first : Mild [] [] s ((s.grantHead w rest).coolingGranted endK w.pos) :=
        (granted.trans (coolingGranted_mild hM co linked w.pos)).unlist fun q m =>
          ⟨w, head, (List.mem_singleton.mp m).symm⟩
      exact first.trans (ih _ (coolingGranted_linked hL linked _))

theorem grantWaiters_mild (co : A.coherent) (h : Linked A none s) : Mild [] [] s (s.grantWaiters endK) :=
  grantFromHead_mild hM hL co _ s h

end

end State

end Sys2Proof.Machine
end

section
/-! SUPPORT. A session that ends without a place gives no bank back, nor does anything that follows in its event (R93, R148,
R156). -/

namespace Sys2Proof.Machine

set_option Elab.async false

variable {A : Aspects} {endK : Ender} {s t : State} {p : PosId}

/-- A session without a place acts on its own record, and waiters for cooling may leave their list. -/
theorem Mild.alone (free : s.Placeless p) (others : ∀ q, q ≠ p → t.session q = s.session q) (bm : t.bm = s.bm)
    (queue : ∀ w ∈ t.cbu.queue, w ∈ s.cbu.queue) : Mild [p] [p] s t where
  others q m _ := others q fun e => m (e ▸ List.mem_cons_self)
  claiming q m _ := ⟨_, _, others q fun e => m (e ▸ List.mem_cons_self)⟩
  queue := queue
  place q b k := by
    by_cases e : q = p
    · exact (free.no_place b (e ▸ k)).elim
    · unfold State.HasPlace
      rw [others q e]
      exact k
  holder b e := by
    unfold State.bank at e ⊢
    rw [← bm]
    exact e
  proof b := by
    unfold State.bank
    rw [bm]
    exact .inl ⟨rfl, rfl⟩

namespace State

/-- A session without a place, marked as ended, gives up its cooling. -/
theorem leaveCooling_mild (hM : endK.Milds A) (hL : endK.Links A) (co : A.coherent) (h : Linked A (some p) s)
    (free : s.Placeless p) (c : (s.session p).Coherent) : Mild [p] [p] s (s.leaveCooling endK p) := by
  have without : Mild [p] [p] s (s.modCbu fun c => without c p) :=
    .alone free (fun _ _ => rfl) rfl fun _ m => List.mem_of_mem_filter m
  have linked : Linked A none (s.modCbu fun c => State.without c p) := without_linked h free.1 free.2 fun _ => c
  have wide : ∀ t : State, Linked A none t → Mild [p] [p] t (t.grantWaiters endK) := fun t l =>
    (grantWaiters_mild hM hL co l).mono nofun nofun
  rcases leaveCooling_eq (p := p) h.listed endK with ⟨e, -⟩ | e | ⟨n, e⟩
  · rw [e]
    exact .refl s
  · rw [e]
    exact without.trans (wide _ linked)
  · rw [e]
    refine without.trans (Mild.trans (t := (s.modCbu fun c => State.without c p).post n) ?_ (wide _ linked.posted))
    exact .alone free (fun _ _ => rfl) rfl fun _ => id

theorem endSteps_mild (hM : endK.Milds (A.unfiling p)) (hL : endK.Links (A.unfiling p)) (co : A.coherent)
    (h : Linked A none s) (run : (s.session p).running = true) (free : s.Placeless p) (r : EndReason) :
    Mild [p] [p] s (s.endSteps endK p r) := by
  let v := s.modSession p fun x => x.markEnded r s.site.siteTime (s.endingNozzle p)
  have mine : v.session p = (s.session p).markEnded r s.site.siteTime (s.endingNozzle p) := modSession_session_same _ _ _
  have marked : Mild [p] [p] s v := .alone free (fun _ n => modSession_session_ne _ _ n) rfl fun _ => id
  have placeless : v.Placeless p := by
    unfold Placeless
    rw [mine]
    exact free
  have kept : (v.releaseClaim p).leaveQueue p = v := by
    rw [releaseClaim_none placeless.1, leaveQueue_none placeless.2]
  have coherent : (v.session p).Coherent := by
    rw [mine]
    exact .of_still nofun rfl free.1 ⟨free.2, rfl, rfl⟩
  have cooled : Mild [p] [p] v (v.leaveCooling endK p) :=
    leaveCooling_mild hM hL co (marked_linked h run r) placeless coherent
  have shape : s.endSteps endK p r
      = ((((v.releaseClaim p).leaveQueue p).leaveCooling endK p).modSession p fun x =>
          { x with cooling := .noCooling }).postSession p := rfl
  rw [shape, kept]
  refine (marked.trans cooled).trans ?_
  have last : Moves p (v.leaveCooling endK p) ((v.leaveCooling endK p).modSession p fun x => { x with cooling := .noCooling }) :=
    (Moves.refl _).session
  exact last.shown.mild

end State

theorem endSession_milds (n : Nat) (co : A.coherent) (served : ¬A.unserved) : (endSession n).Milds A := by
  induction n generalizing A with
  | zero => exact fun _ s _ _ _ => .refl s
  | succ n ih =>
    intro p s h run free
    have steps := State.endSteps_mild (ih co served) (endSession_links n) co h run free .banksExhausted
    obtain ⟨linked, -, mine⟩ := State.endSteps_linked (endSession_links n) (fun q => endSession_leaves q n) h run .banksExhausted
    have stopped : ((s.endSteps (endSession n) p .banksExhausted).session p).running = false := by
      unfold Session.running
      rw [mine, State.endedSession_state]
    have massless : (s.session p).finalMass = none := by
      by_contra c
      exact Session.running_state run (h.massed p (Option.isSome_iff_ne_none.mpr c))
    have join : State.Joins p (s.endSteps (endSession n) p .banksExhausted) ((s.endSteps (endSession n) p .banksExhausted).joinCloseQueue p) :=
      State.joinCloseQueue_joins (linked.shelved.served served) fun _ =>
        (Session.fixed_finalMass ((State.endSteps_steady (endSession_steady n) s p .banksExhausted).sessions p massless)).trans massless
    refine .ite (fun _ => steps.trans ?_) fun c => (c run).elim
    exact .alone ((linked.away p stopped).1 nofun) join.others join.bm fun _ m => join.cbu ▸ m

/-- Where no bank is given back: the end of a session that no bank serves, with all that follows it. -/
theorem endNow_milds (co : A.coherent) (served : ¬A.unserved) : endNow.Milds A := endSession_milds 4 co served

end Sys2Proof.Machine
end

section
/-! SUPPORT. What the steps of a bank status report in which a session may select leave of the sessions of other positions
(R52, R63, R124, R148, R159). -/

namespace Sys2Proof.Machine

set_option Elab.async false

/-- The agreements that an event carries from its first state to its last. -/
abbrev Aspects.whole : Aspects := { coherent := True, numbered := False, agreed := True }

/-- The close queue and the closing register after an event in which sessions may have ended (R152, R159). -/
structure Files (s t : State) : Prop where
  joined : s.sales.pendingSessions <+: t.sales.pendingSessions
  busy : s.sales.register ≠ none → t.sales.register = s.sales.register ∧ t.sales.closingTimer = s.sales.closingTimer

namespace Files

variable {s t u : State} {X Y : List PosId}

theorem same (h : t.sales = s.sales) : Files s t := ⟨by rw [h], fun _ => by rw [h]; exact ⟨rfl, rfl⟩⟩

theorem trans (h : Files s t) (k : Files t u) : Files s u where
  joined := h.joined.trans k.joined
  busy n := by
    obtain ⟨register, timer⟩ := h.busy n
    obtain ⟨later, still⟩ := k.busy (register ▸ n)
    exact ⟨later.trans register, still.trans timer⟩

theorem of_ensues (h : Ensues X Y s t) (l : Linked .whole none s) : Files s t := by
  obtain ⟨gone, taken, rest, c⟩ := h (State.ready_of l.consistent)
  exact ⟨⟨gone, c.joined.symm⟩, c.busy⟩

end Files

/-- An event gives no bank back: the agreements stand, sessions may end, waiters be granted cooling and proofs be
abandoned. -/
structure Orderly (s t : State) : Prop where
  linked : Linked .whole none t
  steady : Steady s t
  files : Files s t
  queue : ∀ w ∈ t.cbu.queue, w ∈ s.cbu.queue
  holder : ∀ b, (t.bank b).holder = .proof → (s.bank b).holder = .proof
  proof : ∀ b, ((t.bank b).proof = (s.bank b).proof ∧ (t.bank b).proofState = (s.bank b).proofState)
    ∨ ∃ f, (s.bank b).proof = some f ∧ (t.bank b).proof = none ∧ (t.bank b).proofState = f.before

theorem Orderly.trans {s t u : State} (h : Orderly s t) (k : Orderly t u) : Orderly s u where
  linked := k.linked
  steady := h.steady.trans k.steady
  files := h.files.trans k.files
  queue w := h.queue w ∘ k.queue w
  holder b := h.holder b ∘ k.holder b
  proof b := by
    rcases k.proof b with ⟨same, state⟩ | ⟨f, some, none, state⟩
    · rw [same, state]
      exact h.proof b
    · rcases h.proof b with ⟨same, -⟩ | ⟨-, -, gone, -⟩
      · exact .inr ⟨f, same ▸ some, none, state⟩
      · exact nomatch gone.symm.trans some

/-- Such an event, in which a position's session does not act itself. -/
structure PassesBy (p : PosId) (s t : State) : Prop extends Orderly s t where
  session : (∀ w ∈ s.cbu.queue, w.pos ≠ p) → t.session p = s.session p
  claiming : (s.session p).phase = some .claim → ∃ f c, t.session p = { s.session p with factors := f, cooling := c }
  place : ∀ b, s.HasPlace p b → t.HasPlace p b

namespace PassesBy

variable {s t u : State} {p : PosId} {X Y Z : List PosId}

theorem refl (h : Linked .whole none s) : PassesBy p s s where
  linked := h
  steady := .refl s
  files := .same rfl
  queue _ := id
  holder _ := id
  proof _ := .inl ⟨rfl, rfl⟩
  session _ := rfl
  claiming _ := ⟨_, _, rfl⟩
  place _ := id

theorem trans (h : PassesBy p s t) (k : PassesBy p t u) : PassesBy p s u where
  toOrderly := h.toOrderly.trans k.toOrderly
  session w := (k.session fun v n => w v (h.queue v n)).trans (h.session w)
  claiming e := by
    obtain ⟨f, c, first⟩ := h.claiming e
    obtain ⟨g, d, second⟩ := k.claiming (by rw [first]; exact e)
    exact ⟨g, d, by rw [second, first]⟩
  place b := k.place b ∘ h.place b

/-- An event that gives no bank back, of sessions other than that of a position. -/
theorem of_mild (k : Mild X Y s t) (h : Linked .whole none s) (linked : Linked .whole none t) (steady : Steady s t)
    (ensues : Ensues Z [] s t) (x : p ∉ X) (y : p ∉ Y) : PassesBy p s t where
  linked := linked
  steady := steady
  files := .of_ensues ensues h
  queue := k.queue
  holder := k.holder
  proof := k.proof
  session := k.others p x
  claiming := k.claiming p y
  place := k.place p

end PassesBy

/-- A session that awaits no bank any more. -/
def Session.unwaiting (x : Session) : Session := { x with awaited := none, bankWaitTimer := none }

namespace State

variable {s t u : State} {p q : PosId} {b : BankId} {r : EndReason}

theorem endNow_milds_whole : endNow.Milds .whole := endNow_milds trivial id

/-! ### A session that leaves its wait queue -/

theorem settleYield_bank (s : State) (c : BankId) : s.settleYield.bank c = s.bank c := by
  unfold settleYield
  split
  · split <;> rfl
  · rfl

theorem settleYield_modSession (s : State) (p : PosId) (f : Session → Session) :
    s.settleYield.modSession p f = (s.modSession p f).settleYield := by
  unfold settleYield
  have flight : (s.modSession p f).bm.refillInFlight = s.bm.refillInFlight := rfl
  rw [flight]
  split
  · rename_i b e
    have queue : ((s.modSession p f).bank b).queue = (s.bank b).queue := rfl
    rw [queue]
    split <;> rfl
  · rfl

/-- A wait queue that a position has left. -/
def withoutWaiter (s : State) (b : BankId) (q : PosId) : State :=
  s.modBank b fun x => { x with queue := x.queue.filter fun r => r != q }

theorem leaveQueue_eq (waits : (s.session q).awaited = some b) :
    s.leaveQueue q = ((s.withoutWaiter b q).modSession q Session.unwaiting).settleYield := by
  unfold leaveQueue
  rw [waits]
  rfl

theorem withoutWaiter_bank (s : State) (b : BankId) (q : PosId) (c : BankId) :
    ((s.withoutWaiter b q).bank c).holder = (s.bank c).holder
      ∧ ((s.withoutWaiter b q).bank c).proof = (s.bank c).proof
      ∧ ((s.withoutWaiter b q).bank c).proofState = (s.bank c).proofState := by
  unfold withoutWaiter
  by_cases e : c = b
  · rw [e, modBank_bank_same]
    exact ⟨rfl, rfl, rfl⟩
  · rw [modBank_bank_ne _ _ e]
    exact ⟨rfl, rfl, rfl⟩

theorem leaveQueue_bank (s : State) (q : PosId) (c : BankId) : ((s.leaveQueue q).bank c).holder = (s.bank c).holder
    ∧ ((s.leaveQueue q).bank c).proof = (s.bank c).proof
    ∧ ((s.leaveQueue q).bank c).proofState = (s.bank c).proofState := by
  cases waits : (s.session q).awaited with
  | none =>
    rw [leaveQueue_none waits]
    exact ⟨rfl, rfl, rfl⟩
  | some b =>
    rw [leaveQueue_eq waits, settleYield_bank]
    exact withoutWaiter_bank s b q c

theorem leaveQueue_spares (n : q ≠ p) : Spares p s (s.leaveQueue q) := by
  unfold leaveQueue
  split
  · exact .refl p s
  · exact ((Spares.refl p s).bank.session n).trans (settleYield_spares p _)

theorem leaveQueue_passes (n : q ≠ p) (h : Linked .whole none s) : PassesBy p s (s.leaveQueue q) := by
  obtain ⟨session, cbu, sales⟩ := leaveQueue_spares (s := s) n
  have bank := leaveQueue_bank s q
  exact {
    linked := leaveQueue_linked h
    steady := leaveQueue_steady s q
    files := .same sales
    queue := fun w m => cbu ▸ m
    holder := fun c e => (bank c).1.symm.trans e
    proof := fun c => .inl (bank c).2
    session := fun _ => session
    claiming := fun _ => ⟨_, _, session⟩
    place := fun c k => by unfold HasPlace; rw [session]; exact k }

theorem leaveQueue_placeless (bank : (s.session q).bank = none) : (s.leaveQueue q).Placeless q := by
  cases e : (s.session q).awaited with
  | none =>
    rw [leaveQueue_none e]
    exact ⟨bank, e⟩
  | some b =>
    unfold Placeless
    rw [leaveQueue_session e]
    exact ⟨bank, rfl⟩

theorem modSession_unwaiting (s : State) (b : BankId) (q : PosId) (f : Session → Session)
    (same : ∀ x, f x.unwaiting = (f x).unwaiting) :
    ((s.withoutWaiter b q).modSession q Session.unwaiting).modSession q f
      = ((s.modSession q f).withoutWaiter b q).modSession q Session.unwaiting := by
  have apart : (s.modSession q f).withoutWaiter b q = (s.withoutWaiter b q).modSession q f := rfl
  rw [apart]
  generalize s.withoutWaiter b q = t
  simp only [modSession_becomes, becomes_session, becomes_becomes, same]

/-- A session that ends leaves its wait queue, whenever in its end it does so. -/
theorem endWith_leaveQueue (waits : (s.session q).awaited = some b) (bank : (s.session q).bank = none)
    (run : (s.session q).running = true) : (s.leaveQueue q).endWith q r = s.endWith q r := by
  let v := s.modSession q fun x => x.markEnded r s.site.siteTime (s.endingNozzle q)
  let v' := (s.leaveQueue q).modSession q fun x =>
    x.markEnded r (s.leaveQueue q).site.siteTime ((s.leaveQueue q).endingNozzle q)
  have mine := leaveQueue_session waits
  have monitor : ∀ p, (s.leaveQueue q).monitor p = s.monitor p := fun p => by
    unfold leaveQueue settleYield
    rw [waits]
    dsimp only
    split
    · split <;> rfl
    · rfl
  have site := (leaveQueue_steady s q).site
  have nozzle : (s.leaveQueue q).endingNozzle q = s.endingNozzle q := by
    unfold endingNozzle
    rw [monitor, mine]
  have left : v' = v.leaveQueue q := by
    have queued : (v.session q).awaited = some b := by
      rw [show v.session q = _ from modSession_session_same _ _ _]
      exact waits
    show (s.leaveQueue q).modSession q _ = v.leaveQueue q
    rw [nozzle, site]
    rw [leaveQueue_eq waits, leaveQueue_eq queued, settleYield_modSession]
    exact congrArg settleYield (modSession_unwaiting s b q _ fun _ => rfl)
  have unheld : (v.session q).bank = none := by
    rw [show v.session q = _ from modSession_session_same _ _ _]
    exact bank
  have unheld' : (v'.session q).bank = none := by
    rw [show v'.session q = _ from modSession_session_same _ _ _, mine]
    exact bank
  have unqueued : (v'.session q).awaited = none := by
    rw [show v'.session q = _ from modSession_session_same _ _ _, mine]
    rfl
  have steps : (s.leaveQueue q).endSteps (endSession 3) q r = s.endSteps (endSession 3) q r := by
    show (((((v'.releaseClaim q).leaveQueue q).leaveCooling (endSession 3) q).modSession q fun x =>
        { x with cooling := .noCooling }).postSession q)
      = (((((v.releaseClaim q).leaveQueue q).leaveCooling (endSession 3) q).modSession q fun x =>
        { x with cooling := .noCooling }).postSession q)
    rw [releaseClaim_none unheld, releaseClaim_none unheld', leaveQueue_none unqueued, left]
  have run' : ((s.leaveQueue q).session q).running = true := by
    rw [mine]
    exact run
  exact (if_pos run').trans ((congrArg (fun t : State => t.joinCloseQueue q) steps).trans (if_pos run).symm)

/-! ### Sessions that select -/

theorem selectBank_passes (n : q ≠ p) (h : Linked .whole none s) (run : (s.session q).running = true)
    (free : s.Placeless q) (phase : (s.session q).phase = some .claim) : PassesBy p s (s.selectBank endNow q) :=
  .of_mild (selectBank_mild endNow_milds_whole h run free) h (selectBank_linked endNow_links h run fun _ => phase)
    (selectBank_steady endNow_steady s q) (selectBank_ensues (endSession_ensues [] 4) s q)
    (fun m => n (List.mem_singleton.mp m).symm) fun m => n (List.mem_singleton.mp m).symm

theorem endNow_passes (n : q ≠ p) (h : Linked .whole none s) (run : (s.session q).running = true) (free : s.Placeless q) :
    PassesBy p s (s.endWith q .banksExhausted) :=
  .of_mild (endNow_milds_whole q s h run free) h (endWith_linked h q _) (endNow_steady _ _ _)
    (endSession_ensues [] 4 q s) (fun m => n (List.mem_singleton.mp m).symm) fun m => n (List.mem_singleton.mp m).symm

/-- A session in phase CLAIM holds no bank. -/
theorem claiming_bank (h : Linked .whole none s) (phase : (s.session q).phase = some .claim) : (s.session q).bank = none := by
  cases e : (s.session q).bank with
  | none => rfl
  | some c => exact (((h.coherent trivial q nofun).holds (by rw [e]; rfl)).1 phase).elim

/-- A session that awaits fresh data, its wait over. -/
def freshNoted (s : State) (q : PosId) : State :=
  s.modSession q fun x => { x with awaitingFresh := false, bankWaitTimer := none }

theorem freshNoted_moves (s : State) (q : PosId) : Moves q s (s.freshNoted q) := (Moves.refl s).session

theorem freshNoted_linked (h : Linked .whole none s) (awaits : (s.session q).awaitingFresh = true) :
    Linked .whole none (s.freshNoted q) := by
  have run := h.runs_fresh awaits
  refine h.moves run (fun a n => ?_) run
  have c := h.coherent a q n
  exact ⟨c.phase, fun _ => c.selects (.inr awaits), c.holds, c.resumes⟩

theorem freshNoted_passes (n : q ≠ p) (h : Linked .whole none s) (awaits : (s.session q).awaitingFresh = true) :
    PassesBy p s (s.freshNoted q) :=
  have apart : p ∉ [q] := fun m => n (List.mem_singleton.mp m).symm
  .of_mild (freshNoted_moves s q).mild h (freshNoted_linked h awaits) (Steady.refl s).session
    (.of (X := []) (Steady.refl s).session (Apart.refl s).session) apart apart

theorem selectOnFresh_passes (n : q ≠ p) (h : Linked .whole none s) : PassesBy p s (s.selectOnFresh q) := by
  by_cases awaits : (s.session q).awaitingFresh = true
  case neg =>
    have kept : s.selectOnFresh q = s := if_neg awaits
    rw [kept]
    exact .refl h
  have whole : s.selectOnFresh q = (s.freshNoted q).selectBank endNow q := if_pos awaits
  have phase := (h.coherent trivial q nofun).selects (.inr awaits)
  have bank := claiming_bank h phase
  have run := h.runs_fresh awaits
  have noted := freshNoted_linked h awaits
  have apart : p ∉ [q] := fun m => n (List.mem_singleton.mp m).symm
  have first : PassesBy p s (s.freshNoted q) := freshNoted_passes n h awaits
  rw [whole]
  refine first.trans ?_
  have mine : (s.freshNoted q).session q = { s.session q with awaitingFresh := false, bankWaitTimer := none } :=
    modSession_session_same _ _ _
  generalize s.freshNoted q = t at noted mine
  have running : (t.session q).running = true := by rw [mine]; exact run
  have claims : (t.session q).phase = some .claim := by rw [mine]; exact phase
  have unheld : (t.session q).bank = none := by rw [mine]; exact bank
  cases waits : (t.session q).awaited with
  | none => exact selectBank_passes n noted running ⟨unheld, waits⟩ claims
  | some b =>
    have queued : t.holdsOrWaits q = true := by
      by_contra c
      have away := (holdsNothing noted (Bool.eq_false_iff.mpr c)).2.1
      exact nomatch away.symm.trans waits
    unfold selectBank
    split
    · have stays : Moves q t (t.awaitFresh q) := by
        unfold awaitFresh
        exact (Moves.refl t).session
      refine .of_mild stays.mild noted ?_ (awaitFresh_steady t q)
        (.of (X := []) (awaitFresh_steady t q) (awaitFresh_apart t q)) apart apart
      unfold awaitFresh
      exact noted.moves running (fun a m => have c := noted.coherent a q m; ⟨c.phase, fun _ => claims, c.holds, c.resumes⟩)
        running
    · split
      · rename_i d _
        have refused : t.claim d q = t := by
          unfold claim claimRequest
          rw [if_pos queued]
        rw [refused]
        exact .refl noted
      · have later : PassesBy p (t.leaveQueue q) ((t.leaveQueue q).endWith q .banksExhausted) :=
          endNow_passes n (leaveQueue_linked noted) (leaveQueue_goesOn t q q running) (leaveQueue_placeless unheld)
        rw [endWith_leaveQueue waits unheld running] at later
        exact (leaveQueue_passes n noted).trans later

theorem clearFactor_passes (n : q ≠ p) (h : Linked .whole none s) (f : Factor) : PassesBy p s (s.clearFactor endNow q f) :=
  .of_mild (clearFactor_mild endNow_milds_whole trivial h q f) h (clearFactor_linked endNow_links h q f)
    (clearFactor_steady endNow_steady s q f) (clearFactor_ensues (endSession_ensues [] 4) s q f)
    (fun m => n (List.mem_singleton.mp m).symm) nofun

/-- Another session is told that the data are fresh. -/
theorem toldFresh_passes (n : q ≠ p) (h : Linked .whole none s) : PassesBy p s (s.toldFresh q) := by
  unfold toldFresh
  split
  · exact (clearFactor_passes n h .bank).trans (selectOnFresh_passes n (clearFactor_linked endNow_links h q .bank))
  · exact .refl h

theorem removeWaiter_passes (n : q ≠ p) (h : Linked .whole none s) (waits : (s.session q).awaited = some b) :
    PassesBy p s (s.removeWaiter q) := by
  have phase := (h.coherent trivial q nofun).selects (.inl (by rw [waits]; rfl))
  refine (leaveQueue_passes n h).trans (selectBank_passes n (leaveQueue_linked h)
    (leaveQueue_goesOn s q q (h.runs_awaited waits nofun)) (leaveQueue_placeless (claiming_bank h phase)) ?_)
  rw [leaveQueue_session waits]
  exact phase

/-- Another waiter is tested. -/
theorem testWaiter_passes (n : q ≠ p) (h : Linked .whole none s) : PassesBy p s (s.testWaiter b q) := by
  unfold testWaiter
  split
  · rename_i e
    simp only [Bool.and_eq_true, decide_eq_true_eq] at e
    exact removeWaiter_passes n h e.1
  · exact .refl h

end State

end Sys2Proof.Machine
end

section
/-! SUPPORT. A session that has a bank or a place at one that serves it, and a session that has ended, through what follows
in the same report (R57, R63, R71, R148, R159). -/

namespace Sys2Proof.Machine

set_option Elab.async false

variable {s t u z : State} {p q : PosId} {b c d : BankId} {r : EndReason}

/-! ### What a usable test reads -/

theorem Orderly.suspect (k : Orderly s t) (h : Linked .whole none s) (b : BankId) :
    (t.bank b).proofState = .suspect ↔ (s.bank b).proofState = .suspect := by
  rcases k.proof b with ⟨-, same⟩ | ⟨f, proof, -, back⟩
  · rw [same]
  · have agree := h.agreed trivial
    have proving : (s.bank b).proofState = .proving := (agree.proving b).mp (by rw [proof]; rfl)
    rw [back, proving]
    rcases agree.before b f proof with e | e <;> rw [e] <;> decide

theorem Steady.nozzlePressure (k : Steady s t) (p : PosId) : t.nozzlePressure p = s.nozzlePressure p := by
  have held := k.monitors p
  have pressure : (t.monitor p).pressure = (s.monitor p).pressure := congrArg (fun m => m.2.1) held
  unfold State.nozzlePressure
  rw [pressure]

theorem Steady.profileOf (k : Steady s t) (massless : (s.session p).finalMass = none) : t.profileOf p = s.profileOf p := by
  have fixed := k.sessions p massless
  have profile : (t.session p).profile = (s.session p).profile := congrArg (fun x => x.1.2.2.2.2.2.2.1) fixed
  have config : t.config = s.config := congrArg SiteControl.config k.site
  unfold State.profileOf Session.profileIndex
  rw [profile, config]

theorem Linked.massless {A : Aspects} (h : Linked A none s) (run : (s.session p).running = true) :
    (s.session p).finalMass = none := by
  by_contra c
  exact Session.running_state run (h.massed p (Option.isSome_iff_ne_none.mpr c))

theorem Orderly.serves (k : Orderly s t) (h : Linked .whole none s) (run : (s.session p).running = true) (b : BankId) :
    t.Serves p b ↔ s.Serves p b := by
  have pressure : (t.bank b).pressure = (s.bank b).pressure := congrArg Prod.fst (k.steady.reports b)
  unfold State.Serves
  rw [k.steady.nozzlePressure, k.steady.profileOf (h.massless run), pressure, Ne, k.suspect h]

/-! ### What others leave of them -/

/-- A session has a bank, or a place at one, that serves it. -/
def State.Lands (s : State) (p : PosId) (d : BankId) : Prop := s.HasPlace p d ∧ s.Serves p d

theorem PassesBy.lands (k : PassesBy p s t) (h : Linked .whole none s) (l : s.Lands p d) : t.Lands p d :=
  ⟨k.place d l.1, (k.serves h l.1.1 d).mpr l.2⟩

theorem EndsWith.stopped (e : EndsWith z s p r) : (s.session p).running = false := by
  unfold Session.running
  rcases e.filed with ⟨state, -⟩ | ⟨state, -⟩ <;> rw [state]

/-- What an ended session reads of a state. -/
theorem EndsWith.keeps (e : EndsWith z s p r) (h : Linked .whole none s) (session : t.session p = s.session p)
    (files : Files s t) (posts : s.outbox <+: t.outbox) : EndsWith z t p r := by
  obtain ⟨record, filed, shown⟩ := e
  rw [← session] at record filed
  refine ⟨record, ?_, posts.mem shown⟩
  rcases filed with ⟨state, m⟩ | ⟨state, mine, started, told⟩
  · have busy : s.sales.register ≠ none := fun free => nomatch (h.consistent.served free) ▸ m
    obtain ⟨more, joined⟩ := files.joined
    unfold SalesUnit.pendingSessions at joined
    rw [(files.busy busy).1, List.append_assoc] at joined
    exact .inl ⟨state, List.append_cancel_left joined ▸ List.mem_append_left _ m⟩
  · obtain ⟨register, timer⟩ := files.busy (by rw [mine]; nofun)
    exact .inr ⟨state, register.trans mine, timer.trans started, posts.mem told⟩

theorem PassesBy.ends (k : PassesBy p s t) (h : Linked .whole none s) (e : EndsWith z s p r) : EndsWith z t p r := by
  have unlisted : ∀ w ∈ s.cbu.queue, w.pos ≠ p := fun w m c => by
    have run := h.cooled p (List.mem_append_right _ (List.mem_map.mpr ⟨w, m, c⟩)) nofun
    exact Bool.noConfusion (e.stopped.symm.trans run)
  exact e.keeps h (k.session unlisted) k.files k.steady.posts

/-! ### What the tests leave of them -/

/-- Between two steps of a report: the agreements stand, and the data are fresh. -/
structure State.Live (s : State) : Prop where
  linked : Linked .whole none s
  fresh : s.bm.freshness = .fresh

theorem Orderly.live (k : Orderly s t) (h : s.Live) : t.Live := ⟨k.linked, k.steady.freshness.trans h.fresh⟩

namespace State

theorem HasPlace.awaited_eq (h : Linked .whole none s) (k : s.HasPlace p d) (waits : (s.session p).awaited = some c) :
    c = d := by
  have bank : (s.session p).bank = none := (h.sole p).resolve_right (by rw [waits]; nofun)
  rcases k.2 with e | e
  · exact nomatch bank.symm.trans e
  · exact Option.some.inj (waits.symm.trans e)

theorem testWaiter_lands (h : s.Live) (l : s.Lands p d) : (s.testWaiter c q).Lands p d := by
  by_cases n : q = p
  · subst n
    have stays : s.testWaiter c q = s := testWaiter_stays fun waits => by
      rw [l.1.awaited_eq h.linked waits]
      exact (usable_iff h.fresh).mpr l.2
    rw [stays]
    exact l
  · exact (testWaiter_passes n h.linked).lands h.linked l

theorem testWaiter_unawaiting (away : (s.session p).awaited = none) : s.testWaiter c p = s :=
  testWaiter_stays fun waits => nomatch away.symm.trans waits

theorem testWaiter_ends (h : s.Live) (e : EndsWith z s p r) : EndsWith z (s.testWaiter c q) p r := by
  by_cases n : q = p
  · subst n
    rw [testWaiter_unawaiting ((h.linked.away q e.stopped).1 nofun).2]
    exact e
  · exact (testWaiter_passes n h.linked).ends h.linked e

theorem testWaiter_live (h : s.Live) : (s.testWaiter c q).Live :=
  (testWaiter_passes (another_ne q).symm h.linked).toOrderly.live h

theorem foldl_testWaiter_carries {P : State → Prop} (l : List PosId)
    (step : ∀ t, ∀ q ∈ l, t.Live → P t → P (t.testWaiter c q)) (h : s.Live) (k : P s) :
    (l.foldl (State.testWaiter c) s).Live ∧ P (l.foldl (State.testWaiter c) s) := by
  induction l generalizing s with
  | nil => exact ⟨h, k⟩
  | cons q l ih =>
    exact ih (fun t r m => step t r (List.mem_cons_of_mem _ m)) (testWaiter_live h) (step s q List.mem_cons_self h k)

theorem retested_carries {P : State → Prop} (step : ∀ t c q, t.Live → P t → P (t.testWaiter c q)) (h : s.Live) (k : P s) :
    s.retested.Live ∧ P s.retested :=
  inOrder_keeps (fun t => t.Live ∧ P t) (fun c t => t.testQueue c)
    (fun c _ k => foldl_testWaiter_carries _ (fun t q _ => step t c q) k.1 k.2) s ⟨h, k⟩

/-- A waiter is reached by the test of its bank, as it was but for its factors and its cooling. -/
theorem retested_reaches {Q : State → Prop} (h : s.Live) (waits : (s.session p).awaited = some b)
    (here : ∀ t, t.Live → PassesBy p s t → Q (t.testWaiter b p))
    (again : ∀ t c q, t.Live → Q t → Q (t.testWaiter c q)) : Q s.retested := by
  have phase := (h.linked.coherent trivial p nofun).selects (.inl (by rw [waits]; rfl))
  have still : ∀ t, PassesBy p s t → (t.session p).awaited = some b := fun t k => by
    obtain ⟨f, c, e⟩ := k.claiming phase
    rw [e]
    exact waits
  have passes : ∀ t c q, t.Live → q ≠ p ∨ c ≠ b → PassesBy p s t → PassesBy p s (t.testWaiter c q) := fun t c q live n k => by
    by_cases own : q = p
    · subst own
      have c_ne := n.resolve_left fun m => m rfl
      rw [testWaiter_stays fun e => (c_ne (Option.some.inj (e.symm.trans (still t k)))).elim]
      exact k
    · exact k.trans (testWaiter_passes own live.linked)
  refine (inOrder_reaches (P := fun t => t.Live ∧ PassesBy p s t) (Q := fun t => t.Live ∧ Q t) b (fun c n t k => ?_)
    (fun t k => ?_) (fun c _ t k => ?_) ⟨h, PassesBy.refl h.linked⟩).2
  · exact foldl_testWaiter_carries _ (fun u q _ live => passes u c q live (.inr n)) k.1 k.2
  · obtain ⟨live, k⟩ := k
    obtain ⟨before, after, split⟩ := List.append_of_mem ((live.linked.queued b p).mpr (still t k))
    have once := live.linked.once b
    rw [split] at once
    have absent : p ∉ before := fun m => (List.nodup_append.mp once).2.2 p m p List.mem_cons_self rfl
    unfold testQueue
    rw [split, List.foldl_append, List.foldl_cons]
    obtain ⟨live', k'⟩ := foldl_testWaiter_carries (P := PassesBy p s) before
      (fun u q m live => passes u b q live (.inl fun e => absent (e ▸ m))) live k
    exact foldl_testWaiter_carries after (fun u q _ => again u b q) (testWaiter_live live') (here _ live' k')
  · exact foldl_testWaiter_carries _ (fun u q _ => again u c q) k.1 k.2

/-! ### What the telling leaves of them -/

theorem toldFresh_live (h : s.Live) : (s.toldFresh q).Live :=
  (toldFresh_passes (another_ne q).symm h.linked).toOrderly.live h

/-- A session is told that the data are fresh, as it was but for its factors and its cooling. -/
theorem told_reaches {Q : State → Prop} (p : PosId) (h : s.Live)
    (here : ∀ t, t.Live → PassesBy p s t → Q (t.toldFresh p)) (keeps : ∀ t u, t.Live → PassesBy p t u → Q t → Q u) :
    (inOrder (fun q t => t.toldFresh q) s).Live ∧ Q (inOrder (fun q t => t.toldFresh q) s) := by
  refine inOrder_reaches (P := fun t : State => t.Live ∧ PassesBy p s t) (Q := fun t => t.Live ∧ Q t) p (fun q n t k => ?_)
    (fun t k => ?_) (fun q n t k => ?_) ⟨h, PassesBy.refl h.linked⟩
  · exact ⟨toldFresh_live k.1, k.2.trans (toldFresh_passes n k.1.linked)⟩
  · exact ⟨toldFresh_live k.1, here t k.1 k.2⟩
  · exact ⟨toldFresh_live k.1, keeps t _ k.1 (toldFresh_passes n k.1.linked) k.2⟩

/-! ### What the refill and proof consequences leave of them -/

theorem relisted_sessions (s : State) : s.relisted.sessions = s.sessions ∧ s.relisted.sales = s.sales :=
  ⟨(congrArg State.sessions (relisted_alike s) :), (congrArg State.sales (relisted_alike s) :)⟩

theorem proofExaminations_sessions (s : State) :
    s.proofExaminations.sessions = s.sessions ∧ s.proofExaminations.sales = s.sales := by
  have rest := s.proofExaminations_examined.rest
  exact ⟨(congrArg State.sessions rest :), (congrArg State.sales rest :)⟩

theorem endRefill_place (r : RefillReason) (h : Linked .whole none s) (k : s.HasPlace p d) : (s.endRefill b r).HasPlace p d := by
  obtain ⟨-, -, -, -, -, free, handed, -⟩ := s.endRefill_ended b r
  cases queue : (s.bank b).queue with
  | nil =>
    have sessions : (s.endRefill b r).sessions = s.sessions := (congrArg State.sessions (free queue).rest :)
    unfold HasPlace session
    rw [sessions]
    exact k
  | cons q rest =>
    obtain ⟨holds, -, others, -⟩ := handed q rest queue
    by_cases n : p = q
    · subst n
      have waits := (h.queued b p).mp (by rw [queue]; exact List.mem_cons_self)
      obtain rfl := k.awaited_eq h waits
      have goes : GoesOn s (s.endRefill b r) := by
        have ends : GoesOn s (s.refillEnds b r) :=
          have handsOff : GoesOn s (({ s with bm := { s.bm with refillInFlight := none, yieldTimer := none } } : State).handOff b) :=
            handOff_goesOn { s with bm := { s.bm with refillInFlight := none, yieldTimer := none } } b
          have relists : ∀ t : State, GoesOn t (t.relist b) := fun t q run => by
            rw [(relist_spares q t b).1]
            exact run
          handsOff.posted.trans (relists _)
        exact ends.trans (.ite (fun _ => becameFree_goesOn _ _) fun _ => .refl _)
      exact ⟨goes p k.1, .inl holds.bank.1⟩
    · unfold HasPlace
      rw [others p n]
      exact k

/-- What the consequences of a report leave of a session. -/
structure Settles (p : PosId) (s t : State) : Prop where
  session : (s.session p).awaited = none → t.session p = s.session p
  place : ∀ d, s.HasPlace p d → t.HasPlace p d
  sales : t.sales = s.sales
  posts : s.outbox <+: t.outbox

theorem endRefill_settles (r : RefillReason) (h : Linked .whole none s) : Settles p s (s.endRefill b r) where
  session away := by
    obtain ⟨-, -, -, -, -, free, handed, -⟩ := s.endRefill_ended b r
    cases queue : (s.bank b).queue with
    | nil =>
      have sessions : (s.endRefill b r).sessions = s.sessions := (congrArg State.sessions (free queue).rest :)
      unfold State.session
      rw [sessions]
    | cons q rest =>
      obtain ⟨-, -, others, -⟩ := handed q rest queue
      refine others p fun e => ?_
      have waits := (h.queued b q).mp (by rw [queue]; exact List.mem_cons_self)
      rw [← e, away] at waits
      exact nomatch waits
  place _ := endRefill_place r h
  sales := (endRefill_apart s b r).sales
  posts := (endRefill_steady s b r).posts

theorem Settles.refl (s : State) : Settles p s s := ⟨fun _ => rfl, fun _ => id, rfl, List.prefix_refl _⟩

theorem reportConsequences_settles (h : Linked .whole none s) : Settles p s s.reportConsequences := by
  have complete : Settles p s s.completeRefill := by
    unfold completeRefill
    split
    · exact .refl s
    · split
      · exact .refl s
      · split
        · exact endRefill_settles _ h
        · exact .refl s
  obtain ⟨listed, unsold⟩ := relisted_sessions s.completeRefill
  obtain ⟨examined, sales⟩ := proofExaminations_sessions s.completeRefill.relisted
  have session : s.reportConsequences.session p = s.completeRefill.session p := by
    rw [reportConsequences_eq]
    unfold State.session
    rw [examined, listed]
  refine ⟨fun away => session.trans (complete.session away), fun d k => ?_, ?_, (reportConsequences_steady s).posts⟩
  · unfold HasPlace
    rw [session]
    exact complete.place d k
  · rw [reportConsequences_eq, sales, unsold]
    exact complete.sales

theorem reportConsequences_ends (h : Linked .whole none s) (e : EndsWith z s p r) : EndsWith z s.reportConsequences p r := by
  have k := reportConsequences_settles (p := p) h
  exact e.keeps h (k.session ((h.away p e.stopped).1 nofun).2) (.same k.sales) k.posts

end State

end Sys2Proof.Machine
end

section
/-! SUPPORT. The turn of one session in a bank status report: what it finds where it selects (R63, R124, R125, R148). -/

namespace Sys2Proof.Machine

set_option Elab.async false

variable {s t u v z f : State} {p q : PosId} {b c d : BankId} {r : EndReason} {l : List BankId}

/-! ### How a session that selects ends -/

/-- A session without what it awaits: what of it the end of a session without a bank reads. -/
def Session.settled (x : Session) : Session := { x with awaited := none, awaitingFresh := false, bankWaitTimer := none }

/-- What the end of a session reads of a state beside its record. -/
structure EndsAlike (p : PosId) (z v : State) : Prop where
  time : v.site.siteTime = z.site.siteTime
  config : v.config = z.config
  pressure : (v.monitor p).pressure = (z.monitor p).pressure

theorem EndsAlike.steady (h : EndsAlike p z v) (k : Steady v t) : EndsAlike p z t where
  time := by rw [k.site]; exact h.time
  config := (congrArg SiteControl.config k.site).trans h.config
  pressure := by
    have held := k.monitors p
    have pressure : (t.monitor p).pressure = (v.monitor p).pressure := congrArg (fun m => m.2.1) held
    exact pressure.trans h.pressure

theorem State.endedAs_settled (bank : (s.session p).bank = none) : s.endedAs p r =
    { s.markedAs p r with awaited := none, cooling := .noCooling } := by
  unfold State.endedAs
  rw [bank]

theorem EndsWith.of_alike (e : EndsWith v u p r) (alike : EndsAlike p z v) (bank : (v.session p).bank = none)
    (session : (v.session p).settled = (z.session p).settled) : EndsWith z u p r := by
  have unheld : (z.session p).bank = none := (congrArg Session.bank session).symm.trans bank
  have marks : ∀ w : State, { w.markedAs p r with awaited := none, cooling := CoolingView.noCooling } =
      { (w.session p).settled.quiet with
        state := .ended
        endReason := some r
        endTime := some w.site.siteTime
        endNozzle := some ((w.monitor p).pressure.getD ((w.session p).settled.lastNozzle.getD 0))
        resumeTimer := none
        keepTimer := none
        kind := none
        attempt := none
        resumePoint := none
        cooling := CoolingView.noCooling } := fun _ => rfl
  have ended : v.endedAs p r = z.endedAs p r := by
    rw [State.endedAs_settled bank, State.endedAs_settled unheld, marks, marks, session, alike.time, alike.pressure]
  have reference : (v.session p).reference = (z.session p).reference := (congrArg Session.reference session :)
  obtain ⟨record, filed, shown⟩ := e
  rw [ended] at record
  rw [reference] at filed shown
  rw [alike.config] at filed
  exact ⟨record, filed, shown⟩

/-! ### What a session that selects finds -/

/-- What a session comes to that selects among the banks of a list, of which some serve it: its end where none serves it
and it is `unlisted`, or the first that does, where PROOF holds none. -/
structure Finds (serves unproving : BankId → Prop) (unlisted : Prop) (z t : State) (p : PosId) (l : List BankId) : Prop where
  ends : (∀ d ∈ l, ¬serves d) → unlisted → EndsWith z t p .banksExhausted
  lands : ∀ before d after, l = before ++ d :: after → (∀ c ∈ before, ¬serves c) → serves d → (∀ c ∈ l, unproving c) →
    t.Lands p d

namespace Finds

variable {serves unproving : BankId → Prop} {unlisted : Prop}

theorem carried (k : Finds serves unproving unlisted z t p l)
    (ends : EndsWith z t p .banksExhausted → EndsWith z u p .banksExhausted) (lands : ∀ d, t.Lands p d → u.Lands p d) :
    Finds serves unproving unlisted z u p l :=
  ⟨fun none free => ends (k.ends none free), fun before d after split away here clear =>
    lands d (k.lands before d after split away here clear)⟩

theorem passes (k : Finds serves unproving unlisted z t p l) (h : Linked .whole none t) (passed : PassesBy p t u) :
    Finds serves unproving unlisted z u p l := k.carried (passed.ends h) fun _ => passed.lands h

theorem tested (k : Finds serves unproving unlisted z t p l) (h : t.Live) :
    Finds serves unproving unlisted z (t.testWaiter c q) p l :=
  k.carried (State.testWaiter_ends h) fun _ => State.testWaiter_lands h

/-- A session in phase CLAIM without a place selects (R124). -/
theorem of_selection (h : v.Live) (run : (v.session p).running = true) (free : v.Placeless p)
    (phase : (v.session p).phase = some .claim) (list : (v.session p).selectable = l) (same : ∀ d, serves d ↔ v.Serves p d)
    (clear : ∀ c, unproving c → (v.bank c).holder ≠ .proof) (alike : EndsAlike p z v)
    (session : unlisted → (v.session p).settled = (z.session p).settled) :
    Finds serves unproving unlisted z (v.selectBank endNow p) p l := by
  have selects := State.selectBank_selects h.linked.consistent run h.fresh free.1 free.2
  have orderly := (State.selectBank_passes (State.another_ne p).symm h.linked run free phase).toOrderly
  rw [list] at selects
  refine ⟨fun none out => ?_, fun before d after split away here unproved => ?_⟩
  · exact (selects.exhausted fun d m => (same d).not.mp (none d m)).ended.of_alike alike free.1 (session out)
  · have held : (v.bank d).holder ≠ .proof := clear d (unproved d (by rw [split]; simp))
    have chooses : v.Chooses p (v.session p).selectable d :=
      ⟨before, after, list.trans split, (same d).mp here,
        .inl ⟨held, fun c m k => (away c m ((same c).mpr k)).elim⟩⟩
    have claims : v.selectBank endNow p = v.claim d p := by
      have live : ¬v.bm.freshness = .stale := fun stale => nomatch stale.symm.trans h.fresh
      refine (if_neg live).trans ?_
      rw [State.chooseBank_some h.fresh chooses]
    refine ⟨?_, (orderly.serves h.linked run d).mpr ((same d).mp here)⟩
    rw [claims]
    exact (State.claim_mild free d).2 (State.holdsOrWaits_eq_false h.linked.consistent free.1 free.2)
      ((State.usable_iff h.fresh).mpr ((same d).mp here)) run

end Finds

namespace State

/-! ### A session told that the data are fresh -/

/-- A session that is not in HELD loses its BANK factor and stays where it is (R139). -/
theorem clearFactor_unheld (state : (s.session p).state ≠ .held) : s.clearFactor endNow p .bank
    = s.becomes p { s.session p with factors := { (s.session p).factors with bank := false } } := by
  refine ((clearFactor_clears (s := s) (p := p) .bank).stays fun held => (state held).elim).trans ?_
  have timer : s.afterClear (s.session p) ((s.session p).factors.put .bank false)
      = { s.session p with factors := { (s.session p).factors with bank := false } } := by
    unfold afterClear
    rw [if_neg fun k => state k.1]
    rfl
  rw [timer]

theorem toldFresh_claiming (run : (s.session p).running = true) (state : (s.session p).state ≠ .held)
    (settled : (s.session p).awaitingFresh = false) : s.toldFresh p
      = s.becomes p { s.session p with factors := { (s.session p).factors with bank := false } } := by
  refine (if_pos run).trans ?_
  rw [clearFactor_unheld state]
  refine if_neg ?_
  rw [becomes_session, settled]
  exact Bool.false_ne_true

/-- A session that awaits fresh data selects as soon as it is told that they are (R125). -/
theorem toldFresh_selects (h : s.Live) (state : (s.session p).state ≠ .held)
    (awaits : (s.session p).awaitingFresh = true) : ∃ v : State, s.toldFresh p = v.selectBank endNow p ∧ v.Live
      ∧ Orderly s v ∧ v.session p = { s.session p with
        factors := { (s.session p).factors with bank := false }, awaitingFresh := false, bankWaitTimer := none } := by
  have run := h.linked.runs_fresh awaits
  have cleared := clearFactor_unheld (p := p) state
  have first := (clearFactor_passes (another_ne p).symm h.linked .bank).toOrderly
  rw [cleared] at first
  generalize told : s.becomes p { s.session p with factors := { (s.session p).factors with bank := false } } = t at cleared first
  have mine : t.session p = { s.session p with factors := { (s.session p).factors with bank := false } } := by
    rw [← told]
    exact becomes_session _ _ _
  have still : (t.session p).awaitingFresh = true := by
    rw [mine]
    exact awaits
  have second := (freshNoted_passes (another_ne p).symm first.linked still).toOrderly
  refine ⟨t.freshNoted p, ?_, (first.trans second).live h, first.trans second, ?_⟩
  · refine (if_pos run).trans ?_
    rw [cleared]
    exact if_pos still
  · refine (modSession_session_same t p _).trans ?_
    rw [mine]

end State

end Sys2Proof.Machine
end

section
/-! SUPPORT. One position's session through a whole bank status report (R52, R63, R71, R124, R125, R139). -/

namespace Sys2Proof.Machine

set_option Elab.async false

namespace State

variable {s t u z : State} {p q : PosId} {b c d : BankId} {r : Quad Reading} {ambient : Nat} {l : List BankId}

/-! ### The report taken -/

theorem freshened_session (s : State) (r : Quad Reading) (ambient : Nat) (p : PosId) :
    (s.freshened r ambient).session p = s.session p := by
  rw [freshened_eq]
  rfl

theorem freshened_config (s : State) (r : Quad Reading) (ambient : Nat) : (s.freshened r ambient).config = s.config := by
  rw [freshened_eq]
  rfl

theorem freshened_live (h : Linked .whole none s) : (s.freshened r ambient).Live where
  linked := Linked.bm (reportAmbient_linked
    (inOrder_keeps (Linked .whole none) (fun b t => t.reportBank b (r.get b)) (fun b _ k => reportBank_linked k b _) s h) ambient)
  fresh := by
    rw [freshened_eq]

/-- A bank serves a position's session by the report. -/
def ServesBy (s : State) (r : Quad Reading) (p : PosId) (d : BankId) : Prop :=
  (s.bank d).proofState ≠ .suspect ∧ s.nozzlePressure p + (s.profileOf p).switchMargin ≤ (r.get d).pressure

theorem freshened_serves (s : State) (r : Quad Reading) (ambient : Nat) (p : PosId) (d : BankId) :
    (s.freshened r ambient).Serves p d ↔ s.ServesBy r p d := by
  have bank := freshened_bank s r ambient d
  have profile : (s.freshened r ambient).profileOf p = s.profileOf p := by
    unfold profileOf Session.profileIndex
    rw [freshened_session, freshened_config]
  have nozzle : (s.freshened r ambient).nozzlePressure p = s.nozzlePressure p := by
    rw [freshened_eq]
    rfl
  unfold Serves ServesBy
  rw [bank, profile, nozzle]
  rfl

theorem freshened_endsAlike (y : Session) : EndsAlike p (s.becomes p y) (s.freshened r ambient) := by
  rw [freshened_eq]
  exact ⟨rfl, rfl, rfl⟩

theorem freshened_queue (s : State) (r : Quad Reading) (ambient : Nat) : (s.freshened r ambient).cbu = s.cbu := by
  rw [freshened_eq]

theorem freshened_holder (s : State) (r : Quad Reading) (ambient : Nat) (c : BankId) :
    ((s.freshened r ambient).bank c).holder = (s.bank c).holder := by
  rw [freshened_bank]
  rfl

/-! ### The session told -/

/-- What a session comes to once all have been told that the data are fresh, where they were STALE. -/
theorem informed_reaches {Q : State → Prop} (p : PosId) (h : Linked .whole none s)
    (start : s.bm.freshness ≠ .stale → Q (s.freshened r ambient))
    (here : s.bm.freshness = .stale → ∀ t, t.Live → PassesBy p (s.freshened r ambient) t → Q (t.toldFresh p))
    (keeps : ∀ t u, t.Live → PassesBy p t u → Q t → Q u) : (s.informed r ambient).Live ∧ Q (s.informed r ambient) := by
  unfold informed
  split
  · exact told_reaches p (freshened_live h) (here ‹_›) keeps
  · exact ⟨freshened_live h, start ‹_›⟩

theorem timed_live (h : s.Live) : s.timed.Live := ⟨h.linked.bm, h.fresh⟩

theorem takeBankStatus_live (h : (s.informed r ambient).Live) : (s.informed r ambient).timed.retested.Live :=
  (retested_carries (P := fun _ => True) (fun _ _ _ _ => id) (timed_live h) trivial).1

/-! ### A session that stands aside -/

/-- No waiter for cooling is of a position. -/
def Unlisted (s : State) (p : PosId) : Prop := ∀ w ∈ s.cbu.queue, w.pos ≠ p

theorem Unlisted.orderly (h : s.Unlisted p) (k : Orderly s t) : t.Unlisted p := fun w m => h w (k.queue w m)

/-- A session that selects nothing and stands in no queue is changed by what it is told alone. -/
theorem takeBankStatus_stays {y : Session} (h : Linked .whole none s) (away : y.awaited = none) (unlisted : s.Unlisted p)
    (fresh : s.bm.freshness ≠ .stale → s.session p = y)
    (told : s.bm.freshness = .stale → ∀ t, t.Live → PassesBy p (s.freshened r ambient) t →
      t.session p = s.session p → (t.toldFresh p).session p = y) :
    (s.takeBankStatus r ambient).session p = y := by
  let Stays (t : State) : Prop := t.session p = y ∧ t.Unlisted p
  have start : (s.freshened r ambient).Unlisted p := by
    unfold Unlisted
    rw [freshened_queue]
    exact unlisted
  have keeps : ∀ t u, PassesBy p t u → Stays t → Stays u := fun t u k same =>
    ⟨(k.session same.2).trans same.1, same.2.orderly k.toOrderly⟩
  obtain ⟨live, same⟩ := informed_reaches (Q := Stays) (r := r) (ambient := ambient) p h
    (fun n => ⟨(freshened_session s r ambient p).trans (fresh n), start⟩)
    (fun stale t live k => ⟨told stale t live k ((k.session start).trans (freshened_session s r ambient p)),
      (start.orderly k.toOrderly).orderly (toldFresh_passes (another_ne p).symm live.linked).toOrderly⟩)
    fun t u _ => keeps t u
  obtain ⟨tested, kept⟩ := retested_carries (P := Stays) (fun t c q live same => by
    by_cases own : q = p
    · rw [own, testWaiter_unawaiting (by rw [same.1]; exact away)]
      exact same
    · exact keeps t _ (testWaiter_passes own live.linked) same) (timed_live live) same
  rw [takeBankStatus_eq]
  exact ((reportConsequences_settles tested.linked).session (by rw [kept.1]; exact away)).trans kept.1

/-! ### A session that selects -/

/-- What a session that has selected comes to at the end of the report. -/
theorem reportConsequences_finds {serves unproving : BankId → Prop} {unlisted : Prop} (h : t.Live)
    (k : Finds serves unproving unlisted z t p l) :
    ((∀ d ∈ l, ¬serves d) → unlisted → EndsWith z t.reportConsequences p .banksExhausted)
      ∧ ∀ before d after, l = before ++ d :: after → (∀ c ∈ before, ¬serves c) → serves d → (∀ c ∈ l, unproving c) →
        t.reportConsequences.HasPlace p d :=
  ⟨fun none out => reportConsequences_ends h.linked (k.ends none out), fun before d after split away here clear =>
    (reportConsequences_settles h.linked).place d (k.lands before d after split away here clear).1⟩

theorem timed_finds {serves unproving : BankId → Prop} {unlisted : Prop} (k : Finds serves unproving unlisted z t p l) :
    Finds serves unproving unlisted z t.timed p l :=
  k.carried (fun e => ⟨e.record, e.filed, e.shown⟩) fun _ => id

/-- What a session finds that selects in the report, among the banks of a list. -/
def FindsBy (s : State) (r : Quad Reading) (z u : State) (p : PosId) (l : List BankId) : Prop :=
  ((∀ d ∈ l, ¬s.ServesBy r p d) → s.Unlisted p → EndsWith z u p .banksExhausted)
    ∧ ∀ before d after, l = before ++ d :: after → (∀ c ∈ before, ¬s.ServesBy r p c) → s.ServesBy r p d →
      (∀ c ∈ l, (s.bank c).holder ≠ .proof) → u.HasPlace p d

/-- The session record once the BANK factor has been cleared, where the data were STALE. -/
def clearedAs (s : State) (p : PosId) : Session :=
  if s.bm.freshness = .stale then { s.session p with factors := { (s.session p).factors with bank := false } } else s.session p

theorem freshened_unlisted (h : s.Unlisted p) : (s.freshened r ambient).Unlisted p := by
  unfold Unlisted
  rw [freshened_queue]
  exact h

/-- A session in phase CLAIM that awaits fresh data selects (R125). -/
theorem takeBankStatus_selects (h : Linked .whole none s) (state : (s.session p).state = .connecting)
    (awaits : (s.session p).awaitingFresh = true) (away : (s.session p).awaited = none) (stale : s.bm.freshness = .stale) :
    s.FindsBy r (s.becomes p (s.clearedAs p)) (s.takeBankStatus r ambient) p (s.session p).selectable := by
  have phase := (h.coherent trivial p nofun).selects (.inr awaits)
  have bank := claiming_bank h phase
  have run : (s.session p).running = true := h.runs_fresh awaits
  have first := freshened_live (r := r) (ambient := ambient) h
  have record : (s.becomes p (s.clearedAs p)).session p =
      { s.session p with factors := { (s.session p).factors with bank := false } } := by
    rw [becomes_session]
    exact if_pos stale
  have mine := freshened_session s r ambient p
  obtain ⟨live, found⟩ := informed_reaches (r := r) (ambient := ambient)
    (Q := fun t => Finds (s.ServesBy r p) (fun c => (s.bank c).holder ≠ .proof) (s.Unlisted p)
      (s.becomes p (s.clearedAs p)) t p (s.session p).selectable) p h (fun n => (n stale).elim)
    (fun _ t live k => by
      obtain ⟨F, C, same⟩ := k.claiming (by rw [mine]; exact phase)
      rw [mine] at same
      have connecting : (t.session p).state = .connecting := by rw [same]; exact state
      obtain ⟨v, selects, ready, orderly, now⟩ := toldFresh_selects (p := p) live (by rw [connecting]; nofun)
        (by rw [same]; exact awaits)
      rw [same] at now
      have whole := k.toOrderly.trans orderly
      rw [selects]
      refine .of_selection ready (by rw [now]; exact run) ⟨by rw [now]; exact bank, by rw [now]; exact away⟩
        (by rw [now]; exact phase) (by rw [now]; rfl) (fun d => ?_) (fun c clear e => ?_)
        ((freshened_endsAlike _).steady whole.steady) fun out => ?_
      · rw [whole.serves first.linked (by rw [mine]; exact run), freshened_serves]
      · exact clear ((freshened_holder s r ambient c).symm.trans (whole.holder c e))
      · have exactly := (k.session (freshened_unlisted out)).trans mine
        rw [same] at exactly
        have factors : F = (s.session p).factors := congrArg Session.factors exactly
        have cooling : C = (s.session p).cooling := congrArg Session.cooling exactly
        rw [record, now, factors, cooling]
        rfl)
    fun t u live k found => found.passes live.linked k
  obtain ⟨tested, kept⟩ := retested_carries (fun t c q live k => Finds.tested k live) (timed_live live) (timed_finds found)
  rw [takeBankStatus_eq]
  exact reportConsequences_finds tested kept

/-- A session in phase CLAIM that awaits a bank is told that the data are fresh. -/
structure ToldClaiming (s t : State) (r : Quad Reading) (ambient : Nat) (p : PosId) : Prop where
  orderly : Orderly (s.freshened r ambient) t
  form : ∃ F C, t.session p = { s.session p with factors := F, cooling := C }
  record : s.Unlisted p → t.session p = s.clearedAs p

theorem informed_claiming (h : Linked .whole none s) (phase : (s.session p).phase = some .claim)
    (run : (s.session p).running = true) (state : (s.session p).state = .connecting)
    (settled : (s.session p).awaitingFresh = false) :
    (s.informed r ambient).Live ∧ ToldClaiming s (s.informed r ambient) r ambient p := by
  have mine := freshened_session s r ambient p
  refine informed_reaches (Q := fun t => ToldClaiming s t r ambient p) p h (fun n => ?_) (fun stale t live k => ?_)
    fun t u live k told => ?_
  · exact ⟨(PassesBy.refl (p := p) (freshened_live h).linked).toOrderly, ⟨_, _, mine⟩, fun _ => mine.trans (if_neg n).symm⟩
  · obtain ⟨F, C, same⟩ := k.claiming (by rw [mine]; exact phase)
    rw [mine] at same
    have connecting : (t.session p).state = .connecting := by rw [same]; exact state
    have told := toldFresh_claiming (s := t) (p := p) (by rw [same]; exact run) (by rw [connecting]; nofun)
      (by rw [same]; exact settled)
    have orderly := k.toOrderly.trans (toldFresh_passes (another_ne p).symm live.linked).toOrderly
    have now : (t.toldFresh p).session p = { t.session p with factors := { (t.session p).factors with bank := false } } := by
      rw [told]
      exact becomes_session _ _ _
    refine ⟨orderly, ⟨_, C, by rw [now, same]⟩, fun out => ?_⟩
    rw [now, (k.session (freshened_unlisted out)).trans mine]
    exact (if_pos stale).symm
  · obtain ⟨F, C, same⟩ := told.form
    obtain ⟨G, D, later⟩ := k.claiming (by rw [same]; exact phase)
    exact ⟨told.orderly.trans k.toOrderly, ⟨G, D, by rw [later, same]⟩, fun out =>
      (k.session ((freshened_unlisted out).orderly told.orderly)).trans (told.record out)⟩

/-- A session in phase CLAIM that awaits a bank keeps its place where the bank serves it, and selects again where it does
not (R63, R126). -/
theorem takeBankStatus_waits (h : Linked .whole none s) (state : (s.session p).state = .connecting)
    (settled : (s.session p).awaitingFresh = false) (waits : (s.session p).awaited = some b) :
    (s.ServesBy r p b → (s.takeBankStatus r ambient).HasPlace p b)
      ∧ (¬s.ServesBy r p b →
        s.FindsBy r (s.becomes p (s.clearedAs p)) (s.takeBankStatus r ambient) p (s.session p).selectable) := by
  have phase := (h.coherent trivial p nofun).selects (.inl (by rw [waits]; rfl))
  have bank := claiming_bank h phase
  have run : (s.session p).running = true := h.runs_awaited waits nofun
  have first := freshened_live (r := r) (ambient := ambient) h
  have mine := freshened_session s r ambient p
  obtain ⟨live, told⟩ := informed_claiming (r := r) (ambient := ambient) h phase run state settled
  obtain ⟨F, C, same⟩ := told.form
  have serves : ∀ d, (s.informed r ambient).Serves p d ↔ s.ServesBy r p d := fun d => by
    rw [told.orderly.serves first.linked (by rw [mine]; exact run), freshened_serves]
  rw [takeBankStatus_eq]
  have runs : ((s.informed r ambient).session p).running = true := by rw [same]; exact run
  have queued : ((s.informed r ambient).session p).awaited = some b := by rw [same]; exact waits
  have alike : EndsAlike p (s.becomes p (s.clearedAs p)) (s.informed r ambient) :=
    (freshened_endsAlike _).steady told.orderly.steady
  have claims : ((s.informed r ambient).session p).phase = some .claim := by rw [same]; exact phase
  have list : ((s.informed r ambient).session p).selectable = (s.session p).selectable := by rw [same]; rfl
  have unheld : ((s.informed r ambient).session p).bank = none := by rw [same]; exact bank
  refine ⟨fun here => ?_, fun off => ?_⟩
  · have lands : (s.informed r ambient).timed.Lands p b := ⟨⟨runs, .inr queued⟩, (serves b).mpr here⟩
    obtain ⟨tested, kept⟩ := retested_carries (fun t c q live k => testWaiter_lands live k) (timed_live live) lands
    exact (reportConsequences_settles tested.linked).place b kept.1
  · have found : Finds (s.ServesBy r p) (fun c => (s.bank c).holder ≠ .proof) (s.Unlisted p)
        (s.becomes p (s.clearedAs p)) (s.informed r ambient).timed.retested p (s.session p).selectable := by
      refine retested_reaches (Q := fun t => Finds (s.ServesBy r p) (fun c => (s.bank c).holder ≠ .proof) (s.Unlisted p)
        (s.becomes p (s.clearedAs p)) t p (s.session p).selectable) (timed_live live) queued (fun t ready k => ?_)
        fun t c q ready found => found.tested ready
      obtain ⟨G, D, now⟩ := k.claiming claims
      have serving : ∀ d, t.Serves p d ↔ s.ServesBy r p d := fun d =>
        (k.serves (timed_live live).linked runs d).trans (serves d)
      have waiting : (t.session p).awaited = some b := by rw [now]; exact queued
      have removed : t.testWaiter b p = (t.leaveQueue p).selectBank endNow p := by
        refine if_pos ?_
        have unusable : t.usable b p = false := Bool.eq_false_iff.mpr fun k => off ((serving b).mp ((usable_iff ready.fresh).mp k))
        rw [unusable, waiting]
        simp
      have orderly := (leaveQueue_passes (another_ne p).symm ready.linked).toOrderly
      have left := leaveQueue_session waiting
      rw [now] at left
      rw [removed]
      refine .of_selection (orderly.live ready) (by rw [left]; exact runs)
        (leaveQueue_placeless (by rw [now]; exact unheld)) (by rw [left]; exact claims) (by rw [left]; exact list)
        (fun d => ?_) (fun c clear e => ?_) ?_ fun out => ?_
      · rw [orderly.serves ready.linked (by rw [now]; exact runs), serving]
      · exact clear ((freshened_holder s r ambient c).symm.trans
          (told.orderly.holder c (k.holder c (orderly.holder c e))))
      · have later : EndsAlike p (s.becomes p (s.clearedAs p)) (s.informed r ambient).timed :=
          ⟨alike.time, alike.config, alike.pressure⟩
        exact (later.steady k.steady).steady orderly.steady
      · have unlisted : (s.informed r ambient).Unlisted p := (freshened_unlisted out).orderly told.orderly
        have exactly : t.session p = (s.informed r ambient).session p := k.session unlisted
        rw [leaveQueue_session waiting, exactly, becomes_session, ← told.record out]
        rfl
    exact reportConsequences_finds (takeBankStatus_live live) found

end State

end Sys2Proof.Machine
end

section
/-! SUPPORT. BANK STATUS (R32, R52, R53, R63, R69, R71, R78, R79). -/

namespace Sys2Proof.Machine

set_option Elab.async false

namespace State

variable {s u : State} {p : PosId} {b : BankId} {r : Quad Reading} {ambient : Nat}

/-! ### A session that stands aside -/

theorem Aside.unawaiting (h : Linked .whole none s) (aside : Aside p s) : (s.session p).awaited = none := by
  cases e : (s.session p).awaited with
  | none => rfl
  | some b => exact (aside.bankQueues b ((h.queued b p).mpr e)).elim

theorem takeBankStatus_informs (h : Linked .whole none s) (aside : Aside p s) (stands : s.StandsOn p) :
    (s.takeBankStatus r ambient).session p = s.informedAs p := by
  refine takeBankStatus_stays h ((informedAs_kept s p).1.trans (Aside.unawaiting h aside)) aside.coolingQueue
    (fun n => (if_neg fun k => n k.1).symm) fun stale t _ k same => ?_
  have config : t.config = s.config :=
    (congrArg SiteControl.config k.steady.site : t.config = (s.freshened r ambient).config).trans (freshened_config s r ambient)
  rw [toldFresh_stands stale stands same config]
  exact becomes_session _ _ _

/-- What a session that delivers reads of a state. -/
structure SellsAlike (s t : State) : Prop where
  band : t.site.priceBand = s.site.priceBand
  config : t.config = s.config
  tariff : t.sales.tariff = s.sales.tariff

theorem SellsAlike.deliversAs {t : State} (h : SellsAlike s t) (x : Session) : t.deliversAs x = s.deliversAs x := by
  unfold State.deliversAs priceFor
  rw [h.band, h.config, h.tariff]

theorem unheldAs_congr {t : State} (session : t.session p = s.session p) (config : t.config = s.config) :
    t.unheldAs p = s.unheldAs p := by
  unfold unheldAs profileOf
  rw [session, config]

/-- A session that leaves HELD with its bank, once its BANK factor is cleared (R123, R142). -/
theorem takeBankStatus_delivers (h : Linked .whole none s) (aside : Aside p s) (settled : (s.session p).awaitingFresh = false)
    (stale : s.bm.freshness = .stale)
    (leaves : ¬s.ClearStays (s.session p) { (s.session p).factors with bank := false })
    (point : (s.session p).resumePoint = none) (bank : (s.session p).bank.isSome = true) (kind : (s.session p).kind = none)
    (attempt : (s.session p).attempt = none) :
    (s.takeBankStatus r ambient).session p = s.deliversAs ((s.becomes p (s.clearedAs p)).unheldAs p) := by
  have held := (not_clearStays leaves).1
  have away : (s.deliversAs ((s.becomes p (s.clearedAs p)).unheldAs p)).awaited = none := by
    show ((s.becomes p (s.clearedAs p)).session p).awaited = none
    rw [becomes_session]
    unfold clearedAs
    rw [if_pos stale]
    exact Aside.unawaiting h aside
  refine takeBankStatus_stays h away aside.coolingQueue (fun n => (n stale).elim)
    fun _ t _ k same => ?_
  have alike : SellsAlike s t := by
    have site := k.steady.site
    have tariff := k.steady.tariff
    rw [freshened_eq] at site tariff
    exact ⟨by rw [site], by unfold State.config; rw [site], tariff⟩
  have leaving : ¬t.ClearStays (t.session p) ((t.session p).factors.put .bank false) := by
    unfold ClearStays
    rw [same, alike.config]
    exact leaves
  have record : s.clearedAs p = { s.session p with factors := (s.session p).factors.put .bank false } := if_pos stale
  have goes := (clearFactor_clears (s := t) (p := p) .bank).leaves leaving
  rw [same, ← record] at goes
  have mine : (t.becomes p (s.clearedAs p)).session p = s.clearedAs p := becomes_session _ _ _
  have left : t.clearFactor endNow p .bank = _ :=
    goes.delivers (by rw [mine, record]; exact point) (by rw [mine, record]; exact bank) (by rw [mine, record]; exact kind)
      (by rw [mine, record]; exact attempt)
  have now : (t.clearFactor endNow p .bank).session p = s.deliversAs ((s.becomes p (s.clearedAs p)).unheldAs p) := by
    rw [left, shows_session]
    have whole : SellsAlike s (t.becomes p (s.clearedAs p)) := ⟨alike.band, alike.config, alike.tariff⟩
    have unheld : (t.becomes p (s.clearedAs p)).unheldAs p = (s.becomes p (s.clearedAs p)).unheldAs p :=
      unheldAs_congr (mine.trans (becomes_session _ _ _).symm) alike.config
    rw [whole.deliversAs, unheld]
  have idle : ((t.clearFactor endNow p .bank).session p).awaitingFresh = false := by
    rw [now]
    show ((s.becomes p (s.clearedAs p)).session p).awaitingFresh = false
    rw [becomes_session, record]
    exact settled
  have running : (t.session p).running = true := by
    rw [same]
    exact held_runs held
  have told : t.toldFresh p = t.clearFactor endNow p .bank := by
    refine (if_pos running).trans (if_neg ?_)
    rw [idle]
    exact Bool.false_ne_true
  rw [told]
  exact now

end State

end Sys2Proof.Machine
end

section
/-! SUPPORT. BANK STATUS, answered (R32, R52, R53, R63, R69, R71, R78, R79). -/

namespace Sys2Proof.Machine

set_option Elab.async false

theorem ambientBandOf_bands (t : Nat) : (t < 2631 → ambientBandOf t = 0) ∧ (2631 ≤ t → t < 2781 → ambientBandOf t = 1)
    ∧ (2781 ≤ t → t < 2931 → ambientBandOf t = 2) ∧ (2931 ≤ t → t < 3031 → ambientBandOf t = 3)
    ∧ (3031 ≤ t → t < 3131 → ambientBandOf t = 4) ∧ (3131 ≤ t → ambientBandOf t = 5) := by
  unfold ambientBandOf
  grind

namespace State

variable {s u : State} {p : PosId} {b : BankId} {r : Quad Reading} {ambient : Nat}

/-- Where a bank is low by the report, as the refill list has it (R69). -/
theorem reportTaken_enters (s : State) (r : Quad Reading) (ambient : Nat) (b : BankId) :
    (s.reportTaken r ambient).enters b = ((match s.config.banks.get b with
      | some e => decide ((r.get b).pressure < e.refillStart) && (s.bank b).proofState != .suspect
      | none => false) && s.bm.refillInFlight != some b && !s.bm.refillList.contains b) := by
  have bank := reportTaken_bank s r ambient b
  have config : (s.reportTaken r ambient).config = s.config := rfl
  unfold enters belowStart
  rw [bank, config]
  cases s.config.banks.get b <;> rfl

/-- What a report comes to for each position, in a state in agreement. -/
structure ReportReaches (s u : State) (r : Quad Reading) (p : PosId) : Prop where
  informs : Aside p s → s.StandsOn p → u.session p = s.informedAs p
  delivers : Aside p s → (s.session p).awaitingFresh = false → s.bm.freshness = .stale →
    ¬s.ClearStays (s.session p) { (s.session p).factors with bank := false } → (s.session p).resumePoint = none →
    (s.session p).bank.isSome = true → (s.session p).kind = none → (s.session p).attempt = none →
    u.session p = s.deliversAs ((s.becomes p (s.clearedAs p)).unheldAs p)
  selects : (s.session p).state = .connecting → (s.session p).awaitingFresh = true → (s.session p).awaited = none →
    s.bm.freshness = .stale → s.FindsBy r (s.becomes p (s.clearedAs p)) u p (s.session p).selectable
  waits : ∀ b, (s.session p).state = .connecting → (s.session p).awaitingFresh = false → (s.session p).awaited = some b →
    (s.ServesBy r p b → u.HasPlace p b)
      ∧ (¬s.ServesBy r p b → s.FindsBy r (s.becomes p (s.clearedAs p)) u p (s.session p).selectable)

theorem takeBankStatus_reaches (h : Linked .whole none s) (p : PosId) : ReportReaches s (s.takeBankStatus r ambient) r p where
  informs := takeBankStatus_informs h
  delivers := takeBankStatus_delivers h
  selects := takeBankStatus_selects h
  waits _ := takeBankStatus_waits h

theorem FindsBy.untaken {f : Frame} {z : State} {l : List BankId} (h : (s.taking f).FindsBy r (z.taking f) u p l) :
    s.FindsBy r z { u with ports := s.ports } p l :=
  ⟨fun none out => ⟨(h.1 none out).record, (h.1 none out).filed, (h.1 none out).shown⟩, h.2⟩

theorem ReportReaches.untaken {f : Frame} (h : ReportReaches (s.taking f) u r p) :
    ReportReaches s { u with ports := s.ports } r p where
  informs aside := h.informs ⟨aside.bankQueues, aside.coolingQueue, aside.closeQueue, aside.register⟩
  delivers aside := h.delivers ⟨aside.bankQueues, aside.coolingQueue, aside.closeQueue, aside.register⟩
  selects state awaits away stale := (h.selects state awaits away stale).untaken
  waits b state settled waits := (h.waits b state settled waits).imp id fun k off => (k off).untaken

end State

/-- Settles O43: the report is taken whole (`State.takeBankStatus_taken`), the refills and proofs follow
(`State.takeBankStatus_followed`, `State.takeBankStatus_quiet`), and it reaches each session as
`State.takeBankStatus_reaches` says. -/
theorem bankStatusIsTakenWhole : Obligations.BankStatusIsTakenWhole := by
  unfold Obligations.BankStatusIsTakenWhole
  refine ⟨ambientBandOf_bands, fun tag banks ambient s k => ?_⟩
  intro pressure temperature read low reached site wasStale cleared told stays serves
  let f := bankStatusFrame tag banks ambient
  let r := banks.map BankReading.reading
  have get : ∀ b, r.get b = BankReading.reading (banks.get b) := fun b => Quad.get_map _ _ _
  have pressed : ∀ b, (r.get b).pressure = pressure b := fun b => congrArg Reading.pressure (get b)
  have taken := (s.taking f).takeBankStatus_taken r ambient.toNat
  have followed := (s.taking f).takeBankStatus_followed r ambient.toNat
  have quiet := State.takeBankStatus_quiet (s := s.taking f) (r := r) (ambient := ambient.toNat)
  have reaches : Consistent s → BanksAgree s → (∀ q, (s.session q).Coherent) → ∀ p,
      State.ReportReaches (s.taking f) ((s.taking f).takeBankStatus r ambient.toNat) r p := fun h agree coherent p =>
    State.takeBankStatus_reaches ((h.taken f).linked (fun _ => coherent) nofun fun _ =>
      ⟨agree.proving, agree.before, agree.forced, agree.held, agree.opportunistic, agree.refill, agree.unawaited⟩) p
  have event : bankStatusRequest r ambient.toNat (s.taking f) = done ((s.taking f).takeBankStatus r ambient.toNat) := rfl
  generalize (s.taking f).takeBankStatus r ambient.toNat = u at taken followed quiet reaches event
  have ports : u.ports = (s.taking f).ports := taken.rest.ports
  have step := event.trans (congrArg (·, (⟨.ok, []⟩ : Reply)) (State.of_taking (s := s) ports))
  refine ⟨{ u with ports := s.ports },
    exec_answers_of_wireForm (Laws.WireForm.bankStatus tag banks ambient) rfl rfl k step, fun b => ?_, taken.freshness,
    taken.timer, taken.outside, taken.site, ?_, fun b agree runs high => ?_, fun b small trusted idle => ?_, followed.list,
    followed.settled, fun stand served runs => ?_, fun h agree coherent p => ?_⟩
  · have report := taken.reports b
    have same : ((s.taking f).readAs b (r.get b)).report = (some (pressure b), some (temperature b),
        some (bankMass s.config b (pressure b) (temperature b))) := by
      rw [get]
      rfl
    have all := report.trans same
    exact ⟨congrArg Prod.fst all, congrArg (fun x => x.2.1) all, congrArg (fun x => x.2.2) all⟩
  · exact Undisturbed.untaken (s := { s with site := u.site, bm := u.bm }) (f := f) taken.rest
  · obtain ⟨e, equipped, stop⟩ := high
    exact followed.reached b ⟨agree.proving, agree.before, agree.forced, agree.held, agree.opportunistic, agree.refill,
      agree.unawaited⟩ runs ⟨e, equipped, by rw [pressed]; exact stop⟩
  · have some_entry : ∃ e, s.config.banks.get b = some e ∧ pressure b < e.refillStart := by
      cases e : s.config.banks.get b with
      | none => simp [low, e] at small
      | some x =>
        simp [low, e] at small
        exact ⟨x, rfl, small.1⟩
    obtain ⟨e, equipped, below⟩ := some_entry
    exact followed.low b e equipped (by rw [pressed]; exact below) trusted idle
  · have examined := quiet stand (fun b p m waits => by
      have serving := served b p m waits
      rw [pressed]
      exact serving) fun b flight ⟨e, equipped, stop⟩ => runs b flight ⟨e, equipped, by rw [← pressed]; exact stop⟩
    have entered : fourIds.filter ((s.taking f).reportTaken r ambient.toNat).enters
        = fourIds.filter fun b => low b && s.bm.refillInFlight != some b && !s.bm.refillList.contains b := by
      refine List.filter_congr fun b _ => ?_
      rw [State.reportTaken_enters, pressed]
      rfl
    have records : ∀ b, (s.taking f).readAs b (r.get b) = read b := fun b => by
      rw [get]
      rfl
    rw [entered] at examined
    unfold State.reportTaken at examined
    rw [records, records, records, records] at examined
    exact Examined.untaken (f := f) examined
  · obtain ⟨informs, delivers, selects, waits⟩ := (reaches h agree coherent p).untaken
    have serving : ∀ d, s.ServesBy r p d ↔ serves p d := fun d => by
      unfold State.ServesBy
      rw [pressed]
    intro x y finds
    have find : ∀ l, s.FindsBy r (s.becomes p (s.clearedAs p)) { u with ports := s.ports } p l → finds l := fun l found =>
      ⟨fun none out => found.1 (fun d m => (serving d).not.mpr (none d m)) out, fun before d after split away here clear =>
        found.2 before d after split (fun c m => (serving c).not.mpr (away c m)) ((serving d).mpr here) clear⟩
    exact ⟨fun aside settled stand => informs aside stand, fun aside settled stale leaves point bank kind attempt =>
        delivers aside settled stale leaves point bank kind attempt,
      fun state awaits _ away stale => find _ (selects state awaits away stale),
      fun b state settled queued => ⟨fun here => (waits b state settled queued).1 ((serving b).mpr here),
        fun off => find _ ((waits b state settled queued).2 ((serving b).not.mpr off))⟩⟩

end Sys2Proof.Machine
end
